-- ==== Sys2Proof/Word.lean ====
section
/-! DEFINITION. Words and the indexes of the part's numbered resources (R4, R8). -/

namespace Sys2Proof

/-- A byte of a frame, an object or a record. -/
abbrev Byte := BitVec 8
/-- A register value (R11). -/
abbrev Word := BitVec 32
/-- A register address: block in bits 31:24, offset in bits 23:0 (R11). -/
abbrev Addr := BitVec 32
/-- Lane L0000 to L2047 (R4). -/
abbrev Lane := Fin 2048
/-- Fibre number 16 e + f (R4, R31). -/
abbrev Fibre := Fin 256
/-- Optical engine OE0 to OE15 (R4). -/
abbrev Engine := Fin 16
/-- Tile T00 to T63; the Cellar and Estuary slices have the same index (R4). -/
abbrev Tile := Fin 64
/-- Quadrant Q0 to Q3 (R4). -/
abbrev Quad := Fin 4
/-- Memory bridge BRG0 to BRG3 (R4). -/
abbrev Bridge := Fin 4
/-- A power die of R516. -/
abbrev Die := Fin 22
/-- A Shoreline link of R507. -/
abbrev D2dLink := Fin 20
/-- A context number, 0 to 2,097,151 (R212). -/
abbrev CtxNum := BitVec 21
/-- A data ring of one engine, numbered 128 d + 8 f + w with d = 0 transmit (R466). -/
abbrev RingIx := Fin 256

end Sys2Proof
end

