-- ==== Sys2Proof/Syntax.lean ====
section
/-! DEFINITION. The commands of the block: one constructor of `Instr` for each row of spec/opcode_table.json.
A host command carries the session, tag and flags of its frame and its parameters, the reserved ones among them
(R630 judges those). An event of the part carries what the outside world brings with it. -/

namespace Sys2Proof

/-! ## What the commands carry -/

/-- The frame data of a host command: its session, tag and FLAGS byte (R52, R54). -/
structure Issuer where
  session : BitVec 16
  tag : BitVec 32
  flags : Byte
  deriving DecidableEq, Repr

/-- A frame at the MGMT port (R48, R52): its Ethernet header, the command header and `body`, the payload after the
32-byte header: parameters, the 16-byte tag and what follows it (R53). -/
structure MgmtFrame where
  dst : BitVec 48
  src : BitVec 48
  etherType : BitVec 16
  /-- The IEEE 802.1Q tag control words, outermost first. -/
  tags : List (BitVec 16)
  version : Byte
  flags : Byte
  opcode : BitVec 16
  tag : BitVec 32
  session : BitVec 16
  plen : BitVec 16
  seq : BitVec 64
  nonceSalt : BitVec 32
  nonceSeq : BitVec 64
  body : List Byte
  deriving DecidableEq, Repr

/-- An 80-byte cell: header bits 127:0 and payload, byte 16 of the cell in bits 511:504 (R98). -/
structure Cell where
  hdr : BitVec 128
  pay : BitVec 512
  deriving DecidableEq, Repr

/-- The link cell of a flit (R109). -/
structure LinkCell where
  fseq : BitVec 16
  ack : BitVec 16
  ltype : Byte
  txLanes : Byte
  rxLanes : Byte
  /-- The reserved byte 7. -/
  rsv7 : Byte
  slotMask : BitVec 16
  /-- Credit limits of classes 0 to 7. -/
  credit : List (BitVec 16)
  incarnation : BitVec 32
  /-- The reserved bytes 30 to 71. -/
  rsv : BitVec 336
  crc : BitVec 64
  deriving DecidableEq, Repr

/-- A flit: its 15 cell slots and its link cell (R108). -/
structure Flit where
  slots : List Cell
  link : LinkCell
  deriving DecidableEq, Repr

/-- An Ethernet frame: `body` is what follows the EtherType, up to the FCS. -/
structure EthFrame where
  dst : BitVec 48
  src : BitVec 48
  vlan : Option (BitVec 16)
  etherType : BitVec 16
  body : List Byte
  fcsOk : Bool
  deriving DecidableEq, Repr

/-- A cell train (R120): its addresses, its header and its cells. -/
structure Train where
  dst : BitVec 48
  src : BitVec 48
  version : Byte
  count : Byte
  cells : List Cell
  fcsOk : Bool
  deriving DecidableEq, Repr

/-- The reset pin that rises. -/
inductive ResetPin where
  | por
  | sys
  deriving DecidableEq, Repr

/-- The IEEE 1149.1 instructions of R553; every other one is locked. -/
inductive JtagInstr where
  | bypass
  | idcode
  | samplePreload
  | extest
  | other
  deriving DecidableEq, Repr

/-- A self-test record of R547. -/
structure TestRecord where
  func : BitVec 16
  kind : Byte
  outcome : Byte
  inst : BitVec 16
  bit : BitVec 16
  addr : BitVec 32
  repair : Byte
  perm : Byte
  deriving DecidableEq, Repr

/-- A word of Shoreline data as its receiver took it (R508): its group, its moment within the millisecond in ns, the data and the
CRC-16 that came with it. -/
structure ShoreWord where
  group : Fin 16
  at_ : Fin 1000000
  data : BitVec 256
  crc : BitVec 16
  deriving DecidableEq, Repr

/-- The wires that fail in one direction of a Shoreline link: a group, and a wire of it, 0 to 63 the data wires and 64 to 67 the
spares (R507, R510). -/
abbrev FailedWires := List (Fin 16 × Fin 68)

/-- What one boot step found (R524, R513, R514, R537 to R540): the world's side of the step. -/
structure BootReport where
  /-- Milliseconds since the pin's release. -/
  elapsedMs : Nat
  /-- The faults that the step's tests found, and its passes. -/
  records : List TestRecord
  /-- Shoreline links trained: link, and the wires that failed toward the logic die and toward the far die. -/
  links : List (D2dLink × FailedWires × FailedWires)
  /-- Spare bond nets that a tile field needs, in each direction. -/
  bondSpares : List (Tile × Byte × Byte)
  /-- Stacks trained and initialised on each bridge. -/
  stacksUp : List (Bridge × Byte)
  /-- Data rings that ended their seek VERIFIED: engine, ring, heater code, tone. -/
  rings : List (Engine × RingIx × BitVec 12 × BitVec 3)
  /-- The record write read back good (R558). -/
  recordWriteOk : Bool
  deriving DecidableEq, Repr

/-- Parameters of one item of TRIGGER_WRITE (R380). -/
inductive TrigItem where
  | counter (index : BitVec 16) (rsv : BitVec 16) (value : BitVec 32)
  | entry (index : BitVec 32) (counter : BitVec 16) (rsv : BitVec 16) (threshold : BitVec 32)
      (ctx : BitVec 32) (desc : BitVec 512)
  | invalidate (index : BitVec 32)
  deriving DecidableEq, Repr

/-- What a calibration measured (R461, R462). Rings are those of the engine: the 256 data rings, and then the 2,304
routing rings. -/
structure CalReport where
  /-- Regressed rings: the coefficient of each sensor, and the residual of the fit in GHz. -/
  fits : List (Fin 2560 × List (BitVec 16) × Nat)
  /-- Cold resonance codes. -/
  cold : List (Fin 2560 × BitVec 12)
  /-- Dark offsets of the monitor photodiodes. -/
  darks : List (Fin 2560 × BitVec 16)
  /-- The drives of an attenuator, for OPEN and for probe level. -/
  drives : List (Fin 16 × BitVec 16 × BitVec 16)
  deriving DecidableEq, Repr

/-- How firmware ended a PENDING command it runs on its own: well, with what a calibration measured, or with a firmware
fault code (R69, R70). -/
inductive FwEnd where
  | good
  | calibrated (r : CalReport)
  | fault (code : BitVec 16) (applied : BitVec 32)
  deriving DecidableEq, Repr

/-- What one 1 ms pilot window measured: the correlated depth of each of the eight tones, in 0.01% (R450). -/
structure PilotWindow where
  depths : List (BitVec 16)
  deriving DecidableEq, Repr

/-- A data ring, or the rings of the path that ends at an exchange ring. -/
inductive PilotTarget where
  | ring (e : Engine) (r : RingIx)
  | path (e : Engine) (p : Fin 128)
  deriving DecidableEq, Repr

/-- Where light appeared. -/
inductive LightTarget where
  | fibre (f : Fibre)
  | path (e : Engine) (p : Fin 128)
  deriving DecidableEq, Repr

/-- Where light went: a fibre, as its broadband tap or a back-reflection shows, or one wavelength of it. -/
inductive LossTarget where
  | fibre (f : Fibre) (backReflection : Bool)
  | lane (l : Lane)
  deriving DecidableEq, Repr

/-- Direction of a lane at Gorti. -/
inductive Dir where
  | tx
  | rx
  deriving DecidableEq, Repr

/-- PTP messages (R300). -/
inductive PtpKind where
  | sync
  | followUp
  | announce
  | pdelayReq
  | pdelayResp
  | pdelayRespFollowUp
  | delayReq
  | management
  deriving DecidableEq, Repr

/-- An Announce data set, in the order the default best master comparison takes it. -/
structure AnnounceData where
  priority1 : Byte
  clockClass : Byte
  accuracy : Byte
  variance : BitVec 16
  priority2 : Byte
  gmIdentity : BitVec 64
  stepsRemoved : BitVec 16
  deriving DecidableEq, Repr

/-- A PTP message as IEEE 1588 lays it out, with what the servo answers to the measurement that it completes: the servo's
control law is no rule of the spec. -/
structure PtpMsg where
  kind : PtpKind
  domain : Byte
  /-- Length of the message, which a C-mode cell gives in AUX 7:0 (R301). -/
  len : Byte
  /-- The twoStepFlag. -/
  twoStep : Bool
  correction : BitVec 64
  /-- sourcePortIdentity and sequenceId. -/
  sender : BitVec 80
  seq : BitVec 16
  /-- The time-stamp in the body: seconds and nanoseconds. -/
  sec : BitVec 48
  ns : BitVec 32
  /-- requestingPortIdentity of a peer-delay answer. -/
  requester : BitVec 80
  announce : AnnounceData
  servoDelta : Int
  servoRate : Int
  deriving DecidableEq, Repr

/-- An error that an access meets: which of its 64-byte blocks, from 0, the place of that block in the HBM (R222), and how
many of the block's 35 symbols are bad (R219). Where the block's address settles its bridge and its stack (R209, R215, R420),
`stack` is not looked at. -/
structure BlockErr where
  block : Nat
  stack : BitVec 5
  pch : Byte
  bank : Byte
  row : BitVec 24
  symbols : Fin 36
  deriving DecidableEq, Repr

/-- A block that the patrol scrub finds in error (R219, R220, R222): its partition (7: unassigned), its byte address within
it, which settles its bridge and its stack (R209), its place there, and its bad symbols. -/
structure ScrubFinding where
  part : BitVec 3
  addr : Nat
  pch : Byte
  bank : Byte
  row : BitVec 24
  symbols : Fin 36
  deriving DecidableEq, Repr

/-- A RECORD or AGREE on a sideband (R510). -/
structure WidthRecord where
  version : Byte
  kind : Byte
  round : BitVec 16
  mask : BitVec 16
  /-- Bytes 6 and 7. -/
  rsv : BitVec 16
  /-- Bytes 8 to 71, byte 8 the most significant: four entries for each group. -/
  repair : BitVec 512
  crc : BitVec 32
  deriving DecidableEq, Repr

/-- What a die's power meters and sensors say (R517): the mean power over the last period and the least it can reach at once,
in 1/8 W; the hottest sensor and its forecast change, in 1/16 °C. -/
structure DieReading where
  measured : BitVec 16
  floor : BitVec 16
  temp : BitVec 16
  slope : BitVec 16
  deriving DecidableEq, Repr

/-- A power-step forecast as PROPOSE carries it (R517): onset in µs after the period's start, rise in 1/16 °C, slew in 1/16 °C
per ms. -/
structure StepForecast where
  onset : BitVec 16
  rise : BitVec 16
  slew : BitVec 16
  deriving DecidableEq, Repr

/-- An event as its source raises it (R579, R580); its severity is its code's. -/
structure EventIn where
  code : BitVec 16
  source : BitVec 12
  data : List Byte
  deriving DecidableEq, Repr

/-- What an engine measured over one burst, for one contributor lane of a Swell window (R491, R498). -/
structure SwellInput where
  lane : Lane
  present : Bool
  /-- Residual skew in 1/64 symbol. -/
  residual : BitVec 16
  /-- The gain trim that its slot asks for: its step against the calibrated one, in 0.01 dB. -/
  trim : BitVec 16
  deriving DecidableEq, Repr

/-- What the converter of one engine and wavelength read of a burst (R490, R491): the codes of symbols 0 to 63, and the codes
of element symbols, by their number. -/
structure SwellBurst where
  engine : Engine
  lambda : Fin 8
  fit : List Byte
  elements : List (Nat × Byte)
  deriving DecidableEq, Repr

/-! ## The rows of the table -/

/-- One constructor for each row of spec/opcode_table.json, in the table's order. -/
inductive Instr where
  | powerOnResetAssert
  | systemResetAssert
  | resetRelease (pin : ResetPin) (bistSkip : Bool)
  | bootStepEnd (rep : BootReport)
  | railUndervoltage
  | railRecoveryExpiry
  | refclkStop
  | thermalTrip (die : Die) (temp : BitVec 16)
  | thermalThrottle (die : Die) (temp : BitVec 16)
  | jtagInstruction (i : JtagInstr) (trstLow : Bool)
  | extestExit (trstLow : Bool)
  | mgmtFrameReceive (f : MgmtFrame)
  | sessionOpen (iss : Issuer) (x25519 : BitVec 256) (kemKey : BitVec 9472) (nonce : BitVec 256)
  | sessionFinish (iss : Issuer) (session : BitVec 16) (rsv : BitVec 16) (edKey : BitVec 256)
      (mldsaKey : BitVec 15616) (edSig : BitVec 512) (mldsaSig : BitVec 26472)
  | sessionClose (iss : Issuer)
  | sessionList (iss : Issuer)
  | devIdentify (iss : Issuer)
  | nop (iss : Issuer) (params : List Byte)
  | cmdPoll (iss : Issuer) (tag : BitVec 32)
  | cmdCancel (iss : Issuer) (tag : BitVec 32)
  | objOpen (iss : Issuer) (type : Byte) (rsv : BitVec 24) (length : BitVec 32)
  | objWrite (iss : Issuer) (handle : BitVec 16) (rsv : BitVec 16) (offset : BitVec 32) (rsv2 : BitVec 128)
      (data : List Byte)
  | objClose (iss : Issuer) (handle : BitVec 16) (rsv : BitVec 16) (digest : BitVec 384)
  | objRead (iss : Issuer) (handle : BitVec 16) (rsv : BitVec 16) (offset count : BitVec 32) (met : List BlockErr)
  | objFree (iss : Issuer) (handle : BitVec 16) (rsv : BitVec 16)
  | regRead (iss : Issuer) (addr : Addr)
  | regWrite (iss : Issuer) (addr : Addr) (value : Word)
  | regModify (iss : Issuer) (addr : Addr) (mask value : Word)
  | regReadBlock (iss : Issuer) (first : Addr) (count : BitVec 16)
  | regWriteList (iss : Issuer) (pairs : List (Addr × Word)) (enters : Option (Nat × BitVec 12))
  | rcRegisterRead (iss : Issuer) (addr : Addr) (sameCycle : Nat)
  | latchingRegisterRead (iss : Issuer) (addr : Addr)
  | w1cRegisterWrite (iss : Issuer) (addr : Addr) (value hwSet : Word)
  | cmdConfigWrite (iss : Issuer) (value : Word)
  | tcConfigWrite (iss : Issuer) (addr : Addr) (value : Word)
  | tblCmdWriteEntry (iss : Issuer) (value : Word)
  | tblCmdReadEntry (iss : Issuer) (value : Word)
  | tblCmdInvalidateEntry (iss : Issuer) (value : Word)
  | tblCmdMoveEntries (iss : Issuer) (value : Word)
  | tableOperationComplete
  | spolBind (iss : Issuer)
  | spolRead (iss : Issuer)
  | spolUnbind (iss : Issuer)
  | spolOperationComplete
  | tblWrite (iss : Issuer) (qmask table flags rsv : Byte) (index : BitVec 32) (image : BitVec 256)
  | tblRead (iss : Issuer) (quad table flags rsv : Byte) (index : BitVec 32)
  | tblInvalidate (iss : Issuer) (qmask table flags rsv : Byte) (index : BitVec 32)
  | tblMove (iss : Issuer) (qmask table flags rsv : Byte) (src dst count : BitVec 32)
  | tblBulkWrite (iss : Issuer) (qmask table flags rsv : Byte) (handle rsv2 : BitVec 16) (first count : BitVec 32)
      (met : List BlockErr)
  | tblBulkRead (iss : Issuer) (quad table flags rsv : Byte) (first count : BitVec 32)
  | soundConfig (iss : Issuer) (rsv : BitVec 32) (rate : BitVec 32) (repair : Byte) (rsv2 : BitVec 24)
  | genActivate (iss : Issuer) (flags rsv : Byte) (handle : BitVec 16) (t : BitVec 64) (met : List BlockErr)
  | genStatus (iss : Issuer)
  | genAbandon (iss : Issuer)
  | planLoad (iss : Issuer) (handle rsv : BitVec 16) (met : List BlockErr)
  | portConfig (iss : Issuer) (fibre : BitVec 16) (layout rsv : Byte)
  | portStatus (iss : Issuer) (lane rsv : BitVec 16)
  | portEnable (iss : Issuer) (lane : BitVec 16) (enable rsv : Byte)
  | linkRetrain (iss : Issuer) (lane rsv : BitVec 16)
  | discoveryRead (iss : Issuer) (fibre count : BitVec 16) (flags : Byte) (rsv : BitVec 24)
  | oeStatus (iss : Issuer) (engine : Byte) (rsv : BitVec 24)
  | oeCalibrate (iss : Issuer) (engine kind flags rsv : Byte)
  | ringReseek (iss : Issuer) (engine dir fibre mask : Byte)
  | pilotPlan (iss : Issuer) (mask rsv : BitVec 16) (tones : List Byte)
  | cswCircuit (iss : Issuer) (op mask a b : Byte)
  | cswStatus (iss : Issuer) (engine : Byte) (rsv : BitVec 24)
  | swlCalibrate (iss : Issuer) (mask rsv : BitVec 16)
  | swlDeskewRead (iss : Issuer) (fibre count : BitVec 16)
  | timeRead (iss : Issuer)
  | timeAdjust (iss : Issuer) (flags : Byte) (rsv : BitVec 24) (delta : BitVec 64) (base : BitVec 32)
  | ptpConfig (iss : Issuer) (domain flags logSync logAnnounce logPdelay prio1 prio2 rsv : Byte)
      (asym : List (BitVec 16 × BitVec 48))
  | tsQueueRead (iss : Issuer) (first count : Byte) (rsv : BitVec 16)
  | timedLaunch (iss : Issuer) (lane ident : BitVec 16) (flags : Byte) (rsv : BitVec 24) (t : BitVec 64)
      (length : BitVec 16) (rsv2 : BitVec 48) (data : List Byte)
  | tideLoad (iss : Issuer) (handle rsv : BitVec 16) (met : List BlockErr)
  | tideRead (iss : Issuer) (flags rsv : Byte) (lane : BitVec 16)
  | tideCommit (iss : Issuer) (flags : Byte) (rsv : BitVec 24) (a : BitVec 64)
  | tideCancel (iss : Issuer)
  | groupCreate (iss : Issuer) (group : BitVec 16) (weight rsv : Byte) (base count : BitVec 32) (m rsv2 : BitVec 16)
      (members : List Word)
  | groupDestroy (iss : Issuer) (group rsv : BitVec 16)
  | groupQuery (iss : Issuer) (group first count rsv : BitVec 16)
  | groupWeight (iss : Issuer) (group : BitVec 16) (weight rsv : Byte)
  | ctxQuery (iss : Issuer) (ctx : BitVec 32) (first count : BitVec 16) (met : List BlockErr)
  | ctxAbort (iss : Issuer) (ctx : BitVec 32)
  | memberExclude (iss : Issuer) (group : BitVec 16) (flags rsv : Byte) (ctx : BitVec 32) (count rsv2 : BitVec 16)
      (members : List (BitVec 16)) (met : List BlockErr)
  | ebbRead (iss : Issuer) (group : BitVec 16) (flags rsv : Byte)
  | triggerWrite (iss : Issuer) (kind rsv : Byte) (count : BitVec 16) (items : List TrigItem)
  | triggerRead (iss : Issuer) (kind rsv : Byte) (count : BitVec 16) (first : BitVec 32)
  | bwkGroupCreate (iss : Issuer) (group : BitVec 16) (k rsv : Byte) (base count z : BitVec 32) (members : List Word)
  | bwkGroupDestroy (iss : Issuer) (group rsv : BitVec 16)
  | bwkQuery (iss : Issuer) (group rsv : BitVec 16) (first count : BitVec 32)
  | partRead (iss : Issuer)
  | partResize (iss : Issuer) (id rsv : Byte) (size : BitVec 16)
  | memErrorRead (iss : Issuer) (bridge rsv : Byte) (first count : BitVec 16)
  | testRun (iss : Issuer) (func : BitVec 16) (kinds flags : Byte)
  | testResult (iss : Issuer) (test first count rsv : BitVec 16)
  | repairApply (iss : Issuer) (kind flags : Byte) (func inst bit : BitVec 16) (addr : BitVec 32)
  | funcReset (iss : Issuer) (func : BitVec 16) (flags rsv : Byte)
  | deviceReset (iss : Issuer)
  | resetDelayExpiry
  | powerCap (iss : Issuer) (cap rsv : BitVec 16)
  | powerStatus (iss : Issuer)
  | telCounterRead (iss : Issuer) (set flags : Byte) (count : BitVec 16) (first : BitVec 32)
  | telCounterClear (iss : Issuer) (set rsv : Byte) (count : BitVec 16) (first : BitVec 32)
  | telExportConfig (iss : Issuer) (target flags minSev rsv : Byte) (rate rsv2 : BitVec 16) (record flow : BitVec 32)
  | logRead (iss : Issuer) (flags minSev : Byte) (rsv : BitVec 16) (count : BitVec 32) (first : BitVec 64)
      (met : List BlockErr)
  | attest (iss : Issuer) (nonce : BitVec 256)
  | certRead (iss : Issuer) (scheme depth : Byte) (rsv : BitVec 16)
  | fwUpdate (iss : Issuer) (handle rsv : BitVec 16) (met : List BlockErr)
  | fwActivate (iss : Issuer) (slot flags : Byte) (rsv : BitVec 16)
  | commandComplete (session : BitVec 16) (tag : BitVec 32) (fw : FwEnd)
  | keepaliveExpiry (slot : Fin 8)
  | handshakeTimeout (slot : Fin 8)
  | watchdogExpiry (engine : Fin 4)
  | funcResetEnd (func : BitVec 12)
  | flitReceive (lane : Lane) (flit : Flit) (fecOk : Bool)
  | replayTimerExpiry (port : Lane)
  | ackStallTimeout (port : Lane)
  | linkSilenceTimeout (port : Lane)
  | laneSilenceTimeout (lane : Lane)
  | flitTransmit (lane : Lane)
  | ethFrameReceive (port : Lane) (frame : EthFrame) (overrun : Bool)
  | cellTrainReceive (port : Lane) (train : Train) (overrun : Bool)
  | eModeTransmitStart (port : Lane)
  | trainFillExpiry (port : Lane)
  | eKeepaliveSend (port : Lane)
  | eModeSilenceTimeout (port : Lane)
  | laneDrop (lane : Lane) (dir : Dir)
  | laneReturn (lane : Lane) (dir : Dir)
  | discoverSend (fibre : Fibre)
  | discoverReceive (lane : Lane) (src : BitVec 48) (payload : BitVec 512)
  | partnerLostTimeout (fibre : Fibre)
  | fibreComparisonComplete (fibre : Fibre)
  | portTrainingComplete (port : Lane)
  | cellLookup (tile : Tile)
  | cellAdmission (tile : Tile)
  | landedCellRejudge (tile : Tile)
  | generatedCellReoffer (tile : Tile)
  | undertowReadback (tile : Tile) (queue : Fin 520) (met : List BlockErr)
  | headSweep (tile : Tile)
  | xbarSlot
  | depthReport
  | macAgeSweep (quad : Quad)
  | soundingVisit (met : List BlockErr)
  | genActivation
  | genRetire
  | ptpMessageReceive (port : Lane) (msg : PtpMsg)
  | ptpMessageSend (port : Lane) (kind : PtpKind)
  | announceTimeout (sync : Bool)
  | slewEnd
  | ppsPulse
  | ppsPulseEnd
  | timedLaunchDue (tile : Tile)
  | tideCheckEnd
  | tideActivation (port : Lane)
  | tideWindowBoundary (port : Lane)
  | laneDivertStart (lane : Lane)
  | causewayChange (engine : Engine)
  | causewayChangeEnd (engine : Engine) (captured : List (Fin 2304 × BitVec 12))
  | laneDivertEnd (lane : Lane) (detuned : Bool)
  | swellInstanceStart (engine : Engine) (lambda : Fin 8) (present : List Lane)
  | swellInstanceEnd (inputs : List SwellInput) (bursts : List SwellBurst)
  | swlCalibrationExpiry (engine : Engine) (halfSpent : Bool)
  | swlCalibrateTimeout
  | openReceive (tile : Tile)
  | cupReceive (tile : Tile)
  | codeReceive (tile : Tile)
  | deltaApply (bridge : Bridge) (met : List BlockErr)
  | ctxLineFetchComplete (tile : Tile) (met : List BlockErr)
  | headerUnpin (ctx : CtxNum)
  | paceRoundStart (ctx : CtxNum)
  | missingRound (ctx : CtxNum) (met : List BlockErr)
  | resendReceive (tile : Tile) (met : List BlockErr)
  | contextDeadline (ctx : CtxNum)
  | lingerExpiry (ctx : CtxNum)
  | ringLockAcquire (e : Engine) (r : RingIx)
  | ringLockLoss (target : PilotTarget)
  | relockStart (e : Engine) (r : RingIx) (captured : Option (BitVec 12))
  | captureTimeout (e : Engine) (r : RingIx)
  | pilotWindowEnd (target : PilotTarget) (window : PilotWindow)
  | cooldownExpiry (e : Engine) (r : RingIx)
  | seekResonance (e : Engine) (r : RingIx) (code : BitVec 12)
  | seekSweepEnd (e : Engine) (r : RingIx)
  | seekRetryExpiry (e : Engine) (r : RingIx)
  | feedforwardSample (e : Engine) (temps : List (BitVec 16)) (loop : List (RingIx × BitVec 12))
  | lightLossDetect (target : LossTarget)
  | probeBurst (f : Fibre)
  | lightPresent (target : LightTarget)
  | openDwellExpiry (f : Fibre)
  | laserInputFail (e : Engine) (b : Bool)
  | laserInputGoodExpiry (e : Engine) (b : Bool)
  | errorWindowEnd (ends : List (Lane × Nat × Nat))
  | quarantineUnitDue
  | patrolScrub (b : Bridge) (finding : Option ScrubFinding)
  | bridgeZeroingComplete (b : Bridge)
  | shorelineCrcLimit (l : D2dLink) (words : List ShoreWord)
  | widthRecordPublish (l : D2dLink)
  | widthRecordReceive (l : D2dLink) (rec : WidthRecord)
  | powerPeriod (forecast : List (Die × BitVec 16)) (logic : DieReading) (need : BitVec 16) (ratio : Fin 17)
      (steps : List (Engine × StepForecast)) (drivers : List Tile)
  | powerReplyReceive (d : Die)
  | proposeReceive (d : Die) (expected : BitVec 16) (now : DieReading)
  | proposeTimeout (d : Die)
  | tileRatioStep (tile : Tile)
  | testStaggerExpiry
  | testEnd (entry : Fin 2) (faults : List TestRecord) (durationUs : BitVec 32)
  | eventRaise (ev : EventIn)
  | telStageTimer
  | coalesceWindowExpiry (code : BitVec 16) (source : BitVec 12)
  | holdRelease
  | telStreamSend
  | telCollectorSend (i : Fin 4)
  | refclkRunExpiry
  deriving DecidableEq, Repr

end Sys2Proof
end

