-- ==== Sys2Proof/Decode.lean ====
section
/-! DEFINITION. Commands from words. The spec gives no row of its table any bits: commands are frames, cells, pins and
moments, and none is spelled by an instruction word. -/

namespace Sys2Proof

/-- The command that a word spells by the table's bits: none, for no row has bits. -/
def decodeTableWord (_nbits _w : Nat) : Option Instr := none

end Sys2Proof
end

