-- ==== Sys2Proof/Machine/Data.lean ====
section
/-! DEFINITION. The data shapes that the whole model shares: sparse stores in one canonical form, bytes of numbers
in the order of R9, saturating counts (R16) and the relations between the numbered resources (R4). -/

namespace Sys2Proof.Machine

/-- A sparse store: pairs of a key and a value. Canonical: keys strictly rising. -/
abbrev AMap (α : Type) := List (Nat × α)

/-- The value stored at a key. -/
def AMap.find {α : Type} : AMap α → Nat → Option α
  | [], _ => none
  | (a, v) :: m, k => if k = a then some v else AMap.find m k

/-- The store with a value at a key. -/
def AMap.put {α : Type} : AMap α → Nat → α → AMap α
  | [], k, v => [(k, v)]
  | (a, w) :: m, k, v =>
    if k < a then (k, v) :: (a, w) :: m else if k = a then (k, v) :: m else (a, w) :: AMap.put m k v

/-- The store without a key. -/
def AMap.del {α : Type} (m : AMap α) (k : Nat) : AMap α := m.filter fun p => p.1 ≠ k

/-- The value at a key; `d` is what an unlisted key reads as. -/
def AMap.getD {α : Type} (m : AMap α) (k : Nat) (d : α) : α := (m.find k).getD d

/-- The store with `v` read at `k`: nothing is listed where `v` is what an unlisted key reads as. -/
def AMap.setD {α : Type} [DecidableEq α] (m : AMap α) (k : Nat) (d v : α) : AMap α :=
  if v = d then m.del k else m.put k v

/-- The store with the value at a key changed by `f`. -/
def AMap.modD {α : Type} [DecidableEq α] (m : AMap α) (k : Nat) (d : α) (f : α → α) : AMap α :=
  m.setD k d (f (m.getD k d))

/-- The store with the value at a key, where one is listed, changed by `f`. -/
def AMap.upd {α : Type} (m : AMap α) (k : Nat) (f : α → α) : AMap α :=
  match m.find k with
  | some v => m.put k (f v)
  | none => m

/-- Keys strictly rising, all above `lo`. -/
def AMap.wfFrom {α : Type} : AMap α → Nat → Bool
  | [], _ => true
  | (a, _) :: m, lo => decide (lo ≤ a) && AMap.wfFrom m (a + 1)

/-- The canonical form: keys strictly rising. -/
def AMap.wf {α : Type} (m : AMap α) : Bool := m.wfFrom 0

/-- The canonical form of a store that lists no key with the value an unlisted key reads as. -/
def AMap.wfD {α : Type} [DecidableEq α] (m : AMap α) (d : Nat → α) : Bool :=
  m.wf && m.all fun p => decide (p.2 ≠ d p.1)

/-! ## Lists -/

/-- The list with its `i`-th entry changed; unchanged where there is none. -/
def modAt {α : Type} : List α → Nat → (α → α) → List α
  | [], _, _ => []
  | x :: xs, 0, f => f x :: xs
  | x :: xs, n + 1, f => x :: modAt xs n f

/-- The first entry that meets `p`, taken out of its list. -/
def takeFirst {α : Type} (p : α → Bool) : List α → Option (α × List α)
  | [] => none
  | x :: xs => if p x then some (x, xs) else (takeFirst p xs).map fun (y, ys) => (y, x :: ys)

/-- An entry put into a list that rises by a key, after its equals. -/
def insertBy {α : Type} (key : α → Nat) (x : α) : List α → List α
  | [] => [x]
  | y :: ys => if key x < key y then x :: y :: ys else y :: insertBy key x ys

/-- A list in rising order of a key, equals in their order. -/
def sortBy {α : Type} (key : α → Nat) (xs : List α) : List α := xs.foldl (fun ys x => insertBy key x ys) []

/-- `List.range` from a first number. -/
def rangeFrom (first count : Nat) : List Nat := (List.range count).map (first + ·)

/-! ## Bytes, most significant first (R9) -/

/-- The low `n` bytes of a number, most significant byte first. -/
def beBytes : Nat → Nat → List Byte
  | 0, _ => []
  | n + 1, v => BitVec.ofNat 8 (v / 256 ^ n) :: beBytes n v

/-- The low `n` bytes of a bit vector, most significant byte first. -/
def bvBytes {w : Nat} (n : Nat) (x : BitVec w) : List Byte := beBytes n x.toNat

/-- The number that bytes give, most significant byte first. -/
def beNat (bs : List Byte) : Nat := bs.foldl (fun n b => n * 256 + b.toNat) 0

/-- `count` bytes from `off`. -/
def slice (bs : List Byte) (off count : Nat) : List Byte := (bs.drop off).take count

/-! ## CRC-32C -/

/-- The reflected CRC-32C register after one byte (R250). -/
def crc32cByte (c b : Nat) : Nat :=
  (List.range 8).foldl (fun c _ => if c % 2 = 1 then c / 2 ^^^ 0x82F63B78 else c / 2) (c ^^^ b)

def crc32c (seed : Nat) (bs : List Byte) : Nat := bs.foldl (fun c b => crc32cByte c b.toNat) seed

/-- The CRC-32C of bytes, with all ones before and inverted after, as the code is published (PRESUMED). -/
def crc32cOf (bs : List Byte) : BitVec 32 := ~~~ BitVec.ofNat 32 (crc32c 0xFFFFFFFF bs)

/-- A register value as a command carries it: least significant byte first (R9). -/
def leBytes (w : Word) : List Byte := (beBytes 4 w.toNat).reverse

/-- The register value that four bytes of a command give. -/
def leWord (bs : List Byte) : Word := BitVec.ofNat 32 (beNat bs.reverse)

/-- Bytes padded with zeros at the end, or cut, to a length. -/
def padTo (n : Nat) (bs : List Byte) : List Byte := bs.take n ++ List.replicate (n - bs.length) 0

/-- Bit `i` of a number. -/
def bit (n i : Nat) : Bool := n / 2 ^ i % 2 = 1

/-- The bits set in a mask, lowest first. -/
def maskBits (w n : Nat) : List Nat := (List.range w).filter (bit n)

/-- The number of bits set among the low `w` bits. -/
def popCount (w n : Nat) : Nat := (maskBits w n).length

/-- A Bool as a register bit. -/
def b2n (b : Bool) : Nat := if b then 1 else 0

/-! ## Saturating counts (R16) -/

/-- A count of `w` bits that stays at its all-ones value. -/
def satAdd {w : Nat} (x : BitVec w) (n : Nat) : BitVec w :=
  BitVec.ofNat w (min (x.toNat + n) (2 ^ w - 1))

/-- A 32-bit count kept as a number, which stays at its all-ones value. -/
def satSum (a b : Nat) : Nat := min (a + b) (2 ^ 32 - 1)

/-! ## Numbering (R4) -/

/-- The fibre 16 e + f of a lane. -/
def fibreOf (l : Nat) : Nat := l / 8
/-- The engine of a lane. -/
def engineOf (l : Nat) : Nat := l / 128
/-- The tile of a lane. -/
def tileOf (l : Nat) : Nat := l / 32
/-- The quadrant of a lane. -/
def quadOf (l : Nat) : Nat := l / 512
/-- The wavelength of a lane. -/
def lambdaOf (l : Nat) : Nat := l % 8
/-- The lane slot of a lane in its tile. -/
def slotOf (l : Nat) : Nat := l % 32
/-- The first lane of the port of width `n` that holds a lane (R4). -/
def portBase (l n : Nat) : Nat := l / n * n
/-- The lanes of a port. -/
def portLanes (p n : Nat) : List Nat := rangeFrom p n

end Sys2Proof.Machine
end

