-- ==== Sys2Proof/Machine/StateCore.lean ====
section
/-! DEFINITION. The state of the switching core: cells in queues, tiles with their Cellar slices, and the crossbar. -/

namespace Sys2Proof.Machine

/-- Where a cell goes at its egress tile (R152). `copy` is a copy for one member, at its fabric address. -/
inductive OutTarget where
  | port (lane : Nat)
  | slice (tile : Nat)
  | copy (lane addr : Nat)
  deriving DecidableEq, Repr

/-- The tile of a target. -/
def OutTarget.tile : OutTarget → Nat
  | .port l => l / 32
  | .slice t => t
  | .copy l _ => l / 32

/-- Where a cell came from (R181). -/
inductive CellSrc where
  | cMode (port : Nat)
  /-- A C-mode port that has gone down since: no credit returns. -/
  | gone (port : Nat)
  | eMode (port : Nat)
  | generated
  deriving DecidableEq, Repr

/-- A cell inside the part. `frame` names the ordinary frame of an ORD cell by a number of the model's own; `time` and
`ptp` are its ingress time-stamp on the free-running counter in ns and in PTP time in units of 2^-40 ns (R144, R303).
`tail` is the number of bytes in the frame's last cell, where that one follows and
has fewer than the four of the FCS.
`bank` is the route bank the cell was counted in (R254), `slot`
the transfer slot of the matching that it is committed to (R163), `since` the first transfer slot that a residue may be
taken for (R162), `lost` that its place in Undertow cannot be read, `home` the bridge of that place, and `fill` when the fill wait of a train that begins
with it ends (R121). -/
structure QCell where
  cell : Cell
  src : CellSrc
  time : Nat
  ptp : Nat
  limit : Nat
  outs : List OutTarget
  marked : Bool
  slot : Option Nat
  since : Nat
  frame : Nat
  last : Bool
  tail : Nat
  bank : Option Nat
  lost : Bool
  home : Nat
  fill : Nat
  deriving DecidableEq, Repr

/-- CLASS of a cell (R98). -/
def QCell.cls (q : QCell) : Nat := (q.cell.hdr.toNat / 2 ^ 124) % 8

/-- A tile with its Cellar slice. -/
structure TileSt where
  /-- The clock ratio n (R146), the ratio the budget allows and whether heat holds it down. -/
  ratio : Nat
  target : Nat
  hot : Bool
  /-- The packet buffer, egress pool and reserves in force (R177). -/
  pktMib : Nat
  pool : Nat
  reserves : List Nat
  spilling : Bool
  /-- Until when spill writes and read-backs take up the tile's bandwidth to Undertow, in 1/16 ns (R196). -/
  spillTill : Nat
  /-- Cells that passed the classifier and wait for their lookup, and those that wait for admission. -/
  arrivals : List QCell
  looked : List QCell
  /-- Refused C-mode cells in the landing, and refused generated cells that their function holds (R181). -/
  landed : List QCell
  held : List QCell
  deriving DecidableEq, Repr

/-- The reserves and pool at the reset values (R202). -/
def resetReserves : List Nat := [8192, 8192, 4096, 2048, 4096, 2048, 2048, 512]

/-- A tile after reset. -/
def TileSt.init : TileSt :=
  { ratio := 16, target := 16, hot := false, pktMib := 18, pool := 16384, reserves := resetReserves,
    spilling := false, spillTill := 0, arrivals := [], looked := [], landed := [], held := [] }

/-- A pair of a matching: what the input sends to the output; `mcast` is the class of the multicast queue it serves. -/
structure Pair where
  input : Nat
  output : Nat
  mcast : Option Nat
  deriving DecidableEq, Repr

/-- A matching in flight (R159): its transfer slot and its pairs. `asked` lists the queues that held uncommitted cells
when the requests were sampled, each with the tiles that its head cells are bound for; `ups` those promoted at that moment
and `promote` AGE_PROMOTE then (R161, R170); `filled` those that gave cells; `ended` that its three rounds are over.
`copies` are the multicast cells of an input for each output that granted; `moved` the cells that have crossed and wait to be written
at their output. -/
structure Matching where
  slot : Nat
  pairs : List Pair
  asked : List (Nat × List Nat)
  ups : List Nat
  promote : Nat
  filled : List Nat
  ended : Bool
  copies : List (Nat × Nat × QCell)
  moved : Option (List (Nat × QCell))
  deriving DecidableEq, Repr

/-- What the lookup of a frame's first cell decided. A routed frame has new addresses (R237), and a `timed` one a new
correctionField (R302): both have a new FCS. -/
structure FrameRoute where
  outs : List OutTarget
  rewrite : Bool
  timed : Bool
  deriving DecidableEq, Repr

/-- The ordinary frames inside the part, by the model's own numbers: those aborted (R183), those that have started on
egress, what their lookups decided, and the frame that each port is sending, with its bytes sent. -/
structure Frames where
  next : Nat
  aborted : List Nat
  started : List Nat
  routes : AMap FrameRoute
  sending : AMap (Nat × List Byte)
  deriving DecidableEq, Repr

/-- A token bucket: tokens in 1/80 byte, which is what a rate of 1 gains in 1 ns, and the moment they stood so. -/
structure Bucket where
  tokens : Int
  at_ : Nat
  deriving DecidableEq, Repr

/-- An operation of a register-driven engine (R269, R290): it runs, and the status it will end with. -/
structure EngineOp where
  busy : Bool
  code : Nat
  next : Nat
  deriving DecidableEq, Repr

/-- Traffic control. Policers and shapers by port × 8 + class (a port shaper under class 0), streams by context. -/
structure Tc where
  policers : AMap Bucket
  shapers : AMap Bucket
  /-- DC_c, and the pointer of R278 with whether it has given its quantum. -/
  dc : AMap Int
  drr : AMap (Nat × Bool)
  streams : AMap Word
  /-- Buckets of streams, by context × 64 + tile. -/
  streamBuckets : AMap Bucket
  op : EngineOp
  deriving DecidableEq, Repr

/-- The crossbar. Pointers are kept under level × 64 + tile. `runs` counts matchings without service, by queue. `late` lists
the cells that stand at their output tile with targets still to be written, once the egress pool has room. -/
structure Xbar where
  ready : Bool
  live : Nat
  slot : Nat
  grantPtr : AMap Nat
  acceptPtr : AMap Nat
  inflight : List Matching
  runs : AMap Nat
  promoted : List Nat
  late : List (Nat × QCell)
  deriving DecidableEq, Repr

/-- Queue indexes within a tile: virtual output queue (d, c), multicast queue c, egress queue (k, c) and the input of
the Estuary slice for class c. -/
def qVoq (d c : Nat) : Nat := 8 * d + c
def qMcq (c : Nat) : Nat := 512 + c
def qEq (k c : Nat) : Nat := 1024 + 8 * k + c
def qEst (c : Nat) : Nat := 2048 + c
/-- The key of a tile's queue. -/
def qKey (t qi : Nat) : Nat := t * 4096 + qi

end Sys2Proof.Machine
end

