-- ==== Sys2Proof/Machine/StateEst.lean ====
section
/-! DEFINITION. The state of Estuary and Breakwater: groups, contexts with their chunks, triggers, early pools, context
caches and the parity store. -/

namespace Sys2Proof.Machine

/-- The states of a context (R355). SPANNED is read from the contexts that own the number. -/
inductive CtxState where
  | free
  | opening
  | active
  | done
  | partialEnd
  | aborted
  | failed
  deriving DecidableEq, Repr

def CtxState.code : CtxState → Nat
  | .free => 0
  | .opening => 1
  | .active => 2
  | .done => 3
  | .partialEnd => 4
  | .aborted => 5
  | .failed => 6

/-- OPENING or ACTIVE. -/
def CtxState.live : CtxState → Bool
  | .opening => true
  | .active => true
  | _ => false

/-- DONE, PARTIAL, ABORTED or FAILED. -/
def CtxState.terminal : CtxState → Bool
  | .done => true
  | .partialEnd => true
  | .aborted => true
  | .failed => true
  | _ => false

/-- A member's record in a context (R353, R405). -/
structure MemberSt where
  mark : Nat
  /-- WINDOW: bit j set when chunk mark + 1 + j was contributed. -/
  window : Nat
  opened : Bool
  excluded : Bool
  /-- The arrival of the contribution that brought MARK to CH. -/
  finish : Nat
  /-- All-to-all: the rounds with a grant, and the end of the last of them on the free-running counter. -/
  paceRounds : Nat
  paceEnd : Nat
  deriving DecidableEq, Repr

/-- A member that has sent nothing. -/
def MemberSt.init : MemberSt := ⟨0, 0, false, false, 0, 0, 0⟩

/-- A bin of a 320-bit accumulator: B_j and C_j (R332). -/
structure Bin where
  b : BitVec 64
  c : BitVec 16
  deriving DecidableEq, Repr

/-- What an element has accumulated (R331 to R337): the five bins of a 320-bit accumulator, lowest first, or the word of a
narrower one, sign-extended; `run` is the running value of MAX, MIN, BAND or BOR. -/
structure Elem where
  bins : List Bin
  word : BitVec 64
  run : Option Int
  nan : Bool
  pinf : Bool
  ninf : Bool
  negZero : Bool
  deriving DecidableEq, Repr

/-- An element with no contribution. -/
def Elem.init : Elem := ⟨List.replicate 5 ⟨0, 0⟩, 0, none, false, false, false, true⟩

/-- A chunk slot (R353, R392, R424). `done`: complete, its result still held; `last`: LAST of its result cells (R395, R392). -/
structure Chunk where
  k : Nat
  first : Nat
  elems : List Elem
  p : BitVec 512
  q : BitVec 512
  done : Bool
  last : Bool
  deriving DecidableEq, Repr

/-- A round of an all-to-all: its number, its start in PTP ns, and the grants made for it (sender, receiver, bytes). -/
structure Round where
  number : Nat
  start : Nat
  grants : List (Nat × Nat × Nat)
  deriving DecidableEq, Repr

/-- An instance that a Swell context claims (R495, R496): its start in PTP ns, LEN, MASK, its first chunk and its
number of chunks. -/
structure Claim where
  start : Nat
  len : Nat
  mask : Nat
  first : Nat
  count : Nat
  deriving DecidableEq, Repr

/-- A context, kept under its first number. A FREE one is kept for its records (R355). -/
structure Ctx where
  st : CtxState
  reason : Nat
  failOff : Nat
  /-- A coding group owns it; the group's number. -/
  coding : Bool
  group : Nat
  m : Nat
  span : Nat
  desc : BitVec 512
  openedAt : Nat
  deadline : Nat
  endedAt : Nat
  /-- When LINGER, as EST_CONFIG gave it at the end, has passed (R355, R383). -/
  lingerEnd : Nat
  deadlinePtp : Nat
  incarnation : BitVec 32
  base : Nat
  members : AMap MemberSt
  chunks : AMap Chunk
  /-- Chunks complete at or above BASE. -/
  cplt : List Nat
  /-- Chunks whose result cells have not all been handed to stage 4, with the number of those left (R368, R406). -/
  handing : AMap Nat
  /-- When the cell was judged that the work waited for (R386, R409). -/
  workedAt : Option Nat
  excludedAny : Bool
  flagRec : Nat
  lastMember : Option Nat
  lateness : Nat
  dups : Nat
  ahead : Nat
  excl : Nat
  fmtDrops : Nat
  lacks : Nat
  resent : Nat
  gone : Nat
  /-- MISSING rounds run. -/
  rounds : Nat
  /-- All-to-all: the size matrix and REM, by row × M + column; the rounds ended; the round that runs and the next. -/
  matrix : AMap Nat
  rem_ : AMap Nat
  matrixAt : Option Nat
  current : Option Round
  nextRound : Option Round
  ended : Nat
  /-- Members whose last PACE cell has gone. -/
  paced : List Nat
  claims : List Claim
  /-- Byte offset of the matrix in STAGING. -/
  staging : Option Nat
  /-- Column blocks of that matrix that hold a lost block (R221, R392). -/
  lostCols : List Nat
  /-- The lines of the record that are lost; RECORD_LOST is set while there are any (R401). -/
  lost : List Nat
  deriving DecidableEq, Repr

/-- An Estuary group (R347, R378). -/
structure Group where
  weight : Nat
  base : Nat
  count : Nat
  m : Nat
  records : List Word
  /-- Being destroyed: the contexts aborted (R351). -/
  destroying : Option Nat
  recorded : Nat
  hist : AMap (BitVec 32)
  lastCount : AMap (BitVec 32)
  lateSum : AMap (BitVec 64)
  deriving DecidableEq, Repr

/-- The states of a Breakwater unit (R421). -/
inductive UnitState where
  | empty
  | current
  | stale
  | damaged
  deriving DecidableEq, Repr

def UnitState.code : UnitState → Nat
  | .empty => 0
  | .current => 1
  | .stale => 2
  | .damaged => 3

/-- A coding group (R414, R418). `slots` is the place of each unit among its bridge's units. -/
structure Coding where
  k : Nat
  base : Nat
  count : Nat
  z : Nat
  records : List Word
  id : Nat
  destroying : Option Nat
  units : AMap UnitState
  slots : List Nat
  /-- The home record is uncorrectable (R437). -/
  homeBad : Bool
  deriving DecidableEq, Repr

/-- A trigger entry (R373). -/
structure Trigger where
  counter : Nat
  threshold : Nat
  ctx : Nat
  desc : BitVec 512
  deriving DecidableEq, Repr

/-- A Δ on its way to a bridge (R428). `mark` is where its bytes stand on the bridge's link. -/
structure Delta where
  ctx : Nat
  chunk : Nat
  position : Nat
  data : BitVec 512
  mark : Nat
  deriving DecidableEq, Repr

/-- A line of a context in a slice's cache (R216), most recently used first. Line 0 is the header. -/
structure CacheLine where
  ctx : Nat
  line : Nat
  dirty : Bool
  deriving DecidableEq, Repr

/-- Lines of a context being fetched (R217), with the bridges they come from and where their bytes stand on the links of
those. -/
structure Fetch where
  ctx : Nat
  lines : List Nat
  marks : List (Nat × Nat)
  deriving DecidableEq, Repr

/-- The deficits of one weighted round robin of R377, and the group it visits. -/
structure Sharing where
  deficit : AMap Int
  visit : Option Nat
  deriving DecidableEq, Repr

/-- A slice's work (R356, R362, R377). -/
structure Slice where
  early : List QCell
  lines : List CacheLine
  /-- Pinned headers: context and the time of its last cell here. -/
  pins : AMap Nat
  fetch : Option Fetch
  /-- The sharing of R377 for CUP and for CODE cells at the input, and for cells held for stage 4. -/
  cup : Sharing
  code : Sharing
  out : Sharing
  deriving DecidableEq, Repr

/-- A slice after reset. -/
def Slice.init : Slice := ⟨[], [], [], none, ⟨[], none⟩, ⟨[], none⟩, ⟨[], none⟩⟩

/-- Estuary. -/
structure Est where
  groups : AMap Group
  ctxs : AMap Ctx
  counters : AMap (BitVec 32)
  triggers : AMap Trigger
  slices : AMap Slice
  deriving DecidableEq, Repr

/-- Breakwater. `parity` holds P and Q of the chunks that are not zero, by unit slot and chunk; `born` counts how often
each group number was created in this incarnation. -/
structure Bwk where
  groups : AMap Coding
  parity : AMap (BitVec 512 × BitVec 512)
  born : AMap Nat
  deltas : AMap (List Delta)
  deriving DecidableEq, Repr

/-- An error record of a bridge (R222). -/
structure ErrRec where
  time : Nat
  stack : Nat
  pch : Nat
  bank : Nat
  kind : Nat
  row : Nat
  part : Nat
  deriving DecidableEq, Repr

/-- One direction of a bridge's link (R218), served up to the moment `at_`. Index 0 is context fetches and write-backs, 1
Undertow, 2 Breakwater and 3 the other partitions: the bytes ever asked for and ever given of each, and the deficits of the
last three. `turn` is the index that the round robin visits, and `open_` that the visit has had its quantum. -/
structure LinkDir where
  at_ : Nat
  asked : List Nat
  given : List Nat
  deficit : List Nat
  turn : Nat
  open_ : Bool
  deriving DecidableEq, Repr

/-- A direction with nothing waiting. -/
def LinkDir.init : LinkDir := ⟨0, [0, 0, 0, 0], [0, 0, 0, 0], [0, 0, 0, 0], 1, false⟩

/-- A bridge: zeroing after boot or reset, its stacks, its error ring newest first, the corrected errors of each row in this
scrub pass, with the pass's number, and its link toward the logic die and from it. -/
structure BridgeSt where
  ready : Bool
  stacksUp : Nat
  errors : List ErrRec
  rows : AMap Nat
  pass : Nat
  down : LinkDir
  up : LinkDir
  deriving DecidableEq, Repr

/-- A bridge after reset. -/
def BridgeSt.init : BridgeSt := ⟨false, 0, [], [], 0, LinkDir.init, LinkDir.init⟩

/-- The store: the sizes of partitions 0 to 5 in GiB, and the bridges. Extent i of a partition lies on bridge i mod 4
(R210, R211: every size is a multiple of 4). `badObjects` are the uncorrectable blocks of objects: handle
and block from the object's first byte. -/
structure Mem where
  sizes : List Nat
  bridges : AMap BridgeSt
  badObjects : List (Nat × Nat)
  deriving DecidableEq, Repr

/-- The default layout (R211). -/
def defaultSizes : List Nat := [512, 64, 2048, 256, 16, 16]

def Mem.init : Mem := ⟨defaultSizes, [], []⟩

end Sys2Proof.Machine
end

