-- ==== Sys2Proof/Machine/Arith.lean ====
section
/-! DEFINITION. The reduction arithmetic of Estuary (R323 to R343) and the field of Breakwater (R411 to R413). -/

namespace Sys2Proof.Machine

/-! ## The arithmetic word (R323, R324) -/

def arOp (a : Nat) : Nat := a / 8192 % 8
def arIn (a : Nat) : Nat := a / 1024 % 8
def arOut (a : Nat) : Nat := a / 128 % 8
def arRnd (a : Nat) : Nat := a / 32 % 4
def arE4nan (a : Nat) : Bool := bit a 4

/-- The output formats of an input format. -/
def outsOf : Nat → List Nat
  | 0 => [0]
  | 1 => [1, 0]
  | 2 => [2, 0]
  | 3 => [3, 2, 1, 0]
  | 4 => [4, 2, 1, 0]
  | 5 => [5, 0]
  | 6 => [6]
  | _ => [7, 6]

/-- The operations of an input format, at most. -/
def opsOf : Nat → Nat
  | 5 => 1
  | 6 => 5
  | 7 => 5
  | _ => 3

/-- A legal combination, with no reserved value (R324). -/
def arithOk (a : Nat) : Bool :=
  (outsOf (arIn a)).contains (arOut a) && decide (arOp a ≤ opsOf (arIn a)) && decide (arRnd a ≤ 2) && decide (a % 16 = 0)

/-! ## Formats (R326, R327, R331) -/

/-- Bits of an element. -/
def fmtBits : Nat → Nat
  | 0 => 32
  | 1 => 16
  | 2 => 16
  | 3 => 8
  | 4 => 8
  | 5 => 4
  | 6 => 32
  | _ => 8

/-- E: elements in a payload. -/
def fmtElems (f : Nat) : Nat := 512 / fmtBits f

/-- Bytes of state of a full chunk (R333). -/
def chunkBytes : Nat → Nat
  | 0 => 808
  | 1 => 1616
  | 2 => 272
  | 3 => 288
  | 4 => 416
  | 5 => 6464
  | 6 => 128
  | _ => 256

/-- Exponent bits, fraction bits, bias and infinities of a floating-point format. -/
structure FloatFmt where
  exp : Nat
  frac : Nat
  bias : Nat
  inf : Bool

def floatFmt : Nat → FloatFmt
  | 0 => ⟨8, 23, 127, true⟩
  | 1 => ⟨8, 7, 127, true⟩
  | 2 => ⟨5, 10, 15, true⟩
  | 3 => ⟨4, 3, 7, false⟩
  | 4 => ⟨5, 2, 15, true⟩
  | _ => ⟨2, 1, 1, false⟩

/-- The weight of an accumulator's least significant bit is 2 to the minus this. -/
def lsbExp : Nat → Nat
  | 0 => 149
  | 1 => 133
  | 2 => 24
  | 3 => 9
  | 4 => 16
  | 5 => 128
  | _ => 0

/-- An integer format. -/
def fmtInt (f : Nat) : Bool := decide (6 ≤ f)

/-- What a contribution is: not a number, an infinity, or a sign with a magnitude in LSBs. -/
inductive Val where
  | nan
  | inf (neg : Bool)
  | num (neg : Bool) (mag : Nat)
  deriving DecidableEq, Repr

/-- The value of an encoding of a floating-point format. -/
def decodeFloat (f w : Nat) : Val :=
  let t := floatFmt f
  let neg := bit w (t.exp + t.frac)
  let e := w / 2 ^ t.frac % 2 ^ t.exp
  let fr := w % 2 ^ t.frac
  let top := decide (e = 2 ^ t.exp - 1)
  if t.inf && top then (if fr = 0 then .inf neg else .nan)
  else if f = 3 ∧ top ∧ fr = 2 ^ t.frac - 1 then .nan
  else if e = 0 then .num neg fr
  else .num neg ((2 ^ t.frac + fr) * 2 ^ (e - 1))

/-- The E2M1 magnitudes in units of one half. -/
def e2m1 (c : Nat) : Nat := [0, 1, 2, 3, 4, 6, 8, 12].getD (c % 8) 0

/-- The value of an MXFP4 element under a scale byte. -/
def decodeMx (c scale : Nat) : Val := if scale = 255 then .nan else .num (bit c 3) (e2m1 c * 2 ^ scale)

/-- Element `i` of a payload. -/
def elemOf (f : Nat) (pay : BitVec 512) (i : Nat) : Nat :=
  pay.toNat / 2 ^ (512 - fmtBits f * (i + 1)) % 2 ^ fmtBits f

/-- The scale byte of block `b`. -/
def scaleOf (aux b : Nat) : Nat := aux / 2 ^ (24 - 8 * b) % 256

/-- Element `i` of a contribution, of a floating-point format. -/
def contribution (f : Nat) (pay : BitVec 512) (aux i : Nat) : Val :=
  if f = 5 then decodeMx (elemOf 5 pay i) (scaleOf aux (i / 32)) else decodeFloat f (elemOf f pay i)

/-- Element `i` of an integer contribution. -/
def contributionInt (f : Nat) (pay : BitVec 512) (i : Nat) : Int :=
  let w := elemOf f pay i
  if bit w (fmtBits f - 1) then (w : Int) - 2 ^ fmtBits f else w

/-! ## Accumulation (R331 to R333, R336, R337) -/

/-- A place in the order of R336. -/
def orderKey : Val → Int
  | .nan => 0
  | .inf neg => if neg then -(2 ^ 400) - 1 else 2 ^ 400
  | .num neg m => if neg then -(m : Int) - 1 else m

def bwAnd (a b : Int) : Int := (BitVec.ofInt 32 a &&& BitVec.ofInt 32 b).toInt
def bwOr (a b : Int) : Int := (BitVec.ofInt 32 a ||| BitVec.ofInt 32 b).toInt

/-- The running value of MAX, MIN, BAND or BOR with one more. -/
def runWith (op : Nat) (r : Option Int) (v : Int) : Option Int :=
  match r with
  | none => some v
  | some x => some (if op = 2 then max x v else if op = 3 then min x v else if op = 4 then bwAnd x v else bwOr x v)

/-- The formats with a 320-bit accumulator (R331). -/
def fmtBinned (f : Nat) : Bool := decide (f ≤ 1 ∨ f = 5)

/-- A magnitude added into the bins, or subtracted: the part in each bin goes into its B_j, and its carry or borrow into its C_j
(R332). -/
def addBins (neg : Bool) : Nat → List Bin → List Bin
  | _, [] => []
  | m, x :: xs =>
    let p := m % 2 ^ 64
    (if neg then ⟨x.b - BitVec.ofNat 64 p, if x.b.toNat < p then x.c - 1 else x.c⟩
      else ⟨x.b + BitVec.ofNat 64 p, if 2 ^ 64 ≤ x.b.toNat + p then x.c + 1 else x.c⟩) :: addBins neg (m / 2 ^ 64) xs

/-- The value of bins: Σ (B_j + 2^64 × C_j) × 2^(64 j) (R332). -/
def binsValue : List Bin → Int
  | [] => 0
  | x :: xs => (x.b.toNat : Int) + 2 ^ 64 * (x.c.toInt + binsValue xs)

/-- A number of LSBs added to the accumulator of a format (R331, R332). -/
def Elem.add (f : Nat) (e : Elem) (v : Int) : Elem :=
  if fmtBinned f then { e with bins := addBins (decide (v < 0)) v.natAbs e.bins } else { e with word := e.word + BitVec.ofInt 64 v }

/-- The accumulated sum once the carry words are propagated: one 320-bit two's complement value, or the word (R332). -/
def Elem.acc (e : Elem) : Int := (BitVec.ofInt 320 (binsValue e.bins)).toInt + e.word.toInt

/-- An element with one more contribution of a floating-point format. -/
def Elem.addVal (f op : Nat) (e : Elem) (v : Val) : Elem :=
  let e := { e with negZero := e.negZero && decide (v = Val.num true 0) }
  match v with
  | .nan => { e with nan := true }
  | .inf neg =>
    if op ≤ 1 then (if neg then { e with ninf := true } else { e with pinf := true })
    else { e with run := runWith op e.run (orderKey v) }
  | .num neg m =>
    if op ≤ 1 then e.add f (if neg then -m else m)
    else { e with run := runWith op e.run (orderKey v) }

/-- An element with one more integer contribution. -/
def Elem.addInt (f op : Nat) (e : Elem) (v : Int) : Elem :=
  if op ≤ 1 then e.add f v else { e with run := runWith op e.run v }

/-- The meaningful elements of chunk `c` of `n` (R328). -/
def meaningful (f n c : Nat) : Nat := min (fmtElems f) (n - c * fmtElems f)

/-- The elements of a chunk with one more contribution. -/
def addContribution (arith n c : Nat) (pay : BitVec 512) (aux : Nat) (es : List Elem) : List Elem :=
  let f := arIn arith
  (List.range (meaningful f n c)).map fun i =>
    let e := es.getD i Elem.init
    if fmtInt f then e.addInt f (arOp arith) (contributionInt f pay i)
    else e.addVal f (arOp arith) (contribution f pay aux i)

/-! ## Rounding (R339 to R341) -/

/-- Flags, as FLAGREC numbers them (R405). -/
def flNan : Nat := 32
def flInf : Nat := 16
def flOvf : Nat := 8
def flSat : Nat := 4
def flInexact : Nat := 2

/-- The mixing of R340 and R363. -/
def mix (h : Nat) : Nat :=
  let h := h % 2 ^ 32
  let h := h ^^^ (h / 2 ^ 16)
  let h := h * 0x85EBCA6B % 2 ^ 32
  let h := h ^^^ (h / 2 ^ 13)
  let h := h * 0xC2B2AE35 % 2 ^ 32
  h ^^^ (h / 2 ^ 16)

/-- R of R340. -/
def srdR (ctx chunk i : Nat) : Nat := mix (ctx * 128 + i + chunk * 0x9E3779B9)

/-- The slice that homes a chunk (R363). -/
def homeOf (x c : Nat) : Nat := mix (x * 0x9E3779B9 + c) / 2 ^ 26

/-- A positive quotient n / d, in units of q, rounded to a multiple of q: the multiple, and whether it is exact. -/
def roundQ (rnd r n d : Nat) : Nat × Bool :=
  let lo := n / d
  let rest := n % d
  if rest = 0 then (lo, true)
  else
    let up :=
      if rnd = 0 then decide (d < 2 * rest) || (decide (2 * rest = d) && decide (lo % 2 = 1))
      else if rnd = 1 then false
      else decide (r * d < 2 ^ 32 * rest)
    (if up then lo + 1 else lo, false)

/-- ⌊log2 (n / d)⌋ of a positive quotient. -/
def log2Q (n d : Nat) : Int :=
  let a : Int := (Nat.log2 n : Int) - Nat.log2 d
  let ge := if 0 ≤ a then decide (d * 2 ^ a.toNat ≤ n) else decide (d ≤ n * 2 ^ (-a).toNat)
  if ge then a else a - 1

/-- A positive n / d × 2^-L rounded to `p` significant bits with least exponent `emin`: its exponent, its multiple of
q and whether it is exact. -/
def roundTo (p : Nat) (emin : Int) (rnd r n d : Nat) (l : Int) : Int × Nat × Bool :=
  let e := max (log2Q n d - l) emin
  let t := l + e - p + 1
  let (m, exact) := if 0 ≤ t then roundQ rnd r n (d * 2 ^ t.toNat) else roundQ rnd r (n * 2 ^ (-t).toNat) d
  (e, m, exact)

/-- The sign bit of a format in place. -/
def signBit (f : Nat) (neg : Bool) : Nat := if neg then 2 ^ (fmtBits f - 1) else 0

/-- The canonical NaN. -/
def nanOf : Nat → Nat
  | 0 => 0x7FC00000
  | 1 => 0x7FC0
  | 2 => 0x7E00
  | 3 => 0x7F
  | _ => 0x7E

/-- An infinity of a format that has them. -/
def infOf (f : Nat) (neg : Bool) : Nat := signBit f neg + (2 ^ (floatFmt f).exp - 1) * 2 ^ (floatFmt f).frac

/-- The largest finite encoding, without its sign. -/
def maxOf : Nat → Nat
  | 0 => 0x7F7FFFFF
  | 1 => 0x7F7F
  | 2 => 0x7BFF
  | 3 => 0x7E
  | 4 => 0x7B
  | _ => 7

/-- A nonzero exact value of sign `neg` and magnitude n / d × 2^-L in a floating-point format, with its flags
(R335, R339). -/
def roundFloat (f : Nat) (e4nan : Bool) (rnd r : Nat) (neg : Bool) (n d : Nat) (l : Int) : Nat × Nat :=
  let t := floatFmt f
  let (e, m, exact) := roundTo (t.frac + 1) (1 - (t.bias : Int)) rnd r n d l
  let code := (e + t.bias - 1).toNat * 2 ^ t.frac + m
  if maxOf f < code then
    if f = 3 then
      if e4nan then (0x7F, flOvf + flNan + flInexact)
      else (signBit 3 neg + maxOf 3, flOvf + flSat + flInexact)
    else if f = 5 then (signBit 5 neg + 7, flOvf + flSat + flInexact)
    else (if rnd = 1 then signBit f neg + maxOf f else infOf f neg, flOvf + flInexact)
  else if m = 0 then (0, flInexact)
  else (signBit f neg + code, if exact then 0 else flInexact)

/-! ## Results (R334 to R338, R342) -/

/-- The result of an element of a floating-point format, other than an MXFP4 result. -/
def resultFloat (arith ctx chunk k i : Nat) (e : Elem) : Nat × Nat :=
  let f := arOut arith
  let l : Int := lsbExp (arIn arith)
  if e.nan then (nanOf f, flNan)
  else if 2 ≤ arOp arith then
    match e.run with
    | none => (0, 0)
    | some v =>
      let neg := decide (v < 0)
      let mag := if neg then (-v - 1).toNat else v.toNat
      if 2 ^ 400 ≤ mag then (infOf f neg, flInf)
      else if mag = 0 then (signBit f neg, 0)
      else roundFloat f (arE4nan arith) 1 0 neg mag 1 l
  else if e.pinf && e.ninf then (nanOf f, flNan)
  else if e.pinf then (infOf f false, flInf)
  else if e.ninf then (infOf f true, flInf)
  else if e.acc = 0 then (signBit f e.negZero, 0)
  else
    roundFloat f (arE4nan arith) (arRnd arith) (srdR ctx chunk i) (decide (e.acc < 0)) e.acc.natAbs
      (if arOp arith = 1 then k else 1) l

/-- A two's complement encoding. -/
def encInt (f : Nat) (v : Int) : Nat := (BitVec.ofInt (fmtBits f) v).toNat

/-- The result of an element of an integer format. -/
def resultInt (arith ctx chunk k i : Nat) (e : Elem) : Nat × Nat :=
  let f := arOut arith
  if 2 ≤ arOp arith then (encInt f (e.run.getD 0), 0)
  else
    let (mag, exact) := roundQ (arRnd arith) (srdR ctx chunk i) e.acc.natAbs (if arOp arith = 1 then k else 1)
    let v : Int := if e.acc < 0 then -(mag : Int) else mag
    let hi : Int := 2 ^ (fmtBits f - 1) - 1
    if hi < v then (encInt f hi, flOvf + flSat + flInexact)
    else if v < -hi - 1 then (encInt f (-hi - 1), flOvf + flSat + flInexact)
    else (encInt f v, if exact then 0 else flInexact)

/-- The OR of flags. -/
def orFlags (fs : List Nat) : Nat := fs.foldl (fun a f => a ||| f) 0

/-- One block of an MXFP4 result: its scale, its codes and its flags (R342). -/
def mxBlock (arith ctx chunk k b : Nat) (es : List Elem) : Nat × List Nat × Nat :=
  let d := if arOp arith = 1 then k else 1
  if es.any (·.nan) then (255, es.map fun _ => 0, flNan)
  else
    let top := es.foldl (fun a e => max a e.acc.natAbs) 0
    if top = 0 then (0, es.map fun e => signBit 5 e.negZero, 0)
    else
      let x := max (-127) (min 127 (log2Q top d - 128 - 2))
      let rs := es.mapIdx fun i e =>
        if e.acc = 0 then (signBit 5 e.negZero, 0)
        else roundFloat 5 false (arRnd arith) (srdR ctx chunk (32 * b + i)) (decide (e.acc < 0)) e.acc.natAbs d (128 + x)
      ((x + 127).toNat, rs.map (·.1), orFlags (rs.map (·.2)))

/-- A payload of encodings, element 0 first. -/
def packElems (f : Nat) (es : List Nat) : BitVec 512 :=
  let w := fmtBits f
  BitVec.ofNat 512 ((es.foldl (fun a e => a * 2 ^ w + e % 2 ^ w) 0) * 2 ^ (w * (fmtElems f - es.length)))

/-- The result cells of a complete chunk: payload and AUX of each subcell, and the flags of all of them
(R325, R329, R330). -/
def chunkResults (arith n ctx chunk k : Nat) (es : List Elem) : List (BitVec 512 × Nat) × Nat :=
  let f := arOut arith
  let es := es.take (meaningful (arIn arith) n chunk)
  if f = 5 then
    let blocks := (List.range 4).map fun b => (b, (es.drop (32 * b)).take 32)
    let rs := blocks.map fun (b, xs) => if xs.isEmpty then (0, [], 0) else mxBlock arith ctx chunk k b xs
    let aux := rs.foldl (fun a r => a * 256 + r.1) 0
    ([(packElems 5 (rs.flatMap fun r => r.2.1), aux)], orFlags (rs.map fun r => r.2.2))
  else
    let rs := es.mapIdx fun i e =>
      if fmtInt f then resultInt arith ctx chunk k i e else resultFloat arith ctx chunk k i e
    let per := fmtElems f
    let cells := (List.range ((rs.length + per - 1) / per)).map fun j =>
      let part := (rs.drop (j * per)).take per
      (packElems f (part.map (·.1)), orFlags (part.map (·.2)) * 2 ^ 26 + j * 2 ^ 21)
    (cells, orFlags (rs.map (·.2)))

/-! ## The field of R411 -/

/-- Multiplication by g. -/
def gfDouble (a : Nat) : Nat := if a * 2 < 256 then a * 2 else (a * 2) ^^^ 0x11D

/-- The product in GF(2^8), by the bits of the second factor. -/
def gfMulAux (a b : Nat) : Nat → Nat
  | 0 => 0
  | n + 1 => (if bit b (7 - n) then a else 0) ^^^ gfDouble (gfMulAux a b n)

def gfMulBits (a b : Nat) : Nat := gfMulAux a b 8

/-- g^i. -/
def gfPow : Nat → Nat
  | 0 => 1
  | i + 1 => gfDouble (gfPow i)

/-- The inverse of a nonzero element: its 254th power. -/
def gfInv (a : Nat) : Nat := (List.range 253).foldl (fun p _ => gfMulBits p a) a

/-- Every byte of a payload times an element. -/
def gfScale (a : Nat) (v : BitVec 512) : BitVec 512 :=
  BitVec.ofNat 512 ((List.range 64).foldl (fun acc i => acc * 256 + gfMulBits (v.toNat / 256 ^ (63 - i) % 256) a) 0)

/-- The lost bytes of one or two positions (R413), from P′ and Q′. -/
def gfRebuild (lost : List Nat) (p q : BitVec 512) : List (BitVec 512) :=
  match lost with
  | [a, b] =>
    let da := gfScale (gfInv (gfPow a ^^^ gfPow b)) (q ^^^ gfScale (gfPow b) p)
    [da, p ^^^ da]
  | _ => [p]

end Sys2Proof.Machine
end

