-- ==== Sys2Proof/Machine/RegMap.lean ====
section
/-! DEFINITION. The register map: every register of the part with its address, its fields, their access codes and
reset values, and the values that a table lists as reserved (R11 to R14, and the map of each chapter). -/

namespace Sys2Proof.Machine

/-- Access codes (R13). No register of the map uses W1S. -/
inductive Acc where
  | ro
  | rw
  | wo
  | w1c
  | rc
  deriving DecidableEq, Repr

/-- One field of a register. `reset` holds one value, or one for each value of the register's last index.
`legal` lists the inclusive ranges of values that are not reserved; an empty list allows every value. -/
structure FieldSpec where
  hi : Nat
  lo : Nat
  acc : Acc
  reset : List Nat
  legal : List (Nat × Nat)
  deriving DecidableEq, Repr

/-- A register, replicated over `dims`: pairs of a stride and a count, outermost first. -/
structure RegRow where
  base : Nat
  dims : List (Nat × Nat)
  fields : List FieldSpec
  deriving DecidableEq, Repr

/-- A 32-bit RC counter (R16). -/
def counterField : List FieldSpec := [⟨31, 0, .rc, [0], []⟩]

/-- The names of the registers. -/
inductive Reg where
  | devId
  | cmdMacLo
  | cmdMacHi
  | cmdConfig
  | cmdSessions
  | cmdIncarnation
  | cmdSlot
  | cmdRxFrames
  | cmdAuthFails
  | cmdReplays
  | cmdDrops
  | cmdBusy
  | cmdSession0Drops
  | rstCause
  | rstWdog
  | rstHeldLo
  | rstHeldHi
  | rstFailedLo
  | rstFailedHi
  | rstCount
  | rstWdogFires
  | pwrStatus
  | pwrCap
  | pwrConfig
  | pwrThrottlePeriods
  | pwrRefusals
  | pwrSilent
  | pwrRampHolds
  | pwrDie
  | timeStatus
  | timeConfig
  | timeFreeFrac
  | timeFreeNsLo
  | timeFreeNsHi
  | timePtpFrac
  | timePtpNsLo
  | timePtpNsHi
  | timeRate
  | timeHoldovers
  | tideStatus
  | tideCommits
  | tideRefusals
  | tideLate
  | tblCmd
  | tblIndex
  | tblStatus
  | tblData
  | tblSound
  | tblSoundStatus
  | tblSpray
  | tblSpraySeed
  | tblHashSeed
  | tblMacConfig
  | tblUnroutable
  | tblNoPort
  | tblSchedNoPort
  | tblStaleEpoch
  | tblRouteDrops
  | tblUnknown
  | tblTtlDrops
  | tblFiltered
  | tblLearnFull
  | tblMacMoves
  | tblStaticConflicts
  | tblSoundMismatches
  | tblSoundRepairs
  | genActive
  | genConfig
  | genInflight
  | genArmTimeLo
  | genArmTimeHi
  | genHorizonLo
  | genHorizonHi
  | genCommits
  | genLate
  | xbarConfig
  | xbarStatus
  | xbarLiveLo
  | xbarLiveHi
  | xbarPromotions
  | bufSplit
  | bufSpill
  | bufEgress
  | bufClass
  | bufAge
  | tcSpolCmd
  | tcSpolCtx
  | tcSpolData
  | tcSpolStatus
  | tcSpolCount
  | tcSpolDrops
  | estConfig
  | estGroups
  | estMembers
  | estOpen
  | estNonmemberDrops
  | estExcludedDrops
  | estEarlyDrops
  | estAheadDrops
  | estDupDrops
  | estLateDrops
  | estFmtDrops
  | estSpanDrops
  | estOpenFails
  | estResultNoPort
  | estTriggerFires
  | estTriggerErrors
  | estRoleDrops
  | estMissingCells
  | estMissingNoPort
  | estResendChunks
  | estGoneChunks
  | estResendDrops
  | estSliceDrops
  | estTimeouts
  | estAborts
  | estExclusions
  | bwkStatus
  | bwkUnitsFree
  | bwkUnitsDamaged
  | bwkNonmemberDrops
  | bwkRoleDrops
  | bwkResetDrops
  | bwkRebuildNoPort
  | bwkUnitsEncoded
  | bwkDeltaChunks
  | bwkRebuiltChunks
  | bwkStale
  | utwShare
  | utwCells
  | utwLost
  | utwCtxFetches
  | utwCtxWritebacks
  | cswMode
  | cswPaths
  | cswChanges
  | cswPilotFaults
  | cswLockFaults
  | cswLightLosses
  | cswSlowOpens
  | cswPath
  | swlConfig
  | swlCal
  | swlStatus
  | swlInstances
  | swlSkewFaults
  | swlClips
  | swlUnbounded
  | swlAbsent
  | swlUnclaimed
  | swlDeskew
  | swlLane
  | d2dLink
  | d2dRetrains
  | d2dCrcErrs
  | d2dConfig
  | d2dF2f
  | bistStatus
  | bistConfig
  | bistActive
  | bistFuseFree
  | bistTestsRun
  | bistTestsFailed
  | bistSoftRepairs
  | bistFuseRepairs
  | bistPprRepairs
  | secStatus
  | secTrust
  | secHandshakes
  | secHandshakeFails
  | secAttests
  | secFwUpdates
  | telConfig
  | telExport
  | telQuar
  | telQuarStatus
  | telLogStatus
  | telLogNextLo
  | telLogNextHi
  | telEventsInfo
  | telEventsNotice
  | telEventsWarning
  | telEventsCritical
  | telCoalesced
  | telSampledOut
  | telOverwritten
  | telLostHigh
  | telStreamSkips
  | telCollectorSkips
  | telResetLost
  | telQuarGrants
  | telQuarRefusals
  | linkConfig
  | linkMacLo
  | linkMacHi
  | linkCreditInit
  | tileClk
  | tileThrottleSteps
  | tileIngressOverrun
  | tileXbarMcastSplits
  | tileXbarDestDrops
  | tileXbarEmptyGrants
  | tileMcqDepth
  | tileEqDepth
  | tileVoqDepth
  | tileBufStatus
  | tileBufFree
  | tileAdmDrops
  | tilePushouts
  | tileAgeDrops
  | tileSpillWrites
  | tileSpillReads
  | tileFrameAborts
  | tileSpillFull
  | tileTsStatus
  | tileLaunchPending
  | tileLaunchMissed
  | tileTsLost
  | tileEstEarly
  | tileEstHot
  | tileLaneStatus
  | tilePortStatus
  | tilePortCrcErrs
  | tilePortReplays
  | tilePortSpoofDrops
  | tilePortQuarDrops
  | tilePortClassDrops
  | tilePortHairpin
  | tilePortReconfDrops
  | tilePortPolDrops
  | tileLaneFecCorr
  | tileLaneFecUncorr
  | tileTcPort
  | tileTcWeight
  | tileTcPshape
  | tileTcPolice
  | tileTcQshape
  | oeStatus
  | oeConfig
  | oeErrConfig
  | oePilot
  | oeTemp
  | oeLockLosses
  | oeWrongLocks
  | oeReseeks
  | oeEyeClosures
  | oeErrDrops
  | oeOverBudget
  | oeFibre
  | oeRing
  | brgStatus
  | brgArb
  | brgScrub
  | brgEccCorr
  | brgEccUncorr
  deriving DecidableEq, Repr

/-- The row of each register in its chapter's map. -/
def Reg.row : Reg → RegRow
  | .devId => ⟨0x00000000, [],
      [⟨31, 16, .ro, [8264], []⟩, ⟨15, 8, .ro, [229], []⟩, ⟨7, 4, .ro, [1], []⟩, ⟨3, 0, .ro, [1], []⟩]⟩
  | .cmdMacLo => ⟨0x01000000, [], [⟨31, 0, .ro, [0], []⟩]⟩
  | .cmdMacHi => ⟨0x01000004, [], [⟨15, 0, .ro, [0], []⟩]⟩
  | .cmdConfig => ⟨0x01000008, [],
      [⟨23, 12, .rw, [0], []⟩, ⟨11, 11, .rw, [0], []⟩, ⟨9, 9, .rw, [1], []⟩, ⟨7, 0, .rw, [10], [(1, 255)]⟩]⟩
  | .cmdSessions => ⟨0x0100000c, [], [⟨11, 8, .ro, [0], []⟩, ⟨7, 0, .ro, [0], []⟩]⟩
  | .cmdIncarnation => ⟨0x01000010, [], [⟨31, 0, .ro, [0], []⟩]⟩
  | .cmdSlot => ⟨0x01000040, [(4, 8)], [⟨19, 18, .ro, [0], []⟩, ⟨17, 16, .ro, [0], []⟩, ⟨15, 0, .ro, [0], []⟩]⟩
  | .cmdRxFrames => ⟨0x01000080, [], counterField⟩
  | .cmdAuthFails => ⟨0x01000084, [], counterField⟩
  | .cmdReplays => ⟨0x01000088, [], counterField⟩
  | .cmdDrops => ⟨0x0100008c, [], counterField⟩
  | .cmdBusy => ⟨0x01000090, [], counterField⟩
  | .cmdSession0Drops => ⟨0x01000094, [], counterField⟩
  | .rstCause => ⟨0x02000000, [], [⟨31, 30, .ro, [0], []⟩, ⟨29, 29, .ro, [0], []⟩, ⟨19, 0, .ro, [0], []⟩]⟩
  | .rstWdog => ⟨0x02000004, [], [⟨15, 0, .rw, [1000], [(0, 0), (100, 65535)]⟩]⟩
  | .rstHeldLo => ⟨0x02000040, [(8, 10)], [⟨31, 0, .ro, [0], []⟩]⟩
  | .rstHeldHi => ⟨0x02000044, [(8, 10)], [⟨31, 0, .ro, [0], []⟩]⟩
  | .rstFailedLo => ⟨0x02000100, [(8, 10)], [⟨31, 0, .ro, [0], []⟩]⟩
  | .rstFailedHi => ⟨0x02000104, [(8, 10)], [⟨31, 0, .ro, [0], []⟩]⟩
  | .rstCount => ⟨0x02000200, [(4, 10)], counterField⟩
  | .rstWdogFires => ⟨0x02000240, [], counterField⟩
  | .pwrStatus => ⟨0x03000000, [],
      [⟨31, 31, .ro, [0], []⟩, ⟨30, 30, .ro, [0], []⟩, ⟨29, 29, .ro, [0], []⟩, ⟨11, 0, .ro, [0], []⟩]⟩
  | .pwrCap => ⟨0x03000004, [], [⟨11, 0, .ro, [3500], []⟩]⟩
  | .pwrConfig => ⟨0x03000008, [], [⟨15, 8, .rw, [4], [(1, 255)]⟩, ⟨7, 0, .rw, [30], [(1, 40)]⟩]⟩
  | .pwrThrottlePeriods => ⟨0x03000040, [], counterField⟩
  | .pwrRefusals => ⟨0x03000044, [], counterField⟩
  | .pwrSilent => ⟨0x03000048, [], counterField⟩
  | .pwrRampHolds => ⟨0x0300004c, [], counterField⟩
  | .pwrDie => ⟨0x03000100, [(4, 22)], [⟨31, 30, .ro, [0], []⟩, ⟨27, 16, .ro, [0], []⟩, ⟨15, 0, .ro, [0], []⟩]⟩
  | .timeStatus => ⟨0x04000000, [],
      [⟨31, 28, .ro, [0], []⟩,
       ⟨27, 27, .ro, [0], []⟩,
       ⟨26, 26, .ro, [0], []⟩,
       ⟨24, 16, .ro, [0], []⟩,
       ⟨15, 0, .ro, [0], []⟩]⟩
  | .timeConfig => ⟨0x04000004, [], [⟨23, 16, .rw, [7], []⟩, ⟨15, 8, .rw, [100], [(1, 250)]⟩, ⟨0, 0, .rw, [1], []⟩]⟩
  | .timeFreeFrac => ⟨0x04000010, [], [⟨31, 0, .ro, [0], []⟩]⟩
  | .timeFreeNsLo => ⟨0x04000014, [], [⟨31, 0, .ro, [0], []⟩]⟩
  | .timeFreeNsHi => ⟨0x04000018, [], [⟨31, 0, .ro, [0], []⟩]⟩
  | .timePtpFrac => ⟨0x04000020, [], [⟨31, 0, .ro, [0], []⟩]⟩
  | .timePtpNsLo => ⟨0x04000024, [], [⟨31, 0, .ro, [0], []⟩]⟩
  | .timePtpNsHi => ⟨0x04000028, [], [⟨31, 0, .ro, [0], []⟩]⟩
  | .timeRate => ⟨0x04000030, [], [⟨31, 0, .ro, [0], []⟩]⟩
  | .timeHoldovers => ⟨0x04000040, [], counterField⟩
  | .tideStatus => ⟨0x05000000, [], [⟨31, 30, .ro, [0], []⟩, ⟨27, 24, .ro, [0], []⟩, ⟨15, 0, .ro, [0], []⟩]⟩
  | .tideCommits => ⟨0x05000004, [], counterField⟩
  | .tideRefusals => ⟨0x05000008, [], counterField⟩
  | .tideLate => ⟨0x0500000c, [], counterField⟩
  | .tblCmd => ⟨0x06000000, [],
      [⟨27, 24, .rw, [0], []⟩, ⟨18, 16, .rw, [0], [(0, 5)]⟩, ⟨8, 8, .rw, [0], []⟩, ⟨3, 0, .wo, [0], []⟩]⟩
  | .tblIndex => ⟨0x06000004, [], [⟨17, 0, .rw, [0], []⟩]⟩
  | .tblStatus => ⟨0x06000008, [], [⟨31, 31, .ro, [0], []⟩, ⟨30, 30, .w1c, [0], []⟩, ⟨15, 0, .ro, [0], []⟩]⟩
  | .tblData => ⟨0x06000020, [(4, 8)], [⟨31, 0, .rw, [0], []⟩]⟩
  | .tblSound => ⟨0x06000040, [], [⟨31, 31, .rw, [0], []⟩, ⟨21, 0, .rw, [0], [(0, 4000000)]⟩]⟩
  | .tblSoundStatus => ⟨0x06000044, [], [⟨31, 0, .ro, [0], []⟩]⟩
  | .tblSpray => ⟨0x06000050, [], [⟨3, 0, .rw, [6], []⟩]⟩
  | .tblSpraySeed => ⟨0x06000054, [], [⟨31, 0, .rw, [1], [(1, 4294967295)]⟩]⟩
  | .tblHashSeed => ⟨0x06000058, [], [⟨31, 0, .rw, [4294967295], []⟩]⟩
  | .tblMacConfig => ⟨0x0600005c, [], [⟨17, 17, .rw, [1], []⟩, ⟨16, 16, .rw, [0], []⟩, ⟨15, 0, .rw, [300], []⟩]⟩
  | .tblUnroutable => ⟨0x06000100, [(64, 4)], counterField⟩
  | .tblNoPort => ⟨0x06000104, [(64, 4)], counterField⟩
  | .tblSchedNoPort => ⟨0x06000108, [(64, 4)], counterField⟩
  | .tblStaleEpoch => ⟨0x0600010c, [(64, 4)], counterField⟩
  | .tblRouteDrops => ⟨0x06000110, [(64, 4)], counterField⟩
  | .tblUnknown => ⟨0x06000114, [(64, 4)], counterField⟩
  | .tblTtlDrops => ⟨0x06000118, [(64, 4)], counterField⟩
  | .tblFiltered => ⟨0x0600011c, [(64, 4)], counterField⟩
  | .tblLearnFull => ⟨0x06000120, [(64, 4)], counterField⟩
  | .tblMacMoves => ⟨0x06000124, [(64, 4)], counterField⟩
  | .tblStaticConflicts => ⟨0x06000128, [(64, 4)], counterField⟩
  | .tblSoundMismatches => ⟨0x0600012c, [(64, 4)], counterField⟩
  | .tblSoundRepairs => ⟨0x06000130, [(64, 4)], counterField⟩
  | .genActive => ⟨0x07000000, [], [⟨5, 4, .ro, [0], []⟩, ⟨3, 2, .ro, [0], []⟩, ⟨0, 0, .ro, [0], []⟩]⟩
  | .genConfig => ⟨0x07000004, [], [⟨15, 0, .rw, [50], [(1, 65535)]⟩]⟩
  | .genInflight => ⟨0x07000008, [(4, 2)], [⟨31, 0, .ro, [0], []⟩]⟩
  | .genArmTimeLo => ⟨0x07000010, [], [⟨31, 0, .ro, [0], []⟩]⟩
  | .genArmTimeHi => ⟨0x07000014, [], [⟨31, 0, .ro, [0], []⟩]⟩
  | .genHorizonLo => ⟨0x07000018, [(8, 2)], [⟨31, 0, .ro, [0], []⟩]⟩
  | .genHorizonHi => ⟨0x0700001c, [(8, 2)], [⟨31, 0, .ro, [0], []⟩]⟩
  | .genCommits => ⟨0x07000028, [], counterField⟩
  | .genLate => ⟨0x0700002c, [], counterField⟩
  | .xbarConfig => ⟨0x08000000, [], [⟨15, 0, .rw, [256], [(1, 65535)]⟩]⟩
  | .xbarStatus => ⟨0x08000004, [], [⟨4, 4, .ro, [0], []⟩, ⟨1, 0, .ro, [3], []⟩]⟩
  | .xbarLiveLo => ⟨0x08000008, [], [⟨31, 0, .ro, [0], []⟩]⟩
  | .xbarLiveHi => ⟨0x0800000c, [], [⟨31, 0, .ro, [0], []⟩]⟩
  | .xbarPromotions => ⟨0x08000010, [], counterField⟩
  | .bufSplit => ⟨0x09000000, [], [⟨4, 0, .rw, [18], [(12, 24)]⟩]⟩
  | .bufSpill => ⟨0x09000004, [], [⟨16, 16, .rw, [0], []⟩, ⟨15, 8, .rw, [70], []⟩, ⟨7, 0, .rw, [80], []⟩]⟩
  | .bufEgress => ⟨0x09000008, [], [⟨15, 0, .rw, [256], [(64, 1024)]⟩]⟩
  | .bufClass => ⟨0x09000020, [(4, 8)],
      [⟨31, 28, .rw, [8, 7, 7, 5, 7, 6, 4, 8], []⟩,
       ⟨27, 20, .rw, [16], [(1, 255)]⟩,
       ⟨15, 0, .rw, [8192, 8192, 4096, 2048, 4096, 2048, 2048, 512], []⟩]⟩
  | .bufAge => ⟨0x09000040, [(4, 8)], [⟨23, 0, .rw, [10, 1000, 1000, 1000, 1000, 4000, 4000, 1000], [(1, 16777215)]⟩]⟩
  | .tcSpolCmd => ⟨0x0a000000, [], [⟨3, 0, .wo, [0], []⟩]⟩
  | .tcSpolCtx => ⟨0x0a000004, [], [⟨20, 0, .rw, [0], []⟩]⟩
  | .tcSpolData => ⟨0x0a000008, [], [⟨27, 16, .rw, [64], [(1, 4095)]⟩, ⟨15, 0, .rw, [0], [(0, 16000)]⟩]⟩
  | .tcSpolStatus => ⟨0x0a00000c, [], [⟨31, 31, .ro, [0], []⟩, ⟨30, 30, .w1c, [0], []⟩, ⟨15, 0, .ro, [0], []⟩]⟩
  | .tcSpolCount => ⟨0x0a000010, [], [⟨16, 0, .ro, [0], []⟩]⟩
  | .tcSpolDrops => ⟨0x0a000014, [], counterField⟩
  | .estConfig => ⟨0x0b000000, [], [⟨31, 16, .rw, [1000], [(1, 65535)]⟩, ⟨15, 8, .rw, [20], [(1, 255)]⟩]⟩
  | .estGroups => ⟨0x0b000004, [], [⟨13, 0, .ro, [0], []⟩]⟩
  | .estMembers => ⟨0x0b000008, [], [⟨20, 0, .ro, [0], []⟩]⟩
  | .estOpen => ⟨0x0b00000c, [], [⟨21, 0, .ro, [0], []⟩]⟩
  | .estNonmemberDrops => ⟨0x0b000040, [], counterField⟩
  | .estExcludedDrops => ⟨0x0b000044, [], counterField⟩
  | .estEarlyDrops => ⟨0x0b000048, [], counterField⟩
  | .estAheadDrops => ⟨0x0b00004c, [], counterField⟩
  | .estDupDrops => ⟨0x0b000050, [], counterField⟩
  | .estLateDrops => ⟨0x0b000054, [], counterField⟩
  | .estFmtDrops => ⟨0x0b000058, [], counterField⟩
  | .estSpanDrops => ⟨0x0b00005c, [], counterField⟩
  | .estOpenFails => ⟨0x0b000060, [], counterField⟩
  | .estResultNoPort => ⟨0x0b000064, [], counterField⟩
  | .estTriggerFires => ⟨0x0b000068, [], counterField⟩
  | .estTriggerErrors => ⟨0x0b00006c, [], counterField⟩
  | .estRoleDrops => ⟨0x0b000070, [], counterField⟩
  | .estMissingCells => ⟨0x0b000080, [], counterField⟩
  | .estMissingNoPort => ⟨0x0b000084, [], counterField⟩
  | .estResendChunks => ⟨0x0b000088, [], counterField⟩
  | .estGoneChunks => ⟨0x0b00008c, [], counterField⟩
  | .estResendDrops => ⟨0x0b000090, [], counterField⟩
  | .estSliceDrops => ⟨0x0b000094, [], counterField⟩
  | .estTimeouts => ⟨0x0b000098, [], counterField⟩
  | .estAborts => ⟨0x0b00009c, [], counterField⟩
  | .estExclusions => ⟨0x0b0000a0, [], counterField⟩
  | .bwkStatus => ⟨0x0c000000, [], [⟨31, 31, .ro, [0], []⟩, ⟨12, 0, .ro, [0], []⟩]⟩
  | .bwkUnitsFree => ⟨0x0c000004, [], [⟨19, 0, .ro, [0], []⟩]⟩
  | .bwkUnitsDamaged => ⟨0x0c000008, [], [⟨19, 0, .ro, [0], []⟩]⟩
  | .bwkNonmemberDrops => ⟨0x0c000040, [], counterField⟩
  | .bwkRoleDrops => ⟨0x0c000044, [], counterField⟩
  | .bwkResetDrops => ⟨0x0c000048, [], counterField⟩
  | .bwkRebuildNoPort => ⟨0x0c00004c, [], counterField⟩
  | .bwkUnitsEncoded => ⟨0x0c000050, [], counterField⟩
  | .bwkDeltaChunks => ⟨0x0c000054, [], counterField⟩
  | .bwkRebuiltChunks => ⟨0x0c000058, [], counterField⟩
  | .bwkStale => ⟨0x0c00005c, [], counterField⟩
  | .utwShare => ⟨0x0d000000, [], [⟨15, 0, .ro, [0], []⟩]⟩
  | .utwCells => ⟨0x0d000004, [], [⟨31, 0, .ro, [0], []⟩]⟩
  | .utwLost => ⟨0x0d000008, [], counterField⟩
  | .utwCtxFetches => ⟨0x0d000010, [], counterField⟩
  | .utwCtxWritebacks => ⟨0x0d000014, [], counterField⟩
  | .cswMode => ⟨0x0e000000, [], [⟨31, 0, .ro, [0], []⟩]⟩
  | .cswPaths => ⟨0x0e000004, [], [⟨27, 16, .ro, [0], []⟩, ⟨11, 0, .ro, [0], []⟩]⟩
  | .cswChanges => ⟨0x0e000040, [], counterField⟩
  | .cswPilotFaults => ⟨0x0e000044, [], counterField⟩
  | .cswLockFaults => ⟨0x0e000048, [], counterField⟩
  | .cswLightLosses => ⟨0x0e00004c, [], counterField⟩
  | .cswSlowOpens => ⟨0x0e000050, [], counterField⟩
  | .cswPath => ⟨0x0e001000, [(512, 16), (4, 128)],
      [⟨31, 29, .ro, [0], []⟩,
       ⟨28, 28, .ro, [0], []⟩,
       ⟨27, 24, .ro, [0], []⟩,
       ⟨23, 21, .ro, [0], []⟩,
       ⟨12, 12, .ro, [0], []⟩,
       ⟨11, 0, .ro, [0], []⟩]⟩
  | .swlConfig => ⟨0x0f000000, [], [⟨15, 8, .rw, [20], [(1, 255)]⟩, ⟨5, 0, .rw, [8], [(1, 63)]⟩]⟩
  | .swlCal => ⟨0x0f000004, [], [⟨31, 31, .rw, [1], []⟩, ⟨15, 0, .rw, [600], [(1, 65535)]⟩]⟩
  | .swlStatus => ⟨0x0f000008, [], [⟨15, 0, .ro, [0], []⟩]⟩
  | .swlInstances => ⟨0x0f000040, [], counterField⟩
  | .swlSkewFaults => ⟨0x0f000044, [], counterField⟩
  | .swlClips => ⟨0x0f000048, [], counterField⟩
  | .swlUnbounded => ⟨0x0f00004c, [], counterField⟩
  | .swlAbsent => ⟨0x0f000050, [], counterField⟩
  | .swlUnclaimed => ⟨0x0f000054, [], counterField⟩
  | .swlDeskew => ⟨0x0f001000, [(4, 2048)],
      [⟨31, 31, .ro, [0], []⟩, ⟨30, 30, .ro, [0], []⟩, ⟨29, 29, .ro, [0], []⟩, ⟨23, 0, .ro, [0], []⟩]⟩
  | .swlLane => ⟨0x0f003000, [(4, 2048)], [⟨31, 24, .ro, [0], []⟩, ⟨20, 20, .ro, [0], []⟩, ⟨11, 0, .ro, [0], []⟩]⟩
  | .d2dLink => ⟨0x10000000, [(4, 20)],
      [⟨31, 29, .ro, [0], []⟩, ⟨28, 24, .ro, [0], []⟩, ⟨23, 16, .ro, [0], []⟩, ⟨15, 0, .ro, [0], []⟩]⟩
  | .d2dRetrains => ⟨0x10000080, [(4, 20)], counterField⟩
  | .d2dCrcErrs => ⟨0x10000100, [(4, 20)], counterField⟩
  | .d2dConfig => ⟨0x10000180, [], [⟨7, 0, .rw, [16], [(1, 255)]⟩]⟩
  | .d2dF2f => ⟨0x10000200, [(4, 64)], [⟨31, 31, .ro, [0], []⟩, ⟨7, 0, .ro, [0], []⟩]⟩
  | .bistStatus => ⟨0x11000000, [], [⟨31, 30, .ro, [0], []⟩, ⟨1, 0, .ro, [0], []⟩]⟩
  | .bistConfig => ⟨0x11000004, [], [⟨7, 0, .rw, [10], [(1, 255)]⟩]⟩
  | .bistActive => ⟨0x11000008, [(4, 2)], [⟨31, 31, .ro, [0], []⟩, ⟨27, 16, .ro, [0], []⟩, ⟨15, 0, .ro, [0], []⟩]⟩
  | .bistFuseFree => ⟨0x11000010, [], [⟨11, 0, .ro, [0], []⟩]⟩
  | .bistTestsRun => ⟨0x11000040, [], counterField⟩
  | .bistTestsFailed => ⟨0x11000044, [], counterField⟩
  | .bistSoftRepairs => ⟨0x11000048, [], counterField⟩
  | .bistFuseRepairs => ⟨0x1100004c, [], counterField⟩
  | .bistPprRepairs => ⟨0x11000050, [], counterField⟩
  | .secStatus => ⟨0x12000000, [],
      [⟨31, 31, .ro, [0], []⟩,
       ⟨30, 30, .ro, [0], []⟩,
       ⟨29, 29, .ro, [0], []⟩,
       ⟨28, 27, .ro, [0], []⟩,
       ⟨23, 16, .ro, [0], []⟩,
       ⟨15, 8, .ro, [0], []⟩,
       ⟨7, 4, .ro, [0], []⟩,
       ⟨3, 0, .ro, [0], []⟩]⟩
  | .secTrust => ⟨0x12000004, [], [⟨31, 31, .ro, [0], []⟩, ⟨4, 0, .ro, [0], []⟩]⟩
  | .secHandshakes => ⟨0x12000040, [], counterField⟩
  | .secHandshakeFails => ⟨0x12000044, [], counterField⟩
  | .secAttests => ⟨0x12000048, [], counterField⟩
  | .secFwUpdates => ⟨0x1200004c, [], counterField⟩
  | .telConfig => ⟨0x13000000, [], [⟨31, 24, .rw, [100], [(1, 255)]⟩, ⟨15, 0, .rw, [1000], [(1, 16000)]⟩]⟩
  | .telExport => ⟨0x13000004, [],
      [⟨31, 31, .ro, [0], []⟩, ⟨25, 24, .ro, [0], []⟩, ⟨23, 16, .ro, [0], []⟩, ⟨15, 0, .ro, [0], []⟩]⟩
  | .telQuar => ⟨0x13000008, [], [⟨15, 8, .rw, [8], [(1, 255)]⟩, ⟨7, 0, .rw, [8], [(1, 255)]⟩]⟩
  | .telQuarStatus => ⟨0x1300000c, [], [⟨31, 24, .ro, [0], []⟩, ⟨11, 0, .ro, [0], []⟩]⟩
  | .telLogStatus => ⟨0x13000010, [], [⟨31, 30, .ro, [0], []⟩, ⟨27, 24, .ro, [0], []⟩, ⟨6, 0, .ro, [0], []⟩]⟩
  | .telLogNextLo => ⟨0x13000018, [], [⟨31, 0, .ro, [0], []⟩]⟩
  | .telLogNextHi => ⟨0x1300001c, [], [⟨31, 0, .ro, [0], []⟩]⟩
  | .telEventsInfo => ⟨0x13000040, [], counterField⟩
  | .telEventsNotice => ⟨0x13000044, [], counterField⟩
  | .telEventsWarning => ⟨0x13000048, [], counterField⟩
  | .telEventsCritical => ⟨0x1300004c, [], counterField⟩
  | .telCoalesced => ⟨0x13000050, [], counterField⟩
  | .telSampledOut => ⟨0x13000054, [], counterField⟩
  | .telOverwritten => ⟨0x13000058, [], counterField⟩
  | .telLostHigh => ⟨0x1300005c, [], counterField⟩
  | .telStreamSkips => ⟨0x13000060, [], counterField⟩
  | .telCollectorSkips => ⟨0x13000064, [], counterField⟩
  | .telResetLost => ⟨0x13000068, [], counterField⟩
  | .telQuarGrants => ⟨0x1300006c, [], counterField⟩
  | .telQuarRefusals => ⟨0x13000070, [], counterField⟩
  | .linkConfig => ⟨0x14000000, [],
      [⟨23, 16, .rw, [20], []⟩, ⟨15, 12, .rw, [8], [(1, 15)]⟩, ⟨11, 8, .rw, [10], [(1, 15)]⟩]⟩
  | .linkMacLo => ⟨0x14000008, [], [⟨31, 0, .ro, [0], []⟩]⟩
  | .linkMacHi => ⟨0x1400000c, [], [⟨15, 0, .ro, [0], []⟩]⟩
  | .linkCreditInit => ⟨0x14000010, [(4, 8)], [⟨15, 0, .rw, [2048, 4096, 0, 2048, 2048, 2048, 4096, 256], []⟩]⟩
  | .tileClk => ⟨0x40000000, [(16777216, 64)], [⟨4, 0, .ro, [0], []⟩]⟩
  | .tileThrottleSteps => ⟨0x40000004, [(16777216, 64)], counterField⟩
  | .tileIngressOverrun => ⟨0x40000010, [(16777216, 64)], counterField⟩
  | .tileXbarMcastSplits => ⟨0x40000014, [(16777216, 64)], counterField⟩
  | .tileXbarDestDrops => ⟨0x40000018, [(16777216, 64)], counterField⟩
  | .tileXbarEmptyGrants => ⟨0x4000001c, [(16777216, 64)], counterField⟩
  | .tileMcqDepth => ⟨0x40000100, [(16777216, 64), (4, 8)], [⟨31, 31, .ro, [0], []⟩, ⟨29, 0, .ro, [0], []⟩]⟩
  | .tileEqDepth => ⟨0x40000400, [(16777216, 64), (4, 256)], [⟨31, 31, .ro, [0], []⟩, ⟨29, 0, .ro, [0], []⟩]⟩
  | .tileVoqDepth => ⟨0x40000800, [(16777216, 64), (4, 512)], [⟨31, 31, .ro, [0], []⟩, ⟨29, 0, .ro, [0], []⟩]⟩
  | .tileBufStatus => ⟨0x40000200, [(16777216, 64)],
      [⟨31, 31, .ro, [0], []⟩, ⟨28, 24, .ro, [0], []⟩, ⟨18, 0, .ro, [0], []⟩]⟩
  | .tileBufFree => ⟨0x40000204, [(16777216, 64)], [⟨18, 0, .ro, [0], []⟩]⟩
  | .tileAdmDrops => ⟨0x40000220, [(16777216, 64), (4, 8)], counterField⟩
  | .tilePushouts => ⟨0x40000240, [(16777216, 64), (4, 8)], counterField⟩
  | .tileAgeDrops => ⟨0x40000260, [(16777216, 64), (4, 8)], counterField⟩
  | .tileSpillWrites => ⟨0x40000280, [(16777216, 64)], counterField⟩
  | .tileSpillReads => ⟨0x40000284, [(16777216, 64)], counterField⟩
  | .tileFrameAborts => ⟨0x40000288, [(16777216, 64)], counterField⟩
  | .tileSpillFull => ⟨0x4000028c, [(16777216, 64)], counterField⟩
  | .tileTsStatus => ⟨0x40000300, [(16777216, 64)], [⟨31, 31, .ro, [0], []⟩, ⟨5, 0, .ro, [0], []⟩]⟩
  | .tileLaunchPending => ⟨0x40000304, [(16777216, 64)], [⟨12, 0, .ro, [0], []⟩]⟩
  | .tileLaunchMissed => ⟨0x40000308, [(16777216, 64)], counterField⟩
  | .tileTsLost => ⟨0x4000030c, [(16777216, 64)], counterField⟩
  | .tileEstEarly => ⟨0x40000320, [(16777216, 64)], [⟨13, 0, .ro, [0], []⟩]⟩
  | .tileEstHot => ⟨0x40000324, [(16777216, 64)], [⟨12, 0, .ro, [0], []⟩]⟩
  | .tileLaneStatus => ⟨0x40001000, [(16777216, 64), (4, 32)],
      [⟨15, 12, .ro, [0], []⟩,
       ⟨3, 3, .ro, [0], []⟩,
       ⟨2, 2, .ro, [0], []⟩,
       ⟨1, 1, .ro, [0], []⟩,
       ⟨0, 0, .ro, [0], []⟩]⟩
  | .tilePortStatus => ⟨0x40001080, [(16777216, 64), (4, 32)],
      [⟨31, 28, .ro, [0], []⟩,
       ⟨27, 25, .ro, [0], []⟩,
       ⟨24, 24, .ro, [0], []⟩,
       ⟨23, 22, .ro, [0], []⟩,
       ⟨15, 8, .ro, [0], []⟩,
       ⟨7, 0, .ro, [0], []⟩]⟩
  | .tilePortCrcErrs => ⟨0x40001100, [(16777216, 64), (4, 32)], counterField⟩
  | .tilePortReplays => ⟨0x40001180, [(16777216, 64), (4, 32)], counterField⟩
  | .tilePortSpoofDrops => ⟨0x40001200, [(16777216, 64), (4, 32)], counterField⟩
  | .tilePortQuarDrops => ⟨0x40001280, [(16777216, 64), (4, 32)], counterField⟩
  | .tilePortClassDrops => ⟨0x40001300, [(16777216, 64), (4, 32)], counterField⟩
  | .tilePortHairpin => ⟨0x40001380, [(16777216, 64), (4, 32)], counterField⟩
  | .tilePortReconfDrops => ⟨0x40001400, [(16777216, 64), (4, 32)], counterField⟩
  | .tilePortPolDrops => ⟨0x40001480, [(16777216, 64), (4, 32)], counterField⟩
  | .tileLaneFecCorr => ⟨0x40001500, [(16777216, 64), (4, 32)], counterField⟩
  | .tileLaneFecUncorr => ⟨0x40001580, [(16777216, 64), (4, 32)], counterField⟩
  | .tileTcPort => ⟨0x40002000, [(16777216, 64), (4, 32)],
      [⟨7, 7, .rw, [0], []⟩, ⟨6, 0, .rw, [0], [(0, 63), (96, 127)]⟩]⟩
  | .tileTcWeight => ⟨0x40002080, [(16777216, 64), (4, 32)],
      [⟨29, 25, .rw, [4], [(1, 31)]⟩,
       ⟨24, 20, .rw, [4], [(1, 31)]⟩,
       ⟨19, 15, .rw, [8], [(1, 31)]⟩,
       ⟨14, 10, .rw, [4], [(1, 31)]⟩,
       ⟨9, 5, .rw, [8], [(1, 31)]⟩,
       ⟨4, 0, .rw, [4], [(1, 31)]⟩]⟩
  | .tileTcPshape => ⟨0x40002100, [(16777216, 64), (4, 32)],
      [⟨27, 16, .rw, [64], [(1, 4095)]⟩, ⟨15, 0, .rw, [0], [(0, 16000)]⟩]⟩
  | .tileTcPolice => ⟨0x40002400, [(16777216, 64), (4, 256)],
      [⟨27, 16, .rw, [64], [(1, 4095)]⟩, ⟨15, 0, .rw, [0], [(0, 16000)]⟩]⟩
  | .tileTcQshape => ⟨0x40002800, [(16777216, 64), (4, 256)],
      [⟨27, 16, .rw, [64], [(1, 4095)]⟩, ⟨15, 0, .rw, [0], [(0, 16000)]⟩]⟩
  | .oeStatus => ⟨0x80000000, [(16777216, 16)],
      [⟨31, 31, .ro, [0], []⟩,
       ⟨30, 30, .ro, [0], []⟩,
       ⟨29, 29, .ro, [0], []⟩,
       ⟨28, 28, .ro, [0], []⟩,
       ⟨27, 27, .ro, [0], []⟩,
       ⟨15, 8, .ro, [0], []⟩,
       ⟨7, 0, .ro, [0], []⟩]⟩
  | .oeConfig => ⟨0x80000004, [(16777216, 16)],
      [⟨16, 16, .rw, [1], []⟩, ⟨15, 8, .rw, [20], [(5, 255)]⟩, ⟨7, 0, .rw, [5], [(1, 255)]⟩]⟩
  | .oeErrConfig => ⟨0x80000008, [(16777216, 16)],
      [⟨31, 24, .rw, [2], [(1, 255)]⟩,
       ⟨23, 16, .rw, [20], [(1, 255)]⟩,
       ⟨15, 8, .rw, [16], [(1, 255)]⟩,
       ⟨7, 0, .rw, [10], [(1, 255)]⟩]⟩
  | .oePilot => ⟨0x8000000c, [(16777216, 16)], [⟨23, 0, .ro, [0xFAC688], []⟩]⟩
  | .oeTemp => ⟨0x80000010, [(16777216, 16), (4, 4)], [⟨15, 0, .ro, [0], []⟩]⟩
  | .oeLockLosses => ⟨0x80000040, [(16777216, 16)], counterField⟩
  | .oeWrongLocks => ⟨0x80000044, [(16777216, 16)], counterField⟩
  | .oeReseeks => ⟨0x80000048, [(16777216, 16)], counterField⟩
  | .oeEyeClosures => ⟨0x8000004c, [(16777216, 16)], counterField⟩
  | .oeErrDrops => ⟨0x80000050, [(16777216, 16)], counterField⟩
  | .oeOverBudget => ⟨0x80000054, [(16777216, 16)], counterField⟩
  | .oeFibre => ⟨0x80000100, [(16777216, 16), (4, 16)],
      [⟨31, 29, .ro, [0], []⟩,
       ⟨28, 28, .ro, [0], []⟩,
       ⟨27, 27, .ro, [0], []⟩,
       ⟨15, 8, .ro, [0], []⟩,
       ⟨7, 0, .ro, [0], []⟩]⟩
  | .oeRing => ⟨0x80001000, [(16777216, 16), (4, 256)],
      [⟨31, 29, .ro, [0], []⟩,
       ⟨28, 26, .ro, [0], []⟩,
       ⟨25, 25, .ro, [0], []⟩,
       ⟨24, 24, .ro, [0], []⟩,
       ⟨11, 0, .ro, [0], []⟩]⟩
  | .brgStatus => ⟨0x90000000, [(16777216, 4)],
      [⟨31, 31, .ro, [0], []⟩, ⟨23, 16, .ro, [0], []⟩, ⟨4, 0, .ro, [0], []⟩]⟩
  | .brgArb => ⟨0x90000004, [(16777216, 4)],
      [⟨23, 16, .rw, [1], [(1, 255)]⟩, ⟨15, 8, .rw, [3], [(1, 255)]⟩, ⟨7, 0, .rw, [4], [(1, 255)]⟩]⟩
  | .brgScrub => ⟨0x90000008, [(16777216, 4)], [⟨15, 8, .rw, [4], [(1, 255)]⟩, ⟨7, 0, .rw, [24], []⟩]⟩
  | .brgEccCorr => ⟨0x90000010, [(16777216, 4)], counterField⟩
  | .brgEccUncorr => ⟨0x90000014, [(16777216, 4)], counterField⟩

/-- The registers of a block, by the block number of R12; tiles, engines and bridges each share one list. -/
def blockRegs (b : Nat) : List Reg :=
  if b = 0x00 then
    [.devId]
  else if b = 0x01 then
    [.cmdMacLo, .cmdMacHi, .cmdConfig, .cmdSessions, .cmdIncarnation, .cmdSlot, .cmdRxFrames, .cmdAuthFails,
     .cmdReplays, .cmdDrops, .cmdBusy, .cmdSession0Drops]
  else if b = 0x02 then
    [.rstCause, .rstWdog, .rstHeldLo, .rstHeldHi, .rstFailedLo, .rstFailedHi, .rstCount, .rstWdogFires]
  else if b = 0x03 then
    [.pwrStatus, .pwrCap, .pwrConfig, .pwrThrottlePeriods, .pwrRefusals, .pwrSilent, .pwrRampHolds, .pwrDie]
  else if b = 0x04 then
    [.timeStatus, .timeConfig, .timeFreeFrac, .timeFreeNsLo, .timeFreeNsHi, .timePtpFrac, .timePtpNsLo,
     .timePtpNsHi, .timeRate, .timeHoldovers]
  else if b = 0x05 then
    [.tideStatus, .tideCommits, .tideRefusals, .tideLate]
  else if b = 0x06 then
    [.tblCmd, .tblIndex, .tblStatus, .tblData, .tblSound, .tblSoundStatus, .tblSpray, .tblSpraySeed, .tblHashSeed,
     .tblMacConfig, .tblUnroutable, .tblNoPort, .tblSchedNoPort, .tblStaleEpoch, .tblRouteDrops, .tblUnknown,
     .tblTtlDrops, .tblFiltered, .tblLearnFull, .tblMacMoves, .tblStaticConflicts, .tblSoundMismatches,
     .tblSoundRepairs]
  else if b = 0x07 then
    [.genActive, .genConfig, .genInflight, .genArmTimeLo, .genArmTimeHi, .genHorizonLo, .genHorizonHi,
     .genCommits, .genLate]
  else if b = 0x08 then
    [.xbarConfig, .xbarStatus, .xbarLiveLo, .xbarLiveHi, .xbarPromotions]
  else if b = 0x09 then
    [.bufSplit, .bufSpill, .bufEgress, .bufClass, .bufAge]
  else if b = 0x0a then
    [.tcSpolCmd, .tcSpolCtx, .tcSpolData, .tcSpolStatus, .tcSpolCount, .tcSpolDrops]
  else if b = 0x0b then
    [.estConfig, .estGroups, .estMembers, .estOpen, .estNonmemberDrops, .estExcludedDrops, .estEarlyDrops,
     .estAheadDrops, .estDupDrops, .estLateDrops, .estFmtDrops, .estSpanDrops, .estOpenFails, .estResultNoPort,
     .estTriggerFires, .estTriggerErrors, .estRoleDrops, .estMissingCells, .estMissingNoPort, .estResendChunks,
     .estGoneChunks, .estResendDrops, .estSliceDrops, .estTimeouts, .estAborts, .estExclusions]
  else if b = 0x0c then
    [.bwkStatus, .bwkUnitsFree, .bwkUnitsDamaged, .bwkNonmemberDrops, .bwkRoleDrops, .bwkResetDrops,
     .bwkRebuildNoPort, .bwkUnitsEncoded, .bwkDeltaChunks, .bwkRebuiltChunks, .bwkStale]
  else if b = 0x0d then
    [.utwShare, .utwCells, .utwLost, .utwCtxFetches, .utwCtxWritebacks]
  else if b = 0x0e then
    [.cswMode, .cswPaths, .cswChanges, .cswPilotFaults, .cswLockFaults, .cswLightLosses, .cswSlowOpens, .cswPath]
  else if b = 0x0f then
    [.swlConfig, .swlCal, .swlStatus, .swlInstances, .swlSkewFaults, .swlClips, .swlUnbounded, .swlAbsent,
     .swlUnclaimed, .swlDeskew, .swlLane]
  else if b = 0x10 then
    [.d2dLink, .d2dRetrains, .d2dCrcErrs, .d2dConfig, .d2dF2f]
  else if b = 0x11 then
    [.bistStatus, .bistConfig, .bistActive, .bistFuseFree, .bistTestsRun, .bistTestsFailed, .bistSoftRepairs,
     .bistFuseRepairs, .bistPprRepairs]
  else if b = 0x12 then
    [.secStatus, .secTrust, .secHandshakes, .secHandshakeFails, .secAttests, .secFwUpdates]
  else if b = 0x13 then
    [.telConfig, .telExport, .telQuar, .telQuarStatus, .telLogStatus, .telLogNextLo, .telLogNextHi,
     .telEventsInfo, .telEventsNotice, .telEventsWarning, .telEventsCritical, .telCoalesced, .telSampledOut,
     .telOverwritten, .telLostHigh, .telStreamSkips, .telCollectorSkips, .telResetLost, .telQuarGrants,
     .telQuarRefusals]
  else if b = 0x14 then
    [.linkConfig, .linkMacLo, .linkMacHi, .linkCreditInit]
  else if 0x40 ≤ b ∧ b < 0x80 then
    [.tileClk, .tileThrottleSteps, .tileIngressOverrun, .tileXbarMcastSplits, .tileXbarDestDrops,
     .tileXbarEmptyGrants, .tileMcqDepth, .tileEqDepth, .tileVoqDepth, .tileBufStatus, .tileBufFree, .tileAdmDrops,
     .tilePushouts, .tileAgeDrops, .tileSpillWrites, .tileSpillReads, .tileFrameAborts, .tileSpillFull,
     .tileTsStatus, .tileLaunchPending, .tileLaunchMissed, .tileTsLost, .tileEstEarly, .tileEstHot,
     .tileLaneStatus, .tilePortStatus, .tilePortCrcErrs, .tilePortReplays, .tilePortSpoofDrops, .tilePortQuarDrops,
     .tilePortClassDrops, .tilePortHairpin, .tilePortReconfDrops, .tilePortPolDrops, .tileLaneFecCorr,
     .tileLaneFecUncorr, .tileTcPort, .tileTcWeight, .tileTcPshape, .tileTcPolice, .tileTcQshape]
  else if 0x80 ≤ b ∧ b < 0x90 then
    [.oeStatus, .oeConfig, .oeErrConfig, .oePilot, .oeTemp, .oeLockLosses, .oeWrongLocks, .oeReseeks,
     .oeEyeClosures, .oeErrDrops, .oeOverBudget, .oeFibre, .oeRing]
  else if 0x90 ≤ b ∧ b < 0x94 then
    [.brgStatus, .brgArb, .brgScrub, .brgEccCorr, .brgEccUncorr]
  else []

/-- The indexes at which an offset stands in a replicated register. -/
def indexesOf : List (Nat × Nat) → Nat → Option (List Nat)
  | [], off => if off = 0 then some [] else none
  | (stride, count) :: ds, off =>
    if off / stride < count then (indexesOf ds (off % stride)).map (off / stride :: ·) else none

/-- The register at an address and its indexes; none where the address is unassigned (R12). -/
def locate (a : Addr) : Option (Reg × List Nat) :=
  (blockRegs (a.toNat / 0x1000000)).findSome? fun r =>
    if r.row.base ≤ a.toNat then (indexesOf r.row.dims (a.toNat - r.row.base)).map (r, ·) else none

/-- The address of a register at given indexes. -/
def regAddr (r : Reg) (ix : List Nat) : Nat :=
  r.row.base + ((r.row.dims.zip ix).map fun (d, i) => d.1 * i).sum

/-- The reset value of a field of the register at the given indexes. -/
def FieldSpec.resetAt (f : FieldSpec) (ix : List Nat) : Nat :=
  match f.reset with
  | [v] => v
  | vs => vs.getD (ix.getLastD 0) 0

/-- The value a register holds after POR_N or SYS_RST_N (R17), fields of other state read as 0. -/
def regReset (r : Reg) (ix : List Nat) : Word :=
  BitVec.ofNat 32 ((r.row.fields.map fun f => f.resetAt ix * 2 ^ f.lo).sum)

/-- Bits hi:lo of a word as a number. -/
def Word.bits (w : Word) (hi lo : Nat) : Nat := w.toNat / 2 ^ lo % 2 ^ (hi + 1 - lo)

/-- The value of a field in a register's word. -/
def FieldSpec.get (f : FieldSpec) (w : Word) : Nat := w.toNat / 2 ^ f.lo % 2 ^ (f.hi + 1 - f.lo)

/-- The value is not reserved. -/
def FieldSpec.ok (f : FieldSpec) (v : Nat) : Bool :=
  f.legal.isEmpty || f.legal.any fun (a, b) => decide (a ≤ v) && decide (v ≤ b)

end Sys2Proof.Machine
end

