-- ==== Sys2Proof/Config.lean ====
section
/-! DEFINITION. What one unit of the part fixes and the spec does not give: factory bytes, the published
cryptographic standards, and the free values. None of these constants has a body that a proof can see. -/

namespace Sys2Proof.Config

/-- The management MAC address, assigned at the factory (R49, R86). -/
opaque mgmtMac : BitVec 48
/-- The base of the ports' Ethernet addresses, assigned at the factory (R138). -/
opaque linkMac : BitVec 48
/-- clockIdentity of the PTP instance, and the portNumber of each port in its sourcePortIdentity (IEEE 1588). -/
opaque clockIdentity : BitVec 64
opaque ptpPortNumber : Nat → BitVec 16
/-- The device secret in fuses (R563). -/
opaque deviceSecret : BitVec 256
/-- Ed25519 and ML-DSA-65 key generation from a seed: the public key, most significant byte first (R563). -/
opaque edPublic : BitVec 256 → BitVec 256
opaque mldsaPublic : BitVec 256 → BitVec 15616
/-- Ed25519 signing: the seed and the message. -/
opaque edSign : BitVec 256 → List Byte → BitVec 512
/-- ML-DSA-65 signing: what the signer draws at random, the seed and the message. -/
opaque mldsaSign : Nat → BitVec 256 → List Byte → BitVec 26472
/-- A chain of certificates as DER bytes: the device's own, and those above it toward the root. -/
structure CertChain where
  device : List Byte
  above : List (List Byte)
  deriving Inhabited

/-- The chain of a scheme, written at the factory (R563, R566). -/
opaque certChain : Nat → CertChain
/-- SHA-384 of a byte string. -/
opaque sha384 : List Byte → BitVec 384
/-- Gorti's X25519 public key, its ML-KEM-768 ciphertext and its nonce in a handshake, from the ephemeral secrets that the
number stands for and the host's encapsulation key (R566). -/
opaque handshake : Nat → BitVec 9472 → BitVec 256 × BitVec 8704 × BitVec 256
/-- The X25519 shared secret followed by the ML-KEM-768 shared secret, from Gorti's ephemeral secrets of a handshake and
the host's two public keys (R568). -/
opaque sharedSecrets : Nat → BitVec 256 → BitVec 9472 → List Byte
/-- HKDF-SHA-384: input keying material, salt, info string and length in bytes, most significant byte first (R568). -/
opaque hkdf : List Byte → List Byte → List Byte → Nat → Nat
/-- The keystream byte of AES-256-GCM: key, 12-byte IV and position (R53). -/
opaque gcmStream : BitVec 256 → List Byte → Nat → Byte
/-- The AES-256-GCM tag: key, 12-byte IV, additional data and ciphertext (R53). -/
opaque gcmTag : BitVec 256 → List Byte → List Byte → List Byte → BitVec 128
/-- The vendor key hash fused in a key slot (R564). -/
opaque vendorHash : Nat → BitVec 384
/-- Ed25519 and ML-DSA-65 verification: key, message and signature (R560). -/
opaque edVerifies : List Byte → List Byte → List Byte → Bool
opaque mldsaVerifies : List Byte → List Byte → List Byte → Bool
/-- The calibration data that an engine's fuses hold (R461). Rings are numbered engine × 4,096 + r, where the data rings
come first and the routing rings after them; fibres as everywhere. -/
opaque coldCode : Nat → BitVec 12
/-- A ring's feedforward coefficient for each of the four sensors. -/
opaque ffCoeff : Nat → Fin 4 → BitVec 16
/-- The dark offset of a ring's monitor photodiode. -/
opaque darkOffset : Nat → BitVec 16
/-- An attenuator's drive for OPEN and for probe level. -/
opaque attDrive : Nat → BitVec 16 × BitVec 16
/-- The crosstalk coefficient between two of an engine's eight wavelengths that a Swell calibration measures (R500): the
calibration's number, and 8 × the wavelength read + the one that disturbs it. -/
opaque crosstalk : Nat → Nat → BitVec 16
/-- The bridge that holds the records of an event in LOG, by its SEQ (R210, R581). -/
opaque logBridge : Nat → Fin 4
/-- The heater code at which a routing ring is verified (R474): the number of the seek, and the ring. -/
opaque routingCode : Nat → Nat → BitVec 12
/-- The CRC-16 of a Shoreline word, and of a message between dies (R508, R517): their polynomial is not given. -/
opaque shoreCrc : BitVec 256 → BitVec 16
opaque messageCrc : List Byte → BitVec 16
/-- A free value: what the spec leaves open, drawn with a number that State counts. -/
opaque freeValue : Nat → BitVec 64

end Sys2Proof.Config
end

