-- ==== Sys2Proof/Machine/StateCsw.lean ====
section
/-! DEFINITION. The state of Causeway and Swell: paths, changes, deskew, calibrations and instances. -/

namespace Sys2Proof.Machine

/-- The states of a path (R485). -/
inductive PathState where
  | idle
  | switching
  | waitPilot
  | opened
  | dark
  | faulted
  deriving DecidableEq, Repr

/-- PSTATE of CSW_PATH. -/
def PathState.code : PathState → Nat
  | .idle => 0
  | .switching => 1
  | .waitPilot => 2
  | .opened => 3
  | .dark => 4
  | .faulted => 5

/-- A path that is not IDLE. `src` is its input fibre within the engine; `circuit` its index in the circuit table, 0
where `direct`; `fails` counts the pilot windows in a row that did not confirm; `relit`: its light came back (R485);
`window` is its pilot window: its end and the tone that confirms it. -/
structure CswPath where
  st : PathState
  src : Nat
  found : Nat
  direct : Bool
  circuit : Nat
  fails : Nat
  relit : Bool
  window : Nat × Nat
  deriving DecidableEq, Repr

/-- A path as a change sets it (R483). -/
def CswPath.set (src : Nat) (direct : Bool) (circuit : Nat) : CswPath := ⟨.switching, src, 0, direct, circuit, 0, false, (0, 0)⟩

/-- The settings of a divert ring (R473). -/
inductive Divert where
  | pass
  | matrix
  | sum
  | dump
  deriving DecidableEq, Repr

/-- Causeway. Paths are kept under engine × 128 + 8 f + w of their output. `changes` gives, for an engine, when its
change began, on the free-running counter; `last` the PTP time of its latest scheduled change; `heaters` the code of each
routing ring that a path engages, under engine × 2,304 + ring; `diverts` the setting of each
divert ring that is not at PASS, by its lane. -/
structure Csw where
  paths : AMap CswPath
  changes : AMap Nat
  last : AMap Nat
  heaters : AMap Nat
  diverts : AMap Divert
  deriving DecidableEq, Repr

/-- What Swell keeps for a lane (R498, R506). -/
structure SwlLane where
  valid : Bool
  absent : Bool
  skewFault : Bool
  corr : Int
  resid : Int
  trimFault : Bool
  trim : Int
  deriving DecidableEq, Repr

def SwlLane.init : SwlLane := ⟨false, false, false, 0, 0, false, 0⟩

/-- An engine's calibration: when it completed and what the engine's sensors read then. -/
structure SwlCal where
  at_ : Nat
  temps : List Nat
  deriving DecidableEq, Repr

/-- An instance in progress on one wavelength of an engine: START and LEN, the context that claims it, its
contributors' lanes and those set to SUM that are present; `yields`: the context was ACTIVE at its start; `members`: its active members then,
and `last`: one was excluded (R502); `dark`: an input has lost its light since; `lost`: the engine was reset since. -/
structure SwlInst where
  start : Nat
  len : Nat
  ctx : Option Nat
  lanes : List Nat
  present : List Nat
  yields : Bool
  members : List Nat
  last : Bool
  dark : Bool
  lost : Bool
  deriving DecidableEq, Repr

/-- Swell. Instances and the unclaimed time accrued for a calibration are kept under engine × 8 + wavelength. `auto`
lists the engines that recalibrate on their own; `xtalk` is the number of an engine's latest calibration, whose crosstalk
coefficients it uses. -/
structure Swl where
  lanes : AMap SwlLane
  cals : AMap SwlCal
  insts : AMap SwlInst
  accrued : AMap Nat
  auto : List Nat
  xtalk : AMap Nat
  deriving DecidableEq, Repr

end Sys2Proof.Machine
end

