-- ==== Sys2Proof/Machine/StateTime.lean ====
section
/-! DEFINITION. The state of the time unit: the counter, PTP, launches and the tide tables. -/

namespace Sys2Proof.Machine

/-- The clock states (R297). -/
inductive ClockState where
  | unset
  | tracking
  | locked
  | holdover
  | host
  deriving DecidableEq, Repr

/-- STATE of TIME_STATUS. -/
def ClockState.code : ClockState → Nat
  | .unset => 0
  | .tracking => 1
  | .locked => 2
  | .holdover => 3
  | .host => 4

/-- A slew in progress (R295): what remains of its correction and its rate S, both in units of 2^-40 ns. -/
structure Slew where
  left : Int
  rate : Nat
  deriving DecidableEq, Repr

/-- A moment: on the free-running counter in ns, and in PTP time in units of 2^-40 ns. -/
structure Stamp where
  free : Nat
  ptp : Nat
  deriving DecidableEq, Repr

/-- A pending launch (R305). `due`: the moment, on the free-running counter, at which its time came. `cells` on a C-mode port, `frame` on an E-mode port. -/
structure Launch where
  lane : Nat
  ident : Nat
  report : Bool
  at_ : Nat
  cells : List Cell
  frame : List Byte
  due : Nat
  deriving DecidableEq, Repr

/-- A transmit time-stamp: identifier, seconds and nanoseconds (R304). -/
structure TimeStamp where
  ident : Nat
  sec : Nat
  ns : Nat
  deriving DecidableEq, Repr

/-- A tile's time-stamp queue (R304). -/
structure TsQueue where
  entries : List TimeStamp
  overflow : Bool
  deriving DecidableEq, Repr

/-- What PTP_CONFIG sets (R317). -/
structure PtpConfig where
  domain : Nat
  oneStep : Bool
  tcEn : Bool
  logSync : Int
  logAnnounce : Int
  logPdelay : Int
  priority1 : Nat
  priority2 : Nat
  asym : AMap (BitVec 48)
  deriving DecidableEq, Repr

/-- PTP at a port (R298, R300). Time-stamps are PTP time in ns, corrections and delays in units of 2^-16 ns. -/
structure PtpPort where
  /-- The Announce data set received, and its sender. -/
  data : Option (AnnounceData × BitVec 80)
  lastAnnounce : Nat
  lastSync : Nat
  measured : Bool
  /-- The mean link delay that the peer-delay exchange has given. -/
  delay : Option Int
  /-- The sequenceId of the latest Sync, Announce and Pdelay_Req sent. -/
  syncSeq : Nat
  announceSeq : Nat
  requestSeq : Nat
  /-- When the latest Sync, Pdelay_Req and Pdelay_Resp left. -/
  syncAt : Nat
  requestAt : Nat
  answerAt : Nat
  /-- When the request that is being answered arrived. -/
  askedAt : Nat
  /-- A two-step Sync that waits for its Follow_Up: its sequenceId, when it arrived and its correction. -/
  sync : Option (BitVec 16 × Nat × Int)
  /-- A two-step Pdelay_Resp that waits for its follow-up: its receipt time-stamp, when it arrived and its correction. -/
  answer : Option (Nat × Nat × Int)
  deriving DecidableEq, Repr

/-- A port that has sent and received nothing. -/
def PtpPort.init : PtpPort := ⟨none, 0, 0, false, none, 0, 0, 0, 0, 0, 0, 0, none, none⟩

/-- The PTP instance. -/
structure Ptp where
  config : PtpConfig
  ports : AMap PtpPort
  /-- The selected source: first lane and grandmaster identity. -/
  selected : Option (Nat × BitVec 64)
  /-- Consecutive measurements within 50 ns, and beyond 200 ns. -/
  goodRun : Nat
  badRun : Nat
  lastOffset : Int
  deriving DecidableEq, Repr

/-- The counter, PTP time, launches and time-stamps. -/
structure TimeSt where
  /-- 64 bits of ns and 32 of fraction (R291). -/
  c : BitVec 96
  /-- OFFSET with its 8 further fraction bits (R292). -/
  offset : BitVec 104
  base : Int
  slew : Option Slew
  stepUsed : Bool
  clock : ClockState
  launches : AMap (List Launch)
  stamps : AMap TsQueue
  deriving DecidableEq, Repr

/-- A window of a tide table (R308). `pos` is its ordinal in the object it came from. -/
structure Window where
  start : Nat
  len : Nat
  gate : Nat
  causeway : Bool
  swell : Bool
  action : Nat
  bytes : Nat
  pos : Nat
  deriving DecidableEq, Repr

/-- A port record with its windows. -/
structure TidePort where
  lane : Nat
  k : Nat
  windows : List Window
  deriving DecidableEq, Repr

/-- A commit in progress (R315): A, its owner, and the tables that wait for their boundary. -/
structure Commit where
  a : Nat
  immediate : Bool
  session : Nat
  tag : BitVec 32
  checked : Bool
  waiting : List (TidePort × Nat)
  earliest : Nat
  changed : Nat
  deriving DecidableEq, Repr

/-- The tide tables. `reason` and `index` are those of the last refusal. A record with K = 0 removes a table; `spoilt`:
a fibre that the staged set names has had its LAYOUT changed (R316). -/
structure Tide where
  staged : Option (List TidePort)
  spoilt : Bool
  active : AMap TidePort
  commit : Option Commit
  reason : Nat
  index : Nat
  deriving DecidableEq, Repr

end Sys2Proof.Machine
end

