-- ==== Sys2Proof/Machine/StateLink.lean ====
section
/-! DEFINITION. The state of the fabric side: the plan, fibres, ports and lanes. -/

namespace Sys2Proof.Machine

/-- An entry of the wiring table (R31). -/
structure WireEntry where
  state : Nat
  pod : Nat
  partner : BitVec 256
  port : Nat
  layout : Nat
  deriving DecidableEq, Repr

/-- An unused entry. -/
def WireEntry.unused : WireEntry := ⟨0, 0, 0, 0, 0⟩

/-- An entry of the circuit table (R475). -/
structure CircuitEntry where
  mask : Nat
  a : Nat
  b : Nat
  deriving DecidableEq, Repr

/-- A plan in force (R31, R33). -/
structure Plan where
  spine : Nat
  plane : BitVec 64
  digest : BitVec 384
  wiring : AMap WireEntry
  sources : List Nat
  roster : List (BitVec 256)
  circuits : List CircuitEntry
  deriving DecidableEq, Repr

/-- A DISCOVER payload (R128). -/
structure Discover where
  id : BitVec 256
  port : Nat
  role : Nat
  layout : Nat
  incarnation : BitVec 32
  plane : BitVec 64
  spine : Nat
  lanes : Nat
  raw : BitVec 512
  deriving DecidableEq, Repr

/-- The class of a fibre, FCLASS of R142. -/
inductive FibreClass where
  | none
  | matched
  | mismatched
  | unexpected
  | absent
  deriving DecidableEq, Repr

/-- A fibre. -/
structure FibreSt where
  /-- LAYOUT set by PORT_CONFIG. -/
  layout : Option Nat
  /-- The latest valid DISCOVER since boot, when it came, and whether a partner is found now (R129). -/
  disc : Option Discover
  discAt : Nat
  found : Bool
  cls : FibreClass
  /-- Held in quarantine since a plan change, until its comparison completes (R36). -/
  comparing : Bool
  /-- The address that the partner's latest DISCOVER frame came from (R121). -/
  partner : Option (BitVec 48)
  deriving DecidableEq, Repr

/-- A fibre after reset. -/
def FibreSt.init : FibreSt := ⟨none, none, 0, false, .none, false, none⟩

/-- The states of a port (R131). -/
inductive PState where
  | down
  | bootstrap
  | training
  | up
  | quarantined
  | layoutConflict
  | retraining
  | disabled
  deriving DecidableEq, Repr

/-- PSTATE of TILE_PORT_STATUS. -/
def PState.code : PState → Nat
  | .down => 0
  | .bootstrap => 1
  | .training => 2
  | .up => 3
  | .quarantined => 4
  | .layoutConflict => 5
  | .retraining => 6
  | .disabled => 7

/-- A port, kept under its first lane. Masks are over the wavelengths of the fibre. -/
structure PortSt where
  st : PState
  tx : Nat
  rx : Nat
  /-- The partner's RX_LANES and TX_LANES in its latest valid link cell. -/
  peerRx : Nat
  peerTx : Nat
  /-- SENT_c and the number received, modulo 2^16 (R114). -/
  sent : List Nat
  rcvd : List Nat
  /-- The latest limit received, and the limit advertised, for each class. -/
  limitIn : List Nat
  limitOut : List Nat
  /-- The next FSEQ to send, and the sent flits that the ACK does not cover, oldest first (R116). -/
  fseq : Nat
  replay : List (Nat × Flit)
  /-- Flits to send again before new ones (R117). -/
  resend : List (Nat × Flit)
  ackAt : Nat
  /-- Replay requests received since the ACK last advanced, and REPLAY_LIMIT as it stood at formation (R119, R137). -/
  requests : Nat
  replayLimit : Nat
  /-- The next FSEQ to deliver, and the early flits by FSEQ, each with the moment it arrived, on the free-running counter in ns and
  in PTP time in units of 2^-40 ns. -/
  expect : Nat
  early : AMap (Stamp × Flit)
  /-- A replay request waits to be sent: for a gap, which the expected flit closes, and for a discarded flit (R117). -/
  request : Bool
  discarded : Bool
  /-- When the next replay request falls due. -/
  gapDue : Option Nat
  lastValid : Nat
  /-- The wavelength of the last flit placed (R112), and since when TX_LANES has been empty (R119). -/
  lastTx : Nat
  txGone : Option Nat
  /-- The frame of ORD cells arriving (R103): its counter and its bytes. -/
  inFrame : Option (Nat × List Byte)
  frameNo : Nat
  /-- The landing cells carved for the port (R178), and whether it waits in TRAINING for want of them (R179). -/
  landing : Nat
  short : Bool
  /-- Launches whose time has come and whose cells have not all gone (R305). -/
  launching : List Launch
  /-- When the frame or train that an E-mode port sends ends, and the boundary, in PTP ns, until which the port idles (R279). -/
  busyTill : Nat
  idleTill : Option Nat
  /-- The end, in PTP ns, of the SCHED window in which an E-mode port has sent its one CTRL frame or train (R311). -/
  ctrlWin : Nat
  deriving DecidableEq, Repr

/-- A port that is not formed. -/
def PortSt.init : PortSt :=
  { st := .down, tx := 0, rx := 0, peerRx := 0, peerTx := 0, sent := List.replicate 8 0,
    rcvd := List.replicate 8 0, limitIn := List.replicate 8 0, limitOut := List.replicate 8 0, fseq := 0,
    replay := [], resend := [], ackAt := 0, requests := 0, replayLimit := 0, expect := 0, early := [], request := false,
    discarded := false, gapDue := none, lastValid := 0, lastTx := 7, txGone := none, inFrame := none, frameNo := 0,
    landing := 0, short := false, launching := [], busyTill := 0, idleTill := none, ctrlWin := 0 }

/-- A lane. -/
structure LaneSt where
  /-- Usable as R457 gives, as the last drop or return left it. -/
  txOk : Bool
  rxOk : Bool
  /-- Valid flits in a row since the lane returned, up to 64 (R124). -/
  run : Nat
  lastValid : Nat
  fecLock : Bool
  /-- Held by a Causeway path or a Swell window (R476). -/
  diverted : Bool
  /-- Returned at the transmitter, and no unsequenced flit has gone on it yet (R124). -/
  txNew : Bool
  /-- The address that the DISCOVER frames on this lane, or on the port that begins with it, come from (R121). -/
  partner : Option (BitVec 48)
  deriving DecidableEq, Repr

/-- A dark lane. -/
def LaneSt.init : LaneSt := ⟨false, false, 0, 0, false, false, false, none⟩

/-- What leaves the part on a fibre: the model's own record, oldest first. A flit stands with its marker (R108), a frame from
its destination address through its FCS; an E-mode port and a bootstrap lane are named by their first lane. -/
inductive FibreTx where
  | flit (lane : Nat) (bytes : List Byte)
  | frame (port : Nat) (bytes : List Byte)
  | probe (fibre : Nat)
  deriving DecidableEq, Repr

end Sys2Proof.Machine
end

