-- ==== Sys2Proof/Machine/StateMgmt.lean ====
section
/-! DEFINITION. The state of the management side: boot and pins, the nonvolatile store, functions, sessions, objects
and telemetry. -/

namespace Sys2Proof.Machine

/-! ## Pins, boot and functions -/

/-- The device pins and supplies (R523 to R526, R553, R612 to R616). -/
structure Pins where
  porLow : Bool
  sysLow : Bool
  /-- The strap, as sampled when the reset pin rose. -/
  bistSkip : Bool
  /-- THERMTRIP_N is driven low. -/
  tripped : Bool
  /-- A rail fell below its limit and the 10 ms after recovery have not ended. -/
  railBad : Bool
  /-- REFCLK stopped and the 1 ms after its return have not ended. -/
  refStopped : Bool
  jtag : JtagInstr
  /-- TRST_N is low: it holds the test port in Test-Logic-Reset (R614). -/
  trstLow : Bool
  ppsOut : Bool
  /-- When PPS_OUT falls, in ns of the free-running counter. -/
  ppsFall : Nat
  deriving DecidableEq, Repr

/-- Progress of the boot. -/
inductive BootPhase where
  /-- Held in reset. -/
  | reset
  /-- The reset has ended and steps 1 to 7 of R524 run; the argument is the step that runs. -/
  | step (n : Nat)
  | done
  /-- The boot has stopped and BOOT_DONE never rises (R540, R558, R561). -/
  | stuck
  deriving DecidableEq, Repr

/-- What the boot fixed. -/
structure Boot where
  phase : BootPhase
  /-- RST_CAUSE.CAUSE: 0 POR_N, 1 SYS_RST_N, 2 DEVICE_RESET. -/
  cause : Nat
  bistSkipped : Bool
  bootMs : Nat
  incarnation : BitVec 32
  runningSlot : Bool
  trialBoot : Bool
  runningSvn : Nat
  /-- The firmware measurement (R562). -/
  measure : BitVec 384
  /-- KEY_SLOT and REVOKE of the running image (R564). -/
  runningKey : Nat
  runningRevoke : Nat
  /-- The command engine that holds the plan (R528). -/
  holder : Nat
  /-- When a DEVICE_RESET or an engine's own reset begins (R73), in ns, with the function and whether it is to be held (none: the
  device). -/
  resetDue : List (Nat × Option (Nat × Bool))
  /-- Outcome of the boot test, as BIST_STATUS.BOOT_OUTCOME. -/
  outcome : Nat
  /-- ACTIVE and TRIAL of the record that governs, as SEC_STATUS shows them. -/
  shownActive : Bool
  shownTrial : Nat
  deriving DecidableEq, Repr

/-- One copy of the boot record (R557). `trial`: 0, 1 or 0xFF. -/
structure BootRecord where
  seq : Nat
  active : Bool
  trial : Nat
  boots : Nat
  deriving DecidableEq, Repr

/-- Bytes 0 to 31 of a boot record copy (R557). -/
def recordBytes (r : BootRecord) : List Byte :=
  let bs := beBytes 4 0x4F425231 ++ beBytes 4 r.seq ++ beBytes 1 (b2n r.active) ++ beBytes 1 r.trial ++ [0, 0] ++
    beBytes 4 r.boots ++ List.replicate 12 0
  bs ++ bvBytes 4 (crc32cOf bs)

/-- The record that a copy holds, where MAGIC, CRC, ACTIVE and TRIAL are legal (R557). -/
def parseRecord (bs : List Byte) : Option BootRecord :=
  let n (off count : Nat) : Nat := beNat (slice bs off count)
  if 32 ≤ bs.length ∧ n 0 4 = 0x4F425231 ∧ n 28 4 = (crc32cOf (slice bs 0 28)).toNat ∧ n 8 1 < 2 ∧
      (n 9 1 < 2 ∨ n 9 1 = 0xFF) then
    some ⟨n 4 4, decide (n 8 1 = 1), n 9 1, n 12 4⟩
  else none

/-- The bytes of a trust list (R565). -/
def trustList (keys : List (BitVec 384)) : List Byte :=
  let bs := beBytes 4 0x4F544C31 ++ beBytes 1 keys.length ++ [0, 0, 0] ++ keys.flatMap (bvBytes 48)
  bs ++ bvBytes 4 (crc32cOf bs)

/-- The host key digests of a trust list, where it is valid (R565). -/
def trustKeys (bs : List Byte) : Option (List (BitVec 384)) :=
  let n := beNat (slice bs 4 1)
  let len := 8 + 48 * n
  if len + 4 ≤ bs.length ∧ beNat (slice bs 0 4) = 0x4F544C31 ∧ n ≤ 16 ∧
      beNat (slice bs len 4) = (crc32cOf (slice bs 0 len)).toNat then
    some ((List.range n).map fun i => BitVec.ofNat 384 (beNat (slice bs (8 + 48 * i) 48)))
  else none

/-- A firmware slot, as the checks of R560 see it. -/
structure Image where
  formOk : Bool
  keySlot : Nat
  /-- The hash of the key bytes equals the hash fused in `keySlot`. -/
  keyOk : Bool
  svn : Nat
  revoke : Nat
  edOk : Bool
  mldsaOk : Bool
  bodyOk : Bool
  measure : BitVec 384
  deriving DecidableEq, Repr

/-- The SPI NOR device and the fuses: the boot record copies and the trust list as their bytes, the slots as the checks of R560
see them; outside every reset of the part (R556, R564, R565). -/
structure Nvm where
  copy0 : List Byte
  copy1 : List Byte
  slotA : Image
  slotB : Image
  /-- The bytes of the host trust list (R565). -/
  trust : List Byte
  /-- Vendor key hashes fused, bit i for key slot i. -/
  provisioned : Nat
  revoked : Nat
  fusedSvn : Nat
  /-- Field fuse repairs applied, newest first: function, instance, bit, address, kind (R550). -/
  fuseRepairs : List (Nat × Nat × Nat × Nat × Nat)
  deriving DecidableEq, Repr

/-- A function of R527. -/
structure FnState where
  inReset : Bool
  /-- HOLD is in force: the function stays in reset. -/
  held : Bool
  /-- Held failed until the next boot (R514). -/
  failed : Bool
  /-- A self-test holds it (R545). -/
  testing : Bool
  deriving DecidableEq, Repr

/-- A function in service. -/
def FnState.up : FnState := ⟨false, false, false, false⟩

/-! ## Sessions, commands and objects -/

/-- The states of a session slot (R90). -/
inductive SlotState where
  | free
  | handshake
  | active
  | closing
  deriving DecidableEq, Repr

/-- What a PENDING command waits for. -/
inductive Job where
  /-- Nothing: firmware ends it on its own. -/
  | firmware
  | funcReset (fid : Nat) (hold : Bool)
  | fwUpdate (slot : Bool) (image : Image)
  | fwActivate (slot : Bool) (trial commit : Bool)
  | oeCalibrate (engine kind : Nat)
  | reseek (engine : Nat) (rings : List Nat)
  | swlCalibrate (mask start : Nat)
  | testRun (id : Nat)
  | tideCommit
  | groupDestroy (group : Nat)
  | bwkDestroy (group : Nat)
  | genActivate (bank : Nat)
  /-- A change of direct circuits that sets these paths of an engine. -/
  | cswCircuit (engine : Nat) (paths : List Nat)
  deriving DecidableEq, Repr

/-- A command's final outcome. -/
structure Final where
  status : Nat
  detail : Nat
  results : List Byte
  deriving DecidableEq, Repr

/-- Where a command of a session stands (R62, R67). -/
inductive CmdPhase where
  | queued
  /-- It has started, and its first reply is its final one (R63). -/
  | running
  | pending
  deriving DecidableEq, Repr

/-- An uncompleted command of a session. `params` are its parameters; `order` counts the commands accepted before it, over
all sessions; `arrived` is the PTP time of its receipt (R256); `last`: its frame carried the last host sequence (R59);
`objs` are the objects it reads or fills (R80). -/
structure CmdEntry where
  tag : BitVec 32
  opcode : Nat
  flags : Byte
  params : List Byte
  order : Nat
  arrived : Nat
  last : Bool
  phase : CmdPhase
  src : BitVec 48
  vlan : Option (BitVec 16)
  objs : List Nat
  job : Job
  finished : Option Final
  deriving DecidableEq, Repr

/-- A final reply in the reply cache (R65). -/
structure CachedReply where
  tag : BitVec 32
  opcode : Nat
  flags : Byte
  final : Final
  deriving DecidableEq, Repr

/-- A session slot. -/
structure Session where
  st : SlotState
  engine : Nat
  number : Nat
  hostSalt : BitVec 32
  ownSalt : BitVec 32
  /-- The keys of the two directions (R568). -/
  hostKey : BitVec 256
  ownKey : BitVec 256
  /-- The shared secrets of a handshake in progress. -/
  secret : List Byte
  /-- The highest sequence accepted, and the 64-entry window below it: bit i for sequence H - i (R58). -/
  high : Nat
  window : Nat
  /-- The sequence of the last frame Gorti sent. -/
  txSeq : Nat
  /-- Free-running ns of the last accepted frame and of SESSION_OPEN's reply. -/
  lastFrame : Nat
  takenAt : Nat
  th1 : BitVec 384
  /-- Source address and tagging of the most recent authenticated frame (R51). -/
  peer : BitVec 48
  peerVlan : Option (BitVec 16)
  /-- Uncompleted commands in order of arrival. -/
  cmds : List CmdEntry
  /-- CMD_POLL and CMD_CANCEL that have arrived and not run yet: outside the queue (R67). -/
  arrivals : List CmdEntry
  /-- The newest 64 final replies, newest first. -/
  cache : List CachedReply
  deriving DecidableEq, Repr

/-- A free slot. -/
def Session.free : Session :=
  { st := .free, engine := 0, number := 0, hostSalt := 0, ownSalt := 0, hostKey := 0, ownKey := 0, secret := [], high := 0,
    window := 1, txSeq := 0, lastFrame := 0, takenAt := 0, th1 := 0, peer := 0, peerVlan := none, cmds := [], arrivals := [],
    cache := [] }

/-- A frame that Gorti sends on MGMT: a reply, a completion or a stream frame (R52, R55, R586). Its NONCE is the salt and
then the sequence. Its parameters are the status, the detail, the boot incarnation and the results; `body` holds them as
they are carried and `mac` the tag after them (R53). -/
structure MgmtTx where
  version : Byte
  plen : Nat
  body : List Byte
  mac : BitVec 128
  session : Nat
  opcode : Nat
  tag : BitVec 32
  flags : Byte
  seq : Nat
  salt : BitVec 32
  dst : BitVec 48
  vlan : Option (BitVec 16)
  status : Nat
  detail : Nat
  incarnation : BitVec 32
  results : List Byte
  deriving DecidableEq, Repr

/-- A session-0 command that has passed its checks and not run yet, with the source and tagging of its frame (R51, R57). -/
structure ZeroReq where
  tag : BitVec 32
  opcode : Nat
  flags : Byte
  params : List Byte
  src : BitVec 48
  vlan : Option (BitVec 16)
  deriving DecidableEq, Repr

/-- The management port and its sessions. -/
structure Mgmt where
  slots : List Session
  /-- The last session number assigned; 0: none. -/
  lastNumber : Nat
  /-- Arrival times of the session-0 frames that passed the limit of R57 within the last second. -/
  zeroArrivals : List Nat
  /-- Source address and tagging of the latest session-0 frame (R51). -/
  zeroPeer : BitVec 48
  zeroVlan : Option (BitVec 16)
  /-- Session-0 commands that wait, oldest first. -/
  zeroCmds : List ZeroReq
  /-- Commands accepted at check 11 since the boot, over all sessions. -/
  accepted : Nat
  /-- The model's own record of the frames sent, oldest first. -/
  sent : List MgmtTx
  deriving DecidableEq, Repr

/-- An object in the staging area (R78). -/
structure Obj where
  session : Nat
  type : Nat
  length : Nat
  bytes : AMap Byte
  sealed : Bool
  deriving DecidableEq, Repr

/-- The objects, by handle, and the last handle assigned. -/
structure Objects where
  table : AMap Obj
  lastHandle : Nat
  deriving DecidableEq, Repr

/-! ## Telemetry -/

/-- An event in the LOG ring (R579). -/
structure LogEvent where
  seq : Nat
  time : Nat
  ptp : Nat
  incarnation : BitVec 32
  sev : Nat
  flags : Nat
  code : Nat
  source : Nat
  shift : Nat
  count : Nat
  data : List Byte
  /-- LOG_READ has returned it (R211). -/
  read : Bool
  deriving DecidableEq, Repr

/-- Events of one code and source that are merged or held (R584, R585), with their SEQ once they have it. -/
structure Merged where
  seq : Nat
  code : Nat
  source : Nat
  sev : Nat
  count : Nat
  due : Nat
  time : Nat
  ptp : Nat
  data : List Byte
  deriving DecidableEq, Repr

/-- The MGMT stream (R586). -/
structure Stream where
  enable : Bool
  minSev : Nat
  rate : Nat
  session : Nat
  tag : BitVec 32
  next : Nat
  /-- When RATE lets the next frame begin. -/
  openAt : Nat
  deriving DecidableEq, Repr

/-- A collector endpoint (R587). -/
structure Collector where
  enable : Bool
  minSev : Nat
  rate : Nat
  record : BitVec 32
  flow : BitVec 32
  next : Nat
  /-- When RATE lets the next cell begin. -/
  openAt : Nat
  deriving DecidableEq, Repr

/-- The telemetry unit. -/
structure Tel where
  nextSeq : Nat
  /-- Unconsumed events in ascending SEQ. -/
  log : List LogEvent
  stage : Nat
  shift : Nat
  /-- Coalesced records seen in stage 2, for the choice of one in 2^SHIFT. -/
  sampleCount : Nat
  /-- Low-severity records raised, and records that coalescing put out, in the millisecond that runs; and the milliseconds in a
  row with an offered rate at or below LOW_RATE (R584). -/
  offered : Nat
  output : Nat
  calm : Nat
  coal : List Merged
  held : List Merged
  /-- Low-severity records written in the millisecond that runs, with what the ones before took beyond theirs; and events that
  wait for LOW_RATE, with their FLAGS (R584). -/
  written : Nat
  late : List (Merged × Nat)
  /-- Events lost since writing stopped. -/
  lost : Nat
  /-- Writing has stopped: LOG was resized, or telemetry was reset (R585). -/
  hold : Bool
  stream : Stream
  collectors : List Collector
  /-- The quarantine bucket: the moment from which its units are due, and the number from there of the next one (R588). -/
  tokens : Nat
  unitFrom : Nat
  unitNo : Nat
  /-- Counter sets 1 to 5, keyed by `csKey`. -/
  sets : AMap (BitVec 64)
  deriving DecidableEq, Repr

end Sys2Proof.Machine
end

