-- ==== Sys2Proof/Machine/StateOpt.lean ====
section
/-! DEFINITION. The state of the optical engines: rings, fibres' shutters, laser inputs, sensors and calibrations. -/

namespace Sys2Proof.Machine

/-- The states of a data ring (R444). -/
inductive RingState where
  | parked
  | seeking
  | locked
  | verified
  | lost
  | wrong
  deriving DecidableEq, Repr

/-- RSTATE of OE_RING. -/
def RingState.code : RingState → Nat
  | .parked => 0
  | .seeking => 1
  | .locked => 2
  | .verified => 3
  | .lost => 4
  | .wrong => 5

/-- A data ring. `sweep`: its lock is part of a seek; `want`: it waits for its turn to seek; `fails` counts the windows in
a row that did not confirm; `caught`: it captured a resonance since its relock; `at_` is the moment of the state's
timer (the relock, the cool-down or the failed seek), and for a sweep the moment at which it stood at `heater`; `paused`: the
sweep has no light (R465); `window` is the pilot window under way: its end and the tone that confirms it; `clean` counts
the windows in a row that allow a return (R459); `lapsed`: the ring has ceased to be VERIFIED in the error window under way
(R465). -/
structure RingSt where
  st : RingState
  sweep : Bool
  want : Bool
  retry : Bool
  found : Nat
  heater : Nat
  fails : Nat
  caught : Bool
  at_ : Nat
  paused : Bool
  window : Nat × Nat
  overBudget : Bool
  errDrop : Bool
  clean : Nat
  lapsed : Bool
  deriving DecidableEq, Repr

def RingSt.init : RingSt := ⟨.parked, false, false, false, 0, 0, 0, false, 0, false, (0, 0), false, false, 0, false⟩

/-- The states of a fibre's shutter (R453). -/
inductive EyeState where
  | opened
  | closed
  | probing
  | held
  deriving DecidableEq, Repr

/-- ESTATE of OE_FIBRE. -/
def EyeState.code : EyeState → Nat
  | .opened => 0
  | .closed => 1
  | .probing => 2
  | .held => 3

/-- Why a fibre is HELD: its engine's reset or failure, a calibration, the width of its link (R509), its tile held failed
(R514). -/
inductive HoldWhy where
  | reset
  | calibration
  | width
  | tile
  deriving DecidableEq, Repr

/-- A fibre's shutter. `lightAt`: since when light is present; `probeAt`: when the next probe burst falls due; `drive`: the
attenuator's drive, where it is driven (R461). -/
structure EyeSt where
  st : EyeState
  holds : List HoldWhy
  light : Bool
  refl : Bool
  lightAt : Nat
  probeAt : Nat
  drive : Option Nat
  deriving DecidableEq, Repr

/-- A fibre after reset: HELD (R469). -/
def EyeSt.init : EyeSt := ⟨.held, [.reset], false, false, 0, 0, none⟩

/-- A power-step forecast (R447, R517): its onset on the free-running counter, the rise in 1/16 °C, the slew in 1/16 °C per
ms, the sensors' readings at the step's start, and whether the ramp has reached its end. -/
structure Forecast where
  onset : Nat
  rise : Nat
  slew : Nat
  base : List Int
  spent : Bool
  deriving DecidableEq, Repr

/-- The calibration data that an engine has refined since its last boot or reset (R461): feedforward coefficients, cold
resonance codes, dark offsets and attenuator drives. -/
structure Refined where
  coeffs : AMap (List (BitVec 16))
  cold : AMap Nat
  darks : AMap Nat
  drives : AMap (Nat × Nat)
  deriving DecidableEq, Repr

def Refined.init : Refined := ⟨[], [], [], []⟩

/-- An engine. `cal` is the kind of the calibration that runs and when it started; `applied` is the temperature at each
sensor that feedforward cancels now, in 1/16 °C, once it has sampled them; `steep`: the sensors last showed a slew of 4 °C/ms or more; `routing`:
the heater codes that the routing rings remember, by ring, once they are verified (R474). -/
structure EngineSt where
  ready : Bool
  laserA : Bool
  laserB : Bool
  temps : List Nat
  cal : Option (Nat × Nat)
  forecast : Option Forecast
  applied : Option (List Int)
  steep : Bool
  refined : Refined
  routing : List Nat
  deriving DecidableEq, Repr

def EngineSt.init : EngineSt := 
  ⟨false, false, false, [0, 0, 0, 0], none, none, none, false, Refined.init, []⟩

/-- The optics. Rings are kept under engine × 256 + r (R466). -/
structure Opt where
  engines : AMap EngineSt
  rings : AMap RingSt
  eyes : AMap EyeSt
  deriving DecidableEq, Repr

end Sys2Proof.Machine
end

