-- ==== Sys2Proof/Machine/StatePart.lean ====
section
/-! DEFINITION. The state of the joins between dies, of power and heat, and of the self-test. -/

namespace Sys2Proof.Machine

/-- LSTATE of a Shoreline link (R536). -/
inductive LinkState where
  | down
  | training
  | agreeing
  | up
  | failed
  deriving DecidableEq, Repr

/-- LSTATE as D2D_LINK shows it. -/
def LinkState.code : LinkState → Nat
  | .down => 0
  | .training => 1
  | .agreeing => 2
  | .up => 3
  | .failed => 4

/-- A Shoreline link, seen from the logic die. `mask` is the agreed set G and `spares` the spare wires in use; `own` and
`ownRepair` are the logic die's record, and `peerRepair` the REPAIR that its transmitters are set to; `before` is the G in force before the retrain that runs; `full`: both sides train
from full width in it; `cand` is the G of this round; `sent` the record last published; `replay` the replay buffers of the groups:
the words of the last µs (R508). -/
structure LinkSt where
  st : LinkState
  mask : Nat
  spares : Nat
  round : Nat
  own : Nat
  ownRepair : BitVec 512
  before : Nat
  full : Bool
  cand : Nat
  peerRepair : BitVec 512
  sent : Option WidthRecord
  replay : List ShoreWord
  deriving DecidableEq, Repr

/-- A link after reset. -/
def LinkSt.init : LinkSt := ⟨.down, 0, 0, 0, 0, 0, 0, true, 0, 0, none, []⟩

/-- The joins: the Shoreline links, and for each tile field the spare nets in use and whether it is beyond repair
(R536). -/
structure D2d where
  links : AMap LinkSt
  bonds : AMap (Nat × Bool)
  deriving DecidableEq, Repr

/-- A die, as the power manager knows it (R517 to R520). Powers in 1/8 W; `temp` and `slope` as 16-bit fields in 1/16 °C.
`waiting`: a PROPOSE is out and unanswered; `missed` counts the periods without a REPLY. `proposed` holds the bytes of the
PROPOSE on its way to the die, and `answer` those of the REPLY on its way back. -/
structure DieSt where
  verdict : Nat
  measured : Nat
  floor : Nat
  temp : Nat
  slope : Nat
  budget : Nat
  waiting : Bool
  missed : Nat
  silent : Bool
  /-- The die's own limit while PROPOSE messages fail to come (R520), and whether heat makes it slow itself (R521). -/
  limit : Option Nat
  slowed : Bool
  proposed : Option (List Byte)
  answer : Option (List Byte)
  deriving DecidableEq, Repr

/-- A die after reset. -/
def DieSt.init : DieSt := ⟨3, 0, 0, 0, 0, 0, false, 0, false, none, false, none, none⟩

/-- Power and heat. `seq` is the number of the period; `throttled`: some REPLY of this period was THROTTLE;
`ramping` lists the tiles that the ramp guard has held and that have not reached their target since. -/
structure Pwr where
  seq : Nat
  dies : AMap DieSt
  overCap : Bool
  rampHold : List Nat
  ramping : List Nat
  power : Nat
  throttled : Bool
  deriving DecidableEq, Repr

def Pwr.init : Pwr := ⟨0, [], false, [], [], 0, false⟩

/-- A running in-service test (R545). -/
structure TestRun where
  id : Nat
  func : Nat
  kinds : Nat
  auto : Bool
  /-- When its kinds start, and whether they have. -/
  startAt : Nat
  started : Bool
  deriving DecidableEq, Repr

/-- A test's kept results (R547, R549). `state`: 0 running, 1 completed, 2 abandoned. -/
structure TestRes where
  id : Nat
  func : Nat
  state : Nat
  records : List TestRecord
  duration : Nat
  deriving DecidableEq, Repr

/-- A repair in force: function, instance, bit, address and kind (R550). -/
structure Repair where
  func : Nat
  inst : Nat
  bit : Nat
  addr : Nat
  kind : Nat
  deriving DecidableEq, Repr

/-- The self-test. `boot` is test 0; `results` the 16 latest in-service tests, newest first; `soft` the soft repairs since
boot. -/
structure Bist where
  lastId : Nat
  running : List (Option TestRun)
  boot : TestRes
  results : List TestRes
  soft : List Repair
  deriving DecidableEq, Repr

def Bist.init : Bist := ⟨0, [none, none], ⟨0, 0, 0, [], 0⟩, [], []⟩

end Sys2Proof.Machine
end

