-- ==== Sys2Proof/Machine/StateTables.lean ====
section
/-! DEFINITION. The state of the table pipelines: tables, shadows, Spindrift and the route generations. -/

namespace Sys2Proof.Machine

/-- An entry image: DATA0 in bits 255:224, DATA7 in bits 31:0 (R231). -/
abbrev EntryImage := BitVec 256

/-- An extent that an unfinished operation holds (R84, R267). -/
structure Hold where
  session : Nat
  table : Nat
  qmask : Nat
  lo : Nat
  hi : Nat
  deriving DecidableEq, Repr

/-- The four table pipelines. Entries and shadow images are kept by `tblKey`, estimators by quadrant × 2048 + port. -/
structure Tables where
  entries : AMap EntryImage
  shadow : AMap EntryImage
  est : AMap Nat
  lfsr : AMap Nat
  /-- The next entry of the sounding round, and the rounds made. -/
  soundPos : Nat
  passes : Nat
  /-- Since a reset of the bridge that holds the shadows, sounding skips every entry but those rewritten, which are
  listed by `tblKey` (R223); none: it skips no entry. -/
  rewritten : Option (AMap Bool)
  /-- Shadow images with an uncorrectable block (R221), by `tblKey`. -/
  bad : List Nat
  op : EngineOp
  holds : List Hold
  deriving DecidableEq, Repr

/-- The states of a route bank (R251). -/
inductive BankState where
  | idle
  | armed
  | active
  | draining
  deriving DecidableEq, Repr

def BankState.code : BankState → Nat
  | .idle => 0
  | .armed => 1
  | .active => 2
  | .draining => 3

/-- A route bank. `t` is the activation time that governs it: its own while ARMED or ACTIVE, that of the activation
that displaced it while DRAINING. -/
structure Bank where
  st : BankState
  t : Nat
  immediate : Bool
  horizon : Nat
  /-- When it became ACTIVE, and the stale drops since it was displaced. -/
  activated : Nat
  stale : Nat
  deriving DecidableEq, Repr

/-- A queued activation (R256): the image for the bank that drains. -/
structure QueuedGen where
  t : Nat
  immediate : Bool
  image : List EntryImage
  deriving DecidableEq, Repr

/-- The route generations. -/
structure Gen where
  bank0 : Bank
  bank1 : Bank
  queued : Option QueuedGen
  deriving DecidableEq, Repr

end Sys2Proof.Machine
end

