-- ==== Sys2Proof/Machine/State.lean ====
section
/-! DEFINITION. The state of the part as a whole, its faults and refusals, and the state after reset. -/

namespace Sys2Proof.Machine

/-- Everything the spec gives the part, and the queue of commands that wait. -/
structure State where
  pins : Pins
  boot : Boot
  nvm : Nvm
  /-- Functions that are not simply in service, by function ID. -/
  fns : AMap FnState
  /-- Stored register values, by address. -/
  regs : AMap Word
  /-- Latched words of the latching groups, by address (R293). -/
  latch : AMap Word
  mgmt : Mgmt
  objs : Objects
  tel : Tel
  time : TimeSt
  /-- When each periodic happening last came, by `tickKey`: the model's own record of the periods that the rules fix. -/
  ticks : AMap Nat
  ptp : Ptp
  tide : Tide
  plan : Option Plan
  fibres : AMap FibreSt
  ports : AMap PortSt
  lanes : AMap LaneSt
  tiles : AMap TileSt
  /-- Queues, by `qKey`: the part in the Cellar, and the part in Undertow behind it. -/
  queues : AMap (List QCell)
  undertow : AMap (List QCell)
  xbar : Xbar
  frames : Frames
  tc : Tc
  tables : Tables
  gen : Gen
  est : Est
  bwk : Bwk
  mem : Mem
  csw : Csw
  swl : Swl
  opt : Opt
  d2d : D2d
  pwr : Pwr
  bist : Bist
  /-- The model's own record of what left on the fibres. -/
  fibreTx : List FibreTx
  /-- The model's own count of free values drawn. -/
  free : Nat
  /-- Commands that wait, first in, first out. -/
  pending : List Instr
  deriving DecidableEq, Repr

/-- Why the model stops. -/
inductive Fault where
  /-- An operand that no frame, cell or pin of the part can carry. Raised by `exec` before any meaning runs. Safe:
  no such command exists on the hardware. -/
  | illFormed (what : String)
  deriving DecidableEq, Repr

/-- Why the model refuses. -/
inductive Refusal where
  /-- A command that has no meaning yet. Raised by `exec` alone. Safe. -/
  | notModelled (mnemonic : String)
  deriving DecidableEq, Repr

/-- What a meaning answers. -/
abbrev Out := Host.Outcome State Fault Refusal

/-- The state while a reset pin is low, at the moment it is about to rise (R17, R525). -/
def State.reset : State :=
  { pins := { porLow := true, sysLow := false, bistSkip := false, tripped := false, railBad := false,
              refStopped := false, jtag := .bypass, trstLow := true, ppsOut := false, ppsFall := 0 }
    boot := { phase := .reset, cause := 0, bistSkipped := false, bootMs := 0, incarnation := 0,
              runningSlot := false, trialBoot := false, runningSvn := 0, measure := 0, runningKey := 0,
              runningRevoke := 0, holder := 0, resetDue := [], outcome := 0, shownActive := false,
              shownTrial := 3 }
    nvm := { copy0 := recordBytes ⟨1, false, 0xFF, 0⟩, copy1 := [],
             slotA := ⟨true, 0, true, 0, 0, true, true, true, 0⟩,
             slotB := ⟨false, 0, false, 0, 0, false, false, false, 0⟩,
             trust := trustList [], provisioned := 1, revoked := 0, fusedSvn := 0, fuseRepairs := [] }
    fns := []
    regs := []
    latch := []
    mgmt := { slots := List.replicate 8 Session.free, lastNumber := 0, zeroArrivals := [], zeroPeer := 0, zeroVlan := none,
              zeroCmds := [], accepted := 0,
              sent := [] }
    objs := { table := [], lastHandle := 0 }
    tel := { nextSeq := 1, log := [], stage := 0, shift := 0, sampleCount := 0, offered := 0, output := 0, calm := 0, coal := [], held := [], written := 0, late := [], lost := 0,
             hold := false, stream := ⟨false, 0, 0x0A, 0, 0, 1, 0⟩,
             collectors := List.replicate 4 ⟨false, 0, 0, 0, 0, 1, 0⟩, tokens := 8, unitFrom := 0, unitNo := 0, sets := [] }
    time := { c := 0, offset := 0, base := 0, slew := none, stepUsed := false, clock := .unset, launches := [],
              stamps := [] }
    ticks := []
    ptp := { config := ⟨0, false, false, -4, 0, -4, 128, 128, []⟩, ports := [], selected := none, goodRun := 0,
             badRun := 0, lastOffset := 0 }
    tide := { staged := none, spoilt := false, active := [], commit := none, reason := 0, index := 0 }
    plan := none
    fibres := []
    ports := []
    lanes := []
    tiles := []
    queues := []
    undertow := []
    xbar := { ready := false, live := 0, slot := 0, grantPtr := [], acceptPtr := [], inflight := [], runs := [],
              promoted := [], late := [] }
    frames := { next := 0, aborted := [], started := [], routes := [], sending := [] }
    tc := { policers := [], shapers := [], dc := [], drr := [], streams := [], streamBuckets := [],
            op := ⟨false, 0, 0⟩ }
    tables := { entries := [], shadow := [], est := [], lfsr := [], soundPos := 0, passes := 0, rewritten := none, bad := [],
                op := ⟨false, 0, 0⟩, holds := [] }
    gen := { bank0 := ⟨.active, 0, false, 0, 0, 0⟩, bank1 := ⟨.idle, 0, false, 0, 0, 0⟩, queued := none }
    est := ⟨[], [], [], [], []⟩
    bwk := ⟨[], [], [], []⟩
    mem := Mem.init
    csw := ⟨[], [], [], [], []⟩
    swl := ⟨[], [], [], [], [], []⟩
    opt := ⟨[], [], []⟩
    d2d := ⟨[], []⟩
    pwr := Pwr.init
    bist := Bist.init
    fibreTx := []
    free := 0
    pending := [] }

end Sys2Proof.Machine
end

