-- ==== Sys2Proof/Machine/Ops.lean ====
section
/-! DEFINITION. The named operations that the meanings share: registers and counters (R13 to R18), functions (R527,
R629), the clock (R291, R292), the order of service on a bridge's link (R207, R208, R218), events (R578 to R585), counter sets
(R575) and free values. -/

namespace Sys2Proof.Machine

/-! ## Time -/

/-- The free-running counter in ns. -/
def State.now (s : State) : Nat := s.time.c.toNat / 2 ^ 32

/-- P in units of 2^-40 ns, modulo 2^104 (R292). -/
def TimeSt.p (t : TimeSt) : Nat := (t.c.toNat * 256 + t.offset.toNat) % 2 ^ 104

/-- PTP time in whole ns. -/
def State.ptpNs (s : State) : Nat := s.time.p / 2 ^ 40

/-- RATE in units of 2^-40 (R294): the base rate and the slew. -/
def TimeSt.rateUnits (t : TimeSt) : Int :=
  match t.slew with
  | none => t.base
  | some sl => if sl.left = 0 then t.base else if sl.left > 0 then t.base + sl.rate else t.base - sl.rate

/-- The slew's part of `n` cycles: never beyond what remains of its correction (R295). -/
def Slew.part (sl : Slew) (n : Nat) : Int :=
  if sl.left ≥ 0 then min sl.left (n * sl.rate : Nat) else max sl.left (-(n * sl.rate : Nat))

/-- `n` cycles of the time-unit island. -/
def TimeSt.advance (t : TimeSt) (n : Nat) : TimeSt :=
  let part := match t.slew with
    | none => 0
    | some sl => sl.part n
  { t with
    c := t.c + BitVec.ofNat 96 (n * 2 ^ 32)
    offset := t.offset + BitVec.ofInt 104 (t.base * n + part)
    slew := t.slew.map fun sl => { sl with left := sl.left - part } }

/-- One cycle of the time-unit island passes, unless the part is held in reset or REFCLK has stopped (R291). -/
def State.tick (s : State) : State :=
  if s.boot.phase = .reset ∨ s.pins.refStopped then s else { s with time := s.time.advance 1 }

/-- The clock brought forward to a moment of the free-running counter, where that moment is still to come. -/
def State.advanceTo (s : State) (ns : Nat) : State :=
  if s.now < ns then { s with time := s.time.advance (ns - s.now) } else s

/-- Happenings that come at a period which a rule fixes. -/
inductive Periodic where
  | discover
  | keepalive
  | ptpSync
  | ptpAnnounce
  | ptpRequest
  | macAge
  | headSweep
  | depthReport
  | widthRecord
  | power
  | ratioStep
  | feedforward
  | errorWindow
  | telStage
  | sounding
  deriving DecidableEq, Repr

/-- The key of a periodic happening of one unit. -/
def tickKey (k : Periodic) (i : Nat) : Nat := k.ctorIdx * 65536 + i

/-- A periodic happening comes: the clock is brought to one period after the one before, and the moment is recorded. -/
def State.every (s : State) (k : Periodic) (i period : Nat) : State :=
  let s := s.advanceTo (s.ticks.getD (tickKey k i) 0 + period)
  { s with ticks := s.ticks.put (tickKey k i) s.now }

/-- The first moment after `t` on the grid of `rate` moments a second. -/
def gridAfter (rate t : Nat) : Nat := ((t * rate / 1000000000 + 1) * 1000000000 + rate - 1) / rate

/-- A happening that comes `rate` times a second: the clock is brought to the next moment of its grid, which is recorded. -/
def State.perSecond (s : State) (k : Periodic) (i rate : Nat) : State :=
  let s := s.advanceTo (gridAfter rate (s.ticks.getD (tickKey k i) 0))
  { s with ticks := s.ticks.put (tickKey k i) s.now }

/-- Cycles until a slew has made its correction. -/
def Slew.cycles (sl : Slew) : Nat := if sl.rate = 0 then 0 else (sl.left.natAbs + sl.rate - 1) / sl.rate

/-- Cycles in which `need` units of 2^-40 ns pass at `rate` units beyond 1 ns a cycle. -/
def cyclesAt (need : Nat) (rate : Int) : Nat :=
  let step := ((2 ^ 40 : Nat) + rate).toNat
  (need + step - 1) / step

/-- The cycles after which PTP time first stands at or after a moment in ns: at the RATE in force, and at the base rate
once the slew has made its correction (R292, R294, R295). -/
def TimeSt.cyclesTo (t : TimeSt) (p : Nat) : Nat :=
  let need := p * 2 ^ 40 - t.p
  match t.slew with
  | none => cyclesAt need t.base
  | some sl =>
    let n := cyclesAt need t.rateUnits
    let m := sl.cycles
    if n < m then n
    else m + cyclesAt (need - ((m * 2 ^ 40 : Nat) + m * t.base + sl.left).toNat) t.base

/-- The clock brought forward to the first cycle in which PTP time stands at or after a moment, where that is still to come. -/
def State.advancePtp (s : State) (p : Nat) : State :=
  if s.ptpNs < p then { s with time := s.time.advance (s.time.cyclesTo p) } else s

/-! ## Identity (R563) -/

/-- A string's bytes. -/
def textBytes (t : String) : List Byte := t.toList.map fun c => BitVec.ofNat 8 c.toNat

/-- The seed of an identity key: HKDF-SHA-384 of the device secret with an empty salt. -/
def idSeed (info : String) : BitVec 256 := BitVec.ofNat 256 (Config.hkdf (bvBytes 32 Config.deviceSecret) [] (textBytes info) 32)

/-- The identity public keys. -/
def idEdKey : BitVec 256 := Config.edPublic (idSeed "gorti-id-ed25519")
def idMldsaKey : BitVec 15616 := Config.mldsaPublic (idSeed "gorti-id-mldsa65")

/-- ID_DIGEST: the first 32 bytes of the SHA-384 of both public keys. -/
def idDigest : BitVec 256 :=
  BitVec.ofNat 256 (beNat ((bvBytes 48 (Config.sha384 (bvBytes 32 idEdKey ++ bvBytes 1952 idMldsaKey))).take 32))

/-- Both identity signatures over a message that starts with its domain byte. -/
def State.sign (s : State) (msg : List Byte) : (BitVec 512 × BitVec 26472) × State :=
  ((Config.edSign (idSeed "gorti-id-ed25519") msg, Config.mldsaSign s.free (idSeed "gorti-id-mldsa65") msg),
    { s with free := s.free + 1 })

/-- The next free value: what the spec leaves open, constrained by nothing. -/
def State.drawFree (s : State) : BitVec 64 × State := (Config.freeValue s.free, { s with free := s.free + 1 })

/-- Bytes that nothing constrains. -/
def State.freeBytes (s : State) : Nat → List Byte × State
  | 0 => ([], s)
  | n + 1 =>
    let (v, s) := s.drawFree
    let (bs, s) := State.freeBytes s n
    (BitVec.ofNat 8 v.toNat :: bs, s)

/-! ## Functions (R527, R629) -/

/-- Function IDs. -/
def fidTile (t : Nat) : Nat := t
def fidEst (t : Nat) : Nat := 0x100 + t
def fidOe (e : Nat) : Nat := 0x200 + e
def fidBrg (b : Nat) : Nat := 0x300 + b
def fidTbl (q : Nat) : Nat := 0x400 + q
def fidXbar : Nat := 0x500
def fidTime : Nat := 0x600
def fidCmd (n : Nat) : Nat := 0x700 + n
def fidBwk : Nat := 0x800
def fidTel : Nat := 0x900

/-- The number of functions of a class (R527). -/
def fnCount : Nat → Nat
  | 0 => 64
  | 1 => 64
  | 2 => 16
  | 3 => 4
  | 4 => 4
  | 5 => 1
  | 6 => 1
  | 7 => 4
  | 8 => 1
  | 9 => 1
  | _ => 0

/-- A function ID that is not reserved. -/
def fnValid (fid : Nat) : Bool := decide (fid % 256 < fnCount (fid / 256))

/-- The state of a function. -/
def State.fn (s : State) (fid : Nat) : FnState := s.fns.getD fid FnState.up

/-- The function is in function reset or held failed. -/
def State.fnDown (s : State) (fid : Nat) : Bool := (s.fn fid).inReset || (s.fn fid).failed

def State.setFn (s : State) (fid : Nat) (f : FnState → FnState) : State :=
  { s with fns := s.fns.modD fid FnState.up f }

/-- The functions that own a register (R629), by its address. DESIGN CHOICE: of the two that own TILE_EST_EARLY and
TILE_EST_HOT the Estuary slice stands first, and FUNCTION_IN_RESET names it where both are in reset (log entry 65). -/
def ownersAt (a : Nat) : List Nat :=
  let b := a / 0x1000000
  let off := a % 0x1000000
  if b = 0x04 then [fidTime]
  else if b = 0x06 then
    if 0x100 ≤ off ∧ off < 0x200 then [fidTbl ((off - 0x100) / 0x40)] else []
  else if b = 0x08 then [fidXbar]
  else if b = 0x0C then [fidBwk]
  else if b = 0x13 then [fidTel]
  else if 0x40 ≤ b ∧ b < 0x80 then
    if off = 0x320 ∨ off = 0x324 then [fidEst (b - 0x40), fidTile (b - 0x40)] else [fidTile (b - 0x40)]
  else if 0x80 ≤ b ∧ b < 0x90 then [fidOe (b - 0x80)]
  else if 0x90 ≤ b ∧ b < 0x94 then [fidBrg (b - 0x90)]
  else []

/-- The first owner of a register that is in reset or held failed (R18). -/
def State.ownerDown (s : State) (a : Nat) : Option Nat := (ownersAt a).find? s.fnDown

/-! ## Registers -/

/-- The stored value of a register: what was last written, counted or set. -/
def State.reg (s : State) (r : Reg) (ix : List Nat) : Word := s.regs.getD (regAddr r ix) (regReset r ix)

def State.setReg (s : State) (r : Reg) (ix : List Nat) (w : Word) : State :=
  { s with regs := s.regs.setD (regAddr r ix) (regReset r ix) w }

/-- Bits hi:lo of a stored register. -/
def State.regBits (s : State) (r : Reg) (ix : List Nat) (hi lo : Nat) : Nat := Word.bits (s.reg r ix) hi lo

/-- A counter raised by `n`; it saturates (R16). -/
def State.bumpBy (s : State) (r : Reg) (ix : List Nat) (n : Nat) : State := s.setReg r ix (satAdd (s.reg r ix) n)

/-- A counter raised by one. -/
def State.bump (s : State) (r : Reg) (ix : List Nat) : State := s.bumpBy r ix 1

/-- A counter set item (R575): set, index, item. -/
def csKey (set index item : Nat) : Nat := (set * 2 ^ 22 + index) * 64 + item

/-- An item of a counter set raised by `n` (R575, R16). -/
def State.csAdd (s : State) (set index item n : Nat) : State :=
  { s with tel := { s.tel with sets := s.tel.sets.modD (csKey set index item) 0 fun v => satAdd v n } }

/-! ## Bridges and their links -/

def State.brg (s : State) (b : Nat) : BridgeSt := s.mem.bridges.getD b BridgeSt.init

def State.setBrg (s : State) (b : Nat) (g : BridgeSt → BridgeSt) : State :=
  { s with mem := { s.mem with bridges := s.mem.bridges.modD b BridgeSt.init g } }

/-- The Shoreline link of an engine (0 to 15) or of a bridge (16 to 19) (R507). -/
def State.link (s : State) (l : Nat) : LinkSt := s.d2d.links.getD l LinkSt.init

def State.setLink (s : State) (l : Nat) (g : LinkSt → LinkSt) : State :=
  { s with d2d := { s.d2d with links := s.d2d.links.modD l LinkSt.init g } }

/-- Data flows on a link (R511). -/
def State.linkUp (s : State) (l : Nat) : Bool := decide ((s.link l).st = .up)

/-! ## Service on a bridge's link (R218) -/

/-- Bytes that wait under an index. -/
def LinkDir.left (d : LinkDir) (i : Nat) : Nat := d.asked.getD i 0 - d.given.getD i 0

/-- Bytes given under an index. -/
def LinkDir.give (d : LinkDir) (i n : Nat) : LinkDir := { d with given := modAt d.given i (· + n) }

/-- One visit of the deficit round robin, which spends at most `n` bytes: the direction after it, and the bytes given. DESIGN
CHOICE: a visit adds 256 bytes for each unit of weight (log entry 73). -/
def LinkDir.visit (d : LinkDir) (w : Nat → Nat) (n : Nat) : LinkDir × Nat :=
  let i := d.turn
  let next := if i = 3 then 1 else i + 1
  let most := d.deficit.getD i 0 + if d.open_ then 0 else 256 * w i
  let k := min n (min (d.left i) most)
  let spent := decide (k = d.left i ∨ k = most)
  ({ d.give i k with
      deficit := modAt d.deficit i fun _ => if k = d.left i then 0 else most - k
      turn := if spent then next else i
      open_ := !spent }, k)

/-- Visits as long as bytes are left to spend and something waits; `fuel` bounds them. -/
def LinkDir.share (w : Nat → Nat) (d : LinkDir) (n : Nat) : Nat → LinkDir
  | 0 => d
  | fuel + 1 =>
    if n = 0 ∨ d.left 1 + d.left 2 + d.left 3 = 0 then d
    else
      let (d, k) := d.visit w n
      LinkDir.share w d (n - k) fuel

/-- Visits that serve what waits. -/
def LinkDir.visits (d : LinkDir) : Nat := (d.left 1 + d.left 2 + d.left 3) / 64 + 12

/-- `n` bytes served: context traffic at strict priority, and the rest by weight. -/
def LinkDir.serve (d : LinkDir) (w : Nat → Nat) (n : Nat) : LinkDir :=
  let k := min n (d.left 0)
  (d.give 0 k).share w (n - k) d.visits

/-- Bytes of the round robin served until those up to `mark` under index `i` are given. -/
def LinkDir.cost (w : Nat → Nat) (i mark : Nat) (d : LinkDir) : Nat → Nat
  | 0 => 0
  | fuel + 1 =>
    if mark ≤ d.given.getD i 0 then 0
    else
      let (d, k) := d.visit w (if d.turn = i then mark - d.given.getD i 0 else d.left d.turn)
      k + LinkDir.cost w i mark d fuel

/-- Bytes that one direction of a bridge's link carries in 1 ns: 256 for each trained group (R207, R208). -/
def State.linkRate (s : State) (b : Nat) : Nat := if s.linkUp (16 + b) then 256 * popCount 16 (s.link (16 + b)).mask else 0

/-- The weights in BRG_ARB, by index. -/
def State.linkWeight (s : State) (b i : Nat) : Nat :=
  if i = 1 then s.regBits .brgArb [b] 7 0 else if i = 2 then s.regBits .brgArb [b] 15 8 else s.regBits .brgArb [b] 23 16

/-- One direction of a bridge's link: toward the bridge, or from it. -/
def BridgeSt.dir (x : BridgeSt) (up : Bool) : LinkDir := if up then x.up else x.down
def BridgeSt.setDir (x : BridgeSt) (up : Bool) (d : LinkDir) : BridgeSt := if up then { x with up := d } else { x with down := d }

/-- A direction served up to now. -/
def State.linkNow (s : State) (b : Nat) (up : Bool) : LinkDir :=
  let d := (s.brg b).dir up
  { d.serve (s.linkWeight b) ((s.now - d.at_) * s.linkRate b) with at_ := s.now }

/-- Bytes ask for a bridge's link: where the last of them stands. -/
def State.askLink (s : State) (b : Nat) (up : Bool) (i n : Nat) : Nat × State :=
  let d := s.linkNow b up
  let d := { d with asked := modAt d.asked i (· + n) }
  (d.asked.getD i 0, s.setBrg b fun x => x.setDir up d)

/-- The bytes only. -/
def State.sendBytes (s : State) (b : Nat) (up : Bool) (i n : Nat) : State := (s.askLink b up i n).2

/-- When the bytes up to a mark have passed, with what waits now. -/
def State.linkDue (s : State) (b : Nat) (up : Bool) (i mark : Nat) : Nat :=
  let d := s.linkNow b up
  let n := if i = 0 then mark - d.given.getD 0 0 else d.left 0 + d.cost (s.linkWeight b) i mark d.visits
  let rate := max 1 (s.linkRate b)
  if mark ≤ d.given.getD i 0 then s.now else s.now + (n + rate - 1) / rate

/-! ## Events -/

/-- SOURCE of events raised outside any function (R527, R579): the power manager, the reset controller and the Shoreline
training logic, in the order in which R527 names them; and none. -/
def srcPower : Nat := 0xF00
def srcReset : Nat := 0xF01
def srcJoins : Nat := 0xF02
def srcNone : Nat := 0xFFF

/-- Records of an event (R579): 24 bytes of DATA in the first, 64 in each further one, four at most. -/
def recordsOf (data : List Byte) : Nat := min 4 (1 + (data.length - 24 + 63) / 64)

def LogEvent.records (e : LogEvent) : Nat := recordsOf e.data

/-- Slots of the ring in use. -/
def Tel.used (t : Tel) : Nat := (t.log.map LogEvent.records).sum

/-- Slots of a ring over `gib` GiB (R581). -/
def logSlots (gib : Nat) : Nat := gib * 2 ^ 24

/-- The size of the LOG partition in GiB. -/
def State.logGib (s : State) : Nat := s.mem.sizes.getD 5 0

/-- PTP time as an event carries it: 0 while the clock is UNSET. -/
def State.stampPtp (s : State) : Nat := if s.time.clock = .unset then 0 else s.ptpNs

/-- The records of an event pass the link of the bridge that holds them, on their way to LOG or from it (R218). -/
def State.moveLog (s : State) (up : Bool) (e : LogEvent) : State :=
  s.sendBytes (Config.logBridge e.seq).val up 3 (64 * e.records)

/-- An event takes the next SEQ (R579, R600). -/
def State.number (s : State) (m : Merged) : Merged × State :=
  ({ m with seq := s.tel.nextSeq }, { s with tel := { s.tel with nextSeq := s.tel.nextSeq + 1 } })

/-- An event written into the ring under its SEQ (R582, R583). -/
def State.writeLog (s : State) (m : Merged) (flags : Nat) : State :=
  let t := s.tel
  let e : LogEvent :=
    { seq := m.seq, time := m.time, ptp := m.ptp, incarnation := s.boot.incarnation, sev := m.sev,
      flags := flags, code := m.code, source := m.source, shift := t.shift, count := m.count, data := m.data, read := false }
  let free := logSlots s.logGib - t.used
  if e.records ≤ free then ({ s with tel := { t with log := insertBy LogEvent.seq e t.log } } : State).moveLog true e
  else
    match takeFirst (fun o => decide (o.sev < 2) && decide (e.records - free ≤ o.records)) t.log with
    | some (_, rest) =>
      (({ s with tel := { t with log := insertBy LogEvent.seq e rest } } : State).moveLog true e).bump .telOverwritten []
    | none => s.bump (if m.sev < 2 then .telOverwritten else .telLostHigh) []

/-- LOW_RATE: low-severity records in a millisecond (R584, R592). -/
def State.lowRate (s : State) : Nat := s.regBits .telConfig [] 15 0

/-- A low-severity event written as LOW_RATE allows: behind those that wait for it, and where the records of this millisecond leave
room (R584). DESIGN CHOICE: the bound is kept by whole milliseconds, and what an event takes beyond one comes off the next
(log entry 80). -/
def State.writeLow (s : State) (m : Merged) (flags : Nat) : State :=
  if s.tel.late.isEmpty ∧ s.tel.written < s.lowRate then
    ({ s with tel := { s.tel with written := s.tel.written + recordsOf m.data } } : State).writeLog m flags
  else { s with tel := { s.tel with late := s.tel.late ++ [(m, flags)] } }

/-- The low-severity events that wait, as long as LOW_RATE lets them go; `fuel` bounds them. -/
def State.drainLate (s : State) : Nat → State
  | 0 => s
  | fuel + 1 =>
    match s.tel.late with
    | [] => s
    | (m, flags) :: rest =>
      if s.tel.written < s.lowRate then
        let t := { s.tel with late := rest, written := s.tel.written + recordsOf m.data }
        State.drainLate (({ s with tel := t } : State).writeLog m flags) fuel
      else s

/-- When the next unit of the quarantine budget falls due, at a rate in units per second (R588). -/
def Tel.unitDue (t : Tel) (rate : Nat) : Nat := t.unitFrom + (t.unitNo * 1000000000 + rate - 1) / rate

/-- An event merged into the entry of its code and source, or a new entry at the end. -/
def mergeInto (m : Merged) : List Merged → List Merged
  | [] => [m]
  | x :: xs => if x.code = m.code ∧ x.source = m.source then { x with count := satSum x.count m.count } :: xs
    else x :: mergeInto m xs

/-- The counter of events of a severity. -/
def sevCounter : Nat → Reg
  | 0 => .telEventsInfo
  | 1 => .telEventsNotice
  | 2 => .telEventsWarning
  | _ => .telEventsCritical

/-- The severity of an event code; none for a code that no event has (R580). -/
def eventSev (code : Nat) : Option Nat :=
  if code ∈ [0x0001, 0x0601] then some 0
  else if code ∈ [0x0101, 0x0402, 0x0501, 0x0B01, 0x1302, 0x1401, 0x1403, 0x8003, 0x8005, 0x8006, 0x9002] then some 1
  else if code ∈ [0x0301, 0x0302, 0x0401, 0x0602, 0x0603, 0x0701, 0x0901, 0x0902, 0x0B02, 0x0E01, 0x1001, 0x1301, 0x1402,
    0x8001, 0x8002, 0x9001] then some 2
  else if code ∈ [0x0102, 0x0201, 0x0202, 0x8004] then some 3
  else none

/-- A low-severity event offered to the unit, in records (R584). -/
def State.offerLow (s : State) (sev : Nat) (data : List Byte) : State :=
  if sev < 2 then { s with tel := { s.tel with offered := s.tel.offered + recordsOf data } } else s

/-- A source raises an event (R582, R584, R585). -/
def State.raiseEv (s : State) (code sev source : Nat) (data : List Byte) : State :=
  let s := (s.bump (sevCounter sev) []).offerLow sev data
  let m : Merged := { seq := 0, code := code, source := source, sev := sev, count := 1, due := 0, time := s.now, ptp := s.stampPtp,
                      data := data }
  if s.fnDown fidTel || s.tel.hold then
    if sev < 2 then ({ s with tel := { s.tel with lost := satSum s.tel.lost 1 } }).bump .telResetLost []
    else { s with tel := { s.tel with held := mergeInto m s.tel.held } }
  else if 2 ≤ sev then
    let (m, s) := s.number m
    s.writeLog m 0
  else if s.tel.stage = 0 then
    let (m, s) := s.number m
    s.writeLow m 0
  else if s.tel.coal.any fun x => decide (x.code = code) && decide (x.source = source) then
    ({ s with tel := { s.tel with coal := mergeInto m s.tel.coal } }).bump .telCoalesced []
  else
    let due := s.now + s.regBits .telConfig [] 31 24 * 1000
    let (m, s) := s.number m
    { s with tel := { s.tel with coal := s.tel.coal ++ [{ m with due := due }] } }

end Sys2Proof.Machine
end

