-- ==== Sys2Proof/Machine/Operands.lean ====
section
/-! DEFINITION. What a command's operands must be: statuses (R69), opcodes with their parameter lengths (R72), and the checks
on parameters and functions (R62 checks 12 and 13, R630). -/

namespace Sys2Proof.Machine

/-! ## Statuses (R69) -/

def stOk : Nat := 0x0000
def stBusy : Nat := 0x0001
def stPending : Nat := 0x0002
def stBadOpcode : Nat := 0x0010
def stBadParam : Nat := 0x0011
def stBadLength : Nat := 0x0012
def stAuthFail : Nat := 0x0020
def stReplay : Nat := 0x0021
def stNoResource : Nat := 0x0030
def stRefusedDeadline : Nat := 0x0040
def stRefusedPlan : Nat := 0x0041
def stInReset : Nat := 0x0050
def stNotDrained : Nat := 0x0051
def stConflict : Nat := 0x0060
def stInternal : Nat := 0x00F0

/-! ## Opcodes (R72) -/

/-- The legal parameter lengths of an opcode: a first, a step and a last length; none where it is unassigned. -/
def opLengths : Nat → Option (Nat × Nat × Nat)
  | 0x0001 => some (1248, 1, 1248)
  | 0x0002 => some (5361, 1, 5361)
  | 0x0003 => some (0, 1, 0)
  | 0x0004 => some (0, 1, 0)
  | 0x0005 => some (0, 1, 0)
  | 0x0006 => some (0, 1, 8944)
  | 0x0007 => some (4, 1, 4)
  | 0x0008 => some (4, 1, 4)
  | 0x0010 => some (8, 1, 8)
  | 0x0011 => some (25, 1, 8952)
  | 0x0012 => some (52, 1, 52)
  | 0x0013 => some (12, 1, 12)
  | 0x0014 => some (4, 1, 4)
  | 0x0101 => some (4, 1, 4)
  | 0x0102 => some (8, 1, 8)
  | 0x0103 => some (12, 1, 12)
  | 0x0104 => some (6, 1, 6)
  | 0x0105 => some (8, 8, 4096)
  | 0x0201 => some (40, 1, 40)
  | 0x0202 => some (8, 1, 8)
  | 0x0203 => some (8, 1, 8)
  | 0x0204 => some (16, 1, 16)
  | 0x0205 => some (16, 1, 16)
  | 0x0206 => some (12, 1, 12)
  | 0x0207 => some (12, 1, 12)
  | 0x0301 => some (12, 1, 12)
  | 0x0302 => some (0, 1, 0)
  | 0x0303 => some (0, 1, 0)
  | 0x0401 => some (4, 1, 4)
  | 0x0402 => some (4, 1, 4)
  | 0x0403 => some (4, 1, 4)
  | 0x0404 => some (4, 1, 4)
  | 0x0405 => some (4, 1, 4)
  | 0x0406 => some (8, 1, 8)
  | 0x0501 => some (4, 1, 4)
  | 0x0502 => some (4, 1, 4)
  | 0x0503 => some (4, 1, 4)
  | 0x0504 => some (12, 1, 12)
  | 0x0505 => some (4, 1, 4)
  | 0x0506 => some (4, 1, 4)
  | 0x0507 => some (4, 1, 4)
  | 0x0508 => some (4, 1, 4)
  | 0x0601 => some (0, 1, 0)
  | 0x0602 => some (16, 1, 16)
  | 0x0603 => some (8, 8, 136)
  | 0x0604 => some (4, 1, 4)
  | 0x0605 => some (84, 1, 8952)
  | 0x0701 => some (4, 1, 4)
  | 0x0702 => some (4, 1, 4)
  | 0x0703 => some (12, 1, 12)
  | 0x0704 => some (0, 1, 0)
  | 0x0801 => some (16, 4, 8952)
  | 0x0802 => some (4, 1, 4)
  | 0x0803 => some (8, 1, 8)
  | 0x0804 => some (4, 1, 4)
  | 0x0810 => some (8, 1, 8)
  | 0x0811 => some (4, 1, 4)
  | 0x0812 => some (12, 2, 8952)
  | 0x0813 => some (4, 1, 4)
  | 0x0820 => some (4, 4, 8952)
  | 0x0821 => some (8, 1, 8)
  | 0x0901 => some (16, 4, 8952)
  | 0x0902 => some (4, 1, 4)
  | 0x0903 => some (12, 1, 12)
  | 0x0A01 => some (0, 1, 0)
  | 0x0A02 => some (4, 1, 4)
  | 0x0A03 => some (6, 1, 6)
  | 0x0B01 => some (4, 1, 4)
  | 0x0B02 => some (8, 1, 8)
  | 0x0B03 => some (12, 1, 12)
  | 0x0C01 => some (4, 1, 4)
  | 0x0C02 => some (0, 1, 0)
  | 0x0C03 => some (4, 1, 4)
  | 0x0C04 => some (0, 1, 0)
  | 0x0D01 => some (8, 1, 8)
  | 0x0D02 => some (8, 1, 8)
  | 0x0D03 => some (16, 1, 16)
  | 0x0D04 => some (16, 1, 16)
  | 0x0E01 => some (32, 1, 32)
  | 0x0E02 => some (4, 1, 4)
  | 0x0E03 => some (4, 1, 4)
  | 0x0E04 => some (4, 1, 4)
  | _ => none

/-- The opcode is allowed on a session (R57). -/
def opAllowed (session op : Nat) : Bool :=
  if session = 0 then decide (op = 1 ∨ op = 2 ∨ op = 5) else decide (op ≠ 1 ∧ op ≠ 2)

/-- A command that runs in command-engine firmware (R63). -/
def opFirmware (op : Nat) : Bool := decide (op / 256 ≠ 1 ∧ op / 256 ≠ 2 ∧ op ≠ 6 ∧ op ≠ 7 ∧ op ≠ 8)

/-- CMD_POLL and CMD_CANCEL run at arrival (R67). -/
def opAtArrival (op : Nat) : Bool := decide (op = 7 ∨ op = 8)

/-! ## Checks 12 and 13 -/

/-- What a command's own rules answer. -/
inductive Ans where
  | done (status detail : Nat) (results : List Byte)
  /-- PENDING, with the objects it uses and what it waits for. -/
  | pend (objs : List Nat) (job : Job)
  /-- It runs on, and replies once at its end. -/
  | hold (job : Job)
  deriving DecidableEq, Repr

def ok (results : List Byte) : Ans := .done stOk 0 results
def badParam (offset : Nat) : Ans := .done stBadParam offset []

/-- The offset of the first field that fails (check 12). -/
def firstBad (cs : List (Bool × Nat)) : Option Nat := (cs.find? fun c => !c.1).map (·.2)

/-- A reserved field of the parameters must be 0; DETAIL names the field's first byte (R69, R630). -/
def rsvOk {w : Nat} (x : BitVec w) (off : Nat) : Bool × Nat := (decide (x = 0), off)

/-- Check 12 before the rest. -/
def guardParams (cs : List (Bool × Nat)) (s : State) (k : Ans × State) : Ans × State :=
  match firstBad cs with
  | some o => (badParam o, s)
  | none => k

/-- The time unit where it is held failed: tide tables and timed launches are then refused (R540). -/
def State.timeFailed (s : State) : List Nat := if (s.fn fidTime).failed then [fidTime] else []

/-- Check 13 before the rest. -/
def guardUp (fids : List Nat) (s : State) (k : Ans × State) : Ans × State :=
  match fids.find? s.fnDown with
  | some f => (.done stInReset f [], s)
  | none => k

end Sys2Proof.Machine
end

