-- ==== Sys2Proof/Machine/Flags.lean ====
section
/-! DEFINITION. The FLAGS byte of a command and of its reply (R54). -/

namespace Sys2Proof.Machine

/-! ## Flags (R54) -/

def flagNotify (f : Byte) : Bool := f.getLsbD 0
def flagQuiet (f : Byte) : Bool := f.getLsbD 1
def flagOrdered (f : Byte) : Bool := f.getLsbD 2
def flagRetry (f : Byte) : Bool := f.getLsbD 3
/-- The reply-only and the reserved flags are clear. -/
def flagsLegal (f : Byte) : Bool := decide (f &&& 0xF0 = 0)

/-- The reply's flags: those copied from the request, and CACHED or COMPLETION (R54). -/
def replyFlags (f extra : Byte) : Byte := (f &&& 0x0F) ||| extra

/-- The frame is sent: QUIET holds back OK and PENDING (R54). -/
def replySent (f : Byte) (status : Nat) : Bool := !(flagQuiet f && (status = stOk || status = stPending))

end Sys2Proof.Machine
end

