-- ==== Sys2Proof/Machine/Requests.lean ====
section
/-! DEFINITION. What a host command's frame carries: its session, tag and flags, its opcode (R72) and its parameters in the
bytes and the order of the chapter that owns its class. The events of the part carry no frame. -/

namespace Sys2Proof.Machine

/-- A command as its frame carries it: opcode and parameters. -/
structure Request where
  iss : Issuer
  op : Nat
  params : List Byte
  deriving DecidableEq, Repr

/-- An item of TRIGGER_WRITE (R380). -/
def trigBytes : TrigItem → List Byte
  | .counter index rsv value => bvBytes 2 index ++ bvBytes 2 rsv ++ bvBytes 4 value
  | .entry index counter rsv threshold ctx desc =>
    bvBytes 4 index ++ bvBytes 2 counter ++ bvBytes 2 rsv ++ bvBytes 4 threshold ++ bvBytes 4 ctx ++ bvBytes 64 desc
  | .invalidate index => bvBytes 4 index

/-- A value of TBL_CMD with an OP in bits 3:0 (R269). -/
def withOp (value op : Word) : Word := (value &&& 0xFFFFFFF0) ||| op

/-- The request of a row that is a host command; none for an event of the part. -/
def requestOf : Instr → Option Request
  | .sessionOpen iss x25519 kemKey nonce => some ⟨iss, 1, bvBytes 32 x25519 ++ bvBytes 1184 kemKey ++ bvBytes 32 nonce⟩
  | .sessionFinish iss session rsv edKey mldsaKey edSig mldsaSig =>
    some ⟨iss, 2, bvBytes 2 session ++ bvBytes 2 rsv ++ bvBytes 32 edKey ++ bvBytes 1952 mldsaKey ++
      bvBytes 64 edSig ++ bvBytes 3309 mldsaSig⟩
  | .sessionClose iss => some ⟨iss, 3, []⟩
  | .sessionList iss => some ⟨iss, 4, []⟩
  | .devIdentify iss => some ⟨iss, 5, []⟩
  | .nop iss params => some ⟨iss, 6, params⟩
  | .cmdPoll iss tag => some ⟨iss, 7, bvBytes 4 tag⟩
  | .cmdCancel iss tag => some ⟨iss, 8, bvBytes 4 tag⟩
  | .objOpen iss type rsv length => some ⟨iss, 0x10, [type] ++ bvBytes 3 rsv ++ bvBytes 4 length⟩
  | .objWrite iss handle rsv offset rsv2 data =>
    some ⟨iss, 0x11, bvBytes 2 handle ++ bvBytes 2 rsv ++ bvBytes 4 offset ++ bvBytes 16 rsv2 ++ data⟩
  | .objClose iss handle rsv digest => some ⟨iss, 0x12, bvBytes 2 handle ++ bvBytes 2 rsv ++ bvBytes 48 digest⟩
  | .objRead iss handle rsv offset count _ =>
    some ⟨iss, 0x13, bvBytes 2 handle ++ bvBytes 2 rsv ++ bvBytes 4 offset ++ bvBytes 4 count⟩
  | .objFree iss handle rsv => some ⟨iss, 0x14, bvBytes 2 handle ++ bvBytes 2 rsv⟩
  | .regRead iss addr => some ⟨iss, 0x0101, bvBytes 4 addr⟩
  | .regWrite iss addr value => some ⟨iss, 0x0102, bvBytes 4 addr ++ leBytes value⟩
  | .regModify iss addr mask value => some ⟨iss, 0x0103, bvBytes 4 addr ++ leBytes mask ++ leBytes value⟩
  | .regReadBlock iss first count => some ⟨iss, 0x0104, bvBytes 4 first ++ bvBytes 2 count⟩
  | .regWriteList iss pairs _ => some ⟨iss, 0x0105, pairs.flatMap fun p => bvBytes 4 p.1 ++ leBytes p.2⟩
  | .rcRegisterRead iss addr _ => some ⟨iss, 0x0101, bvBytes 4 addr⟩
  | .latchingRegisterRead iss addr => some ⟨iss, 0x0101, bvBytes 4 addr⟩
  | .w1cRegisterWrite iss addr value _ => some ⟨iss, 0x0102, bvBytes 4 addr ++ leBytes value⟩
  | .cmdConfigWrite iss value => some ⟨iss, 0x0102, beBytes 4 0x01000008 ++ leBytes value⟩
  | .tcConfigWrite iss addr value => some ⟨iss, 0x0102, bvBytes 4 addr ++ leBytes value⟩
  | .tblCmdWriteEntry iss value => some ⟨iss, 0x0102, beBytes 4 0x06000000 ++ leBytes (withOp value 1)⟩
  | .tblCmdReadEntry iss value => some ⟨iss, 0x0102, beBytes 4 0x06000000 ++ leBytes (withOp value 2)⟩
  | .tblCmdInvalidateEntry iss value => some ⟨iss, 0x0102, beBytes 4 0x06000000 ++ leBytes (withOp value 3)⟩
  | .tblCmdMoveEntries iss value => some ⟨iss, 0x0102, beBytes 4 0x06000000 ++ leBytes (withOp value 4)⟩
  | .spolBind iss => some ⟨iss, 0x0102, beBytes 4 0x0A000000 ++ leBytes 1⟩
  | .spolRead iss => some ⟨iss, 0x0102, beBytes 4 0x0A000000 ++ leBytes 2⟩
  | .spolUnbind iss => some ⟨iss, 0x0102, beBytes 4 0x0A000000 ++ leBytes 3⟩
  | .tblWrite iss qmask table flags rsv index image =>
    some ⟨iss, 0x0201, [qmask, table, flags, rsv] ++ bvBytes 4 index ++ bvBytes 32 image⟩
  | .tblRead iss quad table flags rsv index => some ⟨iss, 0x0202, [quad, table, flags, rsv] ++ bvBytes 4 index⟩
  | .tblInvalidate iss qmask table flags rsv index => some ⟨iss, 0x0203, [qmask, table, flags, rsv] ++ bvBytes 4 index⟩
  | .tblMove iss qmask table flags rsv src dst count =>
    some ⟨iss, 0x0204, [qmask, table, flags, rsv] ++ bvBytes 4 src ++ bvBytes 4 dst ++ bvBytes 4 count⟩
  | .tblBulkWrite iss qmask table flags rsv handle rsv2 first count _ =>
    some ⟨iss, 0x0205, [qmask, table, flags, rsv] ++ bvBytes 2 handle ++ bvBytes 2 rsv2 ++ bvBytes 4 first ++
      bvBytes 4 count⟩
  | .tblBulkRead iss quad table flags rsv first count =>
    some ⟨iss, 0x0206, [quad, table, flags, rsv] ++ bvBytes 4 first ++ bvBytes 4 count⟩
  | .soundConfig iss rsv rate repair rsv2 =>
    some ⟨iss, 0x0207, bvBytes 4 rsv ++ bvBytes 4 rate ++ [repair] ++ bvBytes 3 rsv2⟩
  | .genActivate iss flags rsv handle t _ => some ⟨iss, 0x0301, [flags, rsv] ++ bvBytes 2 handle ++ bvBytes 8 t⟩
  | .genStatus iss => some ⟨iss, 0x0302, []⟩
  | .genAbandon iss => some ⟨iss, 0x0303, []⟩
  | .planLoad iss handle rsv _ => some ⟨iss, 0x0401, bvBytes 2 handle ++ bvBytes 2 rsv⟩
  | .portConfig iss fibre layout rsv => some ⟨iss, 0x0402, bvBytes 2 fibre ++ [layout, rsv]⟩
  | .portStatus iss lane rsv => some ⟨iss, 0x0403, bvBytes 2 lane ++ bvBytes 2 rsv⟩
  | .portEnable iss lane enable rsv => some ⟨iss, 0x0404, bvBytes 2 lane ++ [enable, rsv]⟩
  | .linkRetrain iss lane rsv => some ⟨iss, 0x0405, bvBytes 2 lane ++ bvBytes 2 rsv⟩
  | .discoveryRead iss fibre count flags rsv =>
    some ⟨iss, 0x0406, bvBytes 2 fibre ++ bvBytes 2 count ++ [flags] ++ bvBytes 3 rsv⟩
  | .oeStatus iss engine rsv => some ⟨iss, 0x0501, [engine] ++ bvBytes 3 rsv⟩
  | .oeCalibrate iss engine kind flags rsv => some ⟨iss, 0x0502, [engine, kind, flags, rsv]⟩
  | .ringReseek iss engine dir fibre mask => some ⟨iss, 0x0503, [engine, dir, fibre, mask]⟩
  | .pilotPlan iss mask rsv tones => some ⟨iss, 0x0504, bvBytes 2 mask ++ bvBytes 2 rsv ++ tones⟩
  | .cswCircuit iss op mask a b => some ⟨iss, 0x0505, [op, mask, a, b]⟩
  | .cswStatus iss engine rsv => some ⟨iss, 0x0506, [engine] ++ bvBytes 3 rsv⟩
  | .swlCalibrate iss mask rsv => some ⟨iss, 0x0507, bvBytes 2 mask ++ bvBytes 2 rsv⟩
  | .swlDeskewRead iss fibre count => some ⟨iss, 0x0508, bvBytes 2 fibre ++ bvBytes 2 count⟩
  | .timeRead iss => some ⟨iss, 0x0601, []⟩
  | .timeAdjust iss flags rsv delta base =>
    some ⟨iss, 0x0602, [flags] ++ bvBytes 3 rsv ++ bvBytes 8 delta ++ bvBytes 4 base⟩
  | .ptpConfig iss domain flags logSync logAnnounce logPdelay prio1 prio2 rsv asym =>
    some ⟨iss, 0x0603, [domain, flags, logSync, logAnnounce, logPdelay, prio1, prio2, rsv] ++
      asym.flatMap fun a => bvBytes 2 a.1 ++ bvBytes 6 a.2⟩
  | .tsQueueRead iss first count rsv => some ⟨iss, 0x0604, [first, count] ++ bvBytes 2 rsv⟩
  | .timedLaunch iss lane ident flags rsv t length rsv2 data =>
    some ⟨iss, 0x0605, bvBytes 2 lane ++ bvBytes 2 ident ++ [flags] ++ bvBytes 3 rsv ++ bvBytes 8 t ++
      bvBytes 2 length ++ bvBytes 6 rsv2 ++ data⟩
  | .tideLoad iss handle rsv _ => some ⟨iss, 0x0701, bvBytes 2 handle ++ bvBytes 2 rsv⟩
  | .tideRead iss flags rsv lane => some ⟨iss, 0x0702, [flags, rsv] ++ bvBytes 2 lane⟩
  | .tideCommit iss flags rsv a => some ⟨iss, 0x0703, [flags] ++ bvBytes 3 rsv ++ bvBytes 8 a⟩
  | .tideCancel iss => some ⟨iss, 0x0704, []⟩
  | .groupCreate iss group weight rsv base count m rsv2 members =>
    some ⟨iss, 0x0801, bvBytes 2 group ++ [weight, rsv] ++ bvBytes 4 base ++ bvBytes 4 count ++ bvBytes 2 m ++
      bvBytes 2 rsv2 ++ members.flatMap (bvBytes 4)⟩
  | .groupDestroy iss group rsv => some ⟨iss, 0x0802, bvBytes 2 group ++ bvBytes 2 rsv⟩
  | .groupQuery iss group first count rsv =>
    some ⟨iss, 0x0803, bvBytes 2 group ++ bvBytes 2 first ++ bvBytes 2 count ++ bvBytes 2 rsv⟩
  | .groupWeight iss group weight rsv => some ⟨iss, 0x0804, bvBytes 2 group ++ [weight, rsv]⟩
  | .ctxQuery iss ctx first count _ => some ⟨iss, 0x0810, bvBytes 4 ctx ++ bvBytes 2 first ++ bvBytes 2 count⟩
  | .ctxAbort iss ctx => some ⟨iss, 0x0811, bvBytes 4 ctx⟩
  | .memberExclude iss group flags rsv ctx count rsv2 members _ =>
    some ⟨iss, 0x0812, bvBytes 2 group ++ [flags, rsv] ++ bvBytes 4 ctx ++ bvBytes 2 count ++ bvBytes 2 rsv2 ++
      members.flatMap (bvBytes 2)⟩
  | .ebbRead iss group flags rsv => some ⟨iss, 0x0813, bvBytes 2 group ++ [flags, rsv]⟩
  | .triggerWrite iss kind rsv count items =>
    some ⟨iss, 0x0820, [kind, rsv] ++ bvBytes 2 count ++ items.flatMap trigBytes⟩
  | .triggerRead iss kind rsv count first => some ⟨iss, 0x0821, [kind, rsv] ++ bvBytes 2 count ++ bvBytes 4 first⟩
  | .bwkGroupCreate iss group k rsv base count z members =>
    some ⟨iss, 0x0901, bvBytes 2 group ++ [k, rsv] ++ bvBytes 4 base ++ bvBytes 4 count ++ bvBytes 4 z ++
      members.flatMap (bvBytes 4)⟩
  | .bwkGroupDestroy iss group rsv => some ⟨iss, 0x0902, bvBytes 2 group ++ bvBytes 2 rsv⟩
  | .bwkQuery iss group rsv first count =>
    some ⟨iss, 0x0903, bvBytes 2 group ++ bvBytes 2 rsv ++ bvBytes 4 first ++ bvBytes 4 count⟩
  | .partRead iss => some ⟨iss, 0x0A01, []⟩
  | .partResize iss id rsv size => some ⟨iss, 0x0A02, [id, rsv] ++ bvBytes 2 size⟩
  | .memErrorRead iss bridge rsv first count => some ⟨iss, 0x0A03, [bridge, rsv] ++ bvBytes 2 first ++ bvBytes 2 count⟩
  | .testRun iss func kinds flags => some ⟨iss, 0x0B01, bvBytes 2 func ++ [kinds, flags]⟩
  | .testResult iss test first count rsv =>
    some ⟨iss, 0x0B02, bvBytes 2 test ++ bvBytes 2 first ++ bvBytes 2 count ++ bvBytes 2 rsv⟩
  | .repairApply iss kind flags func inst bit addr =>
    some ⟨iss, 0x0B03, [kind, flags] ++ bvBytes 2 func ++ bvBytes 2 inst ++ bvBytes 2 bit ++ bvBytes 4 addr⟩
  | .funcReset iss func flags rsv => some ⟨iss, 0x0C01, bvBytes 2 func ++ [flags, rsv]⟩
  | .deviceReset iss => some ⟨iss, 0x0C02, []⟩
  | .powerCap iss cap rsv => some ⟨iss, 0x0C03, bvBytes 2 cap ++ bvBytes 2 rsv⟩
  | .powerStatus iss => some ⟨iss, 0x0C04, []⟩
  | .telCounterRead iss set flags count first => some ⟨iss, 0x0D01, [set, flags] ++ bvBytes 2 count ++ bvBytes 4 first⟩
  | .telCounterClear iss set rsv count first => some ⟨iss, 0x0D02, [set, rsv] ++ bvBytes 2 count ++ bvBytes 4 first⟩
  | .telExportConfig iss target flags minSev rsv rate rsv2 record flow =>
    some ⟨iss, 0x0D03, [target, flags, minSev, rsv] ++ bvBytes 2 rate ++ bvBytes 2 rsv2 ++ bvBytes 4 record ++
      bvBytes 4 flow⟩
  | .logRead iss flags minSev rsv count first _ =>
    some ⟨iss, 0x0D04, [flags, minSev] ++ bvBytes 2 rsv ++ bvBytes 4 count ++ bvBytes 8 first⟩
  | .attest iss nonce => some ⟨iss, 0x0E01, bvBytes 32 nonce⟩
  | .certRead iss scheme depth rsv => some ⟨iss, 0x0E02, [scheme, depth] ++ bvBytes 2 rsv⟩
  | .fwUpdate iss handle rsv _ => some ⟨iss, 0x0E03, bvBytes 2 handle ++ bvBytes 2 rsv⟩
  | .fwActivate iss slot flags rsv => some ⟨iss, 0x0E04, [slot, flags] ++ bvBytes 2 rsv⟩
  | .powerOnResetAssert | .systemResetAssert | .resetRelease .. | .bootStepEnd .. | .railUndervoltage
  | .railRecoveryExpiry | .refclkStop | .thermalTrip .. | .thermalThrottle .. | .jtagInstruction .. | .extestExit ..
  | .mgmtFrameReceive .. | .tableOperationComplete | .spolOperationComplete | .resetDelayExpiry
  | .commandComplete .. | .keepaliveExpiry .. | .handshakeTimeout .. | .watchdogExpiry .. | .funcResetEnd ..
  | .flitReceive .. | .replayTimerExpiry .. | .ackStallTimeout .. | .linkSilenceTimeout .. | .laneSilenceTimeout ..
  | .flitTransmit .. | .ethFrameReceive .. | .cellTrainReceive .. | .eModeTransmitStart .. | .trainFillExpiry ..
  | .eKeepaliveSend .. | .eModeSilenceTimeout .. | .laneDrop .. | .laneReturn .. | .discoverSend ..
  | .discoverReceive .. | .partnerLostTimeout .. | .fibreComparisonComplete .. | .portTrainingComplete ..
  | .cellLookup .. | .cellAdmission .. | .landedCellRejudge .. | .generatedCellReoffer .. | .undertowReadback ..
  | .headSweep .. | .xbarSlot | .depthReport | .macAgeSweep .. | .soundingVisit .. | .genActivation | .genRetire
  | .ptpMessageReceive .. | .ptpMessageSend .. | .announceTimeout .. | .slewEnd | .ppsPulse | .ppsPulseEnd
  | .timedLaunchDue .. | .tideCheckEnd | .tideActivation .. | .tideWindowBoundary .. | .laneDivertStart ..
  | .causewayChange .. | .causewayChangeEnd .. | .laneDivertEnd .. | .swellInstanceStart .. | .swellInstanceEnd ..
  | .swlCalibrationExpiry .. | .swlCalibrateTimeout | .openReceive .. | .cupReceive .. | .codeReceive ..
  | .deltaApply .. | .ctxLineFetchComplete .. | .headerUnpin .. | .paceRoundStart .. | .missingRound ..
  | .resendReceive .. | .contextDeadline .. | .lingerExpiry .. | .ringLockAcquire .. | .ringLockLoss ..
  | .relockStart .. | .captureTimeout .. | .pilotWindowEnd .. | .cooldownExpiry .. | .seekResonance ..
  | .seekSweepEnd .. | .seekRetryExpiry .. | .feedforwardSample .. | .lightLossDetect .. | .probeBurst ..
  | .lightPresent .. | .openDwellExpiry .. | .laserInputFail .. | .laserInputGoodExpiry .. | .errorWindowEnd ..
  | .quarantineUnitDue | .patrolScrub .. | .bridgeZeroingComplete .. | .shorelineCrcLimit ..
  | .widthRecordPublish .. | .widthRecordReceive .. | .powerPeriod .. | .powerReplyReceive .. | .proposeReceive ..
  | .proposeTimeout .. | .tileRatioStep .. | .testStaggerExpiry | .testEnd .. | .eventRaise .. | .telStageTimer ..
  | .coalesceWindowExpiry .. | .holdRelease | .telStreamSend | .telCollectorSend .. | .refclkRunExpiry => none

end Sys2Proof.Machine
end

