-- ==== Sys2Proof/Machine/Mgmt.lean ====
section
/-! DEFINITION. Command packets: the checks of R62, sessions, the reply cache, replies and completions (R48 to R73,
R566 to R568). -/

namespace Sys2Proof.Machine

/-! ## Slots -/

def State.slot (s : State) (i : Nat) : Session := s.mgmt.slots.getD i Session.free

def State.setSlot (s : State) (i : Nat) (f : Session → Session) : State :=
  { s with mgmt := { s.mgmt with slots := modAt s.mgmt.slots i f } }

/-- The slot of an open session. -/
def State.slotIx (s : State) (num : Nat) : Option Nat :=
  s.mgmt.slots.findIdx? fun x => decide (x.st = .active ∧ x.number = num)

/-- The slot a session number occupies, open or closing. -/
def State.slotHeld (s : State) (num : Nat) : Option Nat :=
  s.mgmt.slots.findIdx? fun x => decide ((x.st = .active ∨ x.st = .closing) ∧ x.number = num)

/-- The objects of a session freed (R61). -/
def State.freeObjects (s : State) (num : Nat) : State :=
  { s with objs := { s.objs with table := s.objs.table.filter fun p => decide (p.2.session ≠ num) } }

/-- An open session closes (R61). The slot stays occupied while started commands run. -/
def State.closeSession (s : State) (i reason : Nat) : State :=
  let x := s.slot i
  if x.st ≠ .active then s
  else
    let left := x.cmds.filter fun e => decide (e.phase ≠ .queued)
    let s := s.setSlot i fun y =>
      if left.isEmpty then Session.free else { y with st := .closing, cmds := left, arrivals := [], cache := [] }
    let s := s.freeObjects x.number
    let s := if s.tel.stream.enable ∧ s.tel.stream.session = x.number then
        { s with tel := { s.tel with stream := { s.tel.stream with enable := false } } } else s
    s.raiseEv 0x0101 1 (fidCmd x.engine) (beBytes 2 x.number ++ beBytes 1 reason)

/-! ## Headers and protection (R52, R53) -/

/-- NONCE: the sender's salt, then SEQUENCE. -/
def nonceBytes (salt : BitVec 32) (seq : Nat) : List Byte := bvBytes 4 salt ++ beBytes 8 seq

/-- The 32-byte command header (R52). -/
def cmdHeader (version flags : Byte) (op : Nat) (tag : BitVec 32) (session plen seq : Nat) (nonce : List Byte) :
    List Byte :=
  [version, flags] ++ beBytes 2 op ++ bvBytes 4 tag ++ beBytes 2 session ++ beBytes 2 plen ++ beBytes 8 seq ++ nonce

/-- AES-256-GCM in either direction: the bytes combined with the keystream. -/
def gcmApply (key : BitVec 256) (iv bs : List Byte) : List Byte := bs.mapIdx fun i b => b ^^^ Config.gcmStream key iv i

/-- NONCE of a received frame. -/
def frameNonce (f : MgmtFrame) : List Byte := bvBytes 4 f.nonceSalt ++ bvBytes 8 f.nonceSeq

/-- The header of a received frame, which its tag authenticates. -/
def frameHeader (f : MgmtFrame) : List Byte :=
  cmdHeader f.version f.flags f.opcode.toNat f.tag f.session.toNat f.plen.toNat f.seq.toNat (frameNonce f)

/-- The parameters of a received frame as they are carried. -/
def frameParams (f : MgmtFrame) : List Byte := f.body.take f.plen.toNat

/-- Check 5: the 16 bytes after the parameters are the frame's tag under a key. -/
def frameVerifies (key : BitVec 256) (f : MgmtFrame) : Bool :=
  decide ((f.body.drop f.plen.toNat).take 16 =
    bvBytes 16 (Config.gcmTag key (frameNonce f) (frameHeader f) (frameParams f)))

/-- The length of a received frame with its Ethernet header, tags and FCS. -/
def frameLen (f : MgmtFrame) : Nat := 14 + 4 * f.tags.length + 32 + f.body.length + 4

/-! ## Replies -/

/-- MGMT transmits nothing under EXTEST (R553). -/
def State.mgmtOn (s : State) : Bool := decide (s.pins.jtag ≠ .extest)

/-- A frame of Gorti's (R52, R55): the status prefix and the results as parameters, enciphered and authenticated under the
key of its session (R53). On session 0, which has no key, they travel in clear and SEQUENCE, NONCE and tag are 0 (R57). -/
def State.reply (s : State) (key : Option (BitVec 256)) (session op : Nat) (tag : BitVec 32) (flags : Byte) (seq : Nat)
    (salt : BitVec 32) (dst : BitVec 48) (vlan : Option (BitVec 16)) (f : Final) : MgmtTx :=
  let params := beBytes 2 f.status ++ beBytes 2 f.detail ++ bvBytes 4 s.boot.incarnation ++ f.results
  let opcode := 0x8000 + op % 0x8000
  let iv := nonceBytes salt seq
  let head := cmdHeader 1 flags opcode tag session params.length seq iv
  let body := match key with
    | some k => gcmApply k iv params
    | none => params
  let mac := match key with
    | some k => Config.gcmTag k iv head body
    | none => 0
  { version := 1, plen := params.length, body := body, mac := mac, session := session, opcode := opcode, tag := tag,
    flags := flags, seq := seq, salt := salt, dst := dst, vlan := vlan, status := f.status, detail := f.detail,
    incarnation := s.boot.incarnation, results := f.results }

/-- A reply or completion on the session of slot `i` (R51, R55, R91). The frame with Gorti's own last sequence closes the
session (R59). -/
def State.sendOn (s : State) (i op : Nat) (tag : BitVec 32) (flags extra : Byte) (dst : BitVec 48)
    (vlan : Option (BitVec 16)) (f : Final) : State :=
  let s := if f.status = stBusy then s.bump .cmdBusy [] else s
  let x := s.slot i
  let m := s.reply (some x.ownKey) x.number op tag (replyFlags flags extra) (x.txSeq + 1) x.ownSalt dst vlan f
  let t :=
    if replySent flags f.status ∧ s.mgmtOn then
      let s := s.setSlot i fun y => { y with txSeq := y.txSeq + 1 }
      { s with mgmt := { s.mgmt with sent := s.mgmt.sent ++ [m] } }
    else s
  if (t.slot i).txSeq = 2 ^ 64 - 1 then t.closeSession i 3 else t

/-- A reply has gone: that of the frame with the last host sequence closes the session (R59). -/
def State.endLast (s : State) (i : Nat) (last : Bool) : State := if last then s.closeSession i 3 else s

/-- A reply on session 0 (R57), to the source and with the tagging of its request (R51). -/
def State.sendZero (s : State) (z : ZeroReq) (f : Final) : State :=
  let s := if f.status = stBusy then s.bump .cmdBusy [] else s
  if replySent z.flags f.status ∧ s.mgmtOn then
    { s with mgmt := { s.mgmt with sent := s.mgmt.sent ++
      [s.reply none 0 z.opcode z.tag (replyFlags z.flags 0) 0 0 z.src z.vlan f] } }
  else s

/-- The final reply of an accepted command: it leaves the queue and enters the reply cache (R64, R65). -/
def State.finishCmd (s : State) (i : Nat) (e : CmdEntry) (extra : Byte) (f : Final) : State :=
  let s := s.setSlot i fun y =>
    { y with
      cmds := y.cmds.filter fun o => decide (o.tag ≠ e.tag)
      cache := (⟨e.tag, e.opcode, e.flags, f⟩ :: y.cache).take 64 }
  (s.sendOn i e.opcode e.tag e.flags extra e.src e.vlan f).endLast i e.last

/-! ## Checks 8 to 11 -/

/-- What checks 8 to 11 and R65 make of a frame. -/
inductive Verdict where
  | refuse (status detail : Nat)
  | resend (c : CachedReply)
  | accept
  deriving DecidableEq, Repr

/-- A big-endian field of a command's parameters. -/
def fieldAt (params : List Byte) (off n : Nat) : Nat := beNat ((params.drop off).take n)

/-- PLEN of the commands that count their items in their parameters (R348, R380, R408, R417). -/
def countedLength (op : Nat) (params : List Byte) : Option Nat :=
  if op = 0x0801 then some (16 + 4 * fieldAt params 12 2)
  else if op = 0x0901 then some (16 + 4 * fieldAt params 2 1)
  else if op = 0x0812 then some (12 + 2 * fieldAt params 8 2)
  else if op = 0x0820 ∧ fieldAt params 0 1 ≤ 2 then
    some (4 + (if fieldAt params 0 1 = 0 then 8 else if fieldAt params 0 1 = 1 then 80 else 4) * fieldAt params 2 2)
  else none

/-- Check 9: PLEN is legal for the opcode. The detail where it is not (R69); none where it is. -/
def lengthFault (lo step hi op : Nat) (params : List Byte) : Option Nat :=
  let n := params.length
  if n < lo ∨ hi < n ∨ (n - lo) % step ≠ 0 then some (if lo = hi then lo else 0xFFFF)
  else
    match countedLength op params with
    | some m => if n = m then none else some 0xFFFF
    | none => none

/-- Checks 8 to 11 of R62 with the RETRY table of R65 and the limits of R68, on an open session. -/
def judge (x : Session) (op : Nat) (params : List Byte) (flags : Byte) (tag : BitVec 32) : Verdict :=
  if !flagsLegal flags || !opAllowed x.number op then .refuse stBadOpcode 0 else
  match opLengths op with
  | none => .refuse stBadOpcode 0
  | some (lo, step, hi) =>
    match lengthFault lo step hi op params with
    | some d => .refuse stBadLength d
    | none =>
      match x.cmds.find? fun e => decide (e.tag = tag) with
      | some e =>
        if flagRetry flags ∧ e.opcode = op then .refuse stPending x.engine else .refuse stBadParam 0xFFFE
      | none =>
        match (if flagRetry flags then x.cache.find? fun c => decide (c.tag = tag ∧ c.opcode = op) else none) with
        | some c => .resend c
        | none =>
          if opAtArrival op then .accept
          else if 256 ≤ (x.cmds.filter fun e => decide (e.phase = .queued)).length then .refuse stBusy 0
          else if opFirmware op ∧ 64 ≤ (x.cmds.filter fun e => opFirmware e.opcode).length then .refuse stBusy 1
          else .accept

/-- A command as it is accepted. -/
def freshEntry (r : Request) (src : BitVec 48) (vlan : Option (BitVec 16)) (order arrived : Nat) (last : Bool) : CmdEntry :=
  ⟨r.iss.tag, r.op, r.iss.flags, r.params, order, arrived, last, .queued, src, vlan, [], .firmware, none⟩

/-- A command accepted at check 11: the cache entry of its TAG is dropped and it joins the queue (R65); CMD_POLL and
CMD_CANCEL do neither (R67). -/
def Session.accept (x : Session) (e : CmdEntry) : Session :=
  if opAtArrival e.opcode then { x with arrivals := x.arrivals ++ [e] }
  else { x with cache := x.cache.filter (fun c => decide (c.tag ≠ e.tag)), cmds := x.cmds ++ [e] }

/-! ## Running a command -/

/-- The queued command may start (R63, R64): nothing earlier waits or runs without a reply, and an ORDERED one waits for every earlier
command's end. -/
def startable (cmds : List CmdEntry) (tag : BitVec 32) (flags : Byte) : Bool :=
  let before := cmds.takeWhile fun e => decide (e.tag ≠ tag)
  if flagOrdered flags then before.isEmpty else before.all fun e => decide (e.phase = .pending)

/-- The commands that one path serves in their order of arrival over all sessions: register accesses (R77), and resizes of
partitions (R224). -/
def sharedPath (op : Nat) : Option Nat := if op / 256 = 1 then some 0 else if op = 0x0A02 then some 1 else none

/-- No command of another session that came earlier waits for the same path and could start. -/
def State.turnOf (s : State) (e : CmdEntry) : Bool :=
  (sharedPath e.opcode).isNone || s.mgmt.slots.all fun x => x.cmds.all fun o =>
    !(decide (o.phase = .queued ∧ o.order < e.order ∧ sharedPath o.opcode = sharedPath e.opcode) &&
      startable x.cmds o.tag o.flags)

/-- A waiting command may start: its session and the path that serves it allow it. -/
def State.mayStart (s : State) (i : Nat) (e : CmdEntry) : Bool :=
  startable (s.slot i).cmds e.tag e.flags && s.turnOf e

/-- The body of a command: the slot of its session, and the state. -/
abbrev Body := Nat → State → Ans × State

/-- Event INTERNAL_FAULT: opcode, fault code and what was applied (R69, R70). -/
def State.internalFault (s : State) (engine op code applied : Nat) : State :=
  s.raiseEv 0x0102 3 (fidCmd engine) (beBytes 2 op ++ beBytes 2 code ++ beBytes 4 applied)

/-- The results of a PENDING reply (R543). -/
def Job.results : Job → List Byte
  | .testRun id => beBytes 2 id ++ [0, 0]
  | _ => []

/-- The PENDING reply (R64): the command waits for its job, with the objects it uses. -/
def State.pendCmd (s : State) (i : Nat) (e : CmdEntry) (objs : List Nat) (job : Job) : State :=
  let s := s.setSlot i fun y =>
    { y with cmds := y.cmds.map fun o =>
        if o.tag = e.tag then { o with phase := .pending, objs := objs, job := job } else o }
  (s.sendOn i e.opcode e.tag e.flags 0 e.src e.vlan ⟨stPending, (s.slot i).engine, job.results⟩).endLast i e.last

/-- The command runs on, and replies once at its end (R63). -/
def State.holdCmd (s : State) (i : Nat) (e : CmdEntry) (job : Job) : State :=
  s.setSlot i fun y =>
    { y with cmds := y.cmds.map fun o => if o.tag = e.tag then { o with phase := .running, job := job } else o }

/-- A queued command runs; `after` follows its final reply. -/
def runCmd (i : Nat) (e : CmdEntry) (body : Body) (after : Nat → State → State) (s : State) : State :=
  match body i s with
  | (.done st det res, s') =>
    let s' := if st = stInternal then s'.internalFault (s'.slot i).engine e.opcode det 0 else s'
    after i (s'.finishCmd i e 0 ⟨st, det, res⟩)
  | (.pend objs job, s') => s'.pendCmd i e objs job
  | (.hold job, s') => s'.holdCmd i e job

/-! ## The frame itself -/

/-- Check 1 (R49, R50). -/
def frameForUs (s : State) (f : MgmtFrame) : Bool :=
  decide (frameLen f ≤ 9022) && decide (f.etherType = 0x88B6) &&
  (decide (f.dst = Config.mgmtMac) ||
    (decide (f.dst = 0xFFFFFFFFFFFF) && decide (f.opcode = 5) && decide (s.regBits .cmdConfig [] 9 9 = 1))) &&
  match f.tags with
  | [] => decide (s.regBits .cmdConfig [] 11 11 = 0)
  | [t] => decide (s.regBits .cmdConfig [] 11 11 = 0 ∨ t.toNat % 4096 = s.regBits .cmdConfig [] 23 12)
  | _ => false

/-- The window of R58 accepts a sequence. -/
def seqFresh (x : Session) (q : Nat) : Bool :=
  decide (q ≠ 0) && (decide (x.high < q) || (decide (x.high < q + 64) && !bit x.window (x.high - q)))

/-- The window once it has accepted a sequence. -/
def Session.takeSeq (x : Session) (q : Nat) : Session :=
  if x.high < q then { x with high := q, window := (x.window * 2 ^ min 64 (q - x.high)) % 2 ^ 64 + 1 }
  else { x with window := x.window + 2 ^ (x.high - q) }

/-- Session 0 as checks 8 to 11 see it: its uncompleted commands, no reply cache. DESIGN CHOICE: it is bound to no engine, and
a PENDING reply to a RETRY names engine 0 (log entry 60). -/
def State.zeroSession (s : State) : Session :=
  { Session.free with cmds := s.mgmt.zeroCmds.map fun z =>
      ⟨z.tag, z.opcode, z.flags, z.params, 0, 0, false, .queued, z.src, z.vlan, [], .firmware, none⟩ }

/-- A session-0 frame: the rate limit of R57, then checks 8 to 11. A command that passes waits for its row. -/
def zeroFrame (r : Request) (src : BitVec 48) (vlan : Option (BitVec 16)) (s : State) : State :=
  let recent := s.mgmt.zeroArrivals.filter fun t => decide (s.now < t + 1000000000)
  if 1000 ≤ recent.length then ({ s with mgmt := { s.mgmt with zeroArrivals := recent } }).bump .cmdSession0Drops []
  else
    let s := { s with mgmt := { s.mgmt with zeroArrivals := recent ++ [s.now], zeroPeer := src, zeroVlan := vlan } }
    let z : ZeroReq := ⟨r.iss.tag, r.op, r.iss.flags, r.params, src, vlan⟩
    match judge s.zeroSession r.op r.params r.iss.flags r.iss.tag with
    | .refuse st det => s.sendZero z ⟨st, det, []⟩
    | .resend c => s.sendZero z c.final
    | .accept => { s with mgmt := { s.mgmt with zeroCmds := s.mgmt.zeroCmds ++ [z] } }

/-- Checks 8 to 11 on a frame that passed checks 1 to 7, and the queue; `last`: it carried the last host sequence. -/
def sessionCmd (i : Nat) (r : Request) (src : BitVec 48) (vlan : Option (BitVec 16)) (last : Bool) (s : State) : State :=
  match judge (s.slot i) r.op r.params r.iss.flags r.iss.tag with
  | .refuse st det => (s.sendOn i r.op r.iss.tag r.iss.flags 0 src vlan ⟨st, det, []⟩).endLast i last
  | .resend c => (s.sendOn i r.op r.iss.tag r.iss.flags 0x20 src vlan c.final).endLast i last
  | .accept =>
    let s := s.setSlot i fun y => y.accept (freshEntry r src vlan s.mgmt.accepted s.ptpNs last)
    { s with mgmt := { s.mgmt with accepted := s.mgmt.accepted + 1 } }

/-- A frame of an open session that passed checks 1 to 5, with its parameters in clear: checks 6 and 7, then the rest. -/
def sessionFrame (i : Nat) (f : MgmtFrame) (r : Request) (s : State) : State :=
  let s := s.setSlot i fun y => { y with peer := f.src, peerVlan := f.tags.head? }
  let x := s.slot i
  let answer (s : State) (r' : Final) := s.sendOn i r.op f.tag f.flags 0 f.src f.tags.head? r'
  if f.nonceSalt ≠ x.hostSalt ∨ f.nonceSeq ≠ f.seq then answer s ⟨stAuthFail, 5, []⟩
  else if !seqFresh x f.seq.toNat then answer (s.bump .cmdReplays []) ⟨stReplay, 0, []⟩
  else
    let s := s.setSlot i fun y => { y.takeSeq f.seq.toNat with lastFrame := s.now }
    sessionCmd i r f.src f.tags.head? (decide (f.seq.toNat = 2 ^ 64 - 1)) s

/-- The request of a received frame, with its parameters in clear. -/
def frameRequest (f : MgmtFrame) (params : List Byte) : Request := ⟨⟨f.session, f.tag, f.flags⟩, f.opcode.toNat, params⟩

/-- A frame at the MGMT port: checks 1 to 11 (R62). -/
def State.receive (s : State) (f : MgmtFrame) : State :=
  if s.boot.phase ≠ .done then s
  else if !frameForUs s f then s.bump .cmdDrops []
  else
    let s := s.bump .cmdRxFrames []
    let short := decide (f.body.length < 16 + f.plen.toNat)
    if f.version ≠ 1 then s.bump .cmdDrops []
    else if f.session = 0 then
      if short then s.bump .cmdDrops [] else zeroFrame (frameRequest f (frameParams f)) f.src f.tags.head? s
    else
      match s.slotIx f.session.toNat with
      | none => s.bump .cmdDrops []
      | some i =>
        let key := (s.slot i).hostKey
        if short then s.bump .cmdDrops []
        else if !frameVerifies key f then s.bump .cmdAuthFails []
        else sessionFrame i f (frameRequest f (gcmApply key (frameNonce f) (frameParams f))) s

/-- MGMT_FRAME_RECEIVE (R62). An accepted command waits in its session's queue for its own row. -/
def execMgmtFrameReceive (f : MgmtFrame) (s : State) : Out := .next (s.receive f)

/-! ## Host commands -/

/-- The tagging that CMD_CONFIG lets in: that of the session's latest frame, or VLAN_ID where that is required. -/
def State.goodTag (s : State) (latest : Option (BitVec 16)) : Option (BitVec 16) :=
  let id := s.regBits .cmdConfig [] 23 12
  if s.regBits .cmdConfig [] 11 11 = 0 then latest
  else
    match latest with
    | some t => if t.toNat % 4096 = id then some t else some (BitVec.ofNat 16 id)
    | none => some (BitVec.ofNat 16 id)

/-- The frame of a host command arrives, well made: it meets checks 1 to 7 from the address of its session's latest frame,
with the next sequence. A frame longer than R50 allows, and one of a session that is not open, is dropped; checks 8 to 11
judge the rest. -/
def State.hostArrive (s : State) (r : Request) : State :=
  if s.boot.phase ≠ .done then s
  else
    let slot := s.slotIx r.iss.session.toNat
    let vlan := s.goodTag (match slot with
      | some i => if r.iss.session = 0 then s.mgmt.zeroVlan else (s.slot i).peerVlan
      | none => s.mgmt.zeroVlan)
    if 9022 < 14 + 4 * vlan.toList.length + 48 + r.params.length + 4 then s.bump .cmdDrops []
    else
      let s := s.bump .cmdRxFrames []
      if r.iss.session = 0 then zeroFrame r s.mgmt.zeroPeer vlan s
      else
        match slot with
        | none => s.bump .cmdDrops []
        | some i =>
          let x := s.slot i
          let q := x.high + 1
          if 2 ^ 64 ≤ q then (s.bump .cmdReplays []).sendOn i r.op r.iss.tag r.iss.flags 0 x.peer vlan ⟨stReplay, 0, []⟩
          else
            let s := s.setSlot i fun y => { y.takeSeq q with peerVlan := vlan, lastFrame := s.now }
            sessionCmd i r x.peer vlan (decide (q = 2 ^ 64 - 1)) s

/-- The entry is the command of a request. -/
def CmdEntry.isOf (e : CmdEntry) (r : Request) : Bool :=
  decide (e.tag = r.iss.tag ∧ e.opcode = r.op ∧ e.phase = .queued ∧ e.params = r.params)

/-- The command of a row waits in the queue of its open session: the slot and the entry. -/
def State.waiting (s : State) (r : Request) : Option (Nat × CmdEntry) :=
  (s.slotIx r.iss.session.toNat).bind fun i => ((s.slot i).cmds.find? (·.isOf r)).map fun e => (i, e)

/-- A waiting command runs, if it may start. -/
def State.start (s : State) (w : Option (Nat × CmdEntry)) (body : Body) (after : Nat → State → State) : State :=
  match w with
  | some (i, e) => if s.mayStart i e then runCmd i e body after s else s
  | none => s

/-- A host command on an open session. Its row starts the command that waits in the queue with its TAG, opcode and
parameters; where none waits, the row is its frame's arrival too. `after` follows its final reply. -/
def hostCmdThen (c : Instr) (body : Body) (after : Nat → State → State) (s : State) : State :=
  match requestOf c with
  | none => s
  | some r =>
    if s.boot.phase ≠ .done then s
    else if (s.waiting r).isSome then s.start (s.waiting r) body after
    else (s.hostArrive r).start ((s.hostArrive r).waiting r) body after

def hostCmd (c : Instr) (body : Body) (s : State) : State := hostCmdThen c body (fun _ t => t) s

/-- CMD_POLL or CMD_CANCEL that has arrived: the slot, the entry and the others. -/
def State.atHand (s : State) (r : Request) : Option (Nat × CmdEntry × List CmdEntry) :=
  (s.slotIx r.iss.session.toNat).bind fun i =>
    (takeFirst (·.isOf r) (s.slot i).arrivals).map fun (e, rest) => (i, e, rest)

/-- CMD_POLL and CMD_CANCEL run outside the queue and the reply cache (R67), and answer their own frame (R51). -/
def arrivalCmd (c : Instr) (body : Body) (s : State) : State :=
  match requestOf c with
  | none => s
  | some r =>
    if s.boot.phase ≠ .done then s
    else
      let s := if (s.atHand r).isSome then s else s.hostArrive r
      match s.atHand r with
      | none => s
      | some (i, e, rest) =>
        match body i (s.setSlot i fun y => { y with arrivals := rest }) with
        | (.done st det res, s') => (s'.sendOn i e.opcode e.tag e.flags 0 e.src e.vlan ⟨st, det, res⟩).endLast i e.last
        | (_, s') => s'

/-- A session-0 command that waits is the command of a request. -/
def ZeroReq.isOf (z : ZeroReq) (r : Request) : Bool :=
  decide (r.iss.session = 0 ∧ z.tag = r.iss.tag ∧ z.opcode = r.op ∧ z.params = r.params)

/-- A command of session 0 (R57): no queue and no reply cache. On an open session it is refused at check 8, which
`judge` does at its arrival. -/
def zeroCmd (c : Instr) (body : ZeroReq → State → Ans × State) (s : State) : State :=
  match requestOf c with
  | none => s
  | some r =>
    if s.boot.phase ≠ .done then s
    else
      let s := if s.mgmt.zeroCmds.any (·.isOf r) then s else s.hostArrive r
      match takeFirst (·.isOf r) s.mgmt.zeroCmds with
      | none => s
      | some (z, rest) =>
        match body z { s with mgmt := { s.mgmt with zeroCmds := rest } } with
        | (.done st det res, s') => s'.sendZero z ⟨st, det, res⟩
        | (_, s') => s'

/-! ## Sessions -/

/-- The number of sessions an engine serves. -/
def State.engineLoad (s : State) (n : Nat) : Nat :=
  (s.mgmt.slots.filter fun x => decide (x.st ≠ .free ∧ x.engine = n)).length

/-- The engine that a new session is bound to (R56). -/
def State.chooseEngine (s : State) : Option Nat :=
  ([0, 1, 2, 3].filter fun n => !s.fnDown (fidCmd n)).foldl (init := none) fun best n =>
    match best with
    | none => some n
    | some b => if s.engineLoad n < s.engineLoad b then some n else some b

/-- The next session number above the last one assigned that is not open (R56); `fuel` bounds the numbers skipped. -/
def nextNumber (used : List Nat) (last : Nat) : Nat → Nat
  | 0 => last % 0xFFFE + 1
  | fuel + 1 =>
    let n := last % 0xFFFE + 1
    if used.contains n then nextNumber used n fuel else n

/-- DETAIL of FUNCTION_IN_RESET where no engine takes part: the lowest engine in reset. DESIGN CHOICE: the first engine
where every engine is held failed and none is in reset (log entry 65). -/
def State.engineInReset (s : State) : Nat := fidCmd (([0, 1, 2, 3].find? fun n => (s.fn (fidCmd n)).inReset).getD 0)

/-- The slot that a new session takes. DESIGN CHOICE: the lowest-numbered free one (log entry 65). -/
def State.freeSlot (s : State) : Option Nat := s.mgmt.slots.findIdx? fun x => decide (x.st = .free)

/-- SESSION_OPEN (R56, R566, R567). Gorti's ephemeral secrets are fresh: a free value's number stands for them. -/
def execSessionOpen (iss : Issuer) (x25519 : BitVec 256) (kemKey : BitVec 9472) (nonce : BitVec 256) (s : State) :
    Out :=
  .next <| zeroCmd (.sessionOpen iss x25519 kemKey nonce) (fun _ s =>
    match s.chooseEngine with
    | none => (.done stInReset s.engineInReset [], s)
    | some n =>
      match s.freeSlot with
      | none => (.done stNoResource 0 [], s)
      | some i =>
        let used := (s.mgmt.slots.filter fun x => decide (x.st ≠ .free)).map Session.number
        let num := nextNumber used s.mgmt.lastNumber 8
        let own := s.free
        let s : State := { s with free := own + 1 }
        let (pub, ct, gn) := Config.handshake own kemKey
        let res := beBytes 2 num ++ [0, 0] ++ bvBytes 32 pub ++ bvBytes 1088 ct ++ bvBytes 32 gn
        let th1 := Config.sha384 (bvBytes 32 x25519 ++ bvBytes 1184 kemKey ++ bvBytes 32 nonce ++ res)
        let ((ed, ml), s) := s.sign (0x48 :: bvBytes 48 th1)
        let secret := Config.sharedSecrets own x25519 kemKey
        let s := s.setSlot i fun _ =>
          { Session.free with
            st := .handshake, engine := n, number := num, takenAt := s.now, th1 := th1, secret := secret }
        (ok (res ++ bvBytes 64 ed ++ bvBytes 3309 ml),
          { s with mgmt := { s.mgmt with lastNumber := num } })) s

/-- The bytes of an info string of R568. -/
def infoBytes (t : String) : List Byte := t.toList.map fun c => BitVec.ofNat 8 c.toNat

/-- An open session (R568): its keys and salts from the shared secrets with TH2 as the salt; the secrets are erased. -/
def Session.opened (x : Session) (th2 : BitVec 384) (now : Nat) (peer : BitVec 48) (vlan : Option (BitVec 16)) : Session :=
  let out (info : String) (n : Nat) := Config.hkdf x.secret (bvBytes 48 th2) (infoBytes info) n
  { x with
    st := .active, hostKey := BitVec.ofNat 256 (out "k-h2g" 32), ownKey := BitVec.ofNat 256 (out "k-g2h" 32),
    hostSalt := BitVec.ofNat 32 (out "s-h2g" 4), ownSalt := BitVec.ofNat 32 (out "s-g2h" 4), secret := [],
    lastFrame := now, peer := peer, peerVlan := vlan }

/-- SESSION_FINISH (R566 to R568). -/
def execSessionFinish (iss : Issuer) (session rsv : BitVec 16) (edKey : BitVec 256) (mldsaKey : BitVec 15616)
    (edSig : BitVec 512) (mldsaSig : BitVec 26472) (s : State) : Out :=
  .next <| zeroCmd (.sessionFinish iss session rsv edKey mldsaKey edSig mldsaSig) (fun z s =>
    guardParams [(decide (rsv = 0), 2)] s <|
      match s.mgmt.slots.findIdx? fun x => decide (x.st = .handshake ∧ x.number = session.toNat) with
      | none => (.done stAuthFail 4 [], s.bump .secHandshakeFails [])
      | some i =>
        let failed (d : Nat) := (Ans.done stAuthFail d [], (s.setSlot i fun _ => Session.free).bump .secHandshakeFails [])
        let x := s.slot i
        let key := Config.sha384 (bvBytes 32 edKey ++ bvBytes 1952 mldsaKey)
        let th2 := Config.sha384 (bvBytes 48 x.th1 ++ bvBytes 32 edKey ++ bvBytes 1952 mldsaKey)
        let signed := 0x48 :: bvBytes 48 th2
        if !(((trustKeys s.nvm.trust).getD []).contains key) then failed 1
        else if !Config.edVerifies (bvBytes 32 edKey) signed (bvBytes 64 edSig) then failed 2
        else if !Config.mldsaVerifies (bvBytes 1952 mldsaKey) signed (bvBytes 3309 mldsaSig) then failed 3
        else
          let s := s.setSlot i fun y => y.opened th2 s.now z.src z.vlan
          (ok (beBytes 2 x.number ++ beBytes 1 x.engine ++ [0]), s.bump .secHandshakes [])) s

/-- SESSION_CLOSE (R61): the session closes after its reply. -/
def execSessionClose (iss : Issuer) (s : State) : Out :=
  .next <| hostCmdThen (.sessionClose iss) (fun _ s => (ok [], s)) (fun i t => t.closeSession i 0) s

/-- STATE of CMD_SLOT (R90). -/
def SlotState.code : SlotState → Nat
  | .free => 0
  | .handshake => 1
  | .active => 2
  | .closing => 3

/-- SESSION_LIST (R566). -/
def execSessionList (iss : Issuer) (s : State) : Out :=
  .next <| hostCmd (.sessionList iss) (fun _ s =>
    let rows := (s.mgmt.slots.filter fun x => decide (x.st ≠ .free)).map fun x =>
      beBytes 2 x.number ++ beBytes 1 x.engine ++ beBytes 1 x.st.code ++
        beBytes 4 ((s.now - x.takenAt) / 1000000000)
    (ok rows.flatten, s)) s

/-- The results of DEV_IDENTIFY (R566). -/
def identity : List Byte :=
  beBytes 4 0x2048E511 ++ bvBytes 6 Config.mgmtMac ++ [0, 0] ++ bvBytes 32 idDigest ++
    bvBytes 48 (Config.sha384 (Config.certChain 0).device) ++ bvBytes 48 (Config.sha384 (Config.certChain 1).device)

/-- DEV_IDENTIFY (R566), on session 0 or any session. -/
def execDevIdentify (iss : Issuer) (s : State) : Out :=
  .next <|
    if iss.session = 0 then zeroCmd (.devIdentify iss) (fun _ s => (ok identity, s)) s
    else hostCmd (.devIdentify iss) (fun _ s => (ok identity, s)) s

/-- NOP (R72): its parameters come back unchanged. -/
def execNop (iss : Issuer) (params : List Byte) (s : State) : Out :=
  .next <| hostCmd (.nop iss params) (fun _ s => (ok params, s)) s

/-- CMD_POLL (R67). -/
def execCmdPoll (iss : Issuer) (tag : BitVec 32) (s : State) : Out :=
  .next <| arrivalCmd (.cmdPoll iss tag) (fun i s =>
    let x := s.slot i
    match x.cmds.find? fun e => decide (e.tag = tag) with
    | some e => (ok (beBytes 1 (if e.phase = .queued then 1 else 2) ++ [0] ++ beBytes 2 e.opcode), s)
    | none =>
      match x.cache.find? fun c => decide (c.tag = tag) with
      | some c =>
        let long := decide (8932 < c.final.results.length)
        (ok ([3] ++ beBytes 1 (b2n long) ++ beBytes 2 c.opcode ++ beBytes 2 c.final.status ++
          beBytes 2 c.final.detail ++ [0, 0, 0, 0] ++ if long then [] else c.final.results), s)
      | none => (ok [0, 0, 0, 0], s)) s

/-- CMD_CANCEL (R67). -/
def execCmdCancel (iss : Issuer) (tag : BitVec 32) (s : State) : Out :=
  .next <| arrivalCmd (.cmdCancel iss tag) (fun i s =>
    match (s.slot i).cmds.find? fun e => decide (e.tag = tag) with
    | some e =>
      if e.phase = .queued then
        (ok [], s.setSlot i fun y => { y with cmds := y.cmds.filter fun o => decide (o.tag ≠ tag) })
      else (.done stBusy 2 [], s)
    | none => (badParam 0xFFFF, s)) s

/-- KEEPALIVE_EXPIRY (R61): the idle time of an open session has reached KEEPALIVE seconds. -/
def execKeepaliveExpiry (slot : Fin 8) (s : State) : Out :=
  .next <|
    if (s.slot slot).st = .active then
      (s.advanceTo ((s.slot slot).lastFrame + s.regBits .cmdConfig [] 7 0 * 1000000000)).closeSession slot 1
    else s

/-- HANDSHAKE_TIMEOUT (R567): one second after the reply to SESSION_OPEN. -/
def execHandshakeTimeout (slot : Fin 8) (s : State) : Out :=
  .next <|
    if (s.slot slot).st = .handshake then
      (s.advanceTo ((s.slot slot).takenAt + 1000000000)).setSlot slot fun _ => Session.free
    else s

/-! ## Completion of PENDING commands -/

/-- Every PENDING command whose job meets `p` has its final outcome; COMMAND_COMPLETE delivers it. -/
def State.endJobs (s : State) (p : Job → Bool) (f : Final) : State :=
  { s with mgmt := { s.mgmt with slots := s.mgmt.slots.map fun x =>
      { x with cmds := x.cmds.map fun e =>
          if e.phase = .pending ∧ p e.job ∧ e.finished = none then { e with finished := some f } else e } } }

/-- Some PENDING command waits on a job that meets `p`. -/
def State.anyJob (s : State) (p : Job → Bool) : Bool :=
  s.mgmt.slots.any fun x => x.cmds.any fun e => decide (e.phase = .pending) && p e.job && e.finished.isNone

/-- The handle of the object that a command reads, as its parameters give it (R80). -/
def readsObject (op : Nat) (params : List Byte) : Option Nat :=
  if op = 0x0013 ∨ op = 0x0401 ∨ op = 0x0701 ∨ op = 0x0E03 then some (fieldAt params 0 2)
  else if op = 0x0205 then some (fieldAt params 4 2)
  else if op = 0x0301 ∧ bit (fieldAt params 0 1) 1 then some (fieldAt params 2 2)
  else none

/-- A command that has started reads or fills an object (R80). -/
def State.objBusy (s : State) (h : Nat) : Bool :=
  s.mgmt.slots.any fun x => x.cmds.any fun e => e.objs.contains h

/-- Some uncompleted command, started or not, reads or fills an object of the session of slot `i` (R62, R80). -/
def State.objHeld (s : State) (i h : Nat) : Bool :=
  s.objBusy h || (s.slot i).cmds.any fun e => decide (e.phase = .queued ∧ readsObject e.opcode e.params = some h)

/-- A session that is closing no longer holds a command, and its slot is free after the last (R61). -/
def State.leaveClosing (s : State) (i : Nat) (e : CmdEntry) : State :=
  s.setSlot i fun y =>
    let left := y.cmds.filter fun o => decide (o.tag ≠ e.tag)
    if left.isEmpty then Session.free else { y with cmds := left }

/-- The commands that run without a reply end with the outcomes that `f` gives their jobs (R63). -/
def State.endRunning (s : State) (f : Job → Option Final) : State :=
  (List.range s.mgmt.slots.length).foldl (init := s) fun s i =>
    ((s.slot i).cmds.filter fun e => decide (e.phase = .running)).foldl (init := s) fun s e =>
      match f e.job with
      | some r => if (s.slot i).st = .closing then s.leaveClosing i e else s.finishCmd i e 0 r
      | none => s

/-- A completion delivered (R64): cached and, with NOTIFY, sent; on a closing session it is discarded (R61). -/
def State.complete (s : State) (i : Nat) (e : CmdEntry) (f : Final) : State :=
  let x := s.slot i
  if x.st = .closing then s.leaveClosing i e
  else
    let s := s.setSlot i fun y =>
      { y with
        cmds := y.cmds.filter fun o => decide (o.tag ≠ e.tag)
        cache := (⟨e.tag, e.opcode, e.flags, f⟩ :: y.cache).take 64 }
    if flagNotify e.flags then s.sendOn i e.opcode e.tag e.flags 0x10 x.peer x.peerVlan f else s

end Sys2Proof.Machine
end

