-- ==== Sys2Proof/Machine/Bridges.lean ====
section
/-! DEFINITION. What every access to the store shares: the place of a byte (R209, R210), and the block code
with the error records (R219, R221, R222). -/

namespace Sys2Proof.Machine

/-! ## The place of a byte of a partition -/

/-- Its bridge: extent i of a partition lies on bridge i mod 4 (R210). -/
def addrBridge (a : Nat) : Nat := a / 2 ^ 30 % 4

/-- Its stack: blocks of 256 bytes run over the bridge's eight stacks in stack order (R209). -/
def addrStack (a : Nat) : Nat := 8 * addrBridge a + a / 256 % 8

/-! ## Back in service (R530) -/

/-- The FUNC_RESET commands that wait for a function complete, once it is back in service: a bridge when its link is up and its
stacks are zeroed (R530). -/
def State.endResets (s : State) (fid : Nat) : State :=
  if fid / 256 = 3 ∧ !((s.brg (fid % 256)).ready && s.linkUp (16 + fid % 256)) then s
  else s.endJobs (fun j => decide (j = .funcReset fid false)) ⟨stOk, 0, []⟩

/-! ## The block code (R219, R221, R222) -/

/-- An error record. -/
def ErrRec.encode (r : ErrRec) : List Byte :=
  beBytes 8 r.time ++ beBytes 1 r.stack ++ beBytes 1 r.pch ++ beBytes 1 r.bank ++ beBytes 1 r.kind ++ beBytes 3 r.row ++
    beBytes 1 r.part

/-- The code corrects one bad symbol of a block and no more: with two it tells that the block is bad. DESIGN CHOICE: with three
and more it does so too (log entry 72). -/
def symbolsLost (symbols : Nat) : Bool := decide (2 ≤ symbols)

/-- A block met with bad symbols: counted and recorded, as TYPE `kind` where it is corrected and `kind` + 1 where it is not;
an uncorrectable one raises its event. -/
def State.noteBlock (s : State) (kind stack part : Nat) (pch bank : Byte) (row : BitVec 24) (symbols : Nat) : State :=
  if symbols = 0 then s
  else
    let b := stack / 8
    let lost := symbolsLost symbols
    let r : ErrRec := ⟨s.now, stack, pch.toNat, bank.toNat, if lost then kind + 1 else kind, row.toNat, part⟩
    let s := s.setBrg b fun x => { x with errors := (r :: x.errors).take 1024 }
    if lost then (s.bump .brgEccUncorr [b]).raiseEv 0x9001 2 (fidBrg b) r.encode else s.bump .brgEccCorr [b]

/-- A stack of a bridge, where the place of a block on it is not settled. -/
def errOn (b : Nat) (e : BlockErr) : Nat := 8 * b + e.stack.toNat % 8

/-- The errors that an access to `n` blocks of a partition meets; `place` gives the stack of each. -/
def State.meet (s : State) (part n : Nat) (place : BlockErr → Nat) (met : List BlockErr) : State :=
  (met.filter fun e => decide (e.block < n)).foldl (init := s) fun s e =>
    s.noteBlock 1 (place e) part e.pch e.bank e.row e.symbols.val

/-- The blocks of an access to `n` that are uncorrectable. -/
def lostBlocks (n : Nat) (met : List BlockErr) : List Nat :=
  (met.filter fun e => decide (e.block < n) && symbolsLost e.symbols.val).map BlockErr.block

end Sys2Proof.Machine
end

