-- ==== Sys2Proof/Machine/Cells.lean ====
section
/-! DEFINITION. Cell headers (R98 to R101), the queues of a tile (R149 to R153) and the room in its Cellar slice
(R176 to R180, R184). -/

namespace Sys2Proof

/-! ## Header fields (R98) -/

def Cell.field (c : Cell) (hi lo : Nat) : Nat := c.hdr.toNat / 2 ^ lo % 2 ^ (hi + 1 - lo)
def Cell.epoch (c : Cell) : Nat := c.field 127 127
def Cell.cls (c : Cell) : Nat := c.field 126 124
def Cell.dpod (c : Cell) : Nat := c.field 123 115
def Cell.dep (c : Cell) : Nat := c.field 114 104
def Cell.spod (c : Cell) : Nat := c.field 103 95
def Cell.sep (c : Cell) : Nat := c.field 94 84
def Cell.ctx (c : Cell) : Nat := c.field 83 63
def Cell.chunk (c : Cell) : Nat := c.field 62 47
def Cell.fmt (c : Cell) : Nat := c.field 46 44
def Cell.member (c : Cell) : Nat := c.field 43 33
def Cell.last (c : Cell) : Bool := c.field 32 32 = 1
def Cell.aux (c : Cell) : Nat := c.field 31 0

/-- The header with EPOCH replaced. -/
def Cell.setEpoch (c : Cell) (g : Nat) : Cell :=
  { c with hdr := BitVec.ofNat 128 (c.hdr.toNat % 2 ^ 127 + g % 2 * 2 ^ 127) }

/-- Byte `i` of the payload. -/
def Cell.payByte (c : Cell) (i : Nat) : Byte := BitVec.ofNat 8 (c.pay.toNat / 256 ^ (63 - i))

/-- Bytes of the payload. -/
def Cell.payBytes (c : Cell) (off n : Nat) : List Byte := (Machine.rangeFrom off n).map c.payByte

/-- A number in the payload, most significant byte first. -/
def Cell.payNat (c : Cell) (off n : Nat) : Nat := c.pay.toNat / 256 ^ (64 - off - n) % 256 ^ n

end Sys2Proof

namespace Sys2Proof.Machine

/-- A header from its fields. -/
def mkHdr (epoch cls dpod dep spod sep ctx chunk fmt member last aux : Nat) : BitVec 128 :=
  BitVec.ofNat 128 (((((((((((epoch * 8 + cls) * 512 + dpod) * 2048 + dep) * 512 + spod) * 2048 + sep) * 2 ^ 21 + ctx)
    * 2 ^ 16 + chunk) * 8 + fmt) * 2048 + member) * 2 + last) * 2 ^ 32 + aux)

/-- A payload from bytes, padded with zeros. -/
def mkPay (bs : List Byte) : BitVec 512 := BitVec.ofNat 512 (beNat (padTo 64 bs))

/-- Classes (R99). -/
def clsSched : Nat := 0
def clsCup : Nat := 1
def clsCdn : Nat := 2
def clsFreq : Nat := 3
def clsFrsp : Nat := 4
def clsCode : Nat := 5
def clsOrd : Nat := 6
def clsCtrl : Nat := 7

/-- The length a cell is charged as: 80 bytes on the link (R274 for C-mode). -/
def cellBytes : Nat := 80

/-! ## Layouts and ports (R95, R96, R131, R631) -/

def State.fibre (s : State) (f : Nat) : FibreSt := s.fibres.getD f FibreSt.init
def State.setFibre (s : State) (f : Nat) (g : FibreSt → FibreSt) : State :=
  { s with fibres := s.fibres.modD f FibreSt.init g }
def State.port (s : State) (p : Nat) : PortSt := s.ports.getD p PortSt.init
def State.setPort (s : State) (p : Nat) (g : PortSt → PortSt) : State :=
  { s with ports := s.ports.modD p PortSt.init g }
def State.lane (s : State) (l : Nat) : LaneSt := s.lanes.getD l LaneSt.init
def State.setLane (s : State) (l : Nat) (g : LaneSt → LaneSt) : State :=
  { s with lanes := s.lanes.modD l LaneSt.init g }

/-- The wiring entry of a fibre; with no plan every fibre counts as STATE = 0 (R35). -/
def State.entry (s : State) (f : Nat) : WireEntry :=
  match s.plan with
  | some p => p.wiring.getD f WireEntry.unused
  | none => WireEntry.unused

/-- A LAYOUT with no reserved bit set (R95). -/
def layoutLegal (l : Nat) : Bool := decide (l < 256 ∧ l % 32 = 0)
/-- C-mode. -/
def layoutC (l : Nat) : Bool := decide (128 ≤ l)
/-- The width of the ports of a layout. -/
def layoutWidth (l : Nat) : Nat := 2 ^ (l / 32 % 4)

/-- The LAYOUT that governs a fibre (R96). -/
def State.layout (s : State) (f : Nat) : Option Nat :=
  if (s.entry f).state = 1 then some (s.entry f).layout else (s.fibre f).layout

/-- Width and mode of the ports of a fibre; a fibre with no layout has none. -/
def State.widthAt (s : State) (l : Nat) : Nat := ((s.layout (fibreOf l)).map layoutWidth).getD 1
def State.isC (s : State) (l : Nat) : Bool := ((s.layout (fibreOf l)).map layoutC).getD false

/-- The lane is the first of a configured port (R631). -/
def State.configured (s : State) (l : Nat) : Bool :=
  decide (l < 2048) && (s.layout (fibreOf l)).isSome && decide (l % s.widthAt l = 0)

/-- The first lane of the configured port that holds a lane. -/
def State.portOf (s : State) (l : Nat) : Nat := portBase l (s.widthAt l)

/-- The first lanes of the configured ports of a fibre. -/
def State.portsOf (s : State) (f : Nat) : List Nat :=
  match s.layout f with
  | none => []
  | some l => (List.range (8 / layoutWidth l)).map fun i => 8 * f + i * layoutWidth l

/-- A port that stays formed (R631). -/
def PState.formed : PState → Bool
  | .up => true
  | .quarantined => true
  | .retraining => true
  | _ => false

/-- A port that carries cells. -/
def PState.running : PState → Bool
  | .up => true
  | .quarantined => true
  | _ => false

def State.portUp (s : State) (p : Nat) : Bool := decide ((s.port p).st = .up)

/-! ## Queues -/

def State.tile (s : State) (t : Nat) : TileSt := s.tiles.getD t TileSt.init
def State.setTile (s : State) (t : Nat) (g : TileSt → TileSt) : State := { s with tiles := s.tiles.modD t TileSt.init g }

def State.queue (s : State) (k : Nat) : List QCell := s.queues.getD k []
def State.setQueue (s : State) (k : Nat) (q : List QCell) : State := { s with queues := s.queues.setD k [] q }
def State.under (s : State) (k : Nat) : List QCell := s.undertow.getD k []
def State.setUnder (s : State) (k : Nat) (q : List QCell) : State := { s with undertow := s.undertow.setD k [] q }

/-- Cells of a queue, in the Cellar and in Undertow. -/
def State.depth (s : State) (k : Nat) : Nat := (s.queue k).length + (s.under k).length

/-- Now. -/
def State.stampNow (s : State) : Stamp := ⟨s.now, s.time.p⟩

/-- A cell that entered the part at a moment (R188). -/
def cellAt (at_ : Stamp) (c : Cell) (src : CellSrc) : QCell :=
  { cell := c, src := src, time := at_.free, ptp := at_.ptp, limit := 0, outs := [], marked := false, slot := none, since := 0,
    frame := 0, last := false, tail := 0, bank := none, lost := false, home := 0, fill := 0 }

/-- A cell that enters the part now. -/
def State.newCell (s : State) (c : Cell) (src : CellSrc) : QCell := cellAt s.stampNow c src

/-- The egress queue of a port and class. -/
def eqKey (p c : Nat) : Nat := qKey (tileOf p) (qEq (slotOf p) c)

/-- The queue keys of a tile's virtual output queues and multicast queues that list cells in the Cellar. -/
def State.voqKeys (s : State) (t : Nat) : List Nat :=
  (s.queues.map (·.1)).filter fun k => decide (k / 4096 = t ∧ k % 4096 < 1024)

/-- The class of a virtual output, multicast, egress or slice queue. -/
def qClass (k : Nat) : Nat := k % 8

/-- count_c: cells of a class in the Cellar part of the virtual output and multicast queues (R180). -/
def State.countC (s : State) (t c : Nat) : Nat :=
  (((s.voqKeys t).filter fun k => decide (qClass k = c)).map fun k => (s.queue k).length).sum

/-- Cells of the early pool (R178). -/
def earlyPool : Nat := 13107

/-- Cell slots of a packet buffer of `m` MiB (R176). -/
def pktSlots (m : Nat) : Nat := m * 1048576 / 80

/-- Cells carved for the landing of a tile's ports. -/
def State.landingOf (s : State) (t : Nat) : Nat :=
  ((s.ports.filter fun p => decide (p.1 / 32 = t)).map fun p => p.2.landing).sum

/-- The shared pool of a slice (R178). -/
def State.sharedPool (s : State) (t : Nat) : Nat :=
  pktSlots (s.tile t).pktMib - earlyPool - (s.tile t).pool - (s.tile t).reserves.sum - s.landingOf t

/-- Cells of the shared pool in use: those of each class beyond its reserve. -/
def State.sharedUsed (s : State) (t : Nat) : Nat :=
  ((List.range 8).map fun c => s.countC t c - (s.tile t).reserves.getD c 0).sum

/-- F (R180). -/
def State.freeF (s : State) (t : Nat) : Nat := s.sharedPool t - s.sharedUsed t

/-- A queue of ORD cells of which those at the head that belong to aborted frames go; committed cells are passed over. Answers
the cells kept and the cells discarded. -/
def clearAborted (aborted : List Nat) : List QCell → List QCell × List QCell
  | [] => ([], [])
  | q :: rest =>
    if q.slot.isSome then
      let (keep, gone) := clearAborted aborted rest
      (q :: keep, gone)
    else if aborted.contains q.frame then
      let (keep, gone) := clearAborted aborted rest
      (keep, q :: gone)
    else (q :: rest, [])

/-- The spilling state as the shared pool's use now puts it (R193, R197). -/
def State.spillJudge (s : State) (t : Nat) : State :=
  let used := s.sharedUsed t * 100
  let size := s.sharedPool t
  let on := s.regBits .bufSpill [] 7 0
  let off := s.regBits .bufSpill [] 15 8
  if s.regBits .bufSpill [] 16 16 = 1 then s.setTile t fun x => { x with spilling := false }
  else if on * size ≤ used then s.setTile t fun x => { x with spilling := true }
  else if used ≤ off * size then s.setTile t fun x => { x with spilling := false }
  else s

/-- Cells of a super-cell (R154). -/
def superCells : Nat := 64

/-- The egress-pool cells of a tile that grants reserve (R184), and those that cells with more targets than one wait for. -/
def State.reserved (s : State) (d : Nat) : Nat :=
  ((s.xbar.late.filter fun c => decide (c.1 = d)).map fun c => c.2.outs.length).sum +
  (s.xbar.inflight.map fun m =>
    match m.moved with
    | some cs => (cs.filter fun c => decide (c.1 = d)).length
    | none => superCells * (m.pairs.filter fun p => decide (p.output = d)).length).sum

/-- Cells in a tile's egress queues and slice input. -/
def State.egressUsed (s : State) (t : Nat) : Nat :=
  ((s.queues.filter fun p => decide (p.1 / 4096 = t ∧ 1024 ≤ p.1 % 4096)).map fun p => p.2.length).sum

/-- A cell of a class leaves the ingress buffer of a C-mode port: the limit rises by one (R115). -/
def State.creditPort (s : State) (p c : Nat) : State :=
  let x := s.port p
  if !x.st.formed ∨ c = clsCdn ∨ (x.st = .quarantined ∧ c ≠ clsCtrl) then s
  else s.setPort p fun x => { x with limitOut := modAt x.limitOut c fun v => (v + 1) % 65536 }

/-- The credit of a cell that leaves the landing. -/
def State.credit (s : State) (q : QCell) : State :=
  match q.src with
  | .cMode p => s.creditPort p q.cls
  | _ => s

/-- A dropped or discarded cell counts in DROPS of the port that it came in on (R575). -/
def State.countDrop (s : State) (p c : Nat) : State := s.csAdd 1 p (5 * c + 4) 1

/-- The same for a cell inside the part; a generated cell came in on no port. -/
def State.dropCell (s : State) (q : QCell) : State :=
  match q.src with
  | .cMode p => s.countDrop p q.cls
  | .gone p => s.countDrop p q.cls
  | .eMode p => s.countDrop p q.cls
  | .generated => s

def State.dropCells (s : State) (qs : List QCell) : State := qs.foldl State.dropCell s

/-- DC_c of a port. -/
def State.dcOf (s : State) (p c : Nat) : Int := s.tc.dc.getD (8 * p + c) 0
def State.setDc (s : State) (p c : Nat) (v : Int) : State :=
  { s with tc := { s.tc with dc := s.tc.dc.setD (8 * p + c) 0 v } }

/-- A queue that has become empty: DC_c is 0, unless it is negative (R278). -/
def State.settleDc (s : State) (p c : Nat) : State :=
  if (s.queue (eqKey p c)).isEmpty ∧ 0 < s.dcOf p c then s.setDc p c 0 else s

/-- The same by the key of a queue, where that is an egress queue. -/
def State.settleKey (s : State) (k : Nat) : State :=
  let i := k % 4096
  if 1024 ≤ i ∧ i < 2048 then s.settleDc (k / 4096 * 32 + (i - 1024) / 8) (i % 8) else s

/-- The cells of aborted frames at the head of a queue are discarded (R183). DEDUCED: its head is its first cell that no matching
has committed (log entry 70). -/
def State.clearHead (s : State) (k : Nat) : State :=
  if qClass k = clsOrd ∧ k % 4096 < 2048 then
    let (keep, gone) := clearAborted s.frames.aborted (s.queue k)
    if gone.isEmpty then s else (((s.setQueue k keep).dropCells gone).spillJudge (k / 4096)).settleKey k
  else s

/-- Set 3 (R575): an item of a class of a tile. Items: 0 ADMITTED, 1 ADM_DROPS, 2 PUSHOUTS, 3 AGE_DROPS, 4 SPILLED. -/
def State.countClass (s : State) (t c item n : Nat) : State := s.csAdd 3 t (5 * c + item) n

/-- Set 2 (R575): an egress queue takes a cell, and its PEAK follows; the index of queue (k, c) of a tile is 8 p + c. -/
def State.countEnq (s : State) (p c depth : Nat) : State :=
  let s := s.csAdd 2 (8 * p + c) 0 1
  let peak (v : BitVec 64) : BitVec 64 := BitVec.ofNat 64 (max v.toNat depth)
  { s with tel := { s.tel with sets := s.tel.sets.modD (csKey 2 (8 * p + c) 2) 0 peak } }

/-- Set 2: an egress queue gives a cell for transmission. -/
def State.countDeq (s : State) (p c : Nat) : State := s.csAdd 2 (8 * p + c) 1 1

/-- Discard the egress queues of a port, for the classes that `sel` picks; the number of cells discarded. DESIGN CHOICE: a queued
frame counts once for each of its cells (log entry 66). -/
def State.flushEgress (s : State) (p : Nat) (sel : Nat → Bool) : State × Nat :=
  (List.range 8).foldl (init := (s, 0)) fun (s, n) c =>
    if sel c then
      let k := qKey (tileOf p) (qEq (slotOf p) c)
      ((s.setQueue k []).dropCells (s.queue k), n + (s.queue k).length)
    else (s, n)

/-- Discard the egress queues of a port that leaves UP and QUARANTINED, counted class by class (R184). -/
def State.flushAdm (s : State) (p : Nat) : State :=
  (List.range 8).foldl (init := s) fun s c =>
    let k := qKey (tileOf p) (qEq (slotOf p) c)
    let n := (s.queue k).length
    (((s.setQueue k []).bumpBy .tileAdmDrops [tileOf p, c] n).countClass (tileOf p) c 1 n).dropCells (s.queue k)

end Sys2Proof.Machine
end

