-- ==== Sys2Proof/Machine/Contexts.lean ====
section
/-! DEFINITION. Groups and contexts (R347 to R361), the cells that Estuary makes (R361, R367, R372) and the end of a
context (R374, R378, R404, R431). -/

namespace Sys2Proof.Machine

/-! ## Access -/

def State.ctx (s : State) (x : Nat) : Option Ctx := s.est.ctxs.find x
def State.putCtx (s : State) (x : Nat) (c : Ctx) : State := { s with est := { s.est with ctxs := s.est.ctxs.put x c } }
def State.modCtx (s : State) (x : Nat) (f : Ctx → Ctx) : State :=
  { s with est := { s.est with ctxs := s.est.ctxs.upd x f } }
def State.slice (s : State) (t : Nat) : Slice := s.est.slices.getD t Slice.init
def State.setSlice (s : State) (t : Nat) (f : Slice → Slice) : State :=
  { s with est := { s.est with slices := s.est.slices.modD t Slice.init f } }

def Ctx.member (c : Ctx) (m : Nat) : MemberSt := c.members.getD m MemberSt.init
def Ctx.setMember (c : Ctx) (m : Nat) (f : MemberSt → MemberSt) : Ctx :=
  { c with members := c.members.modD m MemberSt.init f }

/-! ## The descriptor (R358, R422) -/

/-- Bytes of a descriptor. -/
def dNat (d : BitVec 512) (off n : Nat) : Nat := d.toNat / 256 ^ (64 - off - n) % 256 ^ n
def dType (d : BitVec 512) : Nat := dNat d 1 1 / 16
def dArith (d : BitVec 512) : Nat := dNat d 2 2
def dN (d : BitVec 512) : Nat := dNat d 4 4
def dRoot (d : BitVec 512) : Nat := dNat d 8 2
def dWlog (d : BitVec 512) : Nat := dNat d 10 1
def dSpan (d : BitVec 512) : Nat := dNat d 11 1
def dTimeout (d : BitVec 512) : Nat := dNat d 12 4
def dShare (d : BitVec 512) : Nat := dNat d 16 2
def dTrigCtr (d : BitVec 512) : Nat := dNat d 18 2
def dFlag (d : BitVec 512) (i : Nat) : Bool := bit (dNat d 20 1) i
def dGroup (d : BitVec 512) : Nat := dNat d 22 2
def dRound (d : BitVec 512) : Nat := dNat d 32 2
def dPct (d : BitVec 512) : Nat := dNat d 34 1
def dUnit (d : BitVec 512) : Nat := dNat d 32 4
def dOffset (d : BitVec 512) : Nat := dNat d 36 2
def dSenders (d : BitVec 512) : Nat := dNat d 38 4
def dLostCount (d : BitVec 512) : Nat := dNat d 42 1
def dLost (d : BitVec 512) : List Nat :=
  if dType d = 10 then (if dLostCount d = 2 then [dNat d 43 1, dNat d 44 1] else [dNat d 43 1]) else []
def dRepl (d : BitVec 512) (j : Nat) : Nat := dNat d (46 + 4 * j) 4

/-- The types that reduce with ARITH. -/
def typeReduces (t : Nat) : Bool := decide (t ≤ 2)
def typeParity (t : Nat) : Bool := decide (8 ≤ t ∧ t ≤ 10)
def typeA2a (t : Nat) : Bool := decide (t = 6 ∨ t = 7)

def Ctx.type (c : Ctx) : Nat := dType c.desc

/-- CH (R358, R422). -/
def chunkCount (d : BitVec 512) (m : Nat) : Nat :=
  let t := dType d
  if typeReduces t then (dN d + fmtElems (arIn (dArith d)) - 1) / fmtElems (arIn (dArith d))
  else if t = 3 ∨ t = 4 then (dN d + 63) / 64
  else if t = 5 then 1
  else if t = 6 then 0
  else if t = 7 then (m + 15) / 16
  else if t = 11 then (dN d + 15) / 16
  else dN d

def Ctx.ch (c : Ctx) : Nat := chunkCount c.desc c.m

/-- W: the window of a reducing or parity context, 0 for the others. -/
def window (d : BitVec 512) : Nat :=
  if typeReduces (dType d) then 2 ^ dWlog d else if typeParity (dType d) then 256 else 0

def Ctx.w (c : Ctx) : Nat := window c.desc

/-- The SPAN a context needs (R354, R424). -/
def spanNeed (d : BitVec 512) (m : Nat) : Nat :=
  let t := dType d
  if typeReduces t then (512 + 48 * m + 2 ^ dWlog d * (chunkBytes (arIn (dArith d)) + 16) + 32767) / 32768
  else if t = 9 then 1
  else if typeParity t then 2
  else if t = 11 then 1
  else (512 + 48 * m + 32767) / 32768

/-! ## Who owns a number (R349 to R352, R415) -/

/-- The Estuary group whose range holds a number. -/
def State.groupAt (s : State) (n : Nat) : Option (Nat × Group) :=
  s.est.groups.find? fun g => decide (g.2.base ≤ n ∧ n < g.2.base + g.2.count)

/-- The coding group whose range holds a number. -/
def State.codingAt (s : State) (n : Nat) : Option (Nat × Coding) :=
  s.bwk.groups.find? fun g => decide (g.2.base ≤ n ∧ n < g.2.base + g.2.count)

/-- The context that is not FREE and holds a number. -/
def State.owner (s : State) (n : Nat) : Option (Nat × Ctx) :=
  s.est.ctxs.find? fun c => decide (c.2.st ≠ .free ∧ c.1 ≤ n ∧ n < c.1 + c.2.span)

/-- The number is SPANNED: part of another context, or a home record. -/
def State.spanned (s : State) (n : Nat) : Bool :=
  (match s.owner n with
    | some (x, _) => decide (x ≠ n)
    | none => false) ||
  (match s.codingAt n with
    | some (_, g) => decide (g.base = n)
    | none => false)

/-- The number is FREE. -/
def State.numFree (s : State) (n : Nat) : Bool := (s.owner n).isNone && !s.spanned n

/-- Member records of a group that a range belongs to: coding or Estuary, number, M, records, base, count. -/
structure Owner where
  coding : Bool
  number : Nat
  m : Nat
  records : List Word
  base : Nat
  count : Nat
  destroying : Bool

def State.rangeOwner (s : State) (n : Nat) : Option Owner :=
  match s.groupAt n with
  | some (i, g) => some ⟨false, i, g.m, g.records, g.base, g.count, g.destroying.isSome⟩
  | none =>
    match s.codingAt n with
    | some (i, g) => some ⟨true, i, g.k, g.records, g.base, g.count, g.destroying.isSome⟩
    | none => none

/-- A member's record. -/
def Owner.record (o : Owner) (m : Nat) : Nat := (o.records.getD m 0).toNat
def recAddr (r : Nat) : Nat := r % 2 ^ 20
def recPortW (r : Nat) : Nat := r / 2 ^ 29
def recExcluded (r : Nat) : Bool := bit r 28

/-- The fibre wired to a pod (R350, R367). -/
def State.podFibre (s : State) (pod : Nat) : Option Nat :=
  match s.plan with
  | none => none
  | some p => (p.wiring.find? fun e => decide (e.2.state = 1 ∧ e.2.pod = pod)).map (·.1)

/-- The first lane of the port that a record names. -/
def State.recLane (s : State) (r : Nat) : Option Nat := (s.podFibre (recAddr r / 2048)).map fun f => 8 * f + recPortW r

/-- That port, where it is UP. -/
def State.recPort (s : State) (r : Nat) : Option Nat := (s.recLane r).filter s.portUp

/-- Members that are not excluded, or the active positions of R422. -/
def Ctx.activeMembers (c : Ctx) : List Nat :=
  (List.range c.m).filter fun i =>
    !(c.member i).excluded &&
      (if c.type = 9 then bit (dSenders c.desc) i else if c.type = 10 then !(dLost c.desc).contains i else true)

/-- The context whose records a number shows: the one that holds it, or the last that did (R405). -/
def State.queried (s : State) (n : Nat) : Option (Nat × Ctx) :=
  match s.owner n with
  | some c => some c
  | none =>
    (s.est.ctxs.filter fun c => decide (c.1 ≤ n ∧ n < c.1 + c.2.span)).foldl (init := none) fun b c =>
      match b with
      | none => some c
      | some o => if o.2.openedAt ≤ c.2.openedAt then some c else some o

/-! ## Cells that Estuary makes -/

/-- The moment of the free-running counter, to the nanosecond, at which PTP time reaches `p` ns, under the OFFSET and RATE in
force (R306). It may be past. -/
def State.freeAt (s : State) (p : Nat) : Nat :=
  let d : Int := (p * 2 ^ 40 : Nat) - (s.time.p : Int)
  ((s.now : Int) - -d / ((2 ^ 40 : Nat) + s.time.rateUnits)).toNat

/-- The age limit BUF_AGE_c from a moment (R203). -/
def State.ageFrom (s : State) (c from_ : Nat) : Nat := from_ + s.regBits .bufAge [c] 23 0 * 1000

/-- A generated cell offered to stage 4 of a tile (R144). The cells of results carry the opening time of their context as
`frame`, which tells them from those of another context of that number. -/
def State.emit (s : State) (t : Nat) (hdr : BitVec 128) (pay : BitVec 512) (outs : List OutTarget) (limit : Nat)
    (frame : Nat := 0) : State :=
  s.setTile t fun x => { x with looked := x.looked ++
    [{ s.newCell ⟨hdr, pay⟩ .generated with outs := outs, limit := limit, frame := frame }] }

/-- INCARNATION[19:11] and [10:0]. -/
def State.incHi (s : State) : Nat := s.boot.incarnation.toNat / 2048 % 512
def State.incLo (s : State) : Nat := s.boot.incarnation.toNat % 2048

/-- The group of a context. -/
def State.ownerOf (s : State) (c : Ctx) : Option Owner :=
  if c.coding then (s.bwk.groups.find c.group).map fun g => ⟨true, c.group, g.k, g.records, g.base, g.count, g.destroying.isSome⟩
  else (s.est.groups.find c.group).map fun g => ⟨false, c.group, g.m, g.records, g.base, g.count, g.destroying.isSome⟩

/-- The record of a member of a context. -/
def State.memberRec (s : State) (c : Ctx) (m : Nat) : Nat :=
  match s.ownerOf c with
  | some o => o.record m
  | none => 0

/-- A CTRL cell to one member, through the port of its record; `lost` counts it where that port is not UP. -/
def State.sendCtrl (s : State) (x : Nat) (c : Ctx) (m chunk last aux : Nat) (pay : BitVec 512) (lost : State → State) :
    State :=
  let r := s.memberRec c m
  match s.recPort r with
  | none => lost s
  | some p =>
    s.emit (homeOf x 0)
      (mkHdr 0 clsCtrl (recAddr r / 2048) (recAddr r % 2048) s.incHi s.incLo x chunk 0 m last aux) pay [.port p]
      (s.ageFrom clsCtrl s.now)

/-- Sets 4 and 5 (R575): an item of a context number, and one of the group of a context. -/
def State.countCtx (s : State) (x item n : Nat) : State := s.csAdd 4 x item n
def State.countGroup (s : State) (c : Ctx) (item n : Nat) : State := if c.coding then s else s.csAdd 5 c.group item n

/-- Cells that no UP port could take, counted in an EST counter and in DROPS of the context's group (R575). -/
def State.noPort (s : State) (r : Reg) (c : Ctx) (n : Nat) : State := (s.bumpBy r [] n).countGroup c 7 n

/-- An OPEN cell to a member (R361, R390), with the state and reason that the cell carries. -/
def State.sendOpen (s : State) (x : Nat) (c : Ctx) (m : Nat) (st : CtxState) (reason off : Nat) : State :=
  s.sendCtrl x c m 0 0 (0x01000000 + st.code * 65536 + reason * 256 + off)
    (mkPay (beBytes 4 c.incarnation.toNat ++ beBytes 8 c.deadlinePtp)) fun s => s.noPort .estMissingNoPort c 1

/-- A drop that an EST counter counts, with DROPS of its group and of its port (R575). -/
def State.estDrop (s : State) (r : Reg) (q : QCell) : State :=
  let s := (s.bump r []).dropCell q
  match s.groupAt q.cell.ctx with
  | some (g, _) => s.csAdd 5 g 7 1
  | none => s

/-- What a context's end counts: DONE or NOT_DONE of its number, and the item of its group. -/
def State.countEnd (s : State) (x : Nat) (c : Ctx) (st : CtxState) : State :=
  let s := s.countCtx x (if st = .done then 1 else 2) 1
  s.countGroup c (if st = .done then 1 else if st = .partialEnd then 2 else if st = .aborted then 3 else 4) 1

/-- The copies of a result that have an UP port to leave through, for some members (R367). -/
def State.copiesTo (s : State) (c : Ctx) (ms : List Nat) : List OutTarget :=
  ms.filterMap fun m =>
    let r := s.memberRec c m
    (s.recPort r).map fun l => OutTarget.copy l (recAddr r)

/-- Copies of a result for members (R367): the ones whose port is not UP are counted. -/
def State.sendResult (s : State) (x : Nat) (c : Ctx) (t : Nat) (ms : List Nat) (chunk fmt member last aux : Nat)
    (pay : BitVec 512) : State :=
  let outs := s.copiesTo c ms
  let s := s.noPort .estResultNoPort c (ms.length - outs.length)
  let s := (s.countCtx x 4 outs.length).countGroup c 6 outs.length
  if outs.isEmpty then s
  else
    s.emit t (mkHdr 0 clsCdn 0 0 s.incHi s.incLo x chunk fmt member last aux) pay outs
      (max c.deadline (s.ageFrom clsCdn s.now)) c.openedAt

/-- The chunk of a context has result cells that wait to be handed to stage 4: `n` more (R406). -/
def Ctx.await (c : Ctx) (chunk n : Nat) : Ctx := { c with handing := c.handing.modD chunk 0 (· + n) }

/-- The key under which a cell of a context shares (R377): coding groups stand behind the others (R416), and cells of no group
have one key. -/
def State.shareKey (s : State) (x : Nat) : Nat :=
  match s.rangeOwner x with
  | some o => if o.coding then 8192 + o.number else o.number
  | none => 16384

/-- The key under which a held cell of the slice shares (R377, R416): that of its context's group. A cell of no group, or of
another maker than the slice, comes first. -/
def State.cellGroup (s : State) (q : QCell) : Option Nat :=
  if q.cls = clsCdn ∨ q.cls = clsCtrl ∨ q.cls = clsCode then (some (s.shareKey q.cell.ctx)).filter fun k => decide (k ≠ 16384) else none

/-- The deficit of a group with no cells waiting is 0 (R377). -/
def Sharing.rest (h : Sharing) (waiting : List Nat) : Sharing :=
  { h with deficit := h.deficit.filter fun d => waiting.contains d.1 }

/-- The deficits of a slice once cells that waited there have gone. -/
def State.restShares (s : State) (t : Nat) : State :=
  let at_ (c : Nat) : List Nat := (s.queue (qKey t (qEst c))).map fun q => s.shareKey q.cell.ctx
  s.setSlice t fun v => { v with
    cup := v.cup.rest (at_ clsCup), code := v.code.rest (at_ clsCode), out := v.out.rest ((s.tile t).held.filterMap s.cellGroup) }

/-- A result cell of a context that still waits to be handed to stage 4 (R181). -/
def Ctx.ownResult (c : Ctx) (x : Nat) (q : QCell) : Bool :=
  decide (q.src = .generated ∧ q.cls = clsCdn ∧ q.cell.ctx = x ∧ q.frame = c.openedAt)

/-- A context passes on the cells of its members: what it accepted is forwarded (R368, R406). -/
def Ctx.copies (c : Ctx) : Bool := decide (c.type = 3 ∨ c.type = 4)

/-- The result cells of a context that its end keeps from stage 4: of an ABORTED one every cell (R399), and else those of its
chunks that are not complete (R386). An accepted chunk of ALLGATHER or BROADCAST goes on (R406). -/
def State.recall (s : State) (x : Nat) (c : Ctx) (st : CtxState) : State :=
  if st = .done then s
  else
    let keep (q : QCell) : Bool :=
      !(c.ownResult x q && !c.copies && (decide (st = .aborted) || (c.handing.find q.cell.chunk).isSome))
    (s.tiles.map (·.1)).foldl (init := s) fun s t =>
      (s.setTile t fun y => { y with looked := y.looked.filter keep, held := y.held.filter keep }).restShares t

/-- The pins of a context's header taken out of every slice (R356). -/
def State.unpin (s : State) (x : Nat) : State :=
  (s.est.slices.map (·.1)).foldl (fun s t => s.setSlice t fun v => { v with pins := v.pins.del x }) s

/-- The Δs of a context that no bridge has applied, dropped. DESIGN CHOICE: its end drops them (log entry 74). -/
def State.dropDeltas (s : State) (x : Nat) : State :=
  { s with bwk := { s.bwk with deltas := s.bwk.deltas.filterMap fun e =>
    let l := e.2.filter fun d => decide (d.ctx ≠ x)
    if l.isEmpty then none else some (e.1, l) } }

/-! ## The end of a context -/

/-- Trigger counter `i` raised by one (R373, R374). -/
def State.trigBump (s : State) (i : Nat) : State :=
  { s with est := { s.est with counters := s.est.counters.modD i 0 fun v => satAdd v 1 } }

/-- The Ebb bin of a lateness in ns (R378). -/
def ebbBin (l : Nat) : Nat := if l < 1000 then 0 else min 15 (Nat.log2 (l / 1000) + 1)

/-- The Ebb record of a context that ended DONE (R378). -/
def State.ebb (s : State) (x : Nat) (c : Ctx) : State :=
  if c.coding ∨ !([0, 1, 2, 3, 5, 7].contains c.type) then s
  else
    let fs := c.activeMembers.map fun m => (m, (c.member m).finish)
    match fs with
    | [] => s
    | f0 :: rest =>
      let late := rest.foldl (fun b f => if b.2 < f.2 then f else b) f0
      let early := rest.foldl (fun b f => min b f.2) f0.2
      let l := late.2 - early
      let s := s.modCtx x fun c => { c with lastMember := some late.1, lateness := l }
      { s with est := { s.est with groups := s.est.groups.upd c.group fun g =>
        { g with
          recorded := min (g.recorded + 1) (2 ^ 32 - 1)
          hist := g.hist.modD (ebbBin l) 0 fun v => satAdd v 1
          lastCount := g.lastCount.modD late.1 0 fun v => satAdd v 1
          lateSum := g.lateSum.modD late.1 0 fun v => satAdd v l } } }

/-- The state of a unit. -/
def Coding.unit (g : Coding) (u : Nat) : UnitState := g.units.getD u .empty

/-- What the end of a parity context does to its unit (R431). -/
def State.endUnit (s : State) (c : Ctx) (st : CtxState) : State :=
  match s.bwk.groups.find c.group with
  | none => s
  | some g =>
    let u := dUnit c.desc
    let old := g.unit u
    let new :=
      if c.type = 8 then (if st = .done then .current else if old = .damaged then .damaged else .stale)
      else if c.type = 9 then (if (st = .partialEnd ∨ st = .aborted) ∧ old = .current then .stale else old)
      else old
    let s := { s with bwk := { s.bwk with groups := s.bwk.groups.put c.group { g with units := g.units.setD u .empty new } } }
    let s := if c.type = 8 ∧ st = .done then s.bump .bwkUnitsEncoded [] else s
    if new = .stale ∧ old ≠ .stale then s.bump .bwkStale [] else s

/-- The early cells of a context, in every tile, discarded and counted late (R362). -/
def State.dropEarly (s : State) (x : Nat) : State :=
  let gone := s.est.slices.flatMap fun e => e.2.early.filter fun q => decide (q.cell.ctx = x)
  let slices : AMap Slice := s.est.slices.filterMap fun e =>
    let v : Slice := { e.2 with early := e.2.early.filter fun q => decide (q.cell.ctx ≠ x) }
    if v = Slice.init then none else some (e.1, v)
  gone.foldl (fun s q => s.estDrop .estLateDrops q) ({ s with est := { s.est with slices := slices } } : State)

/-- An OPENING or ACTIVE context ends (R404): partial chunks are discarded, held results stay unless it is ABORTED. -/
def State.endCtx (s : State) (x : Nat) (st : CtxState) (reason off : Nat) : State :=
  match s.ctx x with
  | none => s
  | some c =>
    if !c.st.live then s
    else
      let s := s.putCtx x { c with
        st := st, reason := reason, failOff := off, endedAt := s.now, current := none, nextRound := none,
        lingerEnd := s.now + s.regBits .estConfig [] 31 16 * 1000, handing := [],
        chunks := if st = .aborted then [] else c.chunks.filter fun k => k.2.done }
      let s := (if st = .aborted then s.bump .estAborts [] else s).countEnd x c st
      let s := if reason = 16 then s.bump .estTimeouts [] else s
      let s := if st = .done then s.ebb x c else s
      let s := if typeParity c.type then s.endUnit c st else s
      let s := (((s.dropEarly x).dropDeltas x).unpin x).recall x c st
      let s := if st = .failed ∨ typeParity c.type then
          ((List.range c.m).filter fun m => (c.member m).opened).foldl (fun s m => s.sendOpen x c m st reason off) s
        else s
      if dFlag c.desc 0 ∧ (st = .done ∨ (st = .partialEnd ∧ dFlag c.desc 1)) then s.trigBump (dTrigCtr c.desc) else s

/-! ## Storage of contexts -/

/-- Bytes of the STAGING partition. -/
def State.stagingBytes (s : State) : Nat := s.mem.sizes.getD 3 0 * 2 ^ 30

/-- The matrices in STAGING: offset and bytes of each. They lie behind the 512 MiB of the objects. -/
def State.matrices (s : State) : List (Nat × Nat) :=
  s.est.ctxs.filterMap fun e => if e.2.st = .free then none else e.2.staging.map fun o => (o, e.2.m * e.2.m * 4)

/-- A place for a matrix: the lowest free one behind the objects or behind another matrix. -/
def State.placeMatrix (s : State) (n : Nat) : Option Nat :=
  let fits (o : Nat) := decide (o + n ≤ s.stagingBytes) && s.matrices.all fun r => decide (r.1 + r.2 ≤ o ∨ o + n ≤ r.1)
  (536870912 :: s.matrices.map fun r => r.1 + r.2).foldl (init := none) fun best o =>
    if fits o then (match best with
      | some b => some (min b o)
      | none => some o) else best

end Sys2Proof.Machine
end

