-- ==== Sys2Proof/Machine/Cache.lean ====
section
/-! DEFINITION. The context caches of the slices: where the lines of a record lie, which may leave a cache, and what the loss of
one does (R215 to R218, R223, R353, R356, R401, R437). -/

namespace Sys2Proof.Machine

/-! ## Lines -/

/-- Lines of a tile's context cache; 64 where it has none (R217). -/
def State.cacheLines (s : State) (t : Nat) : Nat :=
  let mib := 24 - (s.tile t).pktMib
  if mib = 0 then 64 else mib * 2048

/-- The byte of CTXBACK at which a line of context x begins: its records follow one another, 64 lines each (R215, R353). -/
def lineAddr (x l : Nat) : Nat := x * 32768 + l * 512

/-- The bridge that holds a line. -/
def lineBridge (x l : Nat) : Nat := addrBridge (lineAddr x l)

/-- The lines that hold `n` bytes of a record from an offset. -/
def linesOf (lo n : Nat) : List Nat := rangeFrom (lo / 512) ((lo + n - 1) / 512 + 1 - lo / 512)

/-- Where a member's state begins in a record (R353). -/
def memberAt (m : Nat) : Nat := 512 + 48 * m

/-- The bytes of a chunk slot (R353, R424). -/
def Ctx.slotBytes (c : Ctx) : Nat := if typeReduces c.type then chunkBytes (arIn (dArith c.desc)) + 16 else 144

/-- The lines of the slot of a chunk (R353). -/
def Ctx.slotLines (c : Ctx) (n : Nat) : List Nat :=
  if c.w = 0 then [] else linesOf (memberAt c.m + n % c.w * c.slotBytes) c.slotBytes

/-- The lines of the header and of some members' state. -/
def Ctx.headLines (_c : Ctx) (ms : List Nat) : List Nat := (0 :: ms.flatMap fun m => linesOf (memberAt m) 48).eraseDups

/-- The lines that a cell of a member and chunk needs (R353). -/
def Ctx.linesFor (c : Ctx) (m : Nat) (chunk : Option Nat) : List Nat :=
  (0 :: linesOf (memberAt m) 48 ++ (chunk.map c.slotLines).getD []).eraseDups

/-- The lines of a context's record that are in use: the header, the members' and those of its chunks. -/
def Ctx.usedLines (c : Ctx) : List Nat :=
  ((List.range c.m).flatMap (fun m => c.linesFor m none) ++ c.chunks.flatMap fun k => c.linesFor 0 (some k.1)).eraseDups

/-- A line is in some slice's cache. -/
def State.lineHeld (s : State) (x l : Nat) : Bool :=
  s.est.slices.any fun v => v.2.lines.any fun o => decide (o.ctx = x ∧ o.line = l)

/-! ## Loss (R401, R437) -/

/-- A memory fault on lines of a context's record: one that is OPENING or ACTIVE is aborted, and another keeps its state. Results
held in lines that no slice has are lost (R221, R392). -/
def State.ctxFault (s : State) (x : Nat) (lines : List Nat) : State :=
  match s.ctx x with
  | none => s
  | some c =>
    let gone := lines.filter fun l => !s.lineHeld x l
    let s := s.modCtx x fun c => { c with
      lost := (lines ++ c.lost).eraseDups, chunks := c.chunks.filter fun k => !(c.slotLines k.1).any gone.contains }
    if c.st.live then s.endCtx x .aborted 20 0 else s

/-- A fault in the matrix of a context in STAGING: the column blocks of it that are lost (R221, R392, R401). -/
def State.matrixFault (s : State) (x : Nat) (cols : List Nat) : State :=
  match s.ctx x with
  | none => s
  | some c =>
    let s := s.modCtx x fun c => { c with lostCols := (cols ++ c.lostCols).eraseDups }
    if c.st.live then s.endCtx x .aborted 21 0 else s

/-- A coding group's home record is uncorrectable; the manager meets it when it reloads (R437). -/
def State.homeFault (s : State) (n : Nat) : State :=
  match s.codingAt n with
  | some (i, g) => if g.base = n then { s with bwk := { s.bwk with groups := s.bwk.groups.put i { g with homeBad := true } } } else s
  | none => s

/-- A bad block of CTXBACK: its context, with the line that holds it, or a home record. -/
def State.recordFault (s : State) (a : Nat) : State :=
  let n := a / 32768
  let s := s.homeFault n
  match s.queried n with
  | none => s
  | some (x, _) => s.ctxFault x [(a - x * 32768) / 512]

/-! ## Room (R216, R217, R223, R356) -/

/-- The context has a line to be written back to a bridge in reset: its lines stay until the reset ends (R223). -/
def State.ctxKept (s : State) (t x : Nat) : Bool :=
  (s.slice t).lines.any fun l => decide (l.ctx = x) && l.dirty && s.fnDown (fidBrg (lineBridge x l.line))

/-- The line may not leave the cache: a pinned header, or one of a context that stays for a bridge in reset. -/
def State.keepLine (s : State) (t : Nat) (l : CacheLine) : Bool :=
  (decide (l.line = 0) && ((s.slice t).pins.find l.ctx).isSome) || s.ctxKept t l.ctx

/-- The least recently used line that may leave, taken out of a list that is most recent first. -/
def takeOld (keep : CacheLine → Bool) (ls : List CacheLine) : Option (CacheLine × List CacheLine) :=
  (takeFirst (fun l => !keep l) ls.reverse).map fun (l, rest) => (l, rest.reverse)

/-- A line written back. -/
def State.writeBack (s : State) (l : CacheLine) : State :=
  (s.bump .utwCtxWritebacks []).sendBytes (lineBridge l.ctx l.line) true 0 512

/-- The header pinned in a slice whose last cell is the oldest, of another context than `x`. -/
def State.oldPin (s : State) (t x : Nat) : Option Nat :=
  ((s.slice t).pins.foldl (init := (none : Option (Nat × Nat))) fun b p =>
    match b with
    | none => if p.1 = x then none else some p
    | some o => if p.1 ≠ x ∧ p.2 < o.2 then some p else b).map (·.1)

/-- Lines evicted until the cache and its tags hold no more than they can (R216, R217). The lines of context `x`, for which room
is made, go last. DESIGN CHOICE: where every other line is pinned, the header used longest ago is unpinned (log entry 73). -/
def State.evict (s : State) (t x : Nat) : Nat → State
  | 0 => s
  | fuel + 1 =>
    let ls := (s.slice t).lines
    if ls.length ≤ s.cacheLines t ∧ (ls.map (·.ctx)).eraseDups.length ≤ 4096 then s
    else
      let drop (l : CacheLine) (rest : List CacheLine) : State :=
        (if l.dirty then s.writeBack l else s).setSlice t fun v => { v with lines := rest }
      match takeOld (fun l => decide (l.ctx = x) || s.keepLine t l) ls, s.oldPin t x, takeOld (s.keepLine t) ls with
      | some (l, rest), _, _ => State.evict (drop l rest) t x fuel
      | none, some y, _ => State.evict (s.setSlice t fun v => { v with pins := v.pins.del y }) t x fuel
      | none, none, some (l, rest) => State.evict (drop l rest) t x fuel
      | none, none, none => s

/-- A cache brought within its limits: no more lines and pins can leave than it holds. -/
def State.makeRoom (s : State) (t x : Nat) : State := s.evict t x ((s.slice t).lines.length + (s.slice t).pins.length + 1)

/-- More than half the lines pinned: the least recently used header is unpinned (R356). -/
def State.trimPins (s : State) (t : Nat) : State :=
  let v := s.slice t
  if v.pins.length * 2 ≤ s.cacheLines t then s
  else
    match s.oldPin t 2097152 with
    | none => s
    | some x => s.setSlice t fun v => { v with pins := v.pins.del x }

/-! ## Use -/

/-- Lines of a context in a slice become the most recent ones; `dirty`: the slice writes to them. -/
def State.frontLines (s : State) (t x : Nat) (dirty : Bool) (need : List Nat) : State :=
  s.setSlice t fun v => { v with
    lines := need.map (fun l => ⟨x, l, dirty || (v.lines.any fun o => decide (o.ctx = x ∧ o.line = l) && o.dirty)⟩) ++
      v.lines.filter fun o => !(decide (o.ctx = x) && need.contains o.line) }

/-- Lines of a context used by a slice for a cell: the header of one that is OPENING or ACTIVE is pinned. Work on a terminal
context leaves the lines as they are. -/
def State.useLines (s : State) (t x : Nat) (live : Bool) (need : List Nat) : State :=
  let now := s.now
  (((s.frontLines t x live need).setSlice t fun v => { v with pins := if live then v.pins.put x now else v.pins }).trimPins t).makeRoom t x

/-- What a cell that no fetch went before leaves in the cache: the lines of the context that it opened or reached (R356). -/
def State.touchLines (s : State) (t x m : Nat) (chunk : Option Nat) : State :=
  match s.ctx x with
  | none => s
  | some c => if c.st.live ∧ m < c.m ∧ !s.fnDown (fidEst t) then s.useLines t x true (c.linesFor m chunk) else s

/-- The lines among some of a context's that a slice's cache does not hold. -/
def State.missing (s : State) (t x : Nat) (need : List Nat) : List Nat :=
  need.filter fun l => !(s.slice t).lines.any fun o => decide (o.ctx = x ∧ o.line = l)

/-- The fetch of lines asked for (R217, R218). -/
def State.askLines (s : State) (t x : Nat) (ls : List Nat) : State :=
  let bs := (ls.map (lineBridge x)).eraseDups
  let (marks, s) := bs.foldl (init := (([] : List (Nat × Nat)), s)) fun (ms, s) b =>
    let (m, s) := s.askLink b false 0 (512 * (ls.filter fun l => decide (lineBridge x l = b)).length)
    (ms ++ [(b, m)], s)
  (s.setSlice t fun v => { v with fetch := some ⟨x, ls, marks⟩ }).bumpBy .utwCtxFetches [] ls.length

/-- The lines that a cell needs: in the cache, and used; or not, and their fetch starts unless one runs. -/
def State.withLines (s : State) (t x : Nat) (c : Ctx) (need : List Nat) (k : State → State) : State :=
  if c.st = .free ∨ s.fnDown (fidEst t) then k s
  else
    let miss := s.missing t x need
    if miss.isEmpty then k (s.useLines t x c.st.live need)
    else if (s.slice t).fetch.isSome then s
    else s.askLines t x miss

/-! ## Reading lines within a step

A slice that meets a context without a cell that could wait at its input for a fetch reads the lines one after another. -/

/-- No link that the missing ones of some lines come over retrains (R508). A bridge in reset fails the fetch at once (R224). -/
def State.linesReady (s : State) (t x : Nat) (need : List Nat) : Bool :=
  (s.missing t x need).all fun l => s.fnDown (fidBrg (lineBridge x l)) || s.linkUp (16 + lineBridge x l)

/-- One line read by a slice: used where its cache holds it, and else fetched first (R217, R218, R221, R224). `met` numbers the
blocks of the fetched lines in their order; what is left of it comes back. -/
def State.readLine (s : State) (t x : Nat) (live : Bool) (l : Nat) (met : List BlockErr) : State × List BlockErr :=
  let b := lineBridge x l
  if (s.missing t x [l]).isEmpty then ((s.frontLines t x live [l]).makeRoom t x, met)
  else if s.fnDown (fidBrg b) then (s.ctxFault x [l], met)
  else
    let (mark, s) := (s.bump .utwCtxFetches []).askLink b false 0 512
    let s := (s.advanceTo (s.linkDue b false 0 mark)).meet 1 8 (fun e => addrStack (lineAddr x l + 64 * e.block)) met
    (if (lostBlocks 8 met).isEmpty then (s.frontLines t x live [l]).makeRoom t x else s.ctxFault x [l],
      (met.filter fun e => decide (8 ≤ e.block)).map fun e => { e with block := e.block - 8 })

/-- Lines read by a slice, one after another. A slice in reset reads none. -/
def State.readLines (s : State) (t x : Nat) (live : Bool) (need : List Nat) (met : List BlockErr) : State × List BlockErr :=
  if s.fnDown (fidEst t) then (s, met) else need.foldl (fun a l => a.1.readLine t x live l a.2) (s, met)

end Sys2Proof.Machine
end

