-- ==== Sys2Proof/Machine/Estuary.lean ====
section
/-! DEFINITION. Opening contexts, chunks and their completion, all-to-all rounds, triggers and early cells (R359 to R376),
with the parity contexts of Breakwater (R422 to R431). -/

namespace Sys2Proof.Machine

/-! ## Checks of a descriptor (R359, R423, R495) -/

/-- The swell windows of a fibre's active tables: k, START, LEN and MASK. -/
def State.swellWindows (s : State) (f : Nat) : List (Nat × Nat × Nat × Nat) :=
  (s.portsOf f).flatMap fun p =>
    match s.tide.active.find p with
    | none => []
    | some tp => (tp.windows.filter (·.swell)).map fun w => (tp.k, w.start, w.len, w.action / 256 % 256)

/-- Windows with equal START and LEN are one instance on every wavelength they name (R488): START, LEN and MASK of each, in time
order (R495). -/
def instancesOf (ws : List (Nat × Nat × Nat × Nat)) : List (Nat × Nat × Nat) :=
  let keys := sortBy Prod.fst (sortBy Prod.snd (ws.map fun w => (w.2.1, w.2.2.1)).eraseDups)
  keys.map fun k => (k.1, k.2, (ws.filter fun w => decide ((w.2.1, w.2.2.1) = k)).foldl (fun a w => a ||| w.2.2.2) 0)

/-- E_sym of a window (R490). -/
def eSym (len : Nat) : Nat := 425 * (1999 * len - 2000000) / 32000 - 320

/-- Whole chunks of an instance (R496). -/
def instChunks (len mask : Nat) : Nat := popCount 8 mask * eSym len / 16

/-- The instances of windows in time order from T0 on, until they have room for `left` chunks. -/
def claimFrom (k : Nat) (ws : List (Nat × Nat × Nat)) (t0 cycle first left : Nat) : Nat → List Claim
  | 0 => []
  | fuel + 1 =>
    if left = 0 then []
    else
      let (cs, first', left') := ws.foldl (init := (([] : List Claim), first, left)) fun (cs, first, left) (st, len, mask) =>
        let at_ := cycle * 2 ^ k + st
        let n := min left (instChunks len mask)
        if n = 0 ∨ at_ < t0 then (cs, first, left) else (cs ++ [⟨at_, len, mask, first, n⟩], first + n, left - n)
      cs ++ claimFrom k ws t0 (cycle + 1) first' left' fuel

/-- The fibres of the members of a group. -/
def State.ownerFibres (s : State) (o : Owner) : List (Option Nat) :=
  (List.range o.m).map fun i => s.podFibre (recAddr (o.record i) / 2048)

/-- The windows that a Swell context would sum on; none where R495 refuses them. -/
def State.swellOf (s : State) (o : Owner) : Option (Nat × List (Nat × Nat × Nat)) :=
  let sets := (s.ownerFibres o).map fun f => (f.map s.swellWindows).getD []
  match sets.flatten with
  | [] => none
  | (k, _) :: _ =>
    let alike := (sets.map instancesOf).eraseDups
    if sets.flatten.all (fun w => decide (w.1 = k)) ∧ sets.all (fun ws => !ws.isEmpty) ∧ alike.length = 1 then
      some (k, alike.flatten)
    else none

/-- The claims of a Swell context at admission. -/
def State.swellClaims (s : State) (o : Owner) (d : BitVec 512) : List Claim :=
  match s.swellOf o with
  | none => []
  | some (k, ws) =>
    let t0 := dNat d 32 8
    claimFrom k ws t0 (t0 / 2 ^ k) 0 (chunkCount d o.m) (chunkCount d o.m + 2)

/-- The members' pods are all different (R495). -/
def Owner.podsDiffer (o : Owner) : Bool :=
  decide ((List.range o.m).map fun i => recAddr (o.record i) / 2048).Nodup

/-- The fields of TYPE_PARAMS of a parity descriptor, with what they must hold (R422, R423). -/
def State.parityParams (s : State) (o : Owner) (d : BitVec 512) : List (Bool × Nat) :=
  let t := dType d
  match s.bwk.groups.find o.number with
  | none => [(false, 22)]
  | some g =>
    let lost := dLost d
    let addrs := g.records.map fun r => recAddr r.toNat
    let repl (j : Nat) : Bool :=
      if j < lost.length then decide (dRepl d j / 2 ^ 20 % 2 ^ 9 = 0) && !(addrs.contains (recAddr (dRepl d j)))
      else decide (dRepl d j = 0)
    [(decide (dUnit d < g.z) && decide (t = 8 ∨ g.unit (dUnit d) = .current), 32),
     (decide (dOffset d + dN d ≤ 32768) && decide (t ≠ 8 ∨ dOffset d = 0), 36),
     (if t = 9 then decide (dSenders d < 2 ^ g.k) else decide (dSenders d = 0), 38),
     (if t = 10 then decide (dLostCount d = 1 ∨ dLostCount d = 2) else decide (dLostCount d = 0), 42),
     (if t = 10 then decide (dNat d 43 1 < g.k) else decide (dNat d 43 1 = 0), 43),
     (if t = 10 ∧ dLostCount d = 2 then decide (dNat d 43 1 < dNat d 44 1 ∧ dNat d 44 1 < g.k)
       else decide (dNat d 44 1 = 0), 44),
     (decide (dNat d 45 1 = 0), 45), (repl 0, 46), (repl 1, 50), (decide (dNat d 54 10 = 0), 54)]

/-- Every field of a descriptor, with whether it is good, in ascending offset (R359, R423, R495). -/
def State.descChecks (s : State) (o : Owner) (x : Nat) (d : BitVec 512) : List (Bool × Nat) :=
  let t := dType d
  let par := typeParity t
  let red := typeReduces t
  let ch := chunkCount d o.m
  let zero := par || decide (t = 11)
  [(decide (dNat d 0 1 = 1), 0),
   (decide (t ≤ 11) && decide (dNat d 1 1 % 16 = 0) && decide (o.coding = par), 1),
   (if red then arithOk (dArith d) else !zero || decide (dArith d = 0), 2),
   (if t = 5 ∨ t = 7 then decide (dN d = 0) else if t = 6 then true
     else decide (1 ≤ ch ∧ ch ≤ 65536) && (!par || decide (ch ≤ 32768 ∧ (t ≠ 8 ∨ ch = 32768))), 4),
   (if t = 1 ∨ t = 4 then decide (dRoot d < o.m) else decide (dRoot d = 0), 8),
   (if red then decide (4 ≤ dWlog d ∧ dWlog d ≤ 8) else decide (dWlog d = 0), 10),
   (decide (spanNeed d o.m ≤ dSpan d ∧ 1 ≤ dSpan d ∧ dSpan d ≤ 64 ∧ x + dSpan d ≤ o.base + o.count), 11),
   (decide (dTimeout d ≠ 0), 12),
   (if t = 2 then decide (ch ≤ dShare d * o.m) else !zero || decide (dShare d = 0), 16),
   (decide (dNat d 20 1 < 8) && (!zero || !dFlag d 2), 20),
   (decide (dNat d 21 1 = 0), 21),
   (decide (dGroup d = o.number) && (decide (t ≠ 11) || (decide (o.m ≤ 256) && o.podsDiffer)), 22)] ++
  if t = 6 ∨ t = 7 then
    [(decide (1 ≤ dRound d ∧ dRound d ≤ 1000), 32), (decide (1 ≤ dPct d ∧ dPct d ≤ 100), 34),
     (decide (dNat d 35 29 = 0), 35)]
  else if par then s.parityParams o d
  else if t = 11 then [((s.swellOf o).isSome, 32), (decide (dNat d 40 24 = 0), 40)]
  else [(decide (dNat d 32 32 = 0), 32)]

/-- Another live context claims an instance that these claims need (R495). -/
def State.claimTaken (s : State) (fibres : List (Option Nat)) (claims : List Claim) : Bool :=
  let engines := fibres.filterMap fun f => f.map (· / 16)
  s.est.ctxs.any fun e =>
    e.2.st.live && (match s.ownerOf e.2 with
      | none => false
      | some o => (s.ownerFibres o).any fun f => (f.map fun f => engines.contains (f / 16)).getD false) &&
    e.2.claims.any fun c => claims.any fun k => decide (c.start < k.start + k.len ∧ k.start < c.start + c.len) &&
      decide (c.mask &&& k.mask ≠ 0)

/-- Another live parity context holds the unit (R423). -/
def State.unitHeld (s : State) (g u : Nat) : Bool :=
  s.est.ctxs.any fun e => e.2.st.live && typeParity e.2.type && decide (e.2.group = g ∧ dUnit e.2.desc = u)

/-- What the admission of a descriptor to a FREE number decides: a failure with its reason and offset, or a context in
state OPENING. -/
def State.admitCtx (s : State) (o : Owner) (x : Nat) (d : BitVec 512) : (Nat × Nat) ⊕ Ctx :=
  match firstBad (s.descChecks o x d) with
  | some off => .inl (1, off)
  | none =>
    let t := dType d
    let claims := if t = 11 then s.swellClaims o d else []
    let place := if typeA2a t then s.placeMatrix (o.m * o.m * 4) else none
    if (rangeFrom (x + 1) (dSpan d - 1)).any (fun n => !s.numFree n) ∨ (typeA2a t ∧ place = none) ∨
        (typeParity t ∧ s.unitHeld o.number (dUnit d)) ∨ (t = 11 ∧ s.claimTaken (s.ownerFibres o) claims) then .inl (3, 0)
    else
      let out : AMap MemberSt := (List.range o.m).filterMap fun i =>
        if recExcluded (o.record i) ∧ !o.coding then some (i, { MemberSt.init with excluded := true }) else none
      .inr
        { st := .opening, reason := 0, failOff := 0, coding := o.coding, group := o.number, m := o.m, span := dSpan d,
          desc := d, openedAt := s.now, deadline := s.now + dTimeout d * 1000, endedAt := 0, lingerEnd := 0,
          deadlinePtp := s.ptpNs + dTimeout d * 1000, incarnation := s.boot.incarnation, base := 0, members := out,
          chunks := [], cplt := [], handing := [], workedAt := none, excludedAny := !out.isEmpty, flagRec := 0, lastMember := none, lateness := 0,
          dups := 0, ahead := 0, excl := 0, fmtDrops := 0, lacks := 0, resent := 0, gone := 0, rounds := 0,
          matrix := [], rem_ := [], matrixAt := none, current := none, nextRound := none, ended := 0, paced := [],
          claims := claims, staging := place, lostCols := [], lost := [] }

/-- A FREE number whose first OPEN fails: FAILED, holding only itself. -/
def State.failedCtx (s : State) (o : Owner) (x reason off : Nat) (d : BitVec 512) : State :=
  let s := (s.putCtx x
    { st := .failed, reason := reason, failOff := off, coding := o.coding, group := o.number, m := o.m, span := 1,
      desc := d, openedAt := s.now, deadline := s.now + dTimeout d * 1000, endedAt := s.now,
      lingerEnd := s.now + s.regBits .estConfig [] 31 16 * 1000, deadlinePtp := s.ptpNs + dTimeout d * 1000, incarnation := s.boot.incarnation, base := 0, members := [],
      chunks := [], cplt := [], handing := [], workedAt := none, excludedAny := false, flagRec := 0, lastMember := none, lateness := 0,
      dups := 0, ahead := 0, excl := 0, fmtDrops := 0, lacks := 0, resent := 0, gone := 0, rounds := 0,
      matrix := [], rem_ := [], matrixAt := none, current := none, nextRound := none, ended := 0, paced := [],
      claims := [], staging := none, lostCols := [], lost := [] }).bump .estOpenFails []
  let s := s.countCtx x 2 1
  if o.coding then s else s.csAdd 5 o.number 4 1

/-! ## All-to-all (R369 to R372) -/

/-- A grant of the pseudocode of R371. -/
structure GrantAcc where
  rem_ : AMap Nat
  capIn : AMap Nat
  capOut : AMap Nat
  made : List (Nat × Nat × Nat)

/-- The cap of a port in a round. -/
def capOf (width round pct : Nat) : Nat := width * 200000 * round * pct / 51200 * 64

/-- The grants of round `r` (R371). -/
def State.grantsOf (s : State) (c : Ctx) (r : Nat) : GrantAcc :=
  let lane (m : Nat) : Nat := (s.recLane (s.memberRec c m)).getD 4096
  let cap (p : Nat) : Nat := if p < 2048 then capOf (s.widthAt p) (dRound c.desc) (dPct c.desc) else 0
  let act := c.activeMembers
  (List.range c.m).foldl (init := ⟨c.rem_, [], [], []⟩) fun a i =>
    let src := (r + i) % c.m
    if !act.contains src then a
    else
      ((rangeFrom 1 (c.m - 1)).foldl (init := (a, 0)) fun (a, g) j =>
        let dst := (src + (r + j - 1) % (c.m - 1) + 1) % c.m
        let need := a.rem_.getD (src * c.m + dst) 0
        if g = 6 ∨ need = 0 ∨ !act.contains dst then (a, g)
        else
          let co := a.capOut.getD (lane dst) (cap (lane dst))
          let ci := a.capIn.getD (lane src) (cap (lane src))
          let b := min need (min co ci)
          let b := if b < need then b - b % 64 else b
          if b = 0 then (a, g)
          else
            (⟨a.rem_.setD (src * c.m + dst) 0 (need - b), a.capIn.put (lane src) (ci - b),
              a.capOut.put (lane dst) (co - b), a.made ++ [(src, dst, b)]⟩, g + 1)).1

/-- Row `m` of REM is all zero. -/
def rowZero (rem_ : AMap Nat) (m w : Nat) : Bool := (List.range w).all fun d => decide (rem_.getD (m * w + d) 0 = 0)

/-- A GRANT cell (R372). -/
def grantPay (start stop : Nat) (gs : List (Nat × Nat)) : BitVec 512 :=
  mkPay (beBytes 8 start ++ beBytes 8 stop ++ gs.flatMap fun (d, b) => beBytes 2 (32768 + d) ++ [0, 0] ++ beBytes 4 b)

/-- The grants of a round computed and sent (R370, R371). -/
def State.planRound (s : State) (x r start : Nat) : State :=
  match s.ctx x with
  | none => s
  | some c =>
    let a := s.grantsOf c r
    let stop := start + dRound c.desc * 1000
    let due := c.activeMembers.filter fun m =>
      (a.made.any fun g => decide (g.1 = m)) || (rowZero a.rem_ m c.m && !c.paced.contains m)
    let lastOf (m : Nat) : Bool := rowZero a.rem_ m c.m
    let s := s.putCtx x { c with
      rem_ := a.rem_, nextRound := some ⟨r, start, a.made⟩, paced := c.paced ++ due.filter lastOf,
      members := due.foldl (init := c.members) fun ms m =>
        let held := a.made.any fun g => decide (g.1 = m)
        ms.modD m MemberSt.init fun y => { y with
          paceRounds := y.paceRounds + b2n held
          paceEnd := if held then s.freeAt stop else y.paceEnd } }
    due.foldl (init := s) fun s m =>
      s.sendCtrl x c m (r % 65536) (b2n (lastOf m)) 0x03000000
        (grantPay start stop ((a.made.filter fun g => decide (g.1 = m)).map (·.2))) fun s => s.noPort .estResultNoPort c 1

/-- The last PACE cells of a context with no bytes left to grant: to each active member that has not had one (R371, R395). -/
def State.lastCells (s : State) (x r start : Nat) : State :=
  match s.ctx x with
  | none => s
  | some c =>
    let due := c.activeMembers.filter fun m => !c.paced.contains m
    due.foldl (init := s.putCtx x { c with paced := c.paced ++ due }) fun s m =>
      s.sendCtrl x c m (r % 65536) 1 0x03000000 (grantPay start (start + dRound c.desc * 1000) []) fun s => s.noPort .estResultNoPort c 1

/-- The start of round 0: the first multiple of ROUND at least 2 µs ahead in PTP time (R370). -/
def State.roundZero (s : State) (c : Ctx) : Nat :=
  let r := dRound c.desc * 1000
  (s.ptpNs + 2000 + r - 1) / r * r

/-- The matrix sent to one member (R369): the cells of every row, of one column block or of all. -/
def State.sendMatrix (s : State) (x : Nat) (c : Ctx) (m : Nat) (blocks : List Nat) (row0 : List Nat) : State :=
  let mine := blocks.filter fun k => !dFlag c.desc 2 || decide (k = m / 16)
  row0.foldl (init := s) fun s row => mine.foldl (init := s) fun s k =>
    let cols := (rangeFrom (16 * k) 16).map fun j =>
      if dFlag c.desc 2 ∧ j ≠ m ∨ c.m ≤ j then 0 else c.matrix.getD (row * c.m + j) 0
    (s.sendBytes (addrBridge (c.staging.getD 0 + 4 * (row * c.m + 16 * k))) false 3 64).sendResult x c (homeOf x 0) [m] k 6 row 0 0
      (packElems 6 cols)

/-- An ALLTOALL that became ACTIVE, or an ALLTOALLV whose matrix is complete, starts to pace. -/
def State.startPacing (s : State) (x : Nat) : State :=
  match s.ctx x with
  | none => s
  | some c =>
    let blocks := List.range ((c.m + 15) / 16)
    let rem_ : AMap Nat := (List.range (c.m * c.m)).filterMap fun i =>
      let a := i / c.m
      let b := i % c.m
      let v := if c.type = 6 then dN c.desc else c.matrix.getD i 0
      if a = b ∨ v = 0 ∨ (c.member a).excluded ∨ (c.member b).excluded then none else some (i, v)
    let s := s.putCtx x { c with rem_ := rem_, matrixAt := some s.now }
    let s := if c.type = 7 then
        c.activeMembers.foldl (fun s m => s.sendMatrix x c m blocks (List.range c.m)) s else s
    s.planRound x 0 (s.roundZero c)

/-! ## Chunks (R364 to R368) -/

/-- Member `m` has contributed chunk `c`. -/
def MemberSt.has (y : MemberSt) (c : Nat) : Bool := decide (c < y.mark) || (decide (y.mark < c) && bit y.window (c - y.mark - 1))

/-- MARK and WINDOW once chunk `c` is accepted (R364); `fuel` bounds the bits passed. -/
def markOn (mark window : Nat) : Nat → Nat × Nat
  | 0 => (mark, window)
  | fuel + 1 => if window % 2 = 1 then markOn (mark + 1) (window / 2) fuel else (mark, window / 2)

def MemberSt.take (y : MemberSt) (c now ch : Nat) : MemberSt :=
  if c = y.mark then
    let (top, w) := markOn (c + 1) y.window 257
    { y with mark := top, window := w, finish := if top = ch then now else y.finish }
  else { y with window := y.window + 2 ^ (c - y.mark - 1) }

/-- BASE moved past the complete chunks above it. -/
def baseOn (base : Nat) (cplt : List Nat) : Nat → Nat
  | 0 => base
  | fuel + 1 => if cplt.contains base then baseOn (base + 1) cplt fuel else base

/-- PROGRESS cells for the multiples of `step` that BASE reached (R368, R424). -/
def State.progress (s : State) (x : Nat) (c : Ctx) (b0 b1 step : Nat) : State :=
  ((rangeFrom (b0 + 1) (b1 - b0)).filter fun b => decide (b % step = 0)).foldl (init := s) fun s b =>
    c.activeMembers.foldl (init := s) fun s m =>
      s.sendCtrl x c m (b % 65536) 0 0x03010000 0 fun s => s.noPort .estResultNoPort c 1

/-- The results of a complete chunk of a reducing type or of BARRIER, as cells with AUX, and their flags. -/
def Ctx.results (c : Ctx) (x n : Nat) (k : Chunk) : List (BitVec 512 × Nat) × Nat :=
  if c.type = 5 then ([(0, 0)], 0) else chunkResults (dArith c.desc) (dN c.desc) x n k.k k.elems

/-- Who receives the result of chunk `n` (R368). -/
def Ctx.recipients (c : Ctx) (n : Nat) : List Nat :=
  let act := c.activeMembers
  if c.type = 1 then act.filter fun m => decide (m = dRoot c.desc)
  else if c.type = 2 then act.filter fun m => decide (m = n / dShare c.desc)
  else act

/-- The result cells of a held chunk that leave for some members: none where no port is UP. -/
def State.chunkCells (s : State) (x : Nat) (c : Ctx) (n : Nat) (k : Chunk) (ms : List Nat) : Nat :=
  if (s.copiesTo c ms).isEmpty then 0 else (c.results x n k).1.length

/-- The result cells of a held chunk sent to some members, the same bits each time (R392). -/
def State.sendChunk (s : State) (x : Nat) (c : Ctx) (n : Nat) (k : Chunk) (ms : List Nat) : State :=
  let fmt := if c.type = 5 then 0 else arOut (dArith c.desc)
  (c.results x n k).1.foldl (init := s) fun s (pay, aux) =>
    s.sendResult x c (homeOf x n) ms n fmt (k.k - 1) (b2n k.last) aux pay

/-- The parity of a chunk of a unit: its key and its value. -/
def parityKey (g u n : Nat) : Nat := (g * 65536 + u) * 32768 + n
def State.parityOf (s : State) (g u n : Nat) : BitVec 512 × BitVec 512 := s.bwk.parity.getD (parityKey g u n) (0, 0)

/-- What completes a parity chunk (R427, R429). Its bytes for the bridge are Breakwater traffic (R430). -/
def State.parityDone (s : State) (x : Nat) (c : Ctx) (n : Nat) (k : Chunk) : State :=
  let u := dUnit c.desc
  let pn := dOffset c.desc + n
  if c.type = 8 then
    ({ s with bwk := { s.bwk with parity := s.bwk.parity.setD (parityKey c.group u pn) (0, 0) (k.p, k.q) } } : State).sendBytes
      (u % 4) true 2 128
  else if c.type = 10 then
    let lost := dLost c.desc
    (lost.zip (gfRebuild lost k.p k.q)).zipIdx.foldl (init := s) fun s ((pos, v), j) =>
      let r := dRepl c.desc j
      match s.recPort r with
      | none => s.bump .bwkRebuildNoPort []
      | some p =>
        (s.emit (homeOf x n) (mkHdr 0 clsCode (recAddr r / 2048) (recAddr r % 2048) s.incHi s.incLo x n 0 pos
          (b2n (n + 1 = c.ch)) 0) v [.port p] (s.ageFrom clsCode s.now)).bump .bwkRebuiltChunks []
  else s

/-- The work of an ACTIVE context is complete (R368); what a chunk or a copy waits for is that it is handed to stage 4. -/
def Ctx.workDone (c : Ctx) : Bool :=
  let t := c.type
  if t = 3 then c.handing.isEmpty && c.activeMembers.all fun m => decide ((c.member m).mark = c.ch)
  else if t = 4 then c.handing.isEmpty && decide ((c.member (dRoot c.desc)).mark = c.ch)
  else if t = 6 ∨ t = 7 ∨ t = 11 then false
  else decide (c.base = c.ch)

/-- Chunk `n` is complete in the records (R406): its slot is held or, for parity, free, and BASE moves (R364, R368, R424). -/
def State.finishChunk (s : State) (x n : Nat) : State :=
  match s.ctx x with
  | none => s
  | some c =>
    let cplt := n :: c.cplt
    let b := baseOn c.base cplt cplt.length
    let par := typeParity c.type
    let s := s.putCtx x { c with
      cplt := cplt.filter (b ≤ ·), base := b, handing := c.handing.del n
      chunks := if par then c.chunks.del n else c.chunks.upd n fun k => { k with done := true } }
    if c.type = 1 ∨ c.type = 2 then s.progress x c c.base b (c.w / 2)
    else if par then s.progress x c c.base b 128
    else s

/-- Every active member has contributed to chunk `n` (R366): its results leave, and it is complete once they are handed to
stage 4 (R406). -/
def State.completeChunk (s : State) (x n : Nat) : State :=
  match s.ctx x with
  | none => s
  | some c =>
    let k := c.chunks.getD n ⟨0, s.now, [], 0, 0, false, false⟩
    if typeParity c.type then (s.parityDone x c n k).finishChunk x n
    else
      let k := { k with last := c.excludedAny }
      let c := { c with chunks := c.chunks.upd n fun _ => k }
      let cells := s.chunkCells x c n k (c.recipients n)
      let s := (s.putCtx x ({ c with flagRec := c.flagRec ||| (c.results x n k).2 }.await n cells)).sendChunk x c n k (c.recipients n)
      if cells = 0 then s.finishChunk x n else s

/-- Every active member has contributed chunk `n`, and its results have not left; for a DELTA, the bridge has applied every Δ (R428). -/
def Ctx.full (c : Ctx) (n : Nat) (k : Chunk) : Bool :=
  if (c.handing.find n).isSome then false
  else if c.type = 9 then decide (k.k = c.activeMembers.length)
  else !c.activeMembers.isEmpty && c.activeMembers.all fun m => (c.member m).has n

/-- Every cell that the work of a context waits for has been judged (R386): what is left is to hand its results to stage 4. -/
def Ctx.contributed (c : Ctx) : Bool :=
  let t := c.type
  if t = 3 then c.activeMembers.all fun m => decide ((c.member m).mark = c.ch)
  else if t = 4 then decide ((c.member (dRoot c.desc)).mark = c.ch)
  else if typeReduces t ∨ t = 5 then (rangeFrom c.base (c.ch - c.base)).all fun n => c.cplt.contains n || (c.handing.find n).isSome
  else false

/-- A context whose work is complete becomes DONE. -/
def State.judgeWork (s : State) (x : Nat) : State :=
  match s.ctx x with
  | some c =>
    if c.st ≠ .active then s
    else if c.workDone then s.endCtx x .done 0 0
    else if c.workedAt.isNone && c.contributed then s.putCtx x { c with workedAt := some s.now }
    else s
  | none => s

/-- The cell that completes a context's work was judged at this very moment (R386, R409). -/
def Ctx.completes (c : Ctx) (now : Nat) : Bool := decide (c.st = .active ∧ c.workedAt = some now)

/-- Such a context is DONE at once, with every chunk of it complete; its results go on to stage 4. -/
def State.completeNow (s : State) (x : Nat) : State :=
  match s.ctx x with
  | none => s
  | some c =>
    let s := if c.copies then s.putCtx x { c with handing := [] } else (c.handing.map (·.1)).foldl (fun s n => s.finishChunk x n) s
    s.judgeWork x

/-- Chunks that every active member has contributed complete: those of a reducing type and of BARRIER once the context is
ACTIVE (R366), those of a parity context at once (R427 to R429). -/
def State.judgeChunks (s : State) (x : Nat) : State :=
  match s.ctx x with
  | none => s
  | some c =>
    if !c.st.live ∨ (c.st = .opening ∧ !typeParity c.type) then s
    else if typeReduces c.type ∨ c.type = 5 ∨ typeParity c.type then
      (((c.chunks.filter fun k => !k.2.done && c.full k.1 k.2).map (·.1)).foldl (fun s n => s.completeChunk x n) s).judgeWork x
    else if c.type = 7 ∧ c.matrixAt = none ∧ c.activeMembers.all (fun m => decide ((c.member m).mark = c.ch)) then
      s.startPacing x
    else s.judgeWork x

/-- A cell left for stage 4, or is no longer offered to it: the last result cell of a chunk makes it complete, and the last
copy of an ALLGATHER or BROADCAST may complete the work (R368, R406). -/
def State.handOver (s : State) (q : QCell) : State :=
  let x := q.cell.ctx
  let n := q.cell.chunk
  match s.ctx x with
  | none => s
  | some c =>
    match (c.handing.find n).filter fun _ => c.st.live && c.ownResult x q with
    | none => s
    | some k =>
      let s := s.putCtx x { c with handing := c.handing.setD n 0 (k - 1) }
      if 1 < k then s
      else ((if c.type = 3 ∨ c.type = 4 ∨ c.type = 11 then s else s.finishChunk x n).judgeWork x)

/-! ## Contributions -/

/-- The fibre a cell came in on. -/
def CellSrc.fibre : CellSrc → Option Nat
  | .cMode p => some (p / 8)
  | .gone p => some (p / 8)
  | .eMode p => some (p / 8)
  | .generated => none

/-- The checks of R350 on a cell from a member. -/
def State.memberOk (s : State) (o : Owner) (q : QCell) : Bool :=
  let c := q.cell
  decide (c.member < o.m) && decide (recAddr (o.record c.member) = c.spod * 2048 + c.sep) &&
  decide (q.src.fibre.isSome) && decide (q.src.fibre = s.podFibre c.spod)

/-- An accepted cell of a chunk: its contribution and what follows (R364 to R369, R427 to R429). -/
def State.accept (s : State) (x : Nat) (c : Ctx) (q : QCell) : State :=
  let n := q.cell.chunk
  let m := q.cell.member
  let t := c.type
  let c := c.setMember m fun y => y.take n s.now c.ch
  if typeReduces t ∨ t = 5 ∨ t = 8 ∨ t = 10 then
    let old := c.chunks.find n
    let s := if t = 10 ∧ old.isNone then s.sendBytes (dUnit c.desc % 4) false 2 (64 * dLostCount c.desc) else s
    let start : BitVec 512 × BitVec 512 :=
      if t = 10 then s.parityOf c.group (dUnit c.desc) (dOffset c.desc + n) else (0, 0)
    let k := old.getD ⟨0, s.now, [], start.1, start.2, false, false⟩
    let k := { k with
      k := k.k + 1
      elems := if typeReduces t then addContribution (dArith c.desc) (dN c.desc) n q.cell.pay q.cell.aux k.elems else []
      p := if t = 8 ∨ t = 10 then k.p ^^^ q.cell.pay else 0
      q := if t = 8 ∨ t = 10 then k.q ^^^ gfScale (gfPow m) q.cell.pay else 0 }
    let chunks : AMap Chunk := c.chunks.put n k
    (s.putCtx x { c with chunks := if c.w ≠ 0 ∧ c.w ≤ n then chunks.del (n - c.w) else chunks }).judgeChunks x
  else if t = 9 then
    match s.bwk.groups.find c.group with
    | none => s
    | some _ =>
      let b := dUnit c.desc % 4
      let (mark, s) := (s.putCtx x c).askLink b true 2 80
      { s with bwk := { s.bwk with deltas := s.bwk.deltas.modD b [] fun l => l ++ [⟨x, n, m, q.cell.pay, mark⟩] } }
  else if t = 7 then
    let row := (rangeFrom (16 * n) 16).foldl (init := c.matrix) fun mx j =>
      if j < c.m ∧ j ≠ m then mx.setD (m * c.m + j) 0 (elemOf 6 q.cell.pay (j % 16)) else mx
    let s := s.sendBytes (addrBridge (c.staging.getD 0 + 4 * (m * c.m + 16 * n))) true 3 64
    (s.putCtx x { c with matrix := row }).judgeChunks x
  else
    let c := if (s.copiesTo c c.activeMembers).isEmpty then c else c.await n 1
    (((s.putCtx x c).sendResult x c (homeOf x n) c.activeMembers n q.cell.fmt m (b2n q.cell.last) q.cell.aux
      q.cell.pay)).judgeChunks x

/-- A cell of a live context judged by its marks (R364). -/
def State.judgeMark (s : State) (x : Nat) (c : Ctx) (q : QCell) : State :=
  let n := q.cell.chunk
  let m := q.cell.member
  let y := c.member m
  if c.ch ≤ n then s.estDrop .estNonmemberDrops q
  else if y.has n then (s.putCtx x { c with dups := satSum c.dups 1 }).estDrop .estDupDrops q
  else if y.mark + 256 < n ∨ (c.w ≠ 0 ∧ c.base + c.w ≤ n) then
    (s.putCtx x { c with ahead := satSum c.ahead 1 }).estDrop .estAheadDrops q
  else
    let t := if q.cls = clsCup then (s.countCtx x 3 1).countGroup c 5 1 else s
    t.accept x c q

/-- A cell waits in the tile's early pool (R362). -/
def State.waitEarly (s : State) (t : Nat) (q : QCell) : State :=
  let e := (s.slice t).early
  if 64 ≤ (e.filter fun o => decide (o.cell.ctx = q.cell.ctx)).length ∨ earlyPool ≤ e.length then s.estDrop .estEarlyDrops q
  else s.setSlice t fun v => { v with early := v.early ++ [q] }

/-- A CUP or CODE cell at its home slice judged (R350, R352, R355, R362, R364, R368, R426). -/
def State.judgeCell (s : State) (t : Nat) (q : QCell) : State :=
  let x := q.cell.ctx
  let code := decide (q.cell.cls = clsCode)
  let strange (s : State) : State := s.estDrop (if code then .bwkNonmemberDrops else .estNonmemberDrops) q
  match s.rangeOwner x with
  | none => strange s
  | some o =>
    if !s.memberOk o q ∨ (code ∧ !o.coding) then strange s
    else
      let live := (s.ctx x).filter fun c => decide (c.st ≠ .free)
      let out := match live with
        | some c => (c.member q.cell.member).excluded
        | none => !o.coding && recExcluded (o.record q.cell.member)
      if out then
        (match live with
          | some c => s.putCtx x { c with excl := satSum c.excl 1 }
          | none => s).estDrop .estExcludedDrops q
      else if s.spanned x then s.estDrop .estSpanDrops q
      else
        match live with
        | none => s.waitEarly t q
        | some c =>
          if c.st.terminal then s.estDrop .estLateDrops q
          else if code ≠ c.coding ∨ c.type = 6 ∨ c.type = 11 ∨ (c.type = 4 ∧ q.cell.member ≠ dRoot c.desc) ∨
              !c.activeMembers.contains q.cell.member then
            s.estDrop (if code then .bwkRoleDrops else .estRoleDrops) q
          else if c.st = .opening ∧ (c.type = 3 ∨ c.type = 4 ∨ c.type = 7) then s.waitEarly t q
          else if typeReduces c.type ∧ q.cell.fmt ≠ arIn (dArith c.desc) then
            (s.putCtx x { c with fmtDrops := satSum c.fmtDrops 1 }).estDrop .estFmtDrops q
          else s.judgeMark x c q

/-- A CODE cell meets the Breakwater manager in reset (R434). -/
def State.codeShut (s : State) (q : QCell) : Bool := decide (q.cls = clsCode) && s.fnDown fidBwk

/-- The early cells of a context judged as if they arrived now, tile by tile (R362); the lines they need are in the slices then
(R356). -/
def State.judgeEarly (s : State) (x : Nat) : State :=
  let all := s.est.slices.map fun e => (e.1, e.2.early.filter fun q => decide (q.cell.ctx = x))
  let slices : AMap Slice := s.est.slices.filterMap fun e =>
    let v : Slice := { e.2 with early := e.2.early.filter fun q => decide (q.cell.ctx ≠ x) }
    if v = Slice.init then none else some (e.1, v)
  let s : State := { s with est := { s.est with slices := slices } }
  all.foldl (fun s (t, qs) => qs.foldl (fun s q =>
    if s.codeShut q then s.estDrop .bwkResetDrops q
    else (s.judgeCell t q).touchLines t x q.cell.member (some q.cell.chunk)) s) s

/-! ## Opening -/

/-- An OPENING context with no active member missing becomes ACTIVE (R360, R395). -/
def State.judgeOpen (s : State) (x : Nat) : State :=
  match s.ctx x with
  | none => s
  | some c =>
    if c.st = .opening ∧ c.activeMembers.all fun m => (c.member m).opened then
      let s := s.putCtx x { c with st := .active }
      if c.type = 6 then s.startPacing x
      else
        let s := s.judgeEarly x
        s.judgeChunks x
    else s

/-- The state code, reason and offset of a context as its OPEN answers carry them. -/
def State.answerOpen (s : State) (x m : Nat) : State :=
  match s.ctx x with
  | none => s
  | some c => s.sendOpen x c m c.st c.reason (if c.reason = 1 then c.failOff else 0)

/-- The exclusion of members from a context, counted and told to each whose port is UP (R394). -/
def State.tellExcluded (s : State) (x : Nat) (c : Ctx) (ms : List Nat) : State :=
  ms.foldl (init := s) fun s m =>
    (s.sendCtrl x c m 0 0 (0x01000000 + c.st.code * 65536 + 23 * 256)
      (mkPay (beBytes 4 c.incarnation.toNat ++ beBytes 8 c.deadlinePtp)) id).bump .estExclusions []

/-- A context admitted: counted, with the exclusions that its group's records ask for (R394, R575). -/
def State.admitted (s : State) (x : Nat) (c : Ctx) : State :=
  (((s.putCtx x c).countCtx x 0 1).countGroup c 0 1).tellExcluded x c ((List.range c.m).filter fun m => (c.member m).excluded)

/-- An OPEN of a member judged (R350, R359 to R361). -/
def State.judgeOpenCell (s : State) (q : QCell) : State :=
  let x := q.cell.ctx
  let m := q.cell.member
  match s.rangeOwner x with
  | none => s.estDrop .estNonmemberDrops q
  | some o =>
    if !s.memberOk o q then s.estDrop .estNonmemberDrops q
    else
      let live := (s.ctx x).filter fun c => decide (c.st ≠ .free)
      let out := match live with
        | some c => (c.member m).excluded
        | none => !o.coding && recExcluded (o.record m)
      if out then
        (match live with
          | some c => s.putCtx x { c with excl := satSum c.excl 1 }
          | none => s).estDrop .estExcludedDrops q
      else if s.spanned x then s.estDrop .estSpanDrops q
      else
        match live with
        | some c =>
          if c.st.terminal then s.answerOpen x m
          else if c.coding ∧ !c.activeMembers.contains m then s.estDrop .bwkRoleDrops q
          else if q.cell.pay ≠ c.desc then (s.endCtx x .failed 2 0).answerOpen x m
          else
            let s := s.putCtx x (c.setMember m fun y => { y with opened := true })
            (s.judgeOpen x).answerOpen x m
        | none =>
          if o.destroying then s.estDrop .estNonmemberDrops q
          else
          match s.admitCtx o x q.cell.pay with
          | .inl (reason, off) => ((s.failedCtx o x reason off q.cell.pay).dropEarly x).answerOpen x m
          | .inr c =>
            if c.coding ∧ !c.activeMembers.contains m then s.estDrop .bwkRoleDrops q
            else
              let s := s.admitted x (c.setMember m fun y => { y with opened := true })
              ((s.judgeEarly x).judgeOpen x).answerOpen x m

/-! ## Triggers (R373 to R376) -/

/-- A trigger fires (R376). -/
def State.fire (s : State) (i : Nat) (e : Trigger) : State :=
  let failed (s : State) (reason : Nat) : State :=
    (s.raiseEv 0x0B01 1 (fidEst (homeOf e.ctx 0)) (beBytes 4 i ++ beBytes 2 e.counter ++ beBytes 1 reason)).bump
      .estTriggerErrors []
  match s.rangeOwner e.ctx with
  | none => failed s 1
  | some o =>
    if !s.numFree e.ctx ∨ o.destroying then failed s 3
    else
      match s.admitCtx o e.ctx e.desc with
      | .inl (reason, _) => failed s reason
      | .inr c =>
        let all := c.activeMembers
        let c := all.foldl (fun c m => c.setMember m fun y => { y with opened := true }) c
        let s := (s.bump .estTriggerFires []).admitted e.ctx c
        let s := all.foldl (fun s m => s.sendOpen e.ctx c m .active 4 0) s
        (s.judgeEarly e.ctx).judgeOpen e.ctx

/-- Every entry whose counter has reached its threshold fires, lowest index first (R375); each fires once. -/
def State.fireAll (s : State) : Nat → State
  | 0 => s
  | fuel + 1 =>
    match s.est.triggers.find? fun e => decide (e.2.threshold ≤ (s.est.counters.getD e.2.counter 0).toNat) with
    | none => s
    | some (i, e) =>
      let s : State := { s with est := { s.est with triggers := s.est.triggers.del i } }
      State.fireAll (s.fire i e) fuel

/-- Triggers settled after counters moved. -/
def State.settle (s : State) : State := s.fireAll s.est.triggers.length

end Sys2Proof.Machine
end

