-- ==== Sys2Proof/Machine/Rings.lean ====
section
/-! DEFINITION. Access to the optics, and the conditions of R457 for a lane. -/

namespace Sys2Proof.Machine

/-- An engine. -/
def State.oe (s : State) (e : Nat) : EngineSt := s.opt.engines.getD e EngineSt.init

def State.setOe (s : State) (e : Nat) (g : EngineSt → EngineSt) : State :=
  { s with opt := { s.opt with engines := s.opt.engines.modD e EngineSt.init g } }

/-- A data ring of an engine, by its number in register order (R466). -/
def State.ring (s : State) (e r : Nat) : RingSt := s.opt.rings.getD (e * 256 + r) RingSt.init

def State.setRing (s : State) (e r : Nat) (g : RingSt → RingSt) : State :=
  { s with opt := { s.opt with rings := s.opt.rings.modD (e * 256 + r) RingSt.init g } }

/-- A fibre's shutter. -/
def State.eye (s : State) (f : Nat) : EyeSt := s.opt.eyes.getD f EyeSt.init

def State.setEye (s : State) (f : Nat) (g : EyeSt → EyeSt) : State :=
  { s with opt := { s.opt with eyes := s.opt.eyes.modD f EyeSt.init g } }

/-- The ring of a lane in a direction. -/
def ringOf (l : Nat) : Dir → Nat
  | .tx => l % 128
  | .rx => 128 + l % 128

/-- The lane and direction of a ring. -/
def laneOfRing (e r : Nat) : Nat := 128 * e + r % 128
def dirOfRing (r : Nat) : Dir := if r < 128 then .tx else .rx

def State.laneRing (s : State) (l : Nat) (d : Dir) : RingSt := s.ring (engineOf l) (ringOf l d)

/-- The laser input that lights a transmit fibre is good (R440, R457). -/
def State.laserOk (s : State) (f : Nat) : Bool := if f % 16 < 8 then (s.oe (f / 16)).laserA else (s.oe (f / 16)).laserB

/-! ## Calibration data (R461): factory values until an engine refines them. A ring is numbered within its engine, routing
rings from 256 on. -/

/-- A ring's feedforward coefficient for a sensor, in 1/256 code for each 1/16 °C. -/
def State.coeff (s : State) (e r : Nat) (i : Fin 4) : Int :=
  match (s.oe e).refined.coeffs.find r with
  | some cs => (cs.getD i.val 0).toInt
  | none => (Config.ffCoeff (4096 * e + r) i).toInt

/-- The heater codes that feedforward takes off a ring for the temperatures it cancels (R447). -/
def State.ffShift (s : State) (e r : Nat) (temps : List Int) : Int :=
  (([0, 1, 2, 3] : List (Fin 4)).map fun i => s.coeff e r i * temps.getD i.val 0).sum / 256

/-- A ring's cold resonance code. -/
def State.coldCode (s : State) (e r : Nat) : Nat := (s.oe e).refined.cold.getD r (Config.coldCode (4096 * e + r)).toNat

/-- The dark offset of a ring's monitor photodiode. -/
def State.darkOffset (s : State) (e r : Nat) : Nat := (s.oe e).refined.darks.getD r (Config.darkOffset (4096 * e + r)).toNat

/-- The drive of a fibre's attenuator in a state: none where it is closed (R453). -/
def State.driveFor (s : State) (f : Nat) (st : EyeState) : Option Nat :=
  let d := (s.oe (f / 16)).refined.drives.getD (f % 16) ((Config.attDrive f).1.toNat, (Config.attDrive f).2.toNat)
  match st with
  | .opened => some d.1
  | .probing => some d.2
  | .closed => none
  | .held => none

/-- A heater code kept within its 4,096 codes (R443). -/
def clampCode (n : Int) : Nat := min 4095 n.toNat

/-- The conditions of R457 for transmit. -/
def State.txReady (s : State) (l : Nat) : Bool :=
  decide ((s.eye (fibreOf l)).st = .opened) && s.laserOk (fibreOf l) && decide ((s.laneRing l .tx).st = .verified)

/-- The conditions of R457 for receive, but for FEC lock. -/
def State.rxReady (s : State) (l : Nat) : Bool :=
  decide ((s.eye (fibreOf l)).st = .opened) && decide ((s.laneRing l .rx).st = .verified) && !(s.laneRing l .rx).errDrop

/-- What leaves on a lane: while the engine's link is not up, what would cross it is lost (R508), and
under EXTEST every fibre is dark (R553). -/
def State.toFibre (s : State) (l : Nat) (x : FibreTx) : State :=
  if s.linkUp (engineOf l) ∧ s.pins.jtag ≠ .extest then { s with fibreTx := s.fibreTx ++ [x] } else s

/-! ## Sweeps (R452) -/

/-- The time a sweep takes over some codes: 1 THz/ms at 0.9765625 GHz a code, to the nanosecond above (R443, R452). -/
def sweepNs (codes : Nat) : Nat := (codes * 9765625 + 9999) / 10000

/-- When a sweep stands at a code. -/
def RingSt.sweepAt (x : RingSt) (code : Nat) : Nat := x.at_ + sweepNs (code - x.heater)

/-- The heater code of a ring at a moment: a sweep goes on with time (R452). -/
def RingSt.heaterAt (x : RingSt) (now : Nat) : Nat :=
  if x.st = .seeking ∧ !x.paused then min 4095 (x.heater + (now - x.at_) * 10000 / 9765625) else x.heater

/-- The sweep of a lane's receive ring pauses where it stands (R465, R478). -/
def State.pauseSweep (s : State) (l : Nat) : State :=
  let now := s.now
  s.setRing (engineOf l) (ringOf l .rx) fun x => if x.st = .seeking then { x with heater := x.heaterAt now, paused := true } else x

/-- And goes on from there, once the fibre has light and the lane is not diverted. -/
def State.resumeSweep (s : State) (l : Nat) : State :=
  let now := s.now
  if (s.eye (fibreOf l)).light ∧ !(s.lane l).diverted then
    s.setRing (engineOf l) (ringOf l .rx) fun x => if x.st = .seeking ∧ x.paused then { x with at_ := now, paused := false } else x
  else s

end Sys2Proof.Machine
end

