-- ==== Sys2Proof/Machine/EstCells.lean ====
section
/-! DEFINITION. The cells that end at an Estuary slice, the context cache, the timed happenings of a context, and the
reset of a slice (R217, R356, R377, R386 to R399, R426 to R428). -/

namespace Sys2Proof.Machine

/-! ## The context cache (R217, R356) -/

/-- CTX_LINE_FETCH_COMPLETE (R217, R218, R221, R224): the bytes of the lines have passed the links of their bridges. It waits
while one of those retrains (R508). -/
def execCtxLineFetchComplete (tile : Tile) (met : List BlockErr) (s : State) : Out :=
  .next <|
    match (s.slice tile).fetch with
    | none => s
    | some f =>
      let down := f.lines.filter fun l => s.fnDown (fidBrg (lineBridge f.ctx l))
      if f.marks.any fun m => !s.fnDown (fidBrg m.1) && !s.linkUp (16 + m.1) then s
      else
        let s := s.advanceTo ((f.marks.map fun m => s.linkDue m.1 false 0 m.2).foldl max 0)
        let s := s.setSlice tile fun v => { v with fetch := none }
        if !down.isEmpty then (s.ctxFault f.ctx down).settle
        else
          let n := 8 * f.lines.length
          let addr (i : Nat) : Nat := lineAddr f.ctx (f.lines.getD (i / 8) 0) + i % 8 * 64
          let s := s.meet 1 n (fun e => addrStack (addr e.block)) met
          let bad := ((lostBlocks n met).map fun i => f.lines.getD (i / 8) 0).eraseDups
          let s := (s.setSlice tile fun v => { v with
            lines := (f.lines.filter fun l => !bad.contains l).map (fun l => ⟨f.ctx, l, false⟩) ++ v.lines }).makeRoom tile f.ctx
          if bad.isEmpty then s else (s.ctxFault f.ctx bad).settle

/-- HEADER_UNPIN (R356, R386): the header of a context that has had no cell at a slice for IDLE µs is unpinned there. -/
def execHeaderUnpin (ctx : CtxNum) (s : State) : Out :=
  .next <|
    let x := ctx.toNat
    let ends := s.est.slices.filterMap fun e => (e.2.pins.find x).map (· + s.regBits .estConfig [] 15 8 * 1000)
    match ends with
    | [] => s
    | e :: es =>
      let s := s.advanceTo (es.foldl min e)
      let idle := s.regBits .estConfig [] 15 8 * 1000
      (s.est.slices.map (·.1)).foldl (init := s) fun s t =>
        if (((s.slice t).pins.find x).map fun at_ => decide (at_ + idle ≤ s.now)).getD false then
          s.setSlice t fun v => { v with pins := v.pins.del x }
        else s


/-! ## Sharing among groups (R377) -/

/-- The weight of a key; a coding group shares as one of weight 16 (R416). -/
def State.shareWeight (s : State) (k : Nat) : Nat :=
  if k < 8192 then ((s.est.groups.find k).map (·.weight)).getD 16 else 16

/-- Insertion in ascending order. -/
def insertNat (n : Nat) : List Nat → List Nat
  | [] => [n]
  | x :: xs => if n ≤ x then n :: x :: xs else x :: insertNat n xs

def sortNat (l : List Nat) : List Nat := l.foldr insertNat []

/-- The next group served, given the group of each cell that waits, with the sharing that it leaves: the deficit of a group with
no cells waiting is 0. -/
def Sharing.next (h : Sharing) (weight : Nat → Nat) (waiting : List Nat) : Option Nat × Sharing :=
  let ks := sortNat waiting.eraseDups
  let kept := (h.rest ks).deficit
  let serve (g : Nat) (d : Int) : Option Nat × Sharing :=
    (some g, ⟨if waiting.count g ≤ 1 then kept.del g else kept.setD g 0 (d - 1), some g⟩)
  match ks with
  | [] => (none, ⟨[], h.visit⟩)
  | k0 :: _ =>
    match h.visit.filter fun g => ks.contains g && decide (0 < kept.getD g 0) with
    | some g => serve g (kept.getD g 0)
    | none =>
      let g := (ks.find? fun k =>
        match h.visit with
        | some v => decide (v < k)
        | none => true).getD k0
      serve g (kept.getD g 0 + 4 * weight g)

/-! ## Cells at the slice's input -/

/-- The slice of a tile is in reset. -/
def State.sliceDown (s : State) (t : Nat) : Bool := s.fnDown (fidEst t) || s.fnDown (fidTile t)

/-- A cell passes the checks of R350, which come before any use of its context's lines. -/
def State.fromMember (s : State) (q : QCell) : Bool := (s.rangeOwner q.cell.ctx).any fun o => s.memberOk o q

/-- A CUP or CODE cell of the slice's input served (R377, R190, R399, R434). -/
def State.serveSlice (s : State) (t cls : Nat) : State :=
  let k := qKey t (qEst cls)
  let q := s.queue k
  let v := s.slice t
  let (g, sharing) := (if cls = clsCup then v.cup else v.code).next s.shareWeight (q.map fun c => s.shareKey c.cell.ctx)
  match g with
  | none => s
  | some g =>
    match takeFirst (fun c => decide (s.shareKey c.cell.ctx = g)) q with
    | none => s
    | some (c, rest) =>
      let served (s : State) : State :=
        (s.setQueue k rest).setSlice t fun v => if cls = clsCup then { v with cup := sharing } else { v with code := sharing }
      if c.limit ≤ s.now then ((served s).bump .tileAgeDrops [t, cls]).countClass t cls 3 1 |>.dropCell c
      else if s.sliceDown t then (served s).estDrop .estSliceDrops c
      else if s.codeShut c then (served s).estDrop .bwkResetDrops c
      else
        match (s.ctx c.cell.ctx).filter fun _ => s.fromMember c with
        | some x => s.withLines t c.cell.ctx x (x.linesFor c.cell.member (some c.cell.chunk)) fun s => ((served s).judgeCell t c).settle
        | none => ((served s).judgeCell t c).settle

/-- CUP_RECEIVE (R362 to R368). -/
def execCupReceive (tile : Tile) (s : State) : Out := .next (s.serveSlice tile clsCup)

/-- CODE_RECEIVE (R426 to R429). -/
def execCodeReceive (tile : Tile) (s : State) : Out := .next (s.serveSlice tile clsCode)

/-- TYPE and KIND of a CTRL cell (R104, R388). -/
def ctrlType (c : Cell) : Nat := c.aux / 2 ^ 24
def ctrlKind (c : Cell) : Nat := c.aux / 2 ^ 16 % 256

/-- The CTRL cell at the head of a slice's input, of one type. A slice in reset goes on judging them: contexts open as
always (R399). -/
def State.serveCtrl (s : State) (t type : Nat) (judge : QCell → State → State) : State :=
  let k := qKey t (qEst clsCtrl)
  match s.queue k with
  | [] => s
  | c :: rest =>
    if ctrlType c.cell ≠ type then s
    else
      let served (s : State) : State := s.setQueue k rest
      if c.limit ≤ s.now then ((served s).bump .tileAgeDrops [t, clsCtrl]).countClass t clsCtrl 3 1 |>.dropCell c
      else if s.fnDown (fidTile t) then (served s).estDrop .estSliceDrops c
      else
        let x := c.cell.ctx
        match (s.ctx x).filter fun y => decide (y.st ≠ .free) && s.fromMember c with
        | some y => s.withLines t x y (y.linesFor c.cell.member none) fun s => (judge c (served s)).settle
        | none => ((judge c (served s)).touchLines t x c.cell.member none).settle

/-- OPEN_RECEIVE (R357 to R361). -/
def execOpenReceive (tile : Tile) (s : State) : Out :=
  .next (s.serveCtrl tile 1 fun q s => s.judgeOpenCell q)

/-! ## MISSING and RESEND (R387 to R392) -/

/-- Ascending chunks as ranges, each as long as possible: FIRST and EXTRA. -/
def rangesOf : List Nat → List (Nat × Nat)
  | [] => []
  | n :: rest =>
    match rangesOf rest with
    | (f, e) :: rs => if f = n + 1 then (n, e + 1) :: rs else (n, 0) :: (f, e) :: rs
    | [] => [(n, 0)]

def rangePay (rs : List (Nat × Nat)) : BitVec 512 := mkPay (rs.flatMap fun (f, e) => beBytes 2 f ++ beBytes 2 e)

/-- The chunks that a member lacks (R387, R433, R499). -/
def Ctx.lacksOf (c : Ctx) (m : Nat) : List Nat :=
  let y := c.member m
  let upTo (hi : Nat) : List Nat := (rangeFrom y.mark (hi - y.mark)).filter fun n => !y.has n
  let t := c.type
  if typeReduces t ∨ typeParity t then upTo (min c.ch (c.base + c.w))
  else if t = 3 ∨ (t = 4 ∧ m = dRoot c.desc) then upTo (min c.ch (y.mark + 257))
  else if t = 5 then upTo 1
  else if t = 7 ∧ c.matrixAt = none then upTo c.ch
  else []

/-- LACK cells to one member in one round. -/
def State.sendLack (s : State) (x : Nat) (c : Ctx) (round m : Nat) : State :=
  let open_ := !(c.member m).opened
  let rs := rangesOf (c.lacksOf m)
  if rs.isEmpty ∧ !open_ then s
  else
    let cells := ((List.range 4).map fun i => (rs.drop (16 * i)).take 16).filter fun l => !l.isEmpty
    let cells := if cells.isEmpty then [[]] else cells
    cells.zipIdx.foldl (init := s) fun s (l, i) =>
      let end_ := decide (i + 1 = cells.length)
      let fl := b2n open_ + 2 * b2n (end_ && decide (64 < rs.length))
      if (s.recPort (s.memberRec c m)).isNone then s.noPort .estMissingNoPort c 1
      else
        ((s.sendCtrl x c m round (b2n end_) (0x02000000 + fl * 256 + l.length) (rangePay l) id).modCtx x fun c =>
          { c with lacks := satSum c.lacks 1 }).bump .estMissingCells []

/-- One MISSING round of a context (R387, R390). -/
def State.missingRound (s : State) (x : Nat) (c : Ctx) : State :=
  let s := s.putCtx x { c with rounds := c.rounds + 1 }
  let s := if c.rounds = 0 then
      (c.activeMembers.filter fun m => (s.recPort (s.memberRec c m)).isNone).foldl (init := s) fun s m =>
        s.raiseEv 0x0B02 2 (fidEst (homeOf x 0))
          (beBytes 4 x ++ beBytes 2 m ++ beBytes 2 ((s.recLane (s.memberRec c m)).getD 0xFFFF))
    else s
  c.activeMembers.foldl (fun s m => s.sendLack x c c.rounds m) s

/-- MISSING_ROUND (R387, R390): the next of the four rounds of a context. The slice that makes its cells reads the lines of the
header and of every member (R217), and waits while a link they come over retrains (R508). -/
def execMissingRound (ctx : CtxNum) (met : List BlockErr) (s : State) : Out :=
  .next <|
    let x := ctx.toNat
    let t := homeOf x 0
    match s.ctx x with
    | none => s
    | some c =>
      let need := c.headLines (List.range c.m)
      if !c.st.live ∨ 4 ≤ c.rounds ∨ !s.linesReady t x need then s
      else
        let s := ((s.advanceTo (c.openedAt + dTimeout c.desc * (4 + c.rounds) / 8 * 1000)).readLines t x true need met).1
        match (s.ctx x).filter fun c => c.st.live with
        | none => s.settle
        | some c => s.missingRound x c

/-- One chunk of a RESEND: sent again (some of true), listed as GONE (some of false), or ignored. -/
def State.resendChunk (s : State) (x : Nat) (c : Ctx) (m n : Nat) : Option Bool :=
  let t := c.type
  if t = 7 then
    (if c.matrixAt = none then none else some ((!dFlag c.desc 2 || decide (n = m / 16)) && !c.lostCols.contains n))
  else if t = 3 ∨ t = 4 ∨ typeParity t ∨ t = 11 then some false
  else if c.base ≤ n ∧ !c.cplt.contains n then none
  else
    match c.chunks.find n with
    | some k => some (k.done && (c.recipients n).contains m && !s.sliceDown (homeOf x n))
    | none => some false

/-- The ranges of a RESEND. -/
def resendRanges (q : QCell) : List (Nat × Nat) :=
  (List.range (q.cell.aux % 256)).map fun i => (q.cell.payNat (4 * i) 2, q.cell.payNat (4 * i + 2) 2)

/-- The chunks that a RESEND lists. -/
def resendChunks (q : QCell) : List Nat := sortNat ((resendRanges q).flatMap fun r => rangeFrom r.1 (r.2 + 1)).eraseDups

/-- The number and the ranges of a RESEND are legal (R391). -/
def Ctx.resendLegal (c : Ctx) (q : QCell) : Bool :=
  let n := q.cell.aux % 256
  let rs := resendRanges q
  decide (1 ≤ n ∧ n ≤ 16) && rs.all (fun r => decide (r.1 + r.2 < c.ch)) && decide ((rs.map fun r => r.2 + 1).sum ≤ 256)

/-- The chunks of a RESEND whose held results go again, by what the records say. -/
def State.resendHeld (s : State) (x : Nat) (c : Ctx) (q : QCell) : List Nat :=
  if c.resendLegal q then (resendChunks q).filter fun j => decide (s.resendChunk x c q.cell.member j = some true) else []

/-- The slots of chunks read by the slices that home them (R217, R392). -/
def State.readSlots (s : State) (x : Nat) (c : Ctx) (chunks : List Nat) (met : List BlockErr) : State :=
  (chunks.foldl (fun a j => a.1.readLines (homeOf x j) x c.st.live (c.slotLines j) a.2) (s, met)).1

/-- The chunks of a RESEND sent again, and the others that are not held listed in one GONE cell (R392). -/
def State.resend (s : State) (x m : Nat) (chunks : List Nat) : State :=
  match s.ctx x with
  | none => s
  | some c =>
    let again := chunks.filter fun j => decide (s.resendChunk x c m j = some true)
    let gone := chunks.filter fun j => decide (s.resendChunk x c m j = some false)
    let s := again.foldl (init := s) fun s j =>
      if c.type = 7 then s.sendMatrix x c m [j] (List.range c.m)
      else
        match c.chunks.find j with
        | some k => s.sendChunk x c j k [m]
        | none => s
    let gr := (rangesOf gone).take 16
    let told := (gr.map fun r => r.2 + 1).sum
    let s := (s.modCtx x fun c => { c with resent := satSum c.resent again.length, gone := satSum c.gone told }).bumpBy
      .estResendChunks [] again.length
    if gone.isEmpty then s
    else
      (s.sendCtrl x c m 0 1 (0x02020000 + 512 * b2n (decide (16 < (rangesOf gone).length)) + gr.length) (rangePay gr)
        fun s => s.noPort .estMissingNoPort c 1).bumpBy .estGoneChunks [] told

/-- A RESEND judged (R391, R392). -/
def State.judgeResend (s : State) (q : QCell) (met : List BlockErr) : State :=
  let x := q.cell.ctx
  let m := q.cell.member
  match s.rangeOwner x with
  | none => s.estDrop .estNonmemberDrops q
  | some o =>
    if !s.memberOk o q then s.estDrop .estNonmemberDrops q
    else
      match (s.ctx x).filter fun c => decide (c.st ≠ .free) && !s.spanned x with
      | none =>
        if !o.coding && recExcluded (o.record m) then s.estDrop .estExcludedDrops q else s.estDrop .estResendDrops q
      | some c =>
        if (c.member m).excluded then (s.putCtx x { c with excl := satSum c.excl 1 }).estDrop .estExcludedDrops q
        else
          if !c.resendLegal q then s.estDrop .estResendDrops q
          else (s.readSlots x c (s.resendHeld x c q) met).resend x m (resendChunks q)

/-- The links that the slots of a RESEND come over carry data (R508). -/
def State.resendReady (s : State) (q : QCell) : Bool :=
  match s.ctx q.cell.ctx with
  | none => true
  | some c => (s.resendHeld q.cell.ctx c q).all fun j => s.linesReady (homeOf q.cell.ctx j) q.cell.ctx (c.slotLines j)

/-- RESEND_RECEIVE (R391): the cell waits while a link that its slots come over retrains. A MISSING cell of another kind from a
member is discarded. -/
def execResendReceive (tile : Tile) (met : List BlockErr) (s : State) : Out :=
  .next <|
    if (s.queue (qKey tile (qEst clsCtrl))).head?.any fun q => !s.resendReady q then s
    else s.serveCtrl tile 2 fun q s => if ctrlKind q.cell = 1 then s.judgeResend q met else s

/-! ## Timed happenings -/

/-- CONTEXT_DEADLINE (R386): completion by a cell judged at that moment wins (R409). -/
def execContextDeadline (ctx : CtxNum) (s : State) : Out :=
  .next <|
    match s.ctx ctx.toNat with
    | none => s
    | some c =>
      if !c.st.live then s
      else
        let s := s.advanceTo c.deadline
        if c.completes s.now then (s.completeNow ctx.toNat).settle else (s.endCtx ctx.toNat .partialEnd 16 0).settle

/-- Groups whose every number is FREE at last: GROUP_DESTROY and BWK_GROUP_DESTROY complete (R351, R419). -/
def State.judgeDestroys (s : State) : State :=
  let idle (base count : Nat) : Bool := s.est.ctxs.all fun c => decide (c.2.st = .free) || !decide (base ≤ c.1 ∧ c.1 < base + count)
  let gone := s.est.groups.filter fun g => g.2.destroying.isSome && idle g.2.base g.2.count
  let s := gone.foldl (init := s) fun s g =>
    ({ s with est := { s.est with groups := s.est.groups.del g.1 } } : State).endJobs
      (fun j => decide (j = .groupDestroy g.1)) ⟨stOk, 0, beBytes 4 (g.2.destroying.getD 0)⟩
  let gone := s.bwk.groups.filter fun g => g.2.destroying.isSome && idle g.2.base g.2.count
  gone.foldl (init := s) fun s g =>
    ({ s with bwk := { s.bwk with
        groups := s.bwk.groups.del g.1
        parity := s.bwk.parity.filter fun e => decide (e.1 / 2 ^ 31 ≠ g.1) } } : State).endJobs
      (fun j => decide (j = .bwkDestroy g.1)) ⟨stOk, 0, beBytes 4 (g.2.destroying.getD 0)⟩

/-- LINGER_EXPIRY (R355): the context returns to FREE; its records stay. -/
def execLingerExpiry (ctx : CtxNum) (s : State) : Out :=
  .next <|
    match s.ctx ctx.toNat with
    | none => s
    | some c =>
      if c.st.terminal then
        ((s.advanceTo c.lingerEnd).putCtx ctx.toNat { c with
          st := .free, chunks := [], staging := none, matrix := [], lostCols := [] }).judgeDestroys
      else s

/-- PACE_ROUND_START (R370): the round computed last starts, and the next one is computed; or the last round ends. -/
def execPaceRoundStart (ctx : CtxNum) (s : State) : Out :=
  .next <|
    let x := ctx.toNat
    match s.ctx x with
    | none => s
    | some c =>
      if c.st ≠ .active then s
      else
        match c.nextRound with
        | some r =>
          let s := s.advancePtp r.start
          let s := s.putCtx x { c with current := some r, nextRound := none, ended := r.number }
          let next := r.start + dRound c.desc * 1000
          if c.rem_.isEmpty then s.lastCells x (r.number + 1) next else s.planRound x (r.number + 1) next
        | none =>
          match c.current with
          | none => s
          | some r =>
            let s := s.advancePtp (r.start + dRound c.desc * 1000)
            ((s.putCtx x { c with current := none, ended := r.number + 1 }).endCtx x .done 0 0).settle

/-- The byte of BREAKWATER at which P of a chunk of a unit lies; Q lies 2 MiB behind it (R420). -/
def Coding.parityAddr (g : Coding) (u n : Nat) : Nat :=
  let slot := g.slots.getD u 0
  (slot / 256 * 4 + u % 4) * 2 ^ 30 + slot % 256 * 2 ^ 22 + 64 * n

/-- A unit becomes DAMAGED; a parity context that holds it is aborted (R431, R433). -/
def State.damage (s : State) (g u : Nat) : State :=
  match s.bwk.groups.find g with
  | none => s
  | some c =>
    let s : State := { s with bwk := { s.bwk with groups := s.bwk.groups.put g { c with units := c.units.setD u .empty .damaged } } }
    let hit := (s.est.ctxs.filter fun e => e.2.st.live && typeParity e.2.type && decide (e.2.group = g ∧ dUnit e.2.desc = u)).map (·.1)
    hit.foldl (fun s x => s.endCtx x .aborted 20 0) s

/-- DELTA_APPLY (R218, R428): one Δ at a bridge, once its bytes have passed the link. Its access is to P (block 0) and Q
(block 1) of the chunk; a bad one damages the unit (R221). -/
def execDeltaApply (bridge : Bridge) (met : List BlockErr) (s : State) : Out :=
  .next <|
    match s.bwk.deltas.getD bridge [] with
    | [] => s
    | d :: rest =>
      if s.fnDown (fidBrg bridge) ∨ !s.linkUp (16 + bridge.val) then s
      else
        let s := s.advanceTo (s.linkDue bridge true 2 d.mark)
        let s : State := { s with bwk := { s.bwk with deltas := s.bwk.deltas.setD bridge [] rest } }
        match s.ctx d.ctx with
        | none => s
        | some c =>
          let u := dUnit c.desc
          let n := dOffset c.desc + d.chunk
          let at_ := ((s.bwk.groups.find c.group).map fun g => g.parityAddr u n).getD 0
          let s := s.meet 2 2 (fun e => addrStack (at_ + e.block * 2 ^ 21)) met
          if !c.st.live then s
          else if !(lostBlocks 2 met).isEmpty then (s.damage c.group u).settle
          else
            let (p, q) := s.parityOf c.group (dUnit c.desc) n
            let new := (p ^^^ d.data, q ^^^ gfScale (gfPow d.position) d.data)
            let parity := s.bwk.parity.setD (parityKey c.group (dUnit c.desc) n) (0, 0) new
            let s : State := { s with bwk := { s.bwk with parity := parity } }
            let k := c.chunks.getD d.chunk ⟨0, s.now, [], 0, 0, false, false⟩
            (((s.putCtx d.ctx { c with chunks := c.chunks.put d.chunk { k with k := k.k + 1 } }).bump
              .bwkDeltaChunks []).judgeChunks d.ctx).settle

/-! ## The reset of a slice (R399) -/

/-- The slice touches a live context (R399, R433, R499). -/
def Ctx.touched (c : Ctx) (x t : Nat) : Bool :=
  let ty := c.type
  let homes (n : Nat) : Bool := decide (homeOf x n = t)
  if ty = 6 then homes 0
  else if ty = 7 then
    homes 0 || (List.range c.ch).any fun n => homes n && !(c.activeMembers.all fun m => (c.member m).has n)
  else if ty = 3 ∨ ty = 4 then
    (List.range c.ch).any fun n => homes n &&
      !((if ty = 4 then [dRoot c.desc] else c.activeMembers).all fun m => (c.member m).has n)
  else if ty = 11 then
    (List.range c.ch).any fun n => homes n && decide (c.base ≤ n) && !c.cplt.contains n
  else (rangeFrom c.base (c.ch - c.base)).any fun n => homes n && !c.cplt.contains n

/-- The slices other than `t` write back their lines of a context (R399); those bound for a bridge in reset are held (R223). -/
def State.writeBackAll (s : State) (x t : Nat) : State :=
  (s.est.slices.filter fun e => decide (e.1 ≠ t)).foldl (init := s) fun s e =>
    let due (l : CacheLine) : Bool := decide (l.ctx = x) && l.dirty && !s.fnDown (fidBrg (lineBridge x l.line))
    let s := (e.2.lines.filter due).foldl State.writeBack s
    s.setSlice e.1 fun v => { v with lines := v.lines.map fun l => if due l then { l with dirty := false } else l }

/-- A cell is a forwarded copy of an ALLGATHER or BROADCAST chunk (R406). -/
def State.isCopy (s : State) (q : QCell) : Bool := (s.ctx q.cell.ctx).any fun c => c.copies && c.ownResult q.cell.ctx q

/-- The start of a function reset of Estuary slice `t`. DESIGN CHOICE: the cells that it holds for stage 4 are among those it
loses, but for the copies that it has forwarded (log entry 41). -/
def State.resetSlice (s : State) (t : Nat) : State :=
  let hit := (s.est.ctxs.filter fun e => e.2.st.live && e.2.touched e.1 t).map (·.1)
  let s := hit.foldl (fun s x => s.endCtx x .aborted 19 0) s
  let s := hit.foldl (fun s x => s.writeBackAll x t) s
  let made (q : QCell) : Bool :=
    decide (q.src = .generated) && decide (q.cls = clsCdn ∨ q.cls = clsCode ∨ (q.cls = clsCtrl ∧ q.cell.aux / 2 ^ 24 < 0x10)) && !s.isCopy q
  let mine := ((s.tile t).looked ++ (s.tile t).held).filter made
  let lost := ((List.range 8).flatMap fun c => s.queue (qKey t (qEst c))) ++ (s.slice t).early ++ mine
  let s := (List.range 8).foldl (fun s c => s.setQueue (qKey t (qEst c)) []) s
  let s := s.setTile t fun y => { y with looked := y.looked.filter fun q => !made q, held := y.held.filter fun q => !made q }
  let s := lost.foldl (fun s q => s.estDrop .estSliceDrops q) s
  let ctxs : AMap Ctx := s.est.ctxs.map fun e =>
    (e.1, { e.2 with
      chunks := e.2.chunks.filter fun k => decide (homeOf e.1 k.1 ≠ t)
      handing := e.2.handing.filter fun k => e.2.copies || decide (homeOf e.1 k.1 ≠ t) })
  let s : State := { s with est := { s.est with ctxs := ctxs, slices := s.est.slices.del t } }
  ((s.est.ctxs.map (·.1)).foldl State.judgeWork s).settle

end Sys2Proof.Machine
end

