-- ==== Sys2Proof/Machine/Tc.lean ====
section
/-! DEFINITION. Scheduling, shaping and policing (R274 to R285), and the gates of the tide tables (R276). -/

namespace Sys2Proof.Machine

/-! ## Charged length (R274, R275) -/

/-- A signed field of `n` bits. -/
def signedOf (n v : Nat) : Int := if 2 ^ (n - 1) ≤ v then (v : Int) - 2 ^ n else v

/-- V of a port. -/
def State.overhead (s : State) (p : Nat) : Int :=
  if s.regBits .tileTcPort [tileOf p, slotOf p] 7 7 = 1 then
    signedOf 7 (s.regBits .tileTcPort [tileOf p, slotOf p] 6 0)
  else if s.isC p then 0 else 20

/-- The charged length of a cell on a port. -/
def State.charged (s : State) (p : Nat) (c : Cell) : Nat :=
  let v := s.overhead p
  let n : Int := if c.cls = clsOrd then (c.member : Int) + (if c.chunk = 0 then v else 0) else 80 + v
  n.toNat.max 1

/-- Set 1 (R575): a cell received or sent on a port. -/
def State.countRx (s : State) (p : Nat) (c : Cell) : State :=
  (s.csAdd 1 p (5 * c.cls) 1).csAdd 1 p (5 * c.cls + 2) (s.charged p c)
def State.countTx (s : State) (p : Nat) (c : Cell) : State :=
  (s.csAdd 1 p (5 * c.cls + 1) 1).csAdd 1 p (5 * c.cls + 3) (s.charged p c)

/-! ## Buckets -/

/-- Tokens once they have grown at a rate up to a ceiling. -/
def Bucket.refill (b : Bucket) (rate burst now : Nat) : Bucket :=
  ⟨min ((burst * 1024 * 80 : Nat) : Int) (b.tokens + (rate * (now - b.at_) : Nat)), now⟩

/-- A full bucket. -/
def Bucket.full (burst now : Nat) : Bucket := ⟨((burst * 1024 * 80 : Nat) : Int), now⟩

/-- RATE and BURST of a register laid out as R288. -/
def rateOf (w : Word) : Nat := Word.bits w 15 0
def burstOf (w : Word) : Nat := Word.bits w 27 16

/-- The policer of a class of a port, grown to now. -/
def State.policer (s : State) (p c : Nat) : Bucket :=
  let w := s.reg .tileTcPolice [tileOf p, 8 * slotOf p + c]
  (s.tc.policers.getD (8 * p + c) (Bucket.full (burstOf w) s.now)).refill (rateOf w) (burstOf w) s.now

/-- The register of a shaper: the port shaper under class 0. -/
def State.shapeReg (s : State) (p c : Nat) : Word :=
  if c = 0 then s.reg .tileTcPshape [tileOf p, slotOf p] else s.reg .tileTcQshape [tileOf p, 8 * slotOf p + c]

/-- A shaper grown to now. -/
def State.shaper (s : State) (p c : Nat) : Bucket :=
  let w := s.shapeReg p c
  (s.tc.shapers.getD (8 * p + c) ⟨0, 0⟩).refill (rateOf w) (burstOf w) s.now

/-- A shaper that is off always holds positive tokens (R280). -/
def State.shaperOpen (s : State) (p c : Nat) : Bool :=
  decide (rateOf (s.shapeReg p c) = 0) || decide (0 < (s.shaper p c).tokens)

/-- A charge on a shaper: never below -9,279 bytes; a shaper that is off is not charged. -/
def State.chargeShaper (s : State) (p c n : Nat) : State :=
  if rateOf (s.shapeReg p c) = 0 then s
  else
    let b := s.shaper p c
    let left : Bucket := { b with tokens := max (-9279 * 80) (b.tokens - (n * 80 : Nat)) }
    { s with tc := { s.tc with shapers := s.tc.shapers.put (8 * p + c) left } }

/-- The bucket of a stream at a tile. -/
def State.streamBucket (s : State) (w : Word) (x t : Nat) : Bucket :=
  (s.tc.streamBuckets.getD (64 * x + t) (Bucket.full (burstOf w) s.now)).refill (rateOf w) (burstOf w) s.now

/-- The verdict of the policers a cell meets (R283). -/
inductive Policed where
  | pass (s : State)
  | portDrop
  | streamDrop

/-- A cell judged by its port policer and its stream policer. -/
def State.police (s : State) (p : Nat) (c : Cell) : Policed :=
  let t := tileOf p
  let n : Int := (s.charged p c * 80 : Nat)
  let kind := decide (c.cls = clsFreq ∨ c.cls = clsFrsp ∨ c.cls = clsOrd)
  let pw := s.reg .tileTcPolice [t, 8 * slotOf p + c.cls]
  let portOn := kind && decide (rateOf pw ≠ 0)
  let pb := s.policer p c.cls
  let stream := if c.cls = clsFreq ∨ c.cls = clsFrsp then s.tc.streams.find c.ctx else none
  let portOk := !portOn || decide (n ≤ pb.tokens)
  let streamOk := match stream with
    | none => true
    | some w => decide (n ≤ (s.streamBucket w c.ctx t).tokens)
  if !portOk then .portDrop
  else if !streamOk then .streamDrop
  else
    let pol := if portOn then s.tc.policers.put (8 * p + c.cls) { pb with tokens := pb.tokens - n }
      else s.tc.policers
    let str := match stream with
      | none => s.tc.streamBuckets
      | some w =>
        let b := s.streamBucket w c.ctx t
        s.tc.streamBuckets.put (64 * c.ctx + t) { b with tokens := b.tokens - n }
    .pass { s with tc := { s.tc with policers := pol, streamBuckets := str } }

/-- A shaper's tokens set to 0 at this moment (R284). -/
def State.zeroShaper (s : State) (p c : Nat) : State :=
  { s with tc := { s.tc with shapers := s.tc.shapers.put (8 * p + c) ⟨0, s.now⟩ } }

/-- A port forms (R284): policers full, shapers at 0, every DC_c at 0. -/
def State.tcForm (s : State) (p : Nat) : State :=
  let s := [0, 1, 2, 3, 4, 5, 6].foldl (fun s c => s.zeroShaper p c) s
  { s with
    tc := { s.tc with
      policers := s.tc.policers.filter fun e => decide (e.1 / 8 ≠ p)
      dc := s.tc.dc.filter fun e => decide (e.1 / 8 ≠ p)
      drr := s.tc.drr.del p } }

/-! ## Tide gates (R276, R306) -/

/-- The window of a table that is current at a PTP time. -/
def TidePort.current (tp : TidePort) (p : Nat) : Option Window :=
  tp.windows.find? fun w => decide (w.start ≤ p % 2 ^ tp.k ∧ p % 2 ^ tp.k < w.start + w.len)

/-- The class is open on a port. -/
def State.classOpen (s : State) (p c : Nat) : Bool :=
  match s.tide.active.find p with
  | none => true
  | some tp =>
    match tp.current s.ptpNs with
    | some w => bit w.gate c
    | none => decide (c ≠ clsSched)

/-! ## Queues at egress -/

/-- The partner's credit allows a cell of a class (R114). -/
def PortSt.credit (x : PortSt) (c : Nat) : Bool :=
  let d := (x.limitIn.getD c 0 + 65536 - x.sent.getD c 0 % 65536) % 65536
  decide (1 ≤ d ∧ d ≤ 32767)

/-- The frame that a port is sending has been aborted: what ends it is still to go (R183). -/
def State.endDue (s : State) (p : Nat) : Bool := (s.frames.sending.find p).any fun f => s.frames.aborted.contains f.1

/-- The queue holds a cell; the end of an aborted frame counts as one of ORD. -/
def State.backlog (s : State) (p c : Nat) : Bool := !(s.queue (eqKey p c)).isEmpty || (decide (c = clsOrd) && s.endDue p)

/-- The queue is eligible (R276). -/
def State.eligible (s : State) (p c : Nat) : Bool :=
  s.backlog p c && s.classOpen p c && (!s.isC p || (s.port p).credit c) &&
  (decide (c = clsCtrl ∨ c = clsSched) || (s.shaperOpen p c && s.shaperOpen p 0))

/-- WEIGHT_c × 512 bytes (R278). -/
def State.quantum (s : State) (p c : Nat) : Nat :=
  s.regBits .tileTcWeight [tileOf p, slotOf p] (5 * (c - 1) + 4) (5 * (c - 1)) * 512

/-- The queue that the deficit round robin of R278 serves next, with the pointer and deficits it leaves. `ok` narrows
the eligible queues further; `fuel` bounds the visits. -/
def State.drrNext (s : State) (p : Nat) (ok : Nat → Bool) : Nat → Option Nat × State
  | 0 => (none, s)
  | fuel + 1 =>
    let (c, given) := s.tc.drr.getD p (1, false)
    let onward : State := { s with tc := { s.tc with drr := s.tc.drr.setD p (1, false) (c % 6 + 1, false) } }
    if s.eligible p c && ok c then
      let s := if given then s else s.setDc p c (s.dcOf p c + s.quantum p c)
      let here : State := { s with tc := { s.tc with drr := s.tc.drr.setD p (1, false) (c, true) } }
      if 0 < s.dcOf p c then (some c, here)
      else State.drrNext { s with tc := { s.tc with drr := s.tc.drr.setD p (1, false) (c % 6 + 1, false) } } p ok fuel
    else State.drrNext onward p ok fuel

/-- The pointer leaves a queue that it stands on and that is not eligible any more (R278, R285). -/
def State.passPointer (s : State) (p : Nat) (ok : Nat → Bool) : State :=
  let (c, given) := s.tc.drr.getD p (1, false)
  if given && !(s.eligible p c && ok c) then
    { s with tc := { s.tc with drr := s.tc.drr.setD p (1, false) (c % 6 + 1, false) } }
  else s

/-- The service order of R277: the class served next. -/
def State.nextClass (s : State) (p : Nat) (ok : Nat → Bool) : Option Nat × State :=
  let s := s.passPointer p ok
  if s.eligible p clsCtrl && ok clsCtrl then (some clsCtrl, s)
  else if s.eligible p clsSched && ok clsSched then (some clsSched, s)
  else if (List.range 6).any fun i => s.eligible p (i + 1) && ok (i + 1) then s.drrNext p ok 128
  else (none, s)

/-- What sending a cell charges: its queue's shaper and deficit, and the port shaper. -/
def State.chargeSent (s : State) (p c : Nat) (cell : Cell) : State :=
  let n := s.charged p cell
  let s := (s.countTx p cell).chargeShaper p 0 n
  if c = clsCtrl ∨ c = clsSched then s
  else
    let s := s.chargeShaper p c n
    let d := s.dcOf p c - n
    s.setDc p c (if (s.queue (eqKey p c)).isEmpty ∧ 0 ≤ d then 0 else d)

end Sys2Proof.Machine
end

