-- ==== Sys2Proof/Machine/Tide.lean ====
section
/-! DEFINITION. Tide tables: their windows, the circuits that their actions set (R479 to R482), the deadline check (R310 to
R314), the end of a commit (R315) and the removal of a table (R316, R502). -/

namespace Sys2Proof.Machine

/-! ## Cyclic intervals -/

/-- The first moment at or after `p` whose offset in a cycle of 2^k ns is `off`. -/
def nextAt (k off p : Nat) : Nat := p + (off + 2 ^ k - p % 2 ^ k) % 2 ^ k

/-- From `a` forward to `b` in a cycle. -/
def forward (cycle a b : Nat) : Nat := (b % cycle + cycle - a % cycle) % cycle

/-- Two intervals, each a start and a length, meet in a cycle. -/
def cycMeet (cycle a la b lb : Nat) : Bool :=
  decide (0 < la ∧ 0 < lb ∧ (forward cycle a b < la ∨ forward cycle b a < lb))

/-! ## Circuits (R475, R476) -/

/-- An entry of the plan's circuit table; an empty one where it lists none. -/
def State.circuit (s : State) (i : Nat) : CircuitEntry :=
  match s.plan with
  | some p => p.circuits.getD i ⟨0, 0, 0⟩
  | none => ⟨0, 0, 0⟩

/-- The lanes that the paths of a circuit hold. -/
def CircuitEntry.lanes (c : CircuitEntry) : List Nat :=
  (maskBits 8 c.mask).flatMap fun w => [8 * c.a + w, 8 * c.b + w]

/-- The paths of a circuit: the output lane and the input fibre. -/
def CircuitEntry.paths (c : CircuitEntry) : List (Nat × Nat) :=
  (maskBits 8 c.mask).flatMap fun w => [(8 * c.b + w, c.a), (8 * c.a + w, c.b)]

/-- Two circuits hold a lane in common. -/
def CircuitEntry.meets (c d : CircuitEntry) : Bool := c.lanes.any fun l => d.lanes.contains l

/-- The lanes held by the paths in force. -/
def Csw.lanes (c : Csw) : List Nat := c.paths.flatMap fun p => [p.1, p.1 / 128 * 128 + 8 * p.2.src + p.1 % 8]

/-- An engine holds circuits set by CSW_CIRCUIT. -/
def Csw.direct (c : Csw) (e : Nat) : Bool := c.paths.any fun p => decide (p.1 / 128 = e) && p.2.direct

/-- The routing rings of a path, as its engine numbers them: divert rings by input fibre and wavelength, crosspoints by
plane, input and output, exchange rings by output fibre and wavelength (R473). -/
def pathRings (k src : Nat) : List Nat :=
  let w := k % 8
  [8 * src + w, 128 + 256 * w + 16 * src + k % 128 / 8, 2176 + k % 128]

/-- The lane of the divert ring of a path. -/
def divertOf (e k src : Nat) : Nat := 128 * e + 8 * src + k % 8

/-- A change starts on an engine: paths that it sets and clears (R483). Cleared paths are IDLE (R485), and their rings
release. -/
def State.startChange (s : State) (e : Nat) (set : List (Nat × CswPath)) (clear : List Nat) : State :=
  let kept := s.csw.paths.filter fun p => !(clear.contains p.1)
  let csw : Csw := { s.csw with
    paths := set.foldl (fun m p => m.put p.1 p.2) kept
    heaters := (s.csw.paths.filter fun p => clear.contains p.1).foldl (init := s.csw.heaters) fun m p =>
      (pathRings p.1 p.2.src).foldl (fun m i => m.del (2304 * e + i)) m
    changes := s.csw.changes.put e s.now
    diverts := set.foldl (fun m p => m.setD (divertOf e p.1 p.2.src) .pass .matrix) <|
      (s.csw.paths.filter fun p => clear.contains p.1).foldl (fun m p => m.del (divertOf e p.1 p.2.src)) s.csw.diverts }
  ({ s with csw := csw } : State).bump .cswChanges []

/-- The paths of a circuit-table entry as a change sets them. -/
def State.schedPaths (s : State) (i : Nat) : List (Nat × CswPath) :=
  (s.circuit i).paths.map fun p => (p.1, CswPath.set (p.2 % 16) false i)

/-! ## The actions of a set of tables (R480) -/

/-- A table that would be in force, and whether it comes from the staged set. -/
abbrev Placed := TidePort × Bool

/-- A window of a placed table. -/
structure PlacedWin where
  lane : Nat
  staged : Bool
  w : Window

/-- The windows of an engine, in rising START. -/
def engineWins (ts : List Placed) (e : Nat) : List PlacedWin :=
  sortBy (fun x => x.w.start) <| (ts.filter fun t => decide (engineOf t.1.lane = e)).flatMap fun t =>
    t.1.windows.map fun w => ⟨t.1.lane, t.2, w⟩

/-- The cycle of an engine. -/
def engineCycle (ts : List Placed) (e : Nat) : Nat :=
  match ts.find? fun t => decide (engineOf t.1.lane = e) with
  | some t => 2 ^ t.1.k
  | none => 1

def Window.entry (w : Window) : Nat := w.action % 4096
def Window.sets (w : Window) : Bool := bit w.action 15
/-- MASK of a Swell window. -/
def Window.mask (w : Window) : Nat := w.action / 256 % 256

/-- The lanes that a Swell window holds. -/
def PlacedWin.swellLanes (x : PlacedWin) : List Nat := (maskBits 8 x.w.mask).map fun w => fibreOf x.lane * 8 + w

/-- The circuits in force just after offset `o`: those whose latest action, cyclically, is a set. -/
def circuitsAt (acts : List PlacedWin) (o : Nat) : List Nat :=
  let ids := (acts.map fun a => a.w.entry).eraseDups
  ids.filter fun i =>
    let mine := acts.filter fun a => decide (a.w.entry = i)
    match (mine.filter fun a => decide (a.w.start ≤ o)).getLast? with
    | some a => a.w.sets
    | none => match mine.getLast? with
      | some a => a.w.sets
      | none => false

/-- How long a circuit set at an action stays set, in the cycle. -/
def heldFor (cycle : Nat) (acts : List PlacedWin) (a : PlacedWin) : Nat :=
  let ends := (acts.filter fun b => decide (b.w.entry = a.w.entry) && !b.w.sets).map fun b =>
    forward cycle a.w.start b.w.start
  match ends with
  | [] => cycle
  | d :: ds => ds.foldl min d

/-- Why a replay refuses: a status, a detail and a window. -/
structure Refused where
  status : Nat
  detail : Nat
  win : PlacedWin

/-- The replay of the actions of an engine from the circuits in force (R480). -/
def State.replay (s : State) (cycle : Nat) (acts swells : List PlacedWin) : List Nat → List PlacedWin → Option Refused
  | _, [] => none
  | live, a :: rest =>
    let c := s.circuit a.w.entry
    let bad : Option Refused := some ⟨stBadParam, 0xFFFF, a⟩
    let f := fibreOf a.lane
    if c.mask = 0 then bad
    else if c.a / 16 ≠ f / 16 then some ⟨stRefusedPlan, f, a⟩
    else if f ≠ c.a ∧ f ≠ c.b then bad
    else if a.w.sets then
      if live.contains a.w.entry ∨ live.any (fun j => (s.circuit j).meets c) ∨
          swells.any (fun x => cycMeet cycle a.w.start (heldFor cycle acts a) x.w.start x.w.len &&
            x.swellLanes.any c.lanes.contains) then bad
      else State.replay s cycle acts swells (a.w.entry :: live) rest
    else if live.contains a.w.entry then State.replay s cycle acts swells (live.filter (· ≠ a.w.entry)) rest
    else bad

/-- R480 and R488 for one engine. DESIGN CHOICE: where the engine holds direct circuits, the window reported is its first (log
entry 44). -/
def State.causewayCheck (s : State) (ts : List Placed) (e : Nat) : Option Refused :=
  let wins := engineWins ts e
  let cycle := engineCycle ts e
  let acts := wins.filter fun x => x.w.causeway
  let swells := wins.filter fun x => x.w.swell
  match if s.csw.direct e then (wins.head?).map fun x => (⟨stBadParam, 0xFFFF, x⟩ : Refused) else none with
  | some r => some r
  | none =>
  match s.replay cycle acts swells (circuitsAt acts cycle) acts with
  | some r => some r
  | none =>
    (swells.find? fun x => swells.any fun y =>
      cycMeet cycle x.w.start x.w.len y.w.start y.w.len && decide (x.w.mask &&& y.w.mask ≠ 0) &&
        decide (x.w.start ≠ y.w.start ∨ x.w.len ≠ y.w.len)).map fun x => ⟨stBadParam, 0xFFFF, x⟩

/-! ## The deadline check (R310 to R314) -/

/-- The diversion intervals of an engine (R481): the window that causes each, lane, start and length. -/
def State.diverters (s : State) (ts : List Placed) (e : Nat) : List (PlacedWin × Nat × Nat × Nat) :=
  let wins := engineWins ts e
  let cycle := engineCycle ts e
  let acts := wins.filter fun x => x.w.causeway
  wins.flatMap fun x => List.map (fun d => (x, d)) <|
    let from_ := (x.w.start + 3 * 4000 * cycle - 4000) % cycle
    if x.w.causeway ∧ x.w.sets then
      (s.circuit x.w.entry).lanes.map fun l => (l, from_, heldFor cycle acts x + 49000)
    else if x.w.swell then x.swellLanes.map fun l => (l, from_, x.w.len + 4000)
    else []

/-- Lane, start and length alone. -/
def State.diversions (s : State) (ts : List Placed) (e : Nat) : List (Nat × Nat × Nat) := (s.diverters ts e).map (·.2)

/-- Cells that SCHED_BYTES asks for. -/
def Window.cells (w : Window) : Nat := (w.bytes + 79) / 80

/-- The capacity of a window (R311) on `n` lanes. -/
def capacity (cmode : Bool) (n : Nat) (w : Window) : Int :=
  if cmode then (15 * n - b2n (bit w.gate 0 && bit w.gate 7) * n : Nat) * ((1999 * w.len / 102400 : Nat) - 1)
  else
    let b : Int := if w.gate / 2 % 64 ≠ 0 then 9236 else if w.gate = 0x81 then 128 else 0
    let x := (25 * n * 1999 * w.len / 2000 : Nat) - b
    18 * (x / 1482) + max 0 ((x % 1482 - 42) / 80)

/-- A failing condition's staged windows, with its reason. -/
def failing (reason : Nat) (xs : List PlacedWin) : List (Nat × Nat) :=
  (xs.filter (·.staged)).map fun x => (x.w.pos, reason)

/-- Conditions 1 to 3 of one table of an engine whose windows are `wins`. A window of an active table fails the third through the
staged windows that divert its lanes: those take part (R314). -/
def State.tableFails (s : State) (wins : List PlacedWin) (div : List (PlacedWin × Nat × Nat × Nat)) (t : Placed) : List (Nat × Nat) :=
  let ws := t.1.windows.map fun w => (⟨t.1.lane, t.2, w⟩ : PlacedWin)
  let width := s.widthAt t.1.lane
  let cycle := 2 ^ t.1.k
  ws.flatMap fun x =>
    let w := x.w
    let cross := ws.filter fun y => decide (y.w.pos ≠ w.pos ∧ max w.start y.w.start < min (w.start + w.len) (y.w.start + y.w.len))
    let mine := rangeFrom t.1.lane width
    let met := div.filter fun d => mine.contains d.2.1 && cycMeet cycle d.2.2.1 d.2.2.2 w.start w.len
    let n := (mine.filter fun l => !(met.any fun d => decide (d.2.1 = l))).length
    let causes := wins.filter fun y => met.any fun d =>
      decide (d.1.w.pos = y.w.pos ∧ d.1.lane = y.lane) || (d.1.w.causeway && y.w.causeway && decide (d.1.w.entry = y.w.entry))
    (if cross.isEmpty then [] else failing 1 [x]) ++
    (if w.len < 64 then failing 2 [x] else []) ++
    (if capacity (s.isC t.1.lane) n w < w.cells then failing 3 (if x.staged then [x] else causes) else [])

/-- 40 µs at the slowest rate (R312). -/
def guardNs : Nat := 40021

/-- Condition 4 on one engine: the guard of each change. -/
def guardFails (ts : List Placed) (e : Nat) : List (Nat × Nat) :=
  let wins := engineWins ts e
  let cycle := engineCycle ts e
  (wins.filter fun x => x.w.causeway).flatMap fun a =>
    let met := wins.filter fun y =>
      ((bit y.w.gate 0 || y.w.swell) && cycMeet cycle a.w.start guardNs y.w.start y.w.len) ||
        (y.w.causeway && decide (y.w.pos ≠ a.w.pos ∨ y.lane ≠ a.lane) && decide (forward cycle a.w.start y.w.start < guardNs))
    if met.isEmpty then [] else failing 4 (a :: met)

/-- The sum of fractions, as one fraction. -/
def fracSum (fs : List (Nat × Nat)) : Nat × Nat := fs.foldl (fun a f => (a.1 * f.2 + f.1 * a.2, a.2 * f.2)) (0, 1)

/-- Condition 5 for a destination tile: the load where a window starts. -/
def loadFails (ts : List Placed) (d : Nat) : List (Nat × Nat) :=
  let wins := (ts.filter fun t => decide (tileOf t.1.lane = d)).flatMap fun t =>
    (t.1.windows.filter fun w => bit w.gate 0 && decide (0 < w.len)).map fun w => (⟨t.1.lane, t.2, w⟩ : PlacedWin)
  wins.flatMap fun x =>
    let now := wins.filter fun y => decide (y.w.start ≤ x.w.start ∧ x.w.start < y.w.start + y.w.len)
    let sum := fracSum (now.map fun y => (y.w.cells * 8000, 1999 * y.w.len))
    if 32 * sum.2 < sum.1 then failing 5 now else []

/-- The lowest failing position, with its lowest reason (R314). -/
def worst (fs : List (Nat × Nat)) : Option (Nat × Nat) :=
  fs.foldl (init := none) fun b f => match b with
    | none => some f
    | some g => if f.1 < g.1 ∨ (f.1 = g.1 ∧ f.2 < g.2) then some f else some g

/-- The engines that a list of tables touches. -/
def enginesOf (ts : List Placed) : List Nat := (List.range 16).filter fun e => ts.any fun t => decide (engineOf t.1.lane = e)

/-- Every failing condition of R310. -/
def State.deadline (s : State) (ts : List Placed) : Option (Nat × Nat) :=
  worst <| ((enginesOf ts).flatMap fun e =>
      (ts.filter fun t => decide (engineOf t.1.lane = e)).flatMap (s.tableFails (engineWins ts e) (s.diverters ts e)) ++ guardFails ts e) ++
    (List.range 64).flatMap (loadFails ts)

/-- The tables that would be in force after a commit of the staged set. -/
def State.tablesAfter (s : State) (set : List TidePort) : List Placed :=
  let kept := (s.tide.active.filter fun a => !(set.any fun t => decide (t.lane = a.1))).map fun a => (a.2, false)
  kept ++ (set.filter fun t => decide (t.k ≠ 0)).map fun t => (t, true)

/-- The active tables. -/
def State.tablesNow (s : State) : List Placed := s.tide.active.map fun a => (a.2, false)

/-! ## The end of a commit, and removals -/

/-- A commit ends with a final outcome; the staged set is consumed or stays. -/
def State.endCommit (s : State) (f : Final) (consume : Bool) : State :=
  let tide : Tide := { s.tide with
    commit := none
    staged := if consume then none else s.tide.staged
    spoilt := if consume then false else s.tide.spoilt }
  ({ s with tide := tide } : State).endJobs (fun j => decide (j = .tideCommit)) f

/-- The refusal of a commit, recorded in TIDE_STATUS. -/
def State.refuseCommit (s : State) (status detail reason index : Nat) : State :=
  ({ s with tide := { s.tide with reason := reason, index := index } } : State).endCommit ⟨status, detail, []⟩ false

/-- The table of a port is removed because the LAYOUT of its fibre changes (R316, R502). -/
def State.removeTable (s : State) (l : Nat) : State :=
  let named := (s.tide.staged.getD []).any fun t => decide (t.lane = l)
  let s : State := if named then { s with tide := { s.tide with spoilt := true } } else s
  let s := match s.tide.commit with
    | some c => if c.waiting.any (fun t => decide (t.1.lane = l)) then s.endCommit ⟨stBadParam, 0xFFFF, []⟩ false else s
    | none => s
  match s.tide.active.find l with
  | none => s
  | some tp =>
    let ids := (tp.windows.filter (·.causeway)).map Window.entry
    let gone := s.csw.paths.filter fun p =>
      decide (p.1 / 128 = engineOf l) && !p.2.direct && ids.contains p.2.circuit
    let s : State := { s with tide := { s.tide with active := s.tide.active.del l } }
    let s := if gone.isEmpty then s else s.startChange (engineOf l) [] (gone.map (·.1))
    s.raiseEv 0x0501 1 fidTime (beBytes 2 l ++ beBytes 1 (gone.map fun p => p.2.circuit).eraseDups.length)

end Sys2Proof.Machine
end

