-- ==== Sys2Proof/Machine/Objects.lean ====
section
/-! DEFINITION. Objects in the staging area and their commands (R78 to R81). -/

namespace Sys2Proof.Machine

/-- Bytes of the staging area that objects hold. -/
def Objects.used (o : Objects) : Nat := (o.table.map fun p => p.2.length).sum

/-- The objects a session holds. -/
def Objects.count (o : Objects) (session : Nat) : Nat := (o.table.filter fun p => decide (p.2.session = session)).length

/-- The next handle above the last one assigned that is not in use (R81); `fuel` bounds the handles skipped. -/
def nextHandle (used : AMap Obj) (last : Nat) : Nat → Nat
  | 0 => last % 0xFFFF + 1
  | fuel + 1 =>
    let h := last % 0xFFFF + 1
    if (used.find h).isSome then nextHandle used h fuel else h

/-- A new object (R78); none where a limit or the area is exhausted. -/
def State.newObject (s : State) (o : Obj) : Option (Nat × State) :=
  if 16 ≤ s.objs.count o.session ∨ 536870912 < s.objs.used + o.length then none
  else
    let h := nextHandle s.objs.table s.objs.lastHandle s.objs.table.length
    some (h, { s with
      objs := ⟨s.objs.table.put h o, h⟩
      mem := { s.mem with badObjects := s.mem.badObjects.filter fun b => decide (b.1 ≠ h) } })

/-- Bytes as a sparse store from an offset; a byte that is 0 is not listed. -/
def storeBytes : AMap Byte → Nat → List Byte → AMap Byte
  | m, _, [] => m
  | m, off, b :: bs => storeBytes (m.setD off 0 b) (off + 1) bs

/-- Bytes of an object from an offset. -/
def Obj.read (o : Obj) (off count : Nat) : List Byte := (rangeFrom off count).map fun i => o.bytes.getD i 0

/-- All bytes of an object. -/
def Obj.all (o : Obj) : List Byte := o.read 0 o.length

/-- A sealed query-result object holding bytes (R78, R80). -/
def State.resultObject (s : State) (session : Nat) (bytes : List Byte) : Option (Nat × State) :=
  s.newObject ⟨session, 5, bytes.length, storeBytes [] 0 bytes, true⟩

/-- Results that go into a new query-result object: its handle and two reserved bytes. -/
def answerObject (session : Nat) (bytes : List Byte) (s : State) : Ans × State :=
  match s.resultObject session bytes with
  | some (h, s') => (ok (beBytes 2 h ++ [0, 0]), s')
  | none => (.done stNoResource 0 [], s)

/-- The object a handle names in a session. -/
def State.objOf (s : State) (session h : Nat) : Option Obj :=
  (s.objs.table.find h).bind fun o => if o.session = session then some o else none

/-- Some byte of an object's range lies in an uncorrectable block (R221). -/
def State.objBad (s : State) (h off count : Nat) : Bool :=
  s.mem.badObjects.any fun b => decide (b.1 = h ∧ b.2 * 64 < off + count ∧ off < b.2 * 64 + 64)

/-- The blocks of an object that a read reaches. -/
def readBlocks (off count : Nat) : Nat := (off + count + 63) / 64 - off / 64

/-- The bridge of the objects' area. DESIGN CHOICE: the area is the first 512 MiB of STAGING (log entry 73). -/
def objBridge : Nat := addrBridge 0

/-- `count` bytes of an object are read from its bridge (R218, R221): an uncorrectable block they lie in, and the state with the
errors that the access meets. -/
def State.readObject (s : State) (h off count : Nat) (met : List BlockErr) : Bool × State :=
  let n := readBlocks off count
  let s := (s.meet 3 n (errOn objBridge) met).sendBytes objBridge false 3 count
  let bad := (lostBlocks n met).map fun b => (h, off / 64 + b)
  let s : State := { s with mem := { s.mem with badObjects := bad ++ s.mem.badObjects } }
  (s.objBad h off count, s)

/-- A command reads a whole object and goes on with it: INTERNAL where a block of it is lost (R221, R569). -/
def consuming (h : BitVec 16) (o : Obj) (met : List BlockErr) (s : State) (k : State → Ans × State) : Ans × State :=
  let (bad, s) := s.readObject h.toNat 0 o.length met
  if bad then (.done stInternal 0x0A01 [], s) else k s

/-- A command that consumes a sealed object of a type and a legal length, whose handle is the parameter at offset `off`:
R80 first, then its parameters in their order, those before the handle and those after it (R62, R79), then the functions it
needs. Every command that this one finds started came before it; those behind it in the queue are the second ones. -/
def withObject (i : Nat) (h : BitVec 16) (off type : Nat) (lengthOk : Nat → Bool) (before after : List (Bool × Nat))
    (fids : List Nat) (s : State) (k : Obj → Ans × State) : Ans × State :=
  match s.objOf (s.slot i).number h.toNat with
  | none => guardParams (before ++ [(false, off)]) s (badParam off, s)
  | some o =>
    if s.objBusy h.toNat then (.done stBusy 2 [], s)
    else
      guardParams (before ++ (decide (o.sealed ∧ o.type = type) && lengthOk o.length, off) :: after) s <|
        guardUp fids s (k o)

/-- A command on one object of the session: R80 where it applies, then the checks. -/
def onObject (i : Nat) (h : BitVec 16) (busy : Bool) (s : State) (cs : Obj → List (Bool × Nat))
    (k : Obj → Ans × State) : Ans × State :=
  match s.objOf (s.slot i).number h.toNat with
  | none => (badParam 0, s)
  | some o => if busy ∧ s.objHeld i h.toNat then (.done stBusy 2 [], s) else guardParams (cs o) s (k o)

def State.setObj (s : State) (h : Nat) (o : Obj) : State := { s with objs := { s.objs with table := s.objs.table.put h o } }

/-- OBJ_OPEN (R78, R81). -/
def execObjOpen (iss : Issuer) (type : Byte) (rsv : BitVec 24) (length : BitVec 32) (s : State) : Out :=
  .next <| hostCmd (.objOpen iss type rsv length) (fun i s =>
    guardParams [(decide (1 ≤ type.toNat ∧ type.toNat ≤ 5), 0), rsvOk rsv 1,
        (decide (1 ≤ length.toNat ∧ length.toNat ≤ 150994944), 4)] s <|
      match s.newObject ⟨(s.slot i).number, type.toNat, length.toNat, [], false⟩ with
      | some (h, s') => (ok (beBytes 2 h ++ [0, 0]), s')
      | none => (.done stNoResource 0 [], s)) s

/-- OBJ_WRITE (R79, R81). -/
def execObjWrite (iss : Issuer) (handle rsv : BitVec 16) (offset : BitVec 32) (rsv2 : BitVec 128) (data : List Byte)
    (s : State) : Out :=
  .next <| hostCmd (.objWrite iss handle rsv offset rsv2 data) (fun i s =>
    onObject i handle true s
      (fun o => [(decide (!o.sealed), 0), rsvOk rsv 2, (decide (offset.toNat + data.length ≤ o.length), 4),
        rsvOk rsv2 8])
      fun o => (ok [], (s.setObj handle.toNat { o with bytes := storeBytes o.bytes offset.toNat data }).sendBytes
        objBridge true 3 data.length)) s

/-- OBJ_CLOSE (R79). -/
def execObjClose (iss : Issuer) (handle rsv : BitVec 16) (digest : BitVec 384) (s : State) : Out :=
  .next <| hostCmd (.objClose iss handle rsv digest) (fun i s =>
    onObject i handle true s
      (fun o => [rsvOk rsv 2, (decide (digest = Config.sha384 o.all), 4)])
      fun o => (ok [], s.setObj handle.toNat { o with sealed := true })) s

/-- OBJ_READ (R80, R81, R221): its access is to the blocks of the object that hold the bytes it reads. -/
def execObjRead (iss : Issuer) (handle rsv : BitVec 16) (offset count : BitVec 32) (met : List BlockErr) (s : State) : Out :=
  .next <| hostCmd (.objRead iss handle rsv offset count met) (fun i s =>
    onObject i handle false s
      (fun o => [(o.sealed, 0), rsvOk rsv 2, (decide (offset.toNat + count.toNat ≤ o.length), 4),
        (decide (1 ≤ count.toNat ∧ count.toNat ≤ 8944), 8)])
      fun o =>
        let (bad, s) := s.readObject handle.toNat offset.toNat count.toNat met
        if bad then (.done stInternal 0x0A01 [], s) else (ok (o.read offset.toNat count.toNat), s)) s

/-- OBJ_FREE (R81). -/
def execObjFree (iss : Issuer) (handle rsv : BitVec 16) (s : State) : Out :=
  .next <| hostCmd (.objFree iss handle rsv) (fun i s =>
    onObject i handle true s (fun _ => [rsvOk rsv 2])
      fun _ => (ok [], { s with objs := { s.objs with table := s.objs.table.del handle.toNat } })) s

/-- The PTP time at which the command that starts on the session of slot `i` was received (R256, R305). -/
def State.startingReceipt (s : State) (i : Nat) : Nat :=
  (((s.slot i).cmds.find? fun e => decide (e.phase = .queued)).map CmdEntry.arrived).getD s.ptpNs

end Sys2Proof.Machine
end

