-- ==== Sys2Proof/Machine/Time.lean ====
section
/-! DEFINITION. The clock: corrections, slew and steps (R294 to R299), the PPS output (R616), transmit time-stamps (R304) and
timed launches (R305), with the commands of class 0x06 that concern them (R317). -/

namespace Sys2Proof.Machine

/-! ## Signed numbers (R10) -/

/-- A two's complement number as an integer. -/
def signed {w : Nat} (x : BitVec w) : Int := x.toInt

/-- The low `n` bytes of a two's complement number. -/
def signedBytes (n : Nat) (v : Int) : List Byte := bvBytes n (BitVec.ofInt (8 * n) v)

/-! ## Corrections (R294 to R296) -/

/-- S for the SLEW_PPM in force (R294). -/
def State.slewRate (s : State) : Nat := (s.regBits .timeConfig [] 15 8 * 2 ^ 41 + 1000000) / 2000000

/-- The largest base rate (R294). -/
def baseMax : Int := 274877906

/-- A PPS pulse starts (R616). -/
def State.pulse (s : State) : State :=
  if s.time.clock = .unset ∨ s.boot.phase = .reset then s
  else { s with pins := { s.pins with ppsOut := true, ppsFall := s.now + 100000 } }

/-- An offset correction, in units of 2^-40 ns: stepped, or turned into slew. Answers whether it was stepped. -/
def State.correct (s : State) (d : Int) : Bool × State :=
  let t := s.time
  if s.regBits .timeConfig [] 0 0 = 1 ∧ !t.stepUsed then
    let s' : State := { s with time := { t with offset := t.offset + BitVec.ofInt 104 d, stepUsed := true } }
    (true, if s.ptpNs / 1000000000 ≠ s'.ptpNs / 1000000000 then s'.pulse else s')
  else
    let slew : Slew := match t.slew with
      | some sl => if sl.left = 0 then ⟨d, s.slewRate⟩ else { sl with left := sl.left + d }
      | none => ⟨d, s.slewRate⟩
    (false, { s with time := { t with slew := some slew } })

/-- The PTP time, in ns, at which the slew ends; 0 where none runs. -/
def State.slewEnd (s : State) : Nat :=
  match s.time.slew with
  | none => 0
  | some sl => if sl.left = 0 then 0 else ({ s with time := s.time.advance sl.cycles } : State).ptpNs

/-- SLEW_END (R295): the slew has made its correction exactly. -/
def execSlewEnd (s : State) : Out :=
  .next <|
    match s.time.slew with
    | none => s
    | some sl => { s with time := { s.time.advance sl.cycles with slew := none } }

/-- Entry to HOLDOVER (R298): the slew stops and its remainder is reported. -/
def State.holdover (s : State) (cause : Nat) : State :=
  if s.time.clock ≠ .tracking ∧ s.time.clock ≠ .locked then s
  else
    let left : Int := match s.time.slew with
      | some sl => sl.left / 2 ^ 40
      | none => 0
    let s : State := { s with
      time := { s.time with slew := none, clock := .holdover }
      ptp := { s.ptp with goodRun := 0, badRun := 0 } }
    (s.bump .timeHoldovers []).raiseEv 0x0401 2 fidTime (beBytes 1 cause ++ signedBytes 8 left)

/-! ## The PPS output (R616) -/

/-- PPS_PULSE (R616): PTP time reaches the next multiple of 10^9 ns. -/
def execPpsPulse (s : State) : Out :=
  .next <|
    if s.time.clock = .unset ∨ s.boot.phase = .reset then s
    else (s.advancePtp ((s.ptpNs / 1000000000 + 1) * 1000000000)).pulse

/-- PPS_PULSE_END (R616). -/
def execPpsPulseEnd (s : State) : Out :=
  .next <|
    if s.pins.ppsOut then
      let s := s.advanceTo s.pins.ppsFall
      { s with pins := { s.pins with ppsOut := false } }
    else s

/-! ## TIME_READ and TIME_ADJUST -/

/-- The fraction word of P (R293). -/
def State.ptpFrac (s : State) : Nat := s.time.p / 256 % 2 ^ 32
/-- The fraction word of C. -/
def State.freeFrac (s : State) : Nat := s.time.c.toNat % 2 ^ 32

/-- TIME_READ (R317). -/
def execTimeRead (iss : Issuer) (s : State) : Out :=
  .next <| hostCmd (.timeRead iss) (fun _ s =>
    guardUp [fidTime] s
      (ok (beBytes 8 s.ptpNs ++ beBytes 4 s.ptpFrac ++ beBytes 8 s.now ++ beBytes 4 s.freeFrac ++
        signedBytes 4 s.time.rateUnits ++ beBytes 1 s.time.clock.code ++ [0, 0, 0]), s)) s

/-- TIME_ADJUST (R299, R317). -/
def execTimeAdjust (iss : Issuer) (flags : Byte) (rsv : BitVec 24) (delta : BitVec 64) (base : BitVec 32) (s : State) :
    Out :=
  .next <| hostCmd (.timeAdjust iss flags rsv delta base) (fun _ s =>
    let setOff := flags.getLsbD 0
    let setBase := flags.getLsbD 1
    guardParams [(decide (flags.toNat < 4), 0), rsvOk rsv 1,
        (!setBase || decide (-baseMax ≤ signed base ∧ signed base ≤ baseMax), 12)] s <|
      guardUp [fidTime] s <|
        if s.time.clock = .tracking ∨ s.time.clock = .locked then (.done stBusy 2 [], s)
        else
          let s : State := { s with time := { s.time with
            clock := .host, base := if setBase then signed base else s.time.base } }
          let (stepped, s) := if setOff then s.correct (signed delta * 2 ^ 40) else (false, s)
          let applied := if !setOff then 2 else if stepped then 0 else 1
          (ok (beBytes 1 applied ++ [0, 0, 0] ++ beBytes 8 s.slewEnd), s)) s

/-! ## Transmit time-stamps (R304) -/

def State.stamps (s : State) (t : Nat) : TsQueue := s.time.stamps.getD t ⟨[], false⟩

/-- An entry due in a tile's queue. -/
def State.addStamp (s : State) (t ident : Nat) : State :=
  let q := s.stamps t
  if q.overflow ∨ 32 ≤ q.entries.length then
    let time : TimeSt := { s.time with stamps := s.time.stamps.put t { q with overflow := true } }
    ({ s with time := time } : State).bump .tileTsLost [t]
  else
    let e : TimeStamp := ⟨ident, s.ptpNs / 1000000000, s.ptpNs % 1000000000⟩
    { s with time := { s.time with stamps := s.time.stamps.put t { q with entries := q.entries ++ [e] } } }

/-- The bytes of an entry. -/
def TimeStamp.bytes (e : TimeStamp) : List Byte := beBytes 2 e.ident ++ beBytes 6 e.sec ++ beBytes 4 e.ns

/-- TS_QUEUE_READ (R304, R317). -/
def execTsQueueRead (iss : Issuer) (first count : Byte) (rsv : BitVec 16) (s : State) : Out :=
  .next <| hostCmd (.tsQueueRead iss first count rsv) (fun _ s =>
    guardParams [(decide (first.toNat < 64), 0),
        (decide (1 ≤ count.toNat ∧ count.toNat ≤ 16 ∧ first.toNat + count.toNat ≤ 64), 1), rsvOk rsv 2] s <|
      let ts := rangeFrom first.toNat count.toNat
      guardUp (ts.map fidTile) s
        (ok (ts.flatMap fun t =>
            let q := s.stamps t
            beBytes 1 t ++ beBytes 1 (b2n q.overflow) ++ beBytes 1 q.entries.length ++ [0] ++
              q.entries.flatMap TimeStamp.bytes),
          { s with time := { s.time with stamps := ts.foldl (fun m t => m.del t) s.time.stamps } })) s

/-! ## Timed launches (R305) -/

/-- Pending launches of a tile, by T, equals in the order of acceptance. -/
def State.launches (s : State) (t : Nat) : List Launch := s.time.launches.getD t []

def State.setLaunches (s : State) (t : Nat) (ls : List Launch) : State :=
  { s with time := { s.time with launches := s.time.launches.setD t [] ls } }

/-- The window with SCHED open in which a port stands at a PTP time: the time at which that window ends. -/
def State.schedWindow (s : State) (p at_ : Nat) : Option Nat :=
  match s.tide.active.find p with
  | none => none
  | some tp =>
    match tp.current at_ with
    | some w => if bit w.gate 0 then some (at_ - at_ % 2 ^ tp.k + w.start + w.len) else none
    | none => none

/-- The 80-byte cells that bytes give. -/
def cellsOf (bs : List Byte) : List Cell :=
  (List.range (bs.length / 80)).map fun i =>
    ⟨BitVec.ofNat 128 (beNat ((bs.drop (80 * i)).take 16)), BitVec.ofNat 512 (beNat ((bs.drop (80 * i + 16)).take 64))⟩

/-- TIMED_LAUNCH (R305, R317). -/
def execTimedLaunch (iss : Issuer) (lane ident : BitVec 16) (flags : Byte) (rsv : BitVec 24) (t : BitVec 64)
    (length : BitVec 16) (rsv2 : BitVec 48) (data : List Byte) (s : State) : Out :=
  .next <| hostCmd (.timedLaunch iss lane ident flags rsv t length rsv2 data) (fun i s =>
    let p := lane.toNat
    let at_ := t.toNat
    let n := length.toNat
    let from_ := s.startingReceipt i
    let cmode := s.isC p
    let sized := if cmode then decide (n % 80 = 0 ∧ 80 ≤ n ∧ n ≤ 8880) else decide (60 ≤ n ∧ n ≤ 8928)
    guardParams [(s.configured p, 0), (decide (flags.toNat < 2), 4), rsvOk rsv 5,
        (decide (from_ + 2000 ≤ at_ ∧ at_ ≤ from_ + 10000000000) && (s.schedWindow p at_).isNone, 8),
        (sized && decide (n = data.length), 16), rsvOk rsv2 18] s <|
      guardUp (s.timeFailed ++ [fidTile (tileOf p)]) s <|
        let ls := s.launches (tileOf p)
        if 4096 ≤ ls.length then (.done stNoResource 0 [], s)
        else
          let l : Launch := ⟨p, ident.toNat, flags.getLsbD 0, at_, if cmode then cellsOf data else [],
            if cmode then [] else data, 0⟩
          (ok [], s.setLaunches (tileOf p) (insertBy Launch.at_ l ls))) s

end Sys2Proof.Machine
end

