-- ==== Sys2Proof/Machine/Wire.lean ====
section
/-! DEFINITION. What stands on the medium: the bytes of cells (R98), flits and link cells with their CRC (R108 to R110), and
Ethernet frames and cell trains with their FCS (R93, R120). -/

namespace Sys2Proof

/-! ## Cells and flits (R98, R108 to R110) -/

/-- The 80 bytes of a cell. -/
def Cell.bytes (c : Cell) : List Byte := Machine.bvBytes 16 c.hdr ++ Machine.bvBytes 64 c.pay

/-- Bytes 0 to 71 of a link cell: all but its CRC. -/
def LinkCell.body (k : LinkCell) : List Byte :=
  Machine.bvBytes 2 k.fseq ++ Machine.bvBytes 2 k.ack ++ [k.ltype, k.txLanes, k.rxLanes, k.rsv7] ++
    Machine.bvBytes 2 k.slotMask ++ k.credit.flatMap (Machine.bvBytes 2) ++ Machine.bvBytes 4 k.incarnation ++
    Machine.bvBytes 42 k.rsv

/-- Bytes 0 to 1,271 of a flit: what its CRC covers. -/
def Flit.body (f : Flit) : List Byte := f.slots.flatMap Cell.bytes ++ f.link.body

/-- The 1,280 bytes of a flit: slot k at byte 80 k, the link cell at byte 1,200. -/
def Flit.bytes (f : Flit) : List Byte := f.body ++ Machine.bvBytes 8 f.link.crc

/-- The reflected register of CRC-64 (ECMA-182) after one byte. -/
def crc64Byte (c b : Nat) : Nat :=
  (List.range 8).foldl (fun c _ => if c % 2 = 1 then c / 2 ^^^ 0xC96C5795D7870F42 else c / 2) (c ^^^ b)

/-- The CRC of R110. -/
def crc64 (bs : List Byte) : BitVec 64 :=
  BitVec.ofNat 64 (0xFFFFFFFFFFFFFFFF - bs.foldl (fun c b => crc64Byte c b.toNat) 0xFFFFFFFFFFFFFFFF)

/-- The CRC of a flit is good. -/
def Flit.crcOk (f : Flit) : Bool := decide (f.link.crc = crc64 f.body)

/-- A flit with its CRC. -/
def Flit.sealed (f : Flit) : Flit := { f with link := { f.link with crc := crc64 f.body } }

namespace Machine

/-- What a pair of codewords carries: the 40-bit flit marker and the flit (R108). -/
def flitOnLane (f : Flit) : List Byte := beBytes 5 0xC53A960F1E ++ f.sealed.bytes

/-! ## The FCS of a frame (IEEE 802.3) -/

/-- The reflected CRC-32 register after one byte. -/
def crc32Byte (c b : Nat) : Nat :=
  (List.range 8).foldl (fun c _ => if c % 2 = 1 then c / 2 ^^^ 0xEDB88320 else c / 2) (c ^^^ b)

/-- The four FCS bytes of a frame, in the order they travel. -/
def fcsOf (bs : List Byte) : List Byte :=
  (beBytes 4 (0xFFFFFFFF - bs.foldl (fun c b => crc32Byte c b.toNat) 0xFFFFFFFF)).reverse

/-- A frame with its FCS. -/
def withFcs (bs : List Byte) : List Byte := bs ++ fcsOf bs

/-- The frame's last four bytes are its FCS. -/
def fcsGood (bs : List Byte) : Bool :=
  let n := bs.length - 4
  decide (4 ≤ bs.length) && decide (bs.drop n = fcsOf (bs.take n))

/-- A whole frame with the FCS of its bytes. -/
def newFcs (bs : List Byte) : List Byte := withFcs (bs.take (bs.length - 4))

/-- The last segment of a frame with the FCS bytes that it carries inverted (R103). -/
def spoilFcs (c : Cell) : Cell :=
  let v := min 64 c.member
  let n := min 4 v
  let bs := c.payBytes 0 v
  { c with pay := mkPay (bs.take (v - n) ++ (bs.drop (v - n)).map fun b => ~~~b) }

/-! ## Frames (R93, R120, R132) -/

/-- The MAC address of a port (R132). -/
def portMac (p : Nat) : Nat := (Config.linkMac.toNat + p) % 2 ^ 48

/-- The bytes of an Ethernet frame, from its destination address through its FCS. -/
def ethBytes (f : EthFrame) : List Byte :=
  let head := bvBytes 6 f.dst ++ bvBytes 6 f.src ++
    (match f.vlan with
      | some v => [0x81, 0x00] ++ bvBytes 2 v
      | none => []) ++ bvBytes 2 f.etherType ++ f.body
  head ++ if f.fcsOk then fcsOf head else (fcsOf head).map fun b => ~~~b

/-- The frame of a cell train, untagged (R120). -/
def trainBytes (dst src : Nat) (cells : List Cell) : List Byte :=
  withFcs (beBytes 6 dst ++ beBytes 6 src ++ [0x88, 0xB5, 0x01] ++ beBytes 1 cells.length ++ [0, 0] ++
    cells.flatMap Cell.bytes)

/-- The train that the payload of a frame with EtherType 0x88B5 holds (R120). -/
def ethTrain (f : EthFrame) : Train :=
  let n (off len : Nat) : Nat := beNat (padTo len (f.body.drop off))
  let count := min 18 ((f.body.length - 4) / 80)
  { dst := f.dst, src := f.src, version := BitVec.ofNat 8 (n 0 1), count := BitVec.ofNat 8 (n 1 1),
    cells := (List.range count).map fun i => ⟨BitVec.ofNat 128 (n (4 + 80 * i) 16), BitVec.ofNat 512 (n (20 + 80 * i) 64)⟩,
    fcsOk := f.fcsOk }

end Machine

end Sys2Proof
end

