-- ==== Sys2Proof/Machine/LinkPorts.lean ====
section
/-! DEFINITION. Ports and fibres: forming, retraining and taking down ports (R97, R113 to R119, R124, R125, R130, R131, R179,
R184), discovery and fibre classes (R36 to R38, R127 to R130), and lanes that are dropped or diverted (R477). -/

namespace Sys2Proof.Machine

/-- Every lane of a port counts its silence from now (R119). -/
def State.restartLanes (s : State) (p : Nat) : State :=
  let now := s.now
  (portLanes p (s.widthAt p)).foldl (fun s l => s.setLane l fun x => { x with lastValid := now }) s

/-- Event PORT_RETRAIN (R580), with its cause. -/
def State.retrainEvent (s : State) (p cause : Nat) : State :=
  s.raiseEv 0x1402 2 (fidTile (tileOf p)) (beBytes 2 p ++ beBytes 1 cause)

/-- A frame of ORD cells inside a tile is aborted, once (R183): its cells go as each reaches the head of its queue. -/
def State.abortFrame (s : State) (t n : Nat) : State :=
  if s.frames.aborted.contains n then s
  else
    let s := ({ s with frames := { s.frames with aborted := n :: s.frames.aborted } } : State).bump .tileFrameAborts [t]
    (s.queues.map (·.1)).foldl State.clearHead s

/-! ## Lanes -/

/-- The wavelengths of a port of `n` lanes, as a mask over its fibre. -/
def portMask (p n : Nat) : Nat := (2 ^ n - 1) * 2 ^ lambdaOf p

/-- The lane is usable in a direction (R457), and not diverted (R476). -/
def LaneSt.ok (x : LaneSt) : Dir → Bool
  | .tx => x.txOk && !x.diverted
  | .rx => x.rxOk && !x.diverted

/-- The usable lanes of a port in a direction. -/
def State.usable (s : State) (p : Nat) (d : Dir) : Nat :=
  (((portLanes p (s.widthAt p)).filter fun l => (s.lane l).ok d).map fun l => 2 ^ lambdaOf l).sum

/-- Every lane of a port is diverted (R477). -/
def State.allDiverted (s : State) (p : Nat) : Bool := (portLanes p (s.widthAt p)).all fun l => (s.lane l).diverted

/-- There is light on a fibre. -/
def State.light (s : State) (f : Nat) : Bool := (s.eye f).light

/-- The block of lanes that an E-mode port runs on (R125): the largest aligned one within the lanes of a mask. -/
def eBlock (mask p width : Nat) : Option Nat :=
  (([8, 4, 2, 1].filter fun w => decide (w ≤ width)).flatMap fun w =>
    (List.range (width / w)).map fun j => portMask (p + j * w) w).find? fun b => decide (b &&& mask = b)

/-- The lanes of an E-mode port usable at both ends (R125). -/
def State.eUsable (s : State) (p : Nat) : Nat :=
  s.usable p .tx &&& s.usable p .rx &&& (((s.fibre (fibreOf p)).disc.map Discover.lanes).getD 0)

/-! ## Forming -/

/-- The fibre carries all classes: matched, and not held for a comparison (R36, R37). -/
def State.open_ (s : State) (f : Nat) : Bool := decide ((s.fibre f).cls = .matched) && !(s.fibre f).comparing

/-- LINK_CREDIT_INIT_c; 0 for CDN (R139). -/
def State.creditInit (s : State) (c : Nat) : Nat := if c = clsCdn then 0 else s.regBits .linkCreditInit [c] 15 0

/-- The landing that a C-mode port carves (R178). -/
def State.landingNeed (s : State) : Nat := ((List.range 8).map s.creditInit).sum

/-- The estimators of a port start again at 0 (R248). -/
def State.zeroEstimators (s : State) (p : Nat) : State :=
  { s with tables := { s.tables with est := s.tables.est.filter fun e => decide (e.1 % 2048 ≠ p) } }

/-- REPLAY_LIMIT (R137). -/
def State.replayLimit (s : State) : Nat := s.regBits .linkConfig [] 15 12

/-- A C-mode port as it forms (R114, R115): no link cell has come yet, so no lane stands in TX_LANES (R113).
DESIGN CHOICE: RX_LANES begins with every usable receive lane, before any valid flit has come on it (log entry 40). -/
def State.formC (s : State) (p : Nat) : State :=
  let whole := s.open_ (fibreOf p)
  let first := (List.range 8).map fun c => if whole ∨ c = clsCtrl then s.creditInit c else 0
  let rx := s.usable p .rx
  let need := s.landingNeed
  let limit := s.replayLimit
  let now := s.now
  let s := (s.restartLanes p).setPort p fun y =>
    { PortSt.init with
      st := if whole then .up else .quarantined, rx := rx, limitOut := first, landing := need, replayLimit := limit,
      lastValid := now, txGone := some now, ackAt := now, frameNo := y.frameNo }
  ((s.tcForm p).zeroEstimators p).spillJudge (tileOf p)

/-- A port leaves TRAINING or RETRAINING, where it can (R125, R130, R179). -/
def State.formPort (s : State) (p : Nat) : State :=
  let x := s.port p
  let f := fibreOf p
  let t := tileOf p
  let target := if s.open_ f then PState.up else .quarantined
  if x.st ≠ .training ∧ x.st ≠ .retraining then s
  else if s.isC p then
    if s.usable p .tx = 0 ∨ s.usable p .rx = 0 then s
    else if s.sharedPool t < 16384 + s.landingNeed then
      if x.short then s
      else (s.setPort p fun y => { y with short := true }).raiseEv 0x0902 2 (fidTile t) (beBytes 2 p)
    else s.formC p
  else
    match eBlock (s.eUsable p) p (s.widthAt p) with
    | none => s
    | some b =>
      let now := s.now
      if x.st = .retraining then s.setPort p fun y => { y with st := target, tx := b, rx := b, lastValid := now }
      else
        let s := s.setPort p fun y =>
          { PortSt.init with st := target, tx := b, rx := b, lastValid := now, frameNo := y.frameNo }
        (s.tcForm p).zeroEstimators p

/-- The ports of a tile that wait for a landing are tried again (R179). -/
def State.retryShort (s : State) (t : Nat) : State :=
  ((s.ports.filter fun q => decide (q.1 / 32 = t) && q.2.short).map (·.1)).foldl State.formPort s

/-! ## Taking a port down -/

/-- The cells of a port that has gone down return no credit. -/
def QCell.orphan (p : Nat) (q : QCell) : QCell := if q.src = .cMode p then { q with src := .gone p } else q

/-- What every cell still in its ingress tile becomes when its port goes down. -/
def TileSt.orphan (p : Nat) (x : TileSt) : TileSt :=
  { x with
    arrivals := x.arrivals.map (QCell.orphan p)
    looked := x.looked.map (QCell.orphan p)
    landed := x.landed.map (QCell.orphan p)
    held := x.held.map (QCell.orphan p) }

/-- Launches whose time has come and whose cells have not all gone, on a port that ceases to be UP: as launches on a port that
is not UP (R305; log entry 67). -/
def State.missLaunches (s : State) (p : Nat) : State :=
  ((s.port p).launching.foldl (init := s) fun s l =>
    (s.bump .tileLaunchMissed [tileOf p]).raiseEv 0x0402 1 (fidTile (tileOf p))
      (beBytes 2 l.lane ++ beBytes 2 l.ident ++ beBytes 8 l.at_)).setPort p fun y => { y with launching := [] }

/-- The state of a port that is not formed, where its fibre may have no light (R131). -/
def State.dimmed (s : State) (p : Nat) (st : PState) : PState :=
  if st = .disabled ∨ s.light (fibreOf p) then st else .down

/-- The egress queues of a port discarded: counted as reconfiguration drops (R97, R130, R133) or under R184. -/
def State.dropEgress (s : State) (p : Nat) (reconf : Bool) : State :=
  let s : State := { s with frames := { s.frames with sending := s.frames.sending.del p } }
  if reconf then
    let (s, n) := s.flushEgress p fun _ => true
    s.bumpBy .tilePortReconfDrops [tileOf p, slotOf p] n
  else s.flushAdm p

/-- A port leaves its state for one that is not formed: queues, replay buffer and landing are given up. -/
def State.dropPort (s : State) (p : Nat) (target : PState) (reconf : Bool) : State :=
  let x := s.port p
  let t := tileOf p
  let clear (s : State) : State :=
    let st := s.dimmed p target
    s.setPort p fun y => { PortSt.init with st := st, frameNo := y.frameNo }
  if !x.st.formed then clear s
  else
    let s := (s.dropEgress p reconf).missLaunches p
    let s := match x.inFrame with
      | some (n, _) => s.abortFrame t n
      | none => s
    ((clear (s.setTile t (TileSt.orphan p))).spillJudge t).retryShort t

/-- A port is taken down and retrained from its full width, with the event (R119). DESIGN CHOICE: it retrains in TRAINING (log
entry 40). -/
def State.retrain (s : State) (p cause : Nat) : State := (s.dropPort p .training false).retrainEvent p cause

/-- An E-mode port retrains at another width and stays formed (R125). -/
def State.eRetrain (s : State) (p : Nat) : State :=
  let s := (s.dropEgress p false).missLaunches p
  ((List.range 8).foldl (fun s c => s.settleDc p c) s).setPort p fun y => { y with st := .retraining, tx := 0, rx := 0 }

/-- An E-mode port retrains where a lane it runs on is no longer usable, or where its full width is again. -/
def State.eJudge (s : State) (p : Nat) : State :=
  let x := s.port p
  let full := portMask p (s.widthAt p)
  let mask := s.eUsable p
  if !s.isC p ∧ x.st.running ∧ (x.tx &&& mask ≠ x.tx ∨ (mask &&& full = full ∧ x.tx ≠ full)) then s.eRetrain p else s

/-! ## Classes and the states of ports (R37, R38, R130) -/

/-- A port becomes quarantined while UP: its queues of classes 0 to 6 are discarded (R38), and with them the frame that it is
sending and the launches whose time has come. DESIGN CHOICE: a PTP message that stands in its CTRL queue already stays and goes:
R38 discards no CTRL cell, and R47 speaks of sending (log entry 66). -/
def State.quarantine (s : State) (p : Nat) : State :=
  let partly := (s.frames.sending.find p).isSome
  let (s, n) := s.flushEgress p fun c => decide (c ≠ clsCtrl)
  let s := [1, 2, 3, 4, 5, 6].foldl (fun s c => s.settleDc p c) (s.bumpBy .tilePortQuarDrops [tileOf p, slotOf p] n)
  let s : State := { s with frames := { s.frames with sending := s.frames.sending.del p } }
  (s.missLaunches p).setPort p fun y =>
    { y with st := .quarantined, frameNo := if partly then (y.frameNo + 1) % 2 ^ 21 else y.frameNo }

/-- A limit raised to a value, modulo 2^16: never backwards (R115). -/
def raiseLimit (old new : Nat) : Nat := if (new + 65536 - old) % 65536 < 32768 then new else old

/-- A quarantined port becomes UP: its limits are raised in one step (R115). -/
def State.release (s : State) (p : Nat) : State :=
  let raised (y : PortSt) : List Nat := y.limitOut.zipIdx.map fun (v, c) =>
    if c = clsCdn ∨ c = clsCtrl then v else raiseLimit v ((y.rcvd.getD c 0 + s.creditInit c) % 65536)
  s.setPort p fun y => { y with st := .up, limitOut := if s.isC p then raised y else y.limitOut }

/-- The class of a fibre (R37). -/
def State.classify (s : State) (f : Nat) : FibreClass :=
  let x := s.fibre f
  let e := s.entry f
  if e.state = 1 then
    if !x.found then .absent
    else
      match x.disc with
      | some d => if d.id = e.partner ∧ d.port = e.port then .matched else .mismatched
      | none => .absent
  else if x.found then .unexpected else .none

/-- FCLASS of a class (R142). -/
def FibreClass.code : FibreClass → Nat
  | .none => 0
  | .matched => 1
  | .mismatched => 2
  | .unexpected => 3
  | .absent => 4

/-- A class that R37 reports. -/
def FibreClass.told : FibreClass → Bool
  | .none => false
  | .matched => false
  | _ => true

/-- The state that one port of a fibre now takes. -/
def State.settlePort (s : State) (p : Nat) : State :=
  let f := fibreOf p
  let x := s.fibre f
  let st := (s.port p).st
  let partner := if x.found then x.disc.map Discover.layout else none
  if st = .disabled then s
  else
    match partner with
    | none =>
      if st.formed then s.dropPort p .bootstrap true
      else
        let st := s.dimmed p .bootstrap
        s.setPort p fun y => { PortSt.init with st := st, frameNo := y.frameNo }
    | some l =>
      if some l = s.layout f then
        if st = .up ∧ !s.open_ f then s.quarantine p
        else if st = .quarantined ∧ s.open_ f then s.release p
        else if st.formed then s
        else
          let st := s.dimmed p .training
          s.setPort p fun y => { PortSt.init with st := st, short := y.short, frameNo := y.frameNo }
      else if st = .layoutConflict ∧ s.light f then s
      else if !st.formed ∧ !s.light f then s.setPort p fun y => { PortSt.init with frameNo := y.frameNo }
      else (s.dropPort p .layoutConflict true).retrainEvent p 3

/-- A fibre is classified again and its ports follow. -/
def State.settleFibre (s : State) (f : Nat) : State :=
  let old := (s.fibre f).cls
  let new := s.classify f
  let s := s.setFibre f fun x => { x with cls := new }
  let s := if old ≠ new ∧ (old.told ∨ new.told) then
      s.raiseEv 0x1401 1 (fidTile (f / 4)) (beBytes 2 f ++ beBytes 1 old.code ++ beBytes 1 new.code ++
        bvBytes 8 ((((s.fibre f).disc.map Discover.id).getD 0).extractLsb' 192 64))
    else s
  (s.portsOf f).foldl State.settlePort s

/-- Fields of a DISCOVER payload (R128). -/
def discoverOf (pay : BitVec 512) : Discover :=
  let n (off len : Nat) : Nat := (Cell.mk 0 pay).payNat off len
  { id := BitVec.ofNat 256 (n 0 32), port := n 32 2, role := n 34 1, layout := n 35 1,
    incarnation := BitVec.ofNat 32 (n 36 4), plane := BitVec.ofNat 64 (n 40 8), spine := n 48 1, lanes := n 49 1,
    raw := pay }

/-- A DISCOVER arrives on a fibre (R129, R130). -/
def State.discover (s : State) (f : Nat) (pay : BitVec 512) : State :=
  let now := s.now
  let s := s.setFibre f fun x => { x with disc := some (discoverOf pay), discAt := now, found := true }
  let s := s.settleFibre f
  (s.portsOf f).foldl State.eJudge s

/-- The ports of a fibre before a change of its LAYOUT: all go down (R97), and their tide tables go (R316). DESIGN CHOICE: a
DISABLED port leaves DISABLED too (log entry 66). -/
def State.dropFibre (s : State) (f : Nat) : State :=
  (s.portsOf f).foldl (init := s) fun s p =>
    (if (s.port p).st = .disabled then s.setPort p fun y => { PortSt.init with frameNo := y.frameNo }
      else s.dropPort p .down true).removeTable p

/-! ## Lanes dropped, returned and diverted -/

/-- TX_LANES of a formed C-mode port: the usable lanes that the partner's latest link cell sets in RX_LANES, but for a lane
that has returned and has not carried an unsequenced flit yet (R113, R124). -/
def State.retune (s : State) (p : Nat) : State :=
  let ls := (portLanes p (s.widthAt p)).filter fun l => (s.lane l).ok .tx && !(s.lane l).txNew
  let ok := (ls.map fun l => 2 ^ lambdaOf l).sum
  let now := s.now
  s.setPort p fun y =>
    let tx := ok &&& y.peerRx
    { y with tx := tx, txGone := if tx ≠ 0 then none else some (y.txGone.getD now) }

/-- A lane leaves its port's receive lanes. -/
def State.clearRx (s : State) (l : Nat) : State :=
  (s.setLane l fun x => { x with run := 0 }).setPort (s.portOf l) fun y =>
    { y with rx := y.rx &&& (255 - 2 ^ lambdaOf l) }

/-- What a lane's loss does to its port (R124, R125). -/
def State.laneLost (s : State) (l : Nat) : State :=
  let p := s.portOf l
  let x := s.port p
  if !s.configured p ∨ !x.st.formed then s
  else if s.isC p then
    let s := if (s.lane l).ok .rx then s else s.clearRx l
    s.retune p
  else s.eJudge p

/-- A lane is no longer usable in a direction. -/
def State.dropLane (s : State) (l : Nat) (d : Dir) : State :=
  (s.setLane l fun x => match d with
    | .tx => { x with txOk := false }
    | .rx => { x with rxOk := false, run := 0 }).laneLost l

/-- A lane is usable again in a direction (R124, R125). -/
def State.returnLane (s : State) (l : Nat) (d : Dir) : State :=
  let s := s.setLane l fun x => match d with
    | .tx => { x with txOk := true, txNew := true }
    | .rx => { x with rxOk := true, run := 0 }
  let p := s.portOf l
  if !s.configured p ∨ !(s.port p).st.formed then s else if s.isC p then s.retune p else s.eJudge p

/-- A lane is diverted (R476, R477). Nothing behind its receive ring is decoded, so its FEC lock is lost, and a seek of
that ring stands still (R478). -/
def State.divertLane (s : State) (l : Nat) : State :=
  let s := (s.pauseSweep l).setLane l fun x => { x with diverted := true, run := 0, fecLock := false, rxOk := false }
  let p := s.portOf l
  if !s.configured p then s
  else if s.isC p then s.laneLost l
  else if (s.port p).st.formed then s.dropPort p .training false
  else s

/-- The last two conditions of R119 have been suspended: they run from now on. -/
def PortSt.resumed (x : PortSt) (now : Nat) : PortSt := { x with lastValid := now, txGone := some now, ackAt := now }

/-- A lane's diversion ends: it rejoins its port as a lane that returns (R477). Where every lane of the port was diverted, the
conditions of R119 that were suspended count from now, and so does the lane's own. -/
def State.undivertLane (s : State) (l : Nat) : State :=
  let p := s.portOf l
  let now := s.now
  let s := if s.isC p ∧ (s.port p).st.formed ∧ s.allDiverted p then s.setPort p (PortSt.resumed · now) else s
  let s := (s.setLane l fun x => { x with diverted := false, run := 0, txNew := true, lastValid := now }).resumeSweep l
  if !s.configured p ∨ !(s.port p).st.formed then s else if s.isC p then s.retune p else s.eJudge p

/-- The conditions of R457 for a lane in a direction. -/
def State.laneReady (s : State) (l : Nat) : Dir → Bool
  | .tx => s.txReady l
  | .rx => s.rxReady l && (s.lane l).fecLock

/-- A lane follows its conditions in a direction: it is dropped, or it returns. -/
def State.followLane (s : State) (l : Nat) (d : Dir) : State :=
  let was := match d with
    | .tx => (s.lane l).txOk
    | .rx => (s.lane l).rxOk
  if s.laneReady l d = was then s else if was then s.dropLane l d else s.returnLane l d

/-- The eight lanes of a fibre follow their conditions in both directions. -/
def State.followFibre (s : State) (f : Nat) : State :=
  (rangeFrom (8 * f) 8).foldl (fun s l => (s.followLane l .tx).followLane l .rx) s

/-! ## Events of lanes and fibres -/

/-- LANE_DROP (R124, R125, R457): on receive the lane's FEC lock has gone. A lane whose conditions all hold is not dropped. -/
def execLaneDrop (lane : Lane) (dir : Dir) (s : State) : Out :=
  .next <| (if dir = .rx then s.setLane lane.val fun x => { x with fecLock := false } else s).followLane lane.val dir

/-- LANE_RETURN (R124, R125, R457): on receive the lane's FEC lock has come, behind a VERIFIED ring (R445). The lane returns
where the other conditions hold too. -/
def execLaneReturn (lane : Lane) (dir : Dir) (s : State) : Out :=
  .next <|
    let found := decide (dir = .rx) && decide ((s.laneRing lane.val .rx).st = .verified) && !(s.lane lane.val).diverted
    (if found then s.setLane lane.val fun x => { x with fecLock := true } else s).followLane lane.val dir

/-- LANE_SILENCE_TIMEOUT (R119): 10 µs without a valid flit on one lane. -/
def execLaneSilenceTimeout (lane : Lane) (s : State) : Out :=
  .next <|
    let l := lane.val
    let p := s.portOf l
    if s.configured p ∧ s.isC p ∧ (s.port p).st.formed ∧ bit (s.port p).rx (lambdaOf l) then
      (s.advanceTo ((s.lane l).lastValid + 10000)).clearRx l
    else s

/-- When a C-mode port has had no valid flit, or no lane in TX_LANES, for 10 µs (R119). -/
def PortSt.silentAt (x : PortSt) : Nat := min x.lastValid (x.txGone.getD x.lastValid) + 10000

/-- LINK_SILENCE_TIMEOUT (R119, R124): suspended while every lane of the port is diverted (R477). -/
def execLinkSilenceTimeout (port : Lane) (s : State) : Out :=
  .next <|
    let p := port.val
    if s.configured p ∧ s.isC p ∧ (s.port p).st.formed ∧ !s.allDiverted p then
      (s.advanceTo (s.port p).silentAt).retrain p 2
    else s

/-- ACK_STALL_TIMEOUT (R119): cause 0 where the replay limit is reached, 1 where the ACK has stood still. -/
def execAckStallTimeout (port : Lane) (s : State) : Out :=
  .next <|
    let p := port.val
    let x := s.port p
    if s.configured p ∧ s.isC p ∧ x.st.formed ∧ !x.replay.isEmpty ∧ !s.allDiverted p then
      if x.replayLimit ≤ x.requests then s.retrain p 0
      else (s.advanceTo (x.ackAt + 100000)).retrain p 1
    else s

/-- What arrives on a lane is taken: its receive ring is VERIFIED (R445), the lane is not diverted (R477), and its engine and
its tile serve it. -/
def State.hears (s : State) (l : Nat) : Bool :=
  decide (s.boot.phase = .done) && !s.fnDown (fidTile (tileOf l)) && s.linkUp (engineOf l) && !(s.lane l).diverted &&
    decide ((s.laneRing l .rx).st = .verified)

/-- The source address of a frame that holds a DISCOVER is the partner's (R121). -/
def State.learnPartner (s : State) (l : Nat) (src : BitVec 48) : State :=
  (s.setLane l fun x => { x with partner := some src }).setFibre (fibreOf l) fun x => { x with partner := some src }

/-- DISCOVER_RECEIVE (R127, R129): on a bootstrap lane. -/
def execDiscoverReceive (lane : Lane) (src : BitVec 48) (payload : BitVec 512) (s : State) : Out :=
  .next <|
    let l := lane.val
    if s.hears l then (s.learnPartner l src).discover (fibreOf l) payload else s

/-- PARTNER_LOST_TIMEOUT (R130): no valid DISCOVER for one second. -/
def execPartnerLostTimeout (fibre : Fibre) (s : State) : Out :=
  .next <|
    let f := fibre.val
    if (s.fibre f).found then
      ((s.advanceTo ((s.fibre f).discAt + 1000000000)).setFibre f fun x => { x with found := false }).settleFibre f
    else s

/-- FIBRE_COMPARISON_COMPLETE (R36). -/
def execFibreComparisonComplete (fibre : Fibre) (s : State) : Out :=
  .next <|
    let f := fibre.val
    if (s.fibre f).comparing then (s.setFibre f fun x => { x with comparing := false }).settleFibre f else s

/-- PORT_TRAINING_COMPLETE (R131). -/
def execPortTrainingComplete (port : Lane) (s : State) : Out :=
  .next <|
    let p := port.val
    if s.configured p ∧ !s.fnDown (fidTile (tileOf p)) then s.formPort p else s

/-- E_MODE_SILENCE_TIMEOUT (R123): 10 ms without a valid frame from a pod edge. DESIGN CHOICE: the row raises the event each time it
comes while the silence goes on (log entry 67). -/
def execEModeSilenceTimeout (port : Lane) (s : State) : Out :=
  .next <|
    let p := port.val
    let role := ((s.fibre (fibreOf p)).disc.map Discover.role).getD 0
    if s.configured p ∧ !s.isC p ∧ (s.port p).st.running ∧ role = 1 then
      (s.advanceTo ((s.port p).lastValid + 10000000)).raiseEv 0x1403 1 (fidTile (tileOf p)) (beBytes 2 p)
    else s

/-! ## What Gorti sends to its partners (R127, R128, R104) -/

/-- ROLE of an Esain switch. -/
def roleSwitch : Nat := 2

/-- Gorti's DISCOVER payload for a fibre (R128). -/
def State.ownDiscover (s : State) (f : Nat) : BitVec 512 :=
  let lanes := ((rangeFrom (8 * f) 8).filter fun l => (s.lane l).ok .tx && (s.lane l).ok .rx).map fun l => 2 ^ lambdaOf l
  mkPay (bvBytes 32 idDigest ++ beBytes 2 f ++ beBytes 1 roleSwitch ++ beBytes 1 ((s.layout f).getD 0x1F) ++
    bvBytes 4 s.boot.incarnation ++ bvBytes 8 ((s.plan.map Plan.plane).getD 0) ++
    beBytes 1 ((s.plan.map Plan.spine).getD 0xFF) ++ beBytes 1 lanes.sum)

/-- A link CTRL cell of a type (R104). DESIGN CHOICE: EPOCH, DPOD, DEP, SPOD and SEP are 0 (log entry 66). -/
def linkCell (type low : Nat) (pay : BitVec 512) : Cell :=
  ⟨mkHdr 0 clsCtrl 0 0 0 0 0 0 0 0 0 (type * 2 ^ 24 + low), pay⟩

/-- TRAIN_FILL in ns (R137). -/
def State.trainFill (s : State) : Nat := s.regBits .linkConfig [] 23 16 * 10

/-- A cell written into an egress queue (R575). The fill wait of a train that begins with it runs from now (R121). -/
def State.toEgress (s : State) (p c : Nat) (q : QCell) : State :=
  let k := eqKey p c
  ((s.setQueue k (s.queue k ++ [{ q with fill := s.now + s.trainFill }])).countEnq p c (s.depth k + 1)).clearHead k

/-- A CTRL cell of the link put into the CTRL egress queue of a formed port. Where the egress pool has no free cell, the link holds
it, and it is offered again at stage 4 (R181, R184, R597). -/
def State.queueCtrl (s : State) (p : Nat) (c : Cell) : State :=
  let q : QCell := { s.newCell c .generated with limit := s.ageFrom clsCtrl s.now, outs := [.port p] }
  if s.egressUsed (tileOf p) + s.reserved (tileOf p) < (s.tile (tileOf p)).pool then
    s.toEgress p clsCtrl q
  else s.setTile (tileOf p) fun x => { x with held := x.held ++ [q] }

/-- The destination of the frames that a port sends: the partner's address; a free value where none has been learned. -/
def State.partnerMac (s : State) (p : Nat) : Nat × State :=
  match (s.lane p).partner, (s.fibre (fibreOf p)).partner with
  | some a, _ => (a.toNat, s)
  | none, some a => (a.toNat, s)
  | none, none =>
    let (v, s) := s.drawFree
    (v.toNat % 2 ^ 48, s)

/-- A cell train leaves an E-mode port, or a bootstrap lane, which is a port of its own (R120, R121, R127). -/
def State.putTrain (s : State) (p : Nat) (cells : List Cell) : State :=
  let (dst, s) := s.partnerMac p
  s.toFibre p (.frame p (trainBytes dst (portMac p) cells))

/-- The port that carries DISCOVER: the running port that holds the fibre's lowest-numbered active lane (R128). -/
def State.discoverPort (s : State) (f : Nat) : Option Nat :=
  (s.portsOf f).find? fun p => (s.port p).st.running && decide ((s.port p).tx ≠ 0)

/-- DISCOVER_SEND (R127, R128). DESIGN CHOICE: on a formed C-mode port too a changed DISC_INTERVAL holds from the next DISCOVER on
(log entry 67). -/
def execDiscoverSend (fibre : Fibre) (s : State) : Out :=
  .next <|
    let f := fibre.val
    if s.boot.phase ≠ .done ∨ s.fnDown (fidTile (f / 4)) then s
    else
      let s := s.every .discover f (s.regBits .linkConfig [] 11 8 * 1000000)
      let cell := linkCell 0x10 0 (s.ownDiscover f)
      if (s.portsOf f).any fun p => (s.port p).st.formed then
        match s.discoverPort f with
        | some p => s.queueCtrl p cell
        | none => s
      else ((rangeFrom (8 * f) 8).filter fun l => (s.lane l).ok .tx).foldl (fun s l => s.putTrain l [cell]) s

/-- E_KEEPALIVE_SEND (R123): every 1 ms. -/
def execEKeepaliveSend (port : Lane) (s : State) : Out :=
  .next <|
    let p := port.val
    let role := ((s.fibre (fibreOf p)).disc.map Discover.role).getD 0
    if s.configured p ∧ !s.isC p ∧ (s.port p).st.running ∧ role = 1 then
      (s.every .keepalive p 1000000).queueCtrl p (linkCell 0x11 0 0)
    else s

end Sys2Proof.Machine
end

