-- ==== Sys2Proof/Machine/Tables.lean ====
section
/-! DEFINITION. The tables and their entry images (R231 to R245), the operations on them (R232, R238, R252, R260, R261)
and the class 0x02 commands (R265, R267, R269). -/

namespace Sys2Proof.Machine

/-! ## Tables and images (R231) -/

def tblLpm : Nat := 0
def tblMac : Nat := 1
def tblOverride : Nat := 4
def tblFlood : Nat := 5

/-- The number of entries of a table; 0 for the reserved IDs. -/
def tblSize : Nat → Nat
  | 0 => 262144
  | 1 => 65536
  | 2 => 512
  | 3 => 512
  | 4 => 65536
  | 5 => 64
  | _ => 0

/-- The key of an entry: quadrant, table, index. -/
def tblKey (q tb i : Nat) : Nat := (q * 8 + tb) * 262144 + i

/-- Word DATAn of an image. -/
def imgWord (img : EntryImage) (n : Nat) : Nat := img.toNat / 2 ^ (32 * (7 - n)) % 2 ^ 32

/-- An image of eight words, DATA0 first. -/
def mkImage (ws : List Nat) : EntryImage := BitVec.ofNat 256 (ws.foldl (fun a w => a * 2 ^ 32 + w % 2 ^ 32) 0)

/-- Bits hi:lo of a word of an image. -/
def imgBits (img : EntryImage) (n hi lo : Nat) : Nat := imgWord img n / 2 ^ lo % 2 ^ (hi + 1 - lo)

/-- The bits of each word that are not reserved (R234, R239, R241, R245). -/
def imgMask : Nat → List Nat
  | 0 => [0xFFF807FF, 0xFFFF, 0xFFFFFFFF, 0, 0xFFFFFFFF, 0xFFFFFFFF, 0xFFFFFFFF, 0xFFFFFFFF]
  | 1 => [0xE0FFF7FF, 0xFFFF, 0xFFFFFFFF, 0, 0, 0, 0, 0]
  | 2 => [0x87000000, 0xFFFFFFFF, 0, 0, 0, 0, 0, 0]
  | 3 => [0x87000000, 0xFFFFFFFF, 0, 0, 0, 0, 0, 0]
  | 4 => [0xFF0FFFFF, 0xFFFFFFFF, 0, 0, 0, 0, 0, 0]
  | 5 => [0xFFFFFFFF, 0, 0, 0, 0, 0, 0, 0]
  | _ => [0, 0, 0, 0, 0, 0, 0, 0]

/-- VALID of an image; a FLOOD entry has none and always counts as in use. -/
def imgValid (tb : Nat) (img : EntryImage) : Bool := decide (tb = 5) || img.getLsbD 255

/-- An image as it is stored: reserved bits 0, and 0 where it is not valid (R231, R232). -/
def imgStore (tb : Nat) (img : EntryImage) : EntryImage :=
  let m := img &&& mkImage (imgMask tb)
  if imgValid tb m then m else 0

/-- An image that a host writes: a MAC entry is static (R239). -/
def imgHost (tb : Nat) (img : EntryImage) : EntryImage :=
  if tb = 1 then imgStore tb (img &&& mkImage [0x9FFFFFFF, 0xFFFF, 0xFFFFFFFF, 0, 0, 0, 0, 0]) else imgStore tb img

/-- The offset, within an image, of the byte that holds a reserved code or an illegal value (R234, R245, R630). -/
def imgBad (tb : Nat) (img : EntryImage) : Option Nat :=
  if tb = 5 ∨ !img.getLsbD 255 then none
  else if tb = 0 then
    if imgBits img 0 29 22 > (if img.getLsbD 254 then 128 else 32) then some 0
    else if imgBits img 0 21 20 = 3 then some 1 else none
  else if tb = 4 ∧ imgBits img 0 28 27 = 3 then some 0
  else none

/-- A valid IPv6 entry. -/
def isV6 (img : EntryImage) : Bool := img.getLsbD 255 && img.getLsbD 254

/-- VLAN and MAC address of a MAC image. -/
def macKeyOf (img : EntryImage) : Nat × Nat :=
  (imgBits img 0 23 12, imgBits img 1 15 0 * 2 ^ 32 + imgWord img 2)

def entryAt (m : AMap EntryImage) (q tb i : Nat) : EntryImage := m.getD (tblKey q tb i) 0

/-- The entries of a table of a quadrant, in ascending index. -/
def tableOf (m : AMap EntryImage) (q tb : Nat) : List (Nat × EntryImage) :=
  (m.filter fun e => decide (e.1 / 262144 = q * 8 + tb)).map fun e => (e.1 % 262144, e.2)

/-- An image written over an entry: an IPv6 image takes the slot after it too (R235). -/
def writeImage (m : AMap EntryImage) (q tb i : Nat) (img : EntryImage) : AMap EntryImage :=
  let m : AMap EntryImage := if tb = 0 ∧ isV6 img then m.del (tblKey q tb (i + 1)) else m
  m.setD (tblKey q tb i) 0 img

/-- A write of one entry (R232, R235, R244). -/
def putEntry (m : AMap EntryImage) (q tb i : Nat) (img : EntryImage) : AMap EntryImage :=
  let m : AMap EntryImage := if tb = 1 ∧ img.getLsbD 255 then
      m.filter fun e => !(decide (e.1 / 262144 = q * 8 + 1) && e.2.getLsbD 254 &&
        decide (macKeyOf e.2 = macKeyOf img))
    else m
  writeImage m q tb i img

/-- R235: the write or invalidate may go to this index. -/
def lpmIndexOk (m : AMap EntryImage) (q i : Nat) (img : EntryImage) : Bool :=
  !(isV6 img && decide (i % 2 = 1)) && !(decide (i % 2 = 1) && isV6 (entryAt m q 0 (i - 1)))

/-- The quadrants of a mask. -/
def quadsOf (qmask : Nat) : List Nat := maskBits 4 qmask

/-- Shadow images that the host has rewritten: sounding takes them up again. -/
def Tables.fresh (t : Tables) (ks : List Nat) : Tables :=
  { t with
    rewritten := t.rewritten.map fun m => ks.foldl (fun m k => m.put k true) m
    bad := t.bad.filter fun k => !ks.contains k }

/-- Sounding skips an entry. -/
def Tables.skips (t : Tables) (k : Nat) : Bool :=
  match t.rewritten with
  | none => false
  | some m => (m.find k).isNone

/-- An entry written in every quadrant of a mask, and in the shadows with SHADOW. -/
def Tables.write (t : Tables) (qmask tb i : Nat) (shadow : Bool) (img : EntryImage) : Tables :=
  let t := if shadow then t.fresh ((quadsOf qmask).map fun q => tblKey q tb i) else t
  { t with
    entries := (quadsOf qmask).foldl (fun m q => putEntry m q tb i img) t.entries
    shadow := if shadow then (quadsOf qmask).foldl (fun m q => putEntry m q tb i img) t.shadow else t.shadow }

/-- R238 in one quadrant: a range split by an IPv6 pair. -/
def splitsPair (m : AMap EntryImage) (q a n : Nat) : Bool :=
  (decide (a % 2 = 1) && isV6 (entryAt m q 0 (a - 1))) ||
  (decide ((a + n) % 2 = 1) && isV6 (entryAt m q 0 (a + n - 1)))

/-- R238: the source range holds an IPv6 entry. -/
def rangeHasV6 (m : AMap EntryImage) (q a n : Nat) : Bool :=
  (tableOf m q 0).any fun e => decide (a ≤ e.1 ∧ e.1 < a + n) && isV6 e.2

/-- The result of a move in one quadrant (R238). -/
def moveIn (m : AMap EntryImage) (q src dst n : Nat) : AMap EntryImage :=
  let moved := (tableOf m q 0).filter fun e => decide (src ≤ e.1 ∧ e.1 < src + n)
  let kept := m.filter fun e =>
    !(decide (e.1 / 262144 = q * 8) &&
      (decide (src ≤ e.1 % 262144 ∧ e.1 % 262144 < src + n) || decide (dst ≤ e.1 % 262144 ∧ e.1 % 262144 < dst + n)))
  moved.foldl (fun m e => m.put (tblKey q 0 (e.1 - src + dst)) e.2) kept

def Tables.move (t : Tables) (qmask src dst n : Nat) (shadow : Bool) : Tables :=
  let ks (q : Nat) : List Nat := (rangeFrom src n ++ rangeFrom dst n).map (tblKey q 0)
  let t := if shadow then t.fresh ((quadsOf qmask).flatMap ks) else t
  { t with
    entries := (quadsOf qmask).foldl (fun m q => moveIn m q src dst n) t.entries
    shadow := if shadow then (quadsOf qmask).foldl (fun m q => moveIn m q src dst n) t.shadow else t.shadow }

/-! ## Conflicts and banks (R84, R252, R267) -/

/-- The state of the bank that a table ID names. -/
def Gen.bankOf (g : Gen) (tb : Nat) : Option Bank :=
  if tb = 2 then some g.bank0 else if tb = 3 then some g.bank1 else none

/-- R252: why a write to a route bank is refused. -/
def State.bankRefusal (s : State) (tb : Nat) : Option (Nat × Nat) :=
  match s.gen.bankOf tb with
  | none => none
  | some b =>
    match b.st with
    | .idle => none
    | .draining => some (stBusy, 2)
    | _ => some (stBadParam, 1)

/-- What an uncompleted command of a session holds, from its acceptance (R62, R267): TBL_MOVE, the two bulk commands and
GEN_ACTIVATE. -/
def heldBy (session : Nat) (e : CmdEntry) : List Hold :=
  let f (off n : Nat) := fieldAt e.params off n
  if e.opcode = 0x0204 then [⟨session, 0, f 0 1, min (f 4 4) (f 8 4), max (f 4 4) (f 8 4) + f 12 4⟩]
  else if e.opcode = 0x0205 then [⟨session, f 1 1, f 0 1, f 8 4, f 8 4 + f 12 4⟩]
  else if e.opcode = 0x0206 then [⟨session, f 1 1, 2 ^ f 0 1, f 4 4, f 4 4 + f 8 4⟩]
  else if e.opcode = 0x0301 ∧ e.finished = none then [⟨session, 2, 15, 0, 512⟩, ⟨session, 3, 15, 0, 512⟩]
  else []

/-- What other sessions hold: through TBL_CMD, and by their uncompleted commands accepted before `limit`. -/
def State.foreignHolds (s : State) (session : Nat) (limit : Option Nat) : List Hold :=
  (s.tables.holds ++ s.mgmt.slots.flatMap fun x =>
    (x.cmds.filter fun e => decide (∀ n ∈ limit, e.order < n)).flatMap (heldBy x.number)).filter fun h =>
      decide (h.session ≠ session)

/-- The other session that holds entries lo to hi - 1 of a table in some quadrant of a mask (R84). A command that itself
holds a range gives its own place in the order of acceptance as `limit`: of two holders the earlier goes first. -/
def State.conflict (s : State) (session : Nat) (limit : Option Nat) (tb qmask lo hi : Nat) : Option Nat :=
  ((s.foreignHolds session limit).find? fun h => decide (h.table = tb ∧ h.lo < hi ∧ lo < h.hi) &&
    (maskBits 4 h.qmask).any fun q => bit qmask q).map Hold.session

/-- The place in the order of acceptance of the command that slot `i` starts: the first one that waits. -/
def State.startingOrder (s : State) (i : Nat) : Nat :=
  (((s.slot i).cmds.find? fun e => decide (e.phase = .queued)).map CmdEntry.order).getD s.mgmt.accepted

/-- The table pipelines of a mask. -/
def pipesOf (qmask : Nat) : List Nat := (quadsOf qmask).map fidTbl

/-- Check 14 of a change to a table: R84 first, then R252. -/
def guardTable (session : Nat) (limit : Option Nat) (tb qmask lo hi : Nat) (s : State) (k : Ans × State) : Ans × State :=
  match s.conflict session limit tb qmask lo hi with
  | some n => (.done stConflict n [], s)
  | none =>
    match s.bankRefusal tb with
    | some (st, d) => (.done st d [], s)
    | none => k

def imgBytes (img : EntryImage) : List Byte := bvBytes 32 img

/-- Bytes 0 to 3 of a class 0x02 command that changes a table (R265). -/
def maskParams (qmask table flags rsv : Byte) : List (Bool × Nat) :=
  [(decide (0 < qmask.toNat ∧ qmask.toNat < 16), 0), (decide (table.toNat < 6), 1), (decide (flags.toNat < 2), 2),
   rsvOk rsv 3]

/-- Bytes 0 to 3 of a class 0x02 command that reads. -/
def quadParams (quad table flags rsv : Byte) : List (Bool × Nat) :=
  [(decide (quad.toNat < 4), 0), (decide (table.toNat < 6), 1), (decide (flags.toNat < 2), 2), rsvOk rsv 3]

/-- R235 for every quadrant of a mask. -/
def State.lpmOk (s : State) (qmask tb i : Nat) (img : EntryImage) : Bool :=
  decide (tb ≠ 0) || (quadsOf qmask).all fun q => lpmIndexOk s.tables.entries q i img

/-- TBL_WRITE (R232, R235, R244, R252, R261, R265). -/
def execTblWrite (iss : Issuer) (qmask table flags rsv : Byte) (index : BitVec 32) (image : BitVec 256) (s : State) :
    Out :=
  .next <| hostCmd (.tblWrite iss qmask table flags rsv index image) (fun i s =>
    let tb := table.toNat
    let n := index.toNat
    let img := imgHost tb image
    guardParams (maskParams qmask table flags rsv ++
        [(decide (n < tblSize tb) && s.lpmOk qmask.toNat tb n img, 4),
         ((imgBad tb image).isNone, 8 + (imgBad tb image).getD 0)]) s <|
      guardUp (pipesOf qmask.toNat) s <|
        guardTable (s.slot i).number none tb qmask.toNat n (n + 1) s
          (ok [], { s with tables := s.tables.write qmask.toNat tb n (flags.getLsbD 0) img })) s

/-- TBL_READ (R233, R265). -/
def execTblRead (iss : Issuer) (quad table flags rsv : Byte) (index : BitVec 32) (s : State) : Out :=
  .next <| hostCmd (.tblRead iss quad table flags rsv index) (fun _ s =>
    guardParams (quadParams quad table flags rsv ++ [(decide (index.toNat < tblSize table.toNat), 4)]) s <|
      guardUp [fidTbl quad.toNat] s
        (ok (imgBytes (entryAt (if flags.getLsbD 0 then s.tables.shadow else s.tables.entries) quad.toNat
          table.toNat index.toNat)), s)) s

/-- TBL_INVALIDATE (R235, R252, R265). -/
def execTblInvalidate (iss : Issuer) (qmask table flags rsv : Byte) (index : BitVec 32) (s : State) : Out :=
  .next <| hostCmd (.tblInvalidate iss qmask table flags rsv index) (fun i s =>
    let tb := table.toNat
    let n := index.toNat
    guardParams (maskParams qmask table flags rsv ++
        [(decide (n < tblSize tb) && s.lpmOk qmask.toNat tb n 0, 4)]) s <|
      guardUp (pipesOf qmask.toNat) s <|
        guardTable (s.slot i).number none tb qmask.toNat n (n + 1) s
          (ok [], { s with tables := s.tables.write qmask.toNat tb n (flags.getLsbD 0) 0 })) s

/-- The rules of R238 on src, dst and count, with the offsets of those fields. -/
def State.moveParams (s : State) (qmask src dst n osrc odst on : Nat) : List (Bool × Nat) :=
  let legal := decide (1 ≤ n ∧ n ≤ 262144)
  let m := if legal then n else 1
  [(decide (src + m ≤ 262144) && (quadsOf qmask).all fun q => !splitsPair s.tables.entries q src m, osrc),
   (decide (dst + m ≤ 262144) && ((quadsOf qmask).all fun q => !splitsPair s.tables.entries q dst m &&
      (decide ((dst + src) % 2 = 0) || !rangeHasV6 s.tables.entries q src m)), odst),
   (legal, on)]

/-- TBL_MOVE (R238, R265). -/
def execTblMove (iss : Issuer) (qmask table flags rsv : Byte) (src dst count : BitVec 32) (s : State) : Out :=
  .next <| hostCmd (.tblMove iss qmask table flags rsv src dst count) (fun i s =>
    guardParams ([(decide (0 < qmask.toNat ∧ qmask.toNat < 16), 0), (decide (table = 0), 1),
        (decide (flags.toNat < 2), 2), rsvOk rsv 3] ++
        s.moveParams qmask.toNat src.toNat dst.toNat count.toNat 4 8 12) s <|
      guardUp (pipesOf qmask.toNat) s <|
        guardTable (s.slot i).number (s.startingOrder i) 0 qmask.toNat (min src.toNat dst.toNat)
          (max src.toNat dst.toNat + count.toNat) s
          (ok [], { s with tables := s.tables.move qmask.toNat src.toNat dst.toNat count.toNat (flags.getLsbD 0) })) s

/-- The images of an object. -/
def objImages (o : Obj) (n : Nat) : List EntryImage :=
  (List.range n).map fun j => BitVec.ofNat 256 (beNat (o.read (32 * j) 32))

/-- Entries written one after another; none where one breaks R235 or holds an illegal value. -/
def Tables.bulk (t : Tables) (qmask tb : Nat) (shadow : Bool) : Nat → List EntryImage → Option Tables
  | _, [] => some t
  | i, img :: rest =>
    let h := imgHost tb img
    if (imgBad tb img).isNone && (decide (tb ≠ 0) || (quadsOf qmask).all fun q => lpmIndexOk t.entries q i h) then
      Tables.bulk (t.write qmask tb i shadow h) qmask tb shadow (i + 1) rest
    else none

/-- TBL_BULK_WRITE (R265). -/
def execTblBulkWrite (iss : Issuer) (qmask table flags rsv : Byte) (handle rsv2 : BitVec 16) (first count : BitVec 32)
    (met : List BlockErr) (s : State) : Out :=
  .next <| hostCmd (.tblBulkWrite iss qmask table flags rsv handle rsv2 first count met) (fun i s =>
    let tb := table.toNat
    let lo := first.toNat
    let n := count.toNat
    withObject i handle 4 4 (fun l => decide (32 * n ≤ l)) (maskParams qmask table flags rsv)
      [rsvOk rsv2 6, (decide (lo < tblSize tb), 8), (decide (1 ≤ n ∧ lo + n ≤ tblSize tb), 12)] (pipesOf qmask.toNat) s
      fun o =>
        guardTable (s.slot i).number (s.startingOrder i) tb qmask.toNat lo (lo + n) s <|
          consuming handle o met s fun s =>
            match s.tables.bulk qmask.toNat tb (flags.getLsbD 0) lo (objImages o n) with
            | some t => (ok [], { s with tables := t })
            | none => (badParam 8, s)) s

/-- TBL_BULK_READ (R265). -/
def execTblBulkRead (iss : Issuer) (quad table flags rsv : Byte) (first count : BitVec 32) (s : State) : Out :=
  .next <| hostCmd (.tblBulkRead iss quad table flags rsv first count) (fun i s =>
    let tb := table.toNat
    guardParams (quadParams quad table flags rsv ++ [(decide (first.toNat < tblSize tb), 4),
        (decide (1 ≤ count.toNat ∧ count.toNat ≤ 65536 ∧ first.toNat + count.toNat ≤ tblSize tb), 8)]) s <|
      guardUp [fidTbl quad.toNat] s <|
        answerObject (s.slot i).number
          ((rangeFrom first.toNat count.toNat).flatMap fun n =>
            imgBytes (entryAt (if flags.getLsbD 0 then s.tables.shadow else s.tables.entries) quad.toNat tb n)) s) s

/-- SOUND_CONFIG (R262, R265): sets TBL_SOUND. -/
def execSoundConfig (iss : Issuer) (rsv rate : BitVec 32) (repair : Byte) (rsv2 : BitVec 24) (s : State) : Out :=
  .next <| hostCmd (.soundConfig iss rsv rate repair rsv2) (fun _ s =>
    guardParams [rsvOk rsv 0, (decide (rate.toNat ≤ 4000000), 4), (decide (repair.toNat ≤ 1), 8), rsvOk rsv2 9] s
      (ok [], s.setReg .tblSound [] (BitVec.ofNat 32 (repair.toNat * 2 ^ 31 + rate.toNat)))) s

/-! ## The operations of TBL_CMD (R269) -/

/-- What a TBL_CMD value asks, at TBL_INDEX and TBL_DATA: the status it ends with, and the state. -/
def State.tblOp (s : State) (session : Nat) (v : Word) : Nat × State :=
  let qm := Word.bits v 27 24
  let tb := Word.bits v 18 16
  let sh := Word.bits v 8 8 = 1
  let i := s.regBits .tblIndex [] 17 0
  let img := mkImage ((List.range 8).map fun n => (s.reg .tblData [n]).toNat)
  let change (lo hi : Nat) (okIx : Bool) (k : Tables) : Nat × State :=
    if qm = 0 ∨ 6 ≤ tb ∨ !okIx then (stBadParam, s)
    else if (pipesOf qm).any s.fnDown then (stInReset, s)
    else if (s.conflict session none tb qm lo hi).isSome then (stConflict, s)
    else
      match s.bankRefusal tb with
      | some (st, _) => (st, s)
      | none => (stOk, { s with tables := k })
  match Word.bits v 3 0 with
  | 1 =>
    let h := imgHost tb img
    change i (i + 1) (decide (i < tblSize tb) && (imgBad tb img).isNone && s.lpmOk qm tb i h)
      (s.tables.write qm tb i sh h)
  | 2 =>
    match quadsOf qm with
    | [q] =>
      if 6 ≤ tb ∨ tblSize tb ≤ i then (stBadParam, s)
      else if s.fnDown (fidTbl q) then (stInReset, s)
      else
        let e := entryAt (if sh then s.tables.shadow else s.tables.entries) q tb i
        (stOk, (List.range 8).foldl (fun s n => s.setReg .tblData [n] (BitVec.ofNat 32 (imgWord e n))) s)
    | _ => (stBadParam, s)
  | 3 => change i (i + 1) (decide (i < tblSize tb) && s.lpmOk qm tb i 0) (s.tables.write qm tb i sh 0)
  | 4 =>
    let dst := Word.bits (s.reg .tblData [0]) 17 0
    let n := Word.bits (s.reg .tblData [1]) 18 0
    change (min i dst) (max i dst + n) (decide (tb = 0) && (firstBad (s.moveParams qm i dst n 0 0 0)).isNone)
      (s.tables.move qm i dst n sh)
  | _ => (stBadParam, s)

/-- A non-zero OP of TBL_CMD starts its operation (R269), on the QMASK, TABLE and SHADOW that the register now holds. -/
def State.tblCmd (s : State) (session op : Nat) : State :=
  if op = 0 then s
  else
    let v := s.reg .tblCmd [] ||| BitVec.ofNat 32 op
    let (code, s) := s.tblOp session v
    let hold := if op = 4 ∧ code = stOk then
        let src := s.regBits .tblIndex [] 17 0
        let dst := Word.bits (s.reg .tblData [0]) 17 0
        [Hold.mk session 0 (Word.bits v 27 24) (min src dst) (max src dst + Word.bits (s.reg .tblData [1]) 18 0)]
      else []
    { s with tables := { s.tables with
        op := { s.tables.op with busy := true, next := code }, holds := s.tables.holds ++ hold } }

/-- TABLE_OPERATION_COMPLETE (R269): BUSY clears and CODE takes the operation's status. -/
def execTableOperationComplete (s : State) : Out :=
  .next <|
    if s.tables.op.busy then
      { s with tables := { s.tables with op := ⟨false, s.tables.op.next, 0⟩, holds := [] } }
    else s

/-! ## Shadows and sounding (R260 to R263) -/

/-- The entry of the round at a position: quadrants, tables and indexes in order (R262). -/
def soundEntry (pos : Nat) : Nat × Nat × Nat :=
  let q := pos / 394304
  let r := pos % 394304
  if r < 262144 then (q, 0, r)
  else if r < 327680 then (q, 1, r - 262144)
  else if r < 328192 then (q, 2, r - 327680)
  else if r < 328704 then (q, 3, r - 328192)
  else if r < 394240 then (q, 4, r - 328704)
  else (q, 5, r - 394240)

/-- HIT taken out of a MAC image. -/
def noHit (tb : Nat) (img : EntryImage) : EntryImage := if tb = 1 then img &&& ~~~ (1#256 <<< 253) else img

/-- Where the shadows of the tables lie: table, base and the bytes they take (R260). -/
def shadowBases : List (Nat × Nat × Nat) :=
  [(0, 0x000000, 0x800000), (1, 0x800000, 0x200000), (4, 0xA00000, 0x200000), (2, 0xC00000, 0x4000), (3, 0xC04000, 0x4000),
   (5, 0xC08000, 0x800)]

/-- The shadow images with a byte in the 64-byte block of an address, by `tblKey`. -/
def shadowKeys (a : Nat) : List Nat :=
  let q := a / 0x1000000
  let o := a % 0x1000000 / 64 * 64
  if 4 ≤ q then []
  else (shadowBases.filter fun t => decide (t.2.1 ≤ o ∧ o < t.2.1 + t.2.2)).flatMap fun t =>
    [tblKey q t.1 ((o - t.2.1) / 32), tblKey q t.1 ((o - t.2.1) / 32 + 1)]

/-- The byte of SHADOW at which an entry's shadow lies (R260). -/
def shadowAddr (q tb i : Nat) : Nat :=
  q * 0x1000000 + (((shadowBases.find? fun t => decide (t.1 = tb)).map fun t => t.2.1).getD 0) + 32 * i

/-- The read of a shadow: 32 bytes over the link of its bridge, and the block that holds them. -/
def State.soundRead (s : State) (a : Nat) (met : List BlockErr) : State :=
  let b := addrBridge a
  let (mark, s) := s.askLink b false 3 32
  let s := (s.advanceTo (s.linkDue b false 3 mark)).meet 4 1 (fun _ => addrStack a) met
  if (lostBlocks 1 met).isEmpty then s
  else { s with tables := { s.tables with bad := (shadowKeys a ++ s.tables.bad).eraseDups } }

/-- SOUNDING_VISIT (R218, R221, R223, R262, R263): its access is to the block that holds the entry's shadow, and its bytes take their
turn on the bridge's link. -/
def execSoundingVisit (met : List BlockErr) (s : State) : Out :=
  .next <|
    let pos := s.tables.soundPos
    let (q, tb, i) := soundEntry pos
    let a := shadowAddr q tb i
    let visits := !(s.fnDown (fidTbl q) || s.tables.skips (tblKey q tb i))
    let rate := min 4000000 (s.regBits .tblSound [] 21 0)
    if rate = 0 ∨ (visits ∧ !s.linkUp (16 + addrBridge a)) then s
    else
      let s := s.perSecond .sounding 0 rate
      let s := if visits then s.soundRead a met else s
      let done := pos + 1 = 1577216
      let s' := { s with tables := { s.tables with
        soundPos := if done then 0 else pos + 1,
        passes := if done then min (s.tables.passes + 1) (2 ^ 32 - 1) else s.tables.passes } }
      let e := entryAt s.tables.entries q tb i
      let sh := entryAt s.tables.shadow q tb i
      let lost (i : Nat) : Bool := s.tables.bad.contains (tblKey q tb i)
      if !visits then s'
      else if lost i then
        if i % 2 = 1 ∧ lost (i - 1) then s'
        else
          s'.raiseEv 0x0603 2 (fidTbl q)
            (beBytes 1 tb ++ beBytes 1 q ++ beBytes 4 i ++ beBytes 2 (1 + b2n (decide (i % 2 = 0) && lost (i + 1))))
      else if noHit tb e = noHit tb sh ∨ (tb = 1 ∧ e.getLsbD 254 ∧ !sh.getLsbD 255) then s'
      else
        let rep := s.regBits .tblSound [] 31 31 = 1
        let s' := s'.bump .tblSoundMismatches [q]
        let s' := if rep then
            ({ s' with tables := { s'.tables with entries := writeImage s'.tables.entries q tb i sh } }).bump
              .tblSoundRepairs [q]
          else s'
        s'.raiseEv 0x0602 2 (fidTbl q)
          (padTo 24 (beBytes 1 tb ++ beBytes 1 q ++ beBytes 4 i ++ beBytes 1 (b2n rep)) ++ imgBytes e ++ imgBytes sh)

/-- MAC_AGE_SWEEP (R243). -/
def execMacAgeSweep (quad : Quad) (s : State) : Out :=
  .next <|
    if s.boot.phase = .reset ∨ s.regBits .tblMacConfig [] 15 0 = 0 ∨ s.fnDown (fidTbl quad) then s
    else
      let s := s.every .macAge quad.val (s.regBits .tblMacConfig [] 15 0 * 1000000000)
      let swept := s.tables.entries.filterMap fun e =>
        if e.1 / 262144 = quad.val * 8 + 1 ∧ e.2.getLsbD 254 then
          if e.2.getLsbD 253 then some (e.1, e.2 &&& ~~~ (1#256 <<< 253)) else none
        else some e
      { s with tables := { s.tables with entries := swept } }

end Sys2Proof.Machine
end

