-- ==== Sys2Proof/Machine/Lookup.lean ====
section
/-! DEFINITION. Stage 3: the lookup of a cell or frame (R229 to R250), the route generations in force (R253, R254) and the
age limits (R189). -/

namespace Sys2Proof.Machine

/-! ## Cells inside the part (R254) -/

/-- The cells that a tile holds outside its queues. -/
def TileSt.cells (x : TileSt) : List QCell := x.arrivals ++ x.looked ++ x.landed ++ x.held

/-- Every cell inside the part. -/
def State.allCells (s : State) : List QCell :=
  s.queues.flatMap (·.2) ++ s.undertow.flatMap (·.2) ++ (s.tiles.flatMap fun t => t.2.cells) ++
    s.xbar.inflight.flatMap (fun m => (m.moved.getD []).map (·.2)) ++ s.xbar.late.map (·.2)

/-- The cells counted in a bank. -/
def State.banked (s : State) (g : Nat) : List QCell := s.allCells.filter fun q => decide (q.bank = some g)

/-- GEN_INFLIGHT_g. -/
def State.inflight (s : State) (g : Nat) : Nat := (s.banked g).length

def Gen.bank (g : Gen) (i : Nat) : Bank := if i = 0 then g.bank0 else g.bank1
def Gen.setBank (g : Gen) (i : Nat) (b : Bank) : Gen := if i = 0 then { g with bank0 := b } else { g with bank1 := b }
/-- The ACTIVE bank. -/
def Gen.act (g : Gen) : Nat := if g.bank0.st = .active then 0 else 1

/-- GEN_CONFIG.LATE_CUTOFF in ns. -/
def State.lateCutoff (s : State) : Nat := s.regBits .genConfig [] 15 0 * 1000

/-- Bank `g` serves a cell that reaches stage 3 now (R253). -/
def State.bankServes (s : State) (g : Nat) : Bool :=
  let b := s.gen.bank g
  match b.st with
  | .active => true
  | .draining => decide (s.ptpNs < b.t + s.lateCutoff)
  | .armed => decide (b.t ≤ s.ptpNs + 1000)
  | .idle => false

/-! ## Age limits (R189) -/

/-- The end, on the free-running counter, of the first SCHED-gated window of a table that ends after an ingress time-stamp
in PTP time. -/
def State.schedLimit (s : State) (tp : TidePort) (stamp : Nat) : Option Nat :=
  let cycle := 2 ^ tp.k
  let p := stamp / 2 ^ 40 % cycle
  let ds := (tp.windows.filter fun w => bit w.gate 0).map fun w =>
    let e := w.start + w.len
    if p < e then e - p else e + cycle - p
  match ds with
  | [] => none
  | d :: rest => some (s.freeAt (stamp / 2 ^ 40 + rest.foldl min d))

/-- The limit of a SCHED cell for its egress port. -/
def State.limitSched (s : State) (p : Nat) (q : QCell) : Nat :=
  match s.tide.active.find p with
  | none => s.ageFrom 0 q.time
  | some tp => (s.schedLimit tp q.ptp).getD (s.ageFrom 0 q.time)

/-! ## Spindrift (R247 to R250) -/

/-- One step of the LFSR (R249), shifting toward its most significant bit. -/
def lfsrStep (v : Nat) : Nat :=
  let w := v * 2 % 2 ^ 32
  if 2 ^ 31 ≤ v then w ^^^ 0x00400007 else w

/-- The weight of a port in a WEIGHT word. -/
def weightOf (weights p : Nat) : Nat := weights / 2 ^ (4 * (p % 8)) % 16

/-- The eligible ports of a fibre. -/
def State.eligiblePorts (s : State) (f weights : Nat) : List Nat :=
  (s.portsOf f).filter fun p => decide (0 < weightOf weights p) && s.portUp p

/-- The port whose share of the total holds `r`. -/
def pickShare : List (Nat × Nat) → Nat → Option Nat
  | [], _ => none
  | (p, e) :: rest, r => if r < e then some p else pickShare rest (r - e)

/-- Spindrift's choice; none where no port is eligible. -/
def State.spindrift (s : State) (q f weights : Nat) : Option Nat × State :=
  let shift := s.regBits .tblSpray [] 3 0
  let es := (s.eligiblePorts f weights).map fun p =>
    (p, weightOf weights p * (16 - min 15 (s.tables.est.getD (q * 2048 + p) 0 / 2 ^ shift)))
  if es.isEmpty then (none, s)
  else
    let v := lfsrStep (s.tables.lfsr.getD q 1)
    (pickShare es (v % (es.map (·.2)).sum), { s with tables := { s.tables with lfsr := s.tables.lfsr.setD q 1 v } })

/-! ## Fabric cells (R246) -/

/-- What a lookup decides: an egress port, or the counter of the drop. -/
inductive Route where
  | to (lane : Nat)
  | drop (r : Reg)
  deriving DecidableEq, Repr

/-- The override that matches a cell in bank `g`: the lowest index. -/
def State.override (s : State) (q g dpod dep : Nat) : Option EntryImage :=
  ((tableOf s.tables.entries q tblOverride).find? fun e =>
    e.2.getLsbD 255 && decide (imgBits e.2 0 (29 + g) (29 + g) = 1) && decide (imgBits e.2 0 19 0 = dpod * 2048 + dep)).map (·.2)

/-- Steps 3 to 5 of R246 under a governing entry. -/
def State.routeBy (s : State) (q : Nat) (c : Cell) (img : EntryImage) (sched : Bool) : Route × State :=
  match s.podFibre c.dpod with
  | none => (.drop .tblUnroutable, s)
  | some f =>
    if sched ∨ c.cls = clsSched then
      let p := 8 * f + imgBits img 0 26 24
      (if s.portUp p then .to p else .drop .tblSchedNoPort, s)
    else
      match s.spindrift q f (imgWord img 1) with
      | (some p, s) => (.to p, s)
      | (none, s) => (.drop .tblNoPort, s)

/-- R246. -/
def State.routeCell (s : State) (q g : Nat) (c : Cell) : Route × State :=
  match s.override q g c.dpod c.dep with
  | some img =>
    let a := imgBits img 0 28 27
    if a = 0 then (.drop .tblRouteDrops, s) else s.routeBy q c img (decide (a = 1))
  | none =>
    let img := entryAt s.tables.entries q (2 + g) c.dpod
    if img.getLsbD 255 then s.routeBy q c img false else (.drop .tblUnroutable, s)

/-! ## Ordinary frames (R236, R237, R240 to R242) -/

/-- The fields of a frame's first cell. -/
structure FrameHead where
  dst : Nat
  src : Nat
  vid : Nat
  etherType : Nat
  /-- Where the EtherType's payload begins. -/
  l3 : Nat

def frameHead (bs : List Byte) : FrameHead :=
  let n (off len : Nat) : Nat := beNat (padTo len (bs.drop off))
  let tagged := decide (n 12 2 = 0x8100)
  { dst := n 0 6, src := n 6 6, vid := if tagged then n 14 2 % 4096 else 0,
    etherType := if tagged then n 16 2 else n 12 2, l3 := if tagged then 18 else 14 }

/-- A group address. -/
def macGroup (a : Nat) : Bool := bit a 40

/-- The lowest-indexed MAC entry of a station. -/
def State.macFind (s : State) (q vid mac : Nat) : Option (Nat × EntryImage) :=
  (tableOf s.tables.entries q tblMac).find? fun e => e.2.getLsbD 255 && decide (macKeyOf e.2 = (vid, mac))

/-- The lowest index that a sorted table does not list. -/
def firstGap : List (Nat × EntryImage) → Nat → Nat
  | [], n => n
  | (i, _) :: rest, n => if i = n then firstGap rest (n + 1) else n

/-- The event of a learned entry (R242). -/
def State.learnEvent (s : State) (q kind i : Nat) (img : EntryImage) : State :=
  if s.regBits .tblMacConfig [] 16 16 = 1 then
    s.raiseEv 0x0601 0 (fidTbl q) (padTo 24 (beBytes 1 q ++ beBytes 1 kind ++ beBytes 4 i) ++ imgBytes img)
  else s

def State.putMac (s : State) (q i : Nat) (img : EntryImage) : State :=
  { s with tables := { s.tables with entries := s.tables.entries.setD (tblKey q tblMac i) 0 img } }

/-- The learning of a frame's source (R242). -/
def State.learn (s : State) (q p vid mac : Nat) : State :=
  if s.regBits .tblMacConfig [] 17 17 = 0 ∨ !s.portUp p ∨ macGroup mac then s
  else
    let fresh := mkImage [0xE0000000 + vid * 4096 + p, mac / 2 ^ 32, mac % 2 ^ 32, 0, 0, 0, 0, 0]
    match s.macFind q vid mac with
    | some (i, img) =>
      let same := decide (imgBits img 0 10 0 = p)
      if img.getLsbD 254 then
        if same then s.putMac q i fresh
        else ((s.putMac q i fresh).bump .tblMacMoves [q]).learnEvent q 1 i fresh
      else if same then s else s.bump .tblStaticConflicts [q]
    | none =>
      let i := firstGap (tableOf s.tables.entries q tblMac) 0
      if 65536 ≤ i then s.bump .tblLearnFull [q] else (s.putMac q i fresh).learnEvent q 0 i fresh

/-- What a frame's lookup decides: targets and whether it is routed, with its first cell as it goes on; or a drop. -/
inductive FrameFate where
  | go (outs : List OutTarget) (rewrite : Bool) (cell : Cell)
  | drop (r : Reg)
  deriving DecidableEq, Repr

/-- The flood set of a quadrant: ports that are UP, except one (R240, R241). -/
def State.floodSet (s : State) (q p : Nat) : List Nat :=
  (tableOf s.tables.entries q tblFlood).flatMap fun e =>
    ((maskBits 32 (imgWord e.2 0)).map fun k => 32 * e.1 + k).filter fun l => s.configured l && s.portUp l && decide (l ≠ p)

/-- A bridged frame (R240). -/
def State.bridge (s : State) (q p : Nat) (h : FrameHead) (c : Cell) : FrameFate :=
  let flood :=
    let outs := s.floodSet q p
    if outs.isEmpty then FrameFate.drop .tblUnknown else .go (outs.map OutTarget.port) false c
  if macGroup h.dst then flood
  else
    match s.macFind q h.vid h.dst with
    | none => flood
    | some (_, img) =>
      let port := imgBits img 0 10 0
      if port = p then .drop .tblFiltered
      else if s.portUp port then .go [.port port] false c
      else .drop .tblNoPort

/-- The address of an LPM image, of its family's width. -/
def lpmAddr (img : EntryImage) : Nat :=
  if img.getLsbD 254 then img.toNat % 2 ^ 128 else imgWord img 7

/-- The lowest-indexed LPM entry that matches (R236). -/
def State.lpm (s : State) (q : Nat) (v6 : Bool) (a : Nat) : Option EntryImage :=
  let w := if v6 then 128 else 32
  ((tableOf s.tables.entries q tblLpm).find? fun e =>
    let len := imgBits e.2 0 29 22
    e.2.getLsbD 255 && decide (e.2.getLsbD 254 = v6) && decide (a / 2 ^ (w - len) = lpmAddr e.2 / 2 ^ (w - len))).map (·.2)

/-- IPv4 checksum once the TTL is one less. -/
def checksumOn (hc : Nat) : Nat :=
  let t := (0xFFFF - hc) + (0xFFFF - 0x0100)
  0xFFFF - (t % 65536 + t / 65536)

/-- Bytes written over others from an offset. -/
def overwrite (bs : List Byte) (off : Nat) (new : List Byte) : List Byte :=
  bs.take off ++ new ++ bs.drop (off + new.length)

/-- The end of the ports of a frame that has them: a TCP or UDP header, of no fragment (R250). -/
def portsEnd (v6 : Bool) (l3 : Nat) (bs : List Byte) : Option Nat :=
  let part (off len : Nat) : Nat := beNat (padTo len (bs.drop (l3 + off)))
  let proto := part (if v6 then 6 else 9) 1
  let frag := if v6 then decide (proto = 44) else decide (part 6 2 % 16384 ≠ 0)
  if frag ∨ (proto ≠ 6 ∧ proto ≠ 17) then none else some (l3 + 4 + if v6 then 40 else part 0 1 % 16 * 4)

/-- The bytes that the flow hash takes (R250); the ports of a header that runs past the frame's end are open. -/
def State.flowBytes (s : State) (v6 : Bool) (l3 : Nat) (bs : List Byte) : List Byte × State :=
  let part (off len : Nat) : List Byte := padTo len (bs.drop (l3 + off))
  let head := (if v6 then part 8 32 else part 12 8) ++ part (if v6 then 6 else 9) 1
  match portsEnd v6 l3 bs with
  | none => (head ++ [0, 0, 0, 0], s)
  | some e =>
    if e ≤ bs.length then (head ++ (bs.drop (e - 4)).take 4, s)
    else
      let (v, s) := s.drawFree
      (head ++ beBytes 4 v.toNat, s)

/-- The port of a routed frame whose entry names a pod. -/
def State.routePod (s : State) (q : Nat) (img : EntryImage) (v6 : Bool) (l3 : Nat) (bs : List Byte) : Route × State :=
  let pod := imgBits img 0 8 0
  let e := entryAt s.tables.entries q (2 + s.gen.act) pod
  match if e.getLsbD 255 then s.podFibre pod else none with
  | none => (.drop .tblUnroutable, s)
  | some f =>
    if imgBits img 0 19 19 = 1 then
      let ps := s.eligiblePorts f (imgWord e 1)
      let (hb, s) := s.flowBytes v6 l3 bs
      match ps[crc32c (s.regBits .tblHashSeed [] 31 0) hb % ps.length]? with
      | some p => (.to p, s)
      | none => (.drop .tblNoPort, s)
    else
      match s.spindrift q f (imgWord e 1) with
      | (some p, s) => (.to p, s)
      | (none, s) => (.drop .tblNoPort, s)

/-- A routed frame (R236, R237). `bs` are the frame's bytes known so far, `c` its first cell. -/
def State.routeFrame (s : State) (q : Nat) (h : FrameHead) (bs : List Byte) (c : Cell) : FrameFate × State :=
  let v6 := decide (h.etherType = 0x86DD)
  let part (off len : Nat) : Nat := beNat (padTo len (bs.drop (h.l3 + off)))
  let ttl := part (if v6 then 7 else 8) 1
  if ttl ≤ 1 then (.drop .tblTtlDrops, s)
  else
    match s.lpm q v6 (if v6 then part 24 16 else part 16 4) with
    | none => (.drop .tblUnknown, s)
    | some img =>
      let target := imgBits img 0 21 20
      if target = 0 ∨ target = 3 then (.drop .tblRouteDrops, s)
      else
        let (r, s) := if target = 1 then (Route.to (imgBits img 0 10 0), s) else s.routePod q img v6 h.l3 bs
        match r with
        | .drop r => (.drop r, s)
        | .to p =>
          if !s.portUp p then (.drop .tblNoPort, s)
          else
            let mac := imgBits img 1 15 0 * 2 ^ 32 + imgWord img 2
            let cb := c.payBytes 0 64
            let cb := overwrite cb 0 (beBytes 6 mac ++ beBytes 6 (portMac p))
            let cb := overwrite cb (h.l3 + if v6 then 7 else 8) (beBytes 1 (ttl - 1))
            let cb := if v6 then cb else overwrite cb (h.l3 + 10) (beBytes 2 (checksumOn (part 10 2)))
            (.go [.port p] true { c with pay := mkPay cb }, s)

/-- The lookup of a frame on its first cell. A MAC control frame is not sent on (R93): it is filtered (log entry 67). -/
def State.lookupFrame (s : State) (q p : Nat) (bs : List Byte) (c : Cell) : FrameFate × State :=
  let h := frameHead bs
  if h.etherType = 0x8808 then (.drop .tblFiltered, s) else
  let (fate, t) :=
    if h.dst = portMac p then
      if h.etherType = 0x0800 ∨ h.etherType = 0x86DD then s.routeFrame q h bs c else (.drop .tblUnknown, s)
    else (s.bridge q p h c, s)
  (fate, t.learn q p h.vid h.src)

/-! ## CELL_LOOKUP -/

/-- The port a cell came in on. -/
def CellSrc.port : CellSrc → Nat
  | .cMode p => p
  | .gone p => p
  | .eMode p => p
  | .generated => 0

/-- A looked-up cell goes on to stage 4. -/
def State.onward (s : State) (t : Nat) (q : QCell) : State := s.setTile t fun x => { x with looked := x.looked ++ [q] }

/-- A cell of class SCHED, FREQ or FRSP at stage 3. -/
def State.lookupFabric (s : State) (t : Nat) (q : QCell) : State :=
  let quad := t / 16
  let g := q.cell.epoch
  let b := s.gen.bank g
  if !s.bankServes g then
    let s := if b.st = .draining then { s with gen := s.gen.setBank g { b with stale := satSum b.stale 1 } } else s
    ((s.bump .tblStaleEpoch [quad]).credit q).dropCell q
  else
    match s.routeCell quad g q.cell with
    | (.drop r, s) => ((s.bump r [quad]).credit q).dropCell q
    | (.to p, s) =>
      let limit := if q.cls = clsSched then s.limitSched p q else s.ageFrom q.cls q.time
      let s := if b.st = .draining then
          { s with gen := s.gen.setBank g { b with horizon := max b.horizon limit } } else s
      let s := if q.src.fibre = s.podFibre q.cell.dpod then s.bump .tilePortHairpin [t, slotOf q.src.port] else s
      s.onward t { q with limit := limit, outs := [.port p], bank := some g }

/-- A routed frame has a new FCS, which may begin in the cell before its last (R237). -/
def State.newFcsDue (s : State) (q : QCell) : Bool :=
  let h := frameHead (q.cell.payBytes 0 (min 64 q.cell.member))
  if q.cell.chunk = 0 then decide (h.dst = portMac q.src.port ∧ (h.etherType = 0x0800 ∨ h.etherType = 0x86DD))
  else (s.frames.routes.find q.frame).any FrameRoute.rewrite

/-- A cell of a frame that may be routed waits at stage 3 for the frame's next cell, where that has not come: the ports that the
flow hash takes (R250) and the frame's last bytes may lie in it. DESIGN CHOICE (log entry 69). -/
def State.awaitsMore (s : State) (q : QCell) (rest : List QCell) : Bool :=
  decide (q.cls = clsOrd) && !q.last && !s.frames.aborted.contains q.frame && s.newFcsDue q &&
    !(rest.any fun r => decide (r.frame = q.frame ∧ r.cls = clsOrd))

/-- The bytes of a frame's last cell, where it comes next and holds nothing but a part of the FCS. -/
def tailOf (q : QCell) (rest : List QCell) : Nat :=
  match rest.find? fun r => decide (r.frame = q.frame ∧ r.cls = clsOrd) with
  | some r => if r.last ∧ r.cell.member < 4 then r.cell.member else 0
  | none => 0

/-- A cell of an ordinary frame at stage 3. -/
def State.lookupOrd (s : State) (t : Nat) (q : QCell) (rest : List QCell) : State :=
  let q := { q with tail := tailOf q rest }
  let quad := t / 16
  let limit := s.ageFrom clsOrd q.time
  let close (s : State) : State :=
    if q.last then { s with frames := { s.frames with routes := s.frames.routes.del q.frame } } else s
  if s.frames.aborted.contains q.frame then close ((s.credit q).dropCell q)
  else if q.cell.chunk = 0 then
    let more := (rest.find? fun r => decide (r.frame = q.frame ∧ r.cls = clsOrd)).map fun r => r.cell.payBytes 0 r.cell.member
    let bs := q.cell.payBytes 0 q.cell.member ++ more.getD []
    match s.lookupFrame quad q.src.port bs q.cell with
    | (.drop r, s) =>
      let s := ((s.bump r [quad]).credit q).dropCell q
      if q.last then s
      else { s with frames := { s.frames with routes := s.frames.routes.put q.frame ⟨[], false, false⟩ } }
    | (.go outs rewrite cell, s) =>
      let s : State := { s with frames := { s.frames with routes := s.frames.routes.put q.frame ⟨outs, rewrite, false⟩ } }
      (s.onward t { q with cell := cell, limit := limit, outs := outs })
  else
    match s.frames.routes.find q.frame with
    | some r =>
      if r.outs.isEmpty then close ((s.credit q).dropCell q)
      else s.onward t { q with limit := limit, outs := r.outs }
    | none => (s.credit q).dropCell q

/-- The first of a tile's arrivals that is looked up, with those that follow it and those that stay before it. -/
def State.nextArrival (s : State) : List QCell → List QCell → Option (List QCell × QCell × List QCell)
  | _, [] => none
  | before, q :: rest => if s.awaitsMore q rest then State.nextArrival s (before ++ [q]) rest else some (before, q, rest)

/-- CELL_LOOKUP (R229, R264): the first cell of a tile that can pass stage 3; none passes while the pipeline is down. -/
def execCellLookup (tile : Tile) (s : State) : Out :=
  .next <|
    let t := tile.val
    match if s.fnDown (fidTbl (t / 16)) then none else s.nextArrival [] (s.tile t).arrivals with
    | none => s
    | some (before, q, rest) =>
        let c := q.cls
        let table := decide (c = clsSched ∨ c = clsFreq ∨ c = clsFrsp ∨ c = clsOrd)
        let s := s.setTile t fun x => { x with arrivals := before ++ rest }
        if c = clsOrd then s.lookupOrd t q rest
        else if table then s.lookupFabric t q
        else if c = clsCup then
          let open_ := (s.ctx q.cell.ctx).filter fun x => x.st.live
          let limit := match open_ with
            | some x => x.deadline
            | none => s.ageFrom clsCup q.time
          s.onward t { q with limit := limit, marked := open_.isSome, outs := [.slice (homeOf q.cell.ctx q.cell.chunk)] }
        else if c = clsCode then
          s.onward t { q with limit := s.ageFrom c q.time, outs := [.slice (homeOf q.cell.ctx q.cell.chunk)] }
        else s.onward t { q with limit := s.ageFrom c q.time, outs := [.slice (homeOf q.cell.ctx 0)] }

/-- The depth that a port reports: the cells of its egress queues (R248). -/
def State.depthOf (s : State) (p : Nat) : Nat :=
  ((List.range 8).map fun c => (s.queue (qKey (tileOf p) (qEq (slotOf p) c))).length).sum

/-- An estimate moves a quarter of the way toward a reported depth (R248). -/
def nearer (est depth : Nat) : Nat := ((est : Int) + ((min depth 65535 : Nat) - est : Int) / 4).toNat

/-- The estimators after a report: those of every formed port, in every pipeline in service. -/
def State.estimates (s : State) : AMap Nat :=
  ((s.ports.filter fun p => p.2.st.formed).map (·.1)).foldl (init := s.tables.est) fun m p =>
    ([0, 1, 2, 3].filter fun q => !s.fnDown (fidTbl q)).foldl (init := m) fun m q =>
      m.setD (q * 2048 + p) 0 (nearer (m.getD (q * 2048 + p) 0) (s.depthOf p))

/-- DEPTH_REPORT (R248). -/
def execDepthReport (s : State) : Out :=
  .next <|
    if s.boot.phase = .reset then s
    else
      let s := s.every .depthReport 0 1000
      { s with tables := { s.tables with est := s.estimates } }

end Sys2Proof.Machine
end

