-- ==== Sys2Proof/Machine/LinkCells.lean ====
section
/-! DEFINITION. What arrives on a port: flits with their retry (R109 to R119), the classifier of stage 2 (R105, R106, R283),
frames of ORD cells (R103), Ethernet frames (R93) and cell trains (R120, R121). -/

namespace Sys2Proof.Machine

/-! ## The classifier (R104 to R106, R114, R283) -/

/-- TYPE of a CTRL cell. -/
def Cell.type (c : Cell) : Nat := c.aux / 2 ^ 24

/-- The TYPEs that end at the link. -/
def typeLink (t : Nat) : Bool := decide (t = 0x10 ∨ t = 0x11 ∨ t = 0x20)
/-- The TYPEs that go to Estuary. -/
def typeEst (t : Nat) : Bool := decide (t = 1 ∨ t = 2 ∨ t = 3)

/-- A class drop of a port, with the credit of its cell where it has one. -/
def State.classDrop (s : State) (p : Nat) (src : CellSrc) (c : Nat) : State :=
  let s := (s.bump .tilePortClassDrops [tileOf p, slotOf p]).countDrop p c
  match src with
  | .cMode q => s.creditPort q c
  | _ => s

/-- The cell ends at the link: DISCOVER acts, KEEPALIVE and PTP leave nothing here (R105). -/
def State.endAtLink (s : State) (p : Nat) (src : CellSrc) (c : Cell) : State :=
  let back (s : State) : State := match src with
    | .cMode q => s.creditPort q clsCtrl
    | _ => s
  if Cell.type c = 0x10 then (back s).discover (fibreOf p) c.pay
  else if Cell.type c = 0x20 ∧ ¬(34 ≤ c.aux % 256 ∧ c.aux % 256 ≤ 64) then s.classDrop p src clsCtrl
  else back s

/-- A cell joins the arrivals of its tile, to wait for stage 3; `at_` is its ingress time (R188). -/
def State.arrive (s : State) (p : Nat) (src : CellSrc) (c : Cell) (frame : Nat) (at_ : Stamp) : State :=
  let q : QCell := { cellAt at_ c src with frame := frame, last := c.last }
  s.setTile (tileOf p) fun x => { x with arrivals := x.arrivals ++ [q] }

/-- A cell judged by the policers (R283); one that they drop returns its credit, and an ORD cell aborts its frame. -/
def State.judge (s : State) (p : Nat) (src : CellSrc) (c : Cell) (frame : Nat) (at_ : Stamp) : State :=
  let back (s : State) : State := match src with
    | .cMode q => s.creditPort q c.cls
    | _ => s
  let drop (r : Reg) (ix : List Nat) : State :=
    let s := (back (s.bump r ix)).countDrop p c.cls
    if c.cls = clsOrd then s.abortFrame (tileOf p) frame else s
  match s.police p c with
  | .pass s => s.arrive p src c frame at_
  | .portDrop => drop .tilePortPolDrops [tileOf p, slotOf p]
  | .streamDrop => drop .tcSpolDrops []

/-- The frame that an ORD cell belongs to, with the bytes of it that have come; a first cell starts a frame. -/
def State.joinFrame (s : State) (p : Nat) (c : Cell) : Option (Nat × List Byte) × State :=
  let bs := c.payBytes 0 (min 64 c.member)
  let x := s.port p
  if c.chunk = 0 then
    let s := match x.inFrame with
      | some (n, _) => s.abortFrame (tileOf p) n
      | none => s
    (some (s.frames.next, bs), { s with frames := { s.frames with next := s.frames.next + 1 } })
  else (x.inFrame.map fun f => (f.1, f.2 ++ bs), s)

/-- An ORD cell of a C-mode port (R103). DESIGN CHOICE: a frame of more than 144 cells is taken as any other, a frame with a bad
FCS counts in TILE_PORT_CRC_ERRS, and a cell with SEG not 0 outside any frame is a class drop; inside a frame neither SEG nor
FRAME is looked at (log entry 66). -/
def State.arriveOrd (s : State) (p : Nat) (c : Cell) (at_ : Stamp) : State :=
  let (f, s) := s.joinFrame p c
  match f with
  | none => s.classDrop p (.cMode p) clsOrd
  | some (n, bs) =>
    let s := s.setPort p fun y => { y with inFrame := if c.last then none else some (n, bs) }
    if s.frames.aborted.contains n then (s.creditPort p clsOrd).countDrop p clsOrd
    else if c.last ∧ !fcsGood bs then
      let s := s.bump .tilePortCrcErrs [tileOf p, slotOf p]
      if s.frames.started.contains n then
        let kept := s.frames.routes.upd n fun r => { r with rewrite := false, timed := false }
        ({ s with frames := { s.frames with routes := kept } } : State).judge p (.cMode p) (spoilFcs c) n at_
      else
        (({ s with frames := { s.frames with aborted := n :: s.frames.aborted } } : State).creditPort p clsOrd).countDrop p clsOrd
    else s.judge p (.cMode p) c n at_

/-- One cell of a delivered flit at stage 2; `at_` is the arrival of the flit's last codeword (R188). Each check meets only the cells that passed the ones before it. -/
def State.arriveC (s : State) (p : Nat) (at_ : Stamp) (c : Cell) : State :=
  let x := s.port p
  let cls := c.cls
  let ix := [tileOf p, slotOf p]
  let src := CellSrc.cMode p
  let before := x.rcvd.getD cls 0
  let beyond := decide ((x.limitOut.getD cls 0 + 65536 - before) % 65536 = 0 ∨
    32767 < (x.limitOut.getD cls 0 + 65536 - before) % 65536)
  if !x.st.running then s
  else
    let s := (s.setPort p fun y => { y with rcvd := modAt y.rcvd cls fun v => (v + 1) % 65536 }).countRx p c
    if x.st = .quarantined ∧ cls ≠ clsCtrl then (s.bump .tilePortQuarDrops ix).countDrop p cls
    else if cls = clsCdn ∨ beyond then (s.bump .tilePortClassDrops ix).countDrop p cls
    else if cls = clsCtrl then
      let t := Cell.type c
      if typeLink t then s.endAtLink p src c
      else if typeEst t then s.arrive p src c 0 at_
      else s.classDrop p src cls
    else if cls = clsOrd then s.arriveOrd p c at_
    else if c.spod ≠ (s.entry (fibreOf p)).pod then ((s.bump .tilePortSpoofDrops ix).creditPort p cls).countDrop p cls
    else s.judge p src c 0 at_

/-! ## Flits -/

/-- Flit `seq` is covered by an ACK, modulo 2^16 (R109). -/
def covered (ack seq : Nat) : Bool := decide ((ack + 65536 - seq % 65536) % 65536 < 32768)

/-- The time-out of a replay request (R117). -/
def gapNs : Nat := 2000

/-- The ACK of a flit: what it covers leaves the replay buffer (R116). -/
def PortSt.takeAck (x : PortSt) (ack now : Nat) : PortSt :=
  let left := x.replay.filter fun f => !covered ack f.1
  let resend := x.resend.filter fun f => !covered ack f.1
  if left.length < x.replay.length then { x with replay := left, resend := resend, ackAt := now, requests := 0 }
  else x

/-- The cells of a delivered flit, which arrived at a moment. -/
def State.deliver (s : State) (p : Nat) (at_ : Stamp) (f : Flit) : State :=
  (f.slots.zipIdx.filter fun c => bit f.link.slotMask.toNat c.2).foldl (fun s c => s.arriveC p at_ c.1) s

/-- Early flits delivered while the next expected one is held (R112); `fuel` bounds their number. -/
def State.deliverHeld (s : State) (p : Nat) : Nat → State
  | 0 => s
  | fuel + 1 =>
    let x := s.port p
    match x.early.find x.expect with
    | none => s
    | some (at_, f) =>
      let s := s.setPort p fun y => { y with expect := (y.expect + 1) % 65536, early := y.early.del y.expect }
      State.deliverHeld (s.deliver p at_ f) p fuel

/-- When a replay request falls due for the flits held: 2 µs after the earliest of them arrived (R117). -/
def PortSt.heldDue (x : PortSt) : Option Nat :=
  match x.early.map fun e => e.2.1.free with
  | [] => none
  | t :: ts => some (ts.foldl min t + gapNs)

/-- A sequenced flit: delivered in order, held, or known already (R112, R117). The arrival of the expected flit ends the
requests for it; a request for a discarded flit that has not been sent still goes. -/
def State.sequenced (s : State) (p : Nat) (f : Flit) : State :=
  let x := s.port p
  let seq := f.link.fseq.toNat
  let d := (seq + 65536 - x.expect) % 65536
  let now := s.stampNow
  if d = 0 then
    let s := s.setPort p fun y => { y with expect := (y.expect + 1) % 65536, request := false }
    let s := (s.deliver p now f).deliverHeld p 65536
    s.setPort p fun y => { y with gapDue := y.heldDue }
  else if d < 32768 ∧ (x.early.find seq).isNone then
    s.setPort p fun y =>
      let y := { y with early := y.early.put seq (now, f) }
      { y with gapDue := match y.gapDue with
        | some g => some g
        | none => y.heldDue }
  else s

/-- The link cell of a valid flit: lanes, credits and ACK (R109, R113, R114, R116, R124). -/
def State.linkFields (s : State) (l p : Nat) (k : LinkCell) : State :=
  let now := s.now
  let s := s.setLane l fun x => { x with lastValid := now, run := min 64 (x.run + 1) }
  let w := 2 ^ lambdaOf l
  let back := decide ((s.lane l).run = 64) && (s.lane l).ok .rx
  let s := s.setPort p fun y =>
    { y.takeAck k.ack.toNat now with
      lastValid := now
      peerTx := k.txLanes.toNat
      peerRx := k.rxLanes.toNat
      limitIn := k.credit.map BitVec.toNat
      rx := if back then y.rx ||| w else y.rx }
  s.retune p

/-- FLIT_RECEIVE (R110, R445): a flit whose codewords the FEC corrected, `fecOk`, and whose CRC is good is valid. -/
def execFlitReceive (lane : Lane) (flit : Flit) (fecOk : Bool) (s : State) : Out :=
  if flit.slots.length ≠ 15 ∨ flit.link.credit.length ≠ 8 then .fault (.illFormed "flit")
  else
    .next <|
      let l := lane.val
      let p := s.portOf l
      let ix := [tileOf p, slotOf p]
      if !s.hears l ∨ !s.configured p ∨ !s.isC p ∨ !(s.port p).st.formed then s
      else if !(fecOk && flit.crcOk) then
        let due := s.now + gapNs
        let s := s.setLane l fun x => { x with run := 0 }
        (s.bump .tilePortCrcErrs ix).setPort p fun y => { y with
          discarded := true
          gapDue := match y.gapDue with
            | some g => some g
            | none => some due }
      else
        let k := flit.link
        let s := s.linkFields l p k
        let s := if k.ltype = 1 then
            (s.bump .tilePortReplays ix).setPort p fun y => { y with requests := y.requests + 1, resend := y.replay }
          else s
        if (s.port p).replayLimit ≤ (s.port p).requests then s.retrain p 0
        else if k.ltype = 0 ∨ k.ltype = 1 then s.sequenced p flit
        else s

/-- REPLAY_TIMER_EXPIRY (R117): the request is sent again every 2 µs. -/
def execReplayTimerExpiry (port : Lane) (s : State) : Out :=
  .next <|
    let p := port.val
    match (s.port p).gapDue with
    | none => s
    | some due =>
      if (s.port p).st.formed then
        (s.advanceTo due).setPort p fun y => { y with request := true, gapDue := some (due + gapNs) }
      else s

/-! ## E-mode ports -/

/-- Bytes cut into 64-byte pieces; `fuel` bounds their number. -/
def pieces (bs : List Byte) : Nat → List (List Byte)
  | 0 => []
  | fuel + 1 => if bs.isEmpty then [] else bs.take 64 :: pieces (bs.drop 64) fuel

/-- The cells of an ordinary frame (R103, R144). DESIGN CHOICE: EPOCH, DPOD, DEP, SPOD and SEP are 0 (log entry 66). -/
def ordCells (frame : Nat) (bs : List Byte) : List Cell :=
  let ps := pieces bs bs.length
  ps.zipIdx.map fun (b, i) =>
    ⟨mkHdr 0 clsOrd 0 0 0 0 (frame % 2 ^ 21) i 0 b.length (b2n (i + 1 = ps.length)) 0, mkPay b⟩

/-- The cell with EPOCH of the active generation, on E-mode ingress (R107). -/
def State.stamp (s : State) (c : Cell) : Cell :=
  if c.cls = clsSched ∨ c.cls = clsFreq ∨ c.cls = clsFrsp then c.setEpoch s.gen.act else c

/-- One cell of a train at stage 2. -/
def State.arriveE (s : State) (p : Nat) (c : Cell) : State :=
  let ix := [tileOf p, slotOf p]
  let src := CellSrc.eMode p
  let cls := c.cls
  let st := (s.port p).st
  let s := if st.running then s.countRx p c else s
  if !st.running then s
  else if st = .quarantined ∧ cls ≠ clsCtrl then (s.bump .tilePortQuarDrops ix).countDrop p cls
  else if cls = clsCdn ∨ cls = clsOrd then s.classDrop p src cls
  else if cls = clsCtrl then
    let t := Cell.type c
    if typeLink t then s.endAtLink p src c
    else if typeEst t then s.arrive p src c 0 s.stampNow
    else s.classDrop p src cls
  else if c.spod ≠ (s.entry (fibreOf p)).pod then (s.bump .tilePortSpoofDrops ix).countDrop p cls
  else s.judge p src (s.stamp c) 0 s.stampNow

/-- The E-mode port carries traffic now. -/
def State.eLive (s : State) (p : Nat) : Bool :=
  decide (s.boot.phase = .done) && s.configured p && !s.isC p && (s.port p).st.running

/-- A cell train that arrived (R121); `overrun`: it exceeds the intake of its tile (R157). -/
def State.takeTrain (s : State) (p : Nat) (tr : Train) (overrun : Bool) : State :=
  let ix := [tileOf p, slotOf p]
  let cells := tr.cells.take tr.count.toNat
  if !s.eLive p then s
  else if !s.linkUp (engineOf p) then s.bump .tilePortCrcErrs ix
  else if !tr.fcsOk then (s.bump .tilePortCrcErrs ix).bump .tilePortClassDrops ix
  else
    let now := s.now
    let s := s.setPort p fun y => { y with lastValid := now }
    if tr.version ≠ 1 ∨ tr.count = 0 ∨ 18 < tr.count.toNat ∨ tr.cells.length < tr.count.toNat then
      s.bump .tilePortClassDrops ix
    else if overrun ∨ s.fnDown (fidTbl (tileOf p / 16)) then
      cells.foldl (fun s c => (s.countRx p c).countDrop p c.cls) (s.bump .tileIngressOverrun [tileOf p])
    else
      let s := if cells.any fun c => decide (c.cls = clsCtrl ∧ Cell.type c = 0x10) then s.learnPartner p tr.src else s
      cells.foldl (fun s c => s.arriveE p c) s

/-- CELL_TRAIN_RECEIVE (R121, R157). -/
def execCellTrainReceive (port : Lane) (train : Train) (overrun : Bool) (s : State) : Out :=
  .next (s.takeTrain port.val train overrun)

/-- A PTP frame that ends at the link, its domain being Gorti's (R300, R302). -/
def State.ownPtp (s : State) (f : EthFrame) : Bool :=
  decide (f.etherType = 0x88F7) && decide ((f.body.getD 4 0).toNat = s.ptp.config.domain)

/-- The length of a frame that a port takes: the least of IEEE 802.3, and the most of R93. -/
def frameFits (bs : List Byte) : Bool := decide (64 ≤ bs.length ∧ bs.length ≤ 9216)

/-- ETH_FRAME_RECEIVE (R93, R144, R157). A MAC control frame ends at the MAC: it is neither obeyed nor sent on. A
quarantined port takes no frame but discovery and PTP, and sends none on (R2, R38). DESIGN CHOICE: a PTP frame of a foreign
domain counts as dropped there (log entry 66). -/
def execEthFrameReceive (port : Lane) (frame : EthFrame) (overrun : Bool) (s : State) : Out :=
  .next <|
    let p := port.val
    let ix := [tileOf p, slotOf p]
    let bs := ethBytes frame
    if !s.eLive p ∨ !frameFits bs then s
    else if frame.etherType = 0x88B5 then s.takeTrain p (ethTrain frame) overrun
    else if !frame.fcsOk ∨ !s.linkUp (engineOf p) then s.bump .tilePortCrcErrs ix
    else
      let now := s.now
      let s := s.setPort p fun y => { y with lastValid := now }
      let shut := decide ((s.port p).st = .quarantined) && !s.ownPtp frame
      if frame.etherType = 0x8808 ∧ !shut then s else
      let s := (ordCells 0 bs).foldl (fun s c => s.countRx p c) s
      let lost (s : State) : State := (ordCells 0 bs).foldl (fun s c => s.countDrop p c.cls) s
      if overrun ∨ s.fnDown (fidTbl (tileOf p / 16)) then lost (s.bump .tileIngressOverrun [tileOf p])
      else if shut then lost (s.bump .tilePortQuarDrops ix)
      else if s.ownPtp frame then s
      else
        let n := s.frames.next
        let s : State := { s with frames := { s.frames with next := n + 1 } }
        (ordCells n bs).foldl (init := s) fun s c =>
          if s.frames.aborted.contains n then s.countDrop p clsOrd else s.judge p (.eMode p) c n s.stampNow

end Sys2Proof.Machine
end

