-- ==== Sys2Proof/Machine/Admission.lean ====
section
/-! DEFINITION. Stage 4 and the waits of a tile: admission, push-out, spill and read-back (R180 to R197) and the head sweep
(R190, R191, R594). -/

namespace Sys2Proof.Machine

/-- The age limit of a cell has passed (R190). -/
def State.aged (s : State) (q : QCell) : Bool := decide (q.limit ≤ s.now)

/-- A tile is attached to the crossbar (R167). -/
def State.attached (s : State) (t : Nat) : Bool := bit s.xbar.live t

/-- A cell that a tile loses; an ORD cell aborts its frame (R183). -/
def State.loseCell (s : State) (t : Nat) (q : QCell) : State :=
  let s := s.dropCell q
  if q.cls = clsOrd then s.abortFrame t q.frame else s

/-- A cell discarded for age (R192): it is counted, and a landed cell returns its credit. -/
def State.ageCell (s : State) (t : Nat) (q : QCell) : State := ((s.bump .tileAgeDrops [t, q.cls]).countClass t q.cls 3 1).loseCell t q

/-! ## Undertow (R194 to R197) -/

/-- UNDERTOW, by its identifier (R211). -/
def State.undertowGib (s : State) : Nat := s.mem.sizes.getD 0 0

/-- Bridges that can take a spilled cell: initialised and not in reset. -/
def State.bridgesUp (s : State) : List Nat := [0, 1, 2, 3].filter fun b => !s.fnDown (fidBrg b) && (s.brg b).ready

/-- The cells that a tile's share of Undertow holds (R196). -/
def shareCells (gib : Nat) : Nat := gib * 2 ^ 30 / 64 / 80

/-- Cells of a tile in Undertow. -/
def State.spilled (s : State) (t : Nat) : Nat :=
  ((s.undertow.filter fun p => decide (p.1 / 4096 = t)).map fun p => p.2.length).sum

/-- There is room in a tile's share; none on a bridge in reset (R223). -/
def State.shareRoom (s : State) (t : Nat) : Bool :=
  decide (s.spilled t < shareCells s.undertowGib * s.bridgesUp.length / 4)

/-- The bandwidth to Undertow is not used up: one cell takes 5/16 ns (R196). DESIGN CHOICE: it is judged to the nanosecond
(log entry 70). -/
def State.bandRoom (s : State) (t : Nat) : Bool := decide ((s.tile t).spillTill < (s.now + 1) * 16)

/-- The bridge to which the next cell of a tile spills. DESIGN CHOICE: the cells of a tile's share take its bridges in turn (log
entry 73). -/
def State.spillBridge (s : State) (t : Nat) : Nat :=
  let bs := s.bridgesUp
  bs.getD (s.spilled t % max 1 bs.length) (t % 4)

/-- A cell moves to or from Undertow: it takes up the tile's bandwidth, and its bytes cross the link of its bridge (R218). -/
def State.moveSpilled (s : State) (t b : Nat) (up : Bool) : State :=
  let now := s.now
  (s.setTile t fun x => { x with spillTill := max x.spillTill (now * 16) + 5 }).sendBytes b up 1 80

/-- The tile's share and its bandwidth let a cell spill. -/
def State.spillRoom (s : State) (t : Nat) : Bool := s.shareRoom t && s.bandRoom t

/-- SPILL_DIS. -/
def State.spillOff (s : State) : Bool := decide (s.regBits .bufSpill [] 16 16 = 1)

/-! ## Admission (R180) -/

/-- What R180 decides. -/
inductive Stage4 where
  | takeIn
  | spill
  | evict (victim : Nat)
  | refuse
  deriving DecidableEq, Repr

/-- The push-out rank of a class (R185). -/
def rankOf (c : Nat) : Nat := [6, 3, 5, 1, 4, 2, 0, 7].getD c 0

/-- Classes in rising rank. -/
def rankOrder : List Nat := [6, 3, 5, 1, 4, 2, 0, 7]

/-- A cell that may be evicted (R187). -/
def QCell.evictable (q : QCell) : Bool :=
  decide (q.cls ≠ clsSched) && !(decide (q.cls = clsCup) && q.marked) && decide (q.src ≠ .generated) && q.slot.isNone

/-- The queues of a class in a tile, deepest first, virtual output queues before the multicast queue on a tie. -/
def State.victims (s : State) (t c : Nat) : List Nat :=
  sortBy (fun k => 4294967296 - (s.queue k).length) ((s.voqKeys t).filter fun k => decide (qClass k = c))

/-- The queue whose tail cell a cell of class `c` pushes out (R186). DESIGN CHOICE: of a queue with cells in Undertow the tail is its
last cell in the Cellar (log entry 70). -/
def State.victim (s : State) (t c : Nat) : Option Nat :=
  (rankOrder.filter fun v => decide (rankOf v < rankOf c ∧ (s.tile t).reserves.getD v 0 < s.countC t v)).findSome? fun v =>
    (s.victims t v).find? fun k => ((s.queue k).getLast?.map QCell.evictable).getD false

/-- Step 4: the shared pool takes the cell: F ≥ 1 and D < α × F. -/
def State.sharedTakes (s : State) (t k c : Nat) : Bool :=
  let f := s.freeF t
  decide (1 ≤ f) && decide ((s.queue k).length * 64 < 2 ^ s.regBits .bufClass [c] 31 28 * f)

/-- Step 2: the class reserve takes the cell. -/
def State.reserveTakes (s : State) (t c : Nat) : Bool := decide (s.countC t c < (s.tile t).reserves.getD c 0)

/-- A cell judged for a queue, with the count of R196 where Undertow has no room. -/
def State.judgeAdmit (s : State) (t k c : Nat) : Stage4 × State :=
  let late (s : State) : Stage4 × State :=
    if s.sharedTakes t k c then (.takeIn, s)
    else if s.freeF t = 0 then
      match s.victim t c with
      | some v => (.evict v, s)
      | none => (.refuse, s)
    else (.refuse, s)
  if !(s.under k).isEmpty then
    if s.spillOff then (.refuse, s)
    else if s.spillRoom t then (.spill, s)
    else (.refuse, s.bump .tileSpillFull [t])
  else if s.reserveTakes t c then (.takeIn, s)
  else if (s.tile t).spilling ∧ (c = clsFreq ∨ c = clsFrsp ∨ c = clsOrd) ∧ 64 ≤ (s.queue k).length then
    if s.spillRoom t then (.spill, s) else late (s.bump .tileSpillFull [t])
  else late s

/-- The queue of a cell at stage 4 (R152). -/
def queueFor (t : Nat) (q : QCell) : Nat :=
  match (q.outs.map OutTarget.tile).eraseDups with
  | [d] => qKey t (qVoq d q.cls)
  | _ => qKey t (qMcq q.cls)

/-- A cell put at the tail of a queue. -/
def State.enqueue (s : State) (k : Nat) (q : QCell) : State := s.setQueue k (s.queue k ++ [q])

/-- The tail cell of a queue pushed out (R186). -/
def State.pushOut (s : State) (t k : Nat) : State :=
  match (s.queue k).getLast? with
  | none => s
  | some v => ((s.setQueue k (s.queue k).dropLast).bump .tilePushouts [t, v.cls]).countClass t v.cls 2 1 |>.loseCell t v

/-- A cell admitted, spilled or refused; whether it found a place. -/
def State.place (s : State) (t : Nat) (q : QCell) : Bool × State :=
  let k := queueFor t q
  let s := s.spillJudge t
  match s.judgeAdmit t k q.cls with
  | (.takeIn, s) => (true, (((s.enqueue k q).credit q).countClass t q.cls 0 1).spillJudge t)
  | (.evict v, s) => (true, ((((s.pushOut t v).enqueue k q).credit q).countClass t q.cls 0 1).spillJudge t)
  | (.spill, s) =>
    let b := s.spillBridge t
    (true, (((s.moveSpilled t b true).setUnder k (s.under k ++ [{ q with home := b }])).bump .tileSpillWrites [t]).credit q
      |>.countClass t q.cls 4 1)
  | (.refuse, s) => (false, s)

/-- The outputs of a cell that are attached (R167). -/
def State.liveOuts (s : State) (q : QCell) : List OutTarget := q.outs.filter fun o => s.attached o.tile

/-- Two landed cells belong to one (port, class). -/
def QCell.sameLane (q r : QCell) : Bool := decide (q.src.port = r.src.port ∧ q.cls = r.cls)

/-- A cell refused before `q` waits for the same queue: `q` waits behind it (R165, R181). -/
def State.behind (s : State) (t : Nat) (q : QCell) : Bool :=
  match q.src with
  | .eMode _ => false
  | .generated => (s.tile t).held.any fun r => decide (r.cls = q.cls ∧ r.cell.ctx = q.cell.ctx ∧ queueFor t r = queueFor t q)
  | _ => (s.tile t).landed.any fun r => r.sameLane q && decide (queueFor t r = queueFor t q)

/-- A refused cell of a C-mode port stays in the landing, and a generated one is held; an E-mode cell is dropped (R181). -/
def State.refuseCell (s : State) (t : Nat) (q : QCell) : State :=
  match q.src with
  | .eMode _ => ((s.bump .tileAdmDrops [t, q.cls]).countClass t q.cls 1 1).loseCell t q
  | .generated => s.setTile t fun x => { x with held := x.held ++ [q] }
  | _ => s.setTile t fun x => { x with landed := x.landed ++ [q] }

/-- A cell that stands in the landing until it is admitted (R178). -/
def QCell.landed (q : QCell) : Bool :=
  match q.src with
  | .cMode _ => true
  | .gone _ => true
  | _ => false

/-- CELL_ADMISSION (R180, R181, R190): the first cell of a tile that waits for stage 4. DEDUCED: one behind which an earlier cell of
its port and class waits for the same queue counts as refused (log entry 70). -/
def execCellAdmission (tile : Tile) (s : State) : Out :=
  .next <|
    let t := tile.val
    match (s.tile t).looked with
    | [] => s
    | q :: rest =>
      let s := s.setTile t fun x => { x with looked := rest }
      let q := { q with outs := s.liveOuts q }
      if q.cls = clsOrd ∧ s.frames.aborted.contains q.frame then (s.credit q).dropCell q
      else if q.outs.isEmpty then ((((s.bump .tileXbarDestDrops [t]).credit q).dropCell q).handOver q).settle
      else if q.landed && s.aged q then (s.ageCell t q).credit q
      else if s.behind t q then s.refuseCell t q
      else
        match s.place t q with
        | (true, s) => (s.handOver q).settle
        | (false, s) => s.refuseCell t q

/-- Landed cells in the order in which they are judged: by port, then by class, then in arrival order (R181, R182). -/
def landedOrder (ls : List QCell) : List QCell := sortBy (fun q => q.src.port * 8 + q.cls) ls

/-- The oldest landed cell of each (port, class). -/
def landedHeads (ls : List QCell) : List QCell :=
  (landedOrder ls).foldl (fun hs q => if hs.any q.sameLane then hs else hs ++ [q]) []

/-- One landed cell judged again. `stuck` lists the cells refused before it in this turn. -/
def State.rejudge (s : State) (t : Nat) (stuck : List QCell) (q : QCell) : State × List QCell :=
  let out (s : State) : State := s.setTile t fun x => { x with landed := x.landed.erase q }
  let r := { q with outs := s.liveOuts q }
  if s.aged q then (((out s).ageCell t q).credit q, stuck)
  else if q.cls = clsOrd ∧ s.frames.aborted.contains q.frame then (((out s).credit q).dropCell q, stuck)
  else if r.outs.isEmpty then ((((out s).bump .tileXbarDestDrops [t]).credit q).dropCell q, stuck)
  else if stuck.any fun z => z.sameLane q && decide (queueFor t z = queueFor t r) then (s, stuck)
  else
    match s.place t r with
    | (true, s) => (out s, stuck)
    | (false, s) => (s, r :: stuck)

/-- LANDED_CELL_REJUDGE (R181): a cell left the slice, and every landed cell is judged again in order. -/
def execLandedCellRejudge (tile : Tile) (s : State) : Out :=
  .next ((landedOrder (s.tile tile.val).landed).foldl (fun a q => a.1.rejudge tile.val a.2 q) (s, [])).1

/-- The held generated cell that is offered next (R181, R377). -/
def State.nextHeld (s : State) (t : Nat) : Option QCell × State :=
  let held := (s.tile t).held
  match held.find? fun q => (s.cellGroup q).isNone with
  | some q => (some q, s)
  | none =>
    let (g, sharing) := (s.slice t).out.next s.shareWeight (held.filterMap s.cellGroup)
    match g with
    | none => (none, s)
    | some g => (held.find? fun q => decide (s.cellGroup q = some g), s.setSlice t fun v => { v with out := sharing })

/-- GENERATED_CELL_REOFFER (R181). -/
def execGeneratedCellReoffer (tile : Tile) (s : State) : Out :=
  .next <|
    let t := tile.val
    match s.nextHeld t with
    | (none, _) => s
    | (some q, s') =>
      let out (s : State) : State := (s.setTile t fun x => { x with held := x.held.erase q }).restShares t
      let r := { q with outs := s.liveOuts q }
      if s.aged q then (((out s).ageCell t q).handOver q).settle
      else if r.outs.isEmpty then ((((out s).bump .tileXbarDestDrops [t]).dropCell q).handOver q).settle
      else
        match s'.place t r with
        | (true, s') => ((out s').handOver q).settle
        | (false, _) => s

/-! ## Read-back (R195) -/

/-- Up to `n` cells taken from the head of a queue's Undertow part. -/
def State.readBack (s : State) (t k : Nat) : Nat → State
  | 0 => s
  | n + 1 =>
    match s.under k with
    | [] => s
    | q :: rest =>
      let out := (s.moveSpilled t q.home false).setUnder k rest
      if q.lost then State.readBack ((out.bump .utwLost []).loseCell t q) t k n
      else if s.aged q then State.readBack (out.ageCell t q) t k n
      else if q.cls = clsOrd ∧ s.frames.aborted.contains q.frame then State.readBack (out.dropCell q) t k n
      else if s.reserveTakes t q.cls ∨ s.sharedTakes t k q.cls then
        State.readBack (((out.enqueue k q).bump .tileSpillReads [t]).spillJudge t) t k n
      else s

/-- The cells with a byte in a block of a read-back, counted from the first cell. DESIGN CHOICE: the cells read back lie one behind
another from a block's start (log entry 73). -/
def blockCells (block : Nat) : List Nat := rangeFrom (64 * block / 80) ((64 * block + 63) / 80 + 1 - 64 * block / 80)

/-- The links of the bridges that an Undertow read comes over are up (R508). -/
def State.underReady (s : State) : Bool := s.bridgesUp.all fun b => s.linkUp (16 + b)

/-- UNDERTOW_READBACK (R195, R221): it waits while the bandwidth of R196 is taken up, and for its bytes' turn on the bridges'
links (R218). The cells of an uncorrectable block are lost. -/
def execUndertowReadback (tile : Tile) (queue : Fin 520) (met : List BlockErr) (s : State) : Out :=
  .next <|
    let t := tile.val
    let k := qKey t queue.val
    if (s.queue k).length < 64 ∧ !(s.under k).isEmpty ∧ s.underReady then
      let s := s.advanceTo ((s.tile t).spillTill / 16)
      let n := (80 * min 64 (s.under k).length + 63) / 64
      let cells := s.under k
      let home (e : BlockErr) : Nat := ((cells[64 * e.block / 80]?).map QCell.home).getD 0
      let s := s.meet 0 n (fun e => errOn (home e) e) met
      let bad := (lostBlocks n met).flatMap blockCells
      let s := s.setUnder k ((s.under k).mapIdx fun i q => if bad.contains i then { q with lost := true } else q)
      let s := s.readBack t k 64
      s.advanceTo ((s.bridgesUp.map fun b => s.linkDue b false 1 (((s.brg b).down.asked).getD 1 0)).foldl max 0)
    else s

/-! ## The head sweep (R191, R594) -/

/-- A queue visited: its first uncommitted cells go as long as their limits have passed, and those of frames that this aborts
go with them (R183); `fuel` bounds their number. -/
def State.sweepHead (s : State) (t k : Nat) : Nat → State
  | 0 => s
  | fuel + 1 =>
    match (s.queue k).find? fun q => q.slot.isNone with
    | none => s
    | some q => if s.aged q then State.sweepHead (((s.setQueue k ((s.queue k).erase q)).ageCell t q).clearHead k) t k fuel else s

/-- One queue of a tile visited. -/
def State.sweepKey (s : State) (t k : Nat) : State := ((s.clearHead k).sweepHead t k (s.queue k).length).settleKey k

/-- Every queue of a tile visited. -/
def State.sweepQueues (s : State) (t : Nat) : State :=
  ((s.queues.map (·.1)).filter fun k => decide (k / 4096 = t)).foldl (fun s k => s.sweepKey t k) s

/-- The oldest cells of the landing visited. -/
def State.sweepLanding (s : State) (t : Nat) : State :=
  ((landedHeads (s.tile t).landed).filter s.aged).foldl (init := s) fun s q =>
    ((s.setTile t fun x => { x with landed := x.landed.erase q }).ageCell t q).credit q

/-- The held generated cells visited. -/
def State.sweepHeld (s : State) (t : Nat) : State :=
  ((s.tile t).held.filter s.aged).foldl (fun s q => (s.ageCell t q).handOver q)
    (s.setTile t fun x => { x with held := x.held.filter fun q => !s.aged q })

/-- The early cells of the slice visited (R362). -/
def State.sweepEarly (s : State) (t : Nat) : State :=
  (((s.slice t).early.filter s.aged).foldl (fun s q => s.estDrop .estEarlyDrops q)
    (s.setSlice t fun v => { v with early := v.early.filter fun q => !s.aged q })).settle

/-- The cells of frames that wait at stage 3 visited. DESIGN CHOICE: BUF_AGE of ORD bounds that wait too (R595; log entry 69). -/
def State.sweepArrivals (s : State) (t : Nat) : State :=
  ((s.tile t).arrivals.filter fun q => decide (q.cls = clsOrd ∧ s.ageFrom clsOrd q.time ≤ s.now)).foldl (init := s) fun s q =>
    ((s.setTile t fun x => { x with arrivals := x.arrivals.erase q }).ageCell t q).credit q

/-- The cells of a launch whose age has ended while they waited for credit. -/
def State.oldCells (s : State) (l : Launch) : List Cell := l.cells.filter fun c => decide (s.ageFrom c.cls l.due ≤ s.now)

/-- The launches of a tile's C-mode ports whose cells wait for credit visited. DESIGN CHOICE: BUF_AGE of its class from the moment
at which its launch came bounds the wait of such a cell (R595; log entry 40). -/
def State.sweepLaunches (s : State) (t : Nat) : State :=
  (s.ports.filter fun p => decide (p.1 / 32 = t) && !p.2.launching.isEmpty).foldl (init := s) fun s p =>
    let old := p.2.launching.flatMap s.oldCells
    let left := p.2.launching.map fun l => { l with cells := l.cells.filter fun c => !(s.oldCells l).contains c }
    (old.foldl (fun s c => (s.bump .tileAgeDrops [t, c.cls]).countClass t c.cls 3 1) s).setPort p.1 fun y =>
      { y with launching := left.filter fun l => !l.cells.isEmpty }

/-- HEAD_SWEEP (R191, R594, R362). -/
def execHeadSweep (tile : Tile) (s : State) : Out :=
  .next <|
    if s.boot.phase = .reset then s
    else
      let t := tile.val
      let s := ((((s.every .headSweep t 10000).sweepQueues t).sweepLanding t).sweepHeld t).sweepEarly t
      (((s.sweepArrivals t).sweepLaunches t).restShares t).spillJudge t

end Sys2Proof.Machine
end

