-- ==== Sys2Proof/Machine/Ptp.lean ====
section
/-! DEFINITION. The PTP instance: sources, messages, peer delay, the servo and the clock states (R47, R297 to R303), with
PTP_CONFIG (R317). Messages stand as IEEE 1588-2019 lays them out (log entry 68). -/

namespace Sys2Proof.Machine

/-- The time-source ports that the plan names. -/
def State.sources (s : State) : List Nat := (s.plan.map Plan.sources).getD []

/-- A port that runs PTP: matched, or a time source named by the plan (R47, R300). -/
def State.runsPtp (s : State) (p : Nat) : Bool :=
  s.configured p && (s.portUp p || (s.sources.contains p && (s.port p).st.running))

/-- A port that may send PTP messages: none does while it is quarantined (R47). -/
def State.sendsPtp (s : State) (p : Nat) : Bool := s.configured p && s.portUp p

def State.ptpPort (s : State) (p : Nat) : PtpPort := s.ptp.ports.getD p PtpPort.init
def State.setPtpPort (s : State) (p : Nat) (f : PtpPort → PtpPort) : State :=
  { s with ptp := { s.ptp with ports := s.ptp.ports.modD p PtpPort.init f } }

/-- Lexicographic order. -/
def lexLt : List Nat → List Nat → Bool
  | x :: xs, y :: ys => decide (x < y) || (decide (x = y) && lexLt xs ys)
  | _, _ => false

/-- The grandmaster's attributes, in the order of the default comparison: lower is better. -/
def AnnounceData.keys (a : AnnounceData) : List Nat :=
  [a.priority1.toNat, a.clockClass.toNat, a.accuracy.toNat, a.variance.toNat, a.priority2.toNat, a.gmIdentity.toNat]

/-- A received data set: its port, the data and the sender. -/
abbrev Candidate := Nat × AnnounceData × BitVec 80

/-- The default data set comparison: two grandmasters by their attributes; one grandmaster by the steps removed, the
sender's identity and the receiving port. -/
def betterSource (a b : Candidate) : Bool :=
  if a.2.1.gmIdentity = b.2.1.gmIdentity then
    lexLt [a.2.1.stepsRemoved.toNat, a.2.2.toNat, a.1] [b.2.1.stepsRemoved.toNat, b.2.2.toNat, b.1]
  else lexLt (AnnounceData.keys a.2.1) (AnnounceData.keys b.2.1)

/-- The source that the best master comparison selects among the time-source ports that received Announce. -/
def State.bestSource (s : State) : Option (Nat × BitVec 64) :=
  let cands : List Candidate := s.sources.filterMap fun p => (s.ptpPort p).data.map fun a => (p, a)
  (cands.foldl (init := (none : Option Candidate)) fun best c =>
    match best with
    | none => some c
    | some b => if betterSource c b then some c else some b).map fun b => (b.1, b.2.1.gmIdentity)

def State.modPtp (s : State) (f : Ptp → Ptp) : State := { s with ptp := f s.ptp }

/-- What the ports that are no time sources any more have heard of one is forgotten, with their asymmetry (R303). -/
def State.keepSources (s : State) (ps : List Nat) : State :=
  let s := s.modPtp fun t => { t with config := { t.config with asym := t.config.asym.filter fun a => ps.contains a.1 } }
  (s.ptp.ports.map (·.1)).foldl (init := s) fun s p =>
    if ps.contains p then s else s.setPtpPort p fun x => { x with data := none, measured := false, sync := none }

/-- The selection made again (R297, R298). -/
def State.select (s : State) : State :=
  let new := s.bestSource
  let old := s.ptp.selected
  if new = old then s
  else
    let s := if old.isSome then s.holdover 2 else s
    let s : State := { s with ptp := { s.ptp with selected := new, goodRun := 0, badRun := 0 } }
    if new.isSome ∧ (s.time.clock = .unset ∨ s.time.clock = .host) then
      { s with time := { s.time with clock := .tracking } }
    else s

/-- One servo measurement in ns, with the correction and the base rate that the servo asks for (R297). -/
def State.servo (s : State) (m delta rate : Int) : State :=
  let s : State := if s.time.clock = .holdover ∨ s.time.clock = .host then
      { s with time := { s.time with clock := .tracking } } else s
  if s.time.clock ≠ .tracking ∧ s.time.clock ≠ .locked then s
  else
    let good := if m.natAbs ≤ 50 then min 16 (s.ptp.goodRun + 1) else 0
    let bad := if 200 < m.natAbs then min 4 (s.ptp.badRun + 1) else 0
    let clock : ClockState :=
      if s.time.clock = .tracking ∧ good = 16 then .locked
      else if s.time.clock = .locked ∧ bad = 4 then .tracking
      else s.time.clock
    let s : State := { s with
      ptp := { s.ptp with goodRun := if bad = 4 then 0 else good, badRun := bad, lastOffset := max (-32767) (min 32767 m) }
      time := { s.time with clock := clock, base := max (-baseMax) (min baseMax rate) } }
    (s.correct delta).2

/-! ## Messages (R300, R301) -/

/-- The length of a PTP message without TLVs. -/
def ptpLen : PtpKind → Nat
  | .announce => 64
  | .pdelayReq => 54
  | .pdelayResp => 54
  | .pdelayRespFollowUp => 54
  | _ => 44

/-- messageType. -/
def ptpType : PtpKind → Nat
  | .sync => 0
  | .delayReq => 1
  | .pdelayReq => 2
  | .pdelayResp => 3
  | .followUp => 8
  | .pdelayRespFollowUp => 10
  | .announce => 11
  | .management => 13

/-- Peer-delay messages. -/
def ptpPeer (k : PtpKind) : Bool := decide (k = .pdelayReq ∨ k = .pdelayResp ∨ k = .pdelayRespFollowUp)

/-- Gorti's sourcePortIdentity at a port. -/
def portIdentity (p : Nat) : BitVec 80 := Config.clockIdentity ++ Config.ptpPortNumber p

/-- A PTP time in the Timestamp form: 48 bits of seconds and 32 of ns. -/
def stampBytes (ns : Nat) : List Byte := beBytes 6 (ns / 1000000000) ++ beBytes 4 (ns % 1000000000)

/-- A byte that no rule gives. -/
def State.freeByte (s : State) : Nat × State :=
  let (v, s) := s.drawFree
  (v.toNat % 256, s)

/-- The header of a message: `flag` is the twoStepFlag, `corr` the correctionField. -/
def State.ptpHeader (s : State) (p : Nat) (k : PtpKind) (flag : Bool) (corr : BitVec 64) (seq log : Nat) : List Byte × State :=
  let (flags, s) := s.freeByte
  (beBytes 1 (ptpType k) ++ [0x12] ++ beBytes 2 (ptpLen k) ++ beBytes 1 s.ptp.config.domain ++ [0] ++ beBytes 1 (b2n flag * 2) ++
    beBytes 1 flags ++ bvBytes 8 corr ++ beBytes 4 0 ++ bvBytes 10 (portIdentity p) ++ beBytes 2 seq ++ [0] ++ beBytes 1 log, s)

/-- The data set that Gorti announces: the selected grandmaster's while TRACKING or LOCKED, and else its own, whose
clockClass is HOLD_CLASS in HOLDOVER and 248 in UNSET and HOST (R300). Its own accuracy and variance are open. -/
def State.announced (s : State) : AnnounceData × State :=
  let source := (s.ptp.selected.bind fun x => (s.ptpPort x.1).data).map (·.1)
  let own (cls : Nat) : AnnounceData × State :=
    let (v, s) := s.drawFree
    (⟨BitVec.ofNat 8 s.ptp.config.priority1, BitVec.ofNat 8 cls, BitVec.ofNat 8 v.toNat, BitVec.ofNat 16 (v.toNat / 256),
      BitVec.ofNat 8 s.ptp.config.priority2, Config.clockIdentity, 0⟩, s)
  match s.time.clock, source with
  | .tracking, some a => ({ a with stepsRemoved := a.stepsRemoved + 1 }, s)
  | .locked, some a => ({ a with stepsRemoved := a.stepsRemoved + 1 }, s)
  | .holdover, _ => own (s.regBits .timeConfig [] 23 16)
  | _, _ => own 248

/-- The body of an Announce message. -/
def State.announceBody (s : State) : List Byte × State :=
  let (a, s) := s.announced
  let (v, s) := s.drawFree
  (beBytes 10 0 ++ beBytes 2 v.toNat ++ [0] ++ bvBytes 1 a.priority1 ++ bvBytes 1 a.clockClass ++ bvBytes 1 a.accuracy ++
    bvBytes 2 a.variance ++ bvBytes 1 a.priority2 ++ bvBytes 8 a.gmIdentity ++ bvBytes 2 a.stepsRemoved ++
    beBytes 1 (v.toNat / 65536), s)

/-- delayAsymmetry of a port, in units of 2^-16 ns (R303): 0 where the port is no time source. -/
def State.asymmetry (s : State) (p : Nat) : Int := if s.sources.contains p then signed (s.ptp.config.asym.getD p 0) else 0

/-- logMessageInterval as a byte. -/
def logByte (v : Int) : Nat := (BitVec.ofInt 8 v).toNat

/-- A message as it joins the port's CTRL queue: in one CTRL cell of TYPE 0x20 (R301), which an E-mode port sends as a frame.
Time-stamps that its leaving fixes are still 0. An answer takes the request's sequenceId, sender and correctionField. -/
def State.sendPtp (s : State) (p : Nat) (k : PtpKind) (seq : BitVec 16) (asker : BitVec 80) (corr : BitVec 64) : State :=
  let x := s.ptpPort p
  let c := s.ptp.config
  let one := c.oneStep
  let (head, s) := match k with
    | .sync => s.ptpHeader p k (!one) 0 x.syncSeq (logByte c.logSync)
    | .followUp => s.ptpHeader p k false 0 x.syncSeq (logByte c.logSync)
    | .announce => s.ptpHeader p k false 0 x.announceSeq (logByte c.logAnnounce)
    | .pdelayReq => s.ptpHeader p k false (BitVec.ofInt 64 (-s.asymmetry p)) x.requestSeq 0x7F
    | .pdelayResp => s.ptpHeader p k (!one) (if one then corr else 0) seq.toNat 0x7F
    | _ => s.ptpHeader p k false corr seq.toNat 0x7F
  let (body, s) := match k with
    | .announce => s.announceBody
    | .pdelayResp => ((if one then beBytes 10 0 else stampBytes x.askedAt) ++ bvBytes 10 asker, s)
    | .pdelayRespFollowUp => (beBytes 10 0 ++ bvBytes 10 asker, s)
    | .pdelayReq => (beBytes 20 0, s)
    | _ => (beBytes 10 0, s)
  s.queueCtrl p (linkCell 0x20 (ptpLen k) (mkPay (head ++ body)))

/-- A PTP message in a CTRL cell of the link. -/
def isPtpCell (c : Cell) : Bool := decide (c.cls = clsCtrl ∧ c.aux / 2 ^ 24 = 0x20)

/-- The cell of a message with the bytes from an offset replaced. -/
def patchCell (c : Cell) (off : Nat) (new : List Byte) : Cell :=
  { c with pay := mkPay (c.payBytes 0 off ++ new ++ c.payBytes (off + new.length) (64 - off - new.length)) }

/-- A message leaves (R303): it takes its time-stamp, and the port keeps when it left. -/
def State.leavePtp (s : State) (p : Nat) (c : Cell) : Cell × State :=
  let now := s.ptpNs
  let x := s.ptpPort p
  let kind := c.payNat 0 1 % 16
  let two := bit (c.payNat 6 1) 1
  if kind = ptpType .sync then
    (if two then c else patchCell c 34 (stampBytes now), s.setPtpPort p fun x => { x with syncAt := now })
  else if kind = ptpType .followUp then (patchCell c 34 (stampBytes x.syncAt), s)
  else if kind = ptpType .pdelayReq then (c, s.setPtpPort p fun x => { x with requestAt := now })
  else if kind = ptpType .pdelayResp then
    let stay := BitVec.ofNat 64 (c.payNat 8 8 + (now - x.askedAt) * 65536)
    (if two then c else patchCell c 8 (bvBytes 8 stay), s.setPtpPort p fun x => { x with answerAt := now })
  else if kind = ptpType .pdelayRespFollowUp then (patchCell c 34 (stampBytes x.answerAt), s)
  else (c, s)

/-- A message as an Ethernet frame of an E-mode port, with the padding of IEEE 802.3 (R301). -/
def ptpFrame (p : Nat) (c : Cell) : List Byte :=
  let n := c.aux % 256
  let peer := [2, 3, 10].contains (c.payNat 0 1 % 16)
  withFcs (beBytes 6 (if peer then 0x0180C200000E else 0x011B19000000) ++ beBytes 6 (portMac p) ++ [0x88, 0xF7] ++
    padTo (max 46 n) (c.payBytes 0 n))

/-! ## What arrives -/

/-- A time-stamp of a message, in ns. -/
def PtpMsg.stamp (m : PtpMsg) : Nat := m.sec.toNat * 1000000000 + m.ns.toNat

/-- The measurement of a Sync that left at `t1` and arrived at `t2`, in ns (R300, R303): none until the link delay is known. -/
def State.offsetOf (s : State) (p t1 t2 : Nat) (corr : Int) : Option Int :=
  (s.ptpPort p).delay.map fun d => (((t2 : Int) - t1) * 65536 - d - corr - s.asymmetry p) / 65536

/-- A measurement of a time-source port reaches the servo, where the port is selected. -/
def State.measure (s : State) (p t1 t2 : Nat) (corr : Int) (m : PtpMsg) : State :=
  match s.offsetOf p t1 t2 corr with
  | none => s
  | some o =>
    let s := s.setPtpPort p fun x => { x with measured := true }
    if (s.ptp.selected.map (·.1)) = some p then s.servo o m.servoDelta m.servoRate else s

/-- The mean link delay from one exchange: the request left at `t1`, its answer arrived at `t4`, and `held` passed at the peer. -/
def State.setDelay (s : State) (p t1 t4 : Nat) (held : Int) : State :=
  s.setPtpPort p fun x => { x with delay := some ((((t4 : Int) - t1) * 65536 - held) / 2), answer := none }

/-- A message that comes on a port is taken: one of its receive lanes stands behind a VERIFIED ring (R445). -/
def State.hearsPort (s : State) (p : Nat) : Bool := (portLanes p (s.widthAt p)).any s.hears

/-- PTP_MESSAGE_RECEIVE (R300, R303): its ingress time-stamp is the PTP time now. -/
def execPtpMessageReceive (port : Lane) (msg : PtpMsg) (s : State) : Out :=
  .next <|
    let p := port.val
    if s.boot.phase ≠ .done ∨ s.fnDown fidTime ∨ !s.hearsPort p ∨ !s.runsPtp p ∨ msg.domain.toNat ≠ s.ptp.config.domain then s
    else
      let now := s.now
      let at_ := s.ptpNs
      let x := s.ptpPort p
      let source := s.sources.contains p
      let corr := signed msg.correction
      let mine := decide (msg.requester = portIdentity p ∧ msg.seq.toNat = x.requestSeq)
      match msg.kind with
      | .delayReq => s.bump .tilePortClassDrops [tileOf p, slotOf p]
      | .management => s
      | .pdelayReq =>
        if !s.sendsPtp p then s
        else
          let s := s.setPtpPort p fun x => { x with askedAt := at_ }
          let s := s.sendPtp p .pdelayResp msg.seq msg.sender msg.correction
          if s.ptp.config.oneStep then s else s.sendPtp p .pdelayRespFollowUp msg.seq msg.sender msg.correction
      | .pdelayResp =>
        if !mine then s
        else if msg.twoStep then
          s.setPtpPort p fun x => { x with answer := some (PtpMsg.stamp msg, at_, corr + s.asymmetry p) }
        else s.setDelay p x.requestAt at_ (corr + s.asymmetry p)
      | .pdelayRespFollowUp =>
        match x.answer with
        | some (t2, t4, c) =>
          if mine then s.setDelay p x.requestAt t4 (((PtpMsg.stamp msg : Int) - t2) * 65536 + c + corr) else s
        | none => s
      | .announce =>
        if source then
          (s.setPtpPort p fun x => { x with data := some (msg.announce, msg.sender), lastAnnounce := now }).select
        else s
      | .sync =>
        if !source then s
        else
          let s := s.setPtpPort p fun x => { x with
            lastSync := now, sync := if msg.twoStep then some (msg.seq, at_, corr) else none }
          if msg.twoStep then s else s.measure p (PtpMsg.stamp msg) at_ corr msg
      | .followUp =>
        match x.sync with
        | some (q, t2, c) =>
          if source ∧ q = msg.seq then
            (s.setPtpPort p fun x => { x with sync := none }).measure p (PtpMsg.stamp msg) t2 (c + corr) msg
          else s
        | none => s

/-! ## What is sent, and when -/

/-- The kinds that a port sends of its own: a MASTER Sync, Follow_Up and Announce, and every port that runs PTP Pdelay_Req. -/
def State.mayPtp (s : State) (p : Nat) (k : PtpKind) : Bool :=
  let master := decide (k = .sync ∨ k = .announce) || (decide (k = .followUp) && !s.ptp.config.oneStep)
  s.sendsPtp p && (decide (k = .pdelayReq) || (master && !s.sources.contains p))

/-- 2^log s, in ns, for log from -7. -/
def intervalNs (log : Int) : Nat := 7812500 * 2 ^ (log + 7).toNat

/-- A message falls due at its interval (R317), with a new sequenceId; a Follow_Up follows its Sync. -/
def State.ptpDue (s : State) (p : Nat) : PtpKind → State
  | .sync => (s.every .ptpSync p (intervalNs s.ptp.config.logSync)).setPtpPort p fun x =>
      { x with syncSeq := (x.syncSeq + 1) % 65536 }
  | .announce => (s.every .ptpAnnounce p (intervalNs s.ptp.config.logAnnounce)).setPtpPort p fun x =>
      { x with announceSeq := (x.announceSeq + 1) % 65536 }
  | .pdelayReq => (s.every .ptpRequest p (intervalNs s.ptp.config.logPdelay)).setPtpPort p fun x =>
      { x with requestSeq := (x.requestSeq + 1) % 65536, answer := none }
  | _ => s

/-- PTP_MESSAGE_SEND (R300, R301): the answers of a peer-delay exchange go when their request arrives. -/
def execPtpMessageSend (port : Lane) (kind : PtpKind) (s : State) : Out :=
  .next <|
    if s.boot.phase = .done ∧ !s.fnDown fidTime ∧ s.mayPtp port.val kind then
      (s.ptpDue port.val kind).sendPtp port.val kind 0 0 0
    else s

/-- Three intervals of 2^log s, in ns (R298, R317). -/
def threeIntervals (log : Int) : Nat := 3 * intervalNs log

/-- When the wait for Announce, or for Sync, from a port ends (R298). -/
def State.sourceDue (s : State) (p : Nat) (sync : Bool) : Nat :=
  if sync then (s.ptpPort p).lastSync + threeIntervals s.ptp.config.logSync
  else (s.ptpPort p).lastAnnounce + threeIntervals s.ptp.config.logAnnounce

/-- ANNOUNCE_TIMEOUT (R298): 3 intervals without Announce, or without Sync, from the selected source. -/
def execAnnounceTimeout (sync : Bool) (s : State) : Out :=
  .next <|
    match s.ptp.selected with
    | none => s
    | some (p, _) =>
      let s := (s.advanceTo (s.sourceDue p sync)).holdover (b2n sync)
      let s := s.setPtpPort p fun x => { x with data := none, measured := false }
      ({ s with ptp := { s.ptp with selected := none } } : State).select

/-- A log interval of PTP_CONFIG (R317). -/
def logOk (b : Byte) (off : Nat) : Bool × Nat := (decide (-7 ≤ signed b ∧ signed b ≤ 4), off)

/-- PTP_CONFIG (R317): one asymmetry for each time-source port named by the plan. -/
def execPtpConfig (iss : Issuer) (domain flags logSync logAnnounce logPdelay prio1 prio2 rsv : Byte)
    (asym : List (BitVec 16 × BitVec 48)) (s : State) : Out :=
  .next <| hostCmd (.ptpConfig iss domain flags logSync logAnnounce logPdelay prio1 prio2 rsv asym) (fun _ s =>
    let lanes := asym.map fun a => a.1.toNat
    let named := lanes.zipIdx.map fun (l, i) =>
      (s.sources.contains l && !(lanes.take i).contains l && s.sources.length = lanes.length, 8 + 8 * i)
    guardParams ([(decide (flags.toNat < 4), 1), logOk logSync 2, logOk logAnnounce 3, logOk logPdelay 4, rsvOk rsv 7,
        (decide (s.sources.isEmpty ∨ !lanes.isEmpty), 8)] ++ named) s <|
      guardUp [fidTime] s
        (ok [], { s with ptp := { s.ptp with config :=
          { domain := domain.toNat, oneStep := flags.getLsbD 0, tcEn := flags.getLsbD 1, logSync := signed logSync,
            logAnnounce := signed logAnnounce, logPdelay := signed logPdelay, priority1 := prio1.toNat,
            priority2 := prio2.toNat, asym := asym.foldl (fun m a => m.setD a.1.toNat 0 a.2) [] } } })) s

end Sys2Proof.Machine
end

