-- ==== Sys2Proof/Machine/LinkCmds.lean ====
section
/-! DEFINITION. The commands of class 0x04: PLAN_LOAD (R31 to R36, R475) and the port commands (R134, R135). -/

namespace Sys2Proof.Machine

/-! ## The plan object (R33) -/

/-- A number in an object. -/
def Obj.nat (o : Obj) (off n : Nat) : Nat := beNat (o.read off n)

/-- Every byte of a span of an object is 0. -/
def Obj.zero (o : Obj) (off n : Nat) : Bool := decide (o.nat off n = 0)

def planSources (o : Obj) : Nat := o.nat 16 1
def planRoster (o : Obj) : Nat := o.nat 18 2
def planCircuits (o : Obj) : Nat := o.nat 20 2
/-- Where the time-source records, the roster and the circuit table begin. -/
def planSourceAt : Nat := 10368
def planRosterAt (o : Obj) : Nat := planSourceAt + 8 * planSources o
def planCircuitAt (o : Obj) : Nat := planRosterAt o + 32 * planRoster o

/-- The entry of a fibre. -/
def planEntry (o : Obj) (f : Nat) : WireEntry :=
  let a := 128 + 40 * f
  if o.nat a 1 / 64 = 0 then .unused
  else ⟨o.nat a 1 / 64, o.nat (a + 1) 2 % 512, BitVec.ofNat 256 (o.nat (a + 8) 32), o.nat (a + 4) 2, o.nat (a + 3) 1⟩

/-- A circuit-table entry; an empty one keeps nothing. -/
def planCircuit (o : Obj) (i : Nat) : CircuitEntry :=
  let a := planCircuitAt o + 4 * i
  if o.nat (a + 2) 1 = 0 then ⟨0, 0, 0⟩ else ⟨o.nat (a + 2) 1, o.nat a 1, o.nat (a + 1) 1⟩

/-- The plan that an object holds. -/
def planOf (o : Obj) : Plan :=
  { spine := o.nat 5 1, plane := BitVec.ofNat 64 (o.nat 8 8), digest := BitVec.ofNat 384 (o.nat 24 48),
    wiring := (List.range 256).filterMap fun f =>
      let e := planEntry o f
      if e = .unused then none else some (f, e),
    sources := (List.range (planSources o)).map fun i => o.nat (planSourceAt + 8 * i) 2,
    roster := (List.range (planRoster o)).map fun i => BitVec.ofNat 256 (o.nat (planRosterAt o + 32 * i) 32),
    circuits := (List.range (planCircuits o)).map (planCircuit o) }

/-- The object is formed as R33 gives (R32, the faults with detail 0xFFFF). -/
def planFormed (o : Obj) : Bool :=
  decide (128 ≤ o.length) && decide (o.nat 0 4 = 0x4D504C4E) && decide (o.nat 4 1 = 1) &&
  decide (planSources o ≤ 16 ∧ planRoster o ≤ 128 ∧ planCircuits o ≤ 4096) &&
  decide (o.length = planCircuitAt o + 4 * planCircuits o) &&
  o.zero 17 1 && o.zero 22 2 && o.zero 72 56 &&
  ((List.range 256).all fun f =>
    let a := 128 + 40 * f
    decide (o.nat a 1 % 64 = 0) && decide (o.nat (a + 1) 2 / 512 = 0) && o.zero (a + 6) 2) &&
  ((List.range (planSources o)).all fun i =>
    o.zero (planSourceAt + 8 * i + 2) 6 && decide (o.nat (planSourceAt + 8 * i) 2 < 2048)) &&
  ((List.range (planCircuits o)).all fun i => o.zero (planCircuitAt o + 4 * i + 3) 1) &&
  decide (BitVec.ofNat 384 (o.nat 24 48) =
    Config.sha384 (o.read 0 24 ++ List.replicate 48 0 ++ o.read 72 (o.length - 72))) &&
  decide (o.nat 6 2 = 0x2048) && decide (o.nat 5 1 < 128)

/-- MASK covers each port of a fibre whole or not at all, where the fibre is E-mode (R475). -/
def maskWhole (layout mask : Nat) : Bool :=
  layoutC layout || (List.range (8 / layoutWidth layout)).all fun i =>
    let g := portMask (i * layoutWidth layout) (layoutWidth layout)
    decide (mask &&& g = 0 ∨ mask &&& g = g)

/-- Circuit-table entries that active tide tables refer to. -/
def State.circuitsUsed (s : State) : List Nat :=
  s.tide.active.flatMap fun a => (a.2.windows.filter (·.causeway)).map Window.entry

/-- The fibres with a fault of R32 or R475. -/
def State.planFaults (s : State) (p : Plan) : List Nat :=
  let entry (f : Nat) : WireEntry := p.wiring.getD f .unused
  let fibres := p.wiring.filter fun (f, e) =>
    decide (2 ≤ e.state) ||
    (decide (e.state = 1) && (p.wiring.any (fun d => decide (d.1 < f ∧ d.2.state = 1 ∧ d.2.pod = e.pod)) ||
      p.roster.contains e.partner || !layoutLegal e.layout))
  let sources := p.sources.zipIdx.filter fun (l, i) =>
    let e := entry (fibreOf l)
    decide (e.state ≠ 1) || decide (l % layoutWidth e.layout ≠ 0) || (p.sources.take i).contains l
  let circuits := p.circuits.filter fun c => decide (c.mask ≠ 0) &&
    (decide (c.a / 16 ≠ c.b / 16) || decide (c.a = c.b) || decide ((entry c.a).state ≠ 1) ||
      decide ((entry c.b).state ≠ 1) || !maskWhole (entry c.a).layout c.mask || !maskWhole (entry c.b).layout c.mask)
  let changed := s.circuitsUsed.filter fun i => decide (p.circuits.getD i ⟨0, 0, 0⟩ ≠ s.circuit i)
  fibres.map (·.1) ++ (sources.map fun x => fibreOf x.1) ++ circuits.map CircuitEntry.a ++
    changed.map fun i => (s.circuit i).a

/-- The fault that refuses a plan, as DETAIL. -/
def State.planRefusal (s : State) (o : Obj) : Option Nat :=
  if !planFormed o then some 0xFFFF
  else
    match s.planFaults (planOf o) with
    | [] => none
    | f :: fs => some (fs.foldl min f)

/-- The entry of a fibre has changed (R34). -/
def entryChanged (old new : WireEntry) : Bool := decide (old.state ≠ new.state) || decide (new.state = 1 ∧ old ≠ new)

/-- The LAYOUT that governs a fibre under an entry. -/
def State.layoutUnder (s : State) (f : Nat) (e : WireEntry) : Option Nat :=
  if e.state = 1 then some e.layout else (s.fibre f).layout

/-- A plan replaces the one in force (R36). -/
def State.adoptPlan (s : State) (p : Plan) : State :=
  let new (f : Nat) : WireEntry := p.wiring.getD f .unused
  let changed := (List.range 256).filter fun f => entryChanged (s.entry f) (new f)
  let moved := changed.filter fun f => decide (s.layoutUnder f (new f) ≠ s.layout f)
  let s := moved.foldl State.dropFibre s
  let s : State := { s with plan := some p }
  let s := changed.foldl (init := s) fun s f =>
    if (s.fibre f).found then
      let s := s.setFibre f fun x => { x with comparing := true }
      (s.portsOf f).foldl State.settlePort s
    else s.settleFibre f
  (s.keepSources p.sources).select

/-- PLAN_LOAD (R34). DESIGN CHOICE: it may reply PENDING (R34, R63); here its final reply comes at once (log entry 65). -/
def execPlanLoad (iss : Issuer) (handle rsv : BitVec 16) (met : List BlockErr) (s : State) : Out :=
  .next <| hostCmd (.planLoad iss handle rsv met) (fun i s =>
    withObject i handle 0 1 (fun _ => true) [] [rsvOk rsv 2] [fidCmd s.boot.holder] s fun o =>
      consuming handle o met s fun s =>
        match s.planRefusal o with
        | some d => (.done stRefusedPlan d [], s)
        | none =>
          let p := planOf o
          let n := ((List.range 256).filter fun f => entryChanged (s.entry f) (p.wiring.getD f .unused)).length
          (ok (beBytes 2 n ++ [0, 0] ++ bvBytes 48 p.digest), s.adoptPlan p)) s

/-! ## Port commands -/

/-- The first lane of a configured port, as a parameter. -/
def State.laneParam (s : State) (l : BitVec 16) : Bool × Nat := (s.configured l.toNat, 0)

/-- TILE_PORT_STATUS (R142). -/
def State.portStatus (s : State) (p : Nat) : Nat :=
  if !s.configured p then 0
  else
    let x := s.port p
    let l := (s.layout (fibreOf p)).getD 0
    x.st.code * 2 ^ 28 + (s.fibre (fibreOf p)).cls.code * 2 ^ 25 + l / 128 * 2 ^ 24 + l / 32 % 4 * 2 ^ 22 + x.tx * 256 + x.rx

/-- PORT_CONFIG (R97, R135). -/
def execPortConfig (iss : Issuer) (fibre : BitVec 16) (layout rsv : Byte) (s : State) : Out :=
  .next <| hostCmd (.portConfig iss fibre layout rsv) (fun _ s =>
    let f := fibre.toNat
    guardParams [(decide (f < 256), 0), (layoutLegal layout.toNat, 2), rsvOk rsv 3] s <|
      guardUp [fidTile (f / 4)] s <|
        if (s.entry f).state = 1 then (.done stRefusedPlan f [], s)
        else if (s.fibre f).layout = some layout.toNat then (ok [], s)
        else
          let s := s.dropFibre f
          (ok [], (s.setFibre f fun x => { x with layout := some layout.toNat }).settleFibre f)) s

/-- PORT_STATUS (R134). -/
def execPortStatus (iss : Issuer) (lane rsv : BitVec 16) (s : State) : Out :=
  .next <| hostCmd (.portStatus iss lane rsv) (fun _ s =>
    guardParams [s.laneParam lane, rsvOk rsv 2] s <|
      guardUp [fidTile (tileOf lane.toNat)] s <|
        let d := (s.fibre (fibreOf lane.toNat)).disc
        (ok (beBytes 4 (s.portStatus lane.toNat) ++ bvBytes 32 ((d.map Discover.id).getD 0) ++
          beBytes 2 ((d.map Discover.port).getD 0) ++ bvBytes 4 ((d.map Discover.incarnation).getD 0) ++
          beBytes 1 ((d.map Discover.lanes).getD 0) ++ [0]), s)) s

/-- A port disabled: it leaves the states that carry cells (R131). -/
def State.disablePort (s : State) (p : Nat) : State := s.dropPort p .disabled false

/-- PORT_ENABLE (R135). -/
def execPortEnable (iss : Issuer) (lane : BitVec 16) (enable rsv : Byte) (s : State) : Out :=
  .next <| hostCmd (.portEnable iss lane enable rsv) (fun _ s =>
    let p := lane.toNat
    guardParams [s.laneParam lane, (decide (enable.toNat ≤ 1), 2), rsvOk rsv 3] s <|
      guardUp [fidTile (tileOf p)] s <|
        let off := decide ((s.port p).st = .disabled)
        if enable = 0 then (ok [], if off then s else s.disablePort p)
        else if off then
          (ok [], (s.setPort p fun y => { PortSt.init with frameNo := y.frameNo }).settlePort p)
        else (ok [], s)) s

/-- LINK_RETRAIN (R135). DESIGN CHOICE: on a port neither UP nor QUARANTINED it answers OK and changes nothing (log entry 66). -/
def execLinkRetrain (iss : Issuer) (lane rsv : BitVec 16) (s : State) : Out :=
  .next <| hostCmd (.linkRetrain iss lane rsv) (fun _ s =>
    let p := lane.toNat
    guardParams [s.laneParam lane, rsvOk rsv 2] s <|
      guardUp [fidTile (tileOf p)] s
        (ok [], if (s.port p).st.running then s.dropPort p .training false else s)) s

/-- A record of DISCOVERY_READ. -/
def State.discoveryRecord (s : State) (f : Nat) : List Byte :=
  beBytes 1 (s.fibre f).cls.code ++ [0] ++ bvBytes 64 (((s.fibre f).disc.map Discover.raw).getD 0)

/-- DISCOVERY_READ (R134). -/
def execDiscoveryRead (iss : Issuer) (fibre count : BitVec 16) (flags : Byte) (rsv : BitVec 24) (s : State) : Out :=
  .next <| hostCmd (.discoveryRead iss fibre count flags rsv) (fun i s =>
    let f := fibre.toNat
    let n := count.toNat
    let obj := flags.getLsbD 0
    guardParams [(decide (f < 256), 0),
        (decide (1 ≤ n ∧ n ≤ 256 ∧ f + n ≤ 256) && (obj || decide (n ≤ 135)), 2), (decide (flags.toNat < 2), 4),
        rsvOk rsv 5] s <|
      let bs := (rangeFrom f n).flatMap s.discoveryRecord
      if obj then answerObject (s.slot i).number bs s else (ok bs, s)) s

end Sys2Proof.Machine
end

