-- ==== Sys2Proof/Machine/EstCmds.lean ====
section
/-! DEFINITION. The commands of Estuary and Breakwater (R347 to R351, R379, R380, R394 to R396, R405 to R408, R417 to
R419, R436). -/

namespace Sys2Proof.Machine

/-- A group that commands can name. -/
def State.groupOf (s : State) (n : Nat) : Option Group := (s.est.groups.find n).filter fun g => g.destroying.isNone

def overlaps (a n b m : Nat) : Bool := decide (a < b + m ∧ b < a + n)

/-- Ranges in use: base, count and whether the group is being destroyed. -/
def State.ranges (s : State) : List (Nat × Nat × Bool) :=
  s.est.groups.map (fun g => (g.2.base, g.2.count, g.2.destroying.isSome)) ++
  s.bwk.groups.map (fun g => (g.2.base, g.2.count, g.2.destroying.isSome))

/-- A range is legal and free for a new group (R349, R417). -/
def State.rangeOk (s : State) (base count least : Nat) : Bool :=
  decide (least ≤ count ∧ base + count ≤ 2097152) &&
  s.ranges.all (fun r => r.2.2 || !overlaps base count r.1 r.2.1) &&
  s.tc.streams.all fun e => !decide (base ≤ e.1 ∧ e.1 < base + count)

/-- A range overlaps a group that is being destroyed (R349). -/
def State.rangeBusy (s : State) (base count : Nat) : Bool := s.ranges.any fun r => r.2.2 && overlaps base count r.1 r.2.1

/-- Member records checked from an offset: reserved bits 0, and no ADDR twice (R348, R349). -/
def recordChecks (off : Nat) : List Word → List Nat → List (Bool × Nat)
  | [], _ => []
  | r :: rs, seen =>
    (decide (r.toNat / 2 ^ 20 % 256 = 0) && !seen.contains (recAddr r.toNat), off) ::
      recordChecks (off + 4) rs (recAddr r.toNat :: seen)

/-- A record as it is kept at creation: EXCLUDED clear. -/
def freshRecord (r : Word) : Word := r &&& 0xEFFFFFFF

/-- Member records in use. -/
def State.memberRecords (s : State) : Nat := (s.est.groups.map fun g => g.2.m).sum

/-- GROUP_CREATE (R347 to R349). A weight of 0 gives the weight of a new group, 16. -/
def execGroupCreate (iss : Issuer) (group : BitVec 16) (weight rsv : Byte) (base count : BitVec 32)
    (m rsv2 : BitVec 16) (members : List Word) (s : State) : Out :=
  .next <| hostCmd (.groupCreate iss group weight rsv base count m rsv2 members) (fun _ s =>
    guardParams ([(decide (group.toNat < 8192) && (s.est.groups.find group.toNat).isNone, 0), rsvOk rsv 3,
        (s.rangeOk base.toNat count.toNat 1, 4), (decide (1 ≤ m.toNat ∧ m.toNat ≤ 2048), 12), rsvOk rsv2 14] ++
        recordChecks 16 members []) s <|
      if s.rangeBusy base.toNat count.toNat then (.done stBusy 2 [], s)
      else if 1048576 < s.memberRecords + m.toNat then (.done stNoResource 1 [], s)
      else
        let g : Group :=
          { weight := if weight = 0 then 16 else weight.toNat, base := base.toNat, count := count.toNat, m := m.toNat,
            records := members.map freshRecord, destroying := none, recorded := 0, hist := [], lastCount := [],
            lateSum := [] }
        let sets := s.tel.sets.filter fun e => decide (e.1 / (64 * 2 ^ 22) ≠ 5 ∨ e.1 / 64 % 2 ^ 22 ≠ group.toNat)
        (ok [], { s with
          est := { s.est with groups := s.est.groups.put group.toNat g }
          tel := { s.tel with sets := sets } })) s

/-- The live contexts of a range. -/
def State.liveIn (s : State) (base count : Nat) : List Nat :=
  (s.est.ctxs.filter fun c => c.2.st.live && decide (base ≤ c.1 ∧ c.1 < base + count)).map (·.1)

/-- GROUP_DESTROY (R351). -/
def execGroupDestroy (iss : Issuer) (group rsv : BitVec 16) (s : State) : Out :=
  .next (hostCmd (.groupDestroy iss group rsv) (fun _ s =>
    guardParams [((s.groupOf group.toNat).isSome, 0), rsvOk rsv 2] s <|
      match s.groupOf group.toNat with
      | none => (badParam 0, s)
      | some g =>
        let xs := s.liveIn g.base g.count
        let s := xs.foldl (fun s x => s.endCtx x .aborted 5 0) s
        let triggers := s.est.triggers.filter fun e => !decide (g.base ≤ e.2.ctx ∧ e.2.ctx < g.base + g.count)
        let s : State := { s with est := { s.est with
          triggers := triggers, groups := s.est.groups.upd group.toNat fun g => { g with destroying := some xs.length } } }
        (.pend [] (.groupDestroy group.toNat), s)) s).judgeDestroys

/-- Contexts of a range that are not FREE. -/
def State.heldIn (s : State) (base count : Nat) : Nat :=
  (s.est.ctxs.filter fun c => decide (c.2.st ≠ .free ∧ base ≤ c.1 ∧ c.1 < base + count)).length

/-- GROUP_QUERY (R380). -/
def execGroupQuery (iss : Issuer) (group first count rsv : BitVec 16) (s : State) : Out :=
  .next <| hostCmd (.groupQuery iss group first count rsv) (fun _ s =>
    let g? := s.groupOf group.toNat
    let m := (g?.map (·.m)).getD 0
    guardParams [(g?.isSome, 0), (decide (first.toNat < m), 2),
        (decide (1 ≤ count.toNat ∧ count.toNat ≤ 2048 ∧ first.toNat + count.toNat ≤ m), 4), rsvOk rsv 6] s <|
      match g? with
      | none => (badParam 0, s)
      | some g =>
        (ok (beBytes 1 g.weight ++ [0] ++ beBytes 2 g.m ++ beBytes 4 g.base ++ beBytes 4 g.count ++
          beBytes 4 (s.heldIn g.base g.count) ++
          ((g.records.drop first.toNat).take count.toNat).flatMap (bvBytes 4)), s)) s

/-- GROUP_WEIGHT (R377, R380). -/
def execGroupWeight (iss : Issuer) (group : BitVec 16) (weight rsv : Byte) (s : State) : Out :=
  .next <| hostCmd (.groupWeight iss group weight rsv) (fun _ s =>
    guardParams [((s.groupOf group.toNat).isSome, 0), (decide (weight ≠ 0), 2), rsvOk rsv 3] s
      (ok [], { s with est := { s.est with
        groups := s.est.groups.upd group.toNat fun g => { g with weight := weight.toNat } } })) s

/-! ## The Ebb list (R379) -/

/-- The member with the greatest LATE_SUM; the lowest index on a tie. -/
def topLate : AMap (BitVec 64) → Option (Nat × BitVec 64)
  | [] => none
  | (m, v) :: rest =>
    match topLate rest with
    | none => some (m, v)
    | some (n, w) => if v.toNat < w.toNat then some (n, w) else some (m, v)

/-- The Ebb list: at most `n` members. -/
def ebbList (sums : AMap (BitVec 64)) : Nat → List (Nat × BitVec 64)
  | 0 => []
  | n + 1 =>
    match topLate sums with
    | none => []
    | some (m, v) => (m, v) :: ebbList (sums.del m) n

/-- EBB_READ (R379, R380). -/
def execEbbRead (iss : Issuer) (group : BitVec 16) (flags rsv : Byte) (s : State) : Out :=
  .next <| hostCmd (.ebbRead iss group flags rsv) (fun _ s =>
    guardParams [((s.groupOf group.toNat).isSome, 0), (decide (flags.toNat ≤ 1), 2), rsvOk rsv 3] s <|
      match s.groupOf group.toNat with
      | none => (badParam 0, s)
      | some g =>
        let rows := (ebbList g.lateSum 8).map fun (m, v) =>
          beBytes 2 m ++ [0, 0] ++ bvBytes 4 (g.lastCount.getD m 0) ++ bvBytes 8 v
        let gap := List.replicate (8 - rows.length) (beBytes 2 0xFFFF ++ List.replicate 14 0)
        let res := beBytes 4 g.recorded ++ (List.range 16).flatMap (fun i => bvBytes 4 (g.hist.getD i 0)) ++
          (rows ++ gap).flatten
        let cleared : Group := { g with recorded := 0, hist := [], lastCount := [], lateSum := [] }
        (ok res, if flags.getLsbD 0 then
            { s with est := { s.est with groups := s.est.groups.put group.toNat cleared } }
          else s)) s

/-! ## Triggers (R375, R380) -/

/-- The size of an item, by KIND. -/
def itemSize : Nat → Nat
  | 0 => 8
  | 1 => 80
  | _ => 4

/-- The fields of an item at an offset. -/
def itemChecks (off : Nat) : TrigItem → List (Bool × Nat)
  | .counter _ rsv _ => [rsvOk rsv (off + 2)]
  | .entry i _ rsv _ ctx _ => [(decide (i.toNat < 262144), off), rsvOk rsv (off + 6), (decide (ctx.toNat < 2097152), off + 12)]
  | .invalidate i => [(decide (i.toNat < 262144), off)]

/-- An item applied. -/
def State.applyItem (s : State) : TrigItem → State
  | .counter i _ v => ({ s with est := { s.est with counters := s.est.counters.setD i.toNat 0 v } } : State).settle
  | .entry i c _ th ctx d =>
    ({ s with est := { s.est with
        triggers := s.est.triggers.put i.toNat ⟨c.toNat, th.toNat, ctx.toNat, d⟩ } } : State).settle
  | .invalidate i => { s with est := { s.est with triggers := s.est.triggers.del i.toNat } }

/-- TRIGGER_WRITE (R375, R380). -/
def execTriggerWrite (iss : Issuer) (kind rsv : Byte) (count : BitVec 16) (items : List TrigItem) (s : State) : Out :=
  let k := kind.toNat
  .next <| hostCmd (.triggerWrite iss kind rsv count items) (fun _ s =>
    guardParams ([(decide (k ≤ 2), 0), rsvOk rsv 1,
        (decide (k = 0 → count.toNat ≤ 1000) && decide (k = 1 → count.toNat ≤ 111), 2)] ++
        items.zipIdx.flatMap fun (t, i) => itemChecks (4 + itemSize k * i) t) s
      (ok [], items.foldl State.applyItem s)) s

/-- The bytes of entry `i`; what an entry that is not valid holds is open. -/
def State.entryBytes (s : State) (i : Nat) : List Byte × State :=
  match s.est.triggers.find i with
  | some e => (beBytes 4 i ++ beBytes 2 e.counter ++ [0, 0] ++ beBytes 4 e.threshold ++ beBytes 4 e.ctx ++ bvBytes 64 e.desc, s)
  | none =>
    let (bs, s) := s.freeBytes 74
    (beBytes 4 i ++ bs.take 2 ++ [0, 0] ++ bs.drop 2, s)

/-- TRIGGER_READ (R380). -/
def execTriggerRead (iss : Issuer) (kind rsv : Byte) (count : BitVec 16) (first : BitVec 32) (s : State) : Out :=
  .next <| hostCmd (.triggerRead iss kind rsv count first) (fun _ s =>
    let k := kind.toNat
    let n := count.toNat
    guardParams [(decide (k ≤ 1), 0), rsvOk rsv 1, (decide (1 ≤ n ∧ n ≤ if k = 0 then 1000 else 111), 2),
        (decide (first.toNat + n ≤ if k = 0 then 65536 else 262144), 4)] s <|
      if k = 0 then
        (ok ((rangeFrom first.toNat n).flatMap fun i => beBytes 2 i ++ [0, 0] ++ bvBytes 4 (s.est.counters.getD i 0)), s)
      else
        let (bs, s) := (rangeFrom first.toNat n).foldl (init := (([] : List Byte), s)) fun (acc, s) i =>
          let (b, s) := s.entryBytes i
          (acc ++ b, s)
        (ok bs, s)) s

/-! ## Contexts (R405 to R407) -/

/-- CPLT: bit j for chunk BASE + j, for j below W. -/
def Ctx.cpltBits (c : Ctx) : Nat := ((c.cplt.filter fun n => decide (n < c.base + c.w)).map fun n => 2 ^ (n - c.base)).sum

/-- The header of CTX_QUERY (R405). Where the header's line is lost, every field of it is 0 but what the directory holds: state,
reason, first number and SPAN (R398, R401). -/
def Ctx.header (c : Ctx) (x : Nat) (owner : Bool) : List Byte :=
  let gone := c.lost.contains 0
  let z (n : Nat) : Nat := if gone then 0 else n
  let base := if typeA2a c.type then c.ended else c.base
  let within := (List.range c.m).filter fun i => !(c.member i).excluded
  beBytes 1 c.st.code ++ beBytes 1 c.reason ++ beBytes 1 (z (16 * c.type)) ++ beBytes 1 (b2n (!c.lost.isEmpty) + 2 * b2n owner) ++
  beBytes 4 x ++ beBytes 1 c.span ++ [0] ++ beBytes 2 (z c.group) ++ beBytes 2 (z c.m) ++
  beBytes 2 (z within.length) ++ beBytes 4 (z c.ch) ++ beBytes 4 (z base) ++ beBytes 2 (z c.w) ++
  beBytes 2 (z c.flagRec) ++ beBytes 8 (z c.openedAt) ++ beBytes 8 (z c.deadline) ++ beBytes 8 (z c.endedAt) ++
  beBytes 2 (z (c.lastMember.getD 0xFFFF)) ++ beBytes 2 (z (c.members.filter fun m => m.2.opened).length) ++
  beBytes 8 (z c.lateness) ++ beBytes 32 (z c.cpltBits) ++ beBytes 4 (z c.dups) ++ beBytes 4 (z c.ahead) ++
  beBytes 4 (z c.excl) ++ beBytes 4 (z c.fmtDrops) ++ beBytes 4 (z c.lacks) ++ beBytes 4 (z c.resent) ++
  beBytes 4 (z c.gone) ++ [0, 0, 0, 0]

/-- A member entry of CTX_QUERY. A field with a byte in a lost line of the record is 0 (R353, R401). -/
def Ctx.entry (c : Ctx) (m : Nat) : List Byte :=
  let y := c.member m
  let z (off n v : Nat) : Nat := if (linesOf (memberAt m + off) n).any c.lost.contains then 0 else v
  let rowDone := c.matrixAt.isSome && rowZero c.rem_ m c.m
  if c.m ≤ m then List.replicate 48 0
  else
    beBytes 4 (z 0 4 (if typeA2a c.type then y.paceRounds else y.mark)) ++
    beBytes 2 (z 4 2 (b2n y.opened + 2 * b2n y.excluded + 4 * b2n rowDone)) ++ beBytes 2 m ++ beBytes 32 (z 8 32 y.window) ++
    beBytes 8 (z 40 8 (if typeA2a c.type then y.paceEnd else y.finish))

/-- The lines of a record that a query reads, where no slice holds them: their bytes come over their bridges' links as context fetches
(R218), and an uncorrectable block is a fault of the context (R221). -/
def State.queryLines (s : State) (x : Nat) (c : Ctx) (ms : List Nat) (met : List BlockErr) : State :=
  let need := (c.headLines (ms.filter (· < c.m))).filter fun l => !s.lineHeld x l
  let n := 8 * need.length
  let s := need.foldl (fun s l => s.sendBytes (lineBridge x l) false 0 512) s
  let s := s.meet 1 n (fun e => addrStack (lineAddr x (need.getD (e.block / 8) 0) + e.block % 8 * 64)) met
  let bad := ((lostBlocks n met).map fun i => need.getD (i / 8) 0).eraseDups
  if bad.isEmpty then s else (s.ctxFault x bad).settle

/-- CTX_QUERY (R405, R415). -/
def execCtxQuery (iss : Issuer) (ctx : BitVec 32) (first count : BitVec 16) (met : List BlockErr) (s : State) : Out :=
  .next <| hostCmd (.ctxQuery iss ctx first count met) (fun _ s =>
    guardParams [(decide (ctx.toNat < 2097152), 0), (decide (count.toNat ≤ 128), 6)] s <|
      let n := ctx.toNat
      let ms := rangeFrom first.toNat count.toNat
      let home := match s.codingAt n with
        | some (_, g) => decide (g.base = n)
        | none => false
      if home then (ok (7 :: List.replicate (127 + 48 * ms.length) 0), s)
      else
        match s.queried n with
        | some (x, c) =>
          let s := s.queryLines x c ms met
          let c := (s.ctx x).getD c
          (ok (c.header x (decide (x ≠ n ∧ c.st ≠ .free)) ++ ms.flatMap c.entry), s)
        | none => (ok (List.replicate (128 + 48 * ms.length) 0), s)) s

/-- CTX_ABORT (R407). The completion of the context at the same moment wins (R409). -/
def execCtxAbort (iss : Issuer) (ctx : BitVec 32) (s : State) : Out :=
  .next <| hostCmd (.ctxAbort iss ctx) (fun _ s =>
    match (s.ctx ctx.toNat).filter fun c => c.st.live with
    | none => (badParam 0, s)
    | some c =>
      if c.completes s.now then (badParam 0, s)
      else (ok (beBytes 1 c.st.code ++ [0, 0, 0]), (s.endCtx ctx.toNat .aborted 22 0).settle)) s

/-! ## Exclusion (R394 to R396, R408) -/

/-- Members excluded from one live context: the effects of R394 and R395. -/
def State.excludeIn (s : State) (x : Nat) (ms : List Nat) : State :=
  match s.ctx x with
  | none => s
  | some c =>
    let fresh := ms.eraseDups.filter fun m => !(c.member m).excluded
    if fresh.isEmpty ∨ !c.st.live then s
    else
      let c' := fresh.foldl (init := c) fun c m =>
        let c := c.setMember m fun y => { y with excluded := true }
        let matrix : AMap Nat := if c.matrixAt = none ∧ (c.member m).mark < c.ch then
          c.matrix.filter fun e => decide (e.1 / c.m ≠ m) else c.matrix
        let rem_ : AMap Nat := c.rem_.filter fun e => decide (e.1 / c.m ≠ m ∧ e.1 % c.m ≠ m)
        { c with excludedAny := true, matrix := matrix, rem_ := rem_ }
      let s := (s.putCtx x c').tellExcluded x c fresh
      if c'.activeMembers.isEmpty then s.endCtx x .partialEnd 17 0
      else if (c.type = 1 ∨ c.type = 4) ∧ fresh.contains (dRoot c.desc) then s.endCtx x .partialEnd 18 0
      else (s.judgeOpen x).judgeChunks x

/-- The contexts among some in which one of some members is not excluded. -/
def State.excludable (s : State) (xs ms : List Nat) : List Nat :=
  xs.filter fun y => match s.ctx y with
    | some c => c.st.live && ms.any fun m => !(c.member m).excluded
    | none => false

/-- The lines of the members' state read by the slices that make the contexts' own cells (R217). -/
def State.readMembers (s : State) (xs ms : List Nat) (met : List BlockErr) : State :=
  (xs.foldl (init := (s, met)) fun a y => match a.1.ctx y with
    | some c => a.1.readLines (homeOf y 0) y true (c.headLines ms) a.2
    | none => a).1

/-- The members excluded from some contexts at once (R394): the contexts affected, and those that this ends or whose work it
completes (R408). -/
def State.excludeAll (s : State) (xs ms : List Nat) : Nat × Nat × State :=
  let hit := s.excludable xs ms
  let t := hit.foldl (fun s y => s.excludeIn y ms) s
  let ended := hit.filter fun y => match s.ctx y, t.ctx y with
    | some c, some d => d.st.terminal || (d.contributed && !c.contributed)
    | _, _ => false
  (hit.length, ended.length, t)

/-- MEMBER_EXCLUDE (R394, R396, R408). -/
def execMemberExclude (iss : Issuer) (group : BitVec 16) (flags rsv : Byte) (ctx : BitVec 32) (count rsv2 : BitVec 16)
    (members : List (BitVec 16)) (met : List BlockErr) (s : State) : Out :=
  .next <| hostCmd (.memberExclude iss group flags rsv ctx count rsv2 members met) (fun _ s =>
    let g? := s.groupOf group.toNat
    let one := flags.getLsbD 1
    let back := flags.getLsbD 0
    let x := ctx.toNat
    let inside := match g? with
      | some g => decide (g.base ≤ x ∧ x < g.base + g.count) && ((s.ctx x).map fun c => c.st.live).getD false
      | none => false
    guardParams ([(g?.isSome, 0), (decide (flags.toNat < 3), 2), rsvOk rsv 3, (if one then inside else decide (x = 0), 4),
        (decide (1 ≤ count.toNat ∧ count.toNat ≤ 1024), 8), rsvOk rsv2 10] ++
        members.zipIdx.map fun (m, i) => (decide (m.toNat < (g?.map (·.m)).getD 0), 12 + 2 * i)) s <|
      match g? with
      | none => (badParam 0, s)
      | some g =>
        let ms := members.map (·.toNat)
        let mark (rs : List Word) : List Word := rs.mapIdx fun i r =>
          if ms.contains i then (if back then r &&& 0xEFFFFFFF else r ||| 0x10000000) else r
        let s : State := if one then s else
          { s with est := { s.est with groups := s.est.groups.put group.toNat { g with records := mark g.records } } }
        if back then (ok (List.replicate 8 0), s)
        else
          let xs := if one then [x] else s.liveIn g.base g.count
          let (hit, ended, s) := (s.readMembers (s.excludable xs ms) ms met).excludeAll xs ms
          (ok (beBytes 4 hit ++ beBytes 4 ended), s.settle)) s

/-! ## Breakwater (R417 to R419, R436) -/

/-- Units of a bridge. -/
def State.bridgeUnits (s : State) : Nat := s.mem.sizes.getD 2 0 / 4 * 256

/-- The unit slots of a bridge in use. -/
def State.slotsUsed (s : State) (b : Nat) : List Nat :=
  s.bwk.groups.flatMap fun g => (g.2.slots.zipIdx.filter fun e => decide (e.2 % 4 = b)).map (·.1)

/-- Units that a shard of `z` units places on bridge `b`. -/
def unitsOn (z b : Nat) : Nat := (z + 3 - b) / 4

/-- The lowest `n` slots that are not used. -/
def freeSlots (used : List Nat) : Nat → Nat → Nat → List Nat
  | 0, _, _ => []
  | _ + 1, _, 0 => []
  | fuel + 1, at_, n + 1 =>
    if used.contains at_ then freeSlots used fuel (at_ + 1) (n + 1) else at_ :: freeSlots used fuel (at_ + 1) n

/-- A range is legal for a coding group (R417): one that overlaps an Estuary group is not, even while that is destroyed. -/
def State.codingRange (s : State) (base count : Nat) : Bool :=
  s.rangeOk base count 3 && s.est.groups.all fun g => !overlaps base count g.2.base g.2.count

/-- The slots of the units of a new group. -/
def State.placeUnits (s : State) (z : Nat) : List Nat :=
  let on := [0, 1, 2, 3].map fun b => freeSlots (s.slotsUsed b) s.bridgeUnits 0 (unitsOn z b)
  (List.range z).map fun u => (on.getD (u % 4) []).getD (u / 4) 0

/-- BWK_GROUP_CREATE (R414 to R418, R420). -/
def execBwkGroupCreate (iss : Issuer) (group : BitVec 16) (k rsv : Byte) (base count z : BitVec 32) (members : List Word)
    (s : State) : Out :=
  .next <| hostCmd (.bwkGroupCreate iss group k rsv base count z members) (fun _ s =>
    let n := group.toNat
    guardParams ([(decide (n < 4096) && (s.bwk.groups.find n).isNone, 0), (decide (2 ≤ k.toNat ∧ k.toNat ≤ 30), 2),
        rsvOk rsv 3, (s.codingRange base.toNat count.toNat, 4), (decide (1 ≤ z.toNat ∧ z.toNat ≤ 65536), 12)] ++
        recordChecks 16 members []) s <|
      guardUp [fidBwk] s <|
        if s.rangeBusy base.toNat count.toNat then (.done stBusy 2 [], s)
        else
          match [0, 1, 2, 3].find? fun b => decide (s.bridgeUnits < (s.slotsUsed b).length + unitsOn z.toNat b) with
          | some b => (.done stNoResource (0x0100 + b) [], s)
          | none =>
            let times := min (s.bwk.born.getD n 0 + 1) 0xFFFF
            let id := s.boot.incarnation.toNat * 2 ^ 32 + n * 2 ^ 16 + times
            let g : Coding :=
              { k := k.toNat, base := base.toNat, count := count.toNat, z := z.toNat, records := members.map freshRecord,
                id := id, destroying := none, units := [], slots := s.placeUnits z.toNat, homeBad := false }
            (ok (beBytes 8 id), { s with bwk := { s.bwk with
              groups := s.bwk.groups.put n g, born := s.bwk.born.put n times } })) s

/-- BWK_GROUP_DESTROY (R419). -/
def execBwkGroupDestroy (iss : Issuer) (group rsv : BitVec 16) (s : State) : Out :=
  .next (hostCmd (.bwkGroupDestroy iss group rsv) (fun _ s =>
    let g? := (s.bwk.groups.find group.toNat).filter fun g => g.destroying.isNone
    guardParams [(g?.isSome, 0), rsvOk rsv 2] s <|
      guardUp [fidBwk] s <|
        match g? with
        | none => (badParam 0, s)
        | some g =>
          let xs := s.liveIn g.base g.count
          let s := xs.foldl (fun s x => s.endCtx x .aborted 5 0) s
          (.pend [] (.bwkDestroy group.toNat), { s with bwk := { s.bwk with
            groups := s.bwk.groups.upd group.toNat fun g => { g with destroying := some xs.length } } })) s).judgeDestroys

/-- Units of a group in a state. -/
def Coding.count_ (g : Coding) (u : UnitState) : Nat := (g.units.filter fun e => decide (e.2 = u)).length

/-- Unit states, two bits each, the lowest unit in bits 7:6. -/
def packUnits (g : Coding) (first count : Nat) : List Byte :=
  (List.range ((count + 3) / 4)).map fun i =>
    BitVec.ofNat 8 ((List.range 4).foldl (fun a j =>
      a * 4 + if 4 * i + j < count then (g.unit (first + 4 * i + j)).code else 0) 0)

/-- BWK_QUERY (R436). -/
def execBwkQuery (iss : Issuer) (group rsv : BitVec 16) (first count : BitVec 32) (s : State) : Out :=
  .next <| hostCmd (.bwkQuery iss group rsv first count) (fun _ s =>
    let g? := s.bwk.groups.find group.toNat
    let z := (g?.map (·.z)).getD 0
    guardParams [(g?.isSome, 0), rsvOk rsv 2, (decide (first.toNat ≤ z), 4),
        (decide (count.toNat ≤ 16384 ∧ first.toNat + count.toNat ≤ z), 8)] s <|
      guardUp [fidBwk] s <|
        match g? with
        | none => (badParam 0, s)
        | some g =>
          let cur := g.count_ .current
          let sta := g.count_ .stale
          let dam := g.count_ .damaged
          (ok (beBytes 1 g.k ++ beBytes 1 (b2n (decide (dam ≠ 0)) + 2 * b2n g.destroying.isSome) ++ [0, 0] ++
            beBytes 8 g.id ++ beBytes 4 g.base ++ beBytes 4 g.count ++ beBytes 4 g.z ++
            beBytes 4 (g.z - cur - sta - dam) ++ beBytes 4 cur ++ beBytes 4 sta ++ beBytes 4 dam ++
            g.records.flatMap (bvBytes 4) ++ packUnits g first.toNat count.toNat), s)) s

end Sys2Proof.Machine
end

