-- ==== Sys2Proof/Machine/Memory.lean ====
section
/-! DEFINITION. The memory bridges and their partitions (R210 to R225). -/

namespace Sys2Proof.Machine

/-! ## Partitions -/

/-- The unassigned GiB: the store holds 3,072 (R211). -/
def Mem.unassigned (m : Mem) : Nat := 3072 - m.sizes.sum

/-- GiB of a partition by its ID. -/
def Mem.sizeOf (m : Mem) (id : Nat) : Nat := if id = 7 then m.unassigned else m.sizes.getD id 0

/-- The extents of a partition of `n` GiB on a bridge: extent i of a partition lies on bridge i mod 4 (R210). -/
def extentsOn (n b : Nat) : Nat := (n + 3 - b) / 4

/-- A context of type ALLTOALL or ALLTOALLV is open. -/
def State.matrixOpen (s : State) : Bool := s.est.ctxs.any fun e => e.2.st.live && typeA2a e.2.type

/-- A partition is empty (R211); of LOG every record must have been read. -/
def State.partEmpty (s : State) (id : Nat) : Bool :=
  match id with
  | 0 => s.undertow.isEmpty && s.tiles.all fun t => !t.2.spilling
  | 2 => s.bwk.groups.isEmpty
  | 3 => s.objs.table.isEmpty && !s.matrixOpen
  | 4 => decide (s.regBits .tblSound [] 21 0 = 0)
  | 5 => s.tel.log.all LogEvent.read
  | 7 => true
  | _ => false

/-- The size rule of a partition (R211). -/
def sizeRule (id n : Nat) : Bool :=
  match id with
  | 0 => decide (n % 64 = 0 ∧ n ≤ 2048)
  | 2 => decide (n % 4 = 0 ∧ n ≤ 2816)
  | 3 => decide (n % 4 = 0 ∧ 16 ≤ n ∧ n ≤ 1024)
  | 4 => decide (n % 4 = 0 ∧ 4 ≤ n ∧ n ≤ 256)
  | 5 => decide (n % 4 = 0 ∧ 4 ≤ n ∧ n ≤ 256)
  | _ => false

/-- PART_READ (R225). -/
def execPartRead (iss : Issuer) (s : State) : Out :=
  .next <| hostCmd (.partRead iss) (fun _ s =>
    (ok ([0, 1, 2, 3, 4, 5, 7].flatMap fun id =>
      let n := s.mem.sizeOf id
      beBytes 1 id ++ beBytes 1 (b2n (s.partEmpty id)) ++ beBytes 2 n ++
        [0, 1, 2, 3].flatMap fun b => beBytes 2 (extentsOn n b)), s)) s

/-- The events that a ring of some slots keeps, newest first in `es`: the oldest go. -/
def keepNewest (slots : Nat) : List LogEvent → List LogEvent
  | [] => []
  | e :: es => if e.records ≤ slots then e :: keepNewest (slots - e.records) es else []

/-- What a resize does to the contents of its partition (R213): SHADOW loses its images; LOG keeps the records that still fit,
and its writing stops until the held events are written (R585). -/
def State.resized (s : State) (p : Nat) : State :=
  if p = 4 then { s with tables := { s.tables with shadow := [], rewritten := none, bad := [] } }
  else if p = 5 then
    let log := (keepNewest (logSlots s.logGib) s.tel.log.reverse).reverse
    { s with tel := { s.tel with log := log, hold := true } }
  else s

/-- PART_RESIZE (R213). -/
def execPartResize (iss : Issuer) (id rsv : Byte) (size : BitVec 16) (s : State) : Out :=
  .next <| hostCmd (.partResize iss id rsv size) (fun _ s =>
    let p := id.toNat
    let n := size.toNat
    let old := s.mem.sizeOf p
    guardParams [(decide (p ≤ 5 ∧ p ≠ 1), 0), rsvOk rsv 1, (sizeRule p n, 2)] s <|
      if !s.partEmpty p then (.done stBusy 2 [], s)
      else if old + s.mem.unassigned < n then (.done stNoResource (n - old - s.mem.unassigned) [], s)
      else
        let s : State := { s with mem := { s.mem with sizes := modAt s.mem.sizes p fun _ => n } }
        (ok (beBytes 2 old ++ beBytes 2 n), s.resized p)) s

/-! ## Errors (R220 to R222) -/

/-- MEM_ERROR_READ (R225). -/
def execMemErrorRead (iss : Issuer) (bridge rsv : Byte) (first count : BitVec 16) (s : State) : Out :=
  .next <| hostCmd (.memErrorRead iss bridge rsv first count) (fun _ s =>
    guardParams [(decide (bridge.toNat < 4), 0), rsvOk rsv 1, (decide (1 ≤ count.toNat ∧ count.toNat ≤ 512), 4)] s <|
      guardUp [fidBrg bridge.toNat] s <|
        let rs := ((s.brg bridge.toNat).errors.drop first.toNat).take count.toNat
        (ok (beBytes 2 rs.length ++ [0, 0] ++ rs.flatMap ErrRec.encode), s)) s

/-- One of `n` things, or none of them: a free choice. -/
def State.pickFree (s : State) (n : Nat) : Option Nat × State :=
  let (v, s) := s.drawFree
  (if v.toNat % (n + 1) < n then some (v.toNat % (n + 1)) else none, s)

/-- The spilled cells on a bridge: queue and place, of one tile or of all. -/
def State.spilledOn (s : State) (b : Nat) (tile : Option Nat) : List (Nat × Nat) :=
  (s.undertow.filter fun p => tile.all fun t => decide (p.1 / 4096 = t)).flatMap fun p =>
    (p.2.zipIdx.filter fun x => decide (x.1.home = b)).map fun x => (p.1, x.2)

/-- A spilled cell of a tile on a bridge is lost, at a free place (R221). -/
def State.loseSpilled (s : State) (t b : Nat) : State :=
  let ks := s.spilledOn b (some t)
  let (i, s) := s.pickFree ks.length
  match i with
  | none => s
  | some i =>
    let (k, j) := ks.getD i (0, 0)
    s.setUnder k (modAt (s.under k) j fun q => { q with lost := true })

/-- The unit that holds a byte of BREAKWATER: 4 MiB each, 256 to an extent (R420). -/
def State.unitAt (s : State) (a : Nat) : Option (Nat × Nat) :=
  let b := addrBridge a
  let slot := a / 2 ^ 30 / 4 * 256 + a % 2 ^ 30 / 2 ^ 22
  s.bwk.groups.findSome? fun g => (g.2.slots.zipIdx.find? fun x => decide (x.1 = slot ∧ x.2 % 4 = b)).map fun x => (g.1, x.2)

/-- A block of the area of the objects is lost: some object's block lies there, or none (R221). Which is left open. -/
def State.loseObject (s : State) : State :=
  let hs := s.objs.table.map (·.1)
  let (i, s) := s.pickFree hs.length
  match i with
  | none => s
  | some i =>
    let h := hs.getD i 0
    let blocks := (((s.objs.table.find h).map fun o => o.length).getD 0 + 63) / 64
    let (v, s) := s.drawFree
    { s with mem := { s.mem with badObjects := (h, v.toNat % max 1 blocks) :: s.mem.badObjects } }

/-- The column blocks of a matrix of `m` members at an offset of STAGING that have a byte in a block at another (R221). -/
def colsAt (m at_ block : Nat) : List Nat :=
  let lo := block - at_
  let hi := min (block + 64) (at_ + 4 * m * m)
  if hi ≤ at_ ∨ at_ + 4 * m * m ≤ block then []
  else ((rangeFrom (lo / 4) ((hi - at_ + 3) / 4 - lo / 4)).map fun i => i % m / 16).eraseDups

/-- A block of STAGING is lost (R221, R401): the objects lie in the first 512 MiB and the matrices behind them. -/
def State.loseStaging (s : State) (a : Nat) : State :=
  let block := a / 64 * 64
  if a < 536870912 then s.loseObject
  else
    let hit := s.est.ctxs.filterMap fun e =>
      if e.2.st = .free then none else e.2.staging.map fun o => (e.1, colsAt e.2.m o block)
    hit.foldl (fun s x => if x.2.isEmpty then s else s.matrixFault x.1 x.2) s

/-- The gap record that stands in place of an event lost with its block (R221, R580). -/
def State.gapFor (s : State) (e : LogEvent) : LogEvent :=
  { e with time := s.now, ptp := s.stampPtp, sev := 2, flags := 4, code := 0x1301, source := fidTel, count := 1
           data := beBytes 8 e.seq ++ beBytes 4 e.records, read := false }

/-- Events of the LOG ring replaced by gap records. -/
def State.gapLog (s : State) (seqs : List Nat) : State :=
  let log := s.tel.log.map fun e => if seqs.contains e.seq then s.gapFor e else e
  { s with tel := { s.tel with log := log } }

/-- The events of the LOG ring on a bridge. -/
def State.logOn (s : State) (b : Nat) : List LogEvent := s.tel.log.filter fun e => decide ((Config.logBridge e.seq).val = b)

/-- An event of the LOG ring on a bridge lost with a block, at a free place. -/
def State.loseLog (s : State) (b : Nat) : State :=
  let es := s.logOn b
  let (i, s) := s.pickFree es.length
  match i.bind fun i => es[i]? with
  | none => s
  | some e => s.gapLog [e.seq]

/-- The treatment of an uncorrectable block by its partition (R221). -/
def State.badBlock (s : State) (part a : Nat) : State :=
  match part with
  | 0 =>
    let t := a * 64 / max 1 (s.undertowGib * 2 ^ 30)
    (s.loseSpilled t (addrBridge a)).loseSpilled t (addrBridge a)
  | 1 => s.recordFault a
  | 2 => match s.unitAt a with
    | some (g, u) => s.damage g u
    | none => s
  | 3 => s.loseStaging a
  | 4 => { s with tables := { s.tables with bad := (shadowKeys a ++ s.tables.bad).eraseDups } }
  | 5 => s.loseLog (addrBridge a)
  | _ => s

/-- The number of a scrub pass (R220); 0 where scrubbing is stopped. -/
def State.scrubPass (s : State) (b : Nat) : Nat :=
  let h := s.regBits .brgScrub [b] 7 0
  if h = 0 then 0 else s.now / (h * 3600000000000)

/-- The partition that holds a byte of an extent named by the partition it was read for (R211, R224): one that a resize has returned
is unassigned. -/
def State.partNow (s : State) (part a : Nat) : Nat :=
  if part ≤ 5 ∧ a < s.mem.sizeOf part * 2 ^ 30 then part else 7

/-- PATROL_SCRUB (R220 to R222, R224). A finding whose address lies on another bridge (R209) is none of this one's. DEDUCED: the errors
that count for a row are those that the scrub itself corrects (log entry 72). -/
def execPatrolScrub (b : Bridge) (finding : Option ScrubFinding) (s : State) : Out :=
  .next <|
    let b := b.val
    if s.fnDown (fidBrg b) ∨ !(s.brg b).ready ∨ s.regBits .brgScrub [b] 7 0 = 0 then s
    else
      let pass := s.scrubPass b
      let s := if (s.brg b).pass = pass then s else s.setBrg b fun x => { x with pass := pass, rows := [] }
      match finding with
      | none => s
      | some f =>
        let part := s.partNow f.part.toNat f.addr
        let stack := addrStack f.addr
        if f.symbols.val = 0 ∨ addrBridge f.addr ≠ b then s
        else
          let s := s.noteBlock 3 stack part f.pch f.bank f.row f.symbols.val
          if symbolsLost f.symbols.val then (s.badBlock part f.addr).settle
          else
            let row := ((stack * 256 + f.pch.toNat) * 256 + f.bank.toNat) * 2 ^ 24 + f.row.toNat
            let n := (s.brg b).rows.getD row 0 + 1
            let s := s.setBrg b fun x => { x with rows := x.rows.put row n }
            if n = s.regBits .brgScrub [b] 15 8 then
              s.raiseEv 0x9002 1 (fidBrg b)
                (beBytes 1 stack ++ beBytes 1 f.pch.toNat ++ beBytes 1 f.bank.toNat ++ beBytes 3 f.row.toNat)
            else s

/-- BRIDGE_ZEROING_COMPLETE (R214, R223): the bridge serves again once it is out of reset and its link is up. -/
def execBridgeZeroingComplete (b : Bridge) (s : State) : Out :=
  .next <|
    if s.fnDown (fidBrg b.val) ∨ s.boot.phase = .reset ∨ !s.linkUp (16 + b.val) then s
    else (s.setBrg b.val fun x => { x with ready := true, stacksUp := 255 }).endResets (fidBrg b.val)

/-! ## A bridge's function reset (R223) -/

/-- The lines of a context's record that lie on a bridge and that no slice holds (R401). -/
def State.linesGone (s : State) (b x : Nat) (c : Ctx) : List Nat :=
  c.usedLines.filter fun l => decide (lineBridge x l = b) && !s.lineHeld x l

/-- The lines on a bridge that a slice holds are to be written back, since the bridge has lost them (R223). -/
def State.dirtyOn (s : State) (b : Nat) : State :=
  (s.est.slices.map (·.1)).foldl (init := s) fun s t =>
    s.setSlice t fun v => { v with lines := v.lines.map fun l => if lineBridge l.ctx l.line = b then { l with dirty := true } else l }

/-- The fetches in flight from a bridge fail (R224). -/
def State.fetchesDown (s : State) (b : Nat) : State :=
  s.est.slices.foldl (init := s) fun s e =>
    match e.2.fetch with
    | none => s
    | some f =>
      let gone := f.lines.filter fun l => decide (lineBridge f.ctx l = b)
      if gone.isEmpty then s else (s.setSlice e.1 fun v => { v with fetch := none }).ctxFault f.ctx gone

/-- Bytes of STAGING from an offset lie on a bridge. -/
def staged (at_ n b : Nat) : Bool :=
  decide (0 < n) && (rangeFrom (at_ / 2 ^ 30) ((at_ + n - 1) / 2 ^ 30 + 1 - at_ / 2 ^ 30)).any fun i => decide (i % 4 = b)

/-- The contexts whose matrix has bytes on a bridge, with its column blocks: each has a cell there. -/
def State.matricesOn (s : State) (b : Nat) : List (Nat × List Nat) :=
  s.est.ctxs.filterMap fun e =>
    if e.2.st ≠ .free ∧ (e.2.staging.any fun o => staged o (4 * e.2.m * e.2.m) b) then
      some (e.1, List.range ((e.2.m + 15) / 16))
    else none

/-- The start of a function reset of a bridge. -/
def State.bridgeDown (s : State) (b : Nat) : State :=
  let s := s.setBrg b fun _ => BridgeSt.init
  let s := (s.spilledOn b none).foldl (fun s (k, j) => s.setUnder k (modAt (s.under k) j fun q => { q with lost := true })) s
  let s := s.fetchesDown b
  let xs := s.est.ctxs.map fun e => (e.1, s.linesGone b e.1 e.2)
  let s := (xs.foldl (fun s (x, ls) => if ls.isEmpty then s else s.ctxFault x ls) s).dirtyOn b
  let homes := (s.bwk.groups.filter fun g => decide (lineBridge g.2.base 0 = b)).map fun g => g.2.base
  let s := homes.foldl State.homeFault s
  let applying := ((s.bwk.deltas.getD b []).map Delta.ctx).eraseDups
  let s := applying.foldl (fun s x => match s.ctx x with
    | some c => s.damage c.group (dUnit c.desc)
    | none => s) s
  let s : State := { s with bwk := { s.bwk with deltas := s.bwk.deltas.del b } }
  let units := s.bwk.groups.flatMap fun g => (List.range g.2.z).filterMap fun u => if u % 4 = b then some (g.1, u) else none
  let s := units.foldl (fun s u => s.damage u.1 u.2) s
  let s : State := if b = objBridge then { s with objs := { s.objs with table := [] } } else s
  let s := (s.matricesOn b).foldl (fun s x => s.matrixFault x.1 x.2) s
  let s : State := if b = 0 then { s with tables := { s.tables with shadow := [], rewritten := some [], bad := [] } } else s
  (s.gapLog ((s.logOn b).map LogEvent.seq)).settle

/-- BRG_STATUS (R228). -/
def State.brgStatus (s : State) (b : Nat) : Nat :=
  b2n ((s.brg b).ready && s.linkUp (16 + b)) * 2 ^ 31 + (s.brg b).stacksUp % 256 * 2 ^ 16 + popCount 16 (s.link (16 + b)).mask

end Sys2Proof.Machine
end

