-- ==== Sys2Proof/Machine/TideCmds.lean ====
section
/-! DEFINITION. The tide commands (R308, R309, R318), the end of a commit's check and the activation of its tables (R315,
R482). -/

namespace Sys2Proof.Machine

/-! ## The tide set object (R308, R309, R479, R487) -/

/-- A header or port-record fault. -/
def wholeFault : Nat := 0xFFFF

/-- The window at a place of the object. -/
def tideWindow (o : Obj) (at_ pos : Nat) : Window :=
  let fl := o.nat (at_ + 9) 1
  { start := o.nat at_ 4, len := o.nat (at_ + 4) 4, gate := o.nat (at_ + 8) 1, causeway := bit fl 0, swell := bit fl 1,
    action := o.nat (at_ + 10) 2, bytes := o.nat (at_ + 12) 4, pos := pos }

/-- A window of a port of `n` lanes that R309, R479 and R487 allow. -/
def windowOk (cmode : Bool) (p n k flags : Nat) (w : Window) : Bool :=
  decide (flags < 4 ∧ w.start < 2 ^ k ∧ w.start + w.len ≤ 2 ^ k ∧ w.bytes % 80 = 0) && !(w.causeway && w.swell) &&
  (if w.causeway then decide (w.action / 4096 % 8 = 0)
   else if w.swell then
     decide (w.action % 256 = 0 ∧ w.mask ≠ 0 ∧ w.mask &&& portMask p n = w.mask ∧ 1024 ≤ w.len) && cmode
   else decide (w.action = 0))

/-- The port records from a place on: what they give, or the position of the first fault. -/
def State.tidePorts (s : State) (o : Obj) : Nat → Nat → Nat → List Nat → Nat ⊕ List TidePort
  | 0, at_, _, _ => if at_ = o.length then .inr [] else .inl wholeFault
  | n + 1, at_, pos, seen =>
    let p := o.nat at_ 2
    let k := o.nat (at_ + 2) 1
    let count := o.nat (at_ + 4) 2
    if !o.zero (at_ + 3) 1 ∨ !o.zero (at_ + 6) 2 ∨ o.length < at_ + 8 + 16 * count ∨ !s.configured p ∨ seen.contains p ∨
        ¬(k = 0 ∨ (10 ≤ k ∧ k ≤ 30)) ∨ 1024 < count ∨ (k = 0 ∧ count ≠ 0) then .inl wholeFault
    else
      let ws := (List.range count).map fun i => tideWindow o (at_ + 8 + 16 * i) (pos + i)
      let ok (i : Nat) : Bool :=
        ((ws[i]?).map (windowOk (s.isC p) p (s.widthAt p) k (o.nat (at_ + 17 + 16 * i) 1))).getD false
      match (List.range count).find? fun i => !ok i with
      | some i => .inl (pos + i)
      | none =>
        match State.tidePorts s o n (at_ + 8 + 16 * count) (pos + count) (p :: seen) with
        | .inl f => .inl f
        | .inr ps => .inr (⟨p, k, ws⟩ :: ps)

/-- The set that an object holds. -/
def State.tideSet (s : State) (o : Obj) : Nat ⊕ List TidePort :=
  let ports := o.nat 2 2
  let wins := o.nat 4 4
  if o.length < 16 ∨ o.nat 0 1 ≠ 1 ∨ !o.zero 1 1 ∨ !o.zero 8 8 ∨ ¬(1 ≤ ports ∧ ports ≤ 2048) ∨ 65535 < wins then .inl wholeFault
  else
    match s.tidePorts o ports 16 0 [] with
    | .inl f => .inl f
    | .inr ps => if (ps.map fun p => p.windows.length).sum = wins then .inr ps else .inl wholeFault

/-- The windows of a set. -/
def windowsIn (ps : List TidePort) : Nat := (ps.map fun p => p.windows.length).sum

/-- TIDE_LOAD (R309, R318). -/
def execTideLoad (iss : Issuer) (handle rsv : BitVec 16) (met : List BlockErr) (s : State) : Out :=
  .next <| hostCmd (.tideLoad iss handle rsv met) (fun i s =>
    withObject i handle 0 3 (fun _ => true) [] [rsvOk rsv 2] s.timeFailed s fun o =>
      if s.tide.commit.isSome then (.done stBusy 2 [], s)
      else
        consuming handle o met s fun s =>
          match s.tideSet o with
          | .inl f => (badParam 0xFFFF, { s with tide := { s.tide with reason := 7, index := f } })
          | .inr ps =>
            (ok (beBytes 2 ps.length ++ [0, 0] ++ beBytes 4 (windowsIn ps)),
              { s with tide := { s.tide with staged := some ps, spoilt := false } })) s

/-- The bytes of a window under R308. -/
def Window.encode (w : Window) : List Byte :=
  beBytes 4 w.start ++ beBytes 4 w.len ++ beBytes 1 w.gate ++ beBytes 1 (b2n w.causeway + 2 * b2n w.swell) ++
    beBytes 2 w.action ++ beBytes 4 w.bytes

/-- A port record with its windows under R308. -/
def TidePort.encode (t : TidePort) : List Byte :=
  beBytes 2 t.lane ++ beBytes 1 t.k ++ [0] ++ beBytes 2 t.windows.length ++ [0, 0] ++ t.windows.flatMap Window.encode

/-- TIDE_READ (R318). -/
def execTideRead (iss : Issuer) (flags rsv : Byte) (lane : BitVec 16) (s : State) : Out :=
  .next <| hostCmd (.tideRead iss flags rsv lane) (fun i s =>
    let t := if flags.getLsbD 0 then (s.tide.staged.getD []).find? fun t => decide (t.lane = lane.toNat)
      else s.tide.active.find lane.toNat
    guardParams [(decide (flags.toNat < 2), 0), rsvOk rsv 1, (s.configured lane.toNat && t.isSome, 2)] s <|
      match t with
      | some t => answerObject (s.slot i).number t.encode s
      | none => (badParam 2, s)) s

/-- TIDE_COMMIT (R315, R318). -/
def execTideCommit (iss : Issuer) (flags : Byte) (rsv : BitVec 24) (a : BitVec 64) (s : State) : Out :=
  .next <| hostCmd (.tideCommit iss flags rsv a) (fun i s =>
    guardParams [(decide (flags.toNat < 2), 0), rsvOk rsv 1] s <|
      guardUp [fidTime] s <|
        if s.tide.commit.isSome then (.done stBusy 2 [], s)
        else if s.tide.staged.isNone then (badParam 0xFFFF, s)
        else
          let c : Commit := ⟨a.toNat, flags.getLsbD 0, (s.slot i).number, iss.tag, false, [], 0, 0⟩
          (.pend [] .tideCommit, { s with tide := { s.tide with commit := some c } })) s

/-- TIDE_CANCEL (R315, R318). -/
def execTideCancel (iss : Issuer) (s : State) : Out :=
  .next <| hostCmd (.tideCancel iss) (fun _ s =>
    if s.tide.commit.isSome then (.done stBusy 2 [], s)
    else if s.tide.staged.isNone then (badParam 0xFFFF, s)
    else (ok [], { s with tide := { s.tide with staged := none, spoilt := false } })) s

/-! ## The end of the check -/

/-- The tables of an engine share one k (R307). -/
def sameK (ts : List Placed) (e : Nat) : Bool :=
  match (ts.filter fun t => decide (engineOf t.1.lane = e)).map fun t => t.1.k with
  | [] => true
  | k :: ks => ks.all (· = k)

/-- A commit whose tables are all in force (R315). -/
def State.finishCommit (s : State) (c : Commit) : State :=
  let s := s.bump .tideCommits []
  let s := if c.a < c.earliest then s.bump .tideLate [] else s
  s.endCommit ⟨stOk, 0, beBytes 2 c.changed ++ [0, 0] ++ beBytes 8 c.earliest⟩ true

/-- When each table of a set that passed takes effect: the first boundary of its own cycle, of the table it removes where
K is 0. A removal where there is no table changes nothing. -/
def State.boundaries (s : State) (set : List TidePort) (from_ : Nat) : List (TidePort × Nat) :=
  set.filterMap fun t =>
    if t.k ≠ 0 then some (t, nextAt t.k 0 from_)
    else (s.tide.active.find t.lane).map fun old => (t, nextAt old.k 0 from_)

/-- TIDE_CHECK_END (R310 to R315, R480). -/
def execTideCheckEnd (s : State) : Out :=
  .next <|
    match s.tide.commit, s.tide.staged with
    | some c, some set =>
      if c.checked then s
      else if s.tide.spoilt then s.refuseCommit stBadParam 0xFFFF s.tide.reason s.tide.index
      else
        let ts := s.tablesAfter set
        let es := enginesOf ts
        if !(es.all fun e => sameK ts e) then s.refuseCommit stBadParam 0xFFFF 7 wholeFault
        else
          match es.findSome? (s.causewayCheck ts) with
          | some r =>
            if r.status = stRefusedPlan then s.refuseCommit r.status r.detail s.tide.reason s.tide.index
            else s.refuseCommit r.status r.detail 7 r.win.w.pos
          | none =>
            match s.deadline ts with
            | some (pos, reason) => (s.bump .tideRefusals []).refuseCommit stRefusedDeadline pos reason pos
            | none =>
              let now := s.ptpNs
              let a := if c.immediate then now else c.a
              let ws := s.boundaries set (max a now)
              let earliest := match ws with
                | [] => a
                | w :: rest => rest.foldl (fun m x => min m x.2) w.2
              let c : Commit := { c with a := a, checked := true, waiting := ws, earliest := earliest, changed := ws.length }
              if ws.isEmpty then s.finishCommit c else { s with tide := { s.tide with commit := some c } }
    | _, _ => s

/-! ## Activation -/

/-- The circuits of the circuit table in force on an engine. -/
def State.circuitsOn (s : State) (e : Nat) : List Nat :=
  ((s.csw.paths.filter fun p => decide (p.1 / 128 = e) && !p.2.direct).map fun p => p.2.circuit).eraseDups

/-- An engine moves to the circuits of its tables for this offset, as one change (R482); a direct circuit is none of them. While the
engine is in reset or seeks, it waits for READY (R502). -/
def State.settleEngine (s : State) (e at_ : Nat) : State :=
  if s.fnDown (fidOe e) ∨ !(s.oe e).ready then s
  else
  let ts := s.tablesNow
  let acts := (engineWins ts e).filter fun x => x.w.causeway
  let want := circuitsAt acts (at_ % engineCycle ts e)
  let have_ := s.circuitsOn e
  let set := (want.filter fun i => !have_.contains i).flatMap s.schedPaths
  let clear := (s.csw.paths.filter fun p =>
    decide (p.1 / 128 = e) && (p.2.direct || !want.contains p.2.circuit)).map (·.1)
  if set.isEmpty ∧ clear.isEmpty then s
  else
    let s := s.startChange e set clear
    let s : State := { s with csw := { s.csw with last := s.csw.last.put e at_ } }
    (set.flatMap fun p => [p.1, p.1 / 128 * 128 + 8 * p.2.src + p.1 % 8]).foldl State.divertLane s

/-- TIDE_ACTIVATION (R315, R482): a table of the commit takes effect on its port. -/
def execTideActivation (port : Lane) (s : State) : Out :=
  .next <|
    let p := port.val
    match s.tide.commit with
    | none => s
    | some c =>
      match c.waiting.find? fun w => decide (w.1.lane = p) with
      | none => s
      | some (t, at_) =>
        let s := s.advancePtp at_
        let left := c.waiting.filter fun w => decide (w.1.lane ≠ p)
        let c : Commit := { c with waiting := left }
        let active := if t.k = 0 then s.tide.active.del p else s.tide.active.put p t
        let s : State := { s with tide := { s.tide with active := active, commit := some c } }
        let s := if left.any fun w => decide (w.2 = at_ ∧ engineOf w.1.lane = engineOf p) then s
          else s.settleEngine (engineOf p) at_
        if left.isEmpty then s.finishCommit c else s

end Sys2Proof.Machine
end

