-- ==== Sys2Proof/Machine/Optics.lean ====
section
/-! DEFINITION. The optical engines: rings and their pilot checks (R444 to R452), shutters (R453 to R456), lanes and their
error windows (R457 to R459, R588, R589), laser inputs (R465), engine resets (R460) and the commands of R462 to R464. -/

namespace Sys2Proof.Machine

/-! ## Lanes follow rings, shutters and lasers (R457) -/

/-- A ring changes; its lane follows. FEC lock is lost where a receive ring ceases to be VERIFIED, and its error window asks for
no budget (R465). -/
def State.moveRing (s : State) (e r : Nat) (g : RingSt → RingSt) : State :=
  let s := s.setRing e r fun x => let y := g x; { y with lapsed := y.lapsed || decide ((x.st = .verified ∧ y.st ≠ .verified) ∨ (x.st ≠ .lost ∧ y.st = .lost)) }
  let l := laneOfRing e r
  let s := if dirOfRing r = .rx ∧ (s.ring e r).st ≠ .verified then s.setLane l fun x => { x with fecLock := false } else s
  s.followLane l (dirOfRing r)

/-! ## Seeks (R452) -/

/-- The fibre of a ring. -/
def fibreOfRing (e r : Nat) : Nat := 16 * e + r % 128 / 8

/-- The receive ring of a diverted lane keeps its state and its heater: its loop and its check are suspended (R478). -/
def State.suspended (s : State) (e r : Nat) : Bool := decide (dirOfRing r = .rx) && (s.lane (laneOfRing e r)).diverted

/-- The ring has light to seek on: laser light on transmit, the fibre's on receive, but for a suspended ring. -/
def State.canSeek (s : State) (e r : Nat) : Bool :=
  match dirOfRing r with
  | .tx => s.laserOk (fibreOfRing e r)
  | .rx => s.light (fibreOfRing e r) && !s.suspended e r

/-- The tone that the plan of an engine assigns to a wavelength (R449, R468). -/
def State.tone (s : State) (e w : Nat) : Nat := s.regBits .oePilot [e] (3 * w + 2) (3 * w)

/-- A pilot window that starts now: its end, and the tone that the plan in force gives the wavelength (R450, R464). -/
def State.windowFrom (s : State) (e w : Nat) : Nat × Nat := (s.now + 1000000, s.tone e w)

/-- The pilot check of a ring starts anew. -/
def State.restartWindow (s : State) (e r : Nat) : State :=
  let win := s.windowFrom e (r % 8)
  s.setRing e r fun x => { x with window := win }

/-- A seek of the ring is under way. -/
def RingSt.seeking (x : RingSt) : Bool := decide (x.st = .seeking) || (decide (x.st = .locked) && x.sweep)

/-- The next ring of a bus starts its seek, where none of the bus is seeking: buses are the runs of eight rings. -/
def State.nextSeek (s : State) (e bus : Nat) : State :=
  let rs := rangeFrom (8 * bus) 8
  if s.fnDown (fidOe e) ∨ rs.any (fun r => (s.ring e r).seeking && !s.suspended e r) then s
  else
    match rs.find? fun r => (s.ring e r).want && s.canSeek e r with
    | none => s
    | some r =>
      let at_ := s.now
      (s.bump .oeReseeks [e]).moveRing e r fun x =>
        { x with st := .seeking, sweep := true, want := false, retry := false, heater := 0, fails := 0, at_ := at_, paused := false }

/-- A ring that has not ended the seek it is due (R467). -/
def State.unsettled (s : State) (e r : Nat) : Bool :=
  ((s.ring e r).seeking || (s.ring e r).want) && s.canSeek e r

/-- The ring has its first seek still to end: a transmit ring waits for its laser too. -/
def State.unsought (s : State) (e r : Nat) : Bool := s.unsettled e r || (decide (dirOfRing r = .tx) && (s.ring e r).want)

/-- READY rises once the first seek has ended, and the circuits of the replay are set (R467, R502). -/
def State.judgeReady (s : State) (e : Nat) : State :=
  if (s.oe e).ready ∨ s.fnDown (fidOe e) ∨ (s.boot.phase ≠ .done) ∨ (List.range 256).any (s.unsought e) then s
  else (s.setOe e fun x => { x with ready := true }).settleEngine e s.ptpNs

/-- The buses of an engine go on, and READY is judged. -/
def State.seekOn (s : State) (e : Nat) (buses : List Nat) : State :=
  (buses.foldl (fun s b => s.nextSeek e b) s).judgeReady e

/-- The bus of a ring goes on. -/
def State.seekBus (s : State) (e r : Nat) : State := s.seekOn e [r / 8]

/-- A ring parked, to seek when its turn comes. What its error windows hold against its lane stays (R459). -/
def RingSt.park (x : RingSt) (want : Bool) : RingSt :=
  { x with st := .parked, sweep := false, want := want, retry := false, heater := 0, fails := 0, caught := false, at_ := 0,
           paused := false, clean := 0 }

/-- What an event says of a ring: fibre, direction and wavelength. -/
def ringData (e r : Nat) : List Byte := beBytes 1 (fibreOfRing e r) ++ beBytes 1 (r / 128) ++ beBytes 1 (r % 8)

/-- A ring enters LOCKED at a heater code, and its pilot check starts (R450). -/
def State.lockRing (s : State) (e r : Nat) (sweep : Bool) (code : Nat) : State :=
  let win := s.windowFrom e (r % 8)
  s.moveRing e r fun x => { x with st := .locked, sweep := sweep, heater := code, fails := 0, window := win }

/-- SEEK_RESONANCE (R452): the sweep meets a resonance at a code that still lies ahead, when it gets there. -/
def execSeekResonance (e : Engine) (r : RingIx) (code : BitVec 12) (s : State) : Out :=
  .next <|
    let x := s.ring e r
    if x.st = .seeking ∧ s.canSeek e r ∧ x.heater ≤ code.toNat then
      (s.advanceTo (x.sweepAt code.toNat)).lockRing e r true code.toNat
    else s

/-- SEEK_SWEEP_END (R452): the sweep reaches code 4,095. -/
def execSeekSweepEnd (e : Engine) (r : RingIx) (s : State) : Out :=
  .next <|
    let x := s.ring e r
    if x.st = .seeking ∧ s.canSeek e r then
      let s := s.advanceTo (x.sweepAt 4095)
      let due := s.now + 100000000
      let s := s.moveRing e r fun x => { x.park false with retry := true, at_ := due }
      (s.raiseEv 0x8002 2 (fidOe e) (ringData e r)).seekBus e r
    else s

/-- SEEK_RETRY_EXPIRY (R452). -/
def execSeekRetryExpiry (e : Engine) (r : RingIx) (s : State) : Out :=
  .next <|
    let x := s.ring e r
    if x.retry ∧ x.st = .parked ∧ !s.suspended e r then
      ((s.advanceTo x.at_).setRing e r fun x => { x with retry := false, want := true }).seekBus e r
    else s

/-- COOLDOWN_EXPIRY (R451). -/
def execCooldownExpiry (e : Engine) (r : RingIx) (s : State) : Out :=
  .next <|
    let x := s.ring e r
    if x.st = .wrong ∧ !s.suspended e r then ((s.advanceTo x.at_).moveRing e r fun x => x.park true).seekBus e r else s

/-! ## Lock (R446, R448) -/

/-- RING_LOCK_ACQUIRE (R446). -/
def execRingLockAcquire (e : Engine) (r : RingIx) (s : State) : Out :=
  .next <|
    let x := s.ring e r
    if x.st = .lost ∧ x.caught ∧ !s.suspended e r then s.lockRing e r false x.heater
    else if x.st = .seeking ∧ s.canSeek e r then s.lockRing e r true (x.heaterAt s.now)
    else s

/-- Event PATH_CHANGE, on leaving OPEN (R486). -/
def State.pathEvent (s : State) (k : Nat) (was : PathState) : State :=
  match s.csw.paths.find k with
  | none => s
  | some p =>
    if was = .opened ∧ p.st ≠ .opened then
      s.raiseEv 0x0E01 2 (fidOe (k / 128)) (beBytes 1 (k / 128) ++ beBytes 1 (k % 128 / 8) ++ beBytes 1 (k % 8) ++
        beBytes 1 p.st.code ++ beBytes 1 p.found)
    else s

/-- A path changes, with its event. -/
def State.movePath (s : State) (k : Nat) (g : CswPath → CswPath) : State :=
  match s.csw.paths.find k with
  | none => s
  | some p => ({ s with csw := { s.csw with paths := s.csw.paths.put k (g p) } } : State).pathEvent k p.st

/-- A data ring loses its lock (R446, R448). -/
def State.loseRing (s : State) (e r : Nat) : State :=
  let x := s.ring e r
  if (x.st = .locked ∨ x.st = .verified) ∧ !s.suspended e r then
    ((s.bump .oeLockLosses [e]).moveRing e r fun x =>
      { x with st := .lost, sweep := false, fails := 0, caught := false, at_ := 0 }).seekBus e r
  else s

/-- RING_LOCK_LOSS (R446, R485). -/
def execRingLockLoss (target : PilotTarget) (s : State) : Out :=
  .next <|
    match target with
    | .ring e r => s.loseRing e r
    | .path e p =>
      let k := 128 * e.val + p.val
      match s.csw.paths.find k with
      | some x =>
        if x.st = .opened then (s.bump .cswLockFaults []).movePath k fun y => { y with st := .faulted, fails := 0 } else s
      | none => s

/-- RELOCK_START (R448): once the sensors show a slew below 4 °C/ms, the heater stands at the value that feedforward predicts,
which is the code at the loss with what feedforward has applied since (DEDUCED). `captured` is the code of the nearest
resonance, taken where it lies within ±200 GHz: 204 codes of 0.9765625 GHz. -/
def execRelockStart (e : Engine) (r : RingIx) (captured : Option (BitVec 12)) (s : State) : Out :=
  .next <|
    let x := s.ring e r
    if x.st = .lost ∧ !(s.oe e).steep ∧ !s.suspended e r then
      let got := captured.filter fun c => decide (((c.toNat : Int) - x.heater).natAbs ≤ 204)
      let due := if x.at_ = 0 then s.now + 500000 else x.at_
      s.setRing e r fun y => { y with heater := (got.map (·.toNat)).getD y.heater, caught := got.isSome, at_ := due }
    else s

/-- CAPTURE_TIMEOUT (R448). -/
def execCaptureTimeout (e : Engine) (r : RingIx) (s : State) : Out :=
  .next <|
    let x := s.ring e r
    if x.st = .lost ∧ !x.caught ∧ x.at_ ≠ 0 ∧ !s.suspended e r then
      ((s.advanceTo x.at_).moveRing e r fun x => x.park true).seekBus e r
    else s

/-! ## Pilot windows (R450, R451, R485) -/

/-- The depth of a tone in a window. -/
def toneDepth (win : PilotWindow) (t : Nat) : Nat := (win.depths.getD t 0).toNat

/-- The dominant tone of a window: the deepest, and the lowest of equals (DESIGN CHOICE). -/
def dominant (win : PilotWindow) : Nat :=
  (rangeFrom 1 7).foldl (fun b t => if toneDepth win b < toneDepth win t then t else b) 0

/-- The dominant tone meets both conditions of R450: a depth of 0.5% or more, and four times that of every other tone. -/
def clearWin (win : PilotWindow) : Bool :=
  let d := dominant win
  decide (50 ≤ toneDepth win d) && (List.range 8).all fun t => decide (t = d ∨ 4 * toneDepth win t ≤ toneDepth win d)

/-- A window confirms the tone that was assigned as it started. -/
def confirms (win : PilotWindow) (tone : Nat) : Bool := clearWin win && decide (dominant win = tone)

/-- A ring becomes WRONG (R451). -/
def State.wrongRing (s : State) (e r tone : Nat) : State :=
  let due := s.now + 200000
  let s := (s.bump .oeWrongLocks [e]).moveRing e r fun x =>
    { x with st := .wrong, sweep := false, heater := 0, fails := 0, at_ := due }
  s.raiseEv 0x8001 2 (fidOe e) (ringData e r ++ beBytes 1 tone)

/-- The outcome of a data ring's window, at its end. -/
def State.judgeRing (s : State) (e r : Nat) (win : PilotWindow) (x : RingSt) : State :=
  let next := s.windowFrom e (r % 8)
  let found (y : RingSt) : RingSt := { y with found := dominant win, window := next }
  let at_ := s.now
  match x.st with
  | .locked =>
    if confirms win x.window.2 then
      (s.moveRing e r fun y => { found y with st := .verified, sweep := false, fails := 0 }).seekBus e r
    else if clearWin win then
      if x.sweep then s.moveRing e r fun y => { found y with st := .seeking, at_ := at_, paused := !s.canSeek e r }
      else (s.setRing e r found).wrongRing e r (dominant win)
    else s.setRing e r found
  | .verified =>
    if confirms win x.window.2 then s.setRing e r fun y => { found y with fails := 0 }
    else if x.fails = 0 then s.setRing e r fun y => { found y with fails := 1 }
    else s.moveRing e r fun y => { found y with st := .locked, sweep := false, fails := 0 }
  | _ => s

/-- The window of a data ring ends; the next one starts with the plan then in force (R450, R464). -/
def State.ringWindow (s : State) (e r : Nat) (win : PilotWindow) : State :=
  let x := s.ring e r
  if s.suspended e r ∨ (x.st ≠ .locked ∧ x.st ≠ .verified) then s
  else (s.advanceTo x.window.1).judgeRing e r win x

/-- The outcome of a path's window, at its end (R485, R486). -/
def State.judgePath (s : State) (k : Nat) (win : PilotWindow) (p : CswPath) : State :=
  let next := s.windowFrom (k / 128) (k % 8)
  let found (y : CswPath) : CswPath := { y with found := dominant win, window := next }
  match p.st with
  | .opened =>
    if confirms win p.window.2 then s.movePath k fun y => { found y with fails := 0 }
    else if clearWin win then (s.bump .cswPilotFaults []).movePath k fun y => { found y with st := .faulted, fails := 0 }
    else if p.fails = 0 then s.movePath k fun y => { found y with fails := 1 }
    else s.movePath k fun y => { found y with st := .waitPilot, fails := 0 }
  | .waitPilot =>
    if confirms win p.window.2 then s.movePath k fun y => { found y with st := .opened, fails := 0 } else s.movePath k found
  | _ => s

/-- The window of a path ends (R485). -/
def State.pathWindow (s : State) (k : Nat) (win : PilotWindow) : State :=
  match s.csw.paths.find k with
  | none => s
  | some p =>
    if p.st ≠ .opened ∧ p.st ≠ .waitPilot then s else (s.advanceTo p.window.1).judgePath k win p

/-- PILOT_WINDOW_END (R450, R485). -/
def execPilotWindowEnd (target : PilotTarget) (window : PilotWindow) (s : State) : Out :=
  .next <|
    match target with
    | .ring e r => s.ringWindow e r window
    | .path e p => s.pathWindow (128 * e.val + p.val) window

/-! ## Feedforward (R447, R467) -/

/-- A 16-bit field as a signed number. -/
def signed16 (n : Nat) : Int := if n % 65536 < 32768 then (n % 65536 : Nat) else ((n % 65536 : Nat) : Int) - 65536

/-- Above 90 °C, in 1/16 °C. -/
def hotSensor (t : Nat) : Bool := decide (1440 < signed16 t)

/-- The rise that a forecast gives at a moment: a ramp from its onset at its slew. -/
def Forecast.riseAt (f : Forecast) (t : Nat) : Nat :=
  if t < f.onset then 0 else if f.slew = 0 then f.rise else min f.rise (f.slew * (t - f.onset) / 1000000)

/-- The temperatures that feedforward is to cancel: the forecast's ramp from its onset to its end, and otherwise what the
sensors read (R447). -/
def EngineSt.targets (x : EngineSt) (now : Nat) : List Int :=
  match x.forecast with
  | some f => if f.spent ∨ now < f.onset then x.temps.map signed16 else f.base.map fun b => b + (f.riseAt now : Int)
  | none => x.temps.map signed16

/-- A ring that feedforward moves: its heater holds a resonance, or is to find it again (R447, R448). -/
def RingSt.tracked (x : RingSt) : Bool := decide (x.st = .locked ∨ x.st = .verified ∨ x.st = .lost)

/-- Feedforward goes to new temperatures: each heater's drive goes down by the ring's coefficients times the rise, and the
codes that routing rings remember with it (R447, R474). -/
def State.feed (s : State) (e : Nat) (before after : List Int) : State :=
  let move (r code : Nat) : Nat := clampCode ((code : Int) - (s.ffShift e r after - s.ffShift e r before))
  let s := (List.range 256).foldl (init := s) fun s r =>
    if (s.ring e r).tracked then s.setRing e r fun x => { x with heater := move r x.heater } else s
  let s := s.setOe e fun x => { x with routing := x.routing.mapIdx fun i c => move (256 + i) c }
  { s with csw := { s.csw with heaters := s.csw.heaters.map fun h =>
      if h.1 / 2304 = e then (h.1, move (256 + h.1 % 2304) h.2) else h } }

/-- The heaters follow the sensors and the forecast while FF_EN is 1; a forecast that has reached its rise is spent. The first
sample after a reset is where feedforward starts from. -/
def State.feedforward (s : State) (e : Nat) : State :=
  let x := s.oe e
  let read := x.temps.map signed16
  let now := s.now
  let done (f : Forecast) : Forecast := { f with spent := f.spent || decide (f.onset ≤ now ∧ f.rise ≤ f.riseAt now) }
  match x.applied with
  | none => s.setOe e fun x => { x with applied := some read }
  | some old =>
    if s.regBits .oeConfig [e] 16 16 = 1 then
      (s.feed e old (x.targets now)).setOe e fun x => { x with applied := some (x.targets now), forecast := x.forecast.map done }
    else s.setOe e fun x => { x with applied := some read }

/-- FEEDFORWARD_SAMPLE (R447), every 10 µs: the sensors are read and the heaters follow; `loop` gives the codes to which lock
loops have brought their heaters since. An alarm is raised on entry. A sensor that moves by one unit of 1/16 °C from a
sample to the next shows 4 °C/ms or more. -/
def execFeedforwardSample (e : Engine) (temps : List (BitVec 16)) (loop : List (RingIx × BitVec 12)) (s : State) : Out :=
  .next <|
    if s.fnDown (fidOe e) ∨ s.boot.phase ≠ .done then s
    else
      let s := s.every .feedforward e 10000
      let old := (s.oe e).temps
      let new := (List.range 4).map fun i => match temps[i]? with
        | some t => t.toNat
        | none => old.getD i 0
      let fresh := (List.range 4).filter fun i => hotSensor (new.getD i 0) && !hotSensor (old.getD i 0)
      let steep := (s.oe e).applied.isSome && (List.range 4).any fun i => decide (new.getD i 0 ≠ old.getD i 0)
      let s := s.setOe e fun x => { x with temps := new, steep := steep }
      let s := fresh.foldl (fun s i => s.raiseEv 0x8004 3 (fidOe e) (beBytes 1 i ++ beBytes 2 (new.getD i 0))) s
      loop.foldl (init := s.feedforward e) fun s a =>
        if ((s.ring e a.1).st = .locked ∨ (s.ring e a.1).st = .verified) ∧ !s.suspended e a.1 then
          s.setRing e a.1 fun x => { x with heater := a.2.toNat }
        else s

/-! ## Routing rings (R474) -/

/-- Every routing ring of an engine seeks on laser light and is verified against its tones, once a laser input is good: where the
resonances lie is the world's (free codes). DESIGN CHOICE: no row tells of one routing ring, so they end together (log entry
51). -/
def State.verifyRouting (s : State) (e : Nat) : State :=
  let x := s.oe e
  if (x.laserA || x.laserB) && x.routing.isEmpty then
    let n := s.free
    ({ s with free := s.free + 1 } : State).setOe e fun x =>
      { x with routing := (List.range 2304).map fun i => (Config.routingCode n (4096 * e + 256 + i)).toNat }
  else s

/-- The heater code that a routing ring remembers, which feedforward keeps current. -/
def State.routeCode (s : State) (e i : Nat) : Nat := (s.oe e).routing.getD i 0

/-! ## Shutters (R453 to R456) -/

/-- The paths that take their light from a lane go DARK with it (R485, R486). -/
def State.darken (s : State) (l : Nat) : State :=
  ((s.csw.paths.filter fun p => decide (p.1 / 128 * 128 + 8 * p.2.src + p.1 % 8 = l ∧ p.2.st = .opened)).map (·.1)).foldl
    (init := s) fun s k => (s.bump .cswLightLosses []).movePath k fun y => { y with st := .dark, fails := 0 }

/-- Every fibre of an engine is dark, as without its fibre attach unit. -/
def State.engineDark (s : State) (e : Nat) : Bool := (rangeFrom (16 * e) 16).all fun f => !s.light f

/-- An input that was present in an instance under way has lost its light: its cells carry INEXACT (R502). Where no fibre of the
engine has light any longer, the inputs are absent (R628). DESIGN CHOICE: of a fibre attach unit only its light shows (log entry
51). -/
def State.dimInput (s : State) (l : Nat) : State :=
  let k := engineOf l * 8 + lambdaOf l
  match s.swl.insts.find k with
  | none => s
  | some i =>
    if !i.lanes.contains l ∨ s.csw.diverts.getD l .pass ≠ .sum then s
    else
      let none_ := s.engineDark (engineOf l)
      let i' : SwlInst := { i with dark := i.dark || i.present.contains l, present := if none_ then [] else i.present }
      ({ s with swl := { s.swl with insts := s.swl.insts.put k i' } } : State).bumpBy .swlAbsent []
        (i.present.length - i'.present.length)

/-- What the loss of the light of a lane does where it never ends at a port. -/
def State.dimLane (s : State) (l : Nat) : State := (s.darken l).dimInput l

/-- A shutter changes; its lanes follow. OVER_BUDGET clears with the lane (R465). -/
def State.moveEye (s : State) (f : Nat) (g : EyeSt → EyeSt) : State :=
  let s := s.setEye f fun y => { g y with drive := s.driveFor f (g y).st }
  let s := if (s.eye f).st = .opened then s
    else (rangeFrom (8 * f) 8).foldl (init := s) fun s l =>
      s.setRing (engineOf l) (ringOf l .rx) fun x => { x with overBudget := false }
  s.followFibre f

/-- The sweeps of a fibre's receive bus pause where they stand (R465). -/
def State.pauseSweeps (s : State) (f : Nat) : State := (rangeFrom (8 * f) 8).foldl State.pauseSweep s

/-- And go on from there. -/
def State.resumeSweeps (s : State) (f : Nat) : State := (rangeFrom (8 * f) 8).foldl State.resumeSweep s

/-- The ports of a fibre that are not formed follow its light (R131). -/
def State.settleLight (s : State) (f : Nat) : State :=
  (s.portsOf f).foldl (fun s p => if (s.port p).st.formed then s else s.settlePort p) s

/-- The light of a fibre has gone or a back-reflection stands, for 100 µs (R453, R454, R485). -/
def State.loseLight (s : State) (f : Fibre) (backReflection : Bool) : State :=
    let x := s.eye f
    let light := x.light && backReflection
    let s := s.setEye f fun y => { y with light := light, refl := backReflection }
    let s := if light then s else
      (rangeFrom (8 * f.val) 8).foldl (init := s) fun s l =>
        (s.setLane l fun y => { y with fecLock := false }).followLane l .rx
    let s := if light then s else s.pauseSweeps f
    let due := s.now + s.regBits .oeConfig [f.val / 16] 15 8 * 1000000
    let s := match x.st with
      | .opened =>
        let s := (s.bump .oeEyeClosures [f.val / 16]).moveEye f fun y => { y with st := .closed, probeAt := due }
        s.raiseEv 0x8003 1 (fidOe (f.val / 16)) (beBytes 1 f.val ++ beBytes 1 (b2n backReflection))
      | .probing => if light then s else s.moveEye f fun y => { y with st := .closed, probeAt := due }
      | _ => s
    if light then s
    else ((rangeFrom (8 * f.val) 8).foldl State.dimLane (s.settleLight f)).judgeReady (f.val / 16)

/-- LIGHT_LOSS_DETECT (R453, R454, R485): a fibre's light, or one wavelength of it, which only by-passed and summed light shows. -/
def execLightLossDetect (target : LossTarget) (s : State) : Out :=
  .next <|
    match target with
    | .fibre f back => if s.boot.phase = .reset then s else s.loseLight f back
    | .lane l => s.dimLane l.val

/-- PROBE_BURST (R453): a CLOSED fibre sends its burst, a free delay of 0 to 2 ms after the moment at which it was due; the
next one is due a period later. -/
def execProbeBurst (f : Fibre) (s : State) : Out :=
  .next <|
    if (s.eye f).st = .closed then
      let (v, s) := s.drawFree
      let s := s.advanceTo ((s.eye f).probeAt + v.toNat % 2000001)
      let due := s.now + s.regBits .oeConfig [f.val / 16] 15 8 * 1000000
      let s := s.setEye f fun y => { y with probeAt := due }
      { s with fibreTx := s.fibreTx ++ [.probe f.val] }
    else s

/-- LIGHT_PRESENT (R453, R485). -/
def execLightPresent (target : LightTarget) (s : State) : Out :=
  .next <|
    if s.boot.phase = .reset then s else
    match target with
    | .fibre f =>
      let at_ := s.now
      let s := s.setEye f fun y => { y with light := true, refl := false, lightAt := at_ }
      let s := if (s.eye f).st = .closed then s.moveEye f fun y => { y with st := .probing } else s
      ((s.settleLight f).resumeSweeps f).seekOn (f.val / 16) [16 + f.val % 16]
    | .path e p =>
      let k := 128 * e.val + p.val
      match s.csw.paths.find k with
      | some x => if x.st = .dark then s.movePath k fun y => { y with st := .switching, relit := true } else s
      | none => s

/-- OPEN_DWELL_EXPIRY (R453). -/
def execOpenDwellExpiry (f : Fibre) (s : State) : Out :=
  .next <|
    let x := s.eye f
    if x.st = .probing ∧ x.light then
      (s.advanceTo (x.lightAt + s.regBits .oeConfig [f.val / 16] 7 0 * 1000000)).moveEye f fun y => { y with st := .opened }
    else s

/-- A reason to hold a fibre comes or goes (R453, R509, R514): HELD while one stands, then CLOSED. -/
def State.holdEye (s : State) (f : Nat) (why : HoldWhy) (on : Bool) : State :=
  let holds := (s.eye f).holds.filter fun h => decide (h ≠ why)
  let due := s.now + s.regBits .oeConfig [f / 16] 15 8 * 1000000
  if on then s.moveEye f fun y => { y with st := .held, holds := why :: holds }
  else if (s.eye f).st ≠ .held then s
  else if holds.isEmpty then s.moveEye f fun y => { y with st := .closed, holds := [], probeAt := due }
  else s.setEye f fun y => { y with holds := holds }

/-! ## Laser inputs (R465) -/

/-- The transmit rings that a laser input lights. -/
def laserRings (b : Bool) : List Nat := if b then rangeFrom 64 64 else rangeFrom 0 64

/-- LASER_INPUT_FAIL (R465). -/
def execLaserInputFail (e : Engine) (b : Bool) (s : State) : Out :=
  .next <|
    let s := s.setOe e fun x => if b then { x with laserB := false } else { x with laserA := false }
    ((laserRings b).foldl (fun s r => s.moveRing e r fun x => x.park false) s).judgeReady e

/-- LASER_INPUT_GOOD_EXPIRY (R465): its input has been good for 10 ms. -/
def execLaserInputGoodExpiry (e : Engine) (b : Bool) (s : State) : Out :=
  .next <|
    let was := if b then (s.oe e).laserB else (s.oe e).laserA
    let good (s : State) : State := s.setOe e fun x => if b then { x with laserB := true } else { x with laserA := true }
    if was ∨ s.boot.phase = .reset then s
    else if s.fnDown (fidOe e) then good s
    else
      let s := (good s).verifyRouting e
      let s := (laserRings b).foldl (init := s) fun s r =>
        if (s.ring e r).st = .parked then s.setRing e r fun x => { x with want := true, retry := false } else s
      s.seekOn e (if b then rangeFrom 8 8 else rangeFrom 0 8)

/-! ## Error windows (R458, R459, R588, R589) -/

/-- When the next unit falls due at the RATE in force. -/
def State.unitDue (s : State) : Nat := s.tel.unitDue (s.regBits .telQuar [] 7 0)

/-- The units that have fallen due by now join the bucket, up to BURST; `fuel` bounds their number (R588). -/
def State.takeDue (s : State) : Nat → State
  | 0 => s
  | fuel + 1 =>
    if s.tel.tokens < s.regBits .telQuar [] 15 8 ∧ s.unitDue ≤ s.now then
      State.takeDue { s with tel := { s.tel with tokens := s.tel.tokens + 1, unitNo := s.tel.unitNo + 1 } } fuel
    else s

/-- A unit of the quarantine budget asked for: one that has fallen due is available (R588). -/
def State.askUnit (s : State) : Bool × State :=
  let s := if s.fnDown fidTel then s else s.takeDue 255
  if s.fnDown fidTel ∨ s.tel.tokens = 0 then (false, s.bump .telQuarRefusals [])
  else
    let now := s.now
    let t := if s.regBits .telQuar [] 15 8 ≤ s.tel.tokens then { s.tel with unitFrom := now, unitNo := 1 } else s.tel
    (true, ({ s with tel := { t with tokens := t.tokens - 1 } } : State).bump .telQuarGrants [])

/-- QUARANTINE_UNIT_DUE (R588). -/
def execQuarantineUnitDue (s : State) : Out :=
  .next <|
    let burst := s.regBits .telQuar [] 15 8
    if s.tel.tokens < burst ∧ !s.fnDown fidTel then
      let s := s.advanceTo s.unitDue
      { s with tel := { s.tel with tokens := s.tel.tokens + 1, unitNo := s.tel.unitNo + 1 } }
    else s

/-- The codewords of a window of so many 100 µs, at 25.6 ns each (R458). -/
def codewordsIn (window : Nat) : Nat := window * 1000000 / 256

/-- A window crosses the error threshold of its engine (R458). -/
def State.crosses (s : State) (e uncorr corrected : Nat) : Bool :=
  let cfg (hi lo : Nat) : Nat := s.regBits .oeErrConfig [e] hi lo
  decide (cfg 15 8 ≤ uncorr) || decide (cfg 23 16 * codewordsIn (cfg 7 0) < 16 * corrected)

/-- A window counts toward the return of a dropped lane (R459). -/
def State.cleanWindow (s : State) (e uncorr corrected : Nat) : Bool :=
  let cfg (hi lo : Nat) : Nat := s.regBits .oeErrConfig [e] hi lo
  decide (uncorr = 0) && decide (16 * corrected ≤ cfg 31 24 * codewordsIn (cfg 7 0))

/-- What a window that has ended does to its lane (R458, R459, R588, R589). Where its ring has not stood VERIFIED all through, or
the lane is diverted, no budget is asked (R465) and a run of clean windows is broken. -/
def State.judgeWindow (s : State) (l uncorr corrected : Nat) : State :=
  let e := engineOf l
  let r := ringOf l .rx
  let x := s.ring e r
  let data := beBytes 2 l ++ beBytes 4 (min uncorr (2 ^ 32 - 1)) ++ beBytes 4 (min corrected (2 ^ 32 - 1))
  if x.st ≠ .verified ∨ x.lapsed ∨ (s.lane l).diverted then
    s.setRing e r fun y => { y with clean := 0, overBudget := y.overBudget && s.crosses e uncorr corrected }
  else if x.errDrop then
    let n := if s.cleanWindow e uncorr corrected then x.clean + 1 else 0
    if 10 ≤ n then s.moveRing e r fun y => { y with errDrop := false, clean := 0 } else s.setRing e r fun y => { y with clean := n }
  else if (s.eye (fibreOf l)).st ≠ .opened then s
  else if s.crosses e uncorr corrected then
    match s.askUnit with
    | (true, s) =>
      ((s.bump .oeErrDrops [e]).moveRing e r fun y => { y with errDrop := true, overBudget := false, clean := 0 }).raiseEv
        0x8005 1 (fidOe e) data
    | (false, s) =>
      ((s.bump .oeOverBudget [e]).setRing e r fun y => { y with overBudget := true }).raiseEv 0x8006 1 (fidOe e) data
  else s.setRing e r fun y => { y with overBudget := false }

/-- A lane's window ends: its counters rise whatever its ring's state. -/
def State.endWindow (s : State) (l uncorr corrected : Nat) : State :=
  let ix := [tileOf l, slotOf l]
  let s := s.every .errorWindow l (s.regBits .oeErrConfig [engineOf l] 7 0 * 100000)
  let s := ((s.bumpBy .tileLaneFecCorr ix corrected).bumpBy .tileLaneFecUncorr ix uncorr).judgeWindow l uncorr corrected
  s.setRing (engineOf l) (ringOf l .rx) fun y => { y with lapsed := false }

/-- ERROR_WINDOW_END (R458, R459): the windows of some lanes end together, with their uncorrectable codewords and corrected
symbols; their requests are judged in ascending lane number (R589). -/
def execErrorWindowEnd (ends : List (Lane × Nat × Nat)) (s : State) : Out :=
  .next <| (sortBy (fun x => x.1.val) ends).foldl (fun s x => s.endWindow x.1.val x.2.1 x.2.2) s

/-! ## Engine resets (R460, R502) -/

/-- The commands that change direct circuits on an engine reply, once no change runs there: the paths set, and how many of
them are OPEN (R501). -/
def State.endCircuits (s : State) (e : Nat) : State :=
  s.endRunning fun j =>
    match j with
    | .cswCircuit e' ps =>
      let opened := ps.filter fun k => ((s.csw.paths.find k).map CswPath.st) = some .opened
      if e' = e then some ⟨stOk, 0, beBytes 1 ps.length ++ beBytes 1 opened.length ++ [0, 0]⟩ else none
    | _ => none

/-- An engine enters function reset: its fibres are HELD, its rings PARKED, its lanes dropped and its paths IDLE; Swell
keeps nothing of it (R499, R500). Its laser inputs are as they are. -/
def State.engineDown (s : State) (e : Nat) : State :=
  let s := (rangeFrom (16 * e) 16).foldl (fun s f => s.holdEye f .reset true) s
  let s := (List.range 256).foldl (fun s r => s.moveRing e r fun _ => RingSt.init) s
  let gone := s.csw.paths.filter fun p => decide (p.1 / 128 = e)
  let csw : Csw := { s.csw with
    paths := s.csw.paths.filter fun p => decide (p.1 / 128 ≠ e)
    changes := s.csw.changes.del e
    heaters := s.csw.heaters.filter fun h => decide (h.1 / 2304 ≠ e)
    diverts := s.csw.diverts.filter fun d => decide (engineOf d.1 ≠ e) }
  let swl : Swl := { s.swl with
    cals := s.swl.cals.del e
    xtalk := s.swl.xtalk.del e
    accrued := s.swl.accrued.filter fun p => decide (p.1 / 8 ≠ e)
    auto := s.swl.auto.filter fun x => decide (x ≠ e)
    insts := s.swl.insts.map fun p => if p.1 / 8 = e then (p.1, { p.2 with lost := true }) else p }
  let s : State := { s with csw := csw, swl := swl }
  let s := (gone.flatMap fun p => [p.1, 128 * e + 8 * p.2.src + p.1 % 8]).foldl State.undivertLane s
  (s.setOe e fun x => { EngineSt.init with laserA := x.laserA, laserB := x.laserB }).endCircuits e

/-- The fibres held for a calibration that has ended, by itself or with its engine's reset: while their link is being
retrained they stay HELD until it serves them (R532). -/
def State.freeCalibration (s : State) (e : Nat) : State :=
  let training := decide ((s.link e).st = .training ∨ (s.link e).st = .agreeing)
  ((rangeFrom (16 * e) 16).filter fun f => (s.eye f).holds.contains .calibration).foldl (init := s) fun s f =>
    (if training then s.holdEye f .width true else s).holdEye f .calibration false

/-- An engine's function reset ends: its fibres leave HELD, but for a reason that stands or under EXTEST (R553), and every
ring seeks (R460). -/
def State.engineUp (s : State) (e : Nat) (laserA laserB : Bool) : State :=
  let s := ((s.setOe e fun _ => { EngineSt.init with laserA := laserA, laserB := laserB }).verifyRouting e).freeCalibration e
  let s := if s.pins.jtag = .extest then s else (rangeFrom (16 * e) 16).foldl (fun s f => s.holdEye f .reset false) s
  let s := (List.range 256).foldl (fun s r => s.setRing e r fun _ => { RingSt.init with want := true }) s
  s.seekOn e (List.range 32)

/-! ## Registers of the engine (R467 to R470) -/

/-- Rings of a direction that are VERIFIED. -/
def State.verified (s : State) (e : Nat) (d : Dir) : Nat :=
  ((match d with
    | .tx => rangeFrom 0 128
    | .rx => rangeFrom 128 128).filter fun r => decide ((s.ring e r).st = RingState.verified)).length

/-- OE_STATUS (R467). -/
def State.oeStatus (s : State) (e : Nat) : Nat :=
  let x := s.oe e
  let seeking := x.cal.isSome || (List.range 256).any fun r => (s.ring e r).seeking
  b2n x.ready * 2 ^ 31 + b2n x.laserA * 2 ^ 30 + b2n x.laserB * 2 ^ 29 + b2n seeking * 2 ^ 28 +
    b2n (x.temps.any hotSensor) * 2 ^ 27 + s.verified e .tx * 256 + s.verified e .rx

/-- OE_FIBRE (R469). -/
def State.oeFibre (s : State) (f : Nat) : Nat :=
  let x := s.eye f
  let mask (p : LaneSt → Bool) : Nat :=
    (((rangeFrom (8 * f) 8).filter fun l => p (s.lane l)).map fun l => 2 ^ lambdaOf l).sum
  x.st.code * 2 ^ 29 + b2n x.light * 2 ^ 28 + b2n x.refl * 2 ^ 27 + mask (·.ok .tx) * 256 + mask (·.ok .rx)

/-- OE_RING (R470). -/
def RingSt.encode (x : RingSt) (now : Nat) : Nat :=
  x.st.code * 2 ^ 29 + x.found % 8 * 2 ^ 26 + b2n x.overBudget * 2 ^ 25 + b2n x.errDrop * 2 ^ 24 + x.heaterAt now % 4096

/-! ## Commands (R462 to R464) -/

/-- OE_STATUS (R463). -/
def execOeStatus (iss : Issuer) (engine : Byte) (rsv : BitVec 24) (s : State) : Out :=
  .next <| hostCmd (.oeStatus iss engine rsv) (fun _ s =>
    let e := engine.toNat
    guardParams [(decide (e < 16), 0), rsvOk rsv 1] s <|
      guardUp [fidOe e] s
        (ok (beBytes 4 (s.oeStatus e) ++ (s.oe e).temps.flatMap (beBytes 2) ++
          ((rangeFrom (16 * e) 16).flatMap fun f => beBytes 4 (s.oeFibre f)) ++
          (List.range 256).flatMap fun r => beBytes 4 ((s.ring e r).encode s.now)), s)) s

/-- Some lane of an engine is diverted, or held by a path (R476, R502). -/
def State.byPassed (s : State) (e : Nat) (ls : List Nat) : Bool :=
  (ls.any fun l => (s.lane l).diverted) ||
  s.csw.paths.any fun p => decide (p.1 / 128 = e) && (ls.contains p.1 || ls.contains (128 * e + 8 * p.2.src + p.1 % 8))

/-- OE_CALIBRATE (R462). A FULL calibration holds the fibres and parks the rings; its seek begins with it. -/
def execOeCalibrate (iss : Issuer) (engine kind flags rsv : Byte) (s : State) : Out :=
  .next <| hostCmd (.oeCalibrate iss engine kind flags rsv) (fun _ s =>
    let e := engine.toNat
    guardParams [(decide (e < 16), 0), (decide (kind = 1 ∨ kind = 2), 1), (decide (flags.toNat < 2), 2), rsvOk rsv 3] s <|
      guardUp [fidOe e] s <|
        let ports := (rangeFrom (16 * e) 16).flatMap s.portsOf
        if kind = 2 ∧ flags = 0 ∧ ports.any s.portUp then (.done stNotDrained (fidOe e) [], s)
        else if kind = 2 ∧ s.byPassed e (rangeFrom (128 * e) 128) then (.done stBusy 2 [], s)
        else if (s.oe e).cal.isSome then (.done stBusy 2 [], s)
        else
          let at_ := s.now
          let s := s.setOe e fun x => { x with cal := some (kind.toNat, at_) }
          let s :=
            if kind = 2 then
              let s := (rangeFrom (16 * e) 16).foldl (fun s f => s.holdEye f .calibration true) s
              ((List.range 256).foldl (fun s r => s.moveRing e r fun x => x.park true) s).seekOn e (List.range 32)
            else s
          (.pend [] (.oeCalibrate e kind.toNat), s)) s

/-- What a calibration refines: kind 1 the coefficients of the rings whose fit has a residual below 20 GHz, kind 2 the rest
(R461, R462). -/
def Refined.take (x : Refined) (kind : Nat) (r : CalReport) : Refined :=
  if kind = 1 then
    { x with coeffs := (r.fits.filter fun f => decide (f.2.2 < 20)).foldl (fun m f => m.put f.1.val f.2.1) x.coeffs }
  else
    { x with
      cold := r.cold.foldl (fun m c => m.put c.1.val c.2.toNat) x.cold
      darks := r.darks.foldl (fun m c => m.put c.1.val c.2.toNat) x.darks
      drives := r.drives.foldl (fun m c => m.put c.1.val (c.2.1.toNat, c.2.2.toNat)) x.drives }

/-- A calibration no longer runs: the fibres reopen under R453. -/
def State.stopCalibration (s : State) (e kind : Nat) : State :=
  let s := s.setOe e fun x => { x with cal := none }
  if kind = 2 then s.freeCalibration e else s

/-- The end of a calibration, with what it measured, and the results (R463). Kind 1 regresses over 10 s. -/
def State.endCalibration (s : State) (e kind : Nat) (r : CalReport) : Final × State :=
  let start := ((s.oe e).cal.map (·.2)).getD s.now
  let s := if kind = 1 then s.advanceTo (start + 10000000000) else s
  let s := s.setOe e fun x => { x with refined := x.refined.take kind r }
  let f : Final := ⟨stOk, 0, beBytes 1 (s.verified e .tx) ++ beBytes 1 (s.verified e .rx) ++ [0, 0] ++
    beBytes 4 ((s.now - start) / 1000)⟩
  (f, s.stopCalibration e kind)

/-- RING_RESEEK (R463). -/
def execRingReseek (iss : Issuer) (engine dir fibre mask : Byte) (s : State) : Out :=
  .next <| hostCmd (.ringReseek iss engine dir fibre mask) (fun _ s =>
    let e := engine.toNat
    guardParams [(decide (e < 16), 0), (decide (dir.toNat < 2), 1), (decide (fibre.toNat < 16), 2), (decide (mask ≠ 0), 3)]
        s <|
      guardUp [fidOe e] s <|
        let rs := (maskBits 8 mask.toNat).map fun w => 128 * dir.toNat + 8 * fibre.toNat + w
        if s.byPassed e (rs.map (laneOfRing e)) then (.done stBusy 2 [], s)
        else
          let s := rs.foldl (fun s r => s.moveRing e r fun x => x.park true) s
          (.pend [] (.reseek e rs), s.seekOn e [16 * dir.toNat + fibre.toNat])) s

/-- The results of RING_RESEEK. -/
def State.endReseek (s : State) (e : Nat) (rs : List Nat) : Final :=
  let n := (rs.filter fun r => decide ((s.ring e r).st = RingState.verified)).length
  ⟨stOk, 0, beBytes 1 n ++ [0, 0, 0]⟩

/-- The tones of a plan as OE_PILOT holds them. -/
def tonesWord (tones : List Byte) : Word :=
  BitVec.ofNat 32 (tones.zipIdx.map fun (t, w) => t.toNat * 8 ^ w).sum

/-- PILOT_PLAN (R464). -/
def execPilotPlan (iss : Issuer) (mask rsv : BitVec 16) (tones : List Byte) (s : State) : Out :=
  .next <| hostCmd (.pilotPlan iss mask rsv tones) (fun _ s =>
    let perm := decide (tones.length = 8) && (List.range 8).all fun t => tones.any fun x => decide (x.toNat = t)
    guardParams [rsvOk rsv 2, (perm, 4)] s <|
      guardUp ((maskBits 16 mask.toNat).map fidOe) s
        (ok [], (maskBits 16 mask.toNat).foldl (fun s e => s.setReg .oePilot [e] (tonesWord tones)) s)) s

end Sys2Proof.Machine
end

