-- ==== Sys2Proof/Machine/Xbar.lean ====
section
/-! DEFINITION. The crossbar (R154 to R168): requests, grants, accepts, the super-cell, promotion, the transfer and the write
into the destination queues. -/

namespace Sys2Proof.Machine

/-! ## Levels and room (R158, R160, R184) -/

/-- The level of a class. -/
def levelOf (c : Nat) : Nat := if c = clsCtrl ∨ c = clsSched then 0 else if c = clsFreq ∨ c = clsOrd then 2 else 1

/-- An output has room at a level. -/
def State.levelRoom (s : State) (d l : Nat) : Bool :=
  decide (s.egressUsed d + s.reserved d + superCells ≤ (s.tile d).pool) &&
  (s.queues.filter fun q => decide (q.1 / 4096 = d ∧ 1024 ≤ q.1 % 4096 ∧ levelOf (qClass q.1) = l)).all fun q =>
    decide (q.2.length < s.regBits .bufClass [qClass q.1] 27 20 * 64)

/-! ## Committed cells (R155, R163) -/

/-- A matching for a transfer slot may take the cell: it is uncommitted, and no residue that an earlier matching has just left
(R155, R162). -/
def QCell.open_ (q : QCell) (ts : Nat) : Bool := q.slot.isNone && decide (q.since ≤ ts)

/-- The first cell of a queue that a matching may take. -/
def State.headCell (s : State) (k ts : Nat) : Option QCell := (s.queue k).find? fun q => q.open_ ts

/-- The tiles that a cell is bound for. -/
def QCell.tiles (q : QCell) : List Nat := (q.outs.map OutTarget.tile).eraseDups

/-- The first `n` uncommitted cells that a test takes, committed to a transfer slot; the test ends at its first refusal. -/
def commitFirst (ok : QCell → Bool) (ts : Nat) : Nat → List QCell → List QCell
  | 0, qs => qs
  | _, [] => []
  | n + 1, q :: qs =>
    if !q.open_ ts then q :: commitFirst ok ts (n + 1) qs
    else if ok q then { q with slot := some ts } :: commitFirst ok ts n qs
    else q :: qs

/-- The commitments of a unicast queue, the earlier slots at its head: super-cells keep the queue's order (R165). -/
def orderSlots (qs : List QCell) : List QCell :=
  let marks := sortBy id (qs.filterMap QCell.slot)
  (qs.foldl (init := (([] : List QCell), marks)) fun (out, ms) q =>
    match q.slot, ms with
    | some _, m :: rest => ({ q with slot := some m } :: out, rest)
    | _, _ => (q :: out, ms)).1.reverse

/-- Up to `n` uncommitted cells of a queue committed. -/
def State.commit (s : State) (k ts n : Nat) (ok : QCell → Bool) : State :=
  let qs := commitFirst ok ts n (s.queue k)
  (s.setQueue k (if k % 4096 < 512 then orderSlots qs else qs)).clearHead k

/-- The cells of a queue committed to a slot. -/
def State.committed (s : State) (k ts : Nat) : List QCell := (s.queue k).filter fun q => decide (q.slot = some ts)

/-- The entry of least key. -/
def leastBy {α : Type} (key : α → Nat) (xs : List α) : Option α :=
  xs.foldl (init := none) fun b x => match b with
    | none => some x
    | some y => if key x < key y then some x else some y

/-- Cells taken from several queues, each time the head cell of the oldest ingress time (R155); the queues that gave. -/
def State.fillLevel (s : State) (ks : List Nat) (ts : Nat) : Nat → State × List Nat
  | 0 => (s, [])
  | n + 1 =>
    match leastBy (·.2) (ks.filterMap fun k => (s.headCell k ts).map fun q => (k, q.time)) with
    | none => (s, [])
    | some (k, _) =>
      let (s, used) := State.fillLevel (s.commit k ts 1 fun _ => true) ks ts n
      (s, k :: used)

/-- Cells committed to a slot in the virtual output queues from an input to an output. -/
def State.loaded (s : State) (i o ts : Nat) : Nat :=
  ((List.range 8).map fun c => (s.committed (qKey i (qVoq o c)) ts).length).sum

/-- A unicast super-cell filled (R155): the promoted queue first, then the levels with room in order. -/
def State.fillUni (s : State) (i o ts : Nat) (promoted : Option Nat) (room : Nat → Bool) : State × List Nat :=
  let s0 := match promoted with
    | some k => s.commit k ts superCells fun _ => true
    | none => s
  let first := match promoted with
    | some k => if (s0.committed k ts).isEmpty then [] else [k]
    | none => []
  ([0, 1, 2].filter room).foldl (init := (s0, first)) fun (s, used) l =>
    let ks := ((List.range 8).filter fun c => decide (levelOf c = l)).map fun c => qKey i (qVoq o c)
    let (s, more) := s.fillLevel ks ts (superCells - s.loaded i o ts)
    (s, used ++ more)

/-! ## Requests (R159) -/

/-- A request. `level` is that of the request, `own` the level that must have room. -/
structure Req where
  input : Nat
  output : Nat
  level : Nat
  own : Nat
  queue : Nat
  mcast : Bool
  promoted : Bool

/-- A tile takes part in the matching. -/
def State.matches_ (s : State) (t : Nat) : Bool := s.attached t && !s.fnDown (fidTile t)

/-- The queues sampled for the matching of a transfer slot, with the tiles that their head cells are bound for. -/
def State.sample (s : State) (ts : Nat) : List (Nat × List Nat) :=
  (s.queues.filter fun q => decide (q.1 % 4096 < 520)).filterMap fun q =>
    (s.headCell q.1 ts).map fun c => (q.1, if q.1 % 4096 < 512 then [q.1 % 4096 / 8] else QCell.tiles c)

/-- The request of a queue to an output. It is raised where the queue was promoted as the matching's requests were sampled
and no grant has been accepted since (R161, R170). -/
def State.reqOf (s : State) (m : Matching) (k o : Nat) : Req :=
  let up := m.ups.contains k && s.xbar.promoted.contains k
  let l := levelOf (qClass k)
  ⟨k / 4096, o, if up then 0 else l, l, k, decide (512 ≤ k % 4096), up⟩

/-- What an input's offers are ranked by: the level, a promoted queue first. -/
def Req.rank (r : Req) : Nat := 2 * r.level + b2n (!r.promoted)

/-- The request that an unmatched input sends an output: at one level, the two kinds alternate with the slot. -/
def offer (ts : Nat) (rs : List Req) : Option Req :=
  let uni := leastBy Req.rank (rs.filter fun r => !r.mcast)
  let multi := leastBy Req.rank (rs.filter Req.mcast)
  match uni, multi with
  | some u, some m =>
    if m.level < u.level then some m else if u.level < m.level then some u else if ts % 2 = 0 then some u else some m
  | some u, none => some u
  | none, m => m

/-- The multicast head that an input is matched to in a matching: its queue's class and the outputs still to grant. -/
def Matching.headLeft (m : Matching) (i : Nat) (s : State) : Option (Nat × List Nat) :=
  (m.pairs.find? fun p => decide (p.input = i)).bind fun p =>
    p.mcast.bind fun c =>
      let done := (m.pairs.filter fun q => decide (q.input = i)).map Pair.output
      (s.committed (qKey i (qMcq c)) m.slot).head?.map fun q => (c, q.tiles.filter fun d => !done.contains d)

/-- The requests of a round. -/
def State.requests (s : State) (m : Matching) : List Req :=
  let taken := m.pairs.map Pair.output
  let free (o : Nat) : Bool := s.matches_ o && !taken.contains o
  let inputs := (m.asked.map fun a => a.1 / 4096).eraseDups.filter s.matches_
  inputs.flatMap fun i =>
    if m.pairs.any fun p => decide (p.input = i) then
      match m.headLeft i s with
      | some (c, left) => (left.filter free).map fun o => s.reqOf m (qKey i (qMcq c)) o
      | none => []
    else
      let mine := m.asked.filter fun a => decide (a.1 / 4096 = i)
      let outs := ((mine.flatMap (·.2)).eraseDups).filter free
      outs.filterMap fun o => offer m.slot ((mine.filter fun a => a.2.contains o).map fun a => s.reqOf m a.1 o)

/-! ## Grants and accepts (R159 to R162) -/

/-- Distance of a tile from a round-robin pointer. -/
def fromPtr (ptr t : Nat) : Nat := (t + 64 - ptr % 64) % 64

/-- The pointers are kept by level and tile. -/
def ptrKey (level t : Nat) : Nat := level * 64 + t

/-- The request that an output grants. -/
def State.grant (s : State) (rs : List Req) (o : Nat) : Option Req :=
  let mine := rs.filter fun r => decide (r.output = o) && s.levelRoom o r.own
  leastBy (fun r => r.level * 64 + fromPtr (s.xbar.grantPtr.getD (ptrKey r.level o) 0) r.input) mine

/-- The grant that an unmatched input accepts. -/
def State.choose (s : State) (gs : List Req) : Option Req :=
  leastBy (fun r => r.level * 64 + fromPtr (s.xbar.acceptPtr.getD (ptrKey r.level r.input) 0) r.output) gs

/-- A matching of the crossbar replaced. -/
def State.setMatching (s : State) (m : Matching) : State :=
  { s with xbar := { s.xbar with inflight := s.xbar.inflight.map fun x => if x.slot = m.slot then m else x } }

/-- The matching of a transfer slot. -/
def State.matching (s : State) (ts : Nat) : Option Matching := s.xbar.inflight.find? fun m => decide (m.slot = ts)

/-- The flow of a multicast cell (R165): FRAME of ORD, and the context of the others. -/
def QCell.flow (q : QCell) : Nat := if q.cls = clsOrd then q.frame else q.cell.ctx

/-- A matching leaves nothing of a cell of an input behind: its rounds are over, or it has paired every tile of the cell. -/
def Matching.takesAll (m : Matching) (i : Nat) (q : QCell) : Bool :=
  m.ended || q.tiles.all fun d => m.pairs.any fun p => decide (p.input = i ∧ p.output = d)

/-- An earlier cell of the same flow, bound for a tile of this one, may yet leave after the transfer of slot `ts`: its matching
may leave a residue of it, or moves later, or has left it as a residue. -/
def State.overtakes (s : State) (k ts : Nat) (q : QCell) : Bool :=
  (s.queue k).any fun e =>
    decide (e.src = q.src ∧ e.flow = q.flow) && e.tiles.any q.tiles.contains &&
      match e.slot with
      | some z => decide (z ≠ ts) && !(decide (z < ts) && (s.matching z).all fun m => m.takesAll (k / 4096) e)
      | none => decide (ts < e.since)

/-- The cells of a multicast head that a super-cell takes: those with the first one's tiles (R155). DEDUCED: a later cell that
could overtake one of its flow is not taken (R162, R165; log entry 70). -/
def State.takeHead (s : State) (k o ts : Nat) : State :=
  match s.headCell k ts with
  | some q =>
    if q.tiles.contains o then s.commit k ts superCells fun r => decide (r.tiles = q.tiles) && !s.overtakes k ts r else s
  | none => s

/-- The runs of queues whose cells are committed start again at 0 (R161). -/
def State.restart (s : State) (ks : List Nat) : State :=
  { s with xbar := { s.xbar with runs := s.xbar.runs.filter fun r => !ks.contains r.1 } }

/-- A grant accepted by an input that was unmatched. -/
def State.acceptGrant (s : State) (m : Matching) (r : Req) (first : Bool) : State :=
  let x := s.xbar
  let x : Xbar := if first then { x with
      grantPtr := x.grantPtr.setD (ptrKey r.level r.output) 0 ((r.input + 1) % 64)
      acceptPtr := x.acceptPtr.setD (ptrKey r.level r.input) 0 ((r.output + 1) % 64) } else x
  let x : Xbar := { x with promoted := x.promoted.filter (· ≠ r.queue) }
  let room := s.levelRoom r.output
  let s : State := { s with xbar := x }
  let (s, used) :=
    if r.mcast then
      let s := s.takeHead r.queue r.output m.slot
      (s, if (s.committed r.queue m.slot).isEmpty then [] else [r.queue])
    else s.fillUni r.input r.output m.slot (if r.promoted then some r.queue else none) room
  let m : Matching := { m with
    pairs := m.pairs ++ [⟨r.input, r.output, if r.mcast then some (qClass r.queue) else none⟩]
    filled := m.filled ++ used }
  let s := (s.setMatching m).restart used
  if used.isEmpty then s.bump .tileXbarEmptyGrants [r.input] else s

/-- The grants that an input holds, accepted. -/
def State.acceptAll (s : State) (ts : Nat) (first : Bool) (gs : List Req) : State :=
  match s.matching ts, gs with
  | some m, g :: _ =>
    if m.pairs.any fun p => decide (p.input = g.input) then
      let more := gs.map fun r => (⟨r.input, r.output, some (qClass r.queue)⟩ : Pair)
      s.setMatching { m with pairs := m.pairs ++ more }
    else
      match s.choose gs with
      | some r => s.acceptGrant m r first
      | none => s
  | _, _ => s

/-- One round of a matching. -/
def State.round (s : State) (ts : Nat) (first : Bool) : State :=
  match s.matching ts with
  | none => s
  | some m =>
    let rs := s.requests m
    let gs := ((rs.map Req.output).eraseDups).filterMap (s.grant rs)
    ((gs.map Req.input).eraseDups).foldl (fun s i => s.acceptAll ts first (gs.filter fun g => decide (g.input = i))) s

/-! ## After round 3: residues and promotion (R161, R162) -/

/-- The targets of a cell at one tile. -/
def QCell.outsAt (q : QCell) (d : Nat) : List OutTarget := q.outs.filter fun o => decide (o.tile = d)

/-- A multicast queue after the rounds of a matching: copies for the outputs that granted, and the residue. -/
def State.split (s : State) (m : Matching) (i c : Nat) : State :=
  let k := qKey i (qMcq c)
  let got := (m.pairs.filter fun p => decide (p.input = i)).map Pair.output
  let cells := s.committed k m.slot
  let copies := got.flatMap fun d => cells.map fun q => (i, d, { q with outs := q.outsAt d })
  let left (q : QCell) : List OutTarget := q.outs.filter fun o => !got.contains o.tile
  let short := cells.any fun q => !(left q).isEmpty
  let s := if short then
      ((s.setQueue k ((s.queue k).map fun q =>
        if q.slot = some m.slot ∧ !(left q).isEmpty then
          { q with outs := left q, slot := none, since := m.slot + 3 } else q)).bump
          .tileXbarMcastSplits [i]).clearHead k
    else s
  match s.matching m.slot with
  | some m => s.setMatching { m with copies := m.copies ++ copies }
  | none => s

/-- The run of a queue that a matching did not serve, and its promotion after `limit` of them. -/
def State.countRun (s : State) (limit k : Nat) : State :=
  if s.xbar.promoted.contains k then s
  else
    let n := s.xbar.runs.getD k 0 + 1
    if limit ≤ n then
      ({ s with xbar := { s.xbar with runs := s.xbar.runs.del k, promoted := s.xbar.promoted ++ [k] } } : State).bump
        .xbarPromotions []
    else { s with xbar := { s.xbar with runs := s.xbar.runs.put k n } }

/-- The end of round 3. -/
def State.endRounds (s : State) (ts : Nat) : State :=
  match s.matching ts with
  | none => s
  | some m =>
    let heads := (m.pairs.filterMap fun p => p.mcast.map fun c => (p.input, c)).eraseDups
    let s := heads.foldl (fun s h => s.split m h.1 h.2) s
    let s := match s.matching ts with
      | some m => s.setMatching { m with ended := true }
      | none => s
    ((m.asked.map (·.1)).filter fun k => !m.filled.contains k).foldl (fun s k => s.countRun m.promote k) s

/-! ## The transfer (R154, R163) and the write at the output (R151, R152, R184) -/

/-- A cell is discarded as it comes to move: its limit has passed, or its frame is aborted. -/
def State.stale (s : State) (q : QCell) : Bool := s.aged q || (decide (q.cls = clsOrd) && s.frames.aborted.contains q.frame)

/-- The committed cells of a queue leave it. -/
def State.leave (s : State) (k ts : Nat) : State :=
  let cells := s.committed k ts
  let s := (s.setQueue k ((s.queue k).filter fun q => decide (q.slot ≠ some ts))).clearHead k
  let old := cells.filter s.aged
  let cut := cells.filter fun q => !s.aged q && s.stale q
  old.foldl (fun s q => s.ageCell (k / 4096) q) ((s.spillJudge (k / 4096)).dropCells cut)

/-- The super-cells of a slot move. -/
def State.transfer (s : State) (ts : Nat) : State :=
  match s.matching ts with
  | none => s
  | some m =>
    let uni := (m.pairs.filter fun p => p.mcast.isNone).flatMap fun p =>
      (List.range 8).map fun c => (p.output, qKey p.input (qVoq p.output c))
    let mc := (m.pairs.filterMap fun p => p.mcast.map fun c => qKey p.input (qMcq c)).eraseDups
    let cells := (uni.flatMap fun (d, k) => (s.committed k ts).map fun q => (d, q)) ++ m.copies.map (·.2)
    let moved := (cells.filter fun c => !s.stale c.2).map fun c => (c.1, { c.2 with slot := none, since := 0 })
    let s := (uni.map (·.2) ++ mc).foldl (fun s k => s.leave k ts) s
    s.setMatching { m with moved := some moved, copies := [] }

/-- A cell written to one target of its output tile. -/
def State.writeOut (s : State) (d : Nat) (q : QCell) (o : OutTarget) : State :=
  let toPort (l : Nat) (q : QCell) : State :=
    let p := s.portOf l
    let st := (s.port p).st
    if !st.running then ((s.bump .tileAdmDrops [d, q.cls]).countClass d q.cls 1 1).dropCell q
    else if st = .quarantined ∧ q.cls ≠ clsCtrl then (s.bump .tilePortQuarDrops [d, slotOf p]).dropCell q
    else s.toEgress p q.cls { q with outs := [o] }
  match o with
  | .port l => toPort l q
  | .copy l addr =>
    let h := q.cell.hdr.toNat
    toPort l { q with cell := { q.cell with hdr := BitVec.ofNat 128 (h / 2 ^ 124 * 2 ^ 124 + addr % 2 ^ 20 * 2 ^ 104 + h % 2 ^ 104) } }
  | .slice _ => s.enqueue (qKey d (qEst q.cls)) { q with outs := [o] }

/-- A cell at its output tile is written to its targets, as far as the egress pool has room (R184). What remains waits, and
nothing of its class passes it. DESIGN CHOICE: the spec says nothing of a cell whose targets are more than the cells that its
grant reserved (log entry 70). -/
def State.writeCell (s : State) (d : Nat) (q : QCell) : State :=
  let wait := s.xbar.late.any fun c => decide (c.1 = d ∧ c.2.cls = q.cls)
  let n := if wait then 0 else (s.tile d).pool - s.egressUsed d
  let s := (q.outs.take n).foldl (fun s o => s.writeOut d q o) s
  if (q.outs.drop n).isEmpty then s
  else { s with xbar := { s.xbar with late := s.xbar.late ++ [(d, { q with outs := q.outs.drop n })] } }

/-- The cells that wait at their output tiles are written first. -/
def State.writeLate (s : State) : State :=
  s.xbar.late.foldl (fun s c => s.writeCell c.1 c.2) { s with xbar := { s.xbar with late := [] } }

/-- The cells of the transfer before are written into the destination queues. -/
def State.writeMoved (s : State) (ts : Nat) : State :=
  match s.matching ts with
  | none => s
  | some m =>
    let s : State := { s with xbar := { s.xbar with inflight := s.xbar.inflight.filter fun x => decide (x.slot ≠ ts) } }
    (m.moved.getD []).foldl (init := s) fun s (d, q) =>
      if s.attached d then s.writeCell d { q with outs := q.outsAt d } else (s.bump .tileXbarDestDrops [d]).dropCell q

/-- XBAR_SLOT (R159): the work of one slot. -/
def execXbarSlot (s : State) : Out :=
  .next <|
    if s.fnDown fidXbar ∨ !s.xbar.ready then s
    else
      let n := s.xbar.slot
      let s := s.writeLate
      let s := if n = 0 then s else s.writeMoved (n - 1)
      let s := s.transfer n
      let asked := s.sample (n + 3)
      let ups := s.xbar.promoted
      let held := s.xbar.runs.filter fun r => asked.any fun a => decide (a.1 = r.1)
      let s : State := { s with xbar := { s.xbar with runs := held } }
      let s := (s.round (n + 1) false).endRounds (n + 1)
      let s := s.round (n + 2) false
      let fresh : Matching := ⟨n + 3, [], asked, ups, s.regBits .xbarConfig [] 15 0, [], false, [], none⟩
      let s : State := { s with xbar := { s.xbar with inflight := s.xbar.inflight ++ [fresh], slot := n + 1 } }
      s.round (n + 3) true

/-! ## Resets (R167, R168) -/

/-- The commitments of a queue to the slots that a test picks, undone. -/
def State.uncommit (s : State) (k : Nat) (p : Nat → Bool) : State :=
  s.setQueue k ((s.queue k).map fun q => if (q.slot.map p).getD false then { q with slot := none } else q)

/-- A multicast or unicast queue after a tile is taken out of its cells' masks. -/
def maskOut (t : Nat) (q : List QCell) : List QCell × List QCell :=
  let cut := q.map fun c => { c with outs := c.outs.filter fun o => decide (o.tile ≠ t) }
  (cut.filter fun c => !c.outs.isEmpty, cut.filter fun c => c.outs.isEmpty)

/-- A queue of another tile as tile `t` is detached, with what it drops counted. -/
def State.detachQueue (s : State) (t k : Nat) : State :=
  let (q, n) := maskOut t (s.queue k)
  let (u, m) := maskOut t (s.under k)
  (((((s.setQueue k q).setUnder k u).bumpBy .tileXbarDestDrops [k / 4096] (n.length + m.length)).dropCells (n ++ m)).clearHead k
    ).spillJudge (k / 4096)

/-- A matching as a tile is detached: its pairs go, and a multicast super-cell goes on to its other outputs. -/
def Matching.detach (m : Matching) (t : Nat) : Matching :=
  { m with
    pairs := m.pairs.filter fun p => decide (p.input ≠ t ∧ p.output ≠ t)
    asked := m.asked.filter fun a => decide (a.1 / 4096 ≠ t)
    copies := m.copies.filter fun c => decide (c.1 ≠ t ∧ c.2.1 ≠ t)
    moved := m.moved.map fun cs => cs.filter fun c => decide (c.1 ≠ t) }

/-- The crossbar detaches a tile (R167). Its own queues are lost with it. -/
def State.detach (s : State) (t : Nat) : State :=
  let keys := ((s.queues.map (·.1)) ++ s.undertow.map (·.1)).eraseDups
  let others := keys.filter fun k => decide (k / 4096 ≠ t ∧ k % 4096 < 1024)
  let x := s.xbar
  let gone := x.inflight.filter fun m => m.moved.isNone
  let s := gone.foldl (init := s) fun s m =>
    (m.pairs.filter fun p => decide (p.output = t) && p.mcast.isSome).foldl (init := s) fun s p =>
      let alone := (m.pairs.filter fun q => decide (q.input = p.input)).length = 1
      if alone then s.uncommit (qKey p.input (qMcq (p.mcast.getD 0))) fun z => decide (z = m.slot) else s
  let live := if bit x.live t then x.live - 2 ^ t else x.live
  let xbar : Xbar := { x with
    live := live
    inflight := x.inflight.map fun m => m.detach t
    grantPtr := x.grantPtr.filter fun e => decide (e.1 % 64 ≠ t)
    acceptPtr := x.acceptPtr.filter fun e => decide (e.1 % 64 ≠ t)
    runs := x.runs.filter fun e => decide (e.1 / 4096 ≠ t)
    promoted := x.promoted.filter fun k => decide (k / 4096 ≠ t)
    late := x.late.filter fun c => decide (c.1 ≠ t) }
  let s := ({ s with xbar := xbar } : State).dropCells ((x.late.filter fun c => decide (c.1 = t)).map (·.2))
  others.foldl (fun s k => s.detachQueue t k) s

/-- A tile is attached (R167). -/
def State.attach (s : State) (t : Nat) : State :=
  if bit s.xbar.live t then s else { s with xbar := { s.xbar with live := s.xbar.live + 2 ^ t, ready := true } }

/-- A copy that has not moved goes back to the residue that it was split from. -/
def State.rejoin (s : State) (i : Nat) (c : QCell) : State :=
  let k := qKey i (qMcq c.cls)
  s.setQueue k ((s.queue k).map fun q =>
    if q.slot.isNone ∧ q.cell = c.cell ∧ q.time = c.time ∧ q.frame = c.frame then
      { q with outs := (q.outs ++ c.outs).eraseDups } else q)

/-- The crossbar enters reset (R168): every matching is abandoned and its cells are uncommitted, with the outputs that had
granted them. A super-cell that has moved is in its destination's clock crossing already. DESIGN CHOICE: unserved runs and
standing promotions start again too (log entry 70). -/
def State.resetXbar (s : State) : State :=
  let keys := (s.queues.map (·.1)).filter fun k => decide (k % 4096 < 1024)
  let s := (s.xbar.inflight.filter fun m => m.moved.isSome).foldl (fun s m => s.writeMoved m.slot) s
  let s := (s.xbar.inflight.flatMap Matching.copies).foldl (fun s c => s.rejoin c.1 c.2.2) s
  let s := keys.foldl (fun s k => (s.setQueue k ((s.queue k).map fun q => { q with slot := none, since := 0 })).clearHead k) s
  { s with xbar := { s.xbar with slot := 0, grantPtr := [], acceptPtr := [], inflight := [], runs := [], promoted := [] } }

end Sys2Proof.Machine
end

