-- ==== Sys2Proof/Machine/FnReset.lean ====
section
/-! DEFINITION. Function resets: what each class does as its reset starts and ends (R17, R527 and the rules that it names),
the commands FUNC_RESET and DEVICE_RESET (R530, R73), and watchdogs (R529). -/

namespace Sys2Proof.Machine

/-! ## Class 0: a tile (R133, R167, R177, R179, R198, R316, R400) -/

/-- The fibres of a tile. -/
def tileFibres (t : Nat) : List Nat := rangeFrom (4 * t) 4

/-- A tile's function reset starts. Its cells are dropped, and its lanes find their codewords anew. -/
def State.tileDown (s : State) (t : Nat) : State :=
  let s := (tileFibres t).foldl (init := s) fun s f =>
    let s := (s.portsOf f).foldl (init := s) fun s p => if (s.port p).st = .disabled then s else s.dropPort p .down true
    let s := (s.setFibre f fun x => { x with found := false, comparing := false }).settleFibre f
    (s.portsOf f).foldl (init := s) fun s p => if (s.port p).st = .bootstrap then s.setPort p fun y => { y with st := .down } else s
  let s := s.detach t
  let s := s.resetSlice t
  let mine (k : Nat) : Bool := decide (k / 4096 = t)
  let lost := (s.queues.filter fun q => mine q.1).flatMap (·.2) ++ (s.undertow.filter fun q => mine q.1).flatMap (·.2) ++
    (s.tile t).cells
  let s := lost.foldl (fun s q => (s.dropCell q).handOver q) s
  let s := (rangeFrom (32 * t) 32).foldl (fun s l => (s.setLane l fun x => { x with fecLock := false }).followLane l .rx) s
  let time : TimeSt := { s.time with launches := s.time.launches.del t, stamps := s.time.stamps.del t }
  let frames : Frames := { s.frames with sending := s.frames.sending.filter fun p => decide (p.1 / 32 ≠ t) }
  let s : State := { s with
    queues := s.queues.filter fun q => !mine q.1
    undertow := s.undertow.filter fun q => !mine q.1
    time := time
    frames := frames }
  (s.setTile t fun x => { TileSt.init with ratio := x.ratio, target := x.target, hot := x.hot }).settle

/-- A slice re-initialised from the BUF registers (R177, R179). -/
def State.initSlice (s : State) (t : Nat) : State :=
  let m := s.regBits .bufSplit [] 4 0
  let pool := s.regBits .bufEgress [] 15 0 * 64
  let res := (List.range 8).map fun c => s.regBits .bufClass [c] 15 0
  if pktSlots m < earlyPool + pool + res.sum + 16384 then
    (s.setTile t fun x => { x with pktMib := m, pool := TileSt.init.pool, reserves := resetReserves }).raiseEv 0x0901 2
      (fidTile t) (beBytes 1 t)
  else s.setTile t fun x => { x with pktMib := m, pool := pool, reserves := res }

/-- The buckets of a tile's ports and streams return to full (R284, R285): the registers of its ports return to their reset
values. -/
def State.clearTc (s : State) (t : Nat) : State :=
  { s with tc := { s.tc with
    policers := s.tc.policers.filter fun b => decide (b.1 / 256 ≠ t)
    shapers := s.tc.shapers.filter fun b => decide (b.1 / 256 ≠ t)
    streamBuckets := s.tc.streamBuckets.filter fun b => decide (b.1 % 64 ≠ t) } }

/-- A tile's function reset ends: TILE_CLK is one of its registers (R17, R173, R629). -/
def State.tileUp (s : State) (t : Nat) : State :=
  let s := ((s.initSlice t).clearTc t).setTile t fun x => { x with ratio := TileSt.init.ratio }
  let s := if s.fnDown fidXbar then s else s.attach t
  (tileFibres t).foldl State.settleFibre s

/-! ## Class 7: a command engine (R35, R61, R73) -/

/-- The plan is discarded: every fibre counts as STATE = 0. -/
def State.dropPlan (s : State) : State :=
  match s.plan with
  | none => s
  | some p =>
    let wired := (p.wiring.filter fun w => decide (w.2.state ≠ 0)).map (·.1)
    let moved := wired.filter fun f => decide ((s.fibre f).layout ≠ s.layout f)
    let s := moved.foldl State.dropFibre s
    let s : State := { s with plan := none }
    let s := wired.foldl State.settleFibre s
    (s.keepSources []).select

/-- A command engine's function reset starts. -/
def State.cmdDown (s : State) (n : Nat) : State :=
  let s := (List.range 8).foldl (init := s) fun s i =>
    let x := s.slot i
    if x.engine ≠ n then s
    else if x.st = .active then s.closeSession i 2
    else if x.st = .handshake then s.setSlot i fun _ => Session.free
    else s
  if n = s.boot.holder then s.dropPlan else s

/-! ## Classes 4, 6, 8 and 9 -/

/-- The entries of a quadrant are lost with its pipeline. -/
def State.pipeDown (s : State) (q : Nat) : State :=
  { s with tables := { s.tables with
    entries := s.tables.entries.filter fun e => decide (e.1 / 262144 / 8 ≠ q)
    est := s.tables.est.filter fun e => decide (e.1 / 2048 ≠ q) } }

/-- The valid shadow images of a quadrant are loaded, and the spray LFSR is seeded (R249, R264). -/
def State.pipeUp (s : State) (q : Nat) : State :=
  let good := s.tables.shadow.filter fun e =>
    decide (e.1 / 262144 / 8 = q) && imgValid (e.1 / 262144 % 8) e.2 && !s.tables.bad.contains e.1
  { s with tables := { s.tables with
    entries := good.foldl (fun m e => m.put e.1 e.2) s.tables.entries
    lfsr := s.tables.lfsr.setD q 1 (s.reg .tblSpraySeed []).toNat } }

/-- The time unit's function reset starts (R316). -/
def State.timeDown (s : State) : State :=
  let clock := if s.time.clock = .tracking ∨ s.time.clock = .locked then .holdover else s.time.clock
  { s with
    time := { s.time with clock := clock }
    ptp := State.reset.ptp }

/-- The Breakwater manager's function reset starts (R434). -/
def State.bwkDown (s : State) : State :=
  let xs := (s.est.ctxs.filter fun e => e.2.st.live && typeParity e.2.type).map (·.1)
  (xs.foldl (fun s x => s.endCtx x .aborted 22 0) s).settle

/-- The manager reloads the home records (R434): every unit of a group whose record is uncorrectable becomes DAMAGED, and the
record is rewritten (R437). -/
def State.bwkUp (s : State) : State :=
  let bad := s.bwk.groups.filter fun g => g.2.homeBad
  let s := bad.foldl (fun s g => (List.range g.2.z).foldl (fun s u => s.damage g.1 u) s) s
  ({ s with bwk := { s.bwk with groups := s.bwk.groups.map fun g => (g.1, { g.2 with homeBad := false }) } } : State).settle

/-- The telemetry unit's function reset starts (R585, R589, R591): what waited in its coalescing windows or for LOW_RATE is lost. -/
def State.telDown (s : State) : State :=
  let n := ((s.tel.coal ++ s.tel.late.map (·.1)).map Merged.count).sum
  let tel : Tel := { s.tel with
    hold := true, lost := satSum s.tel.lost n, coal := [], written := 0, late := [], stage := 0, shift := 0, sampleCount := 0, offered := 0
    output := 0, calm := 0
    stream := State.reset.tel.stream, collectors := State.reset.tel.collectors, tokens := State.reset.tel.tokens, unitFrom := 0, unitNo := 0 }
  ({ s with tel := tel } : State).bumpBy .telResetLost [] n

/-! ## Shoreline retrains (R512) -/

/-- Failed wires marked VALID in a REPAIR: the spare wires that it uses (R510). -/
def repairsIn (r : BitVec 512) : Nat := ((bvBytes 64 r).filter fun b => b.getLsbD 7).length

/-- A group is usable while no more than 4 of its wires fail (R510). -/
def usableGroup (failed : List Nat) : Bool := decide (failed.length ≤ 4)

/-- The four REPAIR entries of a group: its failed data wires, in ascending order, on the spares that work (R510). -/
def repairEntries (failed : List Nat) : List Byte :=
  let data := (List.range 64).filter failed.contains
  let spares := (List.range 4).filter fun k => !failed.contains (64 + k)
  (List.range 4).map fun k =>
    match data[spares.idxOf k]? with
    | some w => if spares.contains k ∧ usableGroup failed then BitVec.ofNat 8 (128 + w) else 0
    | none => 0

/-- The GROUP_MASK and REPAIR of a side whose receivers found these wires to fail (R510). -/
def wireRecord (wires : FailedWires) : Nat × BitVec 512 :=
  let of (g : Nat) : List Nat := ((wires.filter fun x => decide (x.1.val = g)).map (·.2.val)).eraseDups
  ((((List.range 16).filter fun g => usableGroup (of g)).map (2 ^ ·)).sum,
   BitVec.ofNat 512 (beNat ((List.range 16).flatMap fun g => repairEntries (of g))))

/-- The record of the logic die after a fresh training: which of the 1,088 wires toward it fail is a free value. -/
def State.freshRecord (s : State) : (Nat × BitVec 512) × State :=
  let (bs, s) := s.freeBytes 136
  let wires : FailedWires := (List.finRange 16).flatMap fun g => ((List.finRange 68).filter fun w =>
    bit ((bs.getD ((68 * g.val + w.val) / 8) 0).toNat) ((68 * g.val + w.val) % 8)).map fun w => (g, w)
  (wireRecord wires, s)

/-- A retrain of a link runs from full width on both sides. -/
def LinkSt.fullRuns (x : LinkSt) : Bool := x.full && decide (x.st = .training ∨ x.st = .agreeing)

/-- A link's retrain starts: a side that was reset trains from full width and the other publishes its held record, or both
train from full width. A failed link stays so, and a retrain from full width that runs is the one retrain (R512, R532). An engine
link loses the traffic that crosses it, and a bridge link keeps it (R508). -/
def State.retrainLink (s : State) (l : Nat) (full : Bool) : State :=
  if (s.link l).st = .failed ∨ (!full && (s.link l).fullRuns) then s else
  let s := s.bump .d2dRetrains [l]
  let (r, s) := if full then s.freshRecord else (((s.link l).own, (s.link l).ownRepair), s)
  s.setLink l fun x => { x with
    st := .training, round := (x.round + 1) % 65536, full := full
    before := if x.st = .up then x.mask else x.before
    own := r.1, ownRepair := r.2
    mask := 0, cand := 0, replay := if l < 16 then [] else x.replay }

/-! ## The start and the end of a reset (R17, R527) -/

/-- What a function reset does to the rest of the part as it starts. -/
def State.fnDownEffects (s : State) (fid : Nat) : State :=
  let i := fid % 256
  match fid / 256 with
  | 0 => s.tileDown i
  | 1 => s.resetSlice i
  | 2 =>
    let lost : Final := ⟨stInReset, fid, []⟩
    let s := s.endJobs (fun j => match j with
      | .oeCalibrate e _ => decide (e = i)
      | .reseek e _ => decide (e = i)
      | _ => false) lost
    s.engineDown i
  | 3 => s.bridgeDown i
  | 4 => s.pipeDown i
  | 5 => s.resetXbar
  | 6 => s.timeDown
  | 7 => s.cmdDown i
  | 8 => s.bwkDown
  | 9 => s.telDown
  | _ => s

/-- A function enters function reset. -/
def State.enterReset (s : State) (fid : Nat) (hold : Bool) : State :=
  let s := s.bump .rstCount [fid / 256]
  let s := s.setFn fid fun f => { f with inReset := true, held := hold }
  let s := s.fnDownEffects fid
  if fid / 256 = 2 then s.retrainLink (fid % 256) false
  else if fid / 256 = 3 then s.retrainLink (16 + fid % 256) false else s

/-- The TEL counters that survive (R591): the fourth to the tenth. -/
def keptAddr (a : Nat) : Bool := decide (0x13000050 ≤ a ∧ a ≤ 0x13000068)

/-- The registers of a function return to their reset values (R17). -/
def State.resetRegs (s : State) (fid : Nat) : State :=
  let mine (a : Nat) : Bool := (ownersAt a).contains fid && !keptAddr a
  { s with
    regs := s.regs.filter fun r => !mine r.1
    latch := s.latch.filter fun r => !mine r.1 }

/-- What the end of a function reset does. -/
def State.fnUpEffects (s : State) (fid : Nat) : State :=
  let i := fid % 256
  match fid / 256 with
  | 0 => s.tileUp i
  | 2 => s.engineUp i (s.oe i).laserA (s.oe i).laserB
  | 4 => s.pipeUp i
  | 8 => s.bwkUp
  | 5 => (List.range 64).foldl (fun s t => if s.fnDown (fidTile t) then s else s.attach t) s
  | _ => s

/-- A function reset ends: it is back in service. -/
def State.leaveReset (s : State) (fid : Nat) : State :=
  ((s.setFn fid fun f => { f with inReset := false, held := false, testing := false }).resetRegs fid).fnUpEffects fid

/-- FUNC_RESET_END (R527, R530): a HOLD that has not completed yet completes, then the rest (R532). -/
def execFuncResetEnd (func : BitVec 12) (s : State) : Out :=
  .next <|
    let fid := func.toNat
    let f := s.fn fid
    if fnValid fid ∧ f.inReset ∧ !f.held ∧ !f.testing ∧ !f.failed then
      ((s.leaveReset fid).endJobs (fun j => decide (j = .funcReset fid true)) ⟨stOk, 0, []⟩).endResets fid
    else s

/-- A function is held failed until the next boot (R514, R515), with its event and its outside effects. DESIGN CHOICE: a FUNC_RESET
of it that waits completes with FUNCTION_IN_RESET (log entry 31). -/
def State.holdFailed (s : State) (fid cause : Nat) : State :=
  let s := if (s.fn fid).inReset then s else s.fnDownEffects fid
  let s := s.setFn fid fun _ => { FnState.up with failed := true }
  let s := s.raiseEv 0x0201 3 srcReset (beBytes 2 fid ++ beBytes 1 cause)
  let s := s.endJobs (fun j => decide (j = .funcReset fid true ∨ j = .funcReset fid false)) ⟨stInReset, fid, []⟩
  if fid / 256 = 0 then (tileFibres (fid % 256)).foldl (fun s f => s.holdEye f .tile true) s else s

/-! ## Commands -/

/-- FUNC_RESET (R73, R530, R532). -/
def execFuncReset (iss : Issuer) (func : BitVec 16) (flags rsv : Byte) (s : State) : Out :=
  .next <| hostCmd (.funcReset iss func flags rsv) (fun i s =>
    let fid := func.toNat
    let f := s.fn fid
    let hold := flags.getLsbD 0
    let release := flags.getLsbD 1
    guardParams [(decide (fid < 4096) && fnValid fid, 0),
        (decide (flags.toNat < 4) && !(hold && release) && (!release || f.held), 2), rsvOk rsv 3] s <|
      if (f.inReset ∧ !f.held) ∨ f.testing ∨ f.failed then (.done stInReset fid [], s)
      else if fid = fidCmd (s.slot i).engine ∧ !release then
        let due := s.now + 1000000
        (ok [], { s with boot := { s.boot with resetDue := s.boot.resetDue ++ [(due, some (fid, hold))] } })
      else if release then (.pend [] (.funcReset fid false), s.setFn fid fun f => { f with held := false })
      else
        let s := if f.inReset then s.setFn fid fun f => { f with held := hold } else s.enterReset fid hold
        (.pend [] (.funcReset fid hold), s)) s

/-- A HOLD completes once its function is in reset. -/
def State.holdDone (s : State) (j : Job) : Bool :=
  match j with
  | .funcReset fid true => (s.fn fid).inReset
  | _ => false

/-- DEVICE_RESET (R73). -/
def execDeviceReset (iss : Issuer) (s : State) : Out :=
  .next <| hostCmd (.deviceReset iss) (fun _ s =>
    let due := s.now + 1000000
    (ok [], { s with boot := { s.boot with resetDue := s.boot.resetDue ++ [(due, none)] } })) s

/-- Everything but what lies outside every reset of the part: the SPI NOR and the fuses, the pins, and the model's own
count and queue. -/
def State.wholeReset (s : State) (pins : Pins) (cause : Nat) : State :=
  { State.reset with
    pins := { pins with jtag := .bypass, ppsOut := false, ppsFall := 0 }
    nvm := s.nvm
    boot := { State.reset.boot with cause := cause }
    free := s.free
    pending := s.pending }

/-- The boot starts (R524), with the cause it will report and the strap as sampled. -/
def State.startBoot (s : State) (cause : Nat) : State :=
  let skip := s.pins.bistSkip
  { s with boot := { s.boot with phase := .step 1, cause := cause, bistSkipped := skip } }

/-- RESET_DELAY_EXPIRY (R73): the reset that falls due first begins. A DEVICE_RESET acts as a pulse of SYS_RST_N: the part
boots again (R526). -/
def execResetDelayExpiry (s : State) : Out :=
  .next <|
    match sortBy (·.1) s.boot.resetDue with
    | [] => s
    | (due, what) :: rest =>
      let s := s.advanceTo due
      let s : State := { s with boot := { s.boot with resetDue := rest } }
      match what with
      | some (fid, hold) => if (s.fn fid).inReset ∨ (s.fn fid).failed then s else s.enterReset fid hold
      | none =>
        (s.wholeReset s.pins 2).startBoot 2

/-- WATCHDOG_EXPIRY (R529). -/
def execWatchdogExpiry (engine : Fin 4) (s : State) : Out :=
  .next <|
    let fid := fidCmd engine.val
    if s.boot.phase ≠ .done ∨ s.fnDown fid ∨ s.regBits .rstWdog [] 15 0 = 0 then s
    else ((s.bump .rstWdogFires []).raiseEv 0x0202 3 srcReset (beBytes 1 engine.val)).enterReset fid false

end Sys2Proof.Machine
end

