-- ==== Sys2Proof/Machine/Joins.lean ====
section
/-! DEFINITION. The Shoreline links: width agreement and retrains (R507 to R512). -/

namespace Sys2Proof.Machine

/-- The fibres that an engine link of `g` groups serves (R509). -/
def fibresServed (g : Nat) : Nat := min 16 (g * 2048 / 1700)

/-- The function at the far end of a link (R507). -/
def farFid (l : Nat) : Nat := if l < 16 then fidOe l else fidBrg (l - 16)

/-- The fibres that an engine link serves leave HELD, and the others enter it (R509). -/
def State.serveFibres (s : State) (l : Nat) : State :=
  if 16 ≤ l then s
  else
    let g := popCount 16 (s.link l).mask
    let n := fibresServed g
    let s := (List.range 16).foldl (init := s) fun s f =>
      let held := (s.eye (16 * l + f)).holds.contains .width
      if n ≤ f then (if held then s else s.holdEye (16 * l + f) .width true)
      else if held then s.holdEye (16 * l + f) .width false else s
    if n < 16 then s.raiseEv 0x1001 2 srcJoins (beBytes 1 l ++ beBytes 1 g ++ beBytes 1 n) else s

/-- Data flows on a link at the width agreed (R511); what a bridge link held has been sent again (R508). -/
def State.raiseLink (s : State) (l mask : Nat) : State :=
  (s.setLink l fun x => { x with
    st := .up, mask := mask, spares := repairsIn x.ownRepair + repairsIn x.peerRepair, cand := mask
    before := mask, replay := [] }).serveFibres l

/-- A link fails: its far die is treated as failed (R511, R515). -/
def State.failLink (s : State) (l : Nat) : State :=
  let s := s.setLink l fun x => { x with st := .failed, mask := 0, cand := 0 }
  if (s.fn (farFid l)).failed then s else s.holdFailed (farFid l) 0

/-- The words that fail their CRC. -/
def badWords (words : List ShoreWord) : List ShoreWord := words.filter fun w => decide (w.crc ≠ Config.shoreCrc w.data)

/-- More words of one group fail than CRC_LIMIT allows within 1 ms (R508). -/
def State.pastCrcLimit (s : State) (words : List ShoreWord) : Bool :=
  (List.range 16).any fun g => decide (s.regBits .d2dConfig [] 7 0 < ((badWords words).filter fun w => w.group.val = g).length)

/-- The words of the last µs (R508). -/
def replayOf (words : List ShoreWord) : List ShoreWord :=
  let last := words.foldl (fun t w => max t w.at_.val) 0
  words.filter fun w => decide (last < w.at_.val + 1000)

/-- SHORELINE_CRC_LIMIT (R508, R532): the words that crossed a link within 1 ms; more failures of one group than CRC_LIMIT
start a retrain. A retrain that a reset began goes on as the one retrain, from full width in a new round. -/
def execShorelineCrcLimit (l : D2dLink) (words : List ShoreWord) (s : State) : Out :=
  .next <|
    let x := s.link l.val
    if x.st = .down ∨ x.st = .failed then s
    else
      let s := s.bumpBy .d2dCrcErrs [l.val] (badWords words).length
      let s := s.setLink l.val fun y => { y with replay := replayOf words }
      if !s.pastCrcLimit words then s
      else if x.st = .up then s.retrainLink l.val true
      else if x.full then s
      else
        let (r, s) := s.freshRecord
        s.setLink l.val fun y => { y with
          st := .training, round := (y.round + 1) % 65536, full := true, own := r.1, ownRepair := r.2, cand := 0
          replay := if l.val < 16 then [] else y.replay }

/-- Bytes 0 to 71 of a width record (R510). -/
def widthBytes (r : WidthRecord) : List Byte :=
  [r.version, r.kind] ++ bvBytes 2 r.round ++ bvBytes 2 r.mask ++ bvBytes 2 r.rsv ++ bvBytes 64 r.repair

/-- A width record with its CRC. -/
def sealWidth (kind : Byte) (round mask : Nat) (repair : BitVec 512) : WidthRecord :=
  let r : WidthRecord := ⟨1, kind, BitVec.ofNat 16 round, BitVec.ofNat 16 mask, 0, repair, 0⟩
  { r with crc := crc32cOf (widthBytes r) }

/-- WIDTH_RECORD_PUBLISH (R510): a RECORD while the link trains, and AGREE from then on. -/
def execWidthRecordPublish (l : D2dLink) (s : State) : Out :=
  .next <|
    if s.boot.phase = .reset then s
    else (s.every .widthRecord l.val 1000).setLink l.val fun x =>
      match x.st with
      | .training => { x with sent := some (sealWidth 1 x.round x.own x.ownRepair) }
      | .agreeing => { x with sent := some (sealWidth 2 x.round x.cand 0) }
      | .up => { x with sent := some (sealWidth 2 x.round x.mask 0) }
      | _ => x

/-- WIDTH_RECORD_RECEIVE (R510 to R512). -/
def execWidthRecordReceive (l : D2dLink) (rec : WidthRecord) (s : State) : Out :=
  .next <|
    let n := l.val
    let x := s.link n
    if rec.crc ≠ crc32cOf (widthBytes rec) ∨ rec.version ≠ 1 ∨ rec.round.toNat ≠ x.round then s
    else if rec.kind = 1 ∧ x.st = .training then
      let g := (BitVec.ofNat 16 x.own &&& rec.mask).toNat
      if popCount 16 g < 8 then s.failLink n
      else if !x.full ∧ g ≠ x.before then s.retrainLink n true
      else s.setLink n fun y => { y with
        st := .agreeing, cand := g, peerRepair := rec.repair, sent := some (sealWidth 2 y.round g 0) }
    else if rec.kind = 2 ∧ x.st = .agreeing then
      if rec.mask.toNat = x.cand then s.raiseLink n x.cand
      else s.setLink n fun y => { y with st := .training, round := (y.round + 1) % 65536, cand := 0 }
    else s

/-- D2D_LINK (R536). -/
def LinkSt.encode (x : LinkSt) : Nat :=
  x.st.code * 2 ^ 29 + popCount 16 x.mask * 2 ^ 24 + x.spares % 256 * 2 ^ 16 + x.mask % 65536

/-- D2D_F2F (R536). -/
def State.bondWord (s : State) (t : Nat) : Nat :=
  let b := s.d2d.bonds.getD t (0, false)
  b2n b.2 * 2 ^ 31 + b.1 % 256

end Sys2Proof.Machine
end

