-- ==== Sys2Proof/Machine/Boot.lean ====
section
/-! DEFINITION. Pins, supplies and the boot (R523 to R528, R537 to R540, R553, R556 to R562, R612, R615). -/

namespace Sys2Proof.Machine

/-! ## Reset pins and supplies -/

/-- Nothing holds the part in reset. -/
def Pins.free (p : Pins) : Bool := !p.porLow && !p.sysLow && !p.tripped && !p.railBad && !p.refStopped

/-- POWER_ON_RESET_ASSERT (R523, R525): a thermal trip ends with it. -/
def execPowerOnResetAssert (s : State) : Out := .next <| s.wholeReset { s.pins with porLow := true, tripped := false } 0

/-- SYSTEM_RESET_ASSERT (R525). -/
def execSystemResetAssert (s : State) : Out := .next <| s.wholeReset { s.pins with sysLow := true } 1

/-- The boot starts unless something still holds the part in reset. -/
def State.tryBoot (s : State) (cause : Nat) : State :=
  if s.pins.free ∧ s.boot.phase = .reset then s.startBoot cause else s

/-- RESET_RELEASE (R524). -/
def execResetRelease (pin : ResetPin) (bistSkip : Bool) (s : State) : Out :=
  .next <|
    match pin with
    | .por =>
      if s.pins.porLow then
        ({ s with pins := { s.pins with porLow := false, bistSkip := bistSkip } } : State).tryBoot 0
      else s
    | .sys =>
      if s.pins.sysLow then
        ({ s with pins := { s.pins with sysLow := false, bistSkip := bistSkip } } : State).tryBoot 1
      else s

/-- RAIL_UNDERVOLTAGE (R612): as while POR_N is low. -/
def execRailUndervoltage (s : State) : Out := .next <| s.wholeReset { s.pins with railBad := true } 0

/-- RAIL_RECOVERY_EXPIRY (R612). -/
def execRailRecoveryExpiry (s : State) : Out :=
  .next <|
    if s.pins.railBad ∧ !s.pins.porLow then
      ({ s with pins := { s.pins with railBad := false } } : State).tryBoot 0
    else s

/-- REFCLK_STOP (R615). -/
def execRefclkStop (s : State) : Out := .next <| s.wholeReset { s.pins with refStopped := true } 0

/-- REFCLK_RUN_EXPIRY (R615). -/
def execRefclkRunExpiry (s : State) : Out :=
  .next <|
    if s.pins.refStopped then
      ({ s with pins := { s.pins with refStopped := false } } : State).tryBoot 0
    else s

/-! ## The test port (R553, R619) -/

/-- What the selected data register of the test port captures, where the spec gives it: the version, part and maker of IDCODE,
and the 0 of BYPASS. -/
def State.tapData (s : State) : Option (BitVec 32) :=
  match s.pins.jtag with
  | .idcode => some 0x12048B47
  | .bypass => some 0
  | _ => none


/-- An instruction is selected; EXTEST ends as SYS_RST_N (R553). -/
def State.selectTap (s : State) (i : JtagInstr) : State :=
  let s := if s.pins.jtag = .extest then (s.wholeReset s.pins 1).tryBoot 1 else s
  { s with pins := { s.pins with jtag := i } }

/-- The level of TRST_N (R614): while it is low the test port stays in Test-Logic-Reset, with no test instruction selected. -/
def State.setTrst (s : State) (low : Bool) : State :=
  let s : State := { s with pins := { s.pins with trstLow := low } }
  if low then s.selectTap .bypass else s

/-- JTAG_INSTRUCTION (R525, R553, R614): in reset and while TRST_N is low the port stays in Test-Logic-Reset, and a locked
instruction does nothing. -/
def execJtagInstruction (i : JtagInstr) (trstLow : Bool) (s : State) : Out :=
  .next <|
    let s := s.setTrst trstLow
    if trstLow ∨ s.boot.phase = .reset ∨ i = .other then s
    else if i = .extest then
      let t : State := { s with pins := { s.pins with jtag := .extest } }
      if s.pins.jtag = .extest then s else (List.range 256).foldl (fun s f => s.holdEye f .reset true) t
    else s.selectTap i

/-- EXTEST_EXIT (R553): with TRST_N low, or by the port's own states. -/
def execExtestExit (trstLow : Bool) (s : State) : Out :=
  .next <| ({ s with pins := { s.pins with trstLow := trstLow } } : State).selectTap .bypass

/-! ## Step 2: the boot ROM (R557 to R562) -/

/-- The copy that governs (R557): the number of the copy and its record. -/
def Nvm.governing (n : Nvm) : Option (Bool × BootRecord) :=
  match parseRecord n.copy0, parseRecord n.copy1 with
  | none, none => none
  | some a, none => some (false, a)
  | none, some b => some (true, b)
  | some a, some b => if b.seq ≤ a.seq then some (false, a) else some (true, b)

/-- A record written into the copy that does not govern, with SEQ one higher (R557). -/
def Nvm.writeRecord (n : Nvm) (r : BootRecord) : Nvm :=
  match n.governing with
  | none => n
  | some (second, g) =>
    let bs := recordBytes { r with seq := (g.seq + 1) % 2 ^ 32 }
    if second then { n with copy0 := bs } else { n with copy1 := bs }

/-- The write failed its read-back: the copy written is not valid. -/
def Nvm.spoilRecord (n : Nvm) : Nvm :=
  match n.governing with
  | none => n
  | some (second, _) =>
    if second then { n with copy0 := [] } else { n with copy1 := [] }

/-- The image of a slot. -/
def Nvm.image (n : Nvm) (slot : Bool) : Image := if slot then n.slotB else n.slotA

/-- The first check of R560 that an image fails, 1 to 6; 0 where it is valid. -/
def Nvm.imageFault (n : Nvm) (x : Image) : Nat :=
  if !x.formOk then 1
  else if !x.keyOk || bit n.revoked x.keySlot then 2
  else if x.svn < n.fusedSvn then 3
  else if !x.edOk then 4
  else if !x.mldsaOk then 5
  else if !x.bodyOk then 6
  else 0

/-- The slot is valid. -/
def Nvm.slotValid (n : Nvm) (slot : Bool) : Bool := decide (n.imageFault (n.image slot) = 0)

/-- The slot that boots, and whether it is a trial (R561). -/
def Nvm.chooseSlot (n : Nvm) (trial : Nat) (active : Bool) : Option (Bool × Bool) :=
  let t := decide (trial = 1)
  if trial ≤ 1 ∧ n.slotValid t then some (t, true)
  else if n.slotValid active then some (active, false)
  else if n.slotValid !active then some (!active, false)
  else none

/-- TRIAL as SEC_STATUS shows it. -/
def shownTrialOf (trial : Nat) : Nat := if trial ≤ 1 then trial else 3

/-- Step 2: the record is written, and then an image is chosen. -/
def State.bootRom (s : State) (writeOk : Bool) : State :=
  let stuck (n : Nvm) : State := { s with nvm := n, boot := { s.boot with phase := .stuck } }
  match s.nvm.governing with
  | none => stuck s.nvm
  | some (_, g) =>
    if 2 ^ 32 - 1 ≤ g.boots then stuck s.nvm
    else if !writeOk then stuck s.nvm.spoilRecord
    else
      let n := s.nvm.writeRecord { g with boots := g.boots + 1, trial := 0xFF }
      match n.chooseSlot g.trial g.active with
      | none => stuck n
      | some (slot, trial) =>
        let x := n.image slot
        { s with
          nvm := n
          boot := { s.boot with
            phase := .step 3, incarnation := BitVec.ofNat 32 (g.boots + 1), runningSlot := slot, trialBoot := trial,
            runningSvn := x.svn, measure := x.measure, runningKey := x.keySlot, runningRevoke := x.revoke,
            shownActive := g.active, shownTrial := 3 } }

/-! ## Steps 3 to 7 -/

/-- A function held failed, with the functions that fail with it (R514, R540). -/
def State.failFn (s : State) (fid cause : Nat) : State :=
  let all := if fid / 256 = 0 then [fid, fid + 0x100] else if fid / 256 = 1 then [fid - 0x100, fid] else [fid]
  all.foldl (fun s f => if !fnValid f || (s.fn f).failed then s else s.holdFailed f cause) s

/-! ### Repairs (R539, R548) -/

/-- Spare rows and columns of an SRAM of a function (R548); none where the function has no such memory. -/
def sparesOf (fid inst : Nat) : Option (Nat × Nat) :=
  if fid / 256 = 0 then
    if inst < 384 then some (4, 2) else if 1024 ≤ inst ∧ inst < 1280 then some (2, 0) else none
  else if fid / 256 = 2 then (if inst < 256 then some (2, 0) else none)
  else none

/-- The repairs in force: the soft ones since boot and those of the field fuses (R539). -/
def State.repairs (s : State) : List Repair :=
  (s.bist.soft ++ s.nvm.fuseRepairs.map fun r => (⟨r.1, r.2.1, r.2.2.1, r.2.2.2.1, r.2.2.2.2⟩ : Repair)).eraseDups

/-- A spare is left for a repair, or the repair is in force already. REPAIR codes: 1 row, 2 column. -/
def State.spareLeft (s : State) (r : Repair) : Bool :=
  let used := (s.repairs.filter fun o => decide (o.func = r.func ∧ o.inst = r.inst ∧ o.kind = r.kind)).length
  let have_ := (sparesOf r.func r.inst).getD (0, 0)
  s.repairs.contains r || decide (used < (if r.kind = 1 then have_.1 else have_.2))

/-- A soft repair made. -/
def State.softRepair (s : State) (r : Repair) : State :=
  let s : State := { s with bist := { s.bist with soft := r :: s.bist.soft } }
  s.bump .bistSoftRepairs []

/-- A repair that field fuses hold: it was applied before the test (R539). -/
def State.fused (s : State) (r : Repair) : Bool :=
  s.nvm.fuseRepairs.contains (r.func, r.inst, r.bit, r.addr, r.kind)

/-- A repair that a test takes: a soft one, unless fuses hold it already. -/
def State.takeRepair (s : State) (r : Repair) : State := if s.fused r then s else s.softRepair r

/-- A record beyond repair. -/
def TestRecord.beyond (r : TestRecord) : Bool := decide (3 ≤ r.outcome.toNat)

/-- The repair of a fault in a memory that R548 does not list, or in an HBM row: as the test reports it; where it names none,
by a row or a column (`v`). -/
def TestRecord.ownRepair (r : TestRecord) (v : Nat) : Repair :=
  let kind := if r.func.toNat / 256 = 3 then 4 else if 1 ≤ r.repair.toNat ∧ r.repair.toNat ≤ 2 then r.repair.toNat else v % 2 + 1
  if kind = 2 then ⟨r.func.toNat, r.inst.toNat, r.bit.toNat, 0, 2⟩ else ⟨r.func.toNat, r.inst.toNat, 0, r.addr.toNat, kind⟩

/-- The repairs that a memory fault admits and that a spare is left for (R548). -/
def State.repairsFor (s : State) (r : TestRecord) : List Repair :=
  let row : Repair := ⟨r.func.toNat, r.inst.toNat, 0, r.addr.toNat, 1⟩
  let column : Repair := ⟨r.func.toNat, r.inst.toNat, r.bit.toNat, 0, 2⟩
  [row, column].filter s.spareLeft

/-- A record as a test leaves it. A memory fault for which no spare is left is beyond repair; with AUTO_REPAIR one that a spare
covers has its soft repair, by a row or a column as the repair logic finds; without it none is made. The spares of a memory
that R548 does not list are the test's own report. -/
def State.settleRecord (s : State) (auto : Bool) (r : TestRecord) : TestRecord × State :=
  if r.kind ≠ 2 ∨ r.outcome = 0 ∨ (r.outcome = 1 ∧ r.perm = 1) then (r, s)
  else if (sparesOf r.func.toNat r.inst.toNat).isNone then
    if !auto ∨ TestRecord.beyond r then (r, s)
    else
      let (v, s) := s.drawFree
      let x := TestRecord.ownRepair r v.toNat
      ({ r with outcome := 1, repair := BitVec.ofNat 8 x.kind, perm := b2n (s.fused x) }, s.takeRepair x)
  else
    match s.repairsFor r with
    | [] => ({ r with outcome := 3, repair := 0, perm := 0 }, s)
    | x :: rest =>
      if !auto then ({ r with outcome := 2, repair := 0, perm := 0 }, s)
      else
        let (v, s) := s.drawFree
        let fix := (rest.filter fun y => decide (r.repair.toNat = y.kind ∨ (r.repair = 0 ∧ v.toNat % 2 = 0))).headD x
        ({ r with outcome := 1, repair := BitVec.ofNat 8 fix.kind, perm := b2n (s.fused fix) }, s.takeRepair fix)

/-- The records of a test settled, in order. -/
def State.settleRecords (s : State) (auto : Bool) : List TestRecord → List TestRecord × State
  | [] => ([], s)
  | r :: rs =>
    let (r, s) := s.settleRecord auto r
    let (rs, s) := State.settleRecords s auto rs
    (r :: rs, s)

/-- The worst OUTCOME of some records; 0 where there is none. -/
def worstOutcome (rs : List TestRecord) : Nat := rs.foldl (fun n r => max n r.outcome.toNat) 0

/-- The cause that FUNCTION_FAILED gives for a record: 0 interconnect, 1 logic, 2 memory. -/
def causeOf (r : TestRecord) : Nat := if r.kind = 1 then 1 else if r.kind = 2 then 2 else 0

/-- The functions that a test found beyond repair (R540). -/
def State.failRecords (s : State) (rs : List TestRecord) : State :=
  (rs.filter TestRecord.beyond).foldl (fun s r => s.failFn r.func.toNat (causeOf r)) s

/-- A fault of the power manager, the reset controller or the Shoreline training logic: boot never ends (R540, R547). -/
def coreFault (rs : List TestRecord) : Bool := rs.any fun r => TestRecord.beyond r && decide (0xF00 ≤ r.func.toNat)

/-- Step 3: the joins (R511, R513, R514, R537). A link that the report does not list has failed. -/
def State.bootJoins (s : State) (rep : BootReport) : State :=
  let s := (List.range 20).foldl (init := s) fun s l =>
    match rep.links.find? fun x => decide (x.1.val = l) with
    | some (_, near, far) =>
      let own := wireRecord near
      let peer := wireRecord far
      let g := (BitVec.ofNat 16 own.1 &&& BitVec.ofNat 16 peer.1).toNat
      if popCount 16 g < 8 then s.failLink l
      else (s.setLink l fun x => { x with own := own.1, ownRepair := own.2, peerRepair := peer.2 }).raiseLink l g
    | none => s.failLink l
  let s := rep.bondSpares.foldl (init := s) fun s b =>
    let n := min 32 b.2.1.toNat + min 32 b.2.2.toNat
    let bad := decide (32 < b.2.1.toNat ∨ 32 < b.2.2.toNat)
    let s : State := { s with d2d := { s.d2d with bonds := s.d2d.bonds.setD b.1.val (0, false) (n, bad) } }
    if bad then s.failFn (fidTile b.1.val) 0 else s
  let s := (List.range 4).foldl (init := s) fun s b =>
    let up : Nat := ((rep.stacksUp.find? fun x => decide (x.1.val = b)).map fun x => x.2.toNat).getD 0
    let s := s.setBrg b fun x => { x with stacksUp := up }
    if up = 255 then s else s.failFn (fidBrg b) 0
  s.failRecords rep.records

/-- All four command engines are held failed: the boot never ends (R540). -/
def State.allCmdFailed (s : State) : Bool := [0, 1, 2, 3].all fun n => (s.fn (fidCmd n)).failed

/-- The phase moves on. -/
def State.bootTo (s : State) (n : Nat) : State :=
  let phase := if s.allCmdFailed then BootPhase.stuck else .step n
  { s with boot := { s.boot with phase := phase } }

/-- The faults among the records of some kinds, kind by kind, or one pass for a kind without any (R547). -/
def kindRecords (pass : Nat → TestRecord) (kinds : List Nat) (rs : List TestRecord) : List TestRecord :=
  kinds.flatMap fun k =>
    let mine := rs.filter fun r => decide (r.kind.toNat = k ∧ r.outcome ≠ 0)
    if mine.isEmpty then [pass k] else mine

/-- The records of step 3 or 4 join those of test 0, whose function and duration the spec leaves open: a kind that passes gives
one record, of that function. -/
def State.bootRecords (s : State) (kinds : List Nat) (rs : List TestRecord) : State :=
  let (v, s) := s.drawFree
  let b := s.bist.boot
  let pass (k : Nat) : TestRecord := ⟨BitVec.ofNat 16 v.toNat, BitVec.ofNat 8 k, 0, 0, 0, 0, 0, 0⟩
  { s with bist := { s.bist with
    boot := { b with
      func := v.toNat % 65536, duration := v.toNat / 65536 % 2 ^ 32, state := 1
      records := b.records ++ kindRecords pass kinds rs } } }

/-- Step 4: logic and memory BIST (R538 to R541): every repair that is possible is made, softly. -/
def State.bootBist (s : State) (rep : BootReport) : State :=
  if s.boot.bistSkipped then s.bootTo 5
  else
    let (rs, s) := s.settleRecords true rep.records
    let s := (s.failRecords rs).bootRecords [1, 2] rs
    if coreFault rs then { s with boot := { s.boot with phase := .stuck } } else s.bootTo 5

/-- Step 5: stacks zeroed, slices initialised, tiles attached (R167, R177, R214). -/
def State.bootBuffers (s : State) : State :=
  let s := (List.range 4).foldl (init := s) fun s b =>
    if (s.fn (fidBrg b)).failed then s else s.setBrg b fun x => { x with ready := true }
  (List.range 64).foldl (init := s) fun s t =>
    if (s.fn (fidTile t)).failed then s
    else
      let s := s.initSlice t
      if (s.fn fidXbar).failed then s else s.attach t

/-- A ring after the seek of the boot (R452, R460): VERIFIED where the report lists it; parked, to seek again in 100 ms, where
it had light and is not listed; without light it waits for it. -/
def State.bootRing (s : State) (e r : Nat) (found : Option (BitVec 12 × BitVec 3)) : State :=
  match found with
  | some (code, tone) =>
    let win := s.windowFrom e (r % 8)
    (s.bump .oeReseeks [e]).setRing e r fun _ =>
      { RingSt.init with st := .verified, heater := code.toNat, found := tone.toNat, window := win }
  | none =>
    if s.canSeek e r then
      let due := s.now + 100000000
      ((s.bump .oeReseeks [e]).setRing e r fun _ => { RingSt.init with retry := true, at_ := due }).raiseEv 0x8002 2 (fidOe e)
        (ringData e r)
    else s.setRing e r fun _ => { RingSt.init with want := true }

/-- Light that stands on a fibre as its engine leaves reset: the fibre goes PROBING (R453). -/
def State.bootLight (s : State) (f : Nat) : State :=
  let at_ := s.now
  let s := s.setEye f fun y => { y with light := true, lightAt := at_ }
  if (s.eye f).st = .closed then s.moveEye f fun y => { y with st := .probing } else s

/-- Step 6: the rings (R460). The report lists the rings that ended VERIFIED: their laser input or fibre has light. -/
def State.bootRings (s : State) (rep : BootReport) : State :=
  (List.range 16).foldl (init := s) fun s e =>
    if (s.fn (fidOe e)).failed then s
    else
      let mine := rep.rings.filter fun x => decide (x.1.val = e)
      let lit (lo : Nat) : Bool := mine.any fun x => decide (lo ≤ x.2.1.val ∧ x.2.1.val < lo + 64)
      let laserA := lit 0
      let laserB := lit 64
      let s := s.setOe e fun _ => { EngineSt.init with ready := true, laserA := laserA, laserB := laserB }
      let s := s.verifyRouting e
      let s := if s.pins.jtag = .extest then s else (rangeFrom (16 * e) 16).foldl (fun s f => s.holdEye f .reset false) s
      let bright (f : Nat) : Bool := (s.eye f).light || mine.any fun x => decide (128 ≤ x.2.1.val ∧ fibreOfRing e x.2.1.val = f)
      let s := ((rangeFrom (16 * e) 16).filter bright).foldl State.bootLight s
      (List.range 256).foldl (init := s) fun s r =>
        s.bootRing e r ((mine.find? fun x => decide (x.2.1.val = r)).map fun x => (x.2.2.1, x.2.2.2))

/-- BOOT_OUTCOME (R539, R555). -/
def State.bootOutcome (s : State) : Nat :=
  if s.boot.bistSkipped then 3
  else if s.fns.any fun f => f.2.failed then 2
  else if (s.bist.boot.records.any fun r => decide (r.outcome = 1)) || s.d2d.bonds.any (fun b => decide (0 < b.2.1)) ||
      s.d2d.links.any (fun l => decide (0 < l.2.spares)) then 1
  else 0

/-- Step 7: the boot ends (R524, R528, R540). -/
def State.bootDone (s : State) (ms : Nat) : State :=
  match [0, 1, 2, 3].find? fun n => !(s.fn (fidCmd n)).failed with
  | none => { s with boot := { s.boot with phase := .stuck } }
  | some n =>
    let out := s.bootOutcome
    { s with boot := { s.boot with phase := .done, bootMs := min ms (2 ^ 20 - 1), holder := n, outcome := out } }

/-- BOOT_STEP_END (R524). -/
def execBootStepEnd (rep : BootReport) (s : State) : Out :=
  .next <|
    match s.boot.phase with
    | .step n =>
      let s := s.advanceTo (rep.elapsedMs * 1000000)
      match n with
      | 1 => s.bootTo 2
      | 2 => s.bootRom rep.recordWriteOk
      | 3 =>
        let s := (s.bootJoins rep).bootRecords [3] rep.records
        if coreFault rep.records then { s with boot := { s.boot with phase := .stuck } } else s.bootTo 4
      | 4 => s.bootBist rep
      | 5 => s.bootBuffers.bootTo 6
      | 6 => (s.bootRings rep).bootTo 7
      | _ => s.bootDone rep.elapsedMs
    | _ => s

end Sys2Proof.Machine
end

