-- ==== Sys2Proof/Machine/Bist.lean ====
section
/-! DEFINITION. In-service self-test and repair (R542 to R551, R554, R555). -/

namespace Sys2Proof.Machine

/-! ## Drained slices (R542) -/

/-- A port that R542 lets a drained slice have: DISABLED or DOWN, or none that its fibre forms. -/
def State.quiet (s : State) (p : Nat) : Bool :=
  decide ((s.port p).st ∈ [PState.disabled, .down, .bootstrap, .layoutConflict])

/-- A tile is drained: R542's first row. Queue indexes below 2048 are all but the input of the Estuary slice. -/
def State.tileDrained (s : State) (t : Nat) : Bool :=
  let mine (k : Nat) : Bool := decide (k / 4096 = t) && decide (k % 4096 < 2048)
  ((tileFibres t).flatMap s.portsOf).all s.quiet &&
  s.queues.all (fun q => !mine q.1 || q.2.isEmpty) && s.undertow.all (fun q => !mine q.1 || q.2.isEmpty) &&
  (s.slice t).early.isEmpty && (s.time.launches.getD t []).isEmpty &&
  s.est.ctxs.all fun e => !(e.2.st.live && e.2.touched e.1 t)

/-- A window has a Causeway action or Swell enabled. -/
def Window.divides (w : Window) : Bool := w.causeway || w.swell

/-- An engine is drained: R542's second row. -/
def State.engineDrained (s : State) (e : Nat) : Bool :=
  ((rangeFrom (16 * e) 16).flatMap s.portsOf).all s.quiet &&
  s.csw.paths.all (fun p => decide (p.1 / 128 ≠ e) || decide (p.2.st = .idle)) &&
  s.tide.active.all fun p => decide (engineOf p.1 ≠ e) || !p.2.windows.any Window.divides

/-- The slice of a function is drained. -/
def State.drained (s : State) (fid : Nat) : Bool :=
  if fid / 256 = 0 then s.tileDrained (fid % 256) else s.engineDrained (fid % 256)

/-! ## TEST_RUN (R543 to R545) -/

/-- The next test ID: from 1 upward, and from 0xFFFF to 1 (R547). -/
def nextTestId (last : Nat) : Nat := last % 65535 + 1

/-- When a test accepted now starts (R545, step 3): STAGGER ms after the other running test at the soonest. -/
def State.testStart (s : State) : Nat :=
  (s.bist.running.filterMap id).foldl (fun t r => max t (r.startAt + s.regBits .bistConfig [] 7 0 * 1000000)) s.now

/-- The first free entry of BIST_ACTIVE. -/
def Bist.freeEntry (b : Bist) : Option Nat := b.running.findIdx? Option.isNone

/-- TEST_RUN (R544, R545). An accepted test isolates its slice, which counts as in function reset from then on. -/
def execTestRun (iss : Issuer) (func : BitVec 16) (kinds flags : Byte) (s : State) : Out :=
  .next <| hostCmd (.testRun iss func kinds flags) (fun _ s =>
    let fid := func.toNat
    guardParams [(fnValid fid && decide (fid / 256 = 0 ∨ fid / 256 = 2), 0), (decide (1 ≤ kinds.toNat ∧ kinds.toNat < 8), 2),
        (decide (flags.toNat < 4), 3)] s <|
      if s.fnDown fid ∨ (s.fn fid).testing then (.done stInReset fid [], s)
      else
        match s.bist.freeEntry with
        | none => (.done stNoResource 0x0B02 [], s)
        | some i =>
          let drain := flags.getLsbD 0
          if !drain ∧ !s.drained fid then (.done stNotDrained fid [], s)
          else
            let id := nextTestId s.bist.lastId
            let at_ := s.testStart
            let run : TestRun := ⟨id, fid, kinds.toNat, flags.getLsbD 1, at_, decide (at_ ≤ s.now)⟩
            let s : State := { s with bist := { s.bist with
              lastId := id, running := modAt s.bist.running i fun _ => some run } }
            let s := (s.setFn fid fun f => { f with inReset := true, testing := true }).fnDownEffects fid
            let s := if drain ∧ fid / 256 = 2 then s.retrainLink (fid % 256) false else s
            (.pend [] (.testRun id), s)) s

/-- TEST_STAGGER_EXPIRY (R545, step 3). -/
def execTestStaggerExpiry (s : State) : Out :=
  .next <|
    let waits := s.bist.running.filterMap fun r => r.bind fun x => if x.started then none else some x
    match sortBy TestRun.startAt waits with
    | [] => s
    | x :: _ =>
      let s := s.advanceTo x.startAt
      let go (r : Option TestRun) : Option TestRun := if r = some x then some { x with started := true } else r
      { s with bist := { s.bist with running := s.bist.running.map go } }

/-! ## Repairs (R548, R550) -/

/-- Field fuse entries in use: those of the logic die, which cover the tiles, or those of one engine. -/
def State.fusesUsed (s : State) (fid : Nat) : Nat :=
  (s.nvm.fuseRepairs.filter fun r =>
    if fid / 256 = 0 then decide (r.1 / 256 = 0) else decide (r.1 = fid)).length

/-- The entries that a function's die holds. -/
def fusesOf (fid : Nat) : Nat := if fid / 256 = 0 then 2048 else 256

/-- A fuse repair written. -/
def State.fuseRepair (s : State) (r : Repair) : State :=
  { s with nvm := { s.nvm with fuseRepairs := (r.func, r.inst, r.bit, r.addr, r.kind) :: s.nvm.fuseRepairs } }

/-- A kind of repair is one that a function of the class allows (R550). -/
def repairKindOk (kind cls : Nat) : Bool :=
  decide (kind < 3) && !(decide (cls = 3 ∧ kind < 2) || decide (cls = 2 ∧ 0 < kind) || decide (cls = 0 ∧ kind = 2))

/-- What a repair of kinds 0 and 1 needs of its operands. -/
def sramChecks (kind fid inst bit addr : Nat) : List (Bool × Nat) :=
  let bank := decide (fid / 256 = 0 ∧ inst < 384)
  [((sparesOf fid inst).isSome && (decide (kind = 0) || bank), 4),
   (if kind = 0 then decide (bit = 0) else decide (bit < 256), 6),
   (if kind = 0 then !bank || decide (addr < 2048) else decide (addr = 0), 8)]

/-- REPAIR_APPLY (R550). -/
def execRepairApply (iss : Issuer) (kind flags : Byte) (func inst bit : BitVec 16) (addr : BitVec 32) (s : State) : Out :=
  .next <| hostCmd (.repairApply iss kind flags func inst bit addr) (fun _ s =>
    let fid := func.toNat
    let cls := fid / 256
    let perm := flags.getLsbD 0
    let first : List (Bool × Nat) :=
      [(repairKindOk kind.toNat cls, 0), (decide (flags.toNat < 2), 1),
       (fnValid fid && decide (cls = 0 ∨ cls = 2 ∨ cls = 3), 2)]
    if kind = 2 then
      let row : Repair := ⟨fid, inst.toNat, 0, addr.toNat, 4⟩
      guardParams (first ++ [(decide (inst.toNat / 256 / 8 = fid % 256), 4), (decide (bit = 0), 6)]) s <|
        guardUp [fid] s <|
          let (v, s) := s.drawFree
          if v.toNat % 2 = 0 then (.done stNoResource 0x0001 [], s)
          else
            let s := s.bump .bistPprRepairs []
            (ok [], if perm then s.fuseRepair row else { s with bist := { s.bist with soft := row :: s.bist.soft } })
    else
      let r : Repair := ⟨fid, inst.toNat, bit.toNat, addr.toNat, kind.toNat + 1⟩
      guardParams (first ++ sramChecks kind.toNat fid inst.toNat bit.toNat addr.toNat) s <|
        if (s.fn fid).failed then (.done stInReset fid [], s)
        else if !((s.fn fid).inReset && (s.fn fid).held) && !(s.fn fid).testing then (.done stNotDrained fid [], s)
        else if !s.spareLeft r then (.done stNoResource 0x0001 [], s)
        else if perm ∧ fusesOf fid ≤ s.fusesUsed fid then (.done stNoResource 0x0002 [], s)
        else
          let s := s.softRepair r
          (ok [], if perm then (s.fuseRepair r).bump .bistFuseRepairs [] else s)) s

/-! ## The end of a test (R545, steps 5 to 7) -/

/-- The record of a kind that found nothing: INSTANCE names the Shoreline link of an engine (R547). -/
def passRecord (fid kind : Nat) : TestRecord :=
  let inst := if kind = 3 ∧ fid / 256 = 2 then fid % 256 else 0
  ⟨BitVec.ofNat 16 fid, BitVec.ofNat 8 kind, 0, BitVec.ofNat 16 inst, 0, 0, 0, 0⟩

/-- The records of a test, kind by kind in the order in which they run: the faults found, or one pass. -/
def testRecords (fid kinds : Nat) (faults : List TestRecord) : List TestRecord :=
  kindRecords (passRecord fid) ([1, 2, 3].filter fun k => bit kinds (k - 1)) (faults.filter fun r => decide (r.func.toNat = fid))

/-- TEST_END (R545, R547). -/
def execTestEnd (entry : Fin 2) (faults : List TestRecord) (durationUs : BitVec 32) (s : State) : Out :=
  .next <|
    match s.bist.running.getD entry none with
    | none => s
    | some run =>
      if !run.started then s
      else
        let fid := run.func
        let s := s.advanceTo (run.startAt + durationUs.toNat * 1000)
        let (rs, s) := s.settleRecords run.auto (testRecords fid run.kinds faults)
        let worst := worstOutcome rs
        let s := s.bump .bistTestsRun []
        let s := if worst = 0 then s else s.bump .bistTestsFailed []
        let res : TestRes := ⟨run.id, fid, 1, rs, durationUs.toNat⟩
        let s : State := { s with bist := { s.bist with
          running := modAt s.bist.running entry fun _ => none, results := (res :: s.bist.results).take 16 } }
        let s :=
          match rs.find? fun r => decide (3 ≤ r.outcome.toNat) with
          | some r => (s.resetRegs fid).holdFailed fid (causeOf r)
          | none => s.leaveReset fid
        let l := fid % 256
        let s :=
          if fid / 256 = 2 ∧ bit run.kinds 2 ∧ !(s.link l).fullRuns then s.retrainLink l true else s
        s.endJobs (fun j => decide (j = .testRun run.id))
          ⟨stOk, 0, beBytes 2 run.id ++ beBytes 1 worst ++ [0] ++ beBytes 2 rs.length ++ [0, 0]⟩

/-! ## TEST_RESULT (R549) -/

/-- A record of R547. -/
def TestRecord.encode (r : TestRecord) : List Byte :=
  bvBytes 2 r.func ++ [r.kind, r.outcome] ++ bvBytes 2 r.inst ++ bvBytes 2 r.bit ++ bvBytes 4 r.addr ++ [r.repair, r.perm, 0, 0]

/-- The results kept for a test. A running test has no records yet, and its duration is a free value. -/
def State.testRes (s : State) (id : Nat) : Option TestRes × State :=
  if id = 0 then (some s.bist.boot, s)
  else
    match (s.bist.running.filterMap fun x => x).find? fun r => decide (r.id = id) with
    | some r =>
      let (v, s) := s.drawFree
      (some ⟨id, r.func, 0, [], v.toNat % 2 ^ 32⟩, s)
    | none => (s.bist.results.find? fun r => decide (r.id = id), s)

/-- TEST_RESULT (R549). -/
def execTestResult (iss : Issuer) (test first count rsv : BitVec 16) (s : State) : Out :=
  .next <| hostCmd (.testResult iss test first count rsv) (fun _ s =>
    match s.testRes test.toNat with
    | (none, s) => (badParam 0, s)
    | (some r, t) =>
      guardParams [(decide (count.toNat ≤ 512), 4), rsvOk rsv 6] s
        (ok (beBytes 2 r.func ++ beBytes 1 r.state ++ beBytes 1 (worstOutcome r.records) ++ beBytes 2 r.records.length ++
          [0, 0] ++ beBytes 4 r.duration ++ ((r.records.drop first.toNat).take count.toNat).flatMap TestRecord.encode), t)) s

/-- BIST_STATUS (R555). -/
def State.bistStatus (s : State) : Nat := s.boot.outcome * 2 ^ 30 + (s.bist.running.filter Option.isSome).length

/-- BIST_ACTIVE (R555). -/
def State.bistActive (s : State) (i : Nat) : Nat :=
  match s.bist.running.getD i none with
  | none => 0
  | some r => 2 ^ 31 + r.func * 65536 + r.id

/-- BIST_FUSE_FREE (R555). -/
def State.fuseFree (s : State) : Nat := 2048 - s.fusesUsed 0

end Sys2Proof.Machine
end

