-- ==== Sys2Proof/Machine/Causeway.lean ====
section
/-! DEFINITION. Causeway: diversion of lanes (R476 to R478, R481), changes (R482, R483), direct circuits (R484) and the
registers of R504. -/

namespace Sys2Proof.Machine

/-! ## Diversion (R477, R481) -/

/-- The diversion intervals of a lane: the cycle's k, its start and its length. -/
def State.divOf (s : State) (l : Nat) : List (Nat × Nat × Nat) :=
  let ts := s.tablesNow
  let e := engineOf l
  match ts.find? fun t => decide (engineOf t.1.lane = e) with
  | none => []
  | some t => ((s.diversions ts e).filter fun d => decide (d.1 = l)).map fun d => (t.1.k, d.2.1, d.2.2)

/-- The earliest of some moments. -/
def earliest : List Nat → Option Nat
  | [] => none
  | t :: ts => some (ts.foldl min t)

/-- What remains of the intervals that cover a moment, for a lane. -/
def State.divLeft (s : State) (l t : Nat) : List Nat :=
  (s.divOf l).filterMap fun d =>
    let gone := forward (2 ^ d.1) d.2.1 t
    if gone < d.2.2 then some (d.2.2 - gone) else none

/-- LANE_DIVERT_START (R477): the next diversion interval of the lane begins, or one that a step of PTP time has entered
past its start (R316). -/
def execLaneDivertStart (lane : Lane) (s : State) : Out :=
  .next <|
    let l := lane.val
    let now := s.ptpNs
    if (s.lane l).diverted then s
    else if !(s.divLeft l now).isEmpty then s.divertLane l
    else
      match earliest ((s.divOf l).map fun d => nextAt d.1 d.2.1 now) with
      | none => s
      | some t => (s.advancePtp t).divertLane l

/-- LANE_DIVERT_END (R477, R478, R481): no path holds the lane and no interval covers it any longer. `detuned`: the receive
ring's detuning lies outside ±20 GHz. -/
def execLaneDivertEnd (lane : Lane) (detuned : Bool) (s : State) : Out :=
  .next <|
    let l := lane.val
    if !(s.lane l).diverted ∨ s.csw.lanes.contains l then s
    else
      let s := match earliest (s.divLeft l s.ptpNs) with
        | none => s
        | some n => s.advancePtp (s.ptpNs + n)
      if (s.divLeft l s.ptpNs).isEmpty then
        let s := (s.undivertLane l).restartWindow (engineOf l) (ringOf l .rx)
        if detuned then s.loseRing (engineOf l) (ringOf l .rx) else s
      else s

/-! ## Changes (R482, R483) -/

/-- The next scheduled action of an engine, after the latest change, with its moment. An action whose window a step has
entered past its start applies from the step's cycle (R316). -/
def State.nextAction (s : State) (e : Nat) : Option (Nat × PlacedWin) :=
  let ts := s.tablesNow
  let acts := (engineWins ts e).filter fun x => x.w.causeway
  let cycle := engineCycle ts e
  let k := Nat.log2 cycle
  let now := s.ptpNs
  let last := s.csw.last.find e
  let missed (a : PlacedWin) (t : Nat) : Bool :=
    decide (now < t ∧ cycle ≤ t ∧ now < t - cycle + a.w.len ∧ last.getD 0 < t - cycle)
  acts.foldl (init := none) fun best a =>
    let t := nextAt k a.w.start now
    let t := if last = some t then t + cycle else if missed a t then now else t
    match best with
    | none => some (t, a)
    | some b => if t < b.1 then some (t, a) else some b

/-- CAUSEWAY_CHANGE (R483): the engine's next scheduled action starts. -/
def execCausewayChange (engine : Engine) (s : State) : Out :=
  .next <|
    let e := engine.val
    if s.fnDown (fidOe e) ∨ !(s.oe e).ready then s
    else
      match s.nextAction e with
      | none => s
      | some (t, a) =>
        let s := s.advancePtp t
        let s : State := { s with csw := { s.csw with last := s.csw.last.put e t } }
        let i := a.w.entry
        let live := s.circuitsOn e
        if a.w.sets then
          if live.contains i then s
          else
            let s := s.startChange e (s.schedPaths i) []
            (s.circuit i).lanes.foldl (fun s l => if (s.lane l).diverted then s else s.divertLane l) s
        else
          let gone := s.csw.paths.filter fun p => decide (p.1 / 128 = e) && !p.2.direct && decide (p.2.circuit = i)
          if gone.isEmpty then s else s.startChange e [] (gone.map (·.1))

/-- Every ring of a path captured within ±100 GHz of the code it remembers: 102 codes of 0.9765625 GHz (R443, R483). -/
def State.caughtAll (s : State) (k src : Nat) (captured : List (Fin 2304 × BitVec 12)) : Bool :=
  !(s.oe (k / 128)).routing.isEmpty && (pathRings k src).all fun i => captured.any fun c =>
    decide (c.1.val = i ∧ ((c.2.toNat : Int) - s.routeCode (k / 128) i).natAbs ≤ 102)

/-- Every ring of a path has found a resonance again, whatever code it remembered (R485). -/
def refound (k src : Nat) (captured : List (Fin 2304 × BitVec 12)) : Bool :=
  (pathRings k src).all fun i => captured.any fun c => decide (c.1.val = i)

/-- The rings of a path remember the codes that they have found. -/
def State.relearn (s : State) (k src : Nat) (captured : List (Fin 2304 × BitVec 12)) : State :=
  let mine := captured.filter fun c => decide (c.1.val ∈ pathRings k src)
  s.setOe (k / 128) fun x => { x with routing := mine.foldl (fun cs c => cs.set c.1.val c.2.toNat) x.routing }

/-- The heaters of a path's rings at the codes at which they captured. -/
def State.engage (s : State) (k src : Nat) (captured : List (Fin 2304 × BitVec 12)) : State :=
  let mine := captured.filter fun c => decide (c.1.val ∈ pathRings k src)
  { s with csw := { s.csw with
    heaters := mine.foldl (fun m c => m.put (2304 * (k / 128) + c.1.val) c.2.toNat) s.csw.heaters } }

/-- A path at the end of its change: OPEN where every ring captured, and WAIT_PILOT otherwise, after FAULT or DARK too
(R483, R485). Its pilot check begins. -/
def State.endPath (s : State) (captured : List (Fin 2304 × BitVec 12)) (k : Nat) : State :=
  match s.csw.paths.find k with
  | none => s
  | some p =>
    let got := s.caughtAll k p.src captured
    let win := s.windowFrom (k / 128) (k % 8)
    match p.st with
    | .switching =>
      let s := s.engage k p.src captured
      if got ∧ !p.relit then s.movePath k fun y => { y with st := .opened, window := win }
      else (s.bump .cswSlowOpens []).movePath k fun y => { y with st := .waitPilot, relit := false, window := win }
    | .faulted =>
      if refound k p.src captured then
        ((s.engage k p.src captured).relearn k p.src captured).movePath k fun y => { y with st := .waitPilot, window := win }
      else s
    | _ => s

/-- CAUSEWAY_CHANGE_END (R483): within 40 µs of the change's start. `captured` lists the routing rings that hold lock, with
the heater code at which each does. -/
def execCausewayChangeEnd (engine : Engine) (captured : List (Fin 2304 × BitVec 12)) (s : State) : Out :=
  .next <|
    let e := engine.val
    let s := match s.csw.changes.find e with
      | some t => s.advanceTo (t + 40000)
      | none => s
    let s : State := { s with csw := { s.csw with changes := s.csw.changes.del e } }
    (((s.csw.paths.filter fun p => decide (p.1 / 128 = e)).map (·.1)).foldl (fun s k => s.endPath captured k) s).endCircuits e

/-! ## Registers (R504) -/

/-- The circuit mode of an engine. -/
def State.cswMode (s : State) (e : Nat) : Nat :=
  let ps := s.csw.paths.filter fun p => decide (p.1 / 128 = e)
  if ps.isEmpty then 0 else if ps.any fun p => p.2.direct then 1 else 2

/-- CSW_PATH. The attenuator is open in OPEN alone. -/
def State.cswPath (s : State) (k : Nat) : Nat :=
  match s.csw.paths.find k with
  | none => 0
  | some p =>
    p.st.code * 2 ^ 29 + b2n (decide (p.st = .opened)) * 2 ^ 28 + p.src % 16 * 2 ^ 24 + p.found % 8 * 2 ^ 21 +
      b2n p.direct * 2 ^ 12 + if p.direct then 0 else p.circuit % 4096

/-- CSW_PATHS. -/
def State.cswPaths (s : State) : Nat :=
  (s.csw.paths.filter fun p => decide (p.2.st = .waitPilot)).length * 2 ^ 16 +
    (s.csw.paths.filter fun p => decide (p.2.st = .opened)).length

/-! ## Commands (R484, R501) -/

/-- Some active table of an engine has a window with SCHED, a Causeway action or Swell. -/
def State.scheduled (s : State) (e : Nat) : Bool :=
  s.tide.active.any fun a => decide (engineOf a.1 = e) &&
    a.2.windows.any fun w => bit w.gate 0 || w.causeway || w.swell

/-- CSW_CIRCUIT (R484). One that sets paths replies at the change's end (R501, log entry 51). -/
def execCswCircuit (iss : Issuer) (op mask a b : Byte) (s : State) : Out :=
  .next <| hostCmd (.cswCircuit iss op mask a b) (fun _ s =>
    let c : CircuitEntry := ⟨mask.toNat, a.toNat, b.toNat⟩
    let e := c.a / 16
    let whole (f : Nat) : Bool := match s.layout f with
      | some l => maskWhole l c.mask
      | none => true
    let shares := op = 1 ∧ c.lanes.any s.csw.lanes.contains
    guardParams [(decide (op.toNat ≤ 1), 0), (decide (¬ shares) && whole c.a && whole c.b, 1),
        (decide (e = c.b / 16 ∧ c.a ≠ c.b), 3)] s <|
      guardUp [fidOe e] s <|
        if (s.entry c.a).state ≠ 1 then (.done stRefusedPlan c.a [], s)
        else if (s.entry c.b).state ≠ 1 then (.done stRefusedPlan c.b [], s)
        else if s.scheduled e then (.done stBusy 2 [], s)
        else if op = 1 then
          let paths := c.paths.map fun p => (p.1, CswPath.set (p.2 % 16) true 0)
          if paths.isEmpty then (ok [0, 0, 0, 0], s)
          else (.hold (.cswCircuit e (paths.map (·.1))), c.lanes.foldl State.divertLane (s.startChange e paths []))
        else
          let gone := (c.paths.filter fun p => match s.csw.paths.find p.1 with
            | some q => decide (q.src = p.2 % 16)
            | none => false).map (·.1)
          (ok [0, 0, 0, 0], if gone.isEmpty then s else s.startChange e [] gone)) s

/-- CSW_STATUS (R501). -/
def execCswStatus (iss : Issuer) (engine : Byte) (rsv : BitVec 24) (s : State) : Out :=
  .next <| hostCmd (.cswStatus iss engine rsv) (fun _ s =>
    let e := engine.toNat
    guardParams [(decide (e < 16), 0), rsvOk rsv 1] s <|
      guardUp [fidOe e] s
        (ok (beBytes 1 (s.cswMode e) ++ [0, 0, 0] ++
          (rangeFrom (128 * e) 128).flatMap fun k => beBytes 4 (s.cswPath k)), s)) s

end Sys2Proof.Machine
end

