-- ==== Sys2Proof/Machine/Sec.lean ====
section
/-! DEFINITION. Attestation, certificates and firmware (R559, R560, R563 to R574). -/

namespace Sys2Proof.Machine

/-! ## Attestation (R571, R572) -/

/-- The RW fields of a register's value, every other bit 0. -/
def rwPart (r : Reg) (w : Word) : Word :=
  BitVec.ofNat 32 ((r.row.fields.filter fun f => decide (f.acc = .rw)).map fun f => f.get w * 2 ^ f.lo).sum

/-- CONFIG_DIGEST's list (R572): the registers whose RW fields are not at their reset values, in ascending address order. -/
def State.configList (s : State) : List (Nat × Word) :=
  s.regs.filterMap fun (a, w) =>
    (locate (BitVec.ofNat 32 a)).bind fun (r, ix) =>
      if rwPart r w = rwPart r (regReset r ix) then none else some (a, rwPart r w)

/-- CONFIG_DIGEST (R572). -/
def State.configDigest (s : State) : BitVec 384 :=
  Config.sha384 (s.configList.flatMap fun p => beBytes 4 p.1 ++ bvBytes 4 p.2)

/-- TRUST_DIGEST (R565, R571): the list up to its CRC, or zeros where it is invalid. -/
def State.trustDigest (s : State) : BitVec 384 :=
  match trustKeys s.nvm.trust with
  | none => 0
  | some keys => Config.sha384 (s.nvm.trust.take (8 + 48 * keys.length))

/-- BWK_DIGEST (R571). -/
def State.bwkDigest (s : State) : BitVec 384 :=
  if s.bwk.groups.isEmpty then 0
  else Config.sha384 ((sortBy id (s.bwk.groups.map fun g => g.2.id)).flatMap (beBytes 8))

/-- Bytes 0 to 383 of a report (R571). -/
def State.report (s : State) (nonce : BitVec 256) : List Byte :=
  [1, 0, 0x20, 0x48] ++ beBytes 1 0x11 ++ beBytes 1 (b2n s.boot.runningSlot) ++ beBytes 2 s.boot.runningSvn ++
    beBytes 2 s.nvm.fusedSvn ++ beBytes 2 (b2n s.boot.bistSkipped + 2 * b2n s.boot.trialBoot) ++
    bvBytes 4 s.boot.incarnation ++ beBytes 8 s.ptpNs ++ bvBytes 32 nonce ++ bvBytes 48 s.boot.measure ++
    bvBytes 48 s.configDigest ++ bvBytes 48 ((s.plan.map Plan.digest).getD 0) ++ bvBytes 48 s.trustDigest ++
    bvBytes 4 s.boot.incarnation ++ beBytes 2 s.bwk.groups.length ++ [0, 0] ++ bvBytes 48 s.bwkDigest ++
    bvBytes 32 idDigest ++ List.replicate 48 0

/-- ATTEST (R571). -/
def execAttest (iss : Issuer) (nonce : BitVec 256) (s : State) : Out :=
  .next <| hostCmd (.attest iss nonce) (fun _ s =>
    let rep := s.report nonce
    let ((ed, ml), s) := s.sign (0x41 :: rep)
    (ok (rep ++ bvBytes 64 ed ++ bvBytes 3309 ml), s.bump .secAttests [])) s

/-- The certificate of a scheme at a depth of its chain (R566), where the chain has one. -/
def certificate (scheme : Nat) : Nat → Option (List Byte)
  | 0 => some (Config.certChain scheme).device
  | n + 1 => (Config.certChain scheme).above[n]?

/-- CERT_READ (R563, R566). -/
def execCertRead (iss : Issuer) (scheme depth : Byte) (rsv : BitVec 16) (s : State) : Out :=
  .next <| hostCmd (.certRead iss scheme depth rsv) (fun _ s =>
    let found := certificate scheme.toNat depth.toNat
    let der := found.getD []
    guardParams [(decide (scheme.toNat < 2), 0), (found.isSome, 1), rsvOk rsv 2] s
      (ok (beBytes 2 der.length ++ [0, 0] ++ der), s)) s

/-! ## Firmware images (R559, R560) -/

/-- An image read from the bytes of a slot. -/
def parseImage (prov : Nat) (bs : List Byte) : Image :=
  let h := slice bs 0 8192
  let n (off count : Nat) : Nat := beNat (slice h off count)
  let len := n 12 4
  let body := slice bs 8192 len
  let signed := slice h 0 2056
  { formOk := decide (h.length = 8192 ∧ n 0 4 = 0x4F534757 ∧ n 4 1 = 1 ∧ n 6 2 = 0x2048 ∧ n 10 1 < 16 ∧ n 11 1 = 0 ∧
      n 5429 2763 = 0 ∧ 1 ≤ len ∧ len ≤ 134209536)
    keySlot := n 5 1
    keyOk := decide (n 5 1 < 4) && bit prov (n 5 1) && decide (Config.sha384 (slice h 72 1984) = Config.vendorHash (n 5 1))
    svn := n 8 2
    revoke := n 10 1
    edOk := Config.edVerifies (slice h 72 32) signed (slice h 2056 64)
    mldsaOk := Config.mldsaVerifies (slice h 104 1952) signed (slice h 2120 3309)
    bodyOk := decide (body.length = len ∧ (Config.sha384 body).toNat = n 24 48)
    measure := Config.sha384 (slice h 0 5429) }

/-- An erased or half-written slot: it fails R560. -/
def Image.blank : Image := ⟨false, 0, false, 0, 0, false, false, false, 0⟩

/-- A slot of the SPI NOR set. -/
def State.setImage (s : State) (slot : Bool) (x : Image) : State :=
  { s with nvm := if slot then { s.nvm with slotB := x } else { s.nvm with slotA := x } }

/-- FW_UPDATE or FW_ACTIVATE is pending (R573). -/
def State.fwBusy (s : State) : Bool :=
  s.anyJob fun j => match j with
    | .fwUpdate _ _ => true
    | .fwActivate _ _ _ => true
    | _ => false

/-- ACTIVE of the record that governs. -/
def State.activeSlot (s : State) : Bool :=
  match s.nvm.governing with
  | some (_, g) => g.active
  | none => false

/-- FW_UPDATE (R569, R573): the idle slot is erased at once. -/
def execFwUpdate (iss : Issuer) (handle rsv : BitVec 16) (met : List BlockErr) (s : State) : Out :=
  .next <| hostCmd (.fwUpdate iss handle rsv met) (fun i s =>
    withObject i handle 0 2 (fun l => decide (l ≤ 134217728)) [] [rsvOk rsv 2] [] s fun o =>
      if s.fwBusy then (.done stBusy 2 [], s)
      else
        consuming handle o met s fun s =>
          let x := parseImage s.nvm.provisioned o.all
          let fault := s.nvm.imageFault x
          if fault ≠ 0 then (.done stAuthFail (0x10 + fault) [], s)
          else if s.activeSlot = !s.boot.runningSlot then (.done stBusy 2 [], s)
          else (.pend [handle.toNat] (.fwUpdate (!s.boot.runningSlot) x), s.setImage (!s.boot.runningSlot) Image.blank)) s

/-- FW_ACTIVATE (R570, R573): the slot is validated while it is pending. -/
def execFwActivate (iss : Issuer) (slot flags : Byte) (rsv : BitVec 16) (s : State) : Out :=
  .next <| hostCmd (.fwActivate iss slot flags rsv) (fun _ s =>
    let trial := flags.getLsbD 0
    let commit := flags.getLsbD 1
    let x := decide (slot = 1)
    guardParams [(decide (slot.toNat < 2), 0),
        (decide (flags.toNat < 4) && !(commit && (trial || x != s.boot.runningSlot)), 1), rsvOk rsv 2] s <|
      if s.fwBusy then (.done stBusy 2 [], s) else (.pend [] (.fwActivate x trial commit), s)) s

/-- FW_UPDATE ends well: the slot holds the image. -/
def State.endFwUpdate (s : State) (slot : Bool) (x : Image) : Final × State :=
  (⟨stOk, 0, []⟩, (s.setImage slot x).bump .secFwUpdates [])

/-- The fuses change under COMMIT (R564): nothing is ever lowered, and the running image's own key stays. -/
def State.commitFuses (s : State) : State :=
  let named := (maskBits 4 s.boot.runningRevoke).filter fun k => decide (k ≠ s.boot.runningKey) && !bit s.nvm.revoked k
  { s with nvm := { s.nvm with
    fusedSvn := max s.nvm.fusedSvn (min 64 s.boot.runningSvn)
    revoked := s.nvm.revoked + (named.map fun k => 2 ^ k).sum } }

/-- FW_ACTIVATE ends (R570, R574). -/
def State.endFwActivate (s : State) (slot trial commit : Bool) : Final × State :=
  let fault := s.nvm.imageFault (s.nvm.image slot)
  match s.nvm.governing with
  | none => (⟨stAuthFail, 0x10 + fault, []⟩, s)
  | some (_, g) =>
    if fault ≠ 0 then (⟨stAuthFail, 0x10 + fault, []⟩, s)
    else
      let r := if trial then { g with trial := b2n slot } else { g with active := slot, trial := 0xFF }
      let nvm := s.nvm.writeRecord r
      let s : State := { s with nvm := nvm, boot := { s.boot with shownActive := r.active, shownTrial := shownTrialOf r.trial } }
      let s := if commit then s.commitFuses else s
      (⟨stOk, 0, beBytes 1 (b2n r.active) ++ beBytes 1 r.trial ++ beBytes 1 s.nvm.fusedSvn ++ [0]⟩, s)

/-- SEC_STATUS (R574). -/
def State.secStatus (s : State) : Nat :=
  b2n s.boot.runningSlot * 2 ^ 31 + b2n s.boot.trialBoot * 2 ^ 30 + b2n s.boot.shownActive * 2 ^ 29 +
    s.boot.shownTrial % 4 * 2 ^ 27 + s.nvm.fusedSvn % 256 * 65536 + s.boot.runningSvn % 256 * 256 +
    s.nvm.revoked % 16 * 16 + s.nvm.provisioned % 16

/-- SEC_TRUST (R574). -/
def State.secTrust (s : State) : Nat :=
  match trustKeys s.nvm.trust with
  | none => 0
  | some keys => 2 ^ 31 + keys.length % 32

end Sys2Proof.Machine
end

