-- ==== Sys2Proof/Machine/Complete.lean ====
section
/-! DEFINITION. The end of PENDING commands (R64, R69, R70). -/

namespace Sys2Proof.Machine

/-- Every ring of an engine has ended its seek, or of some rings of it. -/
def State.settledRings (s : State) (e : Nat) (rs : List Nat) : Bool := rs.all fun r => !s.unsettled e r

/-- A command that firmware runs on its own can end now: its final outcome and what it does, with what a calibration measured;
none where its end is another event's, or where it still runs. -/
def State.firmwareEnd (s : State) (j : Job) (r : CalReport) : Option (Final × State) :=
  match j with
  | .firmware => some (⟨stOk, 0, []⟩, s)
  | .fwUpdate slot x => some (s.endFwUpdate slot x)
  | .fwActivate slot trial commit => some (s.endFwActivate slot trial commit)
  | .oeCalibrate e kind =>
    if kind ≠ 2 ∨ s.settledRings e (List.range 256) then some (s.endCalibration e kind r) else none
  | .reseek e rs => if s.settledRings e rs then some (s.endReseek e rs, s) else none
  | .funcReset fid hold => if hold ∧ s.holdDone (.funcReset fid hold) then some (⟨stOk, 0, []⟩, s) else none
  | _ => none

/-- Firmware itself runs the command, so it can end it with a fault. -/
def Job.byFirmware : Job → Bool
  | .firmware => true
  | .fwUpdate _ _ => true
  | .fwActivate _ _ _ => true
  | .oeCalibrate _ _ => true
  | .reseek _ _ => true
  | _ => false

/-- The fault code that firmware gives: a FW_UPDATE fails in its read-back alone (R569). -/
def Job.faultCode (j : Job) (code : Nat) : Nat :=
  match j with
  | .fwUpdate _ _ => 0x0E03
  | _ => code

/-- What a command that firmware could not complete leaves: a calibration no longer runs. -/
def State.firmwareFault (s : State) (j : Job) : State :=
  match j with
  | .oeCalibrate e kind => (s.stopCalibration e kind)
  | _ => s

/-- COMMAND_COMPLETE (R64): the outcome is delivered; INTERNAL comes with its event (R69, R70). -/
def execCommandComplete (session : BitVec 16) (tag : BitVec 32) (fw : FwEnd) (s : State) : Out :=
  .next <|
    match s.slotHeld session.toNat with
    | none => s
    | some i =>
      match (s.slot i).cmds.find? fun e => decide (e.tag = tag ∧ e.phase = .pending) with
      | none => s
      | some e =>
        match e.finished, fw with
        | some f, _ => s.complete i e f
        | none, .fault code applied =>
          if e.job.byFirmware then
            let s := (s.firmwareFault e.job).internalFault (s.slot i).engine e.opcode (e.job.faultCode code.toNat) applied.toNat
            s.complete i e ⟨stInternal, e.job.faultCode code.toNat, []⟩
          else s
        | none, .calibrated r =>
          match s.firmwareEnd e.job r with
          | some (f, s) => s.complete i e f
          | none => s
        | none, .good =>
          match s.firmwareEnd e.job ⟨[], [], [], []⟩ with
          | some (f, s) => s.complete i e f
          | none => s

end Sys2Proof.Machine
end

