-- ==== Sys2Proof/Machine/Egress.lean ====
section
/-! DEFINITION. What leaves on a port: flits (R108 to R118), frames and trains (R120, R121, R279), timed launches (R305) and
the boundaries of tide windows. -/

namespace Sys2Proof.Machine

/-! ## Frames in an egress queue (R103, R183, R279) -/

/-- The cells of a frame in a port's ORD queue. -/
def State.frameCells (s : State) (p n : Nat) : List QCell := (s.queue (eqKey p clsOrd)).filter fun q => decide (q.frame = n)

/-- All the cells of a frame stand in a list of its cells. -/
def wholeFrame (qs : List QCell) : Bool :=
  match qs.getLast? with
  | some q => q.last && decide (qs.length = q.cell.chunk + 1)
  | none => false

/-- The bytes that cells of a frame carry. -/
def frameBytes (qs : List QCell) : List Byte := qs.flatMap fun q => q.cell.payBytes 0 (min 64 q.cell.member)

/-- The frame has a new FCS (R237, R302). -/
def State.rewritten (s : State) (n : Nat) : Bool := (s.frames.routes.find n).any fun r => r.rewrite || r.timed

/-- The frame is routed (R237). -/
def State.routed (s : State) (n : Nat) : Bool := (s.frames.routes.find n).any FrameRoute.rewrite

/-- The frame that a port is sending. -/
def State.sendingOf (s : State) (p : Nat) : Option (Nat × List Byte) := s.frames.sending.find p

/-- A cell at the head of a port's ORD queue that is no part of a frame it can send: its frame is aborted (R183), or the
frame's first cell is not there; the frame being sent is none of these. -/
def State.orphaned (s : State) (p : Nat) (q : QCell) : Bool :=
  decide ((s.sendingOf p).map (·.1) ≠ some q.frame) && (s.frames.aborted.contains q.frame || decide (q.cell.chunk ≠ 0))

/-- Such cells leave the head of the ORD queue. -/
def State.clearOrd (s : State) (p : Nat) : State :=
  let k := eqKey p clsOrd
  let gone := (s.queue k).takeWhile (s.orphaned p)
  if gone.isEmpty then s
  else ((s.setQueue k ((s.queue k).dropWhile (s.orphaned p))).dropCells gone).settleDc p clsOrd

/-- The ORD cell that a port sends next: the next of the frame that it is sending, or the first of a new frame. -/
def State.ordNext (s : State) (p : Nat) : Option QCell :=
  match s.sendingOf p with
  | some (n, _) => (s.queue (eqKey p clsOrd)).find? fun q => decide (q.frame = n)
  | none => (s.queue (eqKey p clsOrd)).head?

/-! ## The transparent clock (R302) -/

/-- The place of a frame's EtherType. -/
def typeAt (bs : List Byte) : Nat := if beNat (padTo 2 (bs.drop 12)) = 0x8100 then 16 else 12

/-- The first cell of a bridged PTP frame of a foreign domain from an E-mode port, with the residence time added to its
correctionField: Sync, Pdelay_Req and Pdelay_Resp. -/
def State.residence (s : State) (q : QCell) : QCell :=
  let bs := q.cell.payBytes 0 64
  let at_ := typeAt bs + 2
  let n (off len : Nat) : Nat := beNat (padTo len (bs.drop off))
  let eMode : Bool := match q.src with
    | .eMode _ => true
    | _ => false
  if s.ptp.config.tcEn ∧ eMode ∧ !s.routed q.frame ∧ n (at_ - 2) 2 = 0x88F7 ∧ n (at_ + 4) 1 ≠ s.ptp.config.domain ∧
      [0, 2, 3].contains (n at_ 1 % 16) then
    let stay := ((s.time.p : Int) - q.ptp) / 2 ^ 24
    { q with cell := patchCell q.cell (at_ + 8) (bvBytes 8 (BitVec.ofNat 64 (n (at_ + 8) 8) + BitVec.ofInt 64 stay)) }
  else q

/-- A frame begins to leave: its first cell as it goes, and its FCS new where that has changed. -/
def State.startOrd (s : State) (q : QCell) : QCell × State :=
  let r := s.residence q
  if r = q then (q, s)
  else
    let routes := s.frames.routes.upd q.frame fun x => { x with timed := true }
    (r, { s with frames := { s.frames with routes := routes } })

/-! ## Dequeue for transmission on a C-mode port (R190, R276, R277) -/

/-- A window with SCHED open is current on a port. -/
def State.inSched (s : State) (p : Nat) : Bool := (s.schedWindow p s.ptpNs).isSome

/-- A cell leaves an egress queue. -/
def State.dequeue (s : State) (p c : Nat) (q : QCell) : State :=
  s.setQueue (eqKey p c) ((s.queue (eqKey p c)).erase q)

/-- A cell counts against its class's credit (R114). -/
def State.countSent (s : State) (p c : Nat) : State :=
  s.setPort p fun y => { y with sent := modAt y.sent c fun v => (v + 1) % 65536 }

/-- An ORD cell as the port sends it: FRAME is the port's own frame counter (R103). -/
def outOrd (frameNo : Nat) (c : Cell) : Cell :=
  let h := c.hdr.toNat
  { c with hdr := BitVec.ofNat 128 (h / 2 ^ 84 * 2 ^ 84 + frameNo % 2 ^ 21 * 2 ^ 63 + h % 2 ^ 63) }

/-- The bookkeeping of an ORD cell that is sent: the frame goes on, or ends with its last cell. -/
def State.frameSent (s : State) (p n : Nat) (bs : List Byte) (last : Bool) : State :=
  let f := s.frames
  let sending : AMap (Nat × List Byte) := if last then f.sending.del p else f.sending.put p (n, bs)
  let started := if f.started.contains n then f.started else n :: f.started
  let s : State := { s with frames := { f with sending := sending, started := started } }
  if last then s.setPort p fun y => { y with frameNo := (y.frameNo + 1) % 2 ^ 21 } else s

/-- The cell that ends an aborted frame on egress: four bytes that are no FCS of the bytes sent (R183). -/
def endCell (frameNo : Nat) (sent : List Byte) : Cell :=
  outOrd frameNo ⟨mkHdr 0 clsOrd 0 0 0 0 0 (sent.length / 64) 0 4 1 0, mkPay ((fcsOf sent).map fun b => ~~~b)⟩

/-- The bytes of an ORD cell as they go: those of a new FCS in the frame's last cell, and in the one before it where the FCS begins
there. `sent` are the frame's bytes that have gone. -/
def State.ordBytes (s : State) (q : QCell) (sent : List Byte) : List Byte :=
  let bs := q.cell.payBytes 0 (min 64 q.cell.member)
  if s.rewritten q.frame ∧ (q.last ∨ q.tail ≠ 0) then
    ((newFcs (sent ++ bs ++ List.replicate q.tail 0)).drop sent.length).take bs.length
  else bs

/-- A cell leaves its queue for the medium: it is counted and charged (R114, R278, R280). -/
def State.serve (s : State) (p c : Nat) (q : QCell) : State :=
  ((((s.dequeue p c q).countDeq p c).chargeSent p c q.cell).countSent p c).clearHead (eqKey p c)

/-- An ORD cell of a C-mode port goes. -/
def State.sendOrd (s : State) (p : Nat) (q : QCell) : Cell × State :=
  let sent := ((s.sendingOf p).map (·.2)).getD []
  let (r, s) := if (s.sendingOf p).isNone then s.startOrd q else (q, s)
  let bs := s.ordBytes r sent
  let s := s.serve p clsOrd q
  (outOrd (s.port p).frameNo { q.cell with pay := mkPay bs }, s.frameSent p q.frame (sent ++ bs) q.last)

/-- The next cell for one slot of a flit; `ctrlUsed`: a CTRL cell stands in the flit already. `fuel` bounds the cells
discarded for age on the way. -/
def State.nextCell (s : State) (p : Nat) (ctrlUsed : Bool) : Nat → Option Cell × State
  | 0 => (none, s)
  | fuel + 1 =>
    let s := s.clearOrd p
    let ok (c : Nat) : Bool := (decide (c ≠ clsOrd) || s.endDue p || (s.ordNext p).isSome) &&
      !(decide (c = clsCtrl) && ctrlUsed && s.inSched p)
    match s.nextClass p ok with
    | (none, s) => (none, s)
    | (some c, s) =>
      if c = clsOrd ∧ s.endDue p then
        let (n, bs) := (s.sendingOf p).getD (0, [])
        let e := endCell (s.port p).frameNo bs
        (some e, ((s.chargeSent p clsOrd e).countSent p clsOrd).frameSent p n [] true)
      else
        match if c = clsOrd then s.ordNext p else (s.queue (eqKey p c)).head? with
        | none => (none, s)
        | some q =>
          if s.aged q then State.nextCell (((s.dequeue p c q).ageCell (tileOf p) q).settleDc p c) p ctrlUsed fuel
          else if c = clsOrd then
            let (e, s) := s.sendOrd p q
            (some e, s)
          else
            let (e, s) := if isPtpCell q.cell then s.leavePtp p q.cell else (q.cell, s)
            (some e, s.serve p c q)

/-! ## Launches on a C-mode port (R305) -/

/-- The next cell of a launch whose time has come, with its time-stamp where it is the first. A cell waits for the credit
of its class (R114), and the head sweep bounds its wait (log entry 40). -/
def State.launchCell (s : State) (p : Nat) : Option Cell × State :=
  match if s.portUp p then (s.port p).launching else [] with
  | [] => (none, s)
  | l :: rest =>
    match l.cells with
    | [] => (none, s.setPort p fun y => { y with launching := rest })
    | c :: cs =>
      if !((s.port p).credit c.cls) then (none, s)
      else
        let left := if cs.isEmpty then rest else { l with cells := cs, report := false } :: rest
        let s := ((s.setPort p fun y => { y with launching := left }).countSent p c.cls).chargeShaper p 0 (s.charged p c) |>.countTx p c
        (some c, if l.report then s.addStamp (tileOf p) l.ident else s)

/-! ## Flits -/

/-- The slots of a flit being filled. -/
structure Filling where
  st : State
  cells : List (Option Cell)
  ctrl : Bool

/-- One slot filled: launches come before every queue. DESIGN CHOICE: the ORD cells of a launch go between those of a frame
being sent, R305 before R103 (log entry 66). -/
def Filling.slot (f : Filling) (p : Nat) : Filling :=
  match f.st.launchCell p with
  | (some c, s) => ⟨s, f.cells ++ [some c], f.ctrl || decide (c.cls = clsCtrl)⟩
  | (none, s) =>
    let (c, s) := s.nextCell p f.ctrl (s.egressUsed (tileOf p) + 1)
    ⟨s, f.cells ++ [c], f.ctrl || decide (c.map Cell.cls = some clsCtrl)⟩

/-- The link cell of a flit from a port (R109). -/
def State.ownLink (s : State) (p fseq ltype mask : Nat) : LinkCell :=
  let x := s.port p
  { fseq := BitVec.ofNat 16 fseq, ack := BitVec.ofNat 16 (x.expect + 65535), ltype := BitVec.ofNat 8 ltype,
    txLanes := BitVec.ofNat 8 x.tx, rxLanes := BitVec.ofNat 8 x.rx, rsv7 := 0, slotMask := BitVec.ofNat 16 mask,
    credit := x.limitOut.map (BitVec.ofNat 16), incarnation := s.boot.incarnation, rsv := 0, crc := 0 }

/-- An idle slot (R111). -/
def idleCell : Cell := ⟨0, 0⟩

/-- A flit leaves on a lane, with its marker and its CRC (R108, R110). -/
def State.putFlit (s : State) (l : Nat) (f : Flit) : State := s.toFibre l (.flit l (flitOnLane f))

/-- A flit without cells: unsequenced. -/
def State.sendUnsequenced (s : State) (l p : Nat) : State :=
  s.putFlit l ⟨List.replicate 15 idleCell, s.ownLink p 0 2 0⟩

/-- A replay request is to go with the next sequenced flit (R117). -/
def PortSt.asks (x : PortSt) : Bool := x.request || x.discarded

/-- The request has gone: it goes again after 2 µs. -/
def PortSt.asked (x : PortSt) (now : Nat) : PortSt :=
  if x.asks then { x with request := false, discarded := false, gapDue := some (now + gapNs) } else x

/-- A buffered flit sent again with the link fields of now (R117). -/
def State.sendAgain (s : State) (l p seq : Nat) (f : Flit) : State :=
  let link := s.ownLink p seq (b2n (s.port p).asks) f.link.slotMask.toNat
  let now := s.now
  (s.putFlit l { f with link := link }).setPort p fun y => { y.asked now with resend := y.resend.drop 1 }

/-- A new sequenced flit (R112, R116). -/
def State.sendNew (s : State) (l p : Nat) : State :=
  let f := (List.range 15).foldl (fun f _ => f.slot p) (⟨s, [], false⟩ : Filling)
  let s := f.st
  let mask := (f.cells.zipIdx.map fun c => if c.1.isSome then 2 ^ c.2 else 0).sum
  let x := s.port p
  let flit : Flit := ⟨f.cells.map fun c => c.getD idleCell, s.ownLink p x.fseq (b2n x.asks) mask⟩
  let now := s.now
  (s.putFlit l flit).setPort p fun y =>
    { y.asked now with
      fseq := (y.fseq + 1) % 65536
      replay := y.replay ++ [(y.fseq, flit)]
      ackAt := if y.replay.isEmpty then now else y.ackAt }

/-- The wavelength whose turn it is: the next of TX_LANES after the last, in ascending order, round robin (R112). -/
def PortSt.turn (x : PortSt) : Option Nat :=
  match (maskBits 8 x.tx).find? fun w => decide (x.lastTx < w) with
  | some w => some w
  | none => (maskBits 8 x.tx).head?

/-- FLIT_TRANSMIT (R46, R108 to R118, R124): on a lane outside TX_LANES an unsequenced flit, after which a lane that has
returned may join them. DESIGN CHOICE: a lane of TX_LANES whose turn it is not sends nothing (log entry 67). -/
def execFlitTransmit (lane : Lane) (s : State) : Out :=
  .next <|
    let l := lane.val
    let p := s.portOf l
    let x := s.port p
    if s.boot.phase ≠ .done ∨ !s.configured p ∨ !s.isC p ∨ !x.st.formed ∨ !(s.lane l).ok .tx then s
    else if !bit x.tx (lambdaOf l) then ((s.sendUnsequenced l p).setLane l fun y => { y with txNew := false }).retune p
    else if x.turn ≠ some (lambdaOf l) then s
    else
      let s := s.setPort p fun y => { y with lastTx := lambdaOf l }
      match x.resend with
      | (seq, f) :: _ => s.sendAgain l p seq f
      | [] => if 256 ≤ x.replay.length then s.sendUnsequenced l p else s.sendNew l p

/-! ## E-mode ports (R121, R279) -/

/-- The time to the next boundary of a port's table at which a class is closed. -/
def State.closesIn (s : State) (p c : Nat) : Option Nat :=
  match s.tide.active.find p with
  | none => none
  | some tp =>
    let at_ := s.ptpNs
    let ends := tp.windows.flatMap fun w => [w.start, w.start + w.len]
    let shut := (ends.map fun e => nextAt tp.k e (at_ + 1)).filter fun t =>
      !(match tp.current t with
        | some w => bit w.gate c
        | none => decide (c ≠ clsSched))
    match shut with
    | [] => none
    | t :: ts => some (ts.foldl min t - at_)

/-- A frame of `bytes` bytes, with the 20 bytes that the medium adds, ends in time (R279). -/
def State.fits (s : State) (p c bytes : Nat) : Bool :=
  match s.closesIn p c with
  | none => true
  | some d => decide ((bytes + 20) * 8 ≤ d * 200 * popCount 8 (s.port p).tx)

/-- A CTRL frame or train may go: one for each SCHED window (R311). -/
def State.ctrlFree (s : State) (p : Nat) : Bool :=
  match s.schedWindow p s.ptpNs with
  | some e => decide ((s.port p).ctrlWin ≠ e)
  | none => true

/-- A CTRL train noted for its window. -/
def State.noteCtrl (s : State) (p c : Nat) : State :=
  match if c = clsCtrl then s.schedWindow p s.ptpNs else none with
  | some e => s.setPort p fun y => { y with ctrlWin := e }
  | none => s

/-- The whole frame at the head of a port's ORD queue. -/
def State.headFrame (s : State) (p : Nat) : Option (Nat × List QCell) :=
  match s.queue (eqKey p clsOrd) with
  | [] => none
  | q :: _ =>
    let qs := s.frameCells p q.frame
    if wholeFrame qs then some (q.frame, qs) else none

/-- The port is taken by a frame of `bytes` bytes, with the 20 bytes that the medium adds, at its active rate. -/
def State.occupy (s : State) (p bytes : Nat) : State :=
  let rate := 200 * popCount 8 (s.port p).tx
  let now := s.now
  s.setPort p fun y => { y with busyTill := now + ((bytes + 20) * 8 + rate - 1) / rate }

/-- The cells of a frame or train leave their queue one by one (R278, R279). -/
def State.serveAll (s : State) (p c : Nat) (qs : List QCell) : State :=
  (qs.foldl (fun s q => ((s.dequeue p c q).countDeq p c).chargeSent p c q.cell) s).clearHead (eqKey p c)

/-- A whole frame goes out of an E-mode port. -/
def State.sendFrame (s : State) (p n : Nat) (qs : List QCell) : State :=
  let (out, s) := match qs with
    | q :: rest =>
      let (r, s) := s.startOrd q
      (r :: rest, s)
    | [] => ([], s)
  let bs := if s.rewritten n then newFcs (frameBytes out) else frameBytes out
  ((s.serveAll p clsOrd qs).toFibre p (.frame p bs)).occupy p bs.length

/-- The cells that the next train of a queue takes: 18 at most; a PTP message is a frame of its own (R301). -/
def State.trainOf (s : State) (p c : Nat) : List QCell :=
  ((s.queue (eqKey p c)).take 18).takeWhile fun q => !isPtpCell q.cell

/-- A train of cells from one queue goes out of an E-mode port. -/
def State.sendTrain (s : State) (p c : Nat) (qs : List QCell) : State :=
  (((s.serveAll p c qs).noteCtrl p c).putTrain p (qs.map QCell.cell)).occupy p (22 + 80 * qs.length)

/-- A PTP message goes out of an E-mode port. -/
def State.sendPtpFrame (s : State) (p : Nat) (q : QCell) : State :=
  let (c, s) := s.leavePtp p q.cell
  let bs := ptpFrame p c
  (((s.serveAll p clsCtrl [q]).noteCtrl p clsCtrl).toFibre p (.frame p bs)).occupy p bs.length

/-- Aged cells among some of an egress queue leave it as it is served (R190). -/
def State.dropAged (s : State) (p c : Nat) (qs : List QCell) : State :=
  ((qs.filter s.aged).foldl (fun s q => (s.dequeue p c q).ageCell (tileOf p) q) s).settleDc p c

/-- The port idles until the boundary at which a class that it could not finish closes (R279). -/
def State.idle (s : State) (p c : Nat) : State :=
  let till := (s.closesIn p c).map fun d => s.ptpNs + d
  s.setPort p fun y => { y with idleTill := till }

/-- The port idles now. -/
def State.idles (s : State) (p : Nat) : Bool :=
  (s.tide.active.find p).isSome && (s.port p).idleTill.any fun t => decide (s.ptpNs < t)

/-- The train that a queue's head cells make is due: it is full, or its fill wait has ended (R121). -/
def State.trainDue (s : State) (qs : List QCell) : Bool :=
  decide (qs.length = 18) || (qs.head?.any fun q => decide (q.fill ≤ s.now))

/-- What an E-mode port starts now; `fuel` bounds the turns that age empties. -/
def State.eStart (s : State) (p : Nat) : Nat → State
  | 0 => s
  | fuel + 1 =>
    let s := s.clearOrd p
    let ok (c : Nat) : Bool := (decide (c ≠ clsOrd) || (s.headFrame p).isSome) && (decide (c ≠ clsCtrl) || s.ctrlFree p)
    let wait := s.passPointer p ok
    match s.nextClass p ok with
    | (none, s') => s'
    | (some c, s') =>
      if c = clsOrd then
        match s.headFrame p with
        | none => s'
        | some (n, qs) =>
          if qs.any s.aged then State.eStart (s.dropAged p c qs) p fuel
          else if s.fits p c (frameBytes qs).length then s'.sendFrame p n qs else wait.idle p c
      else
        let head := (s.queue (eqKey p c)).take 18
        if head.any s.aged then State.eStart (s.dropAged p c head) p fuel
        else
          match s.trainOf p c, head with
          | [], q :: _ => if s.fits p c (ptpFrame p q.cell).length then s'.sendPtpFrame p q else wait.idle p c
          | qs, _ =>
            if !s.trainDue qs then wait
            else if s.fits p c (22 + 80 * qs.length) then s'.sendTrain p c qs else wait.idle p c

/-- An E-mode port can take a frame or train: what it sends has ended (R279). -/
def State.eServe (s : State) (p : Nat) : State :=
  if s.eLive p then
    let s := s.advanceTo (s.port p).busyTill
    if s.idles p then s else s.eStart p (s.egressUsed (tileOf p) + 1)
  else s

/-- E_MODE_TRANSMIT_START (R121, R279). -/
def execEModeTransmitStart (port : Lane) (s : State) : Out := .next (s.eServe port.val)

/-- When the fill wait of the first train among a port's queues ends. -/
def State.fillDue (s : State) (p : Nat) : Option Nat :=
  match [0, 1, 2, 3, 4, 5, 7].filterMap fun c => (s.queue (eqKey p c)).head?.map QCell.fill with
  | [] => none
  | t :: ts => some (ts.foldl min t)

/-- TRAIN_FILL_EXPIRY (R121): TRAIN_FILL has passed since the first cell of the train was ready. -/
def execTrainFillExpiry (port : Lane) (s : State) : Out :=
  .next <|
    match s.fillDue port.val with
    | none => s
    | some t => (s.advanceTo t).eServe port.val

/-- TIDE_WINDOW_BOUNDARY (R276, R279, R306): PTP time reaches the next boundary of a port's table. -/
def execTideWindowBoundary (port : Lane) (s : State) : Out :=
  .next <|
    match s.tide.active.find port.val with
    | none => s
    | some tp =>
      match (tp.windows.flatMap fun w => [w.start, w.start + w.len]).map fun e => nextAt tp.k e (s.ptpNs + 1) with
      | [] => s
      | t :: ts => s.advancePtp (ts.foldl min t)

/-! ## TIMED_LAUNCH_DUE (R305, R316) -/

/-- A launch whose time has come, on a port that is UP; on an E-mode port once a frame or train in progress has ended. -/
def State.launchNow (s : State) (l : Launch) : State :=
  let p := l.lane
  let now := s.now
  if s.isC p then s.setPort p fun y => { y with launching := y.launching ++ [{ l with due := now }] }
  else
    let s := s.advanceTo (s.port p).busyTill
    let bs := withFcs l.frame
    let n := ((bs.length : Int) + s.overhead p).toNat.max 1
    let s := (ordCells 0 bs).foldl (fun s c => s.countTx p c) (s.chargeShaper p 0 n)
    let s := (s.toFibre p (.frame p bs)).occupy p bs.length
    if l.report then s.addStamp (tileOf p) l.ident else s

/-- TIMED_LAUNCH_DUE (R305, R316): the earliest launch of a tile. It goes at T, or at once where a step has passed T; where T
lies in a SCHED window, it waits until that window ends. -/
def execTimedLaunchDue (tile : Tile) (s : State) : Out :=
  .next <|
    let t := tile.val
    match s.launches t with
    | [] => s
    | l :: rest =>
      let s := s.advancePtp l.at_
      match s.schedWindow l.lane l.at_ with
      | some e => s.setLaunches t (insertBy Launch.at_ { l with at_ := e } rest)
      | none =>
        let s := s.setLaunches t rest
        if s.portUp l.lane then s.launchNow l
        else
          (s.bump .tileLaunchMissed [t]).raiseEv 0x0402 1 (fidTile t)
            (beBytes 2 l.lane ++ beBytes 2 l.ident ++ beBytes 8 l.at_)

end Sys2Proof.Machine
end

