-- ==== Sys2Proof/Machine/Generations.lean ====
section
/-! DEFINITION. Route generations: their commands, activation and retirement (R251 to R258, R266). -/

namespace Sys2Proof.Machine

/-- An image loaded into a bank in every quadrant, and into its shadow (R256, R261). -/
def State.loadBank (s : State) (b : Nat) (images : List EntryImage) : State :=
  let put (m : AMap EntryImage) : AMap EntryImage :=
    [0, 1, 2, 3].foldl (init := m) fun m q => images.zipIdx.foldl (init := m) fun m (img, i) =>
      m.setD (tblKey q (2 + b) i) 0 (imgStore (2 + b) img)
  let t := s.tables.fresh ([0, 1, 2, 3].flatMap fun q => (List.range images.length).map (tblKey q (2 + b)))
  { s with tables := { t with entries := put t.entries, shadow := put t.shadow } }

/-- The ARMED bank becomes ACTIVE and the ACTIVE one DRAINING (R257). -/
def State.activate (s : State) : State :=
  let a := s.gen.act
  let b := 1 - a
  let x := s.gen.bank b
  if x.st ≠ .armed then s
  else
    let now := s.ptpNs
    let old := { s.gen.bank a with
      st := .draining, t := now, horizon := ((s.banked a).map (·.limit)).foldl max 0, stale := 0 }
    let s : State := { s with gen := (s.gen.setBank a old).setBank b { x with st := .active, activated := now } }
    s.bump .genCommits []

/-- GEN_ACTIVATION (R257): PTP time reaches the armed T. -/
def execGenActivation (s : State) : Out :=
  .next <|
    let b := s.gen.bank (1 - s.gen.act)
    if b.st = .armed then (if b.immediate then s else s.advancePtp b.t).activate else s

/-- GEN_RETIRE (R255 to R258): the DRAINING bank holds no cell, and its horizon and its cutoff have passed. -/
def execGenRetire (s : State) : Out :=
  .next <|
    let a := s.gen.act
    let d := 1 - a
    let b := s.gen.bank d
    if b.st ≠ .draining ∨ s.inflight d ≠ 0 then s
    else
      let s := (s.advanceTo b.horizon).advancePtp (b.t + s.lateCutoff)
      let res := beBytes 1 a ++ [0, 0, 0] ++ beBytes 8 (s.gen.bank a).activated ++ beBytes 8 s.ptpNs ++ beBytes 4 b.stale
      let s := s.endJobs (fun j => decide (j = .genActivate a)) ⟨stOk, 0, res⟩
      let idle := { b with st := .idle, t := 0, horizon := 0, stale := 0, immediate := false }
      match s.gen.queued with
      | none => { s with gen := s.gen.setBank d idle }
      | some q =>
        let s := s.loadBank d q.image
        let s : State := { s with gen := { s.gen.setBank d { idle with st := .armed, t := q.t, immediate := q.immediate } with
          queued := none } }
        if q.immediate then s.activate
        else if q.t ≤ s.ptpNs then
          ((s.activate).bump .genLate []).raiseEv 0x0701 2 srcNone (beBytes 8 q.t ++ beBytes 8 s.ptpNs)
        else s

/-- GEN_ACTIVATE (R256, R258). -/
def execGenActivate (iss : Issuer) (flags rsv : Byte) (handle : BitVec 16) (t : BitVec 64) (met : List BlockErr)
    (s : State) : Out :=
  .next <| hostCmd (.genActivate iss flags rsv handle t met) (fun i s =>
    let imm := flags.getLsbD 0
    let img := flags.getLsbD 1
    let n := 1 - s.gen.act
    let b := s.gen.bank n
    let at_ := t.toNat
    let before := [(decide (flags.toNat < 4), 0), rsvOk rsv 1]
    let now := s.startingReceipt i
    let timeOk := imm || decide (now + 2000 ≤ at_ ∧ at_ ≤ now + 10000000000)
    let held (s : State) (k : Ans × State) : Ans × State :=
      let at_ := s.startingOrder i
      match (s.conflict (s.slot i).number at_ 2 15 0 512).orElse fun _ => s.conflict (s.slot i).number at_ 3 15 0 512 with
      | some m => (.done stConflict m [], s)
      | none => k
    let arm (s : State) (objs : List Nat) : Ans × State :=
      let s : State := { s with gen := s.gen.setBank n { b with st := .armed, t := if imm then 0 else at_, immediate := imm } }
      (.pend objs (.genActivate n), if imm then s.activate else s)
    let busy : Ans × State := (.done stBusy 2 [], s)
    if img then
      withObject i handle 2 4 (fun l => decide (l = 16384)) before [(timeOk, 4)] [fidTbl 0, fidTbl 1, fidTbl 2, fidTbl 3] s fun o =>
        held s <|
          if b.st = .armed ∨ s.gen.queued.isSome then busy
          else
            consuming handle o met s fun s =>
              if b.st = .draining then
                (.pend [handle.toNat] (.genActivate n), { s with gen := { s.gen with
                  queued := some ⟨if imm then 0 else at_, imm, objImages o 512⟩ } })
              else arm (s.loadBank n (objImages o 512)) [handle.toNat]
    else
      guardParams (before ++ [(timeOk, 4)]) s <| held s <|
        if b.st = .idle then arm s [] else busy) s

/-- GEN_ACTIVE. -/
def State.genActive (s : State) : Nat :=
  s.gen.bank1.st.code * 16 + s.gen.bank0.st.code * 4 + s.gen.act

/-- T of the armed or queued activation; 0 if none. -/
def State.armTime (s : State) : Nat :=
  let b := s.gen.bank (1 - s.gen.act)
  if b.st = .armed then b.t
  else
    match s.gen.queued with
    | some q => q.t
    | none => 0

/-- GEN_HORIZON_g: 0 unless DRAINING. -/
def State.horizon (s : State) (g : Nat) : Nat := if (s.gen.bank g).st = .draining then (s.gen.bank g).horizon else 0

/-- GEN_STATUS (R266). -/
def execGenStatus (iss : Issuer) (s : State) : Out :=
  .next <| hostCmd (.genStatus iss) (fun _ s =>
    (ok (beBytes 4 s.genActive ++ beBytes 4 (s.inflight 0) ++ beBytes 4 (s.inflight 1) ++ [0, 0, 0, 0] ++
      beBytes 8 s.armTime ++ beBytes 8 (s.horizon 0) ++ beBytes 8 (s.horizon 1)), s)) s

/-- GEN_ABANDON (R258, R266). -/
def execGenAbandon (iss : Issuer) (s : State) : Out :=
  .next <| hostCmd (.genAbandon iss) (fun _ s =>
    let n := 1 - s.gen.act
    let b := s.gen.bank n
    let ended (s : State) : State := s.endJobs (fun j => decide (j = .genActivate n)) ⟨stBadParam, 0xFFFF, []⟩
    if s.gen.queued.isSome then (ok (beBytes 1 n ++ [0, 0, 0]), ended { s with gen := { s.gen with queued := none } })
    else if b.st = .armed then
      (ok (beBytes 1 n ++ [0, 0, 0]), ended { s with gen := s.gen.setBank n { b with st := .idle, t := 0, immediate := false } })
    else (badParam 0xFFFF, s)) s

end Sys2Proof.Machine
end

