-- ==== Sys2Proof/Machine/Power.lean ====
section
/-! DEFINITION. Power and heat (R516 to R523), and the commands POWER_CAP and POWER_STATUS (R531). Powers are in 1/8 W. -/

namespace Sys2Proof.Machine

/-- A die's maximum (R516). -/
def dieMax (d : Nat) : Nat := if d = 0 then 9200 else if d = 1 then 1120 else if d < 18 then 480 else 2352

/-- The function whose reset silences a die: engines and bridges. -/
def dieFid (d : Nat) : Option Nat := if d < 2 then none else if d < 18 then some (fidOe (d - 2)) else some (fidBrg (d - 18))

def State.die (s : State) (d : Nat) : DieSt := s.pwr.dies.getD d DieSt.init

def State.setDie (s : State) (d : Nat) (g : DieSt → DieSt) : State :=
  { s with pwr := { s.pwr with dies := s.pwr.dies.modD d DieSt.init g } }

/-- A die in function reset, or under test (R520, R546). -/
def State.dieDown (s : State) (d : Nat) : Bool := (dieFid d).any s.fnDown

/-- The dies that answer the power manager. -/
def farDies : List Nat := rangeFrom 1 21

/-- The verdict that the registers show: 3 while SILENT or in reset (R535). -/
def State.verdict (s : State) (d : Nat) : Nat :=
  if d = 0 then 0 else if s.dieDown d ∨ (s.die d).silent then 3 else (s.die d).verdict

/-! ## The period (R519, R520, R522) -/

/-- A die that has not answered the last PROPOSE (R520). -/
def State.judgeReply (s : State) (d : Nat) : State :=
  let x := s.die d
  if s.dieDown d then s.setDie d fun x => { x with waiting := false, missed := 0, silent := false, verdict := 3 }
  else if !x.waiting then s
  else
    let missed := x.missed + 1
    let s := s.setDie d fun x => { x with missed := missed, silent := decide (3 ≤ missed) }
    if missed < 3 then s
    else
      let s := s.bump .pwrSilent []
      if missed = 3 then s.raiseEv 0x0302 2 srcPower (beBytes 1 d) else s

/-- What the manager plans for a die before any cut: its MEASURED and its forecast, up to its maximum; the maximum for a die
that is SILENT or in reset. -/
def State.plan_ (s : State) (forecast : List (Die × BitVec 16)) (d : Nat) : Nat :=
  if s.dieDown d ∨ (s.die d).silent then dieMax d
  else
    let f : Int := match forecast.find? fun x => decide (x.1.val = d) with
      | some x => x.2.toInt
      | none => 0
    min (dieMax d) (((s.die d).measured : Int) + f).toNat

/-- A bridge's budget after its part of a deficit, down to its FLOOR. -/
def cutTo (budget floor deficit total : Nat) : Nat :=
  max (min budget floor) (budget - (deficit * budget + total - 1) / max 1 total)

/-- No forecast (R517). -/
def StepForecast.none_ : StepForecast := ⟨0x8000, 0, 0⟩

/-- A message between dies, with the CRC-16 that follows it (R517). -/
def sealMessage (bs : List Byte) : List Byte := bs ++ bvBytes 2 (Config.messageCrc bs)

/-- A PROPOSE (R517). -/
def proposeBytes (d seq budget : Nat) (f : StepForecast) : List Byte :=
  sealMessage <| [0x11] ++ beBytes 1 d ++ beBytes 2 seq ++ beBytes 2 budget ++ bvBytes 2 f.onset ++ bvBytes 2 f.rise ++ bvBytes 2 f.slew ++
    [0, 0, 0, 0]

/-- A REPLY (R517). -/
def replyBytes (d seq verdict : Nat) (r : DieReading) : List Byte :=
  sealMessage <| [0x12] ++ beBytes 1 d ++ beBytes 2 seq ++ bvBytes 2 r.measured ++ bvBytes 2 r.floor ++ bvBytes 2 r.temp ++
    bvBytes 2 r.slope ++ beBytes 1 verdict ++ [0, 0, 0]

/-- Two bytes of a message. -/
def field2 (bs : List Byte) (i : Nat) : Nat := beNat ((bs.drop i).take 2)

/-- PROPOSE to a die: its budget, and the forecast for its engine (R517, R522). A die in reset is sent none. -/
def State.propose (s : State) (steps : List (Engine × StepForecast)) (d budget : Nat) : State :=
  let f := ((steps.find? fun x => decide (x.1.val + 2 = d)).map (·.2)).getD StepForecast.none_
  let up := !s.dieDown d
  let msg := if up then some (proposeBytes d s.pwr.seq budget f) else none
  s.setDie d fun x => { x with budget := budget, waiting := up, proposed := msg }

/-! ## Heat (R521, R523) -/

/-- The temperature from which a die throttles, in 1/16 °C (R521). -/
def throttleAt (d : Nat) : Int := if 2 ≤ d ∧ d < 18 then 1440 else 1520

/-- The temperature at which a die trips, in 1/16 °C: 115 °C, 110 °C for the Cellar, 105 °C for engines and bridges (R521). -/
def tripAt (d : Nat) : Int := if d = 0 then 1840 else if d = 1 then 1760 else 1680

/-- A tile's ratio moved by one step down, counted (R175). -/
def State.ratioDown (s : State) (t : Nat) : State :=
  if (s.tile t).ratio ≤ 1 then s
  else (s.setTile t fun x => { x with ratio := x.ratio - 1 }).bump .tileThrottleSteps [t]

/-- A trip: THERMTRIP_N goes low and every domain is held in reset (R523). -/
def State.trip (s : State) : State := s.wholeReset { s.pins with tripped := true } s.boot.cause

/-- The hottest sensor of a die as it is read (R521): the die throttles from its temperature on, and trips at its other. -/
def State.sense (s : State) (d : Nat) (temp : BitVec 16) : State :=
  if tripAt d ≤ temp.toInt then s.trip
  else
    let hot := decide (throttleAt d ≤ temp.toInt)
    let rises := hot && !(s.die d).slowed
    let s := s.setDie d fun x => { x with temp := temp.toNat, slowed := hot }
    if d = 0 then
      let s := (List.range 64).foldl (fun s t => s.setTile t fun x => { x with hot := hot }) s
      if rises then (List.range 64).foldl State.ratioDown s else s
    else if 2 ≤ d ∧ d < 18 ∧ hotSensor temp.toNat ∧ !(s.oe (d - 2)).temps.any hotSensor then
      let (v, s) := s.drawFree
      let i := v.toNat % 4
      (s.setOe (d - 2) fun e => { e with temps := modAt e.temps i fun _ => temp.toNat }).raiseEv 0x8004 3 (fidOe (d - 2))
        (beBytes 1 i ++ beBytes 2 temp.toNat)
    else s

/-- The ratio that the manager now asks of a tile: `ratio`, and a step below the present one while the Cellar answers THROTTLE
(R519, R521; log entry 78). -/
def aimed (ratio now : Nat) (lower : Bool) : Nat := max 1 (min (min 16 ratio) (if lower then now - 1 else 16))

/-- POWER_PERIOD (R519, R520, R522). `logic` is the logic die's own reading over the last period, `need` the least that its
forecast asks for at n = 1, `ratio` the clock ratio at which it meets its share, `steps` what it predicts at the engines, and
`drivers` the tiles whose slices drive that forecast: the ramp guard holds them while a predicted slew exceeds SLEW_MAX, and
they rise in steps of RAMP_STEP from then on. -/
def execPowerPeriod (forecast : List (Die × BitVec 16)) (logic : DieReading) (need : BitVec 16) (ratio : Fin 17)
    (steps : List (Engine × StepForecast)) (drivers : List Tile) (s : State) : Out :=
  .next <|
    if s.boot.phase = .reset ∨ s.boot.phase = .stuck then s
    else if tripAt 0 ≤ logic.temp.toInt then s.trip
    else
      let s := farDies.foldl State.judgeReply (s.every .power 0 100000)
      let s := if s.pwr.throttled then s.bump .pwrThrottlePeriods [] else s
      let guarded := steps.any fun f => decide (16 * s.regBits .pwrConfig [] 7 0 < f.2.slew.toNat)
      let holds := if guarded then (drivers.map (·.val)).eraseDups else []
      let s := if guarded then s.bump .pwrRampHolds [] else s
      let s := (s.sense 0 logic.temp).setDie 0 fun x => { x with
        verdict := 0, measured := logic.measured.toNat, slope := logic.slope.toNat }
      let power := (logic.measured.toNat + (farDies.map fun d => (s.die d).measured).sum) / 8
      let cap := s.regBits .pwrCap [] 11 0 * 8
      let plans := farDies.map fun d => (d, s.plan_ forecast d)
      let share : Int := (cap : Int) - ((plans.map (·.2)).sum : Nat)
      let short := (need.toNat - share).toNat
      let cuttable := plans.filter fun p => decide (18 ≤ p.1) && !s.dieDown p.1 && !(s.die p.1).silent
      let total := (cuttable.map (·.2)).sum
      let budgets := if short = 0 then plans else plans.map fun p =>
        if cuttable.any fun c => decide (c.1 = p.1) then (p.1, cutTo p.2 (s.die p.1).floor short total) else p
      let above := decide (cap < (budgets.map (·.2)).sum + need.toNat)
      let lower := decide ((s.die 1).verdict = 1)
      let was := s.pwr.overCap
      let pwr : Pwr := { s.pwr with
        seq := (s.pwr.seq + 1) % 65536, overCap := above, rampHold := holds
        ramping := (holds ++ s.pwr.ramping).eraseDups, power := power, throttled := false }
      let s := budgets.foldl (fun s b => s.propose steps b.1 b.2) { s with pwr := pwr }
      let s := (List.range 64).foldl (fun s t => s.setTile t fun x => { x with
        target := if short = 0 then aimed ratio.val x.ratio lower else 1 }) s
      if above ∧ !was then s.raiseEv 0x0301 2 srcPower (beBytes 2 power ++ beBytes 2 (cap / 8)) else s

/-- POWER_REPLY_RECEIVE (R517): the die's REPLY arrives; one of an earlier period counts for nothing. -/
def execPowerReplyReceive (d : Die) (s : State) : Out :=
  .next <|
    let d := d.val
    match (s.die d).answer with
    | none => s
    | some m =>
      let s := s.setDie d fun x => { x with answer := none }
      let verdict := ((m.getD 12 0) : Byte).toNat
      if d = 0 ∨ s.dieDown d ∨ field2 m 2 ≠ s.pwr.seq then s
      else
        let s := s.setDie d fun x => { x with
          verdict := verdict, measured := field2 m 4, floor := field2 m 6
          temp := field2 m 8, slope := field2 m 10, waiting := false, missed := 0, silent := false }
        if verdict = 1 then { s with pwr := { s.pwr with throttled := true } }
        else if verdict = 2 then s.bump .pwrRefusals []
        else s

/-! ## At the die (R518, R520) -/

/-- The forecast that a PROPOSE carries: its onset counts from the start of the period. A message that repeats an onset goes
on with the step it began (R447, R517). -/
def State.forecastOf (s : State) (e : Nat) (m : List Byte) : Option Forecast :=
  if field2 m 6 = 0x8000 then none
  else
    let x := s.oe e
    let onset := ((s.ticks.getD (tickKey .power 0) 0 : Int) + signed16 (field2 m 6) * 1000).toNat
    let fresh : Forecast := ⟨onset, field2 m 8, field2 m 10, x.temps.map signed16, false⟩
    match x.forecast with
    | some f => if f.onset = onset then some { f with rise := fresh.rise, slew := fresh.slew } else some fresh
    | none => some fresh

/-- PROPOSE_RECEIVE (R518): GRANT, THROTTLE or REFUSE. Engines and the Cellar never throttle for a budget; a Cellar at its
throttle temperature answers THROTTLE (R521). `expected` is the power that the die expects to draw unchanged, and `now` what
it measures. -/
def execProposeReceive (d : Die) (expected : BitVec 16) (now : DieReading) (s : State) : Out :=
  .next <|
    let d := d.val
    let x := s.die d
    match x.proposed with
    | none => s
    | some m =>
      if s.dieDown d then s
      else
        let budget := field2 m 4
        let rigid := decide (d < 18)
        let verdict :=
          if budget < now.floor.toNat then 2
          else if rigid ∧ budget < now.measured.toNat then 2
          else if d = 1 ∧ (x.slowed ∨ throttleAt 1 ≤ now.temp.toInt) then 1
          else if rigid ∨ expected.toNat ≤ budget then 0 else 1
        let s := s.setDie d fun x => { x with
          proposed := none, answer := some (replyBytes d (field2 m 2) verdict now), limit := none }
        if 2 ≤ d ∧ d < 18 then
          let f := s.forecastOf (d - 2) m
          s.setOe (d - 2) fun e => { e with forecast := f }
        else s

/-- PROPOSE_TIMEOUT (R520): the die limits itself to its maximum scaled by PWR_CAP / 3,500 W. -/
def execProposeTimeout (d : Die) (s : State) : Out :=
  .next <|
    if d.val = 0 ∨ s.dieDown d.val ∨ s.boot.phase = .reset then s
    else
      let cap := s.regBits .pwrCap [] 11 0
      s.setDie d.val fun x => { x with limit := some (dieMax d.val * cap / 3500) }

/-! ## Clock ratios and heat (R146, R519, R521, R523) -/

/-- TILE_RATIO_STEP (R519, R521, R522, R532): one step toward the target after 1 µs, one step down after 10 µs while the logic
die is hot, and a raise, which waits for the heat and the ramp guard too, after RAMP_STEP µs where the guard has held the
tile. -/
def execTileRatioStep (tile : Tile) (s : State) : Out :=
  .next <|
    let t := tile.val
    let x := s.tile t
    let ramps := s.pwr.ramping.contains t
    if s.fnDown (fidTile t) then s
    else if x.target < x.ratio then (s.every .ratioStep t 1000).ratioDown t
    else if x.hot then (s.every .ratioStep t 10000).ratioDown t
    else if x.ratio < x.target ∧ !s.pwr.rampHold.contains t then
      let s := s.every .ratioStep t (if ramps then s.regBits .pwrConfig [] 15 8 * 1000 else 1000)
      let s := s.setTile t fun x => { x with ratio := x.ratio + 1 }
      if x.ratio + 1 < x.target then s
      else { s with pwr := { s.pwr with ramping := s.pwr.ramping.filter fun y => decide (y ≠ t) } }
    else s

/-- THERMAL_THROTTLE (R521): a die's hottest sensor crosses its throttle temperature, upward or back. -/
def execThermalThrottle (die : Die) (temp : BitVec 16) (s : State) : Out :=
  .next <|
    if s.boot.phase = .reset then s else s.sense die.val temp

/-- THERMAL_TRIP (R521, R523): a die's hottest sensor has reached its trip temperature. -/
def execThermalTrip (die : Die) (temp : BitVec 16) (s : State) : Out :=
  .next <| if tripAt die.val ≤ temp.toInt ∧ s.boot.phase ≠ .reset then s.trip else s

/-! ## Commands and registers (R531, R535) -/

/-- PWR_STATUS. -/
def State.pwrStatus (s : State) : Nat :=
  let thermal := (List.range 22).any fun d => decide (throttleAt d ≤ signed16 (s.die d).temp)
  b2n s.pwr.overCap * 2 ^ 31 + b2n (!s.pwr.rampHold.isEmpty) * 2 ^ 30 + b2n thermal * 2 ^ 29 + min s.pwr.power 4095

/-- PWR_DIE. -/
def State.pwrDie (s : State) (d : Nat) : Nat :=
  s.verdict d * 2 ^ 30 + (s.die d).temp % 4096 * 2 ^ 16 + (s.die d).measured % 65536

/-- POWER_CAP (R531): the cap applies from the next period. -/
def execPowerCap (iss : Issuer) (cap rsv : BitVec 16) (s : State) : Out :=
  .next <| hostCmd (.powerCap iss cap rsv) (fun _ s =>
    guardParams [(decide (2000 ≤ cap.toNat ∧ cap.toNat ≤ 3500), 0), rsvOk rsv 2] s
      (ok (beBytes 2 (s.regBits .pwrCap [] 11 0) ++ [0, 0]), s.setReg .pwrCap [] (BitVec.ofNat 32 cap.toNat))) s

/-- POWER_STATUS (R531). -/
def execPowerStatus (iss : Issuer) (s : State) : Out :=
  .next <| hostCmd (.powerStatus iss) (fun _ s =>
    (ok (beBytes 2 s.pwr.power ++ beBytes 2 (s.regBits .pwrCap [] 11 0) ++ beBytes 4 s.pwrStatus ++
      (List.range 22).flatMap fun d =>
        let x := s.die d
        beBytes 1 d ++ beBytes 1 (s.verdict d) ++ beBytes 2 x.measured ++ beBytes 2 x.temp ++ beBytes 2 x.slope), s)) s

end Sys2Proof.Machine
end

