-- ==== Sys2Proof/Machine/Swell.lean ====
section
/-! DEFINITION. Swell: instances and their sums (R488 to R499), calibration (R500) and its commands (R501, R506). -/

namespace Sys2Proof.Machine

/-! ## An instance starts (R488, R491, R499) -/

/-- The next Swell window on a wavelength of an engine that is not the one in progress, with its moment. -/
def State.nextSwell (s : State) (e w : Nat) : Option (Nat × PlacedWin) :=
  let ts := s.tablesNow
  let wins := (engineWins ts e).filter fun x => x.w.swell && bit x.w.mask w
  let cycle := engineCycle ts e
  let running := (s.swl.insts.find (e * 8 + w)).map SwlInst.start
  wins.foldl (init := none) fun best x =>
    let t := nextAt (Nat.log2 cycle) x.w.start s.ptpNs
    let t := if running = some t then t + cycle else t
    match best with
    | none => some (t, x)
    | some b => if t < b.1 then some (t, x) else some b

/-- The context that claims an instance on an engine, by its first number. -/
def State.claimer (s : State) (e w start len : Nat) : Option Nat :=
  (s.est.ctxs.find? fun c => c.2.st.live && decide (c.2.type = 11) &&
    c.2.claims.any (fun k => decide (k.start = start ∧ k.len = len) && bit k.mask w) &&
    match s.ownerOf c.2 with
    | none => false
    | some o => (s.ownerFibres o).any fun f => f.any fun f => decide (f / 16 = e)).map (·.1)

/-- The fibre of a member of a context. -/
def State.memberFibre (s : State) (c : Ctx) (m : Nat) : Option Nat := s.podFibre (recAddr (s.memberRec c m) / 2048)

/-- The divert rings of some lanes set (R473). -/
def State.setDiverts (s : State) (ls : List Nat) (g : Nat → Divert) : State :=
  { s with csw := { s.csw with diverts := ls.foldl (fun m l => m.setD l .pass (g l)) s.csw.diverts } }

/-- The divert ring of a lane stands at SUM. -/
def State.toSum (s : State) (l : Nat) : Bool := decide (s.csw.diverts.getD l .pass = .sum)

/-- SWELL_INSTANCE_START (R491): divert rings go to SUM for the active members of the context that claims the instance, and
to DUMP for every other contributor. `present` lists the lanes whose light the monitors read in the preamble; while the
engine is in reset its inputs are absent (R499). -/
def execSwellInstanceStart (engine : Engine) (lambda : Fin 8) (present : List Lane) (s : State) : Out :=
  .next <|
    let e := engine.val
    let w := lambda.val
    if (s.swl.insts.find (e * 8 + w)).isSome then s
    else
      match s.nextSwell e w with
      | none => s
      | some (t, x) =>
        let s := s.advancePtp t
        let lanes := (((engineWins s.tablesNow e).filter fun y =>
          y.w.swell && bit y.w.mask w && decide (y.w.start = x.w.start)).map fun y => fibreOf y.lane * 8 + w).eraseDups
        let who := s.claimer e w t x.w.len
        let c := who.bind s.ctx
        let members := (c.map Ctx.activeMembers).getD []
        let fibres := match c with
          | some c => members.filterMap (s.memberFibre c)
          | none => []
        let s := s.setDiverts lanes fun l => if fibres.contains (fibreOf l) then .sum else .dump
        let summed := lanes.filter s.toSum
        let here := summed.filter fun l => !s.fnDown (fidOe e) && present.any fun p => decide (p.val = l)
        let inst : SwlInst :=
          { start := t, len := x.w.len, ctx := who, lanes := lanes, present := here, yields := c.any fun c => decide (c.st = .active),
            members := members, last := c.any Ctx.excludedAny, dark := false, lost := false }
        let s : State := { s with swl := { s.swl with insts := s.swl.insts.put (e * 8 + w) inst } }
        if who.isNone then s.bump .swlUnclaimed [] else s.bumpBy .swlAbsent [] (summed.length - here.length)

/-! ## Sums (R491, R496, R497) -/

/-- The converter's readings of a wavelength on an engine. -/
def readingOf (bursts : List SwellBurst) (e w : Nat) : Option SwellBurst :=
  bursts.find? fun b => decide (b.engine.val = e ∧ b.lambda.val = w)

/-- The code of an element symbol, where it was read. -/
def elementCode (b : SwellBurst) (q : Nat) : Option Nat := (b.elements.find? fun x => decide (x.1 = q)).map fun x => x.2.toNat

/-- A converter code less its crosstalk estimate, in 1/65,536 code: `code` gives each wavelength's reading of the symbol. -/
def State.uncrossed (s : State) (e w : Nat) (code : Nat → Nat) : Int :=
  let n := s.swl.xtalk.getD e 0
  (65536 * code w : Nat) - (((List.range 8).filter fun v => decide (v ≠ w)).map fun v =>
    (Config.crosstalk n (8 * w + v)).toInt * (code v : Int)).sum

/-- The reading of a preamble symbol on each wavelength; a wavelength that was not read counts 0. -/
def fitCode (bursts : List SwellBurst) (e i v : Nat) : Nat :=
  match readingOf bursts e v with
  | some b => (b.fit.getD i 0).toNat
  | none => 0

/-- The sum of 32 preamble symbols from one on, less crosstalk. -/
def State.fitSum (s : State) (bursts : List SwellBurst) (e w from_ : Nat) : Int :=
  ((rangeFrom from_ 32).map fun i => s.uncrossed e w (fitCode bursts e i)).sum

/-- The nearest integer to a quotient by a positive number, the upper one of two (DESIGN CHOICE). -/
def nearest (num den : Int) : Int := (2 * num + den) / (2 * den)

/-- L_e of an element symbol of one engine and wavelength with `c` present inputs, and whether a sample was clipped or the
level clamped (R491): symbols 0 to 31 stood at level 0 and symbols 32 to 63 at level 14 of each input. A level that the
readings do not give is a free value. -/
def State.levelOf (s : State) (bursts : List SwellBurst) (e w q c : Nat) : Nat × Bool × State :=
  let low := s.fitSum bursts e w 0
  let high := s.fitSum bursts e w 32
  match (readingOf bursts e w).bind fun b => elementCode b q with
  | some code =>
    if c = 0 then (0, false, s)
    else
      let clipped := decide (code = 0 ∨ code = 255)
      if low < high then
        let y := s.uncrossed e w fun v => ((readingOf bursts e v).bind fun b => elementCode b q).getD 0
        let l := nearest (14 * c * (32 * y - low)) (high - low)
        (min l.toNat (14 * c), clipped || decide (l < 0 ∨ 14 * (c : Int) < l), s)
      else
        let (v, s) := s.drawFree
        (v.toNat % (14 * c + 1), clipped, s)
  | none =>
    if c = 0 then (0, false, s)
    else
      let (v, s) := s.drawFree
      (v.toNat % (14 * c + 1), false, s)

/-- T, K and the clipping of one element symbol of a wavelength, over the engines that summed it. -/
def State.elementOf (s : State) (bursts : List SwellBurst) (insts : List (Nat × SwlInst)) (w q : Nat) :
    (Int × Nat × Nat) × State :=
  (insts.filter fun i => decide (i.1 % 8 = w) && !i.2.lost).foldl (init := (((0 : Int), 0, 0), s)) fun (a, s) i =>
    let c := i.2.present.length
    let (l, hit, s) := s.levelOf bursts (i.1 / 8) w q c
    ((a.1 + ((l : Nat) : Int) - 7 * ((c : Nat) : Int), a.2.1 + c, a.2.2 + b2n hit), s)

/-- The sixteen elements of a chunk of an instance: each in its element symbol, on its wavelength (R496). -/
def State.chunkOf (s : State) (bursts : List SwellBurst) (insts : List (Nat × SwlInst)) (mask i : Nat) :
    List (Int × Nat × Nat) × State :=
  let ws := maskBits 8 mask
  (List.range 16).foldl (init := ([], s)) fun (es, s) j =>
    let q := 16 * i + j
    let (x, s) := s.elementOf bursts insts (ws.getD (q % ws.length) 0) (q / ws.length)
    (es ++ [x], s)

/-- A residual beyond SKEW_LIMIT. -/
def State.skewed (s : State) (r : BitVec 16) : Bool := decide (s.regBits .swlConfig [] 5 0 < r.toInt.natAbs)

/-- The step of an input lies outside ±1 dB of its calibrated step. -/
def trimBad (x : SwellInput) : Bool := decide (100 < x.trim.toInt.natAbs)

/-- A condition of R492 other than clipping fails. -/
def State.unbounded (s : State) (inputs : List SwellInput) (insts : List (Nat × SwlInst)) : Bool :=
  insts.any fun i => i.2.lost || i.2.dark ||
    (!i.2.present.isEmpty && ((s.swl.cals.find (i.1 / 8)).isNone ||
      i.2.present.any fun l => match inputs.find? fun x => decide (x.lane.val = l) with
        | some x => !x.present || s.skewed x.residual || trimBad x
        | none => false))

/-- The result cell of a chunk to every member that was active as the instance started (R493, R497, R502). -/
def State.sendSum (s : State) (x : Nat) (c : Ctx) (members : List Nat) (last : Bool) (n : Nat) (es : List (Int × Nat × Nat))
    (bad : Bool) : State :=
  let ks := es.map fun e => e.2.1
  let k := (earliest ks).getD 0
  let sat := es.any fun e => decide (0 < e.2.2)
  let inexact := bad || ks.any fun y => decide (y ≠ k)
  let (member, s) := if k = 0 then (let d := s.drawFree; (d.1.toNat % 2048, d.2)) else (k - 1, s)
  let s := s.bumpBy .swlClips [] (es.filter fun e => decide (0 < e.2.2)).length
  let s := if inexact then s.bump .swlUnbounded [] else s
  let flags := (if sat then flSat else 0) + (if inexact then flInexact else 0) + 1
  let s := s.modCtx x fun c => { c with flagRec := c.flagRec ||| flags }
  s.sendResult x c (homeOf x n) members n 6 member (b2n last) (flags * 2 ^ 26)
    (packElems 6 (es.map fun e => encInt 6 e.1))

/-- A DESKEW cell to a member (R498). -/
def State.sendDeskew (s : State) (x : Nat) (c : Ctx) (m ordinal start mask : Nat) : State :=
  match s.memberFibre c m with
  | none => s.noPort .estResultNoPort c 1
  | some f =>
    let lane (w : Nat) : SwlLane := if bit mask w then s.swl.lanes.getD (8 * f + w) SwlLane.init else SwlLane.init
    let pay := mkPay (beBytes 8 start ++ ((List.range 8).flatMap fun w => bvBytes 4 (BitVec.ofInt 32 (lane w).corr)) ++
      (List.range 8).flatMap fun w => bvBytes 1 (BitVec.ofInt 8 (lane w).resid))
    s.sendCtrl x c m (ordinal % 65536) 0 0x03020000 pay fun s => s.noPort .estResultNoPort c 1

/-- An input of which the last instance measured nothing (R506). -/
def State.notMeasured (s : State) (l : Nat) (absent : Bool) : State :=
  { s with swl := { s.swl with lanes := s.swl.lanes.modD l SwlLane.init fun y => { y with absent := absent, skewFault := false } } }

/-- What an instance measured of its inputs (R498, R506). -/
def State.noteInputs (s : State) (inputs : List SwellInput) (insts : List (Nat × SwlInst)) : State :=
  (insts.flatMap fun i => if i.2.lost then [] else (i.2.lanes.filter s.toSum).map fun l => (l, i.2.present.contains l)).foldl (init := s)
    fun s (l, here) =>
      match inputs.find? fun x => decide (x.lane.val = l) with
      | some x =>
        if here then
          let bad := s.skewed x.residual
          let r : Int := max (min x.residual.toInt 127) (-127)
          let trim : Int := max (-300) (min 300 x.trim.toInt)
          let s := if bad then s.bump .swlSkewFaults [] else s
          { s with swl := { s.swl with lanes := s.swl.lanes.modD l SwlLane.init fun y =>
            ⟨true, false, bad, (BitVec.ofInt 24 (y.corr - x.residual.toInt)).toInt, r, trimBad x, trim⟩ } }
        else s.notMeasured l true
      | none => s.notMeasured l !here

/-- The chunks of a claim are sent; the context ends DONE with its last claim (R497). -/
def State.yieldClaim (s : State) (x : Nat) (bursts : List SwellBurst) (insts : List (Nat × SwlInst)) (bad : Bool)
    (k : Claim) (ordinal : Nat) : State :=
  match s.ctx x with
  | none => s
  | some c =>
    let members := (insts.head?.map fun i => i.2.members).getD []
    let last := insts.any fun i => i.2.last
    let s := (List.range k.count).foldl (init := s) fun s i =>
      let (es, s) := s.chunkOf bursts insts k.mask i
      s.sendSum x c members last (k.first + i) es bad
    let s := members.foldl (fun s m => s.sendDeskew x c m ordinal k.start k.mask) s
    let s := s.modCtx x fun c => { c with
      base := if k.first = c.base then k.first + k.count else c.base
      cplt := if k.first = c.base then c.cplt else c.cplt ++ rangeFrom k.first k.count
      ended := c.ended + 1 }
    if c.ended + 1 = c.claims.length then (s.endCtx x .done 0 0).settle else s

/-! ## Calibration (R500) -/

/-- 2 ms of unclaimed instance time for each wavelength. -/
def calNs : Nat := 2000000

/-- An engine has accrued what its calibration needs. -/
def State.calAccrued (s : State) (e : Nat) : Bool :=
  (List.range 8).all fun w => decide (calNs ≤ s.swl.accrued.getD (e * 8 + w) 0)

/-- The engines that a pending SWL_CALIBRATE names. -/
def State.calAsked (s : State) : List Nat :=
  (List.range 16).filter fun e => s.anyJob fun j => match j with
    | .swlCalibrate m _ => bit m e
    | _ => false

/-- The calibration of an engine completes, once: its coefficients are what it measured (free values). -/
def State.finishCal (s : State) (e : Nat) : State :=
  let temps := (s.oe e).temps
  let at_ := s.now
  let keep := s.calAsked.contains e
  let n := s.free + 1
  let swl : Swl := { s.swl with
    cals := s.swl.cals.put e ⟨at_, temps⟩
    xtalk := s.swl.xtalk.put e n
    auto := s.swl.auto.filter fun x => decide (x ≠ e)
    accrued := if keep then s.swl.accrued else s.swl.accrued.filter fun p => decide (p.1 / 8 ≠ e) }
  { s with swl := swl, free := n }

/-- The commands whose engines are all calibrated end; what those engines accrued is spent. -/
def State.judgeCals (s : State) : State :=
  let full := (List.range 16).filter s.calAccrued
  let done (m : Nat) : Bool := (maskBits 16 m).all full.contains
  let masks := (s.mgmt.slots.flatMap fun x => x.cmds.filterMap fun e => match e.job with
    | .swlCalibrate m t => if e.phase = .pending ∧ e.finished = none ∧ done m then some (m, t) else none
    | _ => none).eraseDups
  let s := masks.foldl (fun s (m, t) => s.endJobs (fun j => decide (j = .swlCalibrate m t)) ⟨stOk, 0, beBytes 2 m ++ [0, 0]⟩) s
  let asked := s.calAsked
  { s with swl := { s.swl with accrued := s.swl.accrued.filter fun p => asked.contains (p.1 / 8) || s.swl.auto.contains (p.1 / 8) } }

/-- Unclaimed instance time accrues for a calibration that is asked for. -/
def State.accrue (s : State) (i : Nat × SwlInst) : State :=
  let e := i.1 / 8
  if i.2.lost ∨ s.fnDown (fidOe e) ∨ !(s.calAsked.contains e || s.swl.auto.contains e) then s
  else
    let before := s.calAccrued e
    let s : State := { s with swl := { s.swl with accrued := s.swl.accrued.modD i.1 0 fun n => n + i.2.len } }
    if !before ∧ s.calAccrued e then (s.finishCal e).judgeCals else s

/-- SWELL_INSTANCE_END (R497, R498, R500): the instance in progress that ends first, on every engine and wavelength of its
START, LEN and context. -/
def execSwellInstanceEnd (inputs : List SwellInput) (bursts : List SwellBurst) (s : State) : Out :=
  .next <|
    let first := s.swl.insts.foldl (init := (none : Option SwlInst)) fun best i =>
      match best with
      | none => some i.2
      | some b => if i.2.start + i.2.len < b.start + b.len then some i.2 else some b
    match first with
    | none => s
    | some x =>
      let mine (i : Nat × SwlInst) : Bool := decide (i.2.start = x.start ∧ i.2.len = x.len ∧ i.2.ctx = x.ctx)
      let insts := s.swl.insts.filter mine
      let s := s.advancePtp (x.start + x.len)
      let s : State := { s with swl := { s.swl with insts := s.swl.insts.filter fun i => !mine i } }
      let pass (s : State) : State := s.setDiverts (insts.flatMap fun i => i.2.lanes) fun _ => .pass
      match x.ctx with
      | none => insts.foldl State.accrue (pass s)
      | some n =>
        let bad := s.unbounded inputs insts
        let s := pass (s.noteInputs inputs insts)
        let s := s.bumpBy .swlInstances [] insts.length
        match s.ctx n with
        | none => s
        | some c =>
          match c.claims.findIdx? fun k => decide (k.start = x.start ∧ k.len = x.len) with
          | none => s
          | some i =>
            if !c.st.live then s
            else if c.st ≠ .active ∨ !insts.any (·.2.yields) then
              let mask := (c.claims.getD i ⟨0, 0, 0, 0, 0⟩).mask
              x.members.foldl (fun s m => s.sendDeskew n c m i x.start mask) s
            else s.yieldClaim n bursts insts bad (c.claims.getD i ⟨0, 0, 0, 0, 0⟩) i

/-- The sensors of an engine have used up `part` halves of DRIFT_LIMIT since its calibration (R500). Sensors read in 1/16 °C. -/
def State.drifted (s : State) (e : Nat) (k : SwlCal) (part : Nat) : Bool :=
  (List.range 4).any fun i =>
    decide (part * (2 * s.regBits .swlConfig [] 15 8) <
      (signed16 ((s.oe e).temps.getD i 0) - signed16 (k.temps.getD i 0)).natAbs)

/-- SWL_CALIBRATION_EXPIRY (R500): the calibration is no longer valid, or half of a limit is spent. Without drift it is the
time that has run out. -/
def execSwlCalibrationExpiry (engine : Engine) (halfSpent : Bool) (s : State) : Out :=
  .next <|
    let e := engine.val
    match s.swl.cals.find e with
    | none => s
    | some k =>
      let part := if halfSpent then 1 else 2
      let s := if s.drifted e k part then s else s.advanceTo (k.at_ + part * (s.regBits .swlCal [] 15 0 * 500000000))
      let s : State := if halfSpent then s else { s with swl := { s.swl with cals := s.swl.cals.del e } }
      if s.regBits .swlCal [] 31 31 = 1 ∧ !s.swl.auto.contains e then
        { s with swl := { s.swl with auto := e :: s.swl.auto } }
      else s

/-- SWL_CALIBRATE (R500). -/
def execSwlCalibrate (iss : Issuer) (mask rsv : BitVec 16) (s : State) : Out :=
  .next <| hostCmd (.swlCalibrate iss mask rsv) (fun _ s =>
    guardParams [rsvOk rsv 2] s <|
      guardUp ((maskBits 16 mask.toNat).map fidOe) s <|
        let es := maskBits 16 mask.toNat
        if es.isEmpty then (ok [0, 0, 0, 0], s)
        else
          let asked := s.calAsked
          let accrued := s.swl.accrued.filter fun p => asked.contains (p.1 / 8) || !es.contains (p.1 / 8)
          (.pend [] (.swlCalibrate mask.toNat s.now), { s with swl := { s.swl with accrued := accrued } })) s

/-- The SWL_CALIBRATE commands that are pending: mask and start. -/
def State.calWaits (s : State) : List (Nat × Nat) :=
  s.mgmt.slots.flatMap fun x => x.cmds.filterMap fun e => match e.job with
    | .swlCalibrate m t => if e.phase = .pending ∧ e.finished = none then some (m, t) else none
    | _ => none

/-- SWL_CALIBRATE_TIMEOUT (R500): the SWL_CALIBRATE that has been pending longest has waited 10 s. -/
def execSwlCalibrateTimeout (s : State) : Out :=
  .next <|
    match s.calWaits with
    | [] => s
    | w :: ws =>
      let (m, t) := ws.foldl (fun a b => if b.2 < a.2 then b else a) w
      let s := s.advanceTo (t + 10000000000)
      let lacking := ((maskBits 16 m).find? fun e => !s.calAccrued e).getD 0
      (s.endJobs (fun j => decide (j = .swlCalibrate m t)) ⟨stNoResource, lacking, []⟩).judgeCals

/-! ## Registers (R506) -/

/-- SWL_STATUS. -/
def State.swlStatus (s : State) : Nat := ((List.range 16).map fun e => b2n (s.swl.cals.find e).isSome * 2 ^ e).sum

/-- SWL_DESKEW and SWL_LANE of a lane. -/
def SwlLane.deskew (x : SwlLane) : Nat :=
  b2n x.valid * 2 ^ 31 + b2n x.absent * 2 ^ 30 + b2n x.skewFault * 2 ^ 29 + (BitVec.ofInt 24 x.corr).toNat
def SwlLane.laneWord (x : SwlLane) : Nat :=
  (BitVec.ofInt 8 x.resid).toNat * 2 ^ 24 + b2n x.trimFault * 2 ^ 20 + (BitVec.ofInt 12 x.trim).toNat

/-- SWL_DESKEW_READ (R501). -/
def execSwlDeskewRead (iss : Issuer) (fibre count : BitVec 16) (s : State) : Out :=
  .next <| hostCmd (.swlDeskewRead iss fibre count) (fun _ s =>
    let f := fibre.toNat
    let n := count.toNat
    guardParams [(decide (f < 256), 0), (decide (1 ≤ n ∧ n ≤ 64 ∧ f + n ≤ 256), 2)] s
      (ok ((rangeFrom f n).flatMap fun f => beBytes 2 f ++ [0, 0] ++ (rangeFrom (8 * f) 8).flatMap fun l =>
        let x := s.swl.lanes.getD l SwlLane.init
        beBytes 4 x.deskew ++ beBytes 4 x.laneWord), s)) s

end Sys2Proof.Machine
end

