-- ==== Sys2Proof/Machine/Tel.lean ====
section
/-! DEFINITION. Telemetry: overload, holds, the log, the exports and the counter sets (R575 to R592). -/

namespace Sys2Proof.Machine

/-! ## Events (R579, R584, R585) -/

/-- EVENT_RAISE (R580, R582, R584, R585): a source raises an event, at its code's severity; every event carries one of the
codes of R580. -/
def execEventRaise (ev : EventIn) (s : State) : Out :=
  .next <|
    match eventSev ev.code.toNat with
    | none => s
    | some sev => if s.boot.phase = .reset then s else s.raiseEv ev.code.toNat sev ev.source.toNat (ev.data.take 216)

/-- A change of stage, with its OVERLOAD event. -/
def State.toStage (s : State) (stage shift : Nat) : State :=
  let s : State := { s with tel := { s.tel with stage := stage, shift := shift, sampleCount := 0 } }
  s.raiseEv 0x1302 1 fidTel (beBytes 1 stage ++ beBytes 1 shift)

/-- The stage at the end of a millisecond in which `offered` records were raised and coalescing put out `output`; `calm`
milliseconds in a row had an offered rate at or below LOW_RATE, which is so many records a millisecond. -/
def State.judgeStage (s : State) (offered output calm : Nat) : State :=
  let low := s.lowRate
  match s.tel.stage with
  | 0 => if low < offered then s.toStage 1 0 else s
  | 1 => if low < output then s.toStage 2 1 else if 10 ≤ calm then s.toStage 0 0 else s
  | _ =>
    if 10 ≤ calm then s.toStage 0 0
    else if low < output then { s with tel := { s.tel with shift := min 15 (s.tel.shift + 1) } }
    else if output = low then s
    else if s.tel.shift ≤ 1 then s.toStage 1 0
    else { s with tel := { s.tel with shift := s.tel.shift - 1 } }

/-- TEL_STAGE_TIMER (R584): a millisecond of the overload timers ends, and the next one lets low-severity events that waited be
written. -/
def execTelStageTimer (s : State) : Out :=
  .next <|
    if s.fnDown fidTel ∨ s.boot.phase = .reset then s
    else
      let s := s.every .telStage 0 1000000
      let t := s.tel
      let calm := if t.offered ≤ s.lowRate then t.calm + 1 else 0
      let s : State := { s with tel := { t with offered := 0, output := 0, calm := calm, written := t.written - s.lowRate } }
      let s := if t.hold then s else s.drainLate t.late.length
      s.judgeStage t.offered t.output calm

/-- COALESCE_WINDOW_EXPIRY (R584, R585): it waits while writing has stopped. The merged record is written, or in stage 2 one in 2^SHIFT of them. -/
def execCoalesceWindowExpiry (code : BitVec 16) (source : BitVec 12) (s : State) : Out :=
  .next <|
    match takeFirst (fun m => decide (m.code = code.toNat ∧ m.source = source.toNat)) s.tel.coal with
    | none => s
    | some (m, rest) =>
      if s.tel.hold then s else
      let s := s.advanceTo m.due
      let s : State := { s with tel := { s.tel with coal := rest, output := s.tel.output + recordsOf m.data } }
      let merged := if 1 < m.count then 1 else 0
      if s.tel.stage ≠ 2 then s.writeLow m merged
      else
        let n := s.tel.sampleCount + 1
        let s : State := { s with tel := { s.tel with sampleCount := n } }
        if n % 2 ^ s.tel.shift = 0 then s.writeLow m (merged + 2) else s.bumpBy .telSampledOut [] m.count

/-- An event numbered as it is written (R585). -/
def State.writeNext (s : State) (m : Merged) (flags : Nat) : State :=
  let (m, s) := s.number m
  s.writeLog m flags

/-- HOLD_RELEASE (R585): the GAP event, and then the held events in the order in which they were first raised. -/
def execHoldRelease (s : State) : Out :=
  .next <|
    if s.fnDown fidTel ∨ !s.tel.hold then s
    else
      let lost := s.tel.lost
      let held := s.tel.held
      let s : State := { s with tel := { s.tel with hold := false, lost := 0, held := [] } }
      let gap : Merged :=
        { seq := 0, code := 0x1301, source := fidTel, sev := 2, count := 1, due := 0, time := s.now, ptp := s.stampPtp,
          data := beBytes 8 0 ++ beBytes 4 lost }
      let s := if lost = 0 then s else (s.bump .telEventsWarning []).writeNext gap 4
      held.foldl (fun s m => s.writeNext m (if 1 < m.count then 1 else 0)) s

/-! ## Records (R579) -/

/-- The records of an event, 64 bytes each. -/
def LogEvent.encode (e : LogEvent) : List (List Byte) :=
  let n := e.records
  let head := beBytes 8 e.seq ++ beBytes 8 e.time ++ beBytes 8 e.ptp ++ bvBytes 4 e.incarnation ++ beBytes 1 e.sev ++
    beBytes 1 e.flags ++ beBytes 2 e.code ++ beBytes 2 e.source ++ beBytes 1 e.shift ++ beBytes 1 n ++ beBytes 4 e.count ++
    padTo 24 e.data
  head :: (List.range (n - 1)).map fun i => padTo 64 (e.data.drop (24 + 64 * i))

/-- The longest run of events, at most `count`, whose records number at most `room`. -/
def takeRecords (room : Nat) : Nat → List LogEvent → List LogEvent
  | 0, _ => []
  | _, [] => []
  | count + 1, e :: es => if e.records ≤ room then e :: takeRecords (room - e.records) count es else []

/-- Events of a severity and above from a SEQ on. -/
def Tel.from (t : Tel) (first minSev : Nat) : List LogEvent :=
  t.log.filter fun e => decide (first ≤ e.seq) && decide (minSev ≤ e.sev)

/-- The SEQs below which every event that will be written is in the ring: an event that coalesces, or waits for LOW_RATE, has its SEQ
already (R600). -/
def Tel.settled (t : Tel) : Nat := ((t.coal ++ t.late.map (·.1)).map Merged.seq).foldl min t.nextSeq

/-- The events that an export carries from a SEQ on, in SEQ order (R586, R587). -/
def Tel.exports (t : Tel) (first minSev : Nat) : List LogEvent :=
  (t.from first minSev).filter fun e => decide (e.seq < t.settled)

/-- Records in the ring from a SEQ on: by how much an export lags. -/
def Tel.lag (t : Tel) (first : Nat) : Nat := ((t.log.filter fun e => decide (first ≤ e.seq)).map LogEvent.records).sum

/-- The events that hold the records of some blocks of a read: record j of the events lies in block j. -/
def blockEvents : Nat → List LogEvent → List Nat → List Nat
  | _, [], _ => []
  | at_, e :: es, bad =>
    let rest := blockEvents (at_ + e.records) es bad
    if bad.any fun b => decide (at_ ≤ b ∧ b < at_ + e.records) then e.seq :: rest else rest

/-- The bridge that holds a record of some events, by its place among theirs. -/
def blockBridge (es : List LogEvent) (block : Nat) : Nat :=
  (es.flatMap fun e => List.replicate e.records (Config.logBridge e.seq).val).getD block 0

/-- LOG_READ (R221, R583, R590): its access is to the blocks of the records that it returns; those of a bad block are replaced by
a gap record, which it returns in their place. -/
def execLogRead (iss : Issuer) (flags minSev : Byte) (rsv : BitVec 16) (count : BitVec 32) (first : BitVec 64) (met : List BlockErr)
    (s : State) : Out :=
  .next <| hostCmd (.logRead iss flags minSev rsv count first met) (fun i s =>
    let consume := flags.getLsbD 0
    let object := flags.getLsbD 1
    let most := if object then 524288 else 139
    guardParams [(decide (flags.toNat < 4), 0), (decide (minSev.toNat < 4), 1), rsvOk rsv 2,
        (decide (1 ≤ count.toNat ∧ count.toNat ≤ most), 4)] s <|
      guardUp [fidTel] s <|
        let from_ := if first = 0 then ((s.tel.log.head?).map LogEvent.seq).getD s.tel.nextSeq else first.toNat
        let all := s.tel.from from_ minSev.toNat
        let got := takeRecords (if object then 4 * 524288 else 139) count.toNat all
        let n := (got.map LogEvent.records).sum
        let s := (got.foldl (fun s e => s.moveLog false e) s).meet 5 n (fun e => errOn (blockBridge got e.block) e) met
        let bad := blockEvents 0 got (lostBlocks n met)
        let s := s.gapLog bad
        let got := got.map fun e => if bad.contains e.seq then s.gapFor e else e
        let next := if got.length = all.length then max from_ s.tel.nextSeq else ((got.getLast?).map fun e => e.seq + 1).getD from_
        let recs := got.flatMap LogEvent.encode
        let (v, s) := if recs.length < 65536 then (BitVec.ofNat 64 recs.length, s) else s.drawFree
        let bytes := beBytes 2 v.toNat ++ [0, 0, 0, 0, 0, 0] ++ beBytes 8 next ++ recs.flatten
        let used (s : State) : State :=
          let read := s.tel.log.map fun e => if got.any (fun g => decide (g.seq = e.seq)) then { e with read := true } else e
          let log := if consume then read.filter fun e => !(decide (from_ ≤ e.seq) && decide (e.seq < next)) else read
          { s with tel := { s.tel with log := log } }
        if object then
          match answerObject (s.slot i).number bytes s with
          | (.done st det res, t) => (.done st det res, if st = stOk then used t else s)
          | other => other
        else (ok bytes, used s)) s

/-! ## Exports (R586, R587) -/

/-- TEL_EXPORT_CONFIG (R590). -/
def execTelExportConfig (iss : Issuer) (target flags minSev rsv : Byte) (rate rsv2 : BitVec 16) (record flow : BitVec 32)
    (s : State) : Out :=
  .next <| hostCmd (.telExportConfig iss target flags minSev rsv rate rsv2 record flow) (fun i s =>
    let k := target.toNat
    let on := flags.getLsbD 0
    guardParams [(decide (k < 5), 0), (decide (flags.toNat < 2), 1), (decide (minSev.toNat < 4), 2), rsvOk rsv 3,
        (decide (1 ≤ rate.toNat ∧ rate.toNat ≤ 100), 4), rsvOk rsv2 6,
        (decide (k = 0 ∨ record.toNat / 2 ^ 20 % 512 = 0), 8), (decide (k = 0 ∨ flow.toNat < 2 ^ 21), 12)] s <|
      guardUp [fidTel] s <|
        if k = 0 then
          let old := s.tel.stream
          let next := if old.enable then old.next else s.tel.nextSeq
          (ok [], { s with tel := { s.tel with
            stream := ⟨on, minSev.toNat, rate.toNat, (s.slot i).number, iss.tag, next, old.openAt⟩ } })
        else
          let set (c : Collector) : Collector :=
            ⟨on, minSev.toNat, rate.toNat, record, flow, if c.enable then c.next else s.tel.nextSeq, c.openAt⟩
          (ok [], { s with tel := { s.tel with collectors := modAt s.tel.collectors (k - 1) set } })) s

/-- The bits of a stream frame with `n` records and its Ethernet header, tag and FCS (R49, R50, R586). -/
def streamBits (n : Nat) (tagged : Bool) : Nat := 8 * (14 + (if tagged then 4 else 0) + 32 + (8 + 16 + 64 * n) + 16 + 4)

/-- TEL_STREAM_SEND (R586): one stream frame, no sooner than RATE allows after the one before. -/
def execTelStreamSend (s : State) : Out :=
  .next <|
    let x := s.tel.stream
    match s.slotIx x.session with
    | none => s
    | some i =>
      if !x.enable ∨ s.fnDown fidTel ∨ !s.mgmtOn then s
      else
        let all := s.tel.exports x.next x.minSev
        let skip := decide (65536 < s.tel.lag x.next)
        let s := if skip then s.bumpBy .telStreamSkips [] (all.length - 1) else s
        let got := takeRecords 139 139 (if skip then all.drop (all.length - 1) else all)
        match got.head?, got.getLast? with
        | some e, some l =>
          let recs := got.flatMap LogEvent.encode
          let res := beBytes 8 e.seq ++ beBytes 2 recs.length ++ [0, 0, 0, 0, 0, 0] ++ recs.flatten
          let s := (got.foldl (fun s e => s.moveLog false e) s).advanceTo x.openAt
          let p := s.slot i
          let until_ := s.now + (streamBits recs.length p.peerVlan.isSome + x.rate - 1) / x.rate
          let s : State := { s with tel := { s.tel with stream := { x with next := l.seq + 1, openAt := until_ } } }
          s.sendOn i 0x0D03 x.tag 0 0 p.peer p.peerVlan ⟨stOk, 1, res⟩
        | _, _ => s

/-- The FREQ cell that carries a record to a collector (R587). -/
def State.collectorCell (s : State) (c : Collector) (seq : Nat) (last : Bool) (rec : List Byte) : Cell :=
  let addr := recAddr c.record.toNat
  ⟨mkHdr s.gen.act clsFreq (addr / 2048) (addr % 2048) s.incHi s.incLo (c.flow.toNat % 2 ^ 21) (seq % 65536) 0 64 (b2n last) 0,
   mkPay rec⟩

/-- The records of an event offered to a tile's lookup. Which tile takes them is a free value. -/
def State.sendRecords (s : State) (c : Collector) (e : LogEvent) : State :=
  let (v, s) := s.drawFree
  let t := v.toNat % 64
  let n := e.records
  let cells := e.encode.zipIdx.map fun (r, i) => s.collectorCell c e.seq (decide (i + 1 = n)) r
  let new := cells.map fun k => s.newCell k .generated
  s.setTile t fun x => { x with arrivals := x.arrivals ++ new }

/-- TEL_COLLECTOR_SEND (R587): one event to one collector, in cells of 640 bits at RATE Gb/s at most. -/
def execTelCollectorSend (i : Fin 4) (s : State) : Out :=
  .next <|
    match s.tel.collectors[i.val]? with
    | none => s
    | some c =>
      if !c.enable ∨ s.fnDown fidTel then s
      else
        let all := s.tel.exports c.next c.minSev
        let skip := decide (4096 < s.tel.lag c.next)
        let s := if skip then s.bumpBy .telCollectorSkips [] (all.length - 1) else s
        match (if skip then all.getLast? else all.head?) with
        | none => s
        | some e =>
          let s := (s.moveLog false e).advanceTo c.openAt
          let until_ := s.now + (640 * e.records + c.rate - 1) / c.rate
          let after (c : Collector) : Collector := { c with next := e.seq + 1, openAt := until_ }
          let s : State := { s with tel := { s.tel with collectors := modAt s.tel.collectors i.val after } }
          s.sendRecords c e

/-! ## Counter sets (R575 to R577, R590) -/

/-- Items of each index of a set, and the number of its indexes. -/
def setShape (n : Nat) : Option (Nat × Nat) :=
  match n with
  | 1 => some (40, 2048)
  | 2 => some (3, 16384)
  | 3 => some (40, 64)
  | 4 => some (5, 2097152)
  | 5 => some (8, 8192)
  | _ => none

/-- A count field of 1 to 65,536 in two bytes: 0 stands for 65,536. -/
def wideCount (c : BitVec 16) : Nat := if c = 0 then 65536 else c.toNat

/-- The indexes from `first` are in a set's range, and each of set 5 names a group. -/
def State.indexesOk (s : State) (set first count : Nat) : Bool :=
  match setShape set with
  | none => true
  | some (_, n) =>
    decide (first + count ≤ n) && (set ≠ 5 || (rangeFrom first count).all fun g => (s.est.groups.find g).isSome)

/-- An item of a set. -/
def State.csItem (s : State) (set index item : Nat) : Nat := (s.tel.sets.getD (csKey set index item) 0).toNat

/-- The items of an index as a read gives them: zeros for a set 1 index that is no configured port's first lane. -/
def State.csRow (s : State) (set index : Nat) : List Byte :=
  let n := ((setShape set).getD (0, 0)).1
  if set = 1 ∧ !s.configured index then List.replicate (8 * n) 0
  else (List.range n).flatMap fun k => beBytes 8 (s.csItem set index k)

/-- TEL_COUNTER_READ (R590). -/
def execTelCounterRead (iss : Issuer) (set flags : Byte) (count : BitVec 16) (first : BitVec 32) (s : State) : Out :=
  .next <| hostCmd (.telCounterRead iss set flags count first) (fun i s =>
    let n := wideCount count
    let items := ((setShape set.toNat).getD (0, 0)).1
    guardParams [((setShape set.toNat).isSome, 0), (decide (flags.toNat < 2), 1),
        (s.indexesOk set.toNat first.toNat n, 4)] s <|
      guardUp [fidTel] s <|
        if flags = 0 ∧ 8944 < 4 + 8 * n * items then (.done stBadLength 0xFFFF [], s)
        else
          let bytes := beBytes 2 items ++ [0, 0] ++ (rangeFrom first.toNat n).flatMap (s.csRow set.toNat)
          if flags = 1 then answerObject (s.slot i).number bytes s else (ok bytes, s)) s

/-- The depth of an egress queue by its set 2 index. -/
def State.eqDepth (s : State) (index : Nat) : Nat := s.depth (qKey (index / 256) (qEq (index % 256 / 8) (index % 8)))

/-- An index cleared: its items are 0, and PEAK is the queue's depth (R577). -/
def State.csClear (s : State) (set index : Nat) : State :=
  let n := ((setShape set).getD (0, 0)).1
  let sets := (List.range n).foldl (fun (m : AMap (BitVec 64)) k => m.del (csKey set index k)) s.tel.sets
  let sets := if set = 2 then sets.setD (csKey 2 index 2) 0 (BitVec.ofNat 64 (s.eqDepth index)) else sets
  { s with tel := { s.tel with sets := sets } }

/-- TEL_COUNTER_CLEAR (R577, R590). -/
def execTelCounterClear (iss : Issuer) (set rsv : Byte) (count : BitVec 16) (first : BitVec 32) (s : State) : Out :=
  .next <| hostCmd (.telCounterClear iss set rsv count first) (fun _ s =>
    let n := wideCount count
    guardParams [((setShape set.toNat).isSome, 0), rsvOk rsv 1, (s.indexesOk set.toNat first.toNat n, 4)] s <|
      guardUp [fidTel] s
        (ok [], (rangeFrom first.toNat n).foldl (fun s k => s.csClear set.toNat k) s)) s

/-! ## Registers (R592) -/

/-- TEL_EXPORT. -/
def State.telExport (s : State) : Nat :=
  let x := s.tel.stream
  b2n x.enable * 2 ^ 31 + x.minSev % 4 * 2 ^ 24 + x.rate % 256 * 65536 + x.session % 65536

/-- TEL_QUAR_STATUS. -/
def State.quarStatus (s : State) : Nat :=
  s.tel.tokens % 256 * 2 ^ 24 + (s.opt.rings.filter fun r => r.2.overBudget).length

/-- TEL_LOG_STATUS. -/
def State.logStatus (s : State) : Nat :=
  s.tel.stage * 2 ^ 30 + s.tel.shift % 16 * 2 ^ 24 + s.tel.used * 100 / max 1 (logSlots s.logGib)

end Sys2Proof.Machine
end

