-- ==== Sys2Proof/Machine/Views.lean ====
section
/-! DEFINITION. What each register reads: the read-only registers are views of the state they report, every other register
shows what is stored (R13 and the register map of each chapter). -/

namespace Sys2Proof.Machine

/-! ## CMD (R86, R89, R90) -/

/-- CMD_SLOT. DESIGN CHOICE: a slot that has been freed reads 0 in every field, as after reset (log entry 65). -/
def Session.word (x : Session) : Nat :=
  if x.st = .free then 0 else x.st.code * 2 ^ 18 + x.engine % 4 * 2 ^ 16 + x.number % 65536

/-- CMD_SESSIONS: the slots that hold a session, and their number. -/
def State.sessionsWord (s : State) : Nat :=
  let on := (List.range 8).filter fun i => decide ((s.slot i).st ≠ .free)
  on.length * 256 + (on.map fun i => 2 ^ i).sum

/-! ## RST (R532) -/

/-- RST_CAUSE. -/
def State.causeWord (s : State) : Nat :=
  s.boot.cause % 4 * 2 ^ 30 + b2n s.boot.bistSkipped * 2 ^ 29 + s.boot.bootMs % 2 ^ 20

/-- A bit for each instance of a class, 32 to a word: word `half` of RST_HELD and RST_FAILED. -/
def State.fnMask (s : State) (p : FnState → Bool) (c half : Nat) : Nat :=
  ((List.range 32).map fun i => if p (s.fn (256 * c + 32 * half + i)) then 2 ^ i else 0).sum

/-! ## TIME and TIDE (R320, R321) -/

/-- A count in ns as LAST_OFFSET shows it. -/
def clampOffset (x : Int) : Int := max (-32767) (min 32767 x)

/-- TIME_STATUS. -/
def State.timeStatus (s : State) : Nat :=
  let slewing := match s.time.slew with
    | some sl => decide (sl.left ≠ 0)
    | none => false
  let source := match s.ptp.selected with
    | some (l, _) => fibreOf l
    | none => 0x1FF
  s.time.clock.code * 2 ^ 28 + b2n s.time.stepUsed * 2 ^ 27 + b2n slewing * 2 ^ 26 + source % 512 * 2 ^ 16 +
    (BitVec.ofInt 16 (clampOffset s.ptp.lastOffset)).toNat

/-- STAGE of TIDE_STATUS. -/
def Tide.stage (t : Tide) : Nat :=
  match t.commit with
  | some c => if c.checked then 3 else 2
  | none => if t.staged.isSome then 1 else 0

/-- TIDE_STATUS. -/
def State.tideStatus (s : State) : Nat :=
  s.tide.stage * 2 ^ 30 + s.tide.reason % 16 * 2 ^ 24 + s.tide.index % 65536

/-! ## TBL, XBAR, TC (R171, R269, R290) -/

/-- The status word of a register-driven engine: BUSY and CODE beside the stored OVERRUN. -/
def EngineOp.word (o : EngineOp) (stored : Word) : Word :=
  (stored &&& 0x40000000) ||| BitVec.ofNat 32 (b2n o.busy * 2 ^ 31 + o.code % 65536)

/-! ## Tiles (R141, R142, R173, R174, R205, R322, R387) -/

/-- A queue's depth register: SPILLED where some of it is in Undertow. -/
def State.depthWord (s : State) (k : Nat) : Nat :=
  b2n (!(s.under k).isEmpty) * 2 ^ 31 + min (s.depth k) (2 ^ 30 - 1)

/-- The configured port that holds a lane, by its first lane. -/
def State.portOfLane (s : State) (l : Nat) : Option Nat := (s.portsOf (fibreOf l)).find? fun p =>
  decide (p ≤ l ∧ l < p + s.widthAt p)

/-- LSTATE of a lane: diverted to Causeway or Swell; in use, or dropped, on a running port; and before that dark without
light, ring locking until its receive ring is VERIFIED, PMA lock until codeword boundaries are found, then what its port
does. DESIGN CHOICE: a usable lane of a running port that does not stand in its receive lanes reads as dropped (log entry 67). -/
def State.laneState (s : State) (l : Nat) : Nat :=
  let x := (s.portOfLane l).map s.port
  if (s.lane l).diverted then 7
  else if x.any fun y => y.st.running then (if x.any fun y => bit y.rx (lambdaOf l) then 5 else 6)
  else if !s.light (fibreOf l) then 0
  else if (s.laneRing l .rx).st ≠ .verified then 1
  else if !(s.lane l).fecLock then 2
  else if x.any fun y => decide (y.st = .training ∨ y.st = .retraining) then 4
  else 3

/-- SIGNAL of a lane: there is light on the fibre, and the lane's receive ring holds a resonance and takes its wavelength
from it (DEDUCED; log entry 67). -/
def State.laneSignal (s : State) (l : Nat) : Bool :=
  s.light (fibreOf l) && !(s.lane l).diverted && (decide ((s.laneRing l .rx).st = .locked) || decide ((s.laneRing l .rx).st = .verified))

/-- TILE_LANE_STATUS. -/
def State.laneStatus (s : State) (l : Nat) : Nat :=
  let x := (s.portOfLane l).map s.port
  let on (m : PortSt → Nat) : Nat := b2n (match x with
    | some y => y.st.formed && bit (m y) (lambdaOf l)
    | none => false)
  s.laneState l * 2 ^ 12 + on PortSt.tx * 8 + on PortSt.rx * 4 + b2n (s.lane l).fecLock * 2 + b2n (s.laneSignal l)

/-- TILE_BUF_STATUS. -/
def State.bufStatus (s : State) (t : Nat) : Nat :=
  b2n (s.tile t).spilling * 2 ^ 31 + (s.tile t).pktMib % 32 * 2 ^ 24 + s.landingOf t % 2 ^ 19

/-- TILE_TS_STATUS. -/
def State.stampWord (s : State) (t : Nat) : Nat :=
  b2n (s.stamps t).overflow * 2 ^ 31 + (s.stamps t).entries.length

/-- Context tags in use in a slice (R217): the contexts with a line in its cache. -/
def State.hotTags (s : State) (t : Nat) : Nat := ((s.slice t).lines.map (·.ctx)).eraseDups.length

/-! ## Estuary, Breakwater and Undertow (R227, R383, R437) -/

/-- Contexts in OPENING or ACTIVE. -/
def State.liveContexts (s : State) : Nat := (s.est.ctxs.filter fun e => e.2.st.live).length

/-- Free units of all bridges. -/
def State.unitsFree (s : State) : Nat := ([0, 1, 2, 3].map fun b => s.bridgeUnits - (s.slotsUsed b).length).sum

/-- Units in state DAMAGED. -/
def State.unitsDamaged (s : State) : Nat :=
  (s.bwk.groups.map fun g => (g.2.units.filter fun u => decide (u.2 = .damaged)).length).sum

/-- Cells in Undertow. -/
def State.underCells (s : State) : Nat := (s.undertow.map fun q => q.2.length).sum

/-! ## The register file -/

/-- A register at the first lane of a configured port alone (R140). -/
def Reg.ofPort : Reg → Bool
  | .tilePortStatus => true
  | .tilePortCrcErrs => true
  | .tilePortReplays => true
  | .tilePortSpoofDrops => true
  | .tilePortQuarDrops => true
  | .tilePortClassDrops => true
  | .tilePortHairpin => true
  | .tilePortReconfDrops => true
  | _ => false

/-- A traffic-control register at a class that it does not serve (R286). -/
def Reg.idleAt (r : Reg) (ix : List Nat) : Bool :=
  let c := ix.getD 1 0 % 8
  match r with
  | .tileTcPolice => decide (c ≠ 3 ∧ c ≠ 4 ∧ c ≠ 6)
  | .tileTcQshape => decide (c = 0 ∨ c = 7)
  | _ => false

/-- The high word that a read of a low word latched (R272, R293). -/
def State.latched (s : State) (r : Reg) (ix : List Nat) : Word := s.latch.getD (regAddr r ix) 0

/-- The value of a register now. -/
def State.readNow (s : State) (r : Reg) (ix : List Nat) : Word :=
  let i := ix.getD 0 0
  let k := ix.getD 1 0
  let w (n : Nat) : Word := BitVec.ofNat 32 n
  if r.idleAt ix then 0
  else if r.ofPort && !s.configured (32 * i + k) then 0
  else
    match r with
    | .cmdMacLo => w Config.mgmtMac.toNat
    | .cmdMacHi => w (Config.mgmtMac.toNat / 2 ^ 32)
    | .cmdSessions => w s.sessionsWord
    | .cmdIncarnation => s.boot.incarnation
    | .cmdSlot => w (s.slot i).word
    | .rstCause => w s.causeWord
    | .rstHeldLo => w (s.fnMask FnState.inReset i 0)
    | .rstHeldHi => w (s.fnMask FnState.inReset i 1)
    | .rstFailedLo => w (s.fnMask FnState.failed i 0)
    | .rstFailedHi => w (s.fnMask FnState.failed i 1)
    | .pwrStatus => w s.pwrStatus
    | .pwrDie => w (s.pwrDie i)
    | .timeStatus => w s.timeStatus
    | .timeFreeFrac => w s.freeFrac
    | .timeFreeNsLo => s.latched r ix
    | .timeFreeNsHi => s.latched r ix
    | .timePtpFrac => w s.ptpFrac
    | .timePtpNsLo => s.latched r ix
    | .timePtpNsHi => s.latched r ix
    | .timeRate => BitVec.ofInt 32 s.time.rateUnits
    | .tideStatus => w s.tideStatus
    | .tblStatus => s.tables.op.word (s.reg r ix)
    | .tblSoundStatus => w s.tables.passes
    | .genActive => w s.genActive
    | .genInflight => w (s.inflight i)
    | .genArmTimeLo => w s.armTime
    | .genArmTimeHi => s.latched r ix
    | .genHorizonLo => w (s.horizon i)
    | .genHorizonHi => s.latched r ix
    | .xbarStatus => w (b2n s.xbar.ready * 16 + 3)
    | .xbarLiveLo => w s.xbar.live
    | .xbarLiveHi => w (s.xbar.live / 2 ^ 32)
    | .tcSpolStatus => s.tc.op.word (s.reg r ix)
    | .tcSpolCount => w s.tc.streams.length
    | .estGroups => w s.est.groups.length
    | .estMembers => w s.memberRecords
    | .estOpen => w s.liveContexts
    | .bwkStatus => w (b2n (decide (s.boot.phase ≠ .reset)) * 2 ^ 31 + s.bwk.groups.length)
    | .bwkUnitsFree => w s.unitsFree
    | .bwkUnitsDamaged => w s.unitsDamaged
    | .utwShare => w (s.undertowGib / 64)
    | .utwCells => w (s.underCells / 64)
    | .cswMode => w (((List.range 16).map fun e => s.cswMode e * 4 ^ e).sum)
    | .cswPaths => w s.cswPaths
    | .cswPath => w (s.cswPath (128 * i + k))
    | .swlStatus => w s.swlStatus
    | .swlDeskew => w (s.swl.lanes.getD i SwlLane.init).deskew
    | .swlLane => w (s.swl.lanes.getD i SwlLane.init).laneWord
    | .d2dLink => w (s.link i).encode
    | .d2dF2f => w (s.bondWord i)
    | .bistStatus => w s.bistStatus
    | .bistActive => w (s.bistActive i)
    | .bistFuseFree => w s.fuseFree
    | .secStatus => w s.secStatus
    | .secTrust => w s.secTrust
    | .telExport => w s.telExport
    | .telQuarStatus => w s.quarStatus
    | .telLogStatus => w s.logStatus
    | .telLogNextLo => w s.tel.nextSeq
    | .telLogNextHi => s.latched r ix
    | .linkMacLo => w Config.linkMac.toNat
    | .linkMacHi => w (Config.linkMac.toNat / 2 ^ 32)
    | .tileClk => w (s.tile i).ratio
    | .tileMcqDepth => w (s.depthWord (qKey i (qMcq k)))
    | .tileEqDepth => w (s.depthWord (qKey i (qEq (k / 8) (k % 8))))
    | .tileVoqDepth => w (s.depthWord (qKey i (qVoq (k / 8) (k % 8))))
    | .tileBufStatus => w (s.bufStatus i)
    | .tileBufFree => w (s.freeF i)
    | .tileTsStatus => w (s.stampWord i)
    | .tileLaunchPending => w (s.time.launches.getD i []).length
    | .tileEstEarly => w (s.slice i).early.length
    | .tileEstHot => w (s.hotTags i)
    | .tileLaneStatus => w (s.laneStatus (32 * i + k))
    | .tilePortStatus => w (s.portStatus (32 * i + k))
    | .oeStatus => w (s.oeStatus i)
    | .oeTemp => w ((s.oe i).temps.getD k 0 % 65536)
    | .oeFibre => w (s.oeFibre (16 * i + k))
    | .oeRing => w ((s.ring i k).encode s.now)
    | .brgStatus => w (s.brgStatus i)
    | _ => s.reg r ix

end Sys2Proof.Machine
end

