-- ==== Sys2Proof/Machine/RegCmds.lean ====
section
/-! DEFINITION. Register accesses (R13 to R18, R74 to R77): the commands that read and write registers, what a read latches or
clears, what a write stores in place of reserved values, and what it sets in motion. -/

namespace Sys2Proof.Machine

/-! ## Fields -/

/-- A field's bits. -/
def FieldSpec.mask (f : FieldSpec) : Word := BitVec.ofNat 32 ((2 ^ (f.hi + 1 - f.lo) - 1) * 2 ^ f.lo)

/-- The bits of a register with an access code. -/
def Reg.mask (r : Reg) (a : Acc) : Word :=
  (r.row.fields.filter fun f => decide (f.acc = a)).foldl (fun w f => w ||| f.mask) 0

/-- A word with a field replaced. -/
def FieldSpec.put (f : FieldSpec) (w : Word) (v : Nat) : Word :=
  (w &&& ~~~f.mask) ||| (BitVec.ofNat 32 (v * 2 ^ f.lo) &&& f.mask)

/-- SPILL_ON and SPILL_OFF are reserved as a pair (R201). -/
def spillPairBad (w : Word) : Bool := decide (100 < Word.bits w 7 0 ∨ Word.bits w 7 0 ≤ Word.bits w 15 8)

/-- The RW fields of a word that hold values their table lists as reserved. -/
def badFields (r : Reg) (w : Word) : List FieldSpec :=
  (r.row.fields.filter fun f => decide (f.acc = .rw) && !f.ok (f.get w)) ++
    if r = .bufSpill ∧ spillPairBad w then r.row.fields.filter fun f => decide (f.hi < 16) else []

/-- What a write leaves but for reserved values: RW fields set, W1C bits cleared where 1 is written unless hardware sets them
in that cycle (R15). -/
def writtenWord (r : Reg) (old v hwSet : Word) : Word :=
  let rw := r.mask .rw
  let w1c := r.mask .w1c
  (old &&& ~~~rw &&& ~~~(w1c &&& v)) ||| (v &&& rw) ||| (hwSet &&& w1c)

/-- The word with the reset value in each of the given fields (R14). -/
def legalWord (ix : List Nat) (fs : List FieldSpec) (w : Word) : Word := fs.foldl (fun w f => f.put w (f.resetAt ix)) w

/-! ## Reading -/

/-- What a read latches: the ns words of both time groups, or the high partner of a low word (R272, R293). -/
def State.latchOn (s : State) (r : Reg) (ix : List Nat) : State :=
  let put (s : State) (r : Reg) (v : Nat) : State :=
    { s with latch := s.latch.setD (regAddr r ix) 0 (BitVec.ofNat 32 v) }
  let both : State :=
    put (put (put (put s .timeFreeNsLo s.now) .timeFreeNsHi (s.now / 2 ^ 32)) .timePtpNsLo s.ptpNs) .timePtpNsHi
      (s.ptpNs / 2 ^ 32)
  match r with
  | .timeFreeFrac => both
  | .timePtpFrac => both
  | .genArmTimeLo => put s .genArmTimeHi (s.armTime / 2 ^ 32)
  | .genHorizonLo => put s .genHorizonHi (s.horizon (ix.getD 0 0) / 2 ^ 32)
  | .telLogNextLo => put s .telLogNextHi (s.tel.nextSeq / 2 ^ 32)
  | _ => s

/-- The RC fields of a register clear; an increment of that cycle stays (R15). -/
def State.clearCounter (s : State) (r : Reg) (ix : List Nat) (sameCycle : Nat) : State :=
  if r.mask .rc = 0 then s else s.setReg r ix (satAdd 0 sameCycle)

/-- A host's read of a register. -/
def State.readReg (s : State) (r : Reg) (ix : List Nat) (sameCycle : Nat) : Word × State :=
  (s.readNow r ix, (s.latchOn r ix).clearCounter r ix sameCycle)

/-! ## The operations of TC_SPOL_CMD (R282, R290) -/

/-- A stream's buckets stand full in every tile (R284). -/
def State.fillStream (s : State) (x : Nat) : State :=
  { s with tc := { s.tc with streamBuckets := s.tc.streamBuckets.filter fun b => decide (b.1 / 64 ≠ x) } }

/-- An operation: the status it ends with, and the state. -/
def State.spolOp (s : State) (op : Nat) : Nat × State :=
  let x := s.regBits .tcSpolCtx [] 20 0
  let d := s.reg .tcSpolData []
  match op with
  | 1 =>
    if rateOf d = 0 ∨ s.ranges.any (fun r => decide (r.1 ≤ x ∧ x < r.1 + r.2.1)) then (stBadParam, s)
    else if (s.tc.streams.find x).isNone ∧ 65536 ≤ s.tc.streams.length then (stNoResource, s)
    else if s.tc.streams.find x = some d then (stOk, s)
    else (stOk, ({ s with tc := { s.tc with streams := s.tc.streams.put x d } } : State).fillStream x)
  | 2 =>
    match s.tc.streams.find x with
    | some w => (stOk, s.setReg .tcSpolData [] w)
    | none => (stBadParam, s)
  | 3 =>
    match s.tc.streams.find x with
    | some _ => (stOk, ({ s with tc := { s.tc with streams := s.tc.streams.del x } } : State).fillStream x)
    | none => (stBadParam, s)
  | _ => (stBadParam, s)

/-- A non-zero OP of TC_SPOL_CMD starts its operation. -/
def State.spolCmd (s : State) (op : Nat) : State :=
  if op = 0 then s
  else
    let (code, s) := s.spolOp op
    { s with tc := { s.tc with op := { s.tc.op with busy := true, next := code } } }

/-- SPOL_OPERATION_COMPLETE (R290): BUSY clears and CODE takes the operation's status. -/
def execSpolOperationComplete (s : State) : Out :=
  .next <| if s.tc.op.busy then { s with tc := { s.tc with op := ⟨false, s.tc.op.next, 0⟩ } } else s

/-! ## Writing -/

/-- A write of a command register while its engine is BUSY is ignored and sets OVERRUN (R269, R290). -/
def State.overrun (s : State) (r : Reg) : Option Reg :=
  match r with
  | .tblCmd => if s.tables.op.busy then some .tblStatus else none
  | .tcSpolCmd => if s.tc.op.busy then some .tcSpolStatus else none
  | _ => none

/-- TEL_QUAR's new ceiling and rate (R588): the bucket never holds more than BURST, and starts to fill where it was full. DESIGN
CHOICE: the unit that falls due next keeps its moment, and those after it follow at the new rate (log entry 80). -/
def State.newQuar (s : State) (old : Word) : State :=
  let burst := s.regBits .telQuar [] 15 8
  if burst ≤ s.tel.tokens then { s with tel := { s.tel with tokens := burst } }
  else if Word.bits old 15 8 ≤ s.tel.tokens then
    let now := s.now
    { s with tel := { s.tel with unitFrom := now, unitNo := 1 } }
  else { s with tel := { s.tel with unitFrom := s.tel.unitDue (Word.bits old 7 0), unitNo := 0 } }

/-- What a write of a register sets in motion once its fields are stored; `old` is the word before, `v` the word written. -/
def State.afterStore (s : State) (r : Reg) (ix : List Nat) (old v : Word) (session : Nat) : State :=
  let t := ix.getD 0 0
  let k := ix.getD 1 0
  let changed := decide (s.reg r ix ≠ old)
  match r with
  | .tblCmd => s.tblCmd session (Word.bits v 3 0)
  | .tcSpolCmd => s.spolCmd (Word.bits v 3 0)
  | .telQuar => if changed then s.newQuar old else s
  | .bufSpill => (List.range 64).foldl State.spillJudge s
  | .tileTcPolice =>
    if changed then { s with tc := { s.tc with policers := s.tc.policers.del (8 * (32 * t + k / 8) + k % 8) } } else s
  | .tileTcPshape => if changed then s.zeroShaper (32 * t + k) 0 else s
  | .tileTcQshape => if changed then s.zeroShaper (32 * t + k / 8) (k % 8) else s
  | _ => s

/-- A write of a register (R13 to R15). -/
def State.writeReg (s : State) (r : Reg) (ix : List Nat) (v hwSet : Word) (session : Nat) : State :=
  if r.idleAt ix then s
  else
    match s.overrun r with
    | some st => s.setReg st [] (s.reg st [] ||| 0x40000000)
    | none =>
      let old := s.reg r ix
      let w := writtenWord r old v hwSet
      let bad := badFields r w
      let s := s.setReg r ix (legalWord ix bad w)
      let a := regAddr r ix
      let s := if bad.isEmpty then s
        else s.raiseEv 0x0001 0 ((ownersAt a).headD srcNone) (beBytes 4 a ++ beBytes 4 w.toNat)
      s.afterStore r ix old v session

/-! ## The commands -/

/-- R18 on one address, its parameter at an offset. -/
def State.atReg (s : State) (a : Addr) (off : Nat) (k : Reg → List Nat → Ans × State) : Ans × State :=
  match locate a with
  | none => (badParam off, s)
  | some (r, ix) =>
    match s.ownerDown a.toNat with
    | some f => (.done stInReset f [], s)
    | none => k r ix

/-- Open sessions idle beyond KEEPALIVE close (R88). DESIGN CHOICE: in ascending slot order, which is the order of their
SESSION_CLOSED events (log entry 65). -/
def State.closeIdle (s : State) : State :=
  let limit := s.regBits .cmdConfig [] 7 0 * 1000000000
  (List.range 8).foldl (init := s) fun s i => if (s.slot i).lastFrame + limit < s.now then s.closeSession i 1 else s

/-- A command that writes registers: a new KEEPALIVE closes idle sessions once its reply has been sent (R88). -/
def regWriting (c : Instr) (body : Body) (s : State) : State :=
  let old := s.regBits .cmdConfig [] 7 0
  hostCmdThen c body (fun _ t => if t.regBits .cmdConfig [] 7 0 = old then t else t.closeIdle) s

/-- REG_READ of an address (R74); `sameCycle` counts what hardware adds in the read's own cycle. -/
def readAt (c : Instr) (a : Addr) (sameCycle : Nat) (s : State) : State :=
  hostCmd c (fun _ s => s.atReg a 0 fun r ix =>
    let (v, s) := s.readReg r ix sameCycle
    (ok (leBytes v), s)) s

/-- REG_WRITE of an address (R74); `hwSet` are the bits that hardware sets in the write's own cycle. -/
def writeAt (c : Instr) (a : Addr) (v hwSet : Word) (s : State) : State :=
  regWriting c (fun i s => s.atReg a 0 fun r ix => (ok [], s.writeReg r ix v hwSet (s.slot i).number)) s

/-- REG_READ. -/
def execRegRead (iss : Issuer) (addr : Addr) (s : State) : Out := .next (readAt (.regRead iss addr) addr 0 s)

/-- RC_REGISTER_READ (R13, R15). -/
def execRcRegisterRead (iss : Issuer) (addr : Addr) (sameCycle : Nat) (s : State) : Out :=
  .next (readAt (.rcRegisterRead iss addr sameCycle) addr sameCycle s)

/-- LATCHING_REGISTER_READ (R272, R293). -/
def execLatchingRegisterRead (iss : Issuer) (addr : Addr) (s : State) : Out := .next (readAt (.latchingRegisterRead iss addr) addr 0 s)

/-- REG_WRITE. -/
def execRegWrite (iss : Issuer) (addr : Addr) (value : Word) (s : State) : Out :=
  .next (writeAt (.regWrite iss addr value) addr value 0 s)

/-- W1C_REGISTER_WRITE (R13, R15). -/
def execW1cRegisterWrite (iss : Issuer) (addr : Addr) (value hwSet : Word) (s : State) : Out :=
  .next (writeAt (.w1cRegisterWrite iss addr value hwSet) addr value hwSet s)

/-- CMD_CONFIG_WRITE (R87, R88). -/
def execCmdConfigWrite (iss : Issuer) (value : Word) (s : State) : Out :=
  .next (writeAt (.cmdConfigWrite iss value) (BitVec.ofNat 32 (regAddr .cmdConfig [])) value 0 s)

/-- TC_CONFIG_WRITE (R284). -/
def execTcConfigWrite (iss : Issuer) (addr : Addr) (value : Word) (s : State) : Out :=
  .next (writeAt (.tcConfigWrite iss addr value) addr value 0 s)

/-- A write of TBL_CMD with an OP. -/
def writeTblCmd (c : Instr) (value op : Word) (s : State) : State :=
  writeAt c (BitVec.ofNat 32 (regAddr .tblCmd [])) (withOp value op) 0 s

/-- TBL_CMD_WRITE_ENTRY (R269). -/
def execTblCmdWriteEntry (iss : Issuer) (value : Word) (s : State) : Out :=
  .next (writeTblCmd (.tblCmdWriteEntry iss value) value 1 s)

/-- TBL_CMD_READ_ENTRY (R269). -/
def execTblCmdReadEntry (iss : Issuer) (value : Word) (s : State) : Out :=
  .next (writeTblCmd (.tblCmdReadEntry iss value) value 2 s)

/-- TBL_CMD_INVALIDATE_ENTRY (R269). -/
def execTblCmdInvalidateEntry (iss : Issuer) (value : Word) (s : State) : Out :=
  .next (writeTblCmd (.tblCmdInvalidateEntry iss value) value 3 s)

/-- TBL_CMD_MOVE_ENTRIES (R269). -/
def execTblCmdMoveEntries (iss : Issuer) (value : Word) (s : State) : Out :=
  .next (writeTblCmd (.tblCmdMoveEntries iss value) value 4 s)

/-- A write of TC_SPOL_CMD with an OP. -/
def writeSpolCmd (c : Instr) (op : Word) (s : State) : State :=
  writeAt c (BitVec.ofNat 32 (regAddr .tcSpolCmd [])) op 0 s

/-- SPOL_BIND (R282, R290). -/
def execSpolBind (iss : Issuer) (s : State) : Out := .next (writeSpolCmd (.spolBind iss) 1 s)

/-- SPOL_READ (R290). -/
def execSpolRead (iss : Issuer) (s : State) : Out := .next (writeSpolCmd (.spolRead iss) 2 s)

/-- SPOL_UNBIND (R290). -/
def execSpolUnbind (iss : Issuer) (s : State) : Out := .next (writeSpolCmd (.spolUnbind iss) 3 s)

/-- What REG_MODIFY writes (R75): outside the mask the old value, but 0 in W1C, WO and RC fields. -/
def modifiedWord (r : Reg) (old mask v : Word) : Word :=
  (old &&& ~~~mask &&& ~~~(r.mask .w1c ||| r.mask .wo ||| r.mask .rc)) ||| (v &&& mask)

/-- REG_MODIFY (R75). -/
def execRegModify (iss : Issuer) (addr : Addr) (mask value : Word) (s : State) : Out :=
  .next <| regWriting (.regModify iss addr mask value) (fun i s => s.atReg addr 0 fun r ix =>
    let old := s.readNow r ix
    let v := modifiedWord r old mask value
    (ok (leBytes old ++ leBytes v), (s.latchOn r ix).writeReg r ix v 0 (s.slot i).number)) s

/-- The addresses of a block in ascending order; those that would wrap are shown as an address that no register has. -/
def blockAddrs (first : Addr) (n : Nat) : List Addr :=
  (List.range n).map fun i => if first.toNat + 4 * i < 2 ^ 32 then first + BitVec.ofNat 32 (4 * i) else 0xFFFFFFFF

/-- Registers read in order. -/
def State.readAll (s : State) : List Addr → List Byte × State
  | [] => ([], s)
  | a :: as =>
    match locate a with
    | none => State.readAll s as
    | some (r, ix) =>
      let (v, s) := s.readReg r ix 0
      let (bs, s) := State.readAll s as
      (leBytes v ++ bs, s)

/-- REG_READ_BLOCK (R76). -/
def execRegReadBlock (iss : Issuer) (first : Addr) (count : BitVec 16) (s : State) : Out :=
  .next <| hostCmd (.regReadBlock iss first count) (fun _ s =>
    let n := count.toNat
    let as := blockAddrs first n
    guardParams [((locate first).isSome, 0), (decide (1 ≤ n ∧ n ≤ 256), 4), (as.all fun a => (locate a).isSome, 0)] s <|
      match as.findSome? fun a => s.ownerDown a.toNat with
      | some f => (.done stInReset f [], s)
      | none =>
        let (bs, s) := s.readAll as
        (ok bs, s)) s

/-- The index and function of the first pair whose register's function is down (R76). -/
def State.firstDown (s : State) : List (Addr × Word) → Nat → Option (Nat × Nat)
  | [], _ => none
  | p :: ps, n =>
    match s.ownerDown p.1.toNat with
    | some f => some (n, f)
    | none => State.firstDown s ps (n + 1)

/-- A function that enters reset while a list is written; command engines own no register, and their resets are rows of
their own. -/
def State.enterDuring (s : State) (fid : Nat) : State :=
  if fnValid fid ∧ !s.fnDown fid ∧ fid / 256 ≠ 7 then s.enterReset fid false else s

/-- Pairs written in list order, up to the first addressed to a function that is down; the index of that pair. -/
def State.writePairs (s : State) (session : Nat) (enters : Option (Nat × BitVec 12)) :
    List (Addr × Word) → Nat → Option (Nat × Nat) × State
  | [], _ => (none, s)
  | p :: ps, n =>
    let s := match enters with
      | some (m, f) => if m = n then s.enterDuring f.toNat else s
      | none => s
    match s.ownerDown p.1.toNat with
    | some f => (some (n, f), s)
    | none =>
      match locate p.1 with
      | none => State.writePairs s session enters ps (n + 1)
      | some (r, ix) => State.writePairs (s.writeReg r ix p.2 0 session) session enters ps (n + 1)

/-- The answer of a list that stopped at a pair. -/
def listStopped (n f : Nat) : Ans := .done stInReset f (beBytes 2 n ++ [0, 0])

/-- REG_WRITE_LIST (R76). -/
def execRegWriteList (iss : Issuer) (pairs : List (Addr × Word)) (enters : Option (Nat × BitVec 12)) (s : State) : Out :=
  .next <| regWriting (.regWriteList iss pairs enters) (fun i s =>
    guardParams (pairs.zipIdx.map fun (p, n) => ((locate p.1).isSome, 8 * n)) s <|
      match s.firstDown pairs 0 with
      | some (_, f) => (listStopped 0 f, s)
      | none =>
        match s.writePairs (s.slot i).number enters pairs 0 with
        | (some (n, f), s) => (listStopped n f, s)
        | (none, s) => (ok [], s)) s

end Sys2Proof.Machine
end

