-- ==== Sys2Proof/Machine/Dispatch.lean ====
section
/-! DEFINITION. One arm for each command: a direct call of its meaning. -/

namespace Sys2Proof.Machine

/-- What a command does to everything but the queue. -/
def exec (i : Instr) (s : State) : Host.Outcome State Fault Refusal :=
  match i with
  | .powerOnResetAssert => Sys2Proof.Machine.execPowerOnResetAssert s
  | .systemResetAssert => Sys2Proof.Machine.execSystemResetAssert s
  | .resetRelease pin bistSkip => Sys2Proof.Machine.execResetRelease pin bistSkip s
  | .bootStepEnd rep => Sys2Proof.Machine.execBootStepEnd rep s
  | .railUndervoltage => Sys2Proof.Machine.execRailUndervoltage s
  | .railRecoveryExpiry => Sys2Proof.Machine.execRailRecoveryExpiry s
  | .refclkStop => Sys2Proof.Machine.execRefclkStop s
  | .thermalTrip die temp => Sys2Proof.Machine.execThermalTrip die temp s
  | .thermalThrottle die temp => Sys2Proof.Machine.execThermalThrottle die temp s
  | .jtagInstruction a0 trstLow => Sys2Proof.Machine.execJtagInstruction a0 trstLow s
  | .extestExit trstLow => Sys2Proof.Machine.execExtestExit trstLow s
  | .mgmtFrameReceive f => Sys2Proof.Machine.execMgmtFrameReceive f s
  | .sessionOpen iss x25519 kemKey nonce => Sys2Proof.Machine.execSessionOpen iss x25519 kemKey nonce s
  | .sessionFinish iss session rsv edKey mldsaKey edSig mldsaSig => Sys2Proof.Machine.execSessionFinish iss session rsv edKey mldsaKey edSig mldsaSig s
  | .sessionClose iss => Sys2Proof.Machine.execSessionClose iss s
  | .sessionList iss => Sys2Proof.Machine.execSessionList iss s
  | .devIdentify iss => Sys2Proof.Machine.execDevIdentify iss s
  | .nop iss params => Sys2Proof.Machine.execNop iss params s
  | .cmdPoll iss tag => Sys2Proof.Machine.execCmdPoll iss tag s
  | .cmdCancel iss tag => Sys2Proof.Machine.execCmdCancel iss tag s
  | .objOpen iss type rsv length => Sys2Proof.Machine.execObjOpen iss type rsv length s
  | .objWrite iss handle rsv offset rsv2 data => Sys2Proof.Machine.execObjWrite iss handle rsv offset rsv2 data s
  | .objClose iss handle rsv digest => Sys2Proof.Machine.execObjClose iss handle rsv digest s
  | .objRead iss handle rsv offset count met => Sys2Proof.Machine.execObjRead iss handle rsv offset count met s
  | .objFree iss handle rsv => Sys2Proof.Machine.execObjFree iss handle rsv s
  | .regRead iss addr => Sys2Proof.Machine.execRegRead iss addr s
  | .regWrite iss addr value => Sys2Proof.Machine.execRegWrite iss addr value s
  | .regModify iss addr mask value => Sys2Proof.Machine.execRegModify iss addr mask value s
  | .regReadBlock iss first count => Sys2Proof.Machine.execRegReadBlock iss first count s
  | .regWriteList iss pairs enters => Sys2Proof.Machine.execRegWriteList iss pairs enters s
  | .rcRegisterRead iss addr sameCycle => Sys2Proof.Machine.execRcRegisterRead iss addr sameCycle s
  | .latchingRegisterRead iss addr => Sys2Proof.Machine.execLatchingRegisterRead iss addr s
  | .w1cRegisterWrite iss addr value hwSet => Sys2Proof.Machine.execW1cRegisterWrite iss addr value hwSet s
  | .cmdConfigWrite iss value => Sys2Proof.Machine.execCmdConfigWrite iss value s
  | .tcConfigWrite iss addr value => Sys2Proof.Machine.execTcConfigWrite iss addr value s
  | .tblCmdWriteEntry iss value => Sys2Proof.Machine.execTblCmdWriteEntry iss value s
  | .tblCmdReadEntry iss value => Sys2Proof.Machine.execTblCmdReadEntry iss value s
  | .tblCmdInvalidateEntry iss value => Sys2Proof.Machine.execTblCmdInvalidateEntry iss value s
  | .tblCmdMoveEntries iss value => Sys2Proof.Machine.execTblCmdMoveEntries iss value s
  | .tableOperationComplete => Sys2Proof.Machine.execTableOperationComplete s
  | .spolBind iss => Sys2Proof.Machine.execSpolBind iss s
  | .spolRead iss => Sys2Proof.Machine.execSpolRead iss s
  | .spolUnbind iss => Sys2Proof.Machine.execSpolUnbind iss s
  | .spolOperationComplete => Sys2Proof.Machine.execSpolOperationComplete s
  | .tblWrite iss qmask table flags rsv index image => Sys2Proof.Machine.execTblWrite iss qmask table flags rsv index image s
  | .tblRead iss quad table flags rsv index => Sys2Proof.Machine.execTblRead iss quad table flags rsv index s
  | .tblInvalidate iss qmask table flags rsv index => Sys2Proof.Machine.execTblInvalidate iss qmask table flags rsv index s
  | .tblMove iss qmask table flags rsv src dst count => Sys2Proof.Machine.execTblMove iss qmask table flags rsv src dst count s
  | .tblBulkWrite iss qmask table flags rsv handle rsv2 first count met => Sys2Proof.Machine.execTblBulkWrite iss qmask table flags rsv handle rsv2 first count met s
  | .tblBulkRead iss quad table flags rsv first count => Sys2Proof.Machine.execTblBulkRead iss quad table flags rsv first count s
  | .soundConfig iss rsv rate repair rsv2 => Sys2Proof.Machine.execSoundConfig iss rsv rate repair rsv2 s
  | .genActivate iss flags rsv handle t met => Sys2Proof.Machine.execGenActivate iss flags rsv handle t met s
  | .genStatus iss => Sys2Proof.Machine.execGenStatus iss s
  | .genAbandon iss => Sys2Proof.Machine.execGenAbandon iss s
  | .planLoad iss handle rsv met => Sys2Proof.Machine.execPlanLoad iss handle rsv met s
  | .portConfig iss fibre layout rsv => Sys2Proof.Machine.execPortConfig iss fibre layout rsv s
  | .portStatus iss lane rsv => Sys2Proof.Machine.execPortStatus iss lane rsv s
  | .portEnable iss lane enable rsv => Sys2Proof.Machine.execPortEnable iss lane enable rsv s
  | .linkRetrain iss lane rsv => Sys2Proof.Machine.execLinkRetrain iss lane rsv s
  | .discoveryRead iss fibre count flags rsv => Sys2Proof.Machine.execDiscoveryRead iss fibre count flags rsv s
  | .oeStatus iss engine rsv => Sys2Proof.Machine.execOeStatus iss engine rsv s
  | .oeCalibrate iss engine kind flags rsv => Sys2Proof.Machine.execOeCalibrate iss engine kind flags rsv s
  | .ringReseek iss engine dir fibre mask => Sys2Proof.Machine.execRingReseek iss engine dir fibre mask s
  | .pilotPlan iss mask rsv tones => Sys2Proof.Machine.execPilotPlan iss mask rsv tones s
  | .cswCircuit iss op mask a b => Sys2Proof.Machine.execCswCircuit iss op mask a b s
  | .cswStatus iss engine rsv => Sys2Proof.Machine.execCswStatus iss engine rsv s
  | .swlCalibrate iss mask rsv => Sys2Proof.Machine.execSwlCalibrate iss mask rsv s
  | .swlDeskewRead iss fibre count => Sys2Proof.Machine.execSwlDeskewRead iss fibre count s
  | .timeRead iss => Sys2Proof.Machine.execTimeRead iss s
  | .timeAdjust iss flags rsv delta base => Sys2Proof.Machine.execTimeAdjust iss flags rsv delta base s
  | .ptpConfig iss domain flags logSync logAnnounce logPdelay prio1 prio2 rsv asym => Sys2Proof.Machine.execPtpConfig iss domain flags logSync logAnnounce logPdelay prio1 prio2 rsv asym s
  | .tsQueueRead iss first count rsv => Sys2Proof.Machine.execTsQueueRead iss first count rsv s
  | .timedLaunch iss lane ident flags rsv t length rsv2 data => Sys2Proof.Machine.execTimedLaunch iss lane ident flags rsv t length rsv2 data s
  | .tideLoad iss handle rsv met => Sys2Proof.Machine.execTideLoad iss handle rsv met s
  | .tideRead iss flags rsv lane => Sys2Proof.Machine.execTideRead iss flags rsv lane s
  | .tideCommit iss flags rsv a => Sys2Proof.Machine.execTideCommit iss flags rsv a s
  | .tideCancel iss => Sys2Proof.Machine.execTideCancel iss s
  | .groupCreate iss group weight rsv base count m rsv2 members => Sys2Proof.Machine.execGroupCreate iss group weight rsv base count m rsv2 members s
  | .groupDestroy iss group rsv => Sys2Proof.Machine.execGroupDestroy iss group rsv s
  | .groupQuery iss group first count rsv => Sys2Proof.Machine.execGroupQuery iss group first count rsv s
  | .groupWeight iss group weight rsv => Sys2Proof.Machine.execGroupWeight iss group weight rsv s
  | .ctxQuery iss ctx first count met => Sys2Proof.Machine.execCtxQuery iss ctx first count met s
  | .ctxAbort iss ctx => Sys2Proof.Machine.execCtxAbort iss ctx s
  | .memberExclude iss group flags rsv ctx count rsv2 members met => Sys2Proof.Machine.execMemberExclude iss group flags rsv ctx count rsv2 members met s
  | .ebbRead iss group flags rsv => Sys2Proof.Machine.execEbbRead iss group flags rsv s
  | .triggerWrite iss kind rsv count items => Sys2Proof.Machine.execTriggerWrite iss kind rsv count items s
  | .triggerRead iss kind rsv count first => Sys2Proof.Machine.execTriggerRead iss kind rsv count first s
  | .bwkGroupCreate iss group k rsv base count z members => Sys2Proof.Machine.execBwkGroupCreate iss group k rsv base count z members s
  | .bwkGroupDestroy iss group rsv => Sys2Proof.Machine.execBwkGroupDestroy iss group rsv s
  | .bwkQuery iss group rsv first count => Sys2Proof.Machine.execBwkQuery iss group rsv first count s
  | .partRead iss => Sys2Proof.Machine.execPartRead iss s
  | .partResize iss id rsv size => Sys2Proof.Machine.execPartResize iss id rsv size s
  | .memErrorRead iss bridge rsv first count => Sys2Proof.Machine.execMemErrorRead iss bridge rsv first count s
  | .testRun iss func kinds flags => Sys2Proof.Machine.execTestRun iss func kinds flags s
  | .testResult iss test first count rsv => Sys2Proof.Machine.execTestResult iss test first count rsv s
  | .repairApply iss kind flags func inst bit addr => Sys2Proof.Machine.execRepairApply iss kind flags func inst bit addr s
  | .funcReset iss func flags rsv => Sys2Proof.Machine.execFuncReset iss func flags rsv s
  | .deviceReset iss => Sys2Proof.Machine.execDeviceReset iss s
  | .resetDelayExpiry => Sys2Proof.Machine.execResetDelayExpiry s
  | .powerCap iss cap rsv => Sys2Proof.Machine.execPowerCap iss cap rsv s
  | .powerStatus iss => Sys2Proof.Machine.execPowerStatus iss s
  | .telCounterRead iss set flags count first => Sys2Proof.Machine.execTelCounterRead iss set flags count first s
  | .telCounterClear iss set rsv count first => Sys2Proof.Machine.execTelCounterClear iss set rsv count first s
  | .telExportConfig iss target flags minSev rsv rate rsv2 record flow => Sys2Proof.Machine.execTelExportConfig iss target flags minSev rsv rate rsv2 record flow s
  | .logRead iss flags minSev rsv count first met => Sys2Proof.Machine.execLogRead iss flags minSev rsv count first met s
  | .attest iss nonce => Sys2Proof.Machine.execAttest iss nonce s
  | .certRead iss scheme depth rsv => Sys2Proof.Machine.execCertRead iss scheme depth rsv s
  | .fwUpdate iss handle rsv met => Sys2Proof.Machine.execFwUpdate iss handle rsv met s
  | .fwActivate iss slot flags rsv => Sys2Proof.Machine.execFwActivate iss slot flags rsv s
  | .commandComplete session tag fw => Sys2Proof.Machine.execCommandComplete session tag fw s
  | .keepaliveExpiry slot => Sys2Proof.Machine.execKeepaliveExpiry slot s
  | .handshakeTimeout slot => Sys2Proof.Machine.execHandshakeTimeout slot s
  | .watchdogExpiry engine => Sys2Proof.Machine.execWatchdogExpiry engine s
  | .funcResetEnd func => Sys2Proof.Machine.execFuncResetEnd func s
  | .flitReceive lane flit fecOk => Sys2Proof.Machine.execFlitReceive lane flit fecOk s
  | .replayTimerExpiry port => Sys2Proof.Machine.execReplayTimerExpiry port s
  | .ackStallTimeout port => Sys2Proof.Machine.execAckStallTimeout port s
  | .linkSilenceTimeout port => Sys2Proof.Machine.execLinkSilenceTimeout port s
  | .laneSilenceTimeout lane => Sys2Proof.Machine.execLaneSilenceTimeout lane s
  | .flitTransmit lane => Sys2Proof.Machine.execFlitTransmit lane s
  | .ethFrameReceive port frame overrun => Sys2Proof.Machine.execEthFrameReceive port frame overrun s
  | .cellTrainReceive port train overrun => Sys2Proof.Machine.execCellTrainReceive port train overrun s
  | .eModeTransmitStart port => Sys2Proof.Machine.execEModeTransmitStart port s
  | .trainFillExpiry port => Sys2Proof.Machine.execTrainFillExpiry port s
  | .eKeepaliveSend port => Sys2Proof.Machine.execEKeepaliveSend port s
  | .eModeSilenceTimeout port => Sys2Proof.Machine.execEModeSilenceTimeout port s
  | .laneDrop lane dir => Sys2Proof.Machine.execLaneDrop lane dir s
  | .laneReturn lane dir => Sys2Proof.Machine.execLaneReturn lane dir s
  | .discoverSend fibre => Sys2Proof.Machine.execDiscoverSend fibre s
  | .discoverReceive lane src payload => Sys2Proof.Machine.execDiscoverReceive lane src payload s
  | .partnerLostTimeout fibre => Sys2Proof.Machine.execPartnerLostTimeout fibre s
  | .fibreComparisonComplete fibre => Sys2Proof.Machine.execFibreComparisonComplete fibre s
  | .portTrainingComplete port => Sys2Proof.Machine.execPortTrainingComplete port s
  | .cellLookup tile => Sys2Proof.Machine.execCellLookup tile s
  | .cellAdmission tile => Sys2Proof.Machine.execCellAdmission tile s
  | .landedCellRejudge tile => Sys2Proof.Machine.execLandedCellRejudge tile s
  | .generatedCellReoffer tile => Sys2Proof.Machine.execGeneratedCellReoffer tile s
  | .undertowReadback tile queue met => Sys2Proof.Machine.execUndertowReadback tile queue met s
  | .headSweep tile => Sys2Proof.Machine.execHeadSweep tile s
  | .xbarSlot => Sys2Proof.Machine.execXbarSlot s
  | .depthReport => Sys2Proof.Machine.execDepthReport s
  | .macAgeSweep quad => Sys2Proof.Machine.execMacAgeSweep quad s
  | .soundingVisit met => Sys2Proof.Machine.execSoundingVisit met s
  | .genActivation => Sys2Proof.Machine.execGenActivation s
  | .genRetire => Sys2Proof.Machine.execGenRetire s
  | .ptpMessageReceive port msg => Sys2Proof.Machine.execPtpMessageReceive port msg s
  | .ptpMessageSend port kind => Sys2Proof.Machine.execPtpMessageSend port kind s
  | .announceTimeout sync => Sys2Proof.Machine.execAnnounceTimeout sync s
  | .slewEnd => Sys2Proof.Machine.execSlewEnd s
  | .ppsPulse => Sys2Proof.Machine.execPpsPulse s
  | .ppsPulseEnd => Sys2Proof.Machine.execPpsPulseEnd s
  | .timedLaunchDue tile => Sys2Proof.Machine.execTimedLaunchDue tile s
  | .tideCheckEnd => Sys2Proof.Machine.execTideCheckEnd s
  | .tideActivation port => Sys2Proof.Machine.execTideActivation port s
  | .tideWindowBoundary port => Sys2Proof.Machine.execTideWindowBoundary port s
  | .laneDivertStart lane => Sys2Proof.Machine.execLaneDivertStart lane s
  | .causewayChange engine => Sys2Proof.Machine.execCausewayChange engine s
  | .causewayChangeEnd engine captured => Sys2Proof.Machine.execCausewayChangeEnd engine captured s
  | .laneDivertEnd lane detuned => Sys2Proof.Machine.execLaneDivertEnd lane detuned s
  | .swellInstanceStart engine lambda present => Sys2Proof.Machine.execSwellInstanceStart engine lambda present s
  | .swellInstanceEnd inputs bursts => Sys2Proof.Machine.execSwellInstanceEnd inputs bursts s
  | .swlCalibrationExpiry engine halfSpent => Sys2Proof.Machine.execSwlCalibrationExpiry engine halfSpent s
  | .swlCalibrateTimeout => Sys2Proof.Machine.execSwlCalibrateTimeout s
  | .openReceive tile => Sys2Proof.Machine.execOpenReceive tile s
  | .cupReceive tile => Sys2Proof.Machine.execCupReceive tile s
  | .codeReceive tile => Sys2Proof.Machine.execCodeReceive tile s
  | .deltaApply bridge met => Sys2Proof.Machine.execDeltaApply bridge met s
  | .ctxLineFetchComplete tile met => Sys2Proof.Machine.execCtxLineFetchComplete tile met s
  | .headerUnpin ctx => Sys2Proof.Machine.execHeaderUnpin ctx s
  | .paceRoundStart ctx => Sys2Proof.Machine.execPaceRoundStart ctx s
  | .missingRound ctx met => Sys2Proof.Machine.execMissingRound ctx met s
  | .resendReceive tile met => Sys2Proof.Machine.execResendReceive tile met s
  | .contextDeadline ctx => Sys2Proof.Machine.execContextDeadline ctx s
  | .lingerExpiry ctx => Sys2Proof.Machine.execLingerExpiry ctx s
  | .ringLockAcquire e r => Sys2Proof.Machine.execRingLockAcquire e r s
  | .ringLockLoss target => Sys2Proof.Machine.execRingLockLoss target s
  | .relockStart e r captured => Sys2Proof.Machine.execRelockStart e r captured s
  | .captureTimeout e r => Sys2Proof.Machine.execCaptureTimeout e r s
  | .pilotWindowEnd target window => Sys2Proof.Machine.execPilotWindowEnd target window s
  | .cooldownExpiry e r => Sys2Proof.Machine.execCooldownExpiry e r s
  | .seekResonance e r code => Sys2Proof.Machine.execSeekResonance e r code s
  | .seekSweepEnd e r => Sys2Proof.Machine.execSeekSweepEnd e r s
  | .seekRetryExpiry e r => Sys2Proof.Machine.execSeekRetryExpiry e r s
  | .feedforwardSample e temps loop => Sys2Proof.Machine.execFeedforwardSample e temps loop s
  | .lightLossDetect target => Sys2Proof.Machine.execLightLossDetect target s
  | .probeBurst f => Sys2Proof.Machine.execProbeBurst f s
  | .lightPresent target => Sys2Proof.Machine.execLightPresent target s
  | .openDwellExpiry f => Sys2Proof.Machine.execOpenDwellExpiry f s
  | .laserInputFail e b => Sys2Proof.Machine.execLaserInputFail e b s
  | .laserInputGoodExpiry e b => Sys2Proof.Machine.execLaserInputGoodExpiry e b s
  | .errorWindowEnd ends => Sys2Proof.Machine.execErrorWindowEnd ends s
  | .quarantineUnitDue => Sys2Proof.Machine.execQuarantineUnitDue s
  | .patrolScrub b finding => Sys2Proof.Machine.execPatrolScrub b finding s
  | .bridgeZeroingComplete b => Sys2Proof.Machine.execBridgeZeroingComplete b s
  | .shorelineCrcLimit l words => Sys2Proof.Machine.execShorelineCrcLimit l words s
  | .widthRecordPublish l => Sys2Proof.Machine.execWidthRecordPublish l s
  | .widthRecordReceive l rec => Sys2Proof.Machine.execWidthRecordReceive l rec s
  | .powerPeriod forecast logic need ratio steps drivers => Sys2Proof.Machine.execPowerPeriod forecast logic need ratio steps drivers s
  | .powerReplyReceive d => Sys2Proof.Machine.execPowerReplyReceive d s
  | .proposeReceive d expected now => Sys2Proof.Machine.execProposeReceive d expected now s
  | .proposeTimeout d => Sys2Proof.Machine.execProposeTimeout d s
  | .tileRatioStep tile => Sys2Proof.Machine.execTileRatioStep tile s
  | .testStaggerExpiry => Sys2Proof.Machine.execTestStaggerExpiry s
  | .testEnd entry faults durationUs => Sys2Proof.Machine.execTestEnd entry faults durationUs s
  | .eventRaise ev => Sys2Proof.Machine.execEventRaise ev s
  | .telStageTimer => Sys2Proof.Machine.execTelStageTimer s
  | .coalesceWindowExpiry code source => Sys2Proof.Machine.execCoalesceWindowExpiry code source s
  | .holdRelease => Sys2Proof.Machine.execHoldRelease s
  | .telStreamSend => Sys2Proof.Machine.execTelStreamSend s
  | .telCollectorSend a0 => Sys2Proof.Machine.execTelCollectorSend a0 s
  | .refclkRunExpiry => Sys2Proof.Machine.execRefclkRunExpiry s

end Sys2Proof.Machine
end

