-- ==== Sys2Proof/WellFormed.lean ====
section
/-! DEFINITION. Well-formed commands: operands that a frame, a cell or a pin of the part can carry. Parameters that the rules
judge (lengths, codes, reserved bits, counts) are no part of this: their commands run and are answered. -/

namespace Sys2Proof

/-- A flit has 15 cell slots, and its link cell one credit limit for each of the eight classes (R108, R109). -/
def Flit.wf (f : Flit) : Bool := decide (f.slots.length = 15) && decide (f.link.credit.length = 8)

/-- An item is laid out as its command's KIND says (R380): counters 0, entries 1, and invalidations under every other code. -/
def TrigItem.fits (kind : Byte) : TrigItem → Bool
  | .counter .. => decide (kind = 0)
  | .entry .. => decide (kind = 1)
  | .invalidate .. => decide (1 < kind.toNat)

/-- The command can reach the part. -/
def Instr.wf : Instr → Bool
  | .triggerWrite _ kind _ _ items => items.all (TrigItem.fits kind)
  | .flitReceive _ flit _ => flit.wf
  | _ => true

end Sys2Proof
end

