-- ==== Sys2Proof/Safety.lean ====
section
/-! DEFINITION. What the statements are made of: when a host's command can run, and the properties that every step keeps. -/

namespace Sys2Proof.Machine

/-- The host command of a row waits in the queue of its session, which is open in slot `i`, and may start (R63, R64, R77). -/
structure Waits (s : State) (c : Instr) (i : Nat) (e : CmdEntry) : Prop where
  booted : s.boot.phase = .done
  waits : (requestOf c).bind s.waiting = some (i, e)
  start : s.mayStart i e = true

/-- The session-0 command of a row waits as `z`; `rest` are the others (R57). -/
structure WaitsZero (s : State) (c : Instr) (z : ZeroReq) (rest : List ZeroReq) : Prop where
  booted : s.boot.phase = .done
  waits : ((requestOf c).bind fun r => takeFirst (·.isOf r) s.mgmt.zeroCmds) = some (z, rest)

/-- CMD_POLL or CMD_CANCEL has arrived on the session open in slot `i` and runs next; `rest` are the others (R67). -/
structure AtHand (s : State) (c : Instr) (i : Nat) (e : CmdEntry) (rest : List CmdEntry) : Prop where
  booted : s.boot.phase = .done
  waits : (requestOf c).bind s.atHand = some (i, e, rest)

/-- The waiting command ends with a status, a detail and results. -/
def State.ends (s : State) (i : Nat) (e : CmdEntry) (status detail : Nat) (results : List Byte) : State :=
  s.finishCmd i e 0 ⟨status, detail, results⟩

/-- Exactly one route bank is ACTIVE (R251). -/
def State.oneActive (s : State) : Prop := (s.gen.bank0.st = .active ↔ s.gen.bank1.st ≠ .active)

/-- A host frame's sequence offered to a session, with the sequences accepted so far (R58). -/
def Session.offer (a : Session × List Nat) (q : Nat) : Session × List Nat :=
  if seqFresh a.1 q then (a.1.takeSeq q, q :: a.2) else a

end Sys2Proof.Machine
end

