-- ==== Sys2Proof/Certificates/Slice0/Obligations.lean ====
section
/-! DEFINITION. The statements for the provers, by the families of the command table. -/

open Sys2Proof Sys2Proof.Machine

/-! ## The queue, and completion as a whole -/

/-- O1. A step takes the command at the front of the queue and runs it on the state with the rest of the queue; with
no command waiting one cycle of the time unit passes and nothing else happens (the model's choice, note 1). -/
def Obligations.StepRunsFront : Prop :=
  (∀ (s : State) (c : Instr) (rest : List Instr),
    step { s with pending := c :: rest } = exec c { s with pending := rest }) ∧
  (∀ s : State, s.pending = [] → s.boot.phase ≠ .reset → s.pins.refStopped = false →
    step s = .next { s with time := s.time.advance 1 }) ∧
  (∀ s : State, s.pending = [] → s.boot.phase = .reset ∨ s.pins.refStopped = true → step s = .next s)

/-- O2. Every command that can reach the part has its meaning: it ends in a next state. A flit of another shape than
R108 gives it is none that the part can receive. The shape of a flit is the model's condition (note 55). -/
def Obligations.EveryCommandAnswers : Prop :=
  (∀ (c : Instr) (s : State), c.wf = true → ∃ t, exec c s = .next t) ∧
  (∀ (l : Lane) (f : Flit) (good : Bool) (s : State), f.wf = false →
    exec (.flitReceive l f good) s = .fault (.illFormed "flit"))

/-! ## Pins, supplies and the boot -/

/-- O3. What holds the part in reset, and the test port (R523 to R525, R553). Of the part, reset keeps the SPI NOR and
the fuses alone. A test instruction other than EXTEST changes the pins alone, EXTEST holds every fibre's eye-safety
machine in HELD, and leaving EXTEST boots the part again. What State.reset holds where the spec gives no value is the
model's choice (notes 4 to 6); the levels of the pins, the queue and the count of free values are no part of what is
reset. -/
def Obligations.ResetPinsComplete : Prop :=
  (∀ s : State, exec .powerOnResetAssert s = .next { State.reset with
    pins := { s.pins with porLow := true, tripped := false, jtag := .bypass, ppsOut := false, ppsFall := 0 }
    nvm := s.nvm, boot := { State.reset.boot with cause := 0 }, free := s.free, pending := s.pending }) ∧
  (∀ s : State, exec .systemResetAssert s = .next { State.reset with
    pins := { s.pins with sysLow := true, jtag := .bypass, ppsOut := false, ppsFall := 0 }
    nvm := s.nvm, boot := { State.reset.boot with cause := 1 }, free := s.free, pending := s.pending }) ∧
  (∀ s : State, exec .railUndervoltage s = .next { State.reset with
    pins := { s.pins with railBad := true, jtag := .bypass, ppsOut := false, ppsFall := 0 }
    nvm := s.nvm, boot := { State.reset.boot with cause := 0 }, free := s.free, pending := s.pending }) ∧
  (∀ s : State, exec .refclkStop s = .next { State.reset with
    pins := { s.pins with refStopped := true, jtag := .bypass, ppsOut := false, ppsFall := 0 }
    nvm := s.nvm, boot := { State.reset.boot with cause := 0 }, free := s.free, pending := s.pending }) ∧
  (∀ (s : State) (d : Die) (temp : BitVec 16), s.boot.phase ≠ .reset →
    (if d.val = 0 then 1840 else if d.val = 1 then 1760 else 1680) ≤ temp.toInt →
    exec (.thermalTrip d temp) s = .next { State.reset with
    pins := { s.pins with tripped := true, jtag := .bypass, ppsOut := false, ppsFall := 0 }
    nvm := s.nvm, boot := { State.reset.boot with cause := s.boot.cause }, free := s.free, pending := s.pending }) ∧
  (∀ (s : State) (i : JtagInstr), s.boot.phase ≠ .reset → i ≠ .other → i ≠ .extest → s.pins.jtag ≠ .extest →
    exec (.jtagInstruction i false) s = .next { s with pins := { s.pins with trstLow := false, jtag := i } }) ∧
  (∀ (s : State) (i : JtagInstr), s.pins.jtag ≠ .extest →
    exec (.jtagInstruction i true) s = .next { s with pins := { s.pins with trstLow := true, jtag := .bypass } }) ∧
  (∀ s : State, s.boot.phase ≠ .reset → s.pins.jtag ≠ .extest →
    ∃ t, exec (.jtagInstruction .extest false) s = .next t ∧ t.pins.jtag = .extest ∧ ∀ f < 256, (t.eye f).st = .held) ∧
  (∀ (s : State) (low : Bool), s.pins.jtag = .extest → s.pins.free = true →
    ∃ t, exec (.extestExit low) s = .next t ∧ t.boot.phase = .step 1 ∧ t.boot.cause = 1 ∧ t.pins.jtag = .bypass ∧
      t.nvm = s.nvm ∧ t.regs = [])

/-- O4. A pin that rises, a supply and a clock that return: the boot begins at step 1 when nothing else holds the part
in reset, with BIST_SKIP as sampled then and with the cause of the reset; nothing but the pins and the boot changes.
-/
def Obligations.ResetReleaseStartsBoot : Prop :=
  (∀ (s : State) (skip : Bool), s.pins.porLow = true → s.pins.sysLow = false → s.pins.tripped = false →
    s.pins.railBad = false → s.pins.refStopped = false → s.boot.phase = .reset →
    exec (.resetRelease .por skip) s = .next { s with
      pins := { s.pins with porLow := false, bistSkip := skip }
      boot := { s.boot with phase := .step 1, cause := 0, bistSkipped := skip } }) ∧
  (∀ (s : State) (skip : Bool), s.pins.sysLow = true → s.pins.porLow = false → s.pins.tripped = false →
    s.pins.railBad = false → s.pins.refStopped = false → s.boot.phase = .reset →
    exec (.resetRelease .sys skip) s = .next { s with
      pins := { s.pins with sysLow := false, bistSkip := skip }
      boot := { s.boot with phase := .step 1, cause := 1, bistSkipped := skip } }) ∧
  (∀ s : State, s.pins.railBad = true → s.pins.porLow = false → s.pins.sysLow = false → s.pins.tripped = false →
    s.pins.refStopped = false → s.boot.phase = .reset →
    exec .railRecoveryExpiry s = .next { s with
      pins := { s.pins with railBad := false }
      boot := { s.boot with phase := .step 1, cause := 0, bistSkipped := s.pins.bistSkip } }) ∧
  (∀ s : State, s.pins.refStopped = true → s.pins.porLow = false → s.pins.sysLow = false → s.pins.tripped = false →
    s.pins.railBad = false → s.boot.phase = .reset →
    exec .refclkRunExpiry s = .next { s with
      pins := { s.pins with refStopped := false }
      boot := { s.boot with phase := .step 1, cause := 0, bistSkipped := s.pins.bistSkip } })

/-- O5. The boot (R557, R561, R524, R528, R540). The boot ROM writes the record with BOOTS one higher and the trial
spent into the copy that does not govern, and boots the trial slot while it is valid, else the active slot, else the
other; with no valid slot it stops. The last step ends the boot: BOOT_MS holds the report's time, saturated, and the
lowest-numbered command engine in service holds the plan. That TRIAL is spent to 0xFF in one write is the model's
reading (note 28). -/
def Obligations.BootStepsComplete : Prop :=
  (∀ (s : State) (rep : BootReport) (which : Bool) (g : BootRecord),
     s.boot.phase = .step 2 → rep.recordWriteOk = true →
     s.nvm.governing = some (which, g) → g.boots < 2 ^ 32 - 1 →
     ∃ t, exec (.bootStepEnd rep) s = .next t ∧
       (let bytes := recordBytes ⟨(g.seq + 1) % 2 ^ 32, g.active, 0xFF, g.boots + 1⟩
        (which = false → t.nvm.copy1 = bytes ∧ t.nvm.copy0 = s.nvm.copy0) ∧
        (which = true → t.nvm.copy0 = bytes ∧ t.nvm.copy1 = s.nvm.copy1)) ∧
       t.nvm.slotA = s.nvm.slotA ∧ t.nvm.slotB = s.nvm.slotB ∧ t.nvm.trust = s.nvm.trust ∧
       (let tried := decide (g.trial = 1)
        (g.trial ≤ 1 ∧ s.nvm.slotValid tried = true →
          t.boot.phase = .step 3 ∧ t.boot.runningSlot = tried ∧ t.boot.trialBoot = true) ∧
        (¬ (g.trial ≤ 1 ∧ s.nvm.slotValid tried = true) → s.nvm.slotValid g.active = true →
          t.boot.phase = .step 3 ∧ t.boot.runningSlot = g.active ∧ t.boot.trialBoot = false) ∧
        (¬ (g.trial ≤ 1 ∧ s.nvm.slotValid tried = true) → s.nvm.slotValid g.active = false →
          s.nvm.slotValid (!g.active) = true →
          t.boot.phase = .step 3 ∧ t.boot.runningSlot = !g.active ∧ t.boot.trialBoot = false) ∧
        (s.nvm.slotValid false = false → s.nvm.slotValid true = false → t.boot.phase = .stuck)) ∧
       (t.boot.phase = .step 3 → t.boot.incarnation = BitVec.ofNat 32 (g.boots + 1))) ∧
  (∀ (s : State) (rep : BootReport), s.boot.phase = .step 1 →
    exec (.bootStepEnd rep) s = .next ((s.advanceTo (rep.elapsedMs * 1000000)).bootTo 2)) ∧
  (∀ (s : State) (rep : BootReport), s.boot.phase = .step 3 → coreFault rep.records = false →
    exec (.bootStepEnd rep) s =
      .next ((((s.advanceTo (rep.elapsedMs * 1000000)).bootJoins rep).bootRecords [3] rep.records).bootTo 4)) ∧
  (∀ (s : State) (rep : BootReport), s.boot.phase = .step 4 → s.boot.bistSkipped = true →
    exec (.bootStepEnd rep) s = .next ((s.advanceTo (rep.elapsedMs * 1000000)).bootTo 5)) ∧
  (∀ (s : State) (rep : BootReport), s.boot.phase = .step 5 →
    exec (.bootStepEnd rep) s = .next ((s.advanceTo (rep.elapsedMs * 1000000)).bootBuffers.bootTo 6)) ∧
  (∀ (s : State) (rep : BootReport), s.boot.phase = .step 6 →
    exec (.bootStepEnd rep) s = .next (((s.advanceTo (rep.elapsedMs * 1000000)).bootRings rep).bootTo 7)) ∧
  (∀ (s : State) (n : Nat), (s.bootTo n).boot.phase = if s.allCmdFailed then .stuck else .step n) ∧
  (∀ (s : State) (rep : BootReport) (n : Nat), s.boot.phase = .step 7 →
    n < 4 → (s.fn (fidCmd n)).failed = false → (∀ m < n, (s.fn (fidCmd m)).failed = true) →
    ∃ t, exec (.bootStepEnd rep) s = .next t ∧ t.boot.phase = .done ∧ t.boot.holder = n ∧
      t.boot.bootMs = min rep.elapsedMs (2 ^ 20 - 1) ∧ t.nvm = s.nvm ∧ t.regs = s.regs ∧ t.gen = s.gen ∧
      t.mgmt = s.mgmt ∧ t.fns = s.fns)

/-! ## Frames, sessions and command packets -/

/-- O6. MGMT_FRAME_RECEIVE (R59, R61, R62): a frame that passes every check up to the eleventh joins its session's
queue; its sequence is consumed, its TAG leaves the reply cache, the idle time starts again, and nothing else changes
but the count of frames. A frame refused at check 6 or 7 consumes no sequence number and does not refresh the
keepalive. -/
def Obligations.FrameReceiveCompletes : Prop :=
  (∀ (s : State) (f : MgmtFrame) (i : Nat), s.boot.phase = .done → frameForUs s f = true → f.version = 1 → f.session ≠ 0 →
     s.slotIx f.session.toNat = some i → 16 + f.plen.toNat ≤ f.body.length → frameVerifies (s.slot i).hostKey f = true →
     f.nonceSalt = (s.slot i).hostSalt → f.nonceSeq = f.seq → seqFresh (s.slot i) f.seq.toNat = true →
     f.seq.toNat ≠ 2 ^ 64 - 1 → opAtArrival f.opcode.toNat = false →
     let params := gcmApply (s.slot i).hostKey (frameNonce f) (f.body.take f.plen.toNat)
     judge (s.slot i) f.opcode.toNat params f.flags f.tag = .accept →
     let t := (s.bump .cmdRxFrames []).setSlot i fun x => { x.takeSeq f.seq.toNat with
       peer := f.src
       peerVlan := f.tags.head?
       lastFrame := s.now
       cache := x.cache.filter fun c => decide (c.tag ≠ f.tag)
       cmds := x.cmds ++ [⟨f.tag, f.opcode.toNat, f.flags, params, s.mgmt.accepted, s.ptpNs, false, .queued, f.src, f.tags.head?, [],
         .firmware, none⟩] }
     exec (.mgmtFrameReceive f) s = .next { t with mgmt := { t.mgmt with accepted := s.mgmt.accepted + 1 } }) ∧
  (∀ (s : State) (f : MgmtFrame) (i : Nat), s.boot.phase = .done → frameForUs s f = true → f.version = 1 → f.session ≠ 0 →
     s.slotIx f.session.toNat = some i → 16 + f.plen.toNat ≤ f.body.length → frameVerifies (s.slot i).hostKey f = true →
     (s.slot i).txSeq + 1 < 2 ^ 64 - 1 →
     (f.nonceSalt ≠ (s.slot i).hostSalt ∨ f.nonceSeq ≠ f.seq ∨ seqFresh (s.slot i) f.seq.toNat = false) →
     ∃ t, exec (.mgmtFrameReceive f) s = .next t ∧ (t.slot i).high = (s.slot i).high ∧
       (t.slot i).window = (s.slot i).window ∧ (t.slot i).cmds = (s.slot i).cmds ∧ (t.slot i).cache = (s.slot i).cache ∧
       (t.slot i).lastFrame = (s.slot i).lastFrame ∧ (t.slot i).st = (s.slot i).st ∧ t.objs = s.objs ∧
       ∀ j ≠ i, t.slot j = s.slot j)

/-- O7. The replay window (R58), over every run of offered sequences: sequence q is accepted exactly when it is above
H, or among the 64 from H - 63 to H and not accepted before; sequence 0 counts as accepted from the opening, and H is
the highest accepted. -/
def Obligations.ReplayWindowExact : Prop :=
  ∀ (qs : List Nat) (q : Nat), (∀ p ∈ qs, p < 2 ^ 64) →
    let (x, accepted) := qs.foldl Session.offer (Session.free, [0])
    x.high = accepted.foldl max 0 ∧
    (seqFresh x q = true ↔ (x.high < q ∨ (x.high ≤ q + 63 ∧ q ≤ x.high ∧ q ∉ accepted)))

/-- O8. A new session is bound to the engine in service that serves the fewest sessions, the lowest-numbered on a tie,
and its number is none that is open, from 1 to 0xFFFE (R56). -/
def Obligations.NewSessionChoice : Prop :=
  (∀ (s : State) (n : Nat), s.chooseEngine = some n → n < 4 ∧ s.fnDown (fidCmd n) = false ∧
    ∀ m < 4, s.fnDown (fidCmd m) = false →
      s.engineLoad n ≤ s.engineLoad m ∧ (m < n → s.engineLoad n < s.engineLoad m)) ∧
  (∀ s : State, s.chooseEngine = none → ∀ n < 4, s.fnDown (fidCmd n) = true) ∧
  (∀ (used : List Nat) (last : Nat), used.length ≤ 8 → last ≤ 0xFFFE →
    nextNumber used last 8 ∉ used ∧ 1 ≤ nextNumber used last 8 ∧ nextNumber used last 8 ≤ 0xFFFE)

/-- O9. The handshake completes: SESSION_OPEN takes the free slot for the chosen engine, and SESSION_FINISH on a slot
in handshake opens the session with a trusted key and good signatures, and else frees the slot. Where it opens, the
other slots, the nonvolatile store and every register but the handshake's counter stay. That the row of a timer brings
the clock to its moment is the model's choice (note 2). -/
def Obligations.HandshakeCompletes : Prop :=
  (∀ (s : State) (iss : Issuer) (x : BitVec 256) (k : BitVec 9472) (nonce : BitVec 256) (n i : Nat) (z : ZeroReq)
    (rest : List ZeroReq),
    WaitsZero s (.sessionOpen iss x k nonce) z rest → s.chooseEngine = some n → s.freeSlot = some i →
    ∃ t, exec (.sessionOpen iss x k nonce) s = .next t ∧ (t.slot i).st = .handshake ∧ (t.slot i).engine = n ∧
      (t.slot i).number = nextNumber ((s.mgmt.slots.filter fun y => decide (y.st ≠ .free)).map Session.number)
        s.mgmt.lastNumber 8 ∧
      t.mgmt.lastNumber = (t.slot i).number ∧ (t.slot i).takenAt = s.now ∧ (t.slot i).cmds = [] ∧
      (∀ j ≠ i, t.slot j = s.slot j) ∧ t.nvm = s.nvm ∧ t.regs = s.regs ∧ t.objs = s.objs) ∧
  (∀ (s : State) (iss : Issuer) (session : BitVec 16) (ed : BitVec 256) (ml : BitVec 15616) (sig : BitVec 512)
    (msig : BitVec 26472) (i : Nat) (z : ZeroReq) (rest : List ZeroReq),
    WaitsZero s (.sessionFinish iss session 0 ed ml sig msig) z rest →
    s.mgmt.slots.findIdx? (fun y => decide (y.st = .handshake ∧ y.number = session.toNat)) = some i →
    let th2 := Config.sha384 (bvBytes 48 (s.slot i).th1 ++ bvBytes 32 ed ++ bvBytes 1952 ml)
    let good := ((trustKeys s.nvm.trust).getD []).contains (Config.sha384 (bvBytes 32 ed ++ bvBytes 1952 ml)) &&
      Config.edVerifies (bvBytes 32 ed) (0x48 :: bvBytes 48 th2) (bvBytes 64 sig) &&
      Config.mldsaVerifies (bvBytes 1952 ml) (0x48 :: bvBytes 48 th2) (bvBytes 3309 msig)
    ∃ t, exec (.sessionFinish iss session 0 ed ml sig msig) s = .next t ∧
      (good = true → (t.slot i).st = .active ∧ (t.slot i).number = (s.slot i).number ∧
        (t.slot i).engine = (s.slot i).engine ∧ (t.slot i).lastFrame = s.now ∧ (t.slot i).high = (s.slot i).high ∧
        t.regs = (s.bump .secHandshakes []).regs) ∧
      (good = false → t.slot i = Session.free ∧ t.regs = (s.bump .secHandshakeFails []).regs) ∧
      (∀ j ≠ i, t.slot j = s.slot j) ∧ t.nvm = s.nvm ∧ t.objs = s.objs) ∧
  (∀ (s : State) (slot : Fin 8), (s.slot slot).st = .handshake →
    exec (.handshakeTimeout slot) s =
      .next ((s.advanceTo ((s.slot slot).takenAt + 1000000000)).setSlot slot fun _ => Session.free))

/-- O10. Polling and cancelling (R67), and the commands that only answer. CMD_POLL and CMD_CANCEL run at arrival,
outside the queue and the reply cache, and answer their own frame. A session closes (R61): by its own command after
the reply, or when it has been idle for KEEPALIVE seconds. The commands that have not started go, those that have
started run on, its objects and its reply cache are freed, and the event gives its number and the reason. That the row
of a timer brings the clock to its moment, that a command's row may stand for its frame's arrival too, and that a
closing slot stays occupied, are the model's (notes 2, 10, 12, 65). -/
def Obligations.SessionCommandsComplete : Prop :=
  (∀ (s : State) (iss : Issuer) (tag : BitVec 32) (i : Nat) (e : CmdEntry) (rest : List CmdEntry),
    AtHand s (.cmdPoll iss tag) i e rest →
    let u := s.setSlot i fun y => { y with arrivals := rest }
    let answer (res : List Byte) : State :=
      (u.sendOn i e.opcode e.tag e.flags 0 e.src e.vlan ⟨stOk, 0, res⟩).endLast i e.last
    (∀ o, (s.slot i).cmds.find? (fun o => decide (o.tag = tag)) = some o →
      exec (.cmdPoll iss tag) s = .next (answer ([if o.phase = .queued then 1 else 2, 0] ++ beBytes 2 o.opcode))) ∧
    (∀ c, (s.slot i).cmds.find? (fun o => decide (o.tag = tag)) = none →
      (s.slot i).cache.find? (fun c => decide (c.tag = tag)) = some c →
      exec (.cmdPoll iss tag) s = .next (answer ([3, if 8932 < c.final.results.length then 1 else 0] ++ beBytes 2 c.opcode ++
        beBytes 2 c.final.status ++ beBytes 2 c.final.detail ++ [0, 0, 0, 0] ++
        if 8932 < c.final.results.length then [] else c.final.results))) ∧
    ((s.slot i).cmds.find? (fun o => decide (o.tag = tag)) = none →
      (s.slot i).cache.find? (fun c => decide (c.tag = tag)) = none →
      exec (.cmdPoll iss tag) s = .next (answer [0, 0, 0, 0]))) ∧
  (∀ (s : State) (iss : Issuer) (tag : BitVec 32) (i : Nat) (e o : CmdEntry) (rest : List CmdEntry),
    AtHand s (.cmdCancel iss tag) i e rest →
    (s.slot i).cmds.find? (fun o => decide (o.tag = tag)) = some o →
    let u := s.setSlot i fun y => { y with arrivals := rest }
    (o.phase = .queued → exec (.cmdCancel iss tag) s = .next
      (((u.setSlot i fun y => { y with cmds := y.cmds.filter fun o => decide (o.tag ≠ tag) }).sendOn i e.opcode e.tag
        e.flags 0 e.src e.vlan ⟨stOk, 0, []⟩).endLast i e.last)) ∧
    (o.phase ≠ .queued → exec (.cmdCancel iss tag) s = .next
      ((u.sendOn i e.opcode e.tag e.flags 0 e.src e.vlan ⟨stBusy, 2, []⟩).endLast i e.last))) ∧
  (∀ (s : State) (i : Nat), s.endLast i false = s ∧ s.endLast i true = s.closeSession i 3) ∧
  (∀ (s : State) (iss : Issuer) (i : Nat) (e : CmdEntry) (params : List Byte), Waits s (.nop iss params) i e →
    exec (.nop iss params) s = .next (s.ends i e stOk 0 params)) ∧
  (∀ (s : State) (iss : Issuer) (i : Nat) (e : CmdEntry), Waits s (.devIdentify iss) i e → iss.session ≠ 0 →
    exec (.devIdentify iss) s = .next (s.ends i e stOk 0 identity)) ∧
  (∀ (s : State) (iss : Issuer) (z : ZeroReq) (rest : List ZeroReq), WaitsZero s (.devIdentify iss) z rest →
    exec (.devIdentify iss) s =
      .next (({ s with mgmt := { s.mgmt with zeroCmds := rest } } : State).sendZero z ⟨stOk, 0, identity⟩)) ∧
  (∀ (s : State) (iss : Issuer) (i : Nat) (e : CmdEntry), Waits s (.sessionList iss) i e →
    exec (.sessionList iss) s = .next (s.ends i e stOk 0
      (((s.mgmt.slots.filter fun x => decide (x.st ≠ .free)).map fun x =>
        beBytes 2 x.number ++ beBytes 1 x.engine ++ beBytes 1 x.st.code ++
          beBytes 4 ((s.now - x.takenAt) / 1000000000)).flatten))) ∧
  (∀ (s : State) (iss : Issuer) (i : Nat) (e : CmdEntry), Waits s (.sessionClose iss) i e →
    exec (.sessionClose iss) s = .next ((s.ends i e stOk 0 []).closeSession i 0)) ∧
  (∀ (s : State) (slot : Fin 8), (s.slot slot).st = .active →
    exec (.keepaliveExpiry slot) s = .next
      ((s.advanceTo ((s.slot slot).lastFrame + s.regBits .cmdConfig [] 7 0 * 1000000000)).closeSession slot 1)) ∧
  (∀ (s : State) (i why : Nat), (s.slot i).st = .active →
    let x := s.slot i
    let left := x.cmds.filter fun e => decide (e.phase ≠ .queued)
    let t : State := s.setSlot i fun y =>
      if left.isEmpty then Session.free else { y with st := .closing, cmds := left, arrivals := [], cache := [] }
    let t : State := { t with objs := { t.objs with table := t.objs.table.filter fun p => decide (p.2.session ≠ x.number) } }
    let stops := s.tel.stream.enable && decide (s.tel.stream.session = x.number)
    let t : State := if stops then { t with tel := { t.tel with stream := { t.tel.stream with enable := false } } } else t
    s.closeSession i why = t.raiseEv 0x0101 1 (fidCmd x.engine) (beBytes 2 x.number ++ beBytes 1 why))

/-- O11. What the end of a command touches: where the reply does not close the session, the command leaves the queue,
its outcome enters the reply cache of the 64 newest (R65), the reply is sent under the session's next sequence unless
QUIET holds it back (R54), and nothing else of the part changes. -/
def Obligations.EndOfCommandFrame : Prop :=
  ∀ (s : State) (i : Nat) (e : CmdEntry) (st det : Nat) (res : List Byte),
    i < s.mgmt.slots.length → e.last = false → (s.slot i).txSeq + 1 < 2 ^ 64 - 1 → st ≠ stBusy →
    let ended (x : Session) (sent : Nat) : Session := { x with
      cmds := x.cmds.filter fun o => decide (o.tag ≠ e.tag)
      cache := (⟨e.tag, e.opcode, e.flags, ⟨st, det, res⟩⟩ :: x.cache).take 64
      txSeq := x.txSeq + sent }
    (flagQuiet e.flags = true ∧ (st = stOk ∨ st = stPending) →
      s.ends i e st det res = { s with mgmt := { s.mgmt with slots := modAt s.mgmt.slots i (ended · 0) } }) ∧
    (flagQuiet e.flags = false → s.pins.jtag ≠ .extest →
      s.ends i e st det res = { s with mgmt := { s.mgmt with
        slots := modAt s.mgmt.slots i (ended · 1)
        sent := s.mgmt.sent ++
          [s.reply (some (s.slot i).ownKey) (s.slot i).number e.opcode e.tag (e.flags &&& 0x0F) ((s.slot i).txSeq + 1)
            (s.slot i).ownSalt e.src e.vlan ⟨st, det, res⟩] } })

/-- O12. COMMAND_COMPLETE delivers the end of a PENDING command (R64): the outcome is cached and the command is over;
with NOTIFY a completion is sent, without it nothing is, and on a closing session nothing is. Where firmware cannot
complete a command that it runs itself, the outcome is INTERNAL, for an update with the code of its read-back (R569).
A command that runs without a PENDING reply ends with its one reply (R63). How the end of a command reaches
COMMAND_COMPLETE is the model's reading (note 11). -/
def Obligations.CompletionDelivered : Prop :=
  (∀ (s : State) (session : BitVec 16) (tag : BitVec 32) (fw : FwEnd) (i : Nat) (e : CmdEntry) (f : Final),
    s.slotHeld session.toNat = some i →
    (s.slot i).cmds.find? (fun e => decide (e.tag = tag ∧ e.phase = .pending)) = some e → e.finished = some f →
    exec (.commandComplete session tag fw) s = .next (s.complete i e f)) ∧
  (∀ (s : State) (session : BitVec 16) (tag : BitVec 32) (i : Nat) (e : CmdEntry) (f : Final) (t : State),
    s.slotHeld session.toNat = some i →
    (s.slot i).cmds.find? (fun e => decide (e.tag = tag ∧ e.phase = .pending)) = some e → e.finished = none →
    s.firmwareEnd e.job ⟨[], [], [], []⟩ = some (f, t) →
    exec (.commandComplete session tag .good) s = .next (t.complete i e f)) ∧
  (∀ (s : State) (session : BitVec 16) (tag : BitVec 32) (r : CalReport) (i : Nat) (e : CmdEntry) (f : Final) (t : State),
    s.slotHeld session.toNat = some i →
    (s.slot i).cmds.find? (fun e => decide (e.tag = tag ∧ e.phase = .pending)) = some e → e.finished = none →
    s.firmwareEnd e.job r = some (f, t) →
    exec (.commandComplete session tag (.calibrated r)) s = .next (t.complete i e f)) ∧
  (∀ (s : State) (session : BitVec 16) (tag : BitVec 32) (code : BitVec 16) (applied : BitVec 32) (i : Nat) (e : CmdEntry),
    s.slotHeld session.toNat = some i →
    (s.slot i).cmds.find? (fun e => decide (e.tag = tag ∧ e.phase = .pending)) = some e → e.finished = none →
    e.job.byFirmware = true →
    exec (.commandComplete session tag (.fault code applied)) s =
      .next (((s.firmwareFault e.job).internalFault (s.slot i).engine e.opcode (e.job.faultCode code.toNat)
        applied.toNat).complete i e ⟨stInternal, e.job.faultCode code.toNat, []⟩)) ∧
  (∀ (slot : Bool) (x : Image) (code : Nat), (Job.fwUpdate slot x).faultCode code = 0x0E03) ∧
  (∀ (s : State) (i : Nat) (e : CmdEntry) (job : Job) (f : Final), (s.slot i).cmds = [e] → e.phase = .running → e.job = job →
    (s.slot i).st = .active → i < s.mgmt.slots.length → (∀ j ≠ i, (s.slot j).cmds = []) →
    s.endRunning (fun j => if j = job then some f else none) = s.finishCmd i e 0 f) ∧
  (∀ (s : State) (i : Nat) (e : CmdEntry) (f : Final), (s.slot i).st = .active → i < s.mgmt.slots.length →
    flagNotify e.flags = false →
    s.complete i e f = s.setSlot i fun y => { y with
      cmds := y.cmds.filter fun o => decide (o.tag ≠ e.tag)
      cache := (⟨e.tag, e.opcode, e.flags, f⟩ :: y.cache).take 64 }) ∧
  (∀ (s : State) (i : Nat) (e : CmdEntry) (f : Final), (s.slot i).st = .active → flagNotify e.flags = true →
    s.complete i e f = (s.setSlot i fun y => { y with
      cmds := y.cmds.filter fun o => decide (o.tag ≠ e.tag)
      cache := (⟨e.tag, e.opcode, e.flags, f⟩ :: y.cache).take 64 }).sendOn i e.opcode e.tag e.flags 0x10 (s.slot i).peer
        (s.slot i).peerVlan f) ∧
  (∀ (s : State) (i : Nat) (e : CmdEntry) (f : Final), (s.slot i).st = .closing →
    (s.complete i e f).mgmt.sent = s.mgmt.sent)

/-! ## Objects -/

/-- O13. The object commands complete (R78 to R81): a new object takes the next handle and reads as zeros, a write
stores its bytes, closing with the right digest seals the object, a read returns the bytes, or INTERNAL where one of
them lies in an uncorrectable block, and freeing takes the object away. A byte of an object reads as the last write to
its offset stored it, and every other byte as before. -/
def Obligations.ObjectCommandsComplete : Prop :=
  (∀ (s : State) (iss : Issuer) (i : Nat) (e : CmdEntry) (type : Byte) (length : BitVec 32), Waits s (.objOpen iss type 0 length) i e →
    1 ≤ type.toNat → type.toNat ≤ 5 → 1 ≤ length.toNat → length.toNat ≤ 150994944 →
    s.objs.count (s.slot i).number < 16 → s.objs.used + length.toNat ≤ 536870912 →
    let h := nextHandle s.objs.table s.objs.lastHandle s.objs.table.length
    exec (.objOpen iss type 0 length) s = .next (({ s with
      objs := ⟨s.objs.table.put h ⟨(s.slot i).number, type.toNat, length.toNat, [], false⟩, h⟩
      mem := { s.mem with badObjects := s.mem.badObjects.filter fun b => decide (b.1 ≠ h) } } : State).ends i e stOk 0
        (beBytes 2 h ++ [0, 0]))) ∧
  (∀ (s : State) (iss : Issuer) (i : Nat) (e : CmdEntry) (handle : BitVec 16) (offset : BitVec 32) (data : List Byte)
    (o : Obj), Waits s (.objWrite iss handle 0 offset 0 data) i e → s.objOf (s.slot i).number handle.toNat = some o → s.objHeld i handle.toNat = false →
    o.sealed = false → offset.toNat + data.length ≤ o.length →
    exec (.objWrite iss handle 0 offset 0 data) s = .next
      (((s.setObj handle.toNat { o with bytes := storeBytes o.bytes offset.toNat data }).sendBytes objBridge true 3
        data.length).ends i e stOk 0 [])) ∧
  (∀ (s : State) (iss : Issuer) (i : Nat) (e : CmdEntry) (handle : BitVec 16) (o : Obj), Waits s (.objClose iss handle 0 (Config.sha384 o.all)) i e →
    s.objOf (s.slot i).number handle.toNat = some o → s.objHeld i handle.toNat = false →
    exec (.objClose iss handle 0 (Config.sha384 o.all)) s = .next
      ((s.setObj handle.toNat { o with sealed := true }).ends i e stOk 0 [])) ∧
  (∀ (s : State) (iss : Issuer) (i : Nat) (e : CmdEntry) (handle : BitVec 16) (offset count : BitVec 32) (o : Obj)
    (met : List BlockErr),
    Waits s (.objRead iss handle 0 offset count met) i e → s.objOf (s.slot i).number handle.toNat = some o →
    o.sealed = true → offset.toNat + count.toNat ≤ o.length → 1 ≤ count.toNat → count.toNat ≤ 8944 →
    let n := readBlocks offset.toNat count.toNat
    let u := (s.meet 3 n (errOn objBridge) met).sendBytes objBridge false 3 count.toNat
    let bad := (lostBlocks n met).map fun b => (handle.toNat, offset.toNat / 64 + b)
    let u : State := { u with mem := { u.mem with badObjects := bad ++ u.mem.badObjects } }
    (u.objBad handle.toNat offset.toNat count.toNat = false →
      exec (.objRead iss handle 0 offset count met) s = .next (u.ends i e stOk 0 (o.read offset.toNat count.toNat))) ∧
    (u.objBad handle.toNat offset.toNat count.toNat = true →
      exec (.objRead iss handle 0 offset count met) s =
        .next ((u.internalFault (u.slot i).engine e.opcode 0x0A01 0).ends i e stInternal 0x0A01 []))) ∧
  (∀ (s : State) (part n : Nat) (f : BlockErr → Nat), s.meet part n f [] = s) ∧
  (∀ (s : State) (iss : Issuer) (i : Nat) (e : CmdEntry) (handle : BitVec 16) (o : Obj), Waits s (.objFree iss handle 0) i e →
    s.objOf (s.slot i).number handle.toNat = some o → s.objHeld i handle.toNat = false →
    exec (.objFree iss handle 0) s = .next
      (({ s with objs := { s.objs with table := s.objs.table.del handle.toNat } } : State).ends i e stOk 0 [])) ∧
  (∀ (o : Obj) (off : Nat) (data : List Byte) (a : Nat),
     (∀ k, ∀ h : k < data.length, a = off + k →
       ({ o with bytes := storeBytes o.bytes off data } : Obj).read a 1 = [data[k]]) ∧
     (a < off ∨ off + data.length ≤ a →
       ({ o with bytes := storeBytes o.bytes off data } : Obj).read a 1 = o.read a 1))

/-! ## Registers -/

/-- O14. The commands that read registers complete (R13, R15, R74, R293): the value is the register's value at the
read, an RC register is left at 0 but for what the hardware counts in that cycle, the fraction of a time group latches
the nanosecond words of both groups and a low word latches its high partner, and any other read changes nothing but
the end of the command. What an RO register shows is computed at the read (note 16), and the order of the checks of a
block is the model's reading (note 17). -/
def Obligations.RegisterReadsComplete : Prop :=
  (∀ (s : State) (iss : Issuer) (i : Nat) (e : CmdEntry) (a : Addr) (r : Reg) (ix : List Nat), Waits s (.regRead iss a) i e →
    locate a = some (r, ix) → s.ownerDown a.toNat = none →
    exec (.regRead iss a) s = .next
      (((s.latchOn r ix).clearCounter r ix 0).ends i e stOk 0 (leBytes (s.readNow r ix))) ∧
    exec (.latchingRegisterRead iss a) s = .next
      (((s.latchOn r ix).clearCounter r ix 0).ends i e stOk 0 (leBytes (s.readNow r ix))) ∧
    ∀ n, exec (.rcRegisterRead iss a n) s = .next
      (((s.latchOn r ix).clearCounter r ix n).ends i e stOk 0 (leBytes (s.readNow r ix)))) ∧
  (∀ (s : State) (r : Reg) (ix : List Nat) (n : Nat), r.mask .rc ≠ 0 →
    (s.clearCounter r ix n).reg r ix = BitVec.ofNat 32 (min n (2 ^ 32 - 1))) ∧
  (∀ (s : State) (r : Reg) (ix : List Nat) (n : Nat), r.mask .rc = 0 → s.clearCounter r ix n = s) ∧
  (∀ (s : State) (r : Reg) (ix : List Nat),
    let stamp (m : AMap Word) (r : Reg) (v : Nat) : AMap Word := m.setD (regAddr r ix) 0 (BitVec.ofNat 32 v)
    let times := stamp (stamp (stamp (stamp s.latch .timeFreeNsLo s.now) .timeFreeNsHi (s.now / 2 ^ 32)) .timePtpNsLo s.ptpNs)
      .timePtpNsHi (s.ptpNs / 2 ^ 32)
    (r = .timeFreeFrac ∨ r = .timePtpFrac → s.latchOn r ix = { s with latch := times }) ∧
    (r = .genArmTimeLo → s.latchOn r ix = { s with latch := stamp s.latch .genArmTimeHi (s.armTime / 2 ^ 32) }) ∧
    (r = .genHorizonLo →
      s.latchOn r ix = { s with latch := stamp s.latch .genHorizonHi (s.horizon (ix.getD 0 0) / 2 ^ 32) }) ∧
    (r = .telLogNextLo → s.latchOn r ix = { s with latch := stamp s.latch .telLogNextHi (s.tel.nextSeq / 2 ^ 32) }) ∧
    (r ∉ [Reg.timeFreeFrac, .timePtpFrac, .genArmTimeLo, .genHorizonLo, .telLogNextLo] → s.latchOn r ix = s)) ∧
  (∀ (s : State) (iss : Issuer) (i : Nat) (e : CmdEntry) (first : Addr) (count : BitVec 16), Waits s (.regReadBlock iss first count) i e →
    1 ≤ count.toNat → count.toNat ≤ 256 →
    (∀ a ∈ blockAddrs first count.toNat, (locate a).isSome = true ∧ s.ownerDown a.toNat = none) →
    exec (.regReadBlock iss first count) s = .next
      ((s.readAll (blockAddrs first count.toNat)).2.ends i e stOk 0 (s.readAll (blockAddrs first count.toNat)).1))

/-- O15. The commands that write registers complete (R13 to R15, R74, R76, R87): each ends OK with the write done, and
a new KEEPALIVE closes the sessions that it finds idle. A field that a write would leave at a reserved value takes its
reset value, with one event for the write (R14). The rows that name a register or an operation of a register-driven
engine are this write of that register. When a new KEEPALIVE closes sessions, and where a list stops, are the model's
readings (notes 13, 18). -/
def Obligations.RegisterWritesComplete : Prop :=
  (∀ (s : State) (iss : Issuer) (i : Nat) (e : CmdEntry),
    let after (r : Reg) (ix : List Nat) (v hw : Word) : State :=
      let t := (s.writeReg r ix v hw (s.slot i).number).ends i e stOk 0 []
      if t.regBits .cmdConfig [] 7 0 = s.regBits .cmdConfig [] 7 0 then t else t.closeIdle
    (∀ (a : Addr) (r : Reg) (ix : List Nat) (v hw : Word), locate a = some (r, ix) → s.ownerDown a.toNat = none →
      (Waits s (.regWrite iss a v) i e → exec (.regWrite iss a v) s = .next (after r ix v 0)) ∧
      (Waits s (.w1cRegisterWrite iss a v hw) i e → exec (.w1cRegisterWrite iss a v hw) s = .next (after r ix v hw)) ∧
      (Waits s (.tcConfigWrite iss a v) i e → exec (.tcConfigWrite iss a v) s = .next (after r ix v 0))) ∧
    (∀ v : Word, Waits s (.cmdConfigWrite iss v) i e →
      exec (.cmdConfigWrite iss v) s = .next (after .cmdConfig [] v 0)) ∧
    (∀ v : Word,
      (Waits s (.tblCmdWriteEntry iss v) i e →
        exec (.tblCmdWriteEntry iss v) s = .next (after .tblCmd [] ((v &&& 0xFFFFFFF0) ||| 1) 0)) ∧
      (Waits s (.tblCmdReadEntry iss v) i e →
        exec (.tblCmdReadEntry iss v) s = .next (after .tblCmd [] ((v &&& 0xFFFFFFF0) ||| 2) 0)) ∧
      (Waits s (.tblCmdInvalidateEntry iss v) i e →
        exec (.tblCmdInvalidateEntry iss v) s = .next (after .tblCmd [] ((v &&& 0xFFFFFFF0) ||| 3) 0)) ∧
      (Waits s (.tblCmdMoveEntries iss v) i e →
        exec (.tblCmdMoveEntries iss v) s = .next (after .tblCmd [] ((v &&& 0xFFFFFFF0) ||| 4) 0))) ∧
    (Waits s (.spolBind iss) i e → exec (.spolBind iss) s = .next (after .tcSpolCmd [] 1 0)) ∧
    (Waits s (.spolRead iss) i e → exec (.spolRead iss) s = .next (after .tcSpolCmd [] 2 0)) ∧
    (Waits s (.spolUnbind iss) i e → exec (.spolUnbind iss) s = .next (after .tcSpolCmd [] 3 0))) ∧
  (∀ (s t : State) (iss : Issuer) (i : Nat) (e : CmdEntry) (pairs : List (Addr × Word)), Waits s (.regWriteList iss pairs none) i e →
    (∀ p ∈ pairs, (locate p.1).isSome = true) → s.firstDown pairs 0 = none →
    s.writePairs (s.slot i).number none pairs 0 = (none, t) →
    let u := t.ends i e stOk 0 []
    exec (.regWriteList iss pairs none) s =
      .next (if u.regBits .cmdConfig [] 7 0 = s.regBits .cmdConfig [] 7 0 then u else u.closeIdle)) ∧
  (∀ (s : State) (r : Reg) (ix : List Nat) (v hw : Word) (n : Nat), r.idleAt ix = false → s.overrun r = none →
    let old := s.reg r ix
    let w := writtenWord r old v hw
    (badFields r w = [] → s.writeReg r ix v hw n = (s.setReg r ix w).afterStore r ix old v n) ∧
    (badFields r w ≠ [] → s.writeReg r ix v hw n =
      ((s.setReg r ix (legalWord ix (badFields r w) w)).raiseEv 0x0001 0 ((ownersAt (regAddr r ix)).headD srcNone)
        (beBytes 4 (regAddr r ix) ++ beBytes 4 w.toNat)).afterStore r ix old v n)) ∧
  (∀ (r : Reg) (ix : List Nat) (w : Word) (f : FieldSpec), f ∈ r.row.fields →
    (f ∈ badFields r w → f.get (legalWord ix (badFields r w) w) = f.resetAt ix) ∧
    (f ∉ badFields r w → f.get (legalWord ix (badFields r w) w) = f.get w))

/-- O16. REG_MODIFY (R75): the read and the write are one step, and the word written takes the value under the mask
and keeps the old value elsewhere, but for 0 in the bits outside the mask that a write would act on or that a read
clears. -/
def Obligations.ModifyWrites : Prop :=
  (∀ (s : State) (iss : Issuer) (i : Nat) (e : CmdEntry) (a : Addr) (r : Reg) (ix : List Nat) (mask v : Word),
    Waits s (.regModify iss a mask v) i e → locate a = some (r, ix) → s.ownerDown a.toNat = none →
    let w := modifiedWord r (s.readNow r ix) mask v
    let t := ((s.latchOn r ix).writeReg r ix w 0 (s.slot i).number).ends i e stOk 0 (leBytes (s.readNow r ix) ++ leBytes w)
    exec (.regModify iss a mask v) s =
      .next (if t.regBits .cmdConfig [] 7 0 = s.regBits .cmdConfig [] 7 0 then t else t.closeIdle)) ∧
  (∀ (r : Reg) (old mask v : Word) (n : Nat), n < 32 →
    (modifiedWord r old mask v).getLsbD n =
      if mask.getLsbD n then v.getLsbD n
      else old.getLsbD n && !((r.mask .w1c).getLsbD n || (r.mask .wo).getLsbD n || (r.mask .rc).getLsbD n))

/-- O17. What a stored write leaves, bit by bit (R13, R15): an RW bit takes the written value, a W1C bit is cleared
where 1 is written unless hardware sets it in that cycle, and every other bit keeps its value. -/
def Obligations.WrittenBits : Prop :=
  ∀ (r : Reg) (old v hw : Word) (n : Nat), n < 32 →
    (writtenWord r old v hw).getLsbD n =
      if (r.mask .rw).getLsbD n then v.getLsbD n
      else if (r.mask .w1c).getLsbD n then hw.getLsbD n || (old.getLsbD n && !v.getLsbD n)
      else old.getLsbD n

/-- O18. A counter never wraps (R16): raised any number of times, a counter register and an item of a counter set show
the exact count up to their all-ones value and stay there; a clear sets them to 0. -/
def Obligations.CountersSaturate : Prop :=
  (∀ (s : State) (r : Reg) (ix : List Nat) (ns : List Nat),
    ((ns.foldl (fun s n => s.bumpBy r ix n) s).reg r ix).toNat = min ((s.reg r ix).toNat + ns.sum) (2 ^ 32 - 1)) ∧
  (∀ (s : State) (set index item : Nat) (ns : List Nat),
    (ns.foldl (fun s n => s.csAdd set index item n) s).csItem set index item =
      min (s.csItem set index item + ns.sum) (2 ^ 64 - 1)) ∧
  (∀ (s : State) (r : Reg) (ix : List Nat), r.mask .rc ≠ 0 → (s.clearCounter r ix 0).reg r ix = 0) ∧
  (∀ (s : State) (set index item : Nat), item < ((setShape set).getD (0, 0)).1 → set ≠ 2 → item < 64 → index < 2 ^ 22 →
    (s.csClear set index).csItem set index item = 0)

/-! ## Switching tables and route generations -/

/-- O19. The commands that change or read one entry, and the sounding's configuration, complete (R232, R233, R235,
R238, R265): in each quadrant of the mask, and in the shadows where the flag asks, and nothing else changes. The
host's images reach the tables as `imgHost` stores them. Bulk transfers of entries complete (R265): a sealed TABLE
object of enough length is written entry by entry, and a read fills a new sealed object. -/
def Obligations.TableCommandsComplete : Prop :=
  (∀ (s : State) (iss : Issuer) (i : Nat) (e : CmdEntry) (qmask table flags : Byte) (index : BitVec 32) (image : BitVec 256),
    0 < qmask.toNat → qmask.toNat < 16 → table.toNat < 6 → flags.toNat < 2 → index.toNat < tblSize table.toNat →
    (∀ f ∈ pipesOf qmask.toNat, s.fnDown f = false) →
    s.conflict (s.slot i).number none table.toNat qmask.toNat index.toNat (index.toNat + 1) = none →
    s.bankRefusal table.toNat = none →
    (Waits s (.tblWrite iss qmask table flags 0 index image) i e → s.lpmOk qmask.toNat table.toNat index.toNat (imgHost table.toNat image) = true →
      imgBad table.toNat image = none →
      exec (.tblWrite iss qmask table flags 0 index image) s = .next
        (({ s with tables :=
          s.tables.write qmask.toNat table.toNat index.toNat (flags.getLsbD 0) (imgHost table.toNat image) } : State).ends i e
            stOk 0 [])) ∧
    (Waits s (.tblInvalidate iss qmask table flags 0 index) i e → s.lpmOk qmask.toNat table.toNat index.toNat 0 = true →
      exec (.tblInvalidate iss qmask table flags 0 index) s = .next
        (({ s with tables := s.tables.write qmask.toNat table.toNat index.toNat (flags.getLsbD 0) 0 } : State).ends i e
          stOk 0 []))) ∧
  (∀ (s : State) (iss : Issuer) (i : Nat) (e : CmdEntry) (quad table flags : Byte) (index : BitVec 32),
    Waits s (.tblRead iss quad table flags 0 index) i e → quad.toNat < 4 → table.toNat < 6 → flags.toNat < 2 → index.toNat < tblSize table.toNat →
    s.fnDown (fidTbl quad.toNat) = false →
    exec (.tblRead iss quad table flags 0 index) s = .next (s.ends i e stOk 0
      (imgBytes (entryAt (if flags.getLsbD 0 then s.tables.shadow else s.tables.entries) quad.toNat table.toNat
        index.toNat)))) ∧
  (∀ (s : State) (iss : Issuer) (i : Nat) (e : CmdEntry) (qmask flags : Byte) (src dst count : BitVec 32),
    Waits s (.tblMove iss qmask 0 flags 0 src dst count) i e → 0 < qmask.toNat → qmask.toNat < 16 → flags.toNat < 2 → 1 ≤ count.toNat →
    src.toNat + count.toNat ≤ 262144 → dst.toNat + count.toNat ≤ 262144 →
    (∀ q ∈ quadsOf qmask.toNat, splitsPair s.tables.entries q src.toNat count.toNat = false ∧
      splitsPair s.tables.entries q dst.toNat count.toNat = false ∧
      ((dst.toNat + src.toNat) % 2 = 0 ∨ rangeHasV6 s.tables.entries q src.toNat count.toNat = false)) →
    (∀ f ∈ pipesOf qmask.toNat, s.fnDown f = false) →
    s.conflict (s.slot i).number (some (s.startingOrder i)) 0 qmask.toNat (min src.toNat dst.toNat)
      (max src.toNat dst.toNat + count.toNat) = none →
    exec (.tblMove iss qmask 0 flags 0 src dst count) s = .next
      (({ s with tables := s.tables.move qmask.toNat src.toNat dst.toNat count.toNat (flags.getLsbD 0) } : State).ends i e
        stOk 0 [])) ∧
  (∀ (s : State) (iss : Issuer) (i : Nat) (e : CmdEntry) (rate : BitVec 32) (repair : Byte), Waits s (.soundConfig iss 0 rate repair 0) i e →
    rate.toNat ≤ 4000000 → repair.toNat ≤ 1 →
    exec (.soundConfig iss 0 rate repair 0) s = .next
      ((s.setReg .tblSound [] (BitVec.ofNat 32 (repair.toNat * 2 ^ 31 + rate.toNat))).ends i e stOk 0 [])) ∧
  (∀ (s : State) (iss : Issuer) (i : Nat) (e : CmdEntry) (qmask table flags : Byte) (handle : BitVec 16)
    (first count : BitVec 32) (met : List BlockErr) (o : Obj) (t : Tables),
    Waits s (.tblBulkWrite iss qmask table flags 0 handle 0 first count met) i e → 0 < qmask.toNat → qmask.toNat < 16 →
    table.toNat < 6 → flags.toNat < 2 → 1 ≤ count.toNat → first.toNat + count.toNat ≤ tblSize table.toNat →
    s.objOf (s.slot i).number handle.toNat = some o → s.objBusy handle.toNat = false → o.sealed = true → o.type = 4 →
    (s.readObject handle.toNat 0 o.length met).1 = false → 32 * count.toNat ≤ o.length →
    (∀ f ∈ pipesOf qmask.toNat, s.fnDown f = false) →
    s.conflict (s.slot i).number (some (s.startingOrder i)) table.toNat qmask.toNat first.toNat
      (first.toNat + count.toNat) = none →
    s.bankRefusal table.toNat = none →
    (s.readObject handle.toNat 0 o.length met).2.tables.bulk qmask.toNat table.toNat (flags.getLsbD 0) first.toNat (objImages o count.toNat) = some t →
    exec (.tblBulkWrite iss qmask table flags 0 handle 0 first count met) s = .next
      (({ (s.readObject handle.toNat 0 o.length met).2 with tables := t } : State).ends i e stOk 0 [])) ∧
  (∀ (s : State) (iss : Issuer) (i : Nat) (e : CmdEntry) (quad table flags : Byte) (first count : BitVec 32),
    Waits s (.tblBulkRead iss quad table flags 0 first count) i e → quad.toNat < 4 → table.toNat < 6 → flags.toNat < 2 → 1 ≤ count.toNat → count.toNat ≤ 65536 →
    first.toNat + count.toNat ≤ tblSize table.toNat → s.fnDown (fidTbl quad.toNat) = false →
    let m := if flags.getLsbD 0 then s.tables.shadow else s.tables.entries
    let bytes := (rangeFrom first.toNat count.toNat).flatMap fun n => imgBytes (entryAt m quad.toNat table.toNat n)
    ∀ (h : Nat) (t : State), s.resultObject (s.slot i).number bytes = some (h, t) →
      exec (.tblBulkRead iss quad table flags 0 first count) s = .next (t.ends i e stOk 0 (beBytes 2 h ++ [0, 0])))

/-- O20. What a table write stores (R231, R232, R244): in the entry's quadrant and index the image reads back as
stored, another table reads as before, and so does every other entry of the same table but those that the write must
take away: a learned entry of the same MAC and VLAN, and the odd half of an IPv6 pair. -/
def Obligations.TableWriteFrame : Prop :=
  ∀ (m : AMap EntryImage) (q tb i : Nat) (img : EntryImage), m.wf = true → i < 262144 → tb < 8 →
    (tb = 0 → isV6 img = true → i % 2 = 0) →
    entryAt (putEntry m q tb i img) q tb i = img ∧
    (∀ q' tb' j, j < 262144 → tb' < 8 → (q', tb') ≠ (q, tb) →
      entryAt (putEntry m q tb i img) q' tb' j = entryAt m q' tb' j) ∧
    (∀ j, j < 262144 → j ≠ i → ¬ (tb = 0 ∧ isV6 img = true ∧ j = i + 1) →
      ¬ (tb = 1 ∧ img.getLsbD 255 = true ∧ (entryAt m q tb j).getLsbD 254 = true ∧
        macKeyOf (entryAt m q tb j) = macKeyOf img) →
      entryAt (putEntry m q tb i img) q tb j = entryAt m q tb j)

/-- O21. The part's own rounds over its tables complete: the depth estimates, the age sweep and the sounding. A report
moves each formed port's estimate a quarter of the way toward its depth, in each pipeline in service. The sweep clears
HIT or takes a learned entry away, in its quadrant's MAC table alone, and a sounding visit never changes the shadow. A
write of a command register while its engine is BUSY is ignored and sets OVERRUN (R269, R290); otherwise the engine's
BUSY ends with its completion row. That an ignored write of a command register sets OVERRUN whatever its OP is the
model's reading (note 15). -/
def Obligations.TableRoundsComplete : Prop :=
  (∀ s : State, s.boot.phase ≠ .reset →
    let u := s.every .depthReport 0 1000
    exec .depthReport s = .next { u with tables := { s.tables with est := s.estimates } }) ∧
  (∀ (s : State) (p q : Nat) (x : PortSt), s.ports.wf = true → s.tables.est.wf = true → s.ports.find p = some x →
    (∀ k ∈ s.ports.map (·.1), k < 2048) → q < 4 →
    s.estimates.getD (q * 2048 + p) 0 =
      if x.st.formed = true ∧ s.fnDown (fidTbl q) = false then
        (((s.tables.est.getD (q * 2048 + p) 0 : Nat) : Int) +
          ((min (s.depthOf p) 65535 : Nat) - (s.tables.est.getD (q * 2048 + p) 0 : Nat) : Int) / 4).toNat
      else s.tables.est.getD (q * 2048 + p) 0) ∧
  (∀ (s : State) (q : Quad), s.regBits .tblMacConfig [] 15 0 ≠ 0 → s.fnDown (fidTbl q.val) = false →
    ∃ m t u, exec (.macAgeSweep q) s = .next { s with tables := { s.tables with entries := m }, time := t, ticks := u } ∧
      ∀ k x, (k, x) ∈ m → (k, x) ∈ s.tables.entries ∨ ∃ y, (k, y) ∈ s.tables.entries ∧ k / 262144 = q.val * 8 + 1 ∧
        y.getLsbD 254 = true ∧ y.getLsbD 253 = true ∧ x = y &&& ~~~(1#256 <<< 253)) ∧
  (∀ (s : State) (met : List BlockErr), s.regBits .tblSound [] 21 0 ≠ 0 → s.tables.soundPos < 1577216 →
    let e := soundEntry s.tables.soundPos
    s.linkUp (16 + addrBridge (shadowAddr e.1 e.2.1 e.2.2)) = true →
    ∃ t, exec (.soundingVisit met) s = .next t ∧ t.tables.shadow = s.tables.shadow ∧
      t.tables.soundPos = (s.tables.soundPos + 1) % 1577216 ∧ t.gen = s.gen ∧ t.nvm = s.nvm ∧ t.mgmt = s.mgmt ∧
      (∀ k, k ≠ tblKey e.1 e.2.1 e.2.2 →
        ¬ (e.2.1 = 0 ∧ isV6 (entryAt s.tables.shadow e.1 e.2.1 e.2.2) = true ∧ k = tblKey e.1 e.2.1 (e.2.2 + 1)) →
        t.tables.entries.find k = s.tables.entries.find k)) ∧
  (∀ (s : State) (v hw : Word) (n : Nat), s.tables.op.busy = true →
    s.writeReg .tblCmd [] v hw n = s.setReg .tblStatus [] (s.reg .tblStatus [] ||| 0x40000000)) ∧
  (∀ (s : State) (v hw : Word) (n : Nat), s.tc.op.busy = true →
    s.writeReg .tcSpolCmd [] v hw n = s.setReg .tcSpolStatus [] (s.reg .tcSpolStatus [] ||| 0x40000000)) ∧
  (∀ s : State, s.tables.op.busy = true → exec .tableOperationComplete s =
    .next { s with tables := { s.tables with op := ⟨false, s.tables.op.next, 0⟩, holds := [] } }) ∧
  (∀ s : State, s.tc.op.busy = true → exec .spolOperationComplete s =
    .next { s with tc := { s.tc with op := ⟨false, s.tc.op.next, 0⟩ } })

/-- O22. GEN_ACTIVATE, GEN_STATUS and GEN_ABANDON complete (R256, R258, R266): T lies from 2 µs to 10 s after the
command's receipt, the activation waits as PENDING, with its image or without, in the bank that is not ACTIVE, or in
the queue where that bank is DRAINING. That IMMEDIATE activates within the command is the model's choice (note 46). -/
def Obligations.GenerationCommandsComplete : Prop :=
  (∀ (s : State) (iss : Issuer) (i : Nat) (e : CmdEntry) (t : BitVec 64),
    s.conflict (s.slot i).number (some (s.startingOrder i)) 2 15 0 512 = none →
    s.conflict (s.slot i).number (some (s.startingOrder i)) 3 15 0 512 = none →
    (s.gen.bank (1 - s.gen.act)).st = .idle →
    let n := 1 - s.gen.act
    (Waits s (.genActivate iss 0 0 0 t []) i e → s.startingReceipt i + 2000 ≤ t.toNat → t.toNat ≤ s.startingReceipt i + 10000000000 →
      exec (.genActivate iss 0 0 0 t []) s = .next
        (({ s with gen := s.gen.setBank n { s.gen.bank n with st := .armed, t := t.toNat, immediate := false } } :
          State).pendCmd i e [] (.genActivate n))) ∧
    (Waits s (.genActivate iss 1 0 0 t []) i e →
      exec (.genActivate iss 1 0 0 t []) s = .next
        ((({ s with gen := s.gen.setBank n { s.gen.bank n with st := .armed, t := 0, immediate := true } } :
          State).activate).pendCmd i e [] (.genActivate n)))) ∧
  (∀ (s : State) (iss : Issuer) (i : Nat) (e : CmdEntry) (handle : BitVec 16) (t : BitVec 64) (met : List BlockErr) (o : Obj),
    Waits s (.genActivate iss 2 0 handle t met) i e → s.objOf (s.slot i).number handle.toNat = some o →
    s.objBusy handle.toNat = false → o.sealed = true → o.type = 4 → o.length = 16384 →
    (s.readObject handle.toNat 0 o.length met).1 = false → s.startingReceipt i + 2000 ≤ t.toNat → t.toNat ≤ s.startingReceipt i + 10000000000 →
    (∀ q < 4, s.fnDown (fidTbl q) = false) →
    s.conflict (s.slot i).number (some (s.startingOrder i)) 2 15 0 512 = none →
    s.conflict (s.slot i).number (some (s.startingOrder i)) 3 15 0 512 = none → s.gen.queued = none →
    let n := 1 - s.gen.act
    let u := (s.readObject handle.toNat 0 o.length met).2
    ((s.gen.bank n).st = .idle → exec (.genActivate iss 2 0 handle t met) s = .next
      (({ u.loadBank n (objImages o 512) with
        gen := s.gen.setBank n { s.gen.bank n with st := .armed, t := t.toNat, immediate := false } } : State).pendCmd i e
          [handle.toNat] (.genActivate n))) ∧
    ((s.gen.bank n).st = .draining → exec (.genActivate iss 2 0 handle t met) s = .next
      (({ u with gen := { s.gen with queued := some ⟨t.toNat, false, objImages o 512⟩ } } : State).pendCmd i e
        [handle.toNat] (.genActivate n)))) ∧
  (∀ (s : State) (iss : Issuer) (i : Nat) (e : CmdEntry), Waits s (.genStatus iss) i e →
    exec (.genStatus iss) s = .next (s.ends i e stOk 0
      (beBytes 4 s.genActive ++ beBytes 4 (s.inflight 0) ++ beBytes 4 (s.inflight 1) ++ [0, 0, 0, 0] ++
        beBytes 8 s.armTime ++ beBytes 8 (s.horizon 0) ++ beBytes 8 (s.horizon 1)))) ∧
  (∀ (s : State) (iss : Issuer) (i : Nat) (e : CmdEntry), Waits s (.genAbandon iss) i e → s.gen.queued = none →
    (s.gen.bank (1 - s.gen.act)).st = .armed →
    let n := 1 - s.gen.act
    let t : State := { s with gen := s.gen.setBank n { s.gen.bank n with st := .idle, t := 0, immediate := false } }
    exec (.genAbandon iss) s = .next
      ((t.endJobs (fun j => decide (j = .genActivate n)) ⟨stBadParam, 0xFFFF, []⟩).ends i e stOk 0
        (beBytes 1 n ++ [0, 0, 0])))

/-- O23. The activation and the retirement complete (R255, R257): at T the armed bank becomes ACTIVE and the ACTIVE
one DRAINING, once, with one more commit counted; the drained bank becomes IDLE, never before PTP time has reached its
cutoff. That the row brings the clock to its moment is the model's choice (note 2). -/
def Obligations.GenerationSwap : Prop :=
  (∀ s : State, (s.gen.bank (1 - s.gen.act)).st = .armed → (s.gen.bank (1 - s.gen.act)).immediate = false →
    exec .genActivation s = .next ((s.advancePtp (s.gen.bank (1 - s.gen.act)).t).activate)) ∧
  (∀ s : State, s.oneActive → (s.gen.bank (1 - s.gen.act)).st = .armed →
    s.activate.oneActive ∧ s.activate.gen.act = 1 - s.gen.act ∧
      (s.activate.gen.bank s.gen.act).st = .draining ∧ (s.activate.gen.bank (1 - s.gen.act)).activated = s.ptpNs ∧
      s.activate.gen.queued = s.gen.queued ∧ s.activate.regs = (s.bump .genCommits []).regs ∧
      s.activate.tables = s.tables ∧ s.activate.nvm = s.nvm ∧ s.activate.mgmt = s.mgmt ∧ s.activate.time = s.time) ∧
  (∀ s : State, s.oneActive → (s.gen.bank (1 - s.gen.act)).st = .draining → s.inflight (1 - s.gen.act) = 0 →
    s.gen.queued = none →
    ∃ t, exec .genRetire s = .next t ∧ t.oneActive ∧ t.gen.act = s.gen.act ∧ (t.gen.bank (1 - s.gen.act)).st = .idle ∧
      t.gen.bank s.gen.act = s.gen.bank s.gen.act ∧ t.tables = s.tables ∧ t.nvm = s.nvm ∧ t.regs = s.regs)

/-! ## The plan, ports, fibres and links -/

/-- O24. PLAN_LOAD and the port commands complete (R34, R97, R135): with their parameters legal and the function in
service each ends OK with its effect, and the commands that only answer change nothing else. -/
def Obligations.PortCommandsComplete : Prop :=
  (∀ (s : State) (iss : Issuer) (i : Nat) (e : CmdEntry) (handle : BitVec 16) (met : List BlockErr) (o : Obj),
    Waits s (.planLoad iss handle 0 met) i e →
    s.objOf (s.slot i).number handle.toNat = some o → s.objBusy handle.toNat = false → o.sealed = true → o.type = 1 →
    (s.readObject handle.toNat 0 o.length met).1 = false → s.fnDown (fidCmd s.boot.holder) = false →
    let u := (s.readObject handle.toNat 0 o.length met).2
    let p := planOf o
    let n := ((List.range 256).filter fun f => entryChanged (u.entry f) (p.wiring.getD f .unused)).length
    exec (.planLoad iss handle 0 met) s = .next (match u.planRefusal o with
      | none => (u.adoptPlan p).ends i e stOk 0 (beBytes 2 n ++ [0, 0] ++ bvBytes 48 p.digest)
      | some d => u.ends i e stRefusedPlan d [])) ∧
  (∀ (s : State) (iss : Issuer) (i : Nat) (e : CmdEntry) (fibre : BitVec 16) (layout : Byte), Waits s (.portConfig iss fibre layout 0) i e →
    fibre.toNat < 256 → layoutLegal layout.toNat = true → s.fnDown (fidTile (fibre.toNat / 4)) = false →
    (s.entry fibre.toNat).state ≠ 1 →
    exec (.portConfig iss fibre layout 0) s = .next
      ((if (s.fibre fibre.toNat).layout = some layout.toNat then s
        else ((s.dropFibre fibre.toNat).setFibre fibre.toNat fun x => { x with layout := some layout.toNat }).settleFibre
          fibre.toNat).ends i e stOk 0 [])) ∧
  (∀ (s : State) (iss : Issuer) (i : Nat) (e : CmdEntry) (lane : BitVec 16), s.configured lane.toNat = true →
    s.fnDown (fidTile (tileOf lane.toNat)) = false →
    (Waits s (.portStatus iss lane 0) i e →
      let d := (s.fibre (fibreOf lane.toNat)).disc
      exec (.portStatus iss lane 0) s = .next (s.ends i e stOk 0
        (beBytes 4 (s.portStatus lane.toNat) ++ bvBytes 32 ((d.map Discover.id).getD 0) ++
          beBytes 2 ((d.map Discover.port).getD 0) ++ bvBytes 4 ((d.map Discover.incarnation).getD 0) ++
          beBytes 1 ((d.map Discover.lanes).getD 0) ++ [0]))) ∧
    (Waits s (.portEnable iss lane 0 0) i e →
      exec (.portEnable iss lane 0 0) s = .next
        ((if (s.port lane.toNat).st = .disabled then s else s.disablePort lane.toNat).ends i e stOk 0 [])) ∧
    (Waits s (.portEnable iss lane 1 0) i e →
      exec (.portEnable iss lane 1 0) s = .next
        ((if (s.port lane.toNat).st = .disabled then
            (s.setPort lane.toNat fun y => { PortSt.init with frameNo := y.frameNo }).settlePort lane.toNat
          else s).ends i e stOk 0 [])) ∧
    (Waits s (.linkRetrain iss lane 0) i e →
      exec (.linkRetrain iss lane 0) s = .next
        ((if (s.port lane.toNat).st.running then s.dropPort lane.toNat .training false else s).ends i e stOk 0 []))) ∧
  (∀ (s : State) (iss : Issuer) (i : Nat) (e : CmdEntry) (fibre count : BitVec 16), Waits s (.discoveryRead iss fibre count 0 0) i e →
    1 ≤ count.toNat → fibre.toNat + count.toNat ≤ 256 → count.toNat ≤ 135 →
    exec (.discoveryRead iss fibre count 0 0) s = .next
      (s.ends i e stOk 0 ((rangeFrom fibre.toNat count.toNat).flatMap s.discoveryRecord)))

/-- O25. Fibres and lanes follow what the light and the partner do (R124 to R131): each row has its effect in the
states that it acts in. A port forms (R125, R130, R631): a port in training or retraining whose lanes are usable comes
UP on an open fibre and QUARANTINED on another, and no other state forms. A C-mode port takes its landing out of the
pool (R179) and begins with its first limits (R115). One that the pool is too small for stays as it is and says so
once. When a fibre settles is the model's reading (note 39), and so are the choices of notes 66 and 67; the clock is
brought to a timer's moment (note 2). -/
def Obligations.FibreAndLaneRowsComplete : Prop :=
  (∀ (s : State) (l : Lane) (src : BitVec 48) (pay : BitVec 512), s.hears l.val = true →
    exec (.discoverReceive l src pay) s = .next ((s.learnPartner l.val src).discover (fibreOf l.val) pay)) ∧
  (∀ (s : State) (f : Fibre), (s.fibre f.val).found = true → exec (.partnerLostTimeout f) s = .next
    (((s.advanceTo ((s.fibre f.val).discAt + 1000000000)).setFibre f.val fun x => { x with found := false }).settleFibre
      f.val)) ∧
  (∀ (s : State) (f : Fibre), (s.fibre f.val).comparing = true → exec (.fibreComparisonComplete f) s = .next
    ((s.setFibre f.val fun x => { x with comparing := false }).settleFibre f.val)) ∧
  (∀ (s : State) (f : Fibre), s.boot.phase = .done → s.fnDown (fidTile (f.val / 4)) = false →
    let t := s.every .discover f.val (s.regBits .linkConfig [] 11 8 * 1000000)
    let cell := linkCell 0x10 0 (t.ownDiscover f.val)
    (∀ p, (t.portsOf f.val).any (fun p => (t.port p).st.formed) = true → t.discoverPort f.val = some p →
      exec (.discoverSend f) s = .next (t.queueCtrl p cell)) ∧
    ((t.portsOf f.val).any (fun p => (t.port p).st.formed) = true → t.discoverPort f.val = none →
      exec (.discoverSend f) s = .next t) ∧
    ((t.portsOf f.val).any (fun p => (t.port p).st.formed) = false →
      exec (.discoverSend f) s = .next (((rangeFrom (8 * f.val) 8).filter fun l => (t.lane l).ok .tx).foldl
        (fun u l => u.putTrain l [cell]) t))) ∧
  (∀ (s : State) (l : Lane),
    exec (.laneDrop l .tx) s = .next (s.followLane l.val .tx) ∧
    exec (.laneDrop l .rx) s = .next ((s.setLane l.val fun x => { x with fecLock := false }).followLane l.val .rx) ∧
    exec (.laneReturn l .tx) s = .next (s.followLane l.val .tx) ∧
    ((s.laneRing l.val .rx).st = .verified → (s.lane l.val).diverted = false → exec (.laneReturn l .rx) s =
      .next ((s.setLane l.val fun x => { x with fecLock := true }).followLane l.val .rx))) ∧
  (∀ (s : State) (p : Lane), s.configured p.val = true → s.fnDown (fidTile (tileOf p.val)) = false →
    exec (.portTrainingComplete p) s = .next (s.formPort p.val)) ∧
  (∀ (s : State) (p : Nat), (s.port p).st ≠ .training → (s.port p).st ≠ .retraining → s.formPort p = s) ∧
  (∀ (s : State) (p b : Nat), (s.port p).st = .training → s.isC p = false →
    eBlock (s.eUsable p) p (s.widthAt p) = some b →
    let t := s.formPort p
    (t.port p).st = (if s.open_ (fibreOf p) then .up else .quarantined) ∧ (t.port p).tx = b ∧ (t.port p).rx = b ∧
      (∀ q, q ≠ p → t.port q = s.port q) ∧ t.nvm = s.nvm ∧ t.gen = s.gen ∧ t.tables.entries = s.tables.entries ∧
      t.mgmt = s.mgmt) ∧
  (∀ (s : State) (p b : Nat), (s.port p).st = .retraining → s.isC p = false → eBlock (s.eUsable p) p (s.widthAt p) = some b →
    s.formPort p = s.setPort p fun y =>
      { y with st := if s.open_ (fibreOf p) then .up else .quarantined, tx := b, rx := b, lastValid := s.now }) ∧
  (∀ (s : State) (p : Nat), s.isC p = false → eBlock (s.eUsable p) p (s.widthAt p) = none → s.formPort p = s) ∧
  (∀ (s : State) (p : Nat), (s.port p).st = .training ∨ (s.port p).st = .retraining → s.isC p = true →
    (s.usable p .tx = 0 ∨ s.usable p .rx = 0 → s.formPort p = s) ∧
    (s.usable p .tx ≠ 0 → s.usable p .rx ≠ 0 → s.sharedPool (tileOf p) < 16384 + s.landingNeed →
      s.formPort p = if (s.port p).short then s else
        (s.setPort p fun y => { y with short := true }).raiseEv 0x0902 2 (fidTile (tileOf p)) (beBytes 2 p)) ∧
    (s.usable p .tx ≠ 0 → s.usable p .rx ≠ 0 → 16384 + s.landingNeed ≤ s.sharedPool (tileOf p) →
      let whole := s.open_ (fibreOf p)
      let t := s.formPort p
      t.port p = { PortSt.init with
        st := if whole then .up else .quarantined, rx := s.usable p .rx, landing := s.landingNeed,
        limitOut := (List.range 8).map fun c => if whole = true ∨ c = clsCtrl then s.creditInit c else 0,
        replayLimit := s.replayLimit, lastValid := s.now, txGone := some s.now, ackAt := s.now,
        frameNo := (s.port p).frameNo } ∧
      (∀ q, q ≠ p → t.port q = s.port q) ∧ t.nvm = s.nvm ∧ t.gen = s.gen ∧ t.tables.entries = s.tables.entries ∧
      t.mgmt = s.mgmt))

/-- O26. The timers of a C-mode link complete (R117, R119, R123): a gap is asked for again, a silent lane leaves its
port, and a silent or stalled link retrains. The clock is brought to a timer's moment (note 2); the states after an
error are the model's reading (notes 40, 67). -/
def Obligations.LinkTimersComplete : Prop :=
  (∀ (s : State) (p : Lane) (due : Nat), (s.port p.val).gapDue = some due → (s.port p.val).st.formed = true →
    exec (.replayTimerExpiry p) s = .next
      ((s.advanceTo due).setPort p.val fun y => { y with request := true, gapDue := some (due + gapNs) })) ∧
  (∀ (s : State) (p : Lane), s.configured p.val = true → s.isC p.val = true → (s.port p.val).st.formed = true →
    s.allDiverted p.val = false →
    exec (.linkSilenceTimeout p) s = .next ((s.advanceTo (s.port p.val).silentAt).retrain p.val 2) ∧
    ((s.port p.val).replay ≠ [] → (s.port p.val).requests < (s.port p.val).replayLimit →
      exec (.ackStallTimeout p) s = .next ((s.advanceTo ((s.port p.val).ackAt + 100000)).retrain p.val 1)) ∧
    ((s.port p.val).replay ≠ [] → (s.port p.val).replayLimit ≤ (s.port p.val).requests →
      exec (.ackStallTimeout p) s = .next (s.retrain p.val 0))) ∧
  (∀ (s : State) (l : Lane), s.configured (s.portOf l.val) = true → s.isC (s.portOf l.val) = true →
    (s.port (s.portOf l.val)).st.formed = true → bit (s.port (s.portOf l.val)).rx (lambdaOf l.val) = true →
    exec (.laneSilenceTimeout l) s = .next ((s.advanceTo ((s.lane l.val).lastValid + 10000)).clearRx l.val)) ∧
  (∀ (s : State) (p : Lane), s.configured p.val = true → s.isC p.val = false → (s.port p.val).st.running = true →
    ((s.fibre (fibreOf p.val)).disc.map Discover.role).getD 0 = 1 →
    exec (.eKeepaliveSend p) s = .next ((s.every .keepalive p.val 1000000).queueCtrl p.val (linkCell 0x11 0 0)) ∧
    exec (.eModeSilenceTimeout p) s = .next
      ((s.advanceTo ((s.port p.val).lastValid + 10000000)).raiseEv 0x1403 1 (fidTile (tileOf p.val)) (beBytes 2 p.val)))

/-- O27. FLIT_RECEIVE completes (R109 to R117). A flit that fails its check is counted and asked for again and carries
nothing else; a valid one has its link fields used, and its cells are taken when it is the next in sequence; one of a
reserved type has only its link fields used. What a reserved type and a link error lead to is the model's reading
(note 40). -/
def Obligations.FlitReceiveCompletes : Prop :=
  ∀ (s : State) (l : Lane) (f : Flit), f.wf = true → s.hears l.val = true → s.configured (s.portOf l.val) = true →
    s.isC (s.portOf l.val) = true → (s.port (s.portOf l.val)).st.formed = true →
    let p := s.portOf l.val
    (∀ fec : Bool, (fec && f.crcOk) = false → exec (.flitReceive l f fec) s = .next
      (((s.setLane l.val fun x => { x with run := 0 }).bump .tilePortCrcErrs [tileOf p, slotOf p]).setPort p fun y =>
        { y with discarded := true, gapDue := some (y.gapDue.getD (s.now + gapNs)) })) ∧
    (f.crcOk = true →
      let t := s.linkFields l.val p f.link
      (f.link.ltype = 0 → (t.port p).requests < (t.port p).replayLimit →
        exec (.flitReceive l f true) s = .next (t.sequenced p f)) ∧
      (1 < f.link.ltype.toNat → (t.port p).requests < (t.port p).replayLimit →
        exec (.flitReceive l f true) s = .next t) ∧
      (f.link.ltype ≠ 1 → (t.port p).replayLimit ≤ (t.port p).requests →
        exec (.flitReceive l f true) s = .next (t.retrain p 0)) ∧
      (f.link.ltype = 1 →
        let u := (t.bump .tilePortReplays [tileOf p, slotOf p]).setPort p fun y =>
          { y with requests := y.requests + 1, resend := y.replay }
        ((u.port p).requests < (u.port p).replayLimit → exec (.flitReceive l f true) s = .next (u.sequenced p f)) ∧
        ((u.port p).replayLimit ≤ (u.port p).requests → exec (.flitReceive l f true) s = .next (u.retrain p 0))))

/-- O28. FLIT_TRANSMIT completes (R110 to R112, R116, R124): on the lane whose turn it is a replay goes before new
cells and a full replay buffer sends no new cell, a lane whose turn it is not sends nothing, and a lane that the port
does not send on carries link fields alone. The order of the control slots is the model's reading (notes 41, 67). -/
def Obligations.FlitTransmitCompletes : Prop :=
  ∀ (s : State) (l : Lane), s.boot.phase = .done → s.configured (s.portOf l.val) = true → s.isC (s.portOf l.val) = true →
    (s.port (s.portOf l.val)).st.formed = true → (s.lane l.val).ok .tx = true →
    let p := s.portOf l.val
    let w := lambdaOf l.val
    (bit (s.port p).tx w = false → exec (.flitTransmit l) s =
      .next (((s.sendUnsequenced l.val p).setLane l.val fun y => { y with txNew := false }).retune p)) ∧
    (bit (s.port p).tx w = true → (s.port p).turn ≠ some w → exec (.flitTransmit l) s = .next s) ∧
    (bit (s.port p).tx w = true → (s.port p).turn = some w →
      let t := s.setPort p fun y => { y with lastTx := w }
      (∀ seq f rest, (s.port p).resend = (seq, f) :: rest → exec (.flitTransmit l) s = .next (t.sendAgain l.val p seq f)) ∧
      ((s.port p).resend = [] → 256 ≤ (s.port p).replay.length →
        exec (.flitTransmit l) s = .next (t.sendUnsequenced l.val p)) ∧
      ((s.port p).resend = [] → (s.port p).replay.length < 256 → exec (.flitTransmit l) s = .next (t.sendNew l.val p)))

/-- O29. The rows of E-mode ports complete (R93, R120 to R123, R157, R279): a train or a frame that arrives on a live
port is taken or counted, a MAC control frame ends there, a frame on a quarantined port is counted (R38), and a live
port that does not idle starts what its scheduler chooses once what it sends has ended. How frames are numbered and
timed is the model's (notes 38, 41); the clock is brought to a timer's moment (note 2). -/
def Obligations.EModeRowsComplete : Prop :=
  (∀ (s : State) (p : Lane) (t : Train) (ovr : Bool),
    exec (.cellTrainReceive p t ovr) s = .next (s.takeTrain p.val t ovr)) ∧
  (∀ (s : State) (p : Lane) (t : Train), s.eLive p.val = true → s.linkUp (engineOf p.val) = true → t.fcsOk = true →
    t.version = 1 → t.count ≠ 0 → t.count.toNat ≤ 18 → t.count.toNat ≤ t.cells.length →
    let u := s.setPort p.val fun y => { y with lastValid := s.now }
    let cells := t.cells.take t.count.toNat
    (∀ ovr : Bool, (ovr || s.fnDown (fidTbl (tileOf p.val / 16))) = true → s.takeTrain p.val t ovr =
      cells.foldl (fun s c => (s.countRx p.val c).countDrop p.val c.cls) (u.bump .tileIngressOverrun [tileOf p.val])) ∧
    (s.fnDown (fidTbl (tileOf p.val / 16)) = false →
      let learnt := if cells.any fun c => decide (c.cls = clsCtrl ∧ Cell.type c = 0x10) then u.learnPartner p.val t.src else u
      s.takeTrain p.val t false = cells.foldl (fun s c => s.arriveE p.val c) learnt)) ∧
  (∀ (s : State) (p : Lane) (f : EthFrame) (ovr : Bool), s.eLive p.val = true → frameFits (ethBytes f) = true →
    (f.etherType = 0x88B5 → exec (.ethFrameReceive p f ovr) s = .next (s.takeTrain p.val (ethTrain f) ovr)) ∧
    (f.etherType ≠ 0x88B5 → f.fcsOk = false →
      exec (.ethFrameReceive p f ovr) s = .next (s.bump .tilePortCrcErrs [tileOf p.val, slotOf p.val])) ∧
    (f.etherType = 0x8808 → f.fcsOk = true → s.linkUp (engineOf p.val) = true → (s.port p.val).st ≠ .quarantined →
      exec (.ethFrameReceive p f ovr) s = .next (s.setPort p.val fun y => { y with lastValid := s.now })) ∧
    (f.etherType ≠ 0x88B5 → f.etherType ≠ 0x8808 → f.fcsOk = true → s.linkUp (engineOf p.val) = true →
      s.ownPtp f = false → (s.port p.val).st = .up → ovr = false → s.fnDown (fidTbl (tileOf p.val / 16)) = false →
      ∃ t, exec (.ethFrameReceive p f ovr) s = .next t ∧ t.frames.next = s.frames.next + 1) ∧
    (f.etherType ≠ 0x88B5 → f.fcsOk = true → s.linkUp (engineOf p.val) = true → s.ownPtp f = false →
      (s.port p.val).st = .quarantined → ovr = false → s.fnDown (fidTbl (tileOf p.val / 16)) = false →
      let u := s.setPort p.val fun y => { y with lastValid := s.now }
      let cells := ordCells 0 (ethBytes f)
      exec (.ethFrameReceive p f ovr) s = .next (cells.foldl (fun s c => s.countDrop p.val c.cls)
        ((cells.foldl (fun s c => s.countRx p.val c) u).bump .tilePortQuarDrops [tileOf p.val, slotOf p.val])))) ∧
  (∀ (s : State) (p : Lane), s.eLive p.val = true →
    let t := s.advanceTo (s.port p.val).busyTill
    t.idles p.val = false →
    exec (.eModeTransmitStart p) s = .next (t.eStart p.val (t.egressUsed (tileOf p.val) + 1))) ∧
  (∀ (s : State) (p : Lane) (due : Nat), s.fillDue p.val = some due → s.eLive p.val = true →
    let t := (s.advanceTo due).advanceTo (s.port p.val).busyTill
    t.idles p.val = false →
    exec (.trainFillExpiry p) s = .next (t.eStart p.val (t.egressUsed (tileOf p.val) + 1)))

/-! ## The switching core -/

/-- O30. CELL_LOOKUP completes (R228 to R230, R236 to R250, R264): while the pipeline of its quadrant is in service,
the first cell of a tile that can pass stage 3 leaves the arrivals; a table class goes through its table, Estuary
traffic goes to the slice that is its home, with its age or its context's deadline as its limit. While the pipeline is
down no cell passes. The three rows of a cell are the model's reading (note 36). -/
def Obligations.CellLookupCompletes : Prop :=
  (∀ (s : State) (t : Tile) (q : QCell) (before rest : List QCell), s.fnDown (fidTbl (t.val / 16)) = false →
    s.nextArrival [] (s.tile t.val).arrivals = some (before, q, rest) →
    let u := s.setTile t.val fun x => { x with arrivals := before ++ rest }
    (q.cls = clsOrd → exec (.cellLookup t) s = .next (u.lookupOrd t.val q rest)) ∧
    (q.cls = clsSched ∨ q.cls = clsFreq ∨ q.cls = clsFrsp → exec (.cellLookup t) s = .next (u.lookupFabric t.val q)) ∧
    (q.cls = clsCode → exec (.cellLookup t) s = .next
      (u.onward t.val { q with limit := u.ageFrom clsCode q.time, outs := [.slice (homeOf q.cell.ctx q.cell.chunk)] })) ∧
    (q.cls = clsCup → (u.ctx q.cell.ctx).filter (fun x => x.st.live) = none → exec (.cellLookup t) s = .next
      (u.onward t.val { q with
        limit := u.ageFrom clsCup q.time, marked := false, outs := [.slice (homeOf q.cell.ctx q.cell.chunk)] })) ∧
    (∀ c, q.cls = clsCup → (u.ctx q.cell.ctx).filter (fun x => x.st.live) = some c → exec (.cellLookup t) s = .next
      (u.onward t.val { q with limit := c.deadline, marked := true, outs := [.slice (homeOf q.cell.ctx q.cell.chunk)] })) ∧
    (q.cls = clsCtrl → exec (.cellLookup t) s = .next
      (u.onward t.val { q with limit := u.ageFrom clsCtrl q.time, outs := [.slice (homeOf q.cell.ctx 0)] }))) ∧
  (∀ (s : State) (t : Tile), s.fnDown (fidTbl (t.val / 16)) = true → exec (.cellLookup t) s = .next s)

/-- O31. Admission completes (R165, R180 to R188): a cell that is looked up is placed in its queues, or, where it is
refused or waits behind a refused one, a C-mode cell stays in its landing, a generated cell is held for its function,
and an E-mode cell is dropped and counted. A cell that has no live output is dropped, counted, and its credit
returned, one past its age that waited in its port's landing goes as an age drop (R190), and one of an aborted frame
is dropped. Where a refused cell waits is the model's reading (note 36). -/
def Obligations.CellAdmissionCompletes : Prop :=
  (∀ (s : State) (t : Tile) (q : QCell) (rest : List QCell), (s.tile t.val).looked = q :: rest →
    let u := s.setTile t.val fun x => { x with looked := rest }
    let r := { q with outs := u.liveOuts q }
    (q.cls = clsOrd → u.frames.aborted.contains q.frame = true →
      exec (.cellAdmission t) s = .next ((u.credit r).dropCell r)) ∧
    (¬ (q.cls = clsOrd ∧ u.frames.aborted.contains q.frame = true) →
    (r.outs = [] → exec (.cellAdmission t) s = .next
      (((((u.bump .tileXbarDestDrops [t.val]).credit r).dropCell r).handOver r).settle)) ∧
    (r.outs ≠ [] → r.landed = true → u.aged r = true → exec (.cellAdmission t) s = .next ((u.ageCell t.val r).credit r)) ∧
    (r.outs ≠ [] → (r.landed && u.aged r) = false → u.behind t.val r = true → exec (.cellAdmission t) s = .next (u.refuseCell t.val r)) ∧
    (r.outs ≠ [] → (r.landed && u.aged r) = false → u.behind t.val r = false → ∀ v, u.place t.val r = (true, v) →
      exec (.cellAdmission t) s = .next ((v.handOver r).settle)) ∧
    (r.outs ≠ [] → (r.landed && u.aged r) = false → u.behind t.val r = false → ∀ v, u.place t.val r = (false, v) →
      exec (.cellAdmission t) s = .next (v.refuseCell t.val r)))) ∧
  (∀ (s : State) (t : Nat) (q : QCell),
    (∀ p, q.src = .cMode p ∨ q.src = .gone p →
      s.refuseCell t q = s.setTile t fun x => { x with landed := x.landed ++ [q] }) ∧
    (q.src = .generated → s.refuseCell t q = s.setTile t fun x => { x with held := x.held ++ [q] }) ∧
    (∀ p, q.src = .eMode p → s.refuseCell t q =
      ((s.bump .tileAdmDrops [t, q.cls]).countClass t q.cls 1 1).loseCell t q))

/-- O32. The other rows of a tile's queues complete (R153, R181, R191, R195 to R197, R218): the landing is judged
again in order, held cells are offered again, a queue in Undertow is read back, and heads past their age are
discarded, with what waits in the landing, for its function, for its pipeline and for a launch's credit. A crossbar
slot completes (R157 to R163): the slot counter rises by one, and a new matching for three slots on joins those in
flight; while the crossbar is in reset or not ready nothing moves. Where cells wait and when requests are sampled are
the model's readings (notes 36, 37). -/
def Obligations.QueueRowsComplete : Prop :=
  (∀ (s : State) (t : Tile), exec (.landedCellRejudge t) s =
    .next ((landedOrder (s.tile t.val).landed).foldl (fun a q => a.1.rejudge t.val a.2 q) (s, [])).1) ∧
  (∀ (s u v : State) (t : Tile) (q : QCell), s.nextHeld t.val = (some q, u) → s.aged q = false → s.liveOuts q ≠ [] →
    u.place t.val { q with outs := s.liveOuts q } = (true, v) →
    exec (.generatedCellReoffer t) s =
      .next ((((v.setTile t.val fun x => { x with held := x.held.erase q }).restShares t.val).handOver q).settle)) ∧
  (∀ (s : State) (t : Tile) (j : Fin 520) (met : List BlockErr),
    let k := qKey t.val j.val
    (s.queue k).length < 64 → s.under k ≠ [] → s.underReady = true →
    let u := s.advanceTo ((s.tile t.val).spillTill / 16)
    let n := (80 * min 64 (u.under k).length + 63) / 64
    let cells := u.under k
    let v := u.meet 0 n (fun e => errOn (((cells[64 * e.block / 80]?).map QCell.home).getD 0) e) met
    let bad := (lostBlocks n met).flatMap blockCells
    let w := (v.setUnder k ((v.under k).mapIdx fun i q => if bad.contains i then { q with lost := true } else q)).readBack t.val k 64
    exec (.undertowReadback t j met) s =
      .next (w.advanceTo ((w.bridgesUp.map fun b => w.linkDue b false 1 (((w.brg b).down.asked).getD 1 0)).foldl max 0))) ∧
  (∀ (s : State) (t : Tile), s.boot.phase ≠ .reset → exec (.headSweep t) s =
    .next (((((((((s.every .headSweep t.val 10000).sweepQueues t.val).sweepLanding t.val).sweepHeld t.val).sweepEarly
      t.val).sweepArrivals t.val).sweepLaunches t.val).restShares t.val).spillJudge t.val)) ∧
  (∀ s : State, s.fnDown fidXbar = false → s.xbar.ready = true →
    ∃ t, exec .xbarSlot s = .next t ∧ t.xbar.slot = s.xbar.slot + 1 ∧ (∃ m ∈ t.xbar.inflight, m.slot = s.xbar.slot + 3) ∧
      t.nvm = s.nvm ∧ t.gen.act = s.gen.act) ∧
  (∀ s : State, s.fnDown fidXbar = true ∨ s.xbar.ready = false → exec .xbarSlot s = .next s)

/-- O33. A queue keeps its order across spill and read-back (R153): a cell that spills goes to the end of the queue's
part in Undertow, every cell taken while that part holds one goes there too, and nothing else of any queue moves.
Reading back moves cells from the head of the queue's part in Undertow to the end of its part in the Cellar and
changes neither their order nor their number, but for cells that are lost, aged or of an aborted frame. The bridge
that takes a spilled cell is the model's choice (note 73). -/
def Obligations.UndertowKeepsOrder : Prop :=
  (∀ (s u : State) (t : Nat) (q : QCell), (s.spillJudge t).judgeAdmit t (queueFor t q) q.cls = (.spill, u) →
    let k := queueFor t q
    let v := (s.place t q).2
    (s.place t q).1 = true ∧ v.queue k = s.queue k ∧ v.under k = s.under k ++ [{ q with home := u.spillBridge t }] ∧
      ∀ j, j ≠ k → v.queue j = s.queue j ∧ v.under j = s.under j) ∧
  (∀ (s v : State) (t : Nat) (q : QCell), s.under (queueFor t q) ≠ [] → s.place t q = (true, v) →
    v.queue (queueFor t q) = s.queue (queueFor t q) ∧
      ∃ b, v.under (queueFor t q) = s.under (queueFor t q) ++ [{ q with home := b }]) ∧
  (∀ (s : State) (t k n : Nat), (∀ q ∈ s.under k, q.lost = false ∧ s.aged q = false ∧
      ¬ (q.cls = clsOrd ∧ s.frames.aborted.contains q.frame = true)) →
    (s.readBack t k n).queue k ++ (s.readBack t k n).under k = s.queue k ++ s.under k ∧
    ∀ j, j ≠ k → (s.readBack t k n).queue j = s.queue j ∧ (s.readBack t k n).under j = s.under j)

/-! ## Time and tide tables -/

/-- O34. TIME_ADJUST by the state of the clock (R299): accepted in UNSET, HOLDOVER and HOST; BUSY with detail 2 in
TRACKING and LOCKED; and BAD_PARAM for a base rate out of bounds. -/
def Obligations.TimeAdjustByState : Prop :=
  ∀ (s : State) (iss : Issuer) (i : Nat) (e : CmdEntry) (flags : Byte) (delta : BitVec 64) (base : BitVec 32),
    Waits s (.timeAdjust iss flags 0 delta base) i e → flags.toNat < 4 →
    let inBounds := decide (-274877906 ≤ base.toInt ∧ base.toInt ≤ 274877906)
    (flags.getLsbD 1 = true → inBounds = false →
      exec (.timeAdjust iss flags 0 delta base) s = .next (s.ends i e stBadParam 12 [])) ∧
    (flags.getLsbD 1 = false ∨ inBounds = true → s.fnDown fidTime = false →
      (s.time.clock = .tracking ∨ s.time.clock = .locked →
        exec (.timeAdjust iss flags 0 delta base) s = .next (s.ends i e stBusy 2 [])) ∧
      (s.time.clock = .unset ∨ s.time.clock = .holdover ∨ s.time.clock = .host →
        ∃ (t : State) (res : List Byte), exec (.timeAdjust iss flags 0 delta base) s = .next (t.ends i e stOk 0 res)))

/-- O35. The other time commands and the rows of the time unit complete (R295, R298, R300, R304, R305, R317, R616): a
slew ends exactly, PPS_OUT rises and falls, a message is sent or judged, a lost source is let go, and a launch leaves
at its time or is counted as missed. FLAGS 0 of TIME_ADJUST, the sources of PTP_CONFIG (note 43), the bytes of
messages (note 68), and the clock brought to a moment (note 2) are the model's. -/
def Obligations.TimeCommandsComplete : Prop :=
  (∀ (s : State) (iss : Issuer) (i : Nat) (e : CmdEntry) (flags : Byte) (delta : BitVec 64) (base : BitVec 32),
     Waits s (.timeAdjust iss flags 0 delta base) i e → flags.toNat < 4 →
     let u : State := { s with time := { s.time with
       clock := .host, base := if flags.getLsbD 1 then base.toInt else s.time.base } }
     flags.getLsbD 1 = false ∨ (-baseMax ≤ base.toInt ∧ base.toInt ≤ baseMax) → s.fnDown fidTime = false →
     s.time.clock = .unset ∨ s.time.clock = .holdover ∨ s.time.clock = .host →
     (flags.getLsbD 0 = false → exec (.timeAdjust iss flags 0 delta base) s = .next
       (u.ends i e stOk 0 ([2, 0, 0, 0] ++ beBytes 8 u.slewEnd))) ∧
     (flags.getLsbD 0 = true → ∀ stepped v, u.correct (delta.toInt * 2 ^ 40) = (stepped, v) →
       exec (.timeAdjust iss flags 0 delta base) s = .next
         (v.ends i e stOk 0 ([if stepped then 0 else 1, 0, 0, 0] ++ beBytes 8 v.slewEnd)))) ∧
  (∀ (s : State) (iss : Issuer) (i : Nat) (e : CmdEntry), Waits s (.timeRead iss) i e → s.fnDown fidTime = false →
    exec (.timeRead iss) s = .next (s.ends i e stOk 0
      (beBytes 8 s.ptpNs ++ beBytes 4 s.ptpFrac ++ beBytes 8 s.now ++ beBytes 4 s.freeFrac ++
        signedBytes 4 s.time.rateUnits ++ beBytes 1 s.time.clock.code ++ [0, 0, 0]))) ∧
  (∀ (s : State) (iss : Issuer) (i : Nat) (e : CmdEntry) (domain flags a b c p1 p2 : Byte)
    (asym : List (BitVec 16 × BitVec 48)), Waits s (.ptpConfig iss domain flags a b c p1 p2 0 asym) i e → (asym.map fun x => x.1.toNat).Nodup →
    (∀ x ∈ asym, x.1.toNat ∈ s.sources) → asym.length = s.sources.length → s.fnDown fidTime = false → flags.toNat < 4 →
    (logOk a 2).1 = true → (logOk b 3).1 = true → (logOk c 4).1 = true →
    exec (.ptpConfig iss domain flags a b c p1 p2 0 asym) s = .next
      (({ s with ptp := { s.ptp with config := ⟨domain.toNat, flags.getLsbD 0, flags.getLsbD 1, a.toInt, b.toInt, c.toInt,
        p1.toNat, p2.toNat, asym.foldl (fun m x => m.setD x.1.toNat 0 x.2) []⟩ } } : State).ends i e stOk 0 [])) ∧
  (∀ (s : State) (iss : Issuer) (i : Nat) (e : CmdEntry) (first count : Byte), Waits s (.tsQueueRead iss first count 0) i e → 1 ≤ count.toNat →
    count.toNat ≤ 16 → first.toNat + count.toNat ≤ 64 →
    let ts := rangeFrom first.toNat count.toNat
    (∀ t ∈ ts, s.fnDown (fidTile t) = false) →
    exec (.tsQueueRead iss first count 0) s = .next
      (({ s with time := { s.time with stamps := ts.foldl (fun m t => m.del t) s.time.stamps } } : State).ends i e stOk 0
        (ts.flatMap fun t => beBytes 1 t ++ beBytes 1 (b2n (s.stamps t).overflow) ++ beBytes 1 (s.stamps t).entries.length ++
          [0] ++ (s.stamps t).entries.flatMap TimeStamp.bytes))) ∧
  (∀ (s : State) (iss : Issuer) (i : Nat) (e : CmdEntry) (lane ident : BitVec 16) (flags : Byte) (t : BitVec 64)
    (data : List Byte), Waits s (.timedLaunch iss lane ident flags 0 t (BitVec.ofNat 16 data.length) 0 data) i e →
    s.configured lane.toNat = true → flags.toNat < 2 →
    s.startingReceipt i + 2000 ≤ t.toNat → t.toNat ≤ s.startingReceipt i + 10000000000 → s.schedWindow lane.toNat t.toNat = none →
    (∀ f ∈ s.timeFailed, s.fnDown f = false) → s.fnDown (fidTile (tileOf lane.toNat)) = false → (s.launches (tileOf lane.toNat)).length < 4096 →
    let queued (l : Launch) : State := (s.setLaunches (tileOf lane.toNat)
      (insertBy Launch.at_ l (s.launches (tileOf lane.toNat)))).ends i e stOk 0 []
    (s.isC lane.toNat = false → 60 ≤ data.length → data.length ≤ 8928 →
      exec (.timedLaunch iss lane ident flags 0 t (BitVec.ofNat 16 data.length) 0 data) s =
        .next (queued ⟨lane.toNat, ident.toNat, flags.getLsbD 0, t.toNat, [], data, 0⟩)) ∧
    (s.isC lane.toNat = true → data.length % 80 = 0 → 80 ≤ data.length → data.length ≤ 8880 →
      exec (.timedLaunch iss lane ident flags 0 t (BitVec.ofNat 16 data.length) 0 data) s =
        .next (queued ⟨lane.toNat, ident.toNat, flags.getLsbD 0, t.toNat, cellsOf data, [], 0⟩))) ∧
  (∀ (s : State) (sl : Slew), s.time.slew = some sl →
    exec .slewEnd s = .next { s with time := { s.time.advance sl.cycles with slew := none } }) ∧
  (∀ s : State, s.time.clock ≠ .unset → s.boot.phase ≠ .reset →
    let u := s.advancePtp ((s.ptpNs / 1000000000 + 1) * 1000000000)
    exec .ppsPulse s = .next { u with pins := { u.pins with ppsOut := true, ppsFall := u.now + 100000 } }) ∧
  (∀ s : State, s.pins.ppsOut = true →
    let u := s.advanceTo s.pins.ppsFall
    exec .ppsPulseEnd s = .next { u with pins := { u.pins with ppsOut := false } }) ∧
  (∀ (s : State) (p : Lane) (k : PtpKind), s.boot.phase = .done → s.fnDown fidTime = false → s.mayPtp p.val k = true →
    exec (.ptpMessageSend p k) s = .next ((s.ptpDue p.val k).sendPtp p.val k 0 0 0)) ∧
  (∀ (s : State) (p : Lane) (m : PtpMsg), s.boot.phase = .done → s.fnDown fidTime = false → s.hearsPort p.val = true → s.runsPtp p.val = true →
    m.domain.toNat = s.ptp.config.domain →
    (m.kind = .delayReq → exec (.ptpMessageReceive p m) s = .next (s.bump .tilePortClassDrops [tileOf p.val, slotOf p.val])) ∧
    (m.kind = .announce → s.sources.contains p.val = true → exec (.ptpMessageReceive p m) s = .next
      ((s.setPtpPort p.val fun x => { x with data := some (m.announce, m.sender), lastAnnounce := s.now }).select)) ∧
    (m.kind = .sync → s.sources.contains p.val = true → m.twoStep = false → exec (.ptpMessageReceive p m) s = .next
      ((s.setPtpPort p.val fun x => { x with lastSync := s.now, sync := none }).measure p.val (PtpMsg.stamp m) s.ptpNs
        (signed m.correction) m)) ∧
    (m.kind = .sync → s.sources.contains p.val = true → m.twoStep = true → exec (.ptpMessageReceive p m) s = .next
      (s.setPtpPort p.val fun x => { x with lastSync := s.now, sync := some (m.seq, s.ptpNs, (signed m.correction)) })) ∧
    (∀ q t2 c, m.kind = .followUp → (s.ptpPort p.val).sync = some (q, t2, c) → s.sources.contains p.val = true → q = m.seq →
      exec (.ptpMessageReceive p m) s = .next
        ((s.setPtpPort p.val fun x => { x with sync := none }).measure p.val (PtpMsg.stamp m) t2 (c + (signed m.correction)) m))) ∧
  (∀ (s : State) (b : Bool) (p : Nat) (d : BitVec 64), s.ptp.selected = some (p, d) →
    exec (.announceTimeout b) s = .next (
      let u := ((s.advanceTo (s.sourceDue p b)).holdover (b2n b)).setPtpPort p fun x => { x with data := none, measured := false }
      ({ u with ptp := { u.ptp with selected := none } } : State).select)) ∧
  (∀ (s : State) (t : Tile) (l : Launch) (rest : List Launch), s.launches t.val = l :: rest →
    let u := s.advancePtp l.at_
    (∀ e, u.schedWindow l.lane l.at_ = some e →
      exec (.timedLaunchDue t) s = .next (u.setLaunches t.val (insertBy Launch.at_ { l with at_ := e } rest))) ∧
    (u.schedWindow l.lane l.at_ = none →
      ((u.setLaunches t.val rest).portUp l.lane = true →
        exec (.timedLaunchDue t) s = .next ((u.setLaunches t.val rest).launchNow l)) ∧
      ((u.setLaunches t.val rest).portUp l.lane = false → exec (.timedLaunchDue t) s = .next
        (((u.setLaunches t.val rest).bump .tileLaunchMissed [t.val]).raiseEv 0x0402 1 (fidTile t.val)
          (beBytes 2 l.lane ++ beBytes 2 l.ident ++ beBytes 8 l.at_)))))

/-- O36. The counter C moves only forward (R291): bringing the clock forward to a moment never sets it back, and the
free-running count reaches that moment unless C's 96 bits have run out. Bringing the clock forward is the model's
device (note 2). -/
def Obligations.ClockMovesForward : Prop :=
  ∀ (s : State) (ns : Nat), ns < 2 ^ 64 →
    s.now ≤ (s.advanceTo ns).now ∧ ns ≤ (s.advanceTo ns).now ∧ (s.advanceTo ns).now ≤ max s.now ns ∧
    (s.advanceTo ns).regs = s.regs ∧ (s.advanceTo ns).gen = s.gen

/-- O37. The tide commands complete (R307, R313 to R316): a table set is staged whole or not at all, a commit waits as
PENDING, and a cancel drops the staged set. The rows of a commit complete (R310 to R315): a set that fails a check
ends the commit with its status and takes no effect; one that passes waits for each table's first boundary, and there
the table takes the place of the one before. The reasons that a refusal records, and the lateness of IMMEDIATE, are
the model's readings (notes 44, 45); the clock is brought to a moment (note 2). -/
def Obligations.TideCommandsComplete : Prop :=
  (∀ (s : State) (iss : Issuer) (i : Nat) (e : CmdEntry) (handle : BitVec 16) (met : List BlockErr) (o : Obj),
    Waits s (.tideLoad iss handle 0 met) i e →
    s.objOf (s.slot i).number handle.toNat = some o → s.objBusy handle.toNat = false → o.sealed = true → o.type = 3 →
    (s.readObject handle.toNat 0 o.length met).1 = false → (∀ f ∈ s.timeFailed, s.fnDown f = false) → s.tide.commit = none →
    let u := (s.readObject handle.toNat 0 o.length met).2
    (∀ ps, u.tideSet o = .inr ps → exec (.tideLoad iss handle 0 met) s = .next
      (({ u with tide := { u.tide with staged := some ps, spoilt := false } } : State).ends i e stOk 0
        (beBytes 2 ps.length ++ [0, 0] ++ beBytes 4 (windowsIn ps)))) ∧
    (∀ f, u.tideSet o = .inl f → exec (.tideLoad iss handle 0 met) s = .next
      (({ u with tide := { u.tide with reason := 7, index := f } } : State).ends i e stBadParam 0xFFFF []))) ∧
  (∀ (s u : State) (iss : Issuer) (i : Nat) (e : CmdEntry) (lane : BitVec 16) (t : TidePort) (h : Nat), Waits s (.tideRead iss 0 0 lane) i e →
    s.configured lane.toNat = true → s.tide.active.find lane.toNat = some t →
    s.resultObject (s.slot i).number t.encode = some (h, u) →
    exec (.tideRead iss 0 0 lane) s = .next (u.ends i e stOk 0 (beBytes 2 h ++ [0, 0]))) ∧
  (∀ (s : State) (iss : Issuer) (i : Nat) (e : CmdEntry) (flags : Byte) (a : BitVec 64) (ps : List TidePort),
    Waits s (.tideCommit iss flags 0 a) i e → flags.toNat < 2 → s.fnDown fidTime = false → s.tide.commit = none → s.tide.staged = some ps →
    exec (.tideCommit iss flags 0 a) s = .next
      (({ s with tide := { s.tide with
        commit := some ⟨a.toNat, flags.getLsbD 0, (s.slot i).number, iss.tag, false, [], 0, 0⟩ } } : State).pendCmd i e []
          .tideCommit)) ∧
  (∀ (s : State) (iss : Issuer) (i : Nat) (e : CmdEntry) (ps : List TidePort), Waits s (.tideCancel iss) i e → s.tide.commit = none →
    s.tide.staged = some ps →
    exec (.tideCancel iss) s = .next
      (({ s with tide := { s.tide with staged := none, spoilt := false } } : State).ends i e stOk 0 [])) ∧
  (∀ (s : State) (c : Commit) (set : List TidePort), s.tide.commit = some c → s.tide.staged = some set → c.checked = false →
    (s.tide.spoilt = true →
      exec .tideCheckEnd s = .next (s.refuseCommit stBadParam 0xFFFF s.tide.reason s.tide.index)) ∧
    (s.tide.spoilt = false → ((enginesOf (s.tablesAfter set)).all fun e => sameK (s.tablesAfter set) e) = true →
      (enginesOf (s.tablesAfter set)).findSome? (s.causewayCheck (s.tablesAfter set)) = none →
      (∀ pos why, s.deadline (s.tablesAfter set) = some (pos, why) → exec .tideCheckEnd s = .next
        ((s.bump .tideRefusals []).refuseCommit stRefusedDeadline pos why pos)) ∧
      (∀ w ws, s.deadline (s.tablesAfter set) = none →
        let a := if c.immediate then s.ptpNs else c.a
        s.boundaries set (max a s.ptpNs) = w :: ws →
        exec .tideCheckEnd s = .next { s with tide := { s.tide with commit := some { c with
          a := a, checked := true, waiting := w :: ws, earliest := ws.foldl (fun m x => min m x.2) w.2
          changed := ws.length + 1 } } }))) ∧
  (∀ (s : State) (c : Commit) (p : Lane) (t : TidePort) (at_ : Nat) (w : TidePort × Nat) (ws : List (TidePort × Nat)),
    s.tide.commit = some c → c.waiting.find? (fun w => decide (w.1.lane = p.val)) = some (t, at_) →
    c.waiting.filter (fun w => decide (w.1.lane ≠ p.val)) = w :: ws → t.k ≠ 0 →
    ((w :: ws).any fun w => decide (w.2 = at_ ∧ engineOf w.1.lane = engineOf p.val)) = true →
    let u := s.advancePtp at_
    exec (.tideActivation p) s = .next { u with tide := { u.tide with
      active := u.tide.active.put p.val t, commit := some { c with waiting := w :: ws } } }) ∧
  (∀ (s : State) (p : Lane) (tp : TidePort) (t : Nat) (ts : List Nat), s.tide.active.find p.val = some tp →
    ((tp.windows.flatMap fun w => [w.start, w.start + w.len]).map fun e => nextAt tp.k e (s.ptpNs + 1)) = t :: ts →
    exec (.tideWindowBoundary p) s = .next (s.advancePtp (ts.foldl min t)))

/-! ## Causeway and Swell -/

/-- O38. The causeway's commands and rows complete (R474 to R484, R501). CSW_CIRCUIT set is answered when the change
it starts has ended. The paths of the causeway follow their pilot and their light (R485, R486): each change has its
count, and a path that leaves OPEN raises PATH_CHANGE. That CSW_CIRCUIT is answered at the end of the change is the
model's reading (note 51); the clock is brought to a moment (note 2). -/
def Obligations.CausewayCompletes : Prop :=
  (∀ (s : State) (iss : Issuer) (i : Nat) (e : CmdEntry) (engine : Byte), Waits s (.cswStatus iss engine 0) i e → engine.toNat < 16 →
    s.fnDown (fidOe engine.toNat) = false →
    exec (.cswStatus iss engine 0) s = .next (s.ends i e stOk 0 (beBytes 1 (s.cswMode engine.toNat) ++ [0, 0, 0] ++
      (rangeFrom (128 * engine.toNat) 128).flatMap fun k => beBytes 4 (s.cswPath k)))) ∧
  (∀ (s : State) (iss : Issuer) (i : Nat) (e : CmdEntry) (mask a b : Byte), a.toNat / 16 = b.toNat / 16 → a ≠ b → s.fnDown (fidOe (a.toNat / 16)) = false → (s.entry a.toNat).state = 1 →
    (s.entry b.toNat).state = 1 → s.scheduled (a.toNat / 16) = false →
    (∀ l, s.layout a.toNat = some l → maskWhole l mask.toNat = true) →
    (∀ l, s.layout b.toNat = some l → maskWhole l mask.toNat = true) →
    let c : CircuitEntry := ⟨mask.toNat, a.toNat, b.toNat⟩
    let gone := (c.paths.filter fun p => match s.csw.paths.find p.1 with
      | some q => decide (q.src = p.2 % 16)
      | none => false).map (·.1)
    (Waits s (.cswCircuit iss 0 mask a b) i e → exec (.cswCircuit iss 0 mask a b) s = .next
      ((if gone.isEmpty then s else s.startChange (a.toNat / 16) [] gone).ends i e stOk 0 [0, 0, 0, 0])) ∧
    (Waits s (.cswCircuit iss 1 mask a b) i e → (∀ l ∈ c.lanes, s.csw.lanes.contains l = false) →
      let set := c.paths.map fun p => (p.1, CswPath.set (p.2 % 16) true 0)
      (set = [] → exec (.cswCircuit iss 1 mask a b) s = .next (s.ends i e stOk 0 [0, 0, 0, 0])) ∧
      (set ≠ [] → exec (.cswCircuit iss 1 mask a b) s = .next
        ((c.lanes.foldl State.divertLane (s.startChange (a.toNat / 16) set [])).holdCmd i e
          (.cswCircuit (a.toNat / 16) (set.map (·.1))))))) ∧
  (∀ (s : State) (l : Lane), (s.lane l.val).diverted = false →
    (s.divLeft l.val s.ptpNs ≠ [] → exec (.laneDivertStart l) s = .next (s.divertLane l.val)) ∧
    (∀ t, s.divLeft l.val s.ptpNs = [] → earliest ((s.divOf l.val).map fun d => nextAt d.1 d.2.1 s.ptpNs) = some t →
      exec (.laneDivertStart l) s = .next ((s.advancePtp t).divertLane l.val))) ∧
  (∀ (s : State) (l : Lane) (b : Bool), (s.lane l.val).diverted = true → s.csw.lanes.contains l.val = false →
    s.divLeft l.val s.ptpNs = [] →
    let u := (s.undivertLane l.val).restartWindow (engineOf l.val) (ringOf l.val .rx)
    exec (.laneDivertEnd l b) s = .next (if b then u.loseRing (engineOf l.val) (ringOf l.val .rx) else u)) ∧
  (∀ (s : State) (e : Engine), s.fnDown (fidOe e.val) = false → (s.oe e.val).ready = true → ∃ t, exec (.causewayChange e) s = .next t ∧
    t.nvm = s.nvm ∧ t.gen = s.gen ∧ ∀ d a, s.nextAction e.val = some (d, a) → t.csw.last.find e.val = some d) ∧
  (∀ (s : State) (e : Engine) (cap : List (Fin 2304 × BitVec 12)) (at_ : Nat), s.csw.changes.find e.val = some at_ →
    at_ + 40000 < 2 ^ 64 →
    let u := s.advanceTo (at_ + 40000)
    let v : State := { u with csw := { u.csw with changes := u.csw.changes.del e.val } }
    exec (.causewayChangeEnd e cap) s = .next ((((v.csw.paths.filter fun p => decide (p.1 / 128 = e.val)).map (·.1)).foldl
      (fun s k => s.endPath cap k) v).endCircuits e.val) ∧
    ∃ t, exec (.causewayChangeEnd e cap) s = .next t ∧ t.csw.changes.find e.val = none ∧ at_ + 40000 ≤ t.now) ∧
  (∀ (s : State) (e : Engine) (p : Fin 128) (x : CswPath), s.csw.paths.find (128 * e.val + p.val) = some x →
     let k := 128 * e.val + p.val
     (x.st = .opened → exec (.ringLockLoss (.path e p)) s =
       .next ((s.bump .cswLockFaults []).movePath k fun y => { y with st := .faulted, fails := 0 })) ∧
     (x.st = .dark → s.boot.phase ≠ .reset → exec (.lightPresent (.path e p)) s =
       .next (s.movePath k fun y => { y with st := .switching, relit := true })) ∧
     (∀ win : PilotWindow,
       let u := s.advanceTo x.window.1
       let next := u.windowFrom (k / 128) (k % 8)
       let found (y : CswPath) : CswPath := { y with found := dominant win, window := next }
       let right := confirms win x.window.2
       let ends (v : State) : Prop := exec (.pilotWindowEnd (.path e p) win) s = .next v
       (x.st = .waitPilot → right = true → ends (u.movePath k fun y => { found y with st := .opened, fails := 0 })) ∧
       (x.st = .waitPilot → right = false → ends (u.movePath k found)) ∧
       (x.st = .opened → right = true → ends (u.movePath k fun y => { found y with fails := 0 })) ∧
       (x.st = .opened → right = false → clearWin win = true →
         ends ((u.bump .cswPilotFaults []).movePath k fun y => { found y with st := .faulted, fails := 0 })) ∧
       (x.st = .opened → clearWin win = false → x.fails = 0 → ends (u.movePath k fun y => { found y with fails := 1 })) ∧
       (x.st = .opened → clearWin win = false → x.fails ≠ 0 →
         ends (u.movePath k fun y => { found y with st := .waitPilot, fails := 0 }))) ∧
     (∀ g : CswPath → CswPath, (g x).st = x.st ∨ x.st ≠ .opened →
       s.movePath k g = { s with csw := { s.csw with paths := s.csw.paths.put k (g x) } }) ∧
     (∀ g : CswPath → CswPath, x.st = .opened → (g x).st ≠ .opened → s.movePath k g =
       ({ s with csw := { s.csw with paths := s.csw.paths.put k (g x) } } : State).raiseEv 0x0E01 2 (fidOe e.val) (beBytes 1 e.val ++
         beBytes 1 (p.val / 8) ++ beBytes 1 (p.val % 8) ++ beBytes 1 (g x).st.code ++ beBytes 1 (g x).found)))

/-- O39. Swell's commands and rows complete (R483 to R503). Which pending calibration a timeout ends is the model's
reading (note 51). -/
def Obligations.SwellCompletes : Prop :=
  (∀ (s : State) (iss : Issuer) (i : Nat) (e : CmdEntry) (mask : BitVec 16), Waits s (.swlCalibrate iss mask 0) i e →
    (∀ f ∈ (maskBits 16 mask.toNat).map fidOe, s.fnDown f = false) → maskBits 16 mask.toNat ≠ [] →
    let left := s.swl.accrued.filter fun p =>
      s.calAsked.contains (p.1 / 8) || !(maskBits 16 mask.toNat).contains (p.1 / 8)
    exec (.swlCalibrate iss mask 0) s = .next
      (({ s with swl := { s.swl with accrued := left } } : State).pendCmd i e [] (.swlCalibrate mask.toNat s.now))) ∧
  (∀ (s : State) (iss : Issuer) (i : Nat) (e : CmdEntry) (fibre count : BitVec 16), Waits s (.swlDeskewRead iss fibre count) i e →
    1 ≤ count.toNat → count.toNat ≤ 64 → fibre.toNat + count.toNat ≤ 256 →
    exec (.swlDeskewRead iss fibre count) s = .next (s.ends i e stOk 0
      ((rangeFrom fibre.toNat count.toNat).flatMap fun f => beBytes 2 f ++ [0, 0] ++ (rangeFrom (8 * f) 8).flatMap fun l =>
        beBytes 4 (s.swl.lanes.getD l SwlLane.init).deskew ++ beBytes 4 (s.swl.lanes.getD l SwlLane.init).laneWord))) ∧
  (∀ (s : State) (e : Engine) (w : Fin 8) (present : List Lane) (t : Nat) (x : PlacedWin),
    s.swl.insts.find (e.val * 8 + w.val) = none → s.nextSwell e.val w.val = some (t, x) →
    ∃ u v, exec (.swellInstanceStart e w present) s = .next u ∧ u.swl.insts.find (e.val * 8 + w.val) = some v ∧
      v.start = t ∧ v.len = x.w.len ∧ u.nvm = s.nvm ∧ u.gen = s.gen ∧ u.est = s.est) ∧
  (∀ (s : State) (ins : List SwellInput) (bursts : List SwellBurst) (k : Nat) (x : SwlInst), s.swl.insts = [(k, x)] →
    ∃ u, exec (.swellInstanceEnd ins bursts) s = .next u ∧ u.swl.insts = [] ∧ u.nvm = s.nvm) ∧
  (∀ (s : State) (e : Engine) (d : SwlCal), s.swl.cals.find e.val = some d → s.regBits .swlCal [] 31 31 = 0 →
    let u := if s.drifted e.val d 2 then s else s.advanceTo (d.at_ + 2 * (s.regBits .swlCal [] 15 0 * 500000000))
    exec (.swlCalibrationExpiry e false) s = .next { u with swl := { u.swl with cals := u.swl.cals.del e.val } }) ∧
  (∀ s : State, s.calWaits = [] → exec .swlCalibrateTimeout s = .next s) ∧
  (∀ (s : State) (m t : Nat), s.calWaits = [(m, t)] →
    let u := s.advanceTo (t + 10000000000)
    exec .swlCalibrateTimeout s = .next ((u.endJobs (fun j => decide (j = .swlCalibrate m t))
      ⟨stNoResource, ((maskBits 16 m).find? fun e => !u.calAccrued e).getD 0, []⟩).judgeCals))

/-! ## The Estuary and the Breakwater -/

/-- O40. The group commands complete (R347 to R351, R377, R379, R380): a group is made from its parameters, and the
others read or change one group; a destruction ends the group's live contexts as ABORTED, takes its triggers out, and
waits as PENDING until its contexts are FREE (R351). That a WEIGHT of 0 gives 16 is the model's choice (note 47). -/
def Obligations.GroupCommandsComplete : Prop :=
  (∀ (s : State) (iss : Issuer) (i : Nat) (e : CmdEntry) (group m : BitVec 16) (weight : Byte) (base count : BitVec 32)
    (members : List Word), Waits s (.groupCreate iss group weight 0 base count m 0 members) i e → group.toNat < 8192 →
    s.est.groups.find group.toNat = none → s.rangeOk base.toNat count.toNat 1 = true → 1 ≤ m.toNat → m.toNat ≤ 2048 →
    (∀ c ∈ recordChecks 16 members [], c.1 = true) → s.rangeBusy base.toNat count.toNat = false →
    s.memberRecords + m.toNat ≤ 1048576 →
    let g : Group :=
      { weight := if weight = 0 then 16 else weight.toNat, base := base.toNat, count := count.toNat, m := m.toNat,
        records := members.map freshRecord, destroying := none, recorded := 0, hist := [], lastCount := [], lateSum := [] }
    let sets := s.tel.sets.filter fun e => decide (e.1 / (64 * 2 ^ 22) ≠ 5 ∨ e.1 / 64 % 2 ^ 22 ≠ group.toNat)
    exec (.groupCreate iss group weight 0 base count m 0 members) s = .next
      (({ s with est := { s.est with groups := s.est.groups.put group.toNat g }, tel := { s.tel with sets := sets } } :
        State).ends i e stOk 0 [])) ∧
  (∀ (s : State) (iss : Issuer) (i : Nat) (e : CmdEntry) (group : BitVec 16) (g : Group), s.groupOf group.toNat = some g →
    (Waits s (.groupDestroy iss group 0) i e →
      let t := (s.liveIn g.base g.count).foldl (fun s x => s.endCtx x .aborted 5 0) s
      let triggers := t.est.triggers.filter fun e => !decide (g.base ≤ e.2.ctx ∧ e.2.ctx < g.base + g.count)
      let u : State := { t with est := { t.est with
        triggers := triggers
        groups := t.est.groups.upd group.toNat fun y => { y with destroying := some (s.liveIn g.base g.count).length } } }
      exec (.groupDestroy iss group 0) s = .next ((u.pendCmd i e [] (.groupDestroy group.toNat)).judgeDestroys)) ∧
    (∀ first count : BitVec 16, Waits s (.groupQuery iss group first count 0) i e → first.toNat < g.m → 1 ≤ count.toNat →
      first.toNat + count.toNat ≤ g.m → count.toNat ≤ 2048 →
      exec (.groupQuery iss group first count 0) s = .next (s.ends i e stOk 0
        (beBytes 1 g.weight ++ [0] ++ beBytes 2 g.m ++ beBytes 4 g.base ++ beBytes 4 g.count ++
          beBytes 4 (s.heldIn g.base g.count) ++ ((g.records.drop first.toNat).take count.toNat).flatMap (bvBytes 4)))) ∧
    (∀ weight : Byte, Waits s (.groupWeight iss group weight 0) i e → weight ≠ 0 →
      let gs := s.est.groups.upd group.toNat fun g => { g with weight := weight.toNat }
      exec (.groupWeight iss group weight 0) s = .next
        (({ s with est := { s.est with groups := gs } } : State).ends i e stOk 0 [])) ∧
    (Waits s (.ebbRead iss group 0 0) i e →
      ∃ res, exec (.ebbRead iss group 0 0) s = .next (s.ends i e stOk 0 res) ∧
        res.take 68 = beBytes 4 g.recorded ++ (List.range 16).flatMap (fun i => bvBytes 4 (g.hist.getD i 0)) ∧
        res.length = 196) ∧
    (Waits s (.ebbRead iss group 1 0) i e →
      let gs := s.est.groups.put group.toNat { g with recorded := 0, hist := [], lastCount := [], lateSum := [] }
      ∃ res, exec (.ebbRead iss group 1 0) s = .next
          (({ s with est := { s.est with groups := gs } } : State).ends i e stOk 0 res) ∧
        res.take 68 = beBytes 4 g.recorded ++ (List.range 16).flatMap (fun i => bvBytes 4 (g.hist.getD i 0)) ∧
        res.length = 196))

/-- O41. The context commands and the triggers' commands complete (R394 to R396, R405 to R408, R414, R415). An abort
that comes at the moment at which the context's work is complete finds it completed. The Breakwater's commands
complete (R417 to R421, R436). A group's number of creations stays at all ones (R16). What an entry that is not valid
holds is free (note 49). -/
def Obligations.ContextAndCodingCommandsComplete : Prop :=
  (∀ (s : State) (iss : Issuer) (i : Nat) (e : CmdEntry) (ctx : BitVec 32) (first count : BitVec 16) (met : List BlockErr),
    Waits s (.ctxQuery iss ctx first count met) i e → ctx.toNat < 2097152 → count.toNat ≤ 128 →
    let ms := rangeFrom first.toNat count.toNat
    ∃ t res, exec (.ctxQuery iss ctx first count met) s = .next (t.ends i e stOk 0 res) ∧ res.length = 128 + 48 * count.toNat ∧
      (∀ k g, s.codingAt ctx.toNat = some (k, g) → g.base = ctx.toNat →
        t = s ∧ res = 7 :: List.replicate (127 + 48 * count.toNat) 0) ∧
      ((∀ k g, s.codingAt ctx.toNat = some (k, g) → g.base ≠ ctx.toNat) →
        (s.queried ctx.toNat = none → t = s ∧ res = List.replicate (128 + 48 * count.toNat) 0) ∧
        ∀ x c, s.queried ctx.toNat = some (x, c) → t = s.queryLines x c ms met ∧
          let d := (t.ctx x).getD c
          res = d.header x (decide (x ≠ ctx.toNat ∧ d.st ≠ .free)) ++ ms.flatMap d.entry)) ∧
  (∀ (s : State) (iss : Issuer) (i : Nat) (e : CmdEntry) (ctx : BitVec 32) (c : Ctx), Waits s (.ctxAbort iss ctx) i e →
    s.ctx ctx.toNat = some c → c.st.live = true →
    (c.completes s.now = false → exec (.ctxAbort iss ctx) s = .next
      (((s.endCtx ctx.toNat .aborted 22 0).settle).ends i e stOk 0 (beBytes 1 c.st.code ++ [0, 0, 0]))) ∧
    (c.completes s.now = true → exec (.ctxAbort iss ctx) s = .next (s.ends i e stBadParam 0 []))) ∧
  (∀ (s : State) (iss : Issuer) (i : Nat) (e : CmdEntry) (group count : BitVec 16) (g : Group) (ms : List (BitVec 16))
    (met : List BlockErr), s.groupOf group.toNat = some g → 1 ≤ count.toNat → count.toNat ≤ 1024 → (∀ m ∈ ms, m.toNat < g.m) →
    let names := ms.map (·.toNat)
    let marked (f : Word → Word) : State :=
      let g' : Group := { g with records := g.records.mapIdx fun i r => if names.contains i then f r else r }
      { s with est := { s.est with groups := s.est.groups.put group.toNat g' } }
    let out := marked fun r => r ||| 0x10000000
    let excl (u : State) (xs : List Nat) := (u.readMembers (u.excludable xs names) names met).excludeAll xs names
    (Waits s (.memberExclude iss group 1 0 0 count 0 ms met) i e →
      exec (.memberExclude iss group 1 0 0 count 0 ms met) s = .next
      ((marked fun r => r &&& 0xEFFFFFFF).ends i e stOk 0 (List.replicate 8 0))) ∧
    (Waits s (.memberExclude iss group 0 0 0 count 0 ms met) i e →
      let r := excl out (s.liveIn g.base g.count)
      exec (.memberExclude iss group 0 0 0 count 0 ms met) s =
        .next (r.2.2.settle.ends i e stOk 0 (beBytes 4 r.1 ++ beBytes 4 r.2.1))) ∧
    (∀ (x : BitVec 32) (c : Ctx), Waits s (.memberExclude iss group 2 0 x count 0 ms met) i e → g.base ≤ x.toNat →
      x.toNat < g.base + g.count → s.ctx x.toNat = some c → c.st.live = true →
      let r := excl s [x.toNat]
      exec (.memberExclude iss group 2 0 x count 0 ms met) s =
        .next (r.2.2.settle.ends i e stOk 0 (beBytes 4 r.1 ++ beBytes 4 r.2.1)))) ∧
  (∀ (s : State) (xs ms : List Nat),
    let hit := xs.filter fun x => ((s.ctx x).map fun c => c.st.live && ms.any fun m => !(c.member m).excluded).getD false
    let t := hit.foldl (fun s x => s.excludeIn x ms) s
    let ended := hit.filter fun x => ((s.ctx x).bind fun c => (t.ctx x).map fun d =>
      d.st.terminal || (d.contributed && !c.contributed)).getD false
    s.excludeAll xs ms = (hit.length, ended.length, t)) ∧
  (∀ (s : State) (iss : Issuer) (i : Nat) (e : CmdEntry) (kind : Byte) (items : List TrigItem), Waits s (.triggerWrite iss kind 0 (BitVec.ofNat 16 items.length) items) i e →
    kind.toNat ≤ 2 → items.length < 65536 → (kind = 0 → items.length ≤ 1000) → (kind = 1 → items.length ≤ 111) →
    (∀ t ∈ items, t.fits kind = true) →
    (∀ c ∈ items.zipIdx.flatMap fun (t, n) => itemChecks (4 + itemSize kind.toNat * n) t, c.1 = true) →
    exec (.triggerWrite iss kind 0 (BitVec.ofNat 16 items.length) items) s = .next
      ((items.foldl State.applyItem s).ends i e stOk 0 [])) ∧
  (∀ (s : State) (iss : Issuer) (i : Nat) (e : CmdEntry) (count : BitVec 16) (first : BitVec 32), 1 ≤ count.toNat →
    (Waits s (.triggerRead iss 0 0 count first) i e → count.toNat ≤ 1000 → first.toNat + count.toNat ≤ 65536 →
      exec (.triggerRead iss 0 0 count first) s = .next (s.ends i e stOk 0
        ((rangeFrom first.toNat count.toNat).flatMap fun i =>
          beBytes 2 i ++ [0, 0] ++ bvBytes 4 (s.est.counters.getD i 0)))) ∧
    (Waits s (.triggerRead iss 1 0 count first) i e → count.toNat ≤ 111 → first.toNat + count.toNat ≤ 262144 →
      ∃ res n, exec (.triggerRead iss 1 0 count first) s = .next (({ s with free := n } : State).ends i e stOk 0 res) ∧
        ∀ es : List Trigger, (rangeFrom first.toNat count.toNat).map s.est.triggers.find = es.map some →
          n = s.free ∧ res = ((rangeFrom first.toNat count.toNat).zip es).flatMap fun (k, x) =>
            beBytes 4 k ++ beBytes 2 x.counter ++ [0, 0] ++ beBytes 4 x.threshold ++ beBytes 4 x.ctx ++ bvBytes 64 x.desc)) ∧
  (∀ (s : State) (iss : Issuer) (i : Nat) (e : CmdEntry) (group : BitVec 16) (k : Byte) (base count z : BitVec 32)
    (members : List Word), Waits s (.bwkGroupCreate iss group k 0 base count z members) i e → group.toNat < 4096 →
    s.bwk.groups.find group.toNat = none → 2 ≤ k.toNat → k.toNat ≤ 30 → s.codingRange base.toNat count.toNat = true →
    1 ≤ z.toNat → z.toNat ≤ 65536 → (∀ c ∈ recordChecks 16 members [], c.1 = true) → s.fnDown fidBwk = false →
    s.rangeBusy base.toNat count.toNat = false →
    (∀ b < 4, (s.slotsUsed b).length + unitsOn z.toNat b ≤ s.bridgeUnits) →
    let times := min (s.bwk.born.getD group.toNat 0 + 1) 0xFFFF
    let id := s.boot.incarnation.toNat * 2 ^ 32 + group.toNat * 2 ^ 16 + times
    let g : Coding :=
      { k := k.toNat, base := base.toNat, count := count.toNat, z := z.toNat, records := members.map freshRecord, id := id,
        destroying := none, units := [], slots := s.placeUnits z.toNat, homeBad := false }
    exec (.bwkGroupCreate iss group k 0 base count z members) s = .next
      (({ s with bwk := { s.bwk with
          groups := s.bwk.groups.put group.toNat g, born := s.bwk.born.put group.toNat times } } : State).ends i e stOk 0
            (beBytes 8 id))) ∧
  (∀ (s : State) (iss : Issuer) (i : Nat) (e : CmdEntry) (group : BitVec 16) (g : Coding), s.fnDown fidBwk = false →
    s.bwk.groups.find group.toNat = some g →
    (Waits s (.bwkGroupDestroy iss group 0) i e → g.destroying = none →
      let t := (s.liveIn g.base g.count).foldl (fun s x => s.endCtx x .aborted 5 0) s
      let gs := t.bwk.groups.upd group.toNat fun y => { y with destroying := some (s.liveIn g.base g.count).length }
      exec (.bwkGroupDestroy iss group 0) s = .next
        ((({ t with bwk := { t.bwk with groups := gs } } : State).pendCmd i e [] (.bwkDestroy group.toNat)).judgeDestroys)) ∧
    (∀ first count : BitVec 32, Waits s (.bwkQuery iss group 0 first count) i e → first.toNat ≤ g.z → count.toNat ≤ 16384 →
      first.toNat + count.toNat ≤ g.z → ∃ res, exec (.bwkQuery iss group 0 first count) s = .next (s.ends i e stOk 0 res) ∧
        res.take 4 = beBytes 1 g.k ++
          beBytes 1 (b2n (decide (g.count_ .damaged ≠ 0)) + 2 * b2n g.destroying.isSome) ++ [0, 0] ∧
        (res.drop 40).take (4 * g.records.length) = g.records.flatMap (bvBytes 4) ∧
        res.drop (40 + 4 * g.records.length) = packUnits g first.toNat count.toNat))

/-- O42. The Estuary's rows complete (R353, R356 to R372, R386, R387, R391, R399): a slice serves its own queue of the
cell's class, and the timers of a context act on it alone. A coded delta reaches the parity (R412, R428): P gains the
delta by exclusive or, and Q gains the delta scaled by g to the power of the member's position; the parity of every
other chunk stays. Where a block of either cannot be corrected, the unit is damaged. The order of the cache lines, the
links to the bridges and the results that wait for stage 4 are the model's (notes 49, 73, 74); a bridge whose link is
down holds its rows up (note 34); the clock is brought to a timer's moment (note 2). -/
def Obligations.EstuaryRowsComplete : Prop :=
  (∀ (s : State) (t : Tile), exec (.cupReceive t) s = .next (s.serveSlice t.val clsCup) ∧
    exec (.codeReceive t) s = .next (s.serveSlice t.val clsCode)) ∧
  (∀ (s : State) (t : Tile) (q : QCell) (rest : List QCell), s.queue (qKey t.val (qEst clsCtrl)) = q :: rest →
    s.now < q.limit → s.fnDown (fidTile t) = false → s.ctx q.cell.ctx = none →
    let served := s.setQueue (qKey t.val (qEst clsCtrl)) rest
    (ctrlType q.cell = 1 → exec (.openReceive t) s = .next
      ((served.judgeOpenCell q).touchLines t.val q.cell.ctx q.cell.member none).settle) ∧
    (∀ met : List BlockErr, ctrlType q.cell = 2 → ctrlKind q.cell = 1 → exec (.resendReceive t met) s = .next
      ((served.judgeResend q met).touchLines t.val q.cell.ctx q.cell.member none).settle)) ∧
  (∀ (s : State) (x : CtxNum) (c : Ctx), s.ctx x.toNat = some c → c.st.live = true →
    let u := s.advanceTo c.deadline
    (c.completes u.now = false → exec (.contextDeadline x) s = .next ((u.endCtx x.toNat .partialEnd 16 0).settle)) ∧
    (c.completes u.now = true → exec (.contextDeadline x) s = .next ((u.completeNow x.toNat).settle))) ∧
  (∀ (s : State) (x : CtxNum) (c : Ctx), s.ctx x.toNat = some c → c.st.terminal = true →
    exec (.lingerExpiry x) s = .next
      (((s.advanceTo c.lingerEnd).putCtx x.toNat
        { c with st := .free, chunks := [], staging := none, matrix := [], lostCols := [] }).judgeDestroys)) ∧
  (∀ (s : State) (x : CtxNum) (c : Ctx), s.ctx x.toNat = some c → c.st.live = true → c.rounds < 4 →
    let need := c.headLines (List.range c.m)
    let u (met : List BlockErr) := ((s.advanceTo (c.openedAt + dTimeout c.desc * (4 + c.rounds) / 8 * 1000)).readLines
      (homeOf x.toNat 0) x.toNat true need met).1
    (s.linesReady (homeOf x.toNat 0) x.toNat need = true → ∀ met : List BlockErr,
      ((u met).ctx x.toNat = some c → exec (.missingRound x met) s = .next ((u met).missingRound x.toNat c)) ∧
      (((u met).ctx x.toNat).filter (fun d => d.st.live) = none → exec (.missingRound x met) s = .next (u met).settle)) ∧
    (s.linesReady (homeOf x.toNat 0) x.toNat need = false → ∀ met, exec (.missingRound x met) s = .next s)) ∧
  (∀ (s : State) (x : Nat) (c : Ctx),
    let u := s.putCtx x { c with rounds := c.rounds + 1 }
    (c.rounds = 0 → ∀ m ∈ c.activeMembers, (u.recPort (u.memberRec c m)).isSome = true) →
    s.missingRound x c = c.activeMembers.foldl (fun v m => v.sendLack x c c.rounds m) u) ∧
  (∀ (s : State) (x : CtxNum) (c : Ctx) (r : Round), s.ctx x.toNat = some c → c.st = .active → c.nextRound = some r →
    let next := r.start + dRound c.desc * 1000
    let u := (s.advancePtp r.start).putCtx x.toNat { c with current := some r, nextRound := none, ended := r.number }
    exec (.paceRoundStart x) s = .next
      (if c.rem_ = [] then u.lastCells x.toNat (r.number + 1) next else u.planRound x.toNat (r.number + 1) next)) ∧
  (∀ (s : State) (x : CtxNum) (c : Ctx) (r : Round), s.ctx x.toNat = some c → c.st = .active → c.nextRound = none →
    c.current = some r →
    exec (.paceRoundStart x) s = .next ((((s.advancePtp (r.start + dRound c.desc * 1000)).putCtx x.toNat
      { c with current := none, ended := r.number + 1 }).endCtx x.toNat .done 0 0).settle)) ∧
  (∀ (s : State) (t : Tile) (f : Fetch), (s.slice t.val).fetch = some f →
    (∀ l ∈ f.lines, s.fnDown (fidBrg (lineBridge f.ctx l)) = false) → (∀ m ∈ f.marks, s.linkUp (16 + m.1) = true) →
    let u := (s.advanceTo ((f.marks.map fun m => s.linkDue m.1 false 0 m.2).foldl max 0)).setSlice t.val fun v => { v with fetch := none }
    exec (.ctxLineFetchComplete t []) s = .next
      ((u.setSlice t.val fun v => { v with lines := f.lines.map (fun l => ⟨f.ctx, l, false⟩) ++ v.lines }).makeRoom t.val f.ctx)) ∧
  (∀ (s : State) (t : Tile) (f : Fetch) (met : List BlockErr), (s.slice t.val).fetch = some f →
    (∀ m ∈ f.marks, s.fnDown (fidBrg m.1) = true ∨ s.linkUp (16 + m.1) = true) →
    let down := f.lines.filter fun l => s.fnDown (fidBrg (lineBridge f.ctx l))
    let u := (s.advanceTo ((f.marks.map fun m => s.linkDue m.1 false 0 m.2).foldl max 0)).setSlice t.val fun v => { v with fetch := none }
    down ≠ [] → exec (.ctxLineFetchComplete t met) s = .next ((u.ctxFault f.ctx down).settle)) ∧
  (∀ (s : State) (x : CtxNum), ∃ t, exec (.headerUnpin x) s = .next t ∧ t.nvm = s.nvm ∧ t.mgmt = s.mgmt ∧
    t.est.ctxs = s.est.ctxs ∧ ∀ k at_, (t.slice k).pins.find x.toNat = some at_ →
      t.now < at_ + s.regBits .estConfig [] 15 8 * 1000) ∧
  (∀ (s : State) (b : Bridge) (d : Delta) (rest : List Delta), s.bwk.deltas.getD b.val [] = d :: rest →
    s.fnDown (fidBrg b.val) = false → s.linkUp (16 + b.val) = true → s.ctx d.ctx = none →
    exec (.deltaApply b []) s = .next
      { s.advanceTo (s.linkDue b.val true 2 d.mark) with bwk := { s.bwk with deltas := s.bwk.deltas.setD b.val [] rest } }) ∧
  (∀ (s : State) (b : Bridge) (d : Delta) (rest : List Delta) (c : Ctx) (met : List BlockErr),
     s.bwk.deltas.getD b.val [] = d :: rest →
     s.fnDown (fidBrg b.val) = false → s.linkUp (16 + b.val) = true → s.ctx d.ctx = some c →
     let n := dOffset c.desc + d.chunk
     let (p, q) := s.parityOf c.group (dUnit c.desc) n
     let v := s.advanceTo (s.linkDue b.val true 2 d.mark)
     let k := c.chunks.getD d.chunk ⟨0, v.now, [], 0, 0, false, false⟩
     let parity := s.bwk.parity.setD (parityKey c.group (dUnit c.desc) n) (0, 0)
       (p ^^^ d.data, q ^^^ gfScale (gfPow d.position) d.data)
     let u (ps : AMap (BitVec 512 × BitVec 512)) : State :=
       { v with bwk := { s.bwk with deltas := s.bwk.deltas.setD b.val [] rest, parity := ps } }
     let at_ := ((s.bwk.groups.find c.group).map fun g => g.parityAddr (dUnit c.desc) n).getD 0
     let w := (u s.bwk.parity).meet 2 2 (fun e => addrStack (at_ + e.block * 2 ^ 21)) met
     (c.st.live = true → exec (.deltaApply b []) s = .next ((((u parity).putCtx d.ctx { c with
         chunks := c.chunks.put d.chunk { k with k := k.k + 1 } }).bump .bwkDeltaChunks []).judgeChunks d.ctx).settle) ∧
     (c.st.live = true → lostBlocks 2 met ≠ [] → exec (.deltaApply b met) s = .next ((w.damage c.group (dUnit c.desc)).settle)) ∧
     (c.st.live = false → exec (.deltaApply b met) s = .next w))

/-- O43. What is lost can be rebuilt (R411 to R413): for any two positions a < b of at most 30 and any two shards, the
rebuild gives both shards back from P' = d_a + d_b and Q' = g^a d_a + g^b d_b; with one position lost, P' is the
shard. The field of R411: products are commutative, distribute over exclusive or and have 1 as their unit, every
nonzero byte has an inverse, and the powers of g that positions use are distinct. -/
def Obligations.RebuildRecovers : Prop :=
  (∀ (a b : Nat) (da db : BitVec 512), a < b → b < 30 →
    gfRebuild [a, b] (da ^^^ db) (gfScale (gfPow a) da ^^^ gfScale (gfPow b) db) = [da, db]) ∧
  (∀ (a : Nat) (p q : BitVec 512), gfRebuild [a] p q = [p]) ∧
  (∀ a < 256, ∀ b < 256, gfMulBits a b = gfMulBits b a) ∧
  (∀ a < 256, ∀ b < 256, ∀ c < 256, gfMulBits a (b ^^^ c) = gfMulBits a b ^^^ gfMulBits a c) ∧
  (∀ a < 256, gfMulBits a 1 = a ∧ gfMulBits a 0 = 0 ∧ gfMulBits a 2 = gfDouble a) ∧
  (∀ a < 256, 0 < a → gfMulBits a (gfInv a) = 1) ∧
  (∀ i < 30, ∀ j < 30, gfPow i = gfPow j → i = j)

/-- O44. The result of a reduction does not depend on the order in which its contributions arrive: in whatever order
they are taken, every element of the chunk stands the same. -/
def Obligations.ReductionOrderFree : Prop :=
  ∀ (arith n c : Nat) (xs ys : List (BitVec 512 × Nat)), xs.Perm ys →
    xs.foldl (fun es x => addContribution arith n c x.1 x.2 es) [] =
      ys.foldl (fun es x => addContribution arith n c x.1 x.2 es) []

/-- O45. BAND and BOR (R337): each contribution is sign-extended to the width of the output format, the result is the
bitwise AND or OR of all of them, and no flag is set. -/
def Obligations.BitwiseReduction : Prop :=
  ∀ (arith ctx chunk k i : Nat) (first : BitVec 512) (rest : List (BitVec 512)),
    6 ≤ arIn arith → 6 ≤ arOut arith → arOp arith = 4 ∨ arOp arith = 5 →
    let w := fmtBits (arOut arith)
    let wide (p : BitVec 512) : BitVec w := (BitVec.ofNat (fmtBits (arIn arith)) (elemOf (arIn arith) p i)).signExtend w
    let e := (first :: rest).foldl (fun e p => e.addInt (arIn arith) (arOp arith) (contributionInt (arIn arith) p i)) Elem.init
    resultInt arith ctx chunk k i e =
      ((rest.foldl (fun a p => if arOp arith = 4 then a &&& wide p else a ||| wide p) (wide first)).toNat, 0)

/-! ## Memory, tests, resets and joins -/

/-- O46. The memory's commands and rows complete (R208 to R222): sizes are read and changed, the error log is read,
and a scrub that finds nothing changes only the pass that it belongs to. Where errors show, and that zeroing brings
every stack up, are the model's (notes 23, 24). -/
def Obligations.MemoryCompletes : Prop :=
  (∀ (s : State) (iss : Issuer) (i : Nat) (e : CmdEntry), Waits s (.partRead iss) i e →
    exec (.partRead iss) s = .next (s.ends i e stOk 0 ([0, 1, 2, 3, 4, 5, 7].flatMap fun id =>
      beBytes 1 id ++ beBytes 1 (b2n (s.partEmpty id)) ++ beBytes 2 (s.mem.sizeOf id) ++
        [0, 1, 2, 3].flatMap fun b => beBytes 2 (extentsOn (s.mem.sizeOf id) b)))) ∧
  (∀ (s : State) (iss : Issuer) (i : Nat) (e : CmdEntry) (id : Byte) (size : BitVec 16), Waits s (.partResize iss id 0 size) i e →
    id.toNat ≤ 5 → id.toNat ≠ 1 → sizeRule id.toNat size.toNat = true → s.partEmpty id.toNat = true →
    size.toNat ≤ s.mem.sizeOf id.toNat + s.mem.unassigned →
    let sizes := modAt s.mem.sizes id.toNat fun _ => size.toNat
    let u : State := { s with mem := { s.mem with sizes := sizes } }
    let log := (keepNewest (logSlots u.logGib) s.tel.log.reverse).reverse
    let v : State :=
      if id.toNat = 4 then { u with tables := { u.tables with shadow := [], rewritten := none, bad := [] } }
      else if id.toNat = 5 then { u with tel := { u.tel with log := log, hold := true } } else u
    exec (.partResize iss id 0 size) s = .next (v.ends i e stOk 0 (beBytes 2 (s.mem.sizeOf id.toNat) ++ beBytes 2 size.toNat))) ∧
  (∀ (s : State) (iss : Issuer) (i : Nat) (e : CmdEntry) (bridge : Byte) (first count : BitVec 16), Waits s (.memErrorRead iss bridge 0 first count) i e →
    bridge.toNat < 4 → 1 ≤ count.toNat → count.toNat ≤ 512 → s.fnDown (fidBrg bridge.toNat) = false →
    let rs := ((s.brg bridge.toNat).errors.drop first.toNat).take count.toNat
    exec (.memErrorRead iss bridge 0 first count) s = .next
      (s.ends i e stOk 0 (beBytes 2 rs.length ++ [0, 0] ++ rs.flatMap ErrRec.encode))) ∧
  (∀ (s : State) (b : Bridge), s.fnDown (fidBrg b.val) = false → (s.brg b.val).ready = true → s.regBits .brgScrub [b.val] 7 0 ≠ 0 →
    exec (.patrolScrub b none) s = .next (if (s.brg b.val).pass = s.scrubPass b.val then s
      else s.setBrg b.val fun x => { x with pass := s.scrubPass b.val, rows := [] }) ∧
    ∀ f : ScrubFinding, ∃ t, exec (.patrolScrub b (some f)) s = .next t ∧ t.gen = s.gen ∧ t.nvm = s.nvm ∧
      (f.symbols.val = 1 → addrBridge f.addr = b.val → (t.brg b.val).errors.head? =
        some ⟨s.now, addrStack f.addr, f.pch.toNat, f.bank.toNat, 3, f.row.toNat, s.partNow f.part.toNat f.addr⟩)) ∧
  (∀ (s : State) (b : Bridge), s.fnDown (fidBrg b.val) = false → s.boot.phase ≠ .reset → s.linkUp (16 + b.val) = true →
    exec (.bridgeZeroingComplete b) s = .next ((s.setBrg b.val fun x => { x with ready := true, stacksUp := 255 }).endResets
      (fidBrg b.val)))

/-- O47. Tests and repairs complete (R542 to R551). What a report leaves open and what a test finds are the model's
choices (notes 26, 79). -/
def Obligations.TestsComplete : Prop :=
  (∀ (s : State) (iss : Issuer) (i : Nat) (e : CmdEntry) (func : BitVec 16) (kinds flags : Byte) (n : Nat),
    Waits s (.testRun iss func kinds flags) i e → fnValid func.toNat = true → func.toNat / 256 = 0 ∨ func.toNat / 256 = 2 →
    1 ≤ kinds.toNat → kinds.toNat < 8 → flags.toNat < 4 →
    s.fnDown func.toNat = false → (s.fn func.toNat).testing = false → s.bist.freeEntry = some n →
    flags.getLsbD 0 = true ∨ s.drained func.toNat = true →
    let id := nextTestId s.bist.lastId
    let run : TestRun := ⟨id, func.toNat, kinds.toNat, flags.getLsbD 1, s.testStart, decide (s.testStart ≤ s.now)⟩
    let running := modAt s.bist.running n fun _ => some run
    let u : State := { s with bist := { s.bist with lastId := id, running := running } }
    let v := (u.setFn func.toNat fun f => { f with inReset := true, testing := true }).fnDownEffects func.toNat
    let w := if flags.getLsbD 0 = true ∧ func.toNat / 256 = 2 then v.retrainLink (func.toNat % 256) false else v
    exec (.testRun iss func kinds flags) s = .next (w.pendCmd i e [] (.testRun id))) ∧
  (∀ (s : State) (iss : Issuer) (i : Nat) (e : CmdEntry) (test first count : BitVec 16) (r : TestRes) (t : State),
    Waits s (.testResult iss test first count 0) i e → s.testRes test.toNat = (some r, t) → count.toNat ≤ 512 →
    exec (.testResult iss test first count 0) s = .next (t.ends i e stOk 0
      (beBytes 2 r.func ++ beBytes 1 r.state ++ beBytes 1 (worstOutcome r.records) ++ beBytes 2 r.records.length ++ [0, 0] ++
        beBytes 4 r.duration ++ ((r.records.drop first.toNat).take count.toNat).flatMap TestRecord.encode))) ∧
  (∀ (s : State) (iss : Issuer) (i : Nat) (e : CmdEntry) (kind flags : Byte) (func inst bit : BitVec 16) (addr : BitVec 32),
    Waits s (.repairApply iss kind flags func inst bit addr) i e → flags.toNat < 2 → fnValid func.toNat = true →
    repairKindOk kind.toNat (func.toNat / 256) = true →
    (kind.toNat < 2 → func.toNat / 256 = 0 ∨ func.toNat / 256 = 2 →
      (∀ c ∈ sramChecks kind.toNat func.toNat inst.toNat bit.toNat addr.toNat, c.1 = true) → (s.fn func.toNat).failed = false →
      ((s.fn func.toNat).inReset = true ∧ (s.fn func.toNat).held = true) ∨ (s.fn func.toNat).testing = true →
      let r : Repair := ⟨func.toNat, inst.toNat, bit.toNat, addr.toNat, kind.toNat + 1⟩
      s.spareLeft r = true → (flags.getLsbD 0 = true → s.fusesUsed func.toNat < fusesOf func.toNat) →
      exec (.repairApply iss kind flags func inst bit addr) s = .next
        ((if flags.getLsbD 0 = true then ((s.softRepair r).fuseRepair r).bump .bistFuseRepairs [] else s.softRepair r).ends
          i e stOk 0 [])) ∧
    (kind.toNat = 2 → func.toNat / 256 = 3 → inst.toNat / 256 / 8 = func.toNat % 256 → bit = 0 → s.fnDown func.toNat = false →
      let row : Repair := ⟨func.toNat, inst.toNat, 0, addr.toNat, 4⟩
      let u := s.drawFree.2.bump .bistPprRepairs []
      exec (.repairApply iss kind flags func inst bit addr) s = .next
        (if s.drawFree.1.toNat % 2 = 0 then s.drawFree.2.ends i e stNoResource 1 []
        else if flags.getLsbD 0 = true then (u.fuseRepair row).ends i e stOk 0 []
        else ({ u with bist := { u.bist with soft := row :: u.bist.soft } } : State).ends i e stOk 0 []))) ∧
  (∀ (s : State) (x : TestRun), s.bist.running = [some x, none] → x.started = false →
    let u := s.advanceTo x.startAt
    exec .testStaggerExpiry s = .next { u with bist := { u.bist with running := [some { x with started := true }, none] } }) ∧
  (∀ (s : State) (n : Fin 2) (faults : List TestRecord) (us : BitVec 32) (x : TestRun),
    s.bist.running.getD n.val none = some x → x.started = true →
    ∃ t, exec (.testEnd n faults us) s = .next t ∧ t.bist.running.getD n.val none = none ∧
      ∃ r, t.bist.results.head? = some r ∧ r.id = x.id ∧ r.func = x.func ∧ r.state = 1 ∧
        r.duration = us.toNat)

/-- O48. Function resets complete (R17, R527 to R530, R73): a reset that starts marks its function and does what the
function's class asks, its end brings the function back with its registers at their reset values, a bridge's reset is
complete once it is ready and its link is up, and a command's or an engine's own reset falls due 1 ms after its reply.
A function reset returns the registers of its function to their reset values and leaves every other register as it was
(R17, R629), but for the telemetry counters that R591 keeps. The effects of a reset's start are the model's reading
(notes 31, 58); the clock is brought to a moment (note 2). -/
def Obligations.FunctionResetsComplete : Prop :=
  (∀ (s : State) (iss : Issuer) (i : Nat) (e : CmdEntry) (func : BitVec 16) (hold : Bool), Waits s (.funcReset iss func (if hold then 1 else 0) 0) i e →
    func.toNat < 4096 → fnValid func.toNat = true → (s.fn func.toNat).inReset = false → (s.fn func.toNat).testing = false →
    (s.fn func.toNat).failed = false → func.toNat ≠ fidCmd (s.slot i).engine →
    exec (.funcReset iss func (if hold then 1 else 0) 0) s = .next
      ((s.enterReset func.toNat hold).pendCmd i e [] (.funcReset func.toNat hold))) ∧
  (∀ (s : State) (iss : Issuer) (i : Nat) (e : CmdEntry) (func : BitVec 16), func.toNat < 4096 → fnValid func.toNat = true →
    (s.fn func.toNat).testing = false → (s.fn func.toNat).failed = false →
    (∀ hold : Bool, Waits s (.funcReset iss func (if hold then 1 else 0) 0) i e → (s.fn func.toNat).inReset = false →
      func.toNat = fidCmd (s.slot i).engine →
      let due := s.boot.resetDue ++ [(s.now + 1000000, some (func.toNat, hold))]
      exec (.funcReset iss func (if hold then 1 else 0) 0) s = .next
        (({ s with boot := { s.boot with resetDue := due } } : State).ends i e stOk 0 [])) ∧
    (Waits s (.funcReset iss func 2 0) i e → (s.fn func.toNat).held = true →
      exec (.funcReset iss func 2 0) s = .next ((s.setFn func.toNat fun f => { f with held := false }).pendCmd i e []
        (.funcReset func.toNat false)))) ∧
  (∀ (s : State) (iss : Issuer) (i : Nat) (e : CmdEntry), Waits s (.deviceReset iss) i e →
    let due := s.boot.resetDue ++ [(s.now + 1000000, none)]
    exec (.deviceReset iss) s = .next (({ s with boot := { s.boot with resetDue := due } } : State).ends i e stOk 0 [])) ∧
  (∀ (s : State) (due : Nat), s.boot.resetDue = [(due, none)] →
    ∃ t, exec .resetDelayExpiry s = .next t ∧ t.boot.phase = .step 1 ∧ t.boot.cause = 2 ∧ t.nvm = s.nvm ∧ t.regs = [] ∧
      t.boot.bistSkipped = s.pins.bistSkip) ∧
  (∀ (s : State) (due fid : Nat) (hold : Bool), s.boot.resetDue = [(due, some (fid, hold))] → (s.fn fid).inReset = false →
    (s.fn fid).failed = false →
    let u := s.advanceTo due
    exec .resetDelayExpiry s = .next (({ u with boot := { u.boot with resetDue := [] } } : State).enterReset fid hold)) ∧
  (∀ (s : State) (func : BitVec 12), fnValid func.toNat = true → (s.fn func.toNat).inReset = true →
    (s.fn func.toNat).held = false → (s.fn func.toNat).testing = false → (s.fn func.toNat).failed = false →
    let w := (s.setFn func.toNat fun f => { f with inReset := false, held := false, testing := false }).resetRegs func.toNat
    exec (.funcResetEnd func) s = .next (((w.fnUpEffects func.toNat).endJobs
      (fun j => decide (j = .funcReset func.toNat true)) ⟨stOk, 0, []⟩).endResets func.toNat) ∧
    ∀ (r : Reg) (ix : List Nat), (ownersAt (regAddr r ix)).contains func.toNat = true → keptAddr (regAddr r ix) = false →
      w.reg r ix = regReset r ix ∧ (func.toNat / 256 ∈ [1, 3, 4, 5, 6, 7, 9] →
        ∀ t, exec (.funcResetEnd func) s = .next t → t.reg r ix = regReset r ix)) ∧
  (∀ (s : State) (fid : Nat),
    let done := s.endJobs (fun j => decide (j = .funcReset fid false)) ⟨stOk, 0, []⟩
    (fid / 256 ≠ 3 → s.endResets fid = done) ∧
    (fid / 256 = 3 → s.endResets fid =
      if ((s.brg (fid % 256)).ready && s.linkUp (16 + fid % 256)) = true then done else s)) ∧
  (∀ (s : State) (n : Fin 4), s.boot.phase = .done → s.fnDown (fidCmd n.val) = false → s.regBits .rstWdog [] 15 0 ≠ 0 →
    exec (.watchdogExpiry n) s = .next
      (((s.bump .rstWdogFires []).raiseEv 0x0202 3 srcReset (beBytes 1 n.val)).enterReset (fidCmd n.val) false)) ∧
  (∀ (s : State) (fid : Nat) (r : Reg) (ix : List Nat),
     ((ownersAt (regAddr r ix)).contains fid = true → keptAddr (regAddr r ix) = false →
       (s.resetRegs fid).reg r ix = regReset r ix) ∧
     ((ownersAt (regAddr r ix)).contains fid = false ∨ keptAddr (regAddr r ix) = true →
       (s.resetRegs fid).reg r ix = s.reg r ix) ∧
     (s.resetRegs fid).gen = s.gen ∧ (s.resetRegs fid).tables = s.tables ∧ (s.resetRegs fid).mgmt = s.mgmt)

/-- O49. The rows of the Shoreline links complete (R508 to R512): a record is published by the link's state, a link
agrees only on a mask of at least 8 lanes that both sides named, and too many errors retrain it, or turn a retrain
that runs into one from full width. The count of errors at the limit, the new round of such a retrain and what fresh
receivers find are the model's (notes 33, 77). -/
def Obligations.JoinRowsComplete : Prop :=
  (∀ (s : State) (l : D2dLink), s.boot.phase ≠ .reset →
    exec (.widthRecordPublish l) s = .next ((s.every .widthRecord l.val 1000).setLink l.val fun x =>
      match x.st with
      | .training => { x with sent := some (sealWidth 1 x.round x.own x.ownRepair) }
      | .agreeing => { x with sent := some (sealWidth 2 x.round x.cand 0) }
      | .up => { x with sent := some (sealWidth 2 x.round x.mask 0) }
      | _ => x)) ∧
  (∀ (s : State) (l : D2dLink) (words : List ShoreWord),
    (s.link l.val).st ≠ .down → (s.link l.val).st ≠ .failed →
    let bad := words.filter fun w => decide (w.crc ≠ Config.shoreCrc w.data)
    let u := (s.bumpBy .d2dCrcErrs [l.val] bad.length).setLink l.val fun y => { y with replay := replayOf words }
    ((∀ g : Fin 16, (bad.filter fun w => w.group = g).length ≤ u.regBits .d2dConfig [] 7 0) →
      exec (.shorelineCrcLimit l words) s = .next u) ∧
    ((∃ g : Fin 16, u.regBits .d2dConfig [] 7 0 < (bad.filter fun w => w.group = g).length) →
      ((s.link l.val).st = .up → exec (.shorelineCrcLimit l words) s = .next (u.retrainLink l.val true)) ∧
      ((s.link l.val).st ≠ .up → (s.link l.val).full = true → exec (.shorelineCrcLimit l words) s = .next u) ∧
      ((s.link l.val).st ≠ .up → (s.link l.val).full = false → ∃ t, exec (.shorelineCrcLimit l words) s = .next t ∧
        (t.link l.val).st = .training ∧ (t.link l.val).full = true ∧
        (t.link l.val).round = ((s.link l.val).round + 1) % 65536 ∧ (t.link l.val).cand = 0 ∧ t.nvm = s.nvm))) ∧
  (∀ (s : State) (l : D2dLink) (r : WidthRecord), r.crc = crc32cOf (widthBytes r) → r.version = 1 →
    r.round.toNat = (s.link l.val).round →
    (r.kind = 1 → (s.link l.val).st = .training →
      let g := (BitVec.ofNat 16 (s.link l.val).own &&& r.mask).toNat
      (popCount 16 g < 8 → exec (.widthRecordReceive l r) s = .next (s.failLink l.val)) ∧
      (8 ≤ popCount 16 g → (s.link l.val).full = false → g ≠ (s.link l.val).before →
        exec (.widthRecordReceive l r) s = .next (s.retrainLink l.val true)) ∧
      (8 ≤ popCount 16 g → (s.link l.val).full = true ∨ g = (s.link l.val).before →
        exec (.widthRecordReceive l r) s = .next (s.setLink l.val fun y =>
          { y with st := .agreeing, cand := g, peerRepair := r.repair, sent := some (sealWidth 2 y.round g 0) }))) ∧
    (r.kind = 2 → (s.link l.val).st = .agreeing →
      (r.mask.toNat = (s.link l.val).cand →
        exec (.widthRecordReceive l r) s = .next (s.raiseLink l.val (s.link l.val).cand)) ∧
      (r.mask.toNat ≠ (s.link l.val).cand → exec (.widthRecordReceive l r) s = .next (s.setLink l.val fun y =>
        { y with st := .training, round := (y.round + 1) % 65536, cand := 0 })))) ∧
  (∀ (s : State) (l : D2dLink) (r : WidthRecord), r.crc ≠ crc32cOf (widthBytes r) →
    exec (.widthRecordReceive l r) s = .next s)

/-! ## Power and heat -/

/-- O50. The power manager's commands and rows complete (R516 to R522). The sensor of an alarm is free (note 32); the
forecasts and the ratio are operands (note 78). -/
def Obligations.PowerCompletes : Prop :=
  (∀ (s : State) (iss : Issuer) (i : Nat) (e : CmdEntry) (cap : BitVec 16), Waits s (.powerCap iss cap 0) i e → 2000 ≤ cap.toNat →
    cap.toNat ≤ 3500 →
    exec (.powerCap iss cap 0) s = .next ((s.setReg .pwrCap [] (BitVec.ofNat 32 cap.toNat)).ends i e stOk 0
      (beBytes 2 (s.regBits .pwrCap [] 11 0) ++ [0, 0]))) ∧
  (∀ (s : State) (iss : Issuer) (i : Nat) (e : CmdEntry), Waits s (.powerStatus iss) i e →
    exec (.powerStatus iss) s = .next (s.ends i e stOk 0 (beBytes 2 s.pwr.power ++ beBytes 2 (s.regBits .pwrCap [] 11 0) ++
      beBytes 4 s.pwrStatus ++ (List.range 22).flatMap fun d => beBytes 1 d ++ beBytes 1 (s.verdict d) ++
        beBytes 2 (s.die d).measured ++ beBytes 2 (s.die d).temp ++ beBytes 2 (s.die d).slope))) ∧
  (∀ (s : State) (forecast : List (Die × BitVec 16)) (logic : DieReading) (need : BitVec 16) (ratio : Fin 17)
    (steps : List (Engine × StepForecast)) (drivers : List Tile),
    s.boot.phase ≠ .reset → s.boot.phase ≠ .stuck →
    (1840 ≤ logic.temp.toInt → exec (.powerPeriod forecast logic need ratio steps drivers) s = .next s.trip) ∧
    (logic.temp.toInt < 1840 → ∃ t, exec (.powerPeriod forecast logic need ratio steps drivers) s = .next t ∧ t.pwr.seq = (s.pwr.seq + 1) % 65536 ∧
      ((∀ f ∈ steps, f.2.slew.toNat ≤ 16 * s.regBits .pwrConfig [] 7 0) → t.pwr.rampHold = []) ∧
      ((∃ f ∈ steps, 16 * s.regBits .pwrConfig [] 7 0 < f.2.slew.toNat) →
        t.pwr.rampHold = (drivers.map (·.val)).eraseDups) ∧
      (t.die 0).measured = logic.measured.toNat ∧ (t.die 0).temp = logic.temp.toNat ∧ (t.die 0).slope = logic.slope.toNat ∧
      t.nvm = s.nvm ∧ t.gen = s.gen ∧ t.mgmt = s.mgmt)) ∧
  (∀ (s : State) (d : Die) (m : List Byte), d.val ≠ 0 → s.dieDown d.val = false → (s.die d.val).answer = some m →
    let verdict := ((m.getD 12 0) : Byte).toNat
    let v := s.setDie d.val fun x => { x with answer := none }
    (field2 m 2 ≠ s.pwr.seq → exec (.powerReplyReceive d) s = .next v) ∧
    (field2 m 2 = s.pwr.seq →
      let u := v.setDie d.val fun x => { x with
        verdict := verdict, measured := field2 m 4, floor := field2 m 6
        temp := field2 m 8, slope := field2 m 10, waiting := false, missed := 0, silent := false }
      (verdict = 1 → exec (.powerReplyReceive d) s = .next { u with pwr := { u.pwr with throttled := true } }) ∧
      (verdict = 2 → exec (.powerReplyReceive d) s = .next (u.bump .pwrRefusals [])) ∧
      (verdict ≠ 1 → verdict ≠ 2 → exec (.powerReplyReceive d) s = .next u))) ∧
  (∀ (s : State) (d : Die) (m : List Byte) (expected : BitVec 16) (now : DieReading), s.dieDown d.val = false →
    (s.die d.val).proposed = some m →
    ∃ t v, exec (.proposeReceive d expected now) s = .next t ∧ (t.die d.val).limit = none ∧
      (t.die d.val).answer = some (replyBytes d.val (field2 m 2) v now) ∧
      (field2 m 4 < now.floor.toNat → v = 2) ∧
      (now.floor.toNat ≤ field2 m 4 → (18 ≤ d.val →
        v = if expected.toNat ≤ field2 m 4 then 0 else 1) ∧
      (d.val < 18 → v = if field2 m 4 < now.measured.toNat then 2
        else if d.val = 1 ∧ ((s.die 1).slowed = true ∨ throttleAt 1 ≤ now.temp.toInt) then 1 else 0))) ∧
  (∀ (s : State) (d : Die), d.val ≠ 0 → s.dieDown d.val = false → s.boot.phase ≠ .reset →
    exec (.proposeTimeout d) s = .next
      (s.setDie d.val fun x => { x with limit := some (dieMax d.val * s.regBits .pwrCap [] 11 0 / 3500) })) ∧
  (∀ (s : State) (t : Tile), s.fnDown (fidTile t.val) = false →
    ((s.tile t.val).target < (s.tile t.val).ratio →
      exec (.tileRatioStep t) s = .next ((s.every .ratioStep t.val 1000).ratioDown t.val)) ∧
    ((s.tile t.val).ratio ≤ (s.tile t.val).target → (s.tile t.val).hot = true →
      exec (.tileRatioStep t) s = .next ((s.every .ratioStep t.val 10000).ratioDown t.val)) ∧
    ((s.tile t.val).ratio < (s.tile t.val).target → (s.tile t.val).hot = false → t.val ∉ s.pwr.rampHold →
      let wait := if s.pwr.ramping.contains t.val then s.regBits .pwrConfig [] 15 8 * 1000 else 1000
      let u := (s.every .ratioStep t.val wait).setTile t.val fun x => { x with ratio := x.ratio + 1 }
      exec (.tileRatioStep t) s = .next (if (s.tile t.val).ratio + 1 < (s.tile t.val).target then u
        else { u with pwr := { u.pwr with ramping := u.pwr.ramping.filter fun y => decide (y ≠ t.val) } }))) ∧
  (∀ (s : State) (d : Die) (temp : BitVec 16), s.boot.phase ≠ .reset → tripAt d.val ≤ temp.toInt →
    exec (.thermalThrottle d temp) s = .next s.trip) ∧
  (∀ (s : State) (d : Die) (temp : BitVec 16), s.boot.phase ≠ .reset → temp.toInt < tripAt d.val →
    (d.val = 1 ∨ 18 ≤ d.val → exec (.thermalThrottle d temp) s = .next (s.setDie d.val fun x =>
      { x with temp := temp.toNat, slowed := decide (throttleAt d.val ≤ temp.toInt) })) ∧
    ∃ t, exec (.thermalThrottle d temp) s = .next t ∧ t.nvm = s.nvm ∧ t.gen = s.gen ∧
      (t.die d.val).slowed = decide (throttleAt d.val ≤ temp.toInt))

/-! ## Telemetry and security -/

/-- O51. Telemetry's commands complete (R575, R583, R586, R587, R590). Telemetry's rows complete (R578 to R590). An
event from a source is written, merged or held; a window that ends writes its record; a hold that ends writes what was
held. Where exports start, the records of one frame, the merged flag and the overload stages are the model's choices
(notes 21, 22, 80); the clock is brought to a window's end (note 2). -/
def Obligations.TelemetryCompletes : Prop :=
  (∀ (s : State) (iss : Issuer) (i : Nat) (e : CmdEntry) (set : Byte) (count : BitVec 16) (first : BitVec 32),
    (setShape set.toNat).isSome = true → s.indexesOk set.toNat first.toNat (wideCount count) = true → s.fnDown fidTel = false →
    (Waits s (.telCounterRead iss set 0 count first) i e →
      let items := ((setShape set.toNat).getD (0, 0)).1
      4 + 8 * wideCount count * items ≤ 8944 →
      exec (.telCounterRead iss set 0 count first) s = .next (s.ends i e stOk 0
        (beBytes 2 items ++ [0, 0] ++ (rangeFrom first.toNat (wideCount count)).flatMap (s.csRow set.toNat)))) ∧
    (∀ h t, Waits s (.telCounterRead iss set 1 count first) i e →
      s.resultObject (s.slot i).number (beBytes 2 ((setShape set.toNat).getD (0, 0)).1 ++ [0, 0] ++
        (rangeFrom first.toNat (wideCount count)).flatMap (s.csRow set.toNat)) = some (h, t) →
      exec (.telCounterRead iss set 1 count first) s = .next (t.ends i e stOk 0 (beBytes 2 h ++ [0, 0]))) ∧
    (Waits s (.telCounterClear iss set 0 count first) i e → exec (.telCounterClear iss set 0 count first) s = .next
      (((rangeFrom first.toNat (wideCount count)).foldl (fun s k => s.csClear set.toNat k) s).ends i e stOk 0 []))) ∧
  (∀ (s : State) (iss : Issuer) (i : Nat) (e : CmdEntry) (target flags minSev : Byte) (rate : BitVec 16) (record flow : BitVec 32),
    Waits s (.telExportConfig iss target flags minSev 0 rate 0 record flow) i e → flags.toNat < 2 → minSev.toNat < 4 →
    1 ≤ rate.toNat → rate.toNat ≤ 100 → s.fnDown fidTel = false →
    (target = 0 →
      let next := if s.tel.stream.enable then s.tel.stream.next else s.tel.nextSeq
      let x : Machine.Stream := ⟨flags.getLsbD 0, minSev.toNat, rate.toNat, (s.slot i).number, iss.tag, next, s.tel.stream.openAt⟩
      exec (.telExportConfig iss target flags minSev 0 rate 0 record flow) s = .next
        (({ s with tel := { s.tel with stream := x } } : State).ends i e stOk 0 [])) ∧
    (1 ≤ target.toNat → target.toNat ≤ 4 → record.toNat / 2 ^ 20 % 512 = 0 → flow.toNat < 2 ^ 21 →
      let set (c : Collector) : Collector := ⟨flags.getLsbD 0, minSev.toNat, rate.toNat, record, flow,
        if c.enable then c.next else s.tel.nextSeq, c.openAt⟩
      exec (.telExportConfig iss target flags minSev 0 rate 0 record flow) s = .next (({ s with tel := { s.tel with
        collectors := modAt s.tel.collectors (target.toNat - 1) set } } : State).ends i e stOk 0 []))) ∧
  (∀ (s : State) (iss : Issuer) (i : Nat) (e : CmdEntry) (flags minSev : Byte) (count : BitVec 32) (first : BitVec 64),
    Waits s (.logRead iss flags minSev 0 count first []) i e → minSev.toNat < 4 → 1 ≤ count.toNat → s.fnDown fidTel = false →
    let from_ := if first = 0 then ((s.tel.log.head?).map LogEvent.seq).getD s.tel.nextSeq else first.toNat
    let all := s.tel.from from_ minSev.toNat
    (flags.toNat < 2 → count.toNat ≤ 139 →
      let got := takeRecords 139 count.toNat all
      let next := if got.length = all.length then max from_ s.tel.nextSeq
        else ((got.getLast?).map fun x => x.seq + 1).getD from_
      let read := s.tel.log.map fun x => if got.any (fun g => decide (g.seq = x.seq)) then { x with read := true } else x
      let log := if flags.getLsbD 0 then read.filter fun x => !(decide (from_ ≤ x.seq) && decide (x.seq < next)) else read
      let recs := got.flatMap LogEvent.encode
      let u := got.foldl (fun s e => s.moveLog false e) s
      exec (.logRead iss flags minSev 0 count first []) s = .next (({ u with tel := { u.tel with log := log } } : State).ends
        i e stOk 0 (beBytes 2 recs.length ++ [0, 0, 0, 0, 0, 0] ++ beBytes 8 next ++ recs.flatten))) ∧
    (flags.toNat = 2 → count.toNat ≤ 524288 → ∃ t, exec (.logRead iss flags minSev 0 count first []) s = .next t ∧
      t.gen = s.gen ∧ t.nvm = s.nvm ∧ t.tel.log.map LogEvent.seq = s.tel.log.map LogEvent.seq)) ∧
  (∀ (s : State) (ev : EventIn) (sev : Nat), s.boot.phase ≠ .reset → eventSev ev.code.toNat = some sev →
    exec (.eventRaise ev) s = .next (s.raiseEv ev.code.toNat sev ev.source.toNat (ev.data.take 216))) ∧
  (∀ s : State, s.fnDown fidTel = false → s.boot.phase ≠ .reset →
    let u := s.every .telStage 0 1000000
    let low := s.regBits .telConfig [] 15 0
    let calm := if s.tel.offered ≤ low then s.tel.calm + 1 else 0
    let v : State := { u with tel := { u.tel with offered := 0, output := 0, calm := calm, written := s.tel.written - low } }
    let w := if s.tel.hold then v else v.drainLate s.tel.late.length
    (s.tel.stage = 0 → exec .telStageTimer s = .next (if low < s.tel.offered then w.toStage 1 0 else w)) ∧
    (s.tel.stage = 1 → exec .telStageTimer s = .next (if low < s.tel.output then w.toStage 2 1
      else if 10 ≤ calm then w.toStage 0 0 else w)) ∧
    (s.tel.stage = 2 → exec .telStageTimer s = .next
      (if 10 ≤ calm then w.toStage 0 0
      else if low < s.tel.output then { w with tel := { w.tel with shift := min 15 (w.tel.shift + 1) } }
      else if s.tel.output = low then w
      else if w.tel.shift ≤ 1 then w.toStage 1 0 else { w with tel := { w.tel with shift := w.tel.shift - 1 } }))) ∧
  (∀ (s : State) (code : BitVec 16) (source : BitVec 12) (m : Merged) (rest : List Merged),
    takeFirst (fun m => decide (m.code = code.toNat ∧ m.source = source.toNat)) s.tel.coal = some (m, rest) →
    s.tel.hold = false →
    let u := s.advanceTo m.due
    let v : State := { u with tel := { u.tel with coal := rest, output := u.tel.output + recordsOf m.data } }
    let merged := if 1 < m.count then 1 else 0
    (s.tel.stage ≠ 2 → exec (.coalesceWindowExpiry code source) s = .next (v.writeLow m merged)) ∧
    (s.tel.stage = 2 →
      let n := s.tel.sampleCount + 1
      let w : State := { v with tel := { v.tel with sampleCount := n } }
      exec (.coalesceWindowExpiry code source) s = .next (if n % 2 ^ s.tel.shift = 0 then w.writeLow m (merged + 2)
        else w.bumpBy .telSampledOut [] m.count))) ∧
  (∀ s : State, s.fnDown fidTel = false → s.tel.hold = true → s.tel.lost = 0 → exec .holdRelease s = .next
    (s.tel.held.foldl (fun s m => s.writeNext m (if 1 < m.count then 1 else 0))
      { s with tel := { s.tel with hold := false, lost := 0, held := [] } })) ∧
  (∀ (s : State) (i : Nat) (x y : LogEvent), s.slotIx s.tel.stream.session = some i → s.tel.stream.enable = true →
    s.fnDown fidTel = false → s.mgmtOn = true → s.tel.lag s.tel.stream.next ≤ 65536 →
    let got := takeRecords 139 139 (s.tel.exports s.tel.stream.next s.tel.stream.minSev)
    got.head? = some x → got.getLast? = some y →
    let recs := got.flatMap LogEvent.encode
    let u := (got.foldl (fun s e => s.moveLog false e) s).advanceTo s.tel.stream.openAt
    let p := s.slot i
    let until_ := u.now + (streamBits recs.length p.peerVlan.isSome + s.tel.stream.rate - 1) / s.tel.stream.rate
    let v : State := { u with tel := { u.tel with stream := { s.tel.stream with next := y.seq + 1, openAt := until_ } } }
    exec .telStreamSend s = .next (v.sendOn i 0x0D03 s.tel.stream.tag 0 0 p.peer p.peerVlan
      ⟨stOk, 1, beBytes 8 x.seq ++ beBytes 2 recs.length ++ [0, 0, 0, 0, 0, 0] ++ recs.flatten⟩)) ∧
  (∀ (s : State) (n : Fin 4) (c : Collector) (x : LogEvent), s.tel.collectors[n.val]? = some c → c.enable = true →
    s.fnDown fidTel = false → s.tel.lag c.next ≤ 4096 → (s.tel.exports c.next c.minSev).head? = some x →
    let u := (s.moveLog false x).advanceTo c.openAt
    let until_ := u.now + (640 * x.records + c.rate - 1) / c.rate
    let after (c : Collector) : Collector := { c with next := x.seq + 1, openAt := until_ }
    let v : State := { u with tel := { u.tel with collectors := modAt u.tel.collectors n.val after } }
    exec (.telCollectorSend n) s = .next (v.sendRecords c x)) ∧
  (∀ s : State, s.fnDown fidTel = false → s.tel.tokens < s.regBits .telQuar [] 15 8 →
    let u := s.advanceTo s.unitDue
    exec .quarantineUnitDue s = .next { u with tel := { u.tel with tokens := u.tel.tokens + 1, unitNo := u.tel.unitNo + 1 } })

/-- O52. The log keeps order (R579, R583): an event takes the next SEQ as it is raised, and stands in the ring by its
SEQ whenever it is written. What the ring loses it loses without changing the order of the rest. That the ring loses
whole events, and that an event keeps its SEQ while it waits, are the model's readings (notes 22, 80). -/
def Obligations.LogStaysOrdered : Prop :=
  (∀ (s : State) (m : Merged), (s.number m).1 = { m with seq := s.tel.nextSeq } ∧
    (s.number m).2 = { s with tel := { s.tel with nextSeq := s.tel.nextSeq + 1 } } ∧
    ∀ flags, s.writeNext m flags = (s.number m).2.writeLog (s.number m).1 flags) ∧
  (∀ (s : State) (m : Merged) (flags : Nat), s.tel.log.Pairwise (fun a b => a.seq < b.seq) →
    (∀ x ∈ s.tel.log, x.seq < s.tel.nextSeq ∧ x.seq ≠ m.seq) → m.seq < s.tel.nextSeq →
    let t := s.writeLog m flags
    t.tel.nextSeq = s.tel.nextSeq ∧ t.tel.log.Pairwise (fun a b => a.seq < b.seq) ∧
      (∀ x ∈ t.tel.log, x.seq < t.tel.nextSeq) ∧
      (∀ x ∈ t.tel.log, x ∈ s.tel.log ∨ (x.seq = m.seq ∧ x.code = m.code ∧ x.source = m.source ∧ x.data = m.data)) ∧
      (∀ x ∈ s.tel.log, 2 ≤ x.sev → x ∈ t.tel.log) ∧ t.gen = s.gen ∧ t.nvm = s.nvm ∧ t.mgmt = s.mgmt)

/-- O53. The commands of security complete (R556 to R574): a report is signed over the nonce, a certificate is read,
an update waits as PENDING after its image has passed every check and otherwise ends with the first check that fails,
and an activation waits as PENDING. The order of the checks of an update is the model's reading (note 29). -/
def Obligations.SecurityCompletes : Prop :=
  (∀ (s : State) (iss : Issuer) (i : Nat) (e : CmdEntry) (nonce : BitVec 256), Waits s (.attest iss nonce) i e →
    let signed := s.sign (0x41 :: s.report nonce)
    exec (.attest iss nonce) s = .next ((signed.2.bump .secAttests []).ends i e stOk 0
      (s.report nonce ++ bvBytes 64 signed.1.1 ++ bvBytes 3309 signed.1.2))) ∧
  (∀ (s : State) (iss : Issuer) (i : Nat) (e : CmdEntry) (scheme depth : Byte) (der : List Byte), Waits s (.certRead iss scheme depth 0) i e →
    scheme.toNat < 2 → certificate scheme.toNat depth.toNat = some der →
    exec (.certRead iss scheme depth 0) s = .next (s.ends i e stOk 0 (beBytes 2 der.length ++ [0, 0] ++ der))) ∧
  (∀ (s : State) (iss : Issuer) (i : Nat) (e : CmdEntry) (handle : BitVec 16) (met : List BlockErr) (o : Obj),
    Waits s (.fwUpdate iss handle 0 met) i e →
    s.objOf (s.slot i).number handle.toNat = some o → s.objBusy handle.toNat = false → o.sealed = true → o.type = 2 →
    (s.readObject handle.toNat 0 o.length met).1 = false → o.length ≤ 134217728 → s.fwBusy = false →
    s.activeSlot = s.boot.runningSlot →
    let u := (s.readObject handle.toNat 0 o.length met).2
    let image := parseImage s.nvm.provisioned o.all
    exec (.fwUpdate iss handle 0 met) s = .next (if s.nvm.imageFault image = 0 then
      (u.setImage (!s.boot.runningSlot) Image.blank).pendCmd i e [handle.toNat] (.fwUpdate (!s.boot.runningSlot) image)
      else u.ends i e stAuthFail (0x10 + s.nvm.imageFault image) [])) ∧
  (∀ (s : State) (iss : Issuer) (i : Nat) (e : CmdEntry) (slot : Byte), slot.toNat < 2 → s.fwBusy = false →
    (Waits s (.fwActivate iss slot 0 0) i e →
      exec (.fwActivate iss slot 0 0) s = .next (s.pendCmd i e [] (.fwActivate (decide (slot = 1)) false false))) ∧
    (Waits s (.fwActivate iss slot 1 0) i e →
      exec (.fwActivate iss slot 1 0) s = .next (s.pendCmd i e [] (.fwActivate (decide (slot = 1)) true false))) ∧
    (Waits s (.fwActivate iss slot 2 0) i e → decide (slot = 1) = s.boot.runningSlot →
      exec (.fwActivate iss slot 2 0) s = .next (s.pendCmd i e [] (.fwActivate (decide (slot = 1)) false true))))

/-! ## The optical engines -/

/-- O54. The commands of the optical engines complete (R462 to R464): a status is read, a calibration and a reseek
wait as PENDING with their rings parked to seek again, and a pilot plan sets the tones of every engine of the mask.
What a seek waits for is the model's reading (note 50). -/
def Obligations.OpticsCommandsComplete : Prop :=
  (∀ (s : State) (iss : Issuer) (i : Nat) (e : CmdEntry) (engine : Byte), engine.toNat < 16 →
    s.fnDown (fidOe engine.toNat) = false →
    (Waits s (.oeStatus iss engine 0) i e → exec (.oeStatus iss engine 0) s = .next (s.ends i e stOk 0
      (beBytes 4 (s.oeStatus engine.toNat) ++ (s.oe engine.toNat).temps.flatMap (beBytes 2) ++
        ((rangeFrom (16 * engine.toNat) 16).flatMap fun f => beBytes 4 (s.oeFibre f)) ++
        (List.range 256).flatMap fun r => beBytes 4 ((s.ring engine.toNat r).encode s.now)))) ∧
    (∀ flags : Byte, flags.toNat < 2 → (s.oe engine.toNat).cal = none →
      let at_ := s.now
      let u (kind : Nat) : State := s.setOe engine.toNat fun x => { x with cal := some (kind, at_) }
      (Waits s (.oeCalibrate iss engine 1 flags 0) i e →
        exec (.oeCalibrate iss engine 1 flags 0) s = .next ((u 1).pendCmd i e [] (.oeCalibrate engine.toNat 1))) ∧
      (Waits s (.oeCalibrate iss engine 2 flags 0) i e → s.byPassed engine.toNat (rangeFrom (128 * engine.toNat) 128) = false →
        (flags = 0 → ((rangeFrom (16 * engine.toNat) 16).flatMap s.portsOf).any s.portUp = false) →
        exec (.oeCalibrate iss engine 2 flags 0) s = .next
          ((((List.range 256).foldl (fun s r => s.moveRing engine.toNat r fun x => x.park true)
            ((rangeFrom (16 * engine.toNat) 16).foldl (fun s f => s.holdEye f .calibration true) (u 2))).seekOn engine.toNat
              (List.range 32)).pendCmd i e [] (.oeCalibrate engine.toNat 2)))) ∧
    (∀ dir fibre mask : Byte, Waits s (.ringReseek iss engine dir fibre mask) i e → dir.toNat < 2 → fibre.toNat < 16 → mask ≠ 0 →
      let rs := (maskBits 8 mask.toNat).map fun w => 128 * dir.toNat + 8 * fibre.toNat + w
      s.byPassed engine.toNat (rs.map (laneOfRing engine.toNat)) = false →
      exec (.ringReseek iss engine dir fibre mask) s = .next
        (((rs.foldl (fun s r => s.moveRing engine.toNat r fun x => x.park true) s).seekOn engine.toNat
          [16 * dir.toNat + fibre.toNat]).pendCmd i e [] (.reseek engine.toNat rs)))) ∧
  (∀ (s : State) (iss : Issuer) (i : Nat) (e : CmdEntry) (mask : BitVec 16) (tones : List Byte), Waits s (.pilotPlan iss mask 0 tones) i e →
    tones.length = 8 → (∀ t < 8, ∃ x ∈ tones, x.toNat = t) → (∀ f ∈ (maskBits 16 mask.toNat).map fidOe, s.fnDown f = false) →
    exec (.pilotPlan iss mask 0 tones) s = .next
      (((maskBits 16 mask.toNat).foldl (fun s e => s.setReg .oePilot [e] (tonesWord tones)) s).ends i e stOk 0 []))

/-- O55. The rows of a data ring complete (R444 to R452): a sweep that meets a resonance locks, one that meets none
parks and tries again later, a lost lock is caught again or the ring parks, and a pilot window verifies, warns or
turns the ring away. The order of seeks and the units of the feedforward are the model's (notes 50, 75); the clock is
brought to a timer's moment (note 2). -/
def Obligations.RingRowsComplete : Prop :=
  (∀ (s : State) (e : Engine) (r : RingIx) (code : BitVec 12), (s.ring e r).st = .seeking →
    s.canSeek e r = true →
    ((s.ring e r).heater ≤ code.toNat → exec (.seekResonance e r code) s = .next
      ((s.advanceTo ((s.ring e r).sweepAt code.toNat)).lockRing e r true code.toNat)) ∧
    (code.toNat < (s.ring e r).heater → exec (.seekResonance e r code) s = .next s) ∧
    exec (.ringLockAcquire e r) s = .next (s.lockRing e r true ((s.ring e r).heaterAt s.now)) ∧
    (let u := s.advanceTo ((s.ring e r).sweepAt 4095)
     let due := u.now + 100000000
     exec (.seekSweepEnd e r) s = .next (((u.moveRing e r fun x => { x.park false with retry := true, at_ := due }).raiseEv
       0x8002 2 (fidOe e) (ringData e r)).seekBus e r))) ∧
  (∀ (s : State) (e : Engine) (r : RingIx), (s.ring e r).st = .parked → (s.ring e r).retry = true → s.suspended e r = false →
    exec (.seekRetryExpiry e r) s = .next
      (((s.advanceTo (s.ring e r).at_).setRing e r fun x => { x with retry := false, want := true }).seekBus e r)) ∧
  (∀ (s : State) (e : Engine) (r : RingIx), (s.ring e r).st = .wrong → s.suspended e r = false →
    exec (.cooldownExpiry e r) s = .next
      (((s.advanceTo (s.ring e r).at_).moveRing e r fun x => x.park true).seekBus e r)) ∧
  (∀ (s : State) (e : Engine) (r : RingIx), (s.ring e r).st = .locked ∨ (s.ring e r).st = .verified →
    s.suspended e r = false →
    exec (.ringLockLoss (.ring e r)) s = .next (((s.bump .oeLockLosses [e.val]).moveRing e r fun x =>
      { x with st := .lost, sweep := false, fails := 0, caught := false, at_ := 0 }).seekBus e r)) ∧
  (∀ (s : State) (e : Engine) (r : RingIx), (s.ring e r).st = .lost → s.suspended e r = false →
    ((s.oe e).steep = false →
      let due := if (s.ring e r).at_ = 0 then s.now + 500000 else (s.ring e r).at_
      let missed := s.setRing e r fun x => { x with caught := false, at_ := due }
      exec (.relockStart e r none) s = .next missed ∧
      ∀ code : BitVec 12, exec (.relockStart e r (some code)) s = .next
        (if ((code.toNat : Int) - (s.ring e r).heater).natAbs ≤ 204 then
          s.setRing e r fun x => { x with heater := code.toNat, caught := true, at_ := due } else missed)) ∧
    ((s.ring e r).caught = true →
      exec (.ringLockAcquire e r) s = .next (s.lockRing e r false (s.ring e r).heater)) ∧
    ((s.ring e r).caught = false → (s.ring e r).at_ ≠ 0 → exec (.captureTimeout e r) s = .next
      (((s.advanceTo (s.ring e r).at_).moveRing e r fun x => x.park true).seekBus e r))) ∧
  (∀ (s : State) (e : Engine) (r : RingIx) (win : PilotWindow), s.suspended e r = false →
    let x := s.ring e r
    let u := s.advanceTo x.window.1
    let next := u.windowFrom e (r.val % 8)
    let found (y : RingSt) : RingSt := { y with found := dominant win, window := next }
    let right := confirms win x.window.2
    let ends (v : State) : Prop := exec (.pilotWindowEnd (.ring e r) win) s = .next v
    (x.st = .locked → right = true →
      ends ((u.moveRing e r fun y => { found y with st := .verified, sweep := false, fails := 0 }).seekBus e r)) ∧
    (x.st = .locked → right = false → clearWin win = true → x.sweep = true →
      let at_ := u.now
      let dark := !u.canSeek e r
      ends (u.moveRing e r fun y => { found y with st := .seeking, at_ := at_, paused := dark })) ∧
    (x.st = .locked → right = false → clearWin win = true → x.sweep = false →
      ends ((u.setRing e r found).wrongRing e r (dominant win))) ∧
    (x.st = .locked → clearWin win = false → ends (u.setRing e r found)) ∧
    (x.st = .verified → right = true → ends (u.setRing e r fun y => { found y with fails := 0 })) ∧
    (x.st = .verified → right = false → x.fails = 0 → ends (u.setRing e r fun y => { found y with fails := 1 })) ∧
    (x.st = .verified → right = false → x.fails ≠ 0 →
      ends (u.moveRing e r fun y => { found y with st := .locked, sweep := false, fails := 0 }))) ∧
  (∀ (s : State) (e : Engine) (a b c d : BitVec 16), s.boot.phase = .done → s.fnDown (fidOe e) = false →
    (∀ t ∈ [a, b, c, d], hotSensor t.toNat = false) →
    let new := [a.toNat, b.toNat, c.toNat, d.toNat]
    let old := (s.oe e).temps
    let steep := (s.oe e).applied.isSome && ([0, 1, 2, 3].any fun i => decide (new.getD i 0 ≠ old.getD i 0))
    exec (.feedforwardSample e [a, b, c, d] []) s = .next
      (((s.every .feedforward e 10000).setOe e fun x => { x with temps := new, steep := steep }).feedforward e)) ∧
  (∀ (s : State) (e : Engine) (temps : List (BitVec 16)) (loop : List (RingIx × BitVec 12)), temps.length = 4 →
    s.boot.phase = .done → s.fnDown (fidOe e) = false →
    ∃ t, exec (.feedforwardSample e temps loop) s = .next t ∧ (t.oe e).temps = temps.map (·.toNat) ∧ t.nvm = s.nvm ∧
      t.gen = s.gen)

/-- O56. The rows of a fibre's shutter and of the laser inputs complete (R453 to R459, R465): light that goes closes
an OPEN fibre, light that comes makes it PROBING, and it opens once the light has stood for the dwell; a lane whose
light goes darkens the causeway's paths that it feeds; a failed input parks its rings. The delay of a probe burst is
free, and READY is the model's reading (notes 50, 75); the clock is brought to a timer's moment (note 2). -/
def Obligations.FibreRowsComplete : Prop :=
  (∀ (s : State) (f : Fibre) (b : Bool), s.boot.phase ≠ .reset → ∃ t, exec (.lightLossDetect (.fibre f b)) s = .next t ∧ (t.eye f.val).refl = b ∧
    (t.eye f.val).light = ((s.eye f.val).light && b) ∧
    ((s.eye f.val).st = .opened → (t.eye f.val).st = .closed) ∧
    ((s.eye f.val).st = .held → (t.eye f.val).st = .held) ∧
    ((s.eye f.val).st = .probing → (t.eye f.val).st = if (s.eye f.val).light && b then .probing else .closed) ∧
    (∀ g, g ≠ f.val → t.eye g = s.eye g) ∧ t.nvm = s.nvm) ∧
  (∀ (s : State) (l : Lane), exec (.lightLossDetect (.lane l)) s = .next (s.dimLane l.val)) ∧
  (∀ (s : State) (l n : Nat) (x : CswPath), s.csw.paths = [(n, x)] → n / 128 * 128 + 8 * x.src + n % 8 = l → x.st = .opened →
    s.darken l = (s.bump .cswLightLosses []).movePath n fun y => { y with st := .dark, fails := 0 }) ∧
  (∀ (s : State) (f : Fibre), (s.eye f.val).st = .closed →
    let t := s.drawFree.2.advanceTo ((s.eye f.val).probeAt + s.drawFree.1.toNat % 2000001)
    let due := t.now + t.regBits .oeConfig [f.val / 16] 15 8 * 1000000
    let u := t.setEye f.val fun y => { y with probeAt := due }
    exec (.probeBurst f) s = .next { u with fibreTx := u.fibreTx ++ [.probe f.val] }) ∧
  (∀ (s : State) (f : Fibre), s.boot.phase ≠ .reset → ∃ t, exec (.lightPresent (.fibre f)) s = .next t ∧
    (t.eye f.val).st = (if (s.eye f.val).st = .closed then .probing else (s.eye f.val).st) ∧
    (t.eye f.val).light = true ∧ (t.eye f.val).lightAt = s.now ∧
    (∀ g, g ≠ f.val → t.eye g = s.eye g) ∧ t.nvm = s.nvm) ∧
  (∀ (s : State) (f : Fibre), (s.eye f.val).st = .probing → (s.eye f.val).light = true →
    exec (.openDwellExpiry f) s = .next
      ((s.advanceTo ((s.eye f.val).lightAt + s.regBits .oeConfig [f.val / 16] 7 0 * 1000000)).moveEye f.val fun y =>
        { y with st := .opened })) ∧
  (∀ (s : State) (e : Engine) (b : Bool),
    (exec (.laserInputFail e b) s = .next
      (((laserRings b).foldl (fun s r => s.moveRing e r fun x => x.park false)
        (s.setOe e fun x => if b then { x with laserB := false } else { x with laserA := false })).judgeReady e)) ∧
    ((if b then (s.oe e).laserB else (s.oe e).laserA) = false → s.boot.phase ≠ .reset → s.fnDown (fidOe e) = false →
      exec (.laserInputGoodExpiry e b) s = .next
        (((laserRings b).foldl (fun s r => if (s.ring e r).st = .parked then
            s.setRing e r fun x => { x with want := true, retry := false } else s)
          ((s.setOe e fun x => if b then { x with laserB := true } else { x with laserA := true }).verifyRouting e)).seekOn e
            (if b then rangeFrom 8 8 else rangeFrom 0 8)))) ∧
  (∀ (s : State) (ends : List (Lane × Nat × Nat)), exec (.errorWindowEnd ends) s = .next
    ((sortBy (fun x => x.1.val) ends).foldl (fun s x => s.endWindow x.1.val x.2.1 x.2.2) s)) ∧
  (∀ (s : State) (l : Lane) (uncorr corrected : Nat),
    let r := ringOf l.val .rx
    let e := engineOf l.val
    let ix := [tileOf l.val, slotOf l.val]
    let u := s.every .errorWindow l.val (s.regBits .oeErrConfig [e] 7 0 * 100000)
    let t := (u.bumpBy .tileLaneFecCorr ix corrected).bumpBy .tileLaneFecUncorr ix uncorr
    let crosses : Bool := decide (s.regBits .oeErrConfig [e] 15 8 ≤ uncorr ∨
      s.regBits .oeErrConfig [e] 23 16 * codewordsIn (s.regBits .oeErrConfig [e] 7 0) < 16 * corrected)
    let ends (v : State) : Prop := exec (.errorWindowEnd [(l, uncorr, corrected)]) s =
      .next (v.setRing e r fun y => { y with lapsed := false })
    ((s.ring e r).st ≠ .verified ∨ (s.ring e r).lapsed = true ∨ (s.lane l.val).diverted = true →
      ends (t.setRing e r fun y => { y with clean := 0, overBudget := y.overBudget && crosses })) ∧
    ((s.ring e r).st = .verified → (s.ring e r).lapsed = false → (s.lane l.val).diverted = false →
      ((s.ring e r).errDrop = true → ∀ n, n = (if t.cleanWindow e uncorr corrected then (s.ring e r).clean + 1 else 0) →
        ends (if 10 ≤ n then t.moveRing e r fun y => { y with errDrop := false, clean := 0 }
          else t.setRing e r fun y => { y with clean := n })) ∧
      ((s.ring e r).errDrop = false → (s.eye (fibreOf l.val)).st = .opened →
        (crosses = false → ends (t.setRing e r fun y => { y with overBudget := false })) ∧
        (crosses = true → ∀ v,
          let data := beBytes 2 l.val ++ beBytes 4 (min uncorr (2 ^ 32 - 1)) ++ beBytes 4 (min corrected (2 ^ 32 - 1))
          (t.askUnit = (true, v) → ends (((v.bump .oeErrDrops [e]).moveRing e r fun y =>
            { y with errDrop := true, overBudget := false, clean := 0 }).raiseEv 0x8005 1 (fidOe e) data)) ∧
          (t.askUnit = (false, v) → ends (((v.bump .oeOverBudget [e]).setRing e r fun y =>
            { y with overBudget := true }).raiseEv 0x8006 1 (fidOe e) data))))))

/-! ## What every step keeps -/

/-- O57. The queue is first in, first out: a step takes the command at its front and no command of the table adds one,
takes another or changes their order. The queue is the model's own (note 53). -/
def Obligations.QueueOrderKept : Prop :=
  ∀ (s t : State), step s = .next t → t.pending = s.pending.tail

/-- O58. Every step keeps the eight session slots (R56), and exactly one route bank ACTIVE (R251). -/
def Obligations.SlotsAndBanksKept : Prop :=
  ∀ (s t : State), step s = .next t →
    (s.mgmt.slots.length = 8 → t.mgmt.slots.length = 8) ∧ (s.oneActive → t.oneActive)

/-- O59. Every step keeps the table entries in their one canonical form: the numbers rise strictly, so that equal
tables are equal data. The form of the data is the model's own. -/
def Obligations.TableEntriesKept : Prop :=
  ∀ (s t : State), step s = .next t → s.tables.entries.wf = true → t.tables.entries.wf = true

/-- O60. The part at reset (R17, R251, R525): in reset, with nothing listed in any table, the first SEQ of the log 1,
bank 0 of the routes ACTIVE and bank 1 IDLE, eight free slots, an empty queue; the clock is UNSET at time 0. The
values for which the spec gives no reset are the model's (notes 4 to 6). -/
def Obligations.ResetState : Prop :=
  State.reset.boot.phase = .reset ∧ State.reset.oneActive ∧ State.reset.mgmt.slots = List.replicate 8 Session.free ∧
  State.reset.gen.bank1.st = .idle ∧ State.reset.gen.bank0.st = .active ∧ State.reset.pending = [] ∧
  State.reset.time.clock = .unset ∧ State.reset.now = 0 ∧ State.reset.tel.nextSeq = 1 ∧
  State.reset.tables.entries = [] ∧ State.reset.tables.entries.wf = true ∧ State.reset.est.ctxs = [] ∧ State.reset.plan = none ∧ State.reset.regs = []
end

