-- ==== Sys2Proof/Laws/Data.lean ====
section
/-! SUPPORT. Sparse stores: what a read finds after a change, and that every change keeps the canonical form. -/

namespace Sys2Proof.Machine

variable {α : Type}

/-! ## Reads after a change -/

@[simp] theorem AMap.find_put_same (m : AMap α) (k : Nat) (v : α) : (m.put k v).find k = some v := by
  induction m with
  | nil => simp [AMap.put, AMap.find]
  | cons p m ih =>
    obtain ⟨a, w⟩ := p
    simp only [AMap.put]
    split
    · simp [AMap.find]
    · split
      · simp [AMap.find]
      · rename_i h
        simpa [AMap.find, h] using ih

theorem AMap.find_put_ne (m : AMap α) {j k : Nat} (v : α) (h : j ≠ k) : (m.put k v).find j = m.find j := by
  induction m with
  | nil => simp [AMap.put, AMap.find, h]
  | cons p m ih =>
    obtain ⟨a, w⟩ := p
    simp only [AMap.put]
    split
    · simp [AMap.find, h]
    · split
      · rename_i e
        subst e
        simp [AMap.find, h]
      · simp [AMap.find, ih]

@[simp] theorem AMap.find_del_same (m : AMap α) (k : Nat) : (m.del k).find k = none := by
  unfold AMap.del
  induction m with
  | nil => rfl
  | cons p m ih =>
    obtain ⟨a, w⟩ := p
    by_cases e : a = k
    · simpa [List.filter_cons, e] using ih
    · have e' : ¬k = a := fun x => e x.symm
      simpa [List.filter_cons, e, AMap.find, e'] using ih

theorem AMap.find_del_ne (m : AMap α) {j k : Nat} (h : j ≠ k) : (m.del k).find j = m.find j := by
  unfold AMap.del
  induction m with
  | nil => rfl
  | cons p m ih =>
    obtain ⟨a, w⟩ := p
    by_cases e : a = k
    · subst e
      simpa [List.filter_cons, AMap.find, h] using ih
    · simp only [List.filter_cons, e, ne_eq, not_false_eq_true, decide_true, if_true, AMap.find, ih]

variable [DecidableEq α]

@[simp] theorem AMap.getD_setD_same (m : AMap α) (k : Nat) (d v : α) : (m.setD k d v).getD k d = v := by
  unfold AMap.setD AMap.getD
  split <;> simp_all

theorem AMap.getD_setD_ne (m : AMap α) {j k : Nat} (d e v : α) (h : j ≠ k) :
    (m.setD k d v).getD j e = m.getD j e := by
  unfold AMap.setD AMap.getD
  split
  · rw [AMap.find_del_ne m h]
  · rw [AMap.find_put_ne m v h]

@[simp] theorem AMap.getD_modD_same (m : AMap α) (k : Nat) (d : α) (f : α → α) :
    (m.modD k d f).getD k d = f (m.getD k d) := by
  simp [AMap.modD]

theorem AMap.getD_modD_ne (m : AMap α) {j k : Nat} (d e : α) (f : α → α) (h : j ≠ k) :
    (m.modD k d f).getD j e = m.getD j e := AMap.getD_setD_ne m d e _ h

/-! ## The canonical form -/

omit [DecidableEq α] in
theorem AMap.wfFrom_mono (m : AMap α) {a b : Nat} (h : b ≤ a) (hm : m.wfFrom a = true) : m.wfFrom b = true := by
  cases m with
  | nil => rfl
  | cons p m =>
    simp only [AMap.wfFrom, Bool.and_eq_true, decide_eq_true_eq] at hm ⊢
    exact ⟨le_trans h hm.1, hm.2⟩

omit [DecidableEq α] in
theorem AMap.wfFrom_put (m : AMap α) (k : Nat) (v : α) (lo : Nat) (hk : lo ≤ k) (hm : m.wfFrom lo = true) :
    (m.put k v).wfFrom lo = true := by
  induction m generalizing lo with
  | nil => simp [AMap.put, AMap.wfFrom, hk]
  | cons p m ih =>
    obtain ⟨a, w⟩ := p
    simp only [AMap.wfFrom, Bool.and_eq_true, decide_eq_true_eq] at hm
    simp only [AMap.put]
    split
    · simp only [AMap.wfFrom, Bool.and_eq_true, decide_eq_true_eq]
      exact ⟨hk, by omega, hm.2⟩
    · split
      · rename_i e
        subst e
        simp only [AMap.wfFrom, Bool.and_eq_true, decide_eq_true_eq]
        exact ⟨hk, hm.2⟩
      · simp only [AMap.wfFrom, Bool.and_eq_true, decide_eq_true_eq]
        exact ⟨hm.1, ih (a + 1) (by omega) hm.2⟩

omit [DecidableEq α] in
theorem AMap.wfFrom_del (m : AMap α) (k lo : Nat) (hm : m.wfFrom lo = true) : (m.del k).wfFrom lo = true := by
  unfold AMap.del
  induction m generalizing lo with
  | nil => rfl
  | cons p m ih =>
    obtain ⟨a, w⟩ := p
    simp only [AMap.wfFrom, Bool.and_eq_true, decide_eq_true_eq] at hm
    by_cases e : a = k
    · simpa [List.filter_cons, e] using AMap.wfFrom_mono _ (by omega) (ih (a + 1) hm.2)
    · simpa [List.filter_cons, e, AMap.wfFrom, hm.1] using ih (a + 1) hm.2

omit [DecidableEq α] in
theorem AMap.wf_put (m : AMap α) (k : Nat) (v : α) (h : m.wf = true) : (m.put k v).wf = true :=
  AMap.wfFrom_put m k v 0 (Nat.zero_le k) h

omit [DecidableEq α] in
theorem AMap.wf_del (m : AMap α) (k : Nat) (h : m.wf = true) : (m.del k).wf = true := AMap.wfFrom_del m k 0 h

theorem AMap.wf_setD (m : AMap α) (k : Nat) (d v : α) (h : m.wf = true) : (m.setD k d v).wf = true := by
  unfold AMap.setD
  split
  · exact AMap.wf_del m k h
  · exact AMap.wf_put m k v h

theorem AMap.wf_modD (m : AMap α) (k : Nat) (d : α) (f : α → α) (h : m.wf = true) : (m.modD k d f).wf = true :=
  AMap.wf_setD m k d _ h

omit [DecidableEq α] in
theorem AMap.mem_put (m : AMap α) (k : Nat) (v : α) (p : Nat × α) (h : p ∈ m.put k v) : p = (k, v) ∨ p ∈ m := by
  induction m with
  | nil => simpa [AMap.put] using h
  | cons q m ih =>
    obtain ⟨a, w⟩ := q
    simp only [AMap.put] at h
    split at h
    · simpa using h
    · split at h
      · rcases List.mem_cons.mp h with h | h
        · exact .inl h
        · exact .inr (List.mem_cons_of_mem _ h)
      · rcases List.mem_cons.mp h with h | h
        · exact .inr (h ▸ List.mem_cons_self)
        · exact (ih h).imp id (List.mem_cons_of_mem _)

/-- A store that lists no default value still lists none after a write. -/
theorem AMap.wfD_setD (m : AMap α) (d : Nat → α) (k : Nat) (v : α) (h : m.wfD d = true) :
    (m.setD k (d k) v).wfD d = true := by
  simp only [AMap.wfD, Bool.and_eq_true, List.all_eq_true, decide_eq_true_eq] at h ⊢
  refine ⟨AMap.wf_setD m k _ v h.1, fun p hp => ?_⟩
  unfold AMap.setD at hp
  split at hp
  · exact h.2 p (List.mem_of_mem_filter hp)
  · rename_i hv
    rcases AMap.mem_put m k v p hp with rfl | hp
    · exact hv
    · exact h.2 p hp

end Sys2Proof.Machine
end

