-- ==== Sys2Proof/Laws/State.lean ====
section
/-! SUPPORT. The shared updates of the state: one lemma per field, so that no proof unfolds an update, and one lemma that
says all that a shared operation writes. -/

namespace Sys2Proof.Machine

/-! ### `setReg` writes `regs` alone -/

@[simp] theorem setReg_pins (s : State) (r : Reg) (ix : List Nat) (w : Word) : (s.setReg r ix w).pins = s.pins := rfl
@[simp] theorem setReg_boot (s : State) (r : Reg) (ix : List Nat) (w : Word) : (s.setReg r ix w).boot = s.boot := rfl
@[simp] theorem setReg_nvm (s : State) (r : Reg) (ix : List Nat) (w : Word) : (s.setReg r ix w).nvm = s.nvm := rfl
@[simp] theorem setReg_fns (s : State) (r : Reg) (ix : List Nat) (w : Word) : (s.setReg r ix w).fns = s.fns := rfl
@[simp] theorem setReg_latch (s : State) (r : Reg) (ix : List Nat) (w : Word) : (s.setReg r ix w).latch = s.latch := rfl
@[simp] theorem setReg_mgmt (s : State) (r : Reg) (ix : List Nat) (w : Word) : (s.setReg r ix w).mgmt = s.mgmt := rfl
@[simp] theorem setReg_objs (s : State) (r : Reg) (ix : List Nat) (w : Word) : (s.setReg r ix w).objs = s.objs := rfl
@[simp] theorem setReg_tel (s : State) (r : Reg) (ix : List Nat) (w : Word) : (s.setReg r ix w).tel = s.tel := rfl
@[simp] theorem setReg_time (s : State) (r : Reg) (ix : List Nat) (w : Word) : (s.setReg r ix w).time = s.time := rfl
@[simp] theorem setReg_ticks (s : State) (r : Reg) (ix : List Nat) (w : Word) : (s.setReg r ix w).ticks = s.ticks := rfl
@[simp] theorem setReg_ptp (s : State) (r : Reg) (ix : List Nat) (w : Word) : (s.setReg r ix w).ptp = s.ptp := rfl
@[simp] theorem setReg_tide (s : State) (r : Reg) (ix : List Nat) (w : Word) : (s.setReg r ix w).tide = s.tide := rfl
@[simp] theorem setReg_plan (s : State) (r : Reg) (ix : List Nat) (w : Word) : (s.setReg r ix w).plan = s.plan := rfl
@[simp] theorem setReg_fibres (s : State) (r : Reg) (ix : List Nat) (w : Word) : (s.setReg r ix w).fibres = s.fibres := rfl
@[simp] theorem setReg_ports (s : State) (r : Reg) (ix : List Nat) (w : Word) : (s.setReg r ix w).ports = s.ports := rfl
@[simp] theorem setReg_lanes (s : State) (r : Reg) (ix : List Nat) (w : Word) : (s.setReg r ix w).lanes = s.lanes := rfl
@[simp] theorem setReg_tiles (s : State) (r : Reg) (ix : List Nat) (w : Word) : (s.setReg r ix w).tiles = s.tiles := rfl
@[simp] theorem setReg_queues (s : State) (r : Reg) (ix : List Nat) (w : Word) : (s.setReg r ix w).queues = s.queues := rfl
@[simp] theorem setReg_undertow (s : State) (r : Reg) (ix : List Nat) (w : Word) : (s.setReg r ix w).undertow = s.undertow := rfl
@[simp] theorem setReg_xbar (s : State) (r : Reg) (ix : List Nat) (w : Word) : (s.setReg r ix w).xbar = s.xbar := rfl
@[simp] theorem setReg_frames (s : State) (r : Reg) (ix : List Nat) (w : Word) : (s.setReg r ix w).frames = s.frames := rfl
@[simp] theorem setReg_tc (s : State) (r : Reg) (ix : List Nat) (w : Word) : (s.setReg r ix w).tc = s.tc := rfl
@[simp] theorem setReg_tables (s : State) (r : Reg) (ix : List Nat) (w : Word) : (s.setReg r ix w).tables = s.tables := rfl
@[simp] theorem setReg_gen (s : State) (r : Reg) (ix : List Nat) (w : Word) : (s.setReg r ix w).gen = s.gen := rfl
@[simp] theorem setReg_est (s : State) (r : Reg) (ix : List Nat) (w : Word) : (s.setReg r ix w).est = s.est := rfl
@[simp] theorem setReg_bwk (s : State) (r : Reg) (ix : List Nat) (w : Word) : (s.setReg r ix w).bwk = s.bwk := rfl
@[simp] theorem setReg_mem (s : State) (r : Reg) (ix : List Nat) (w : Word) : (s.setReg r ix w).mem = s.mem := rfl
@[simp] theorem setReg_csw (s : State) (r : Reg) (ix : List Nat) (w : Word) : (s.setReg r ix w).csw = s.csw := rfl
@[simp] theorem setReg_swl (s : State) (r : Reg) (ix : List Nat) (w : Word) : (s.setReg r ix w).swl = s.swl := rfl
@[simp] theorem setReg_opt (s : State) (r : Reg) (ix : List Nat) (w : Word) : (s.setReg r ix w).opt = s.opt := rfl
@[simp] theorem setReg_d2d (s : State) (r : Reg) (ix : List Nat) (w : Word) : (s.setReg r ix w).d2d = s.d2d := rfl
@[simp] theorem setReg_pwr (s : State) (r : Reg) (ix : List Nat) (w : Word) : (s.setReg r ix w).pwr = s.pwr := rfl
@[simp] theorem setReg_bist (s : State) (r : Reg) (ix : List Nat) (w : Word) : (s.setReg r ix w).bist = s.bist := rfl
@[simp] theorem setReg_fibreTx (s : State) (r : Reg) (ix : List Nat) (w : Word) : (s.setReg r ix w).fibreTx = s.fibreTx := rfl
@[simp] theorem setReg_free (s : State) (r : Reg) (ix : List Nat) (w : Word) : (s.setReg r ix w).free = s.free := rfl
@[simp] theorem setReg_pending (s : State) (r : Reg) (ix : List Nat) (w : Word) : (s.setReg r ix w).pending = s.pending := rfl

/-! ### `bumpBy` writes `regs` alone -/

@[simp] theorem bumpBy_pins (s : State) (r : Reg) (ix : List Nat) (n : Nat) : (s.bumpBy r ix n).pins = s.pins := rfl
@[simp] theorem bumpBy_boot (s : State) (r : Reg) (ix : List Nat) (n : Nat) : (s.bumpBy r ix n).boot = s.boot := rfl
@[simp] theorem bumpBy_nvm (s : State) (r : Reg) (ix : List Nat) (n : Nat) : (s.bumpBy r ix n).nvm = s.nvm := rfl
@[simp] theorem bumpBy_fns (s : State) (r : Reg) (ix : List Nat) (n : Nat) : (s.bumpBy r ix n).fns = s.fns := rfl
@[simp] theorem bumpBy_latch (s : State) (r : Reg) (ix : List Nat) (n : Nat) : (s.bumpBy r ix n).latch = s.latch := rfl
@[simp] theorem bumpBy_mgmt (s : State) (r : Reg) (ix : List Nat) (n : Nat) : (s.bumpBy r ix n).mgmt = s.mgmt := rfl
@[simp] theorem bumpBy_objs (s : State) (r : Reg) (ix : List Nat) (n : Nat) : (s.bumpBy r ix n).objs = s.objs := rfl
@[simp] theorem bumpBy_tel (s : State) (r : Reg) (ix : List Nat) (n : Nat) : (s.bumpBy r ix n).tel = s.tel := rfl
@[simp] theorem bumpBy_time (s : State) (r : Reg) (ix : List Nat) (n : Nat) : (s.bumpBy r ix n).time = s.time := rfl
@[simp] theorem bumpBy_ticks (s : State) (r : Reg) (ix : List Nat) (n : Nat) : (s.bumpBy r ix n).ticks = s.ticks := rfl
@[simp] theorem bumpBy_ptp (s : State) (r : Reg) (ix : List Nat) (n : Nat) : (s.bumpBy r ix n).ptp = s.ptp := rfl
@[simp] theorem bumpBy_tide (s : State) (r : Reg) (ix : List Nat) (n : Nat) : (s.bumpBy r ix n).tide = s.tide := rfl
@[simp] theorem bumpBy_plan (s : State) (r : Reg) (ix : List Nat) (n : Nat) : (s.bumpBy r ix n).plan = s.plan := rfl
@[simp] theorem bumpBy_fibres (s : State) (r : Reg) (ix : List Nat) (n : Nat) : (s.bumpBy r ix n).fibres = s.fibres := rfl
@[simp] theorem bumpBy_ports (s : State) (r : Reg) (ix : List Nat) (n : Nat) : (s.bumpBy r ix n).ports = s.ports := rfl
@[simp] theorem bumpBy_lanes (s : State) (r : Reg) (ix : List Nat) (n : Nat) : (s.bumpBy r ix n).lanes = s.lanes := rfl
@[simp] theorem bumpBy_tiles (s : State) (r : Reg) (ix : List Nat) (n : Nat) : (s.bumpBy r ix n).tiles = s.tiles := rfl
@[simp] theorem bumpBy_queues (s : State) (r : Reg) (ix : List Nat) (n : Nat) : (s.bumpBy r ix n).queues = s.queues := rfl
@[simp] theorem bumpBy_undertow (s : State) (r : Reg) (ix : List Nat) (n : Nat) : (s.bumpBy r ix n).undertow = s.undertow := rfl
@[simp] theorem bumpBy_xbar (s : State) (r : Reg) (ix : List Nat) (n : Nat) : (s.bumpBy r ix n).xbar = s.xbar := rfl
@[simp] theorem bumpBy_frames (s : State) (r : Reg) (ix : List Nat) (n : Nat) : (s.bumpBy r ix n).frames = s.frames := rfl
@[simp] theorem bumpBy_tc (s : State) (r : Reg) (ix : List Nat) (n : Nat) : (s.bumpBy r ix n).tc = s.tc := rfl
@[simp] theorem bumpBy_tables (s : State) (r : Reg) (ix : List Nat) (n : Nat) : (s.bumpBy r ix n).tables = s.tables := rfl
@[simp] theorem bumpBy_gen (s : State) (r : Reg) (ix : List Nat) (n : Nat) : (s.bumpBy r ix n).gen = s.gen := rfl
@[simp] theorem bumpBy_est (s : State) (r : Reg) (ix : List Nat) (n : Nat) : (s.bumpBy r ix n).est = s.est := rfl
@[simp] theorem bumpBy_bwk (s : State) (r : Reg) (ix : List Nat) (n : Nat) : (s.bumpBy r ix n).bwk = s.bwk := rfl
@[simp] theorem bumpBy_mem (s : State) (r : Reg) (ix : List Nat) (n : Nat) : (s.bumpBy r ix n).mem = s.mem := rfl
@[simp] theorem bumpBy_csw (s : State) (r : Reg) (ix : List Nat) (n : Nat) : (s.bumpBy r ix n).csw = s.csw := rfl
@[simp] theorem bumpBy_swl (s : State) (r : Reg) (ix : List Nat) (n : Nat) : (s.bumpBy r ix n).swl = s.swl := rfl
@[simp] theorem bumpBy_opt (s : State) (r : Reg) (ix : List Nat) (n : Nat) : (s.bumpBy r ix n).opt = s.opt := rfl
@[simp] theorem bumpBy_d2d (s : State) (r : Reg) (ix : List Nat) (n : Nat) : (s.bumpBy r ix n).d2d = s.d2d := rfl
@[simp] theorem bumpBy_pwr (s : State) (r : Reg) (ix : List Nat) (n : Nat) : (s.bumpBy r ix n).pwr = s.pwr := rfl
@[simp] theorem bumpBy_bist (s : State) (r : Reg) (ix : List Nat) (n : Nat) : (s.bumpBy r ix n).bist = s.bist := rfl
@[simp] theorem bumpBy_fibreTx (s : State) (r : Reg) (ix : List Nat) (n : Nat) : (s.bumpBy r ix n).fibreTx = s.fibreTx := rfl
@[simp] theorem bumpBy_free (s : State) (r : Reg) (ix : List Nat) (n : Nat) : (s.bumpBy r ix n).free = s.free := rfl
@[simp] theorem bumpBy_pending (s : State) (r : Reg) (ix : List Nat) (n : Nat) : (s.bumpBy r ix n).pending = s.pending := rfl

/-! ### `bump` writes `regs` alone -/

@[simp] theorem bump_pins (s : State) (r : Reg) (ix : List Nat) : (s.bump r ix).pins = s.pins := rfl
@[simp] theorem bump_boot (s : State) (r : Reg) (ix : List Nat) : (s.bump r ix).boot = s.boot := rfl
@[simp] theorem bump_nvm (s : State) (r : Reg) (ix : List Nat) : (s.bump r ix).nvm = s.nvm := rfl
@[simp] theorem bump_fns (s : State) (r : Reg) (ix : List Nat) : (s.bump r ix).fns = s.fns := rfl
@[simp] theorem bump_latch (s : State) (r : Reg) (ix : List Nat) : (s.bump r ix).latch = s.latch := rfl
@[simp] theorem bump_mgmt (s : State) (r : Reg) (ix : List Nat) : (s.bump r ix).mgmt = s.mgmt := rfl
@[simp] theorem bump_objs (s : State) (r : Reg) (ix : List Nat) : (s.bump r ix).objs = s.objs := rfl
@[simp] theorem bump_tel (s : State) (r : Reg) (ix : List Nat) : (s.bump r ix).tel = s.tel := rfl
@[simp] theorem bump_time (s : State) (r : Reg) (ix : List Nat) : (s.bump r ix).time = s.time := rfl
@[simp] theorem bump_ticks (s : State) (r : Reg) (ix : List Nat) : (s.bump r ix).ticks = s.ticks := rfl
@[simp] theorem bump_ptp (s : State) (r : Reg) (ix : List Nat) : (s.bump r ix).ptp = s.ptp := rfl
@[simp] theorem bump_tide (s : State) (r : Reg) (ix : List Nat) : (s.bump r ix).tide = s.tide := rfl
@[simp] theorem bump_plan (s : State) (r : Reg) (ix : List Nat) : (s.bump r ix).plan = s.plan := rfl
@[simp] theorem bump_fibres (s : State) (r : Reg) (ix : List Nat) : (s.bump r ix).fibres = s.fibres := rfl
@[simp] theorem bump_ports (s : State) (r : Reg) (ix : List Nat) : (s.bump r ix).ports = s.ports := rfl
@[simp] theorem bump_lanes (s : State) (r : Reg) (ix : List Nat) : (s.bump r ix).lanes = s.lanes := rfl
@[simp] theorem bump_tiles (s : State) (r : Reg) (ix : List Nat) : (s.bump r ix).tiles = s.tiles := rfl
@[simp] theorem bump_queues (s : State) (r : Reg) (ix : List Nat) : (s.bump r ix).queues = s.queues := rfl
@[simp] theorem bump_undertow (s : State) (r : Reg) (ix : List Nat) : (s.bump r ix).undertow = s.undertow := rfl
@[simp] theorem bump_xbar (s : State) (r : Reg) (ix : List Nat) : (s.bump r ix).xbar = s.xbar := rfl
@[simp] theorem bump_frames (s : State) (r : Reg) (ix : List Nat) : (s.bump r ix).frames = s.frames := rfl
@[simp] theorem bump_tc (s : State) (r : Reg) (ix : List Nat) : (s.bump r ix).tc = s.tc := rfl
@[simp] theorem bump_tables (s : State) (r : Reg) (ix : List Nat) : (s.bump r ix).tables = s.tables := rfl
@[simp] theorem bump_gen (s : State) (r : Reg) (ix : List Nat) : (s.bump r ix).gen = s.gen := rfl
@[simp] theorem bump_est (s : State) (r : Reg) (ix : List Nat) : (s.bump r ix).est = s.est := rfl
@[simp] theorem bump_bwk (s : State) (r : Reg) (ix : List Nat) : (s.bump r ix).bwk = s.bwk := rfl
@[simp] theorem bump_mem (s : State) (r : Reg) (ix : List Nat) : (s.bump r ix).mem = s.mem := rfl
@[simp] theorem bump_csw (s : State) (r : Reg) (ix : List Nat) : (s.bump r ix).csw = s.csw := rfl
@[simp] theorem bump_swl (s : State) (r : Reg) (ix : List Nat) : (s.bump r ix).swl = s.swl := rfl
@[simp] theorem bump_opt (s : State) (r : Reg) (ix : List Nat) : (s.bump r ix).opt = s.opt := rfl
@[simp] theorem bump_d2d (s : State) (r : Reg) (ix : List Nat) : (s.bump r ix).d2d = s.d2d := rfl
@[simp] theorem bump_pwr (s : State) (r : Reg) (ix : List Nat) : (s.bump r ix).pwr = s.pwr := rfl
@[simp] theorem bump_bist (s : State) (r : Reg) (ix : List Nat) : (s.bump r ix).bist = s.bist := rfl
@[simp] theorem bump_fibreTx (s : State) (r : Reg) (ix : List Nat) : (s.bump r ix).fibreTx = s.fibreTx := rfl
@[simp] theorem bump_free (s : State) (r : Reg) (ix : List Nat) : (s.bump r ix).free = s.free := rfl
@[simp] theorem bump_pending (s : State) (r : Reg) (ix : List Nat) : (s.bump r ix).pending = s.pending := rfl

/-! ### `csAdd` writes `tel` alone -/

@[simp] theorem csAdd_pins (s : State) (a i j n : Nat) : (s.csAdd a i j n).pins = s.pins := rfl
@[simp] theorem csAdd_boot (s : State) (a i j n : Nat) : (s.csAdd a i j n).boot = s.boot := rfl
@[simp] theorem csAdd_nvm (s : State) (a i j n : Nat) : (s.csAdd a i j n).nvm = s.nvm := rfl
@[simp] theorem csAdd_fns (s : State) (a i j n : Nat) : (s.csAdd a i j n).fns = s.fns := rfl
@[simp] theorem csAdd_regs (s : State) (a i j n : Nat) : (s.csAdd a i j n).regs = s.regs := rfl
@[simp] theorem csAdd_latch (s : State) (a i j n : Nat) : (s.csAdd a i j n).latch = s.latch := rfl
@[simp] theorem csAdd_mgmt (s : State) (a i j n : Nat) : (s.csAdd a i j n).mgmt = s.mgmt := rfl
@[simp] theorem csAdd_objs (s : State) (a i j n : Nat) : (s.csAdd a i j n).objs = s.objs := rfl
@[simp] theorem csAdd_time (s : State) (a i j n : Nat) : (s.csAdd a i j n).time = s.time := rfl
@[simp] theorem csAdd_ticks (s : State) (a i j n : Nat) : (s.csAdd a i j n).ticks = s.ticks := rfl
@[simp] theorem csAdd_ptp (s : State) (a i j n : Nat) : (s.csAdd a i j n).ptp = s.ptp := rfl
@[simp] theorem csAdd_tide (s : State) (a i j n : Nat) : (s.csAdd a i j n).tide = s.tide := rfl
@[simp] theorem csAdd_plan (s : State) (a i j n : Nat) : (s.csAdd a i j n).plan = s.plan := rfl
@[simp] theorem csAdd_fibres (s : State) (a i j n : Nat) : (s.csAdd a i j n).fibres = s.fibres := rfl
@[simp] theorem csAdd_ports (s : State) (a i j n : Nat) : (s.csAdd a i j n).ports = s.ports := rfl
@[simp] theorem csAdd_lanes (s : State) (a i j n : Nat) : (s.csAdd a i j n).lanes = s.lanes := rfl
@[simp] theorem csAdd_tiles (s : State) (a i j n : Nat) : (s.csAdd a i j n).tiles = s.tiles := rfl
@[simp] theorem csAdd_queues (s : State) (a i j n : Nat) : (s.csAdd a i j n).queues = s.queues := rfl
@[simp] theorem csAdd_undertow (s : State) (a i j n : Nat) : (s.csAdd a i j n).undertow = s.undertow := rfl
@[simp] theorem csAdd_xbar (s : State) (a i j n : Nat) : (s.csAdd a i j n).xbar = s.xbar := rfl
@[simp] theorem csAdd_frames (s : State) (a i j n : Nat) : (s.csAdd a i j n).frames = s.frames := rfl
@[simp] theorem csAdd_tc (s : State) (a i j n : Nat) : (s.csAdd a i j n).tc = s.tc := rfl
@[simp] theorem csAdd_tables (s : State) (a i j n : Nat) : (s.csAdd a i j n).tables = s.tables := rfl
@[simp] theorem csAdd_gen (s : State) (a i j n : Nat) : (s.csAdd a i j n).gen = s.gen := rfl
@[simp] theorem csAdd_est (s : State) (a i j n : Nat) : (s.csAdd a i j n).est = s.est := rfl
@[simp] theorem csAdd_bwk (s : State) (a i j n : Nat) : (s.csAdd a i j n).bwk = s.bwk := rfl
@[simp] theorem csAdd_mem (s : State) (a i j n : Nat) : (s.csAdd a i j n).mem = s.mem := rfl
@[simp] theorem csAdd_csw (s : State) (a i j n : Nat) : (s.csAdd a i j n).csw = s.csw := rfl
@[simp] theorem csAdd_swl (s : State) (a i j n : Nat) : (s.csAdd a i j n).swl = s.swl := rfl
@[simp] theorem csAdd_opt (s : State) (a i j n : Nat) : (s.csAdd a i j n).opt = s.opt := rfl
@[simp] theorem csAdd_d2d (s : State) (a i j n : Nat) : (s.csAdd a i j n).d2d = s.d2d := rfl
@[simp] theorem csAdd_pwr (s : State) (a i j n : Nat) : (s.csAdd a i j n).pwr = s.pwr := rfl
@[simp] theorem csAdd_bist (s : State) (a i j n : Nat) : (s.csAdd a i j n).bist = s.bist := rfl
@[simp] theorem csAdd_fibreTx (s : State) (a i j n : Nat) : (s.csAdd a i j n).fibreTx = s.fibreTx := rfl
@[simp] theorem csAdd_free (s : State) (a i j n : Nat) : (s.csAdd a i j n).free = s.free := rfl
@[simp] theorem csAdd_pending (s : State) (a i j n : Nat) : (s.csAdd a i j n).pending = s.pending := rfl

/-! ### `setFn` writes `fns` alone -/

@[simp] theorem setFn_pins (s : State) (k : Nat) (f : FnState → FnState) : (s.setFn k f).pins = s.pins := rfl
@[simp] theorem setFn_boot (s : State) (k : Nat) (f : FnState → FnState) : (s.setFn k f).boot = s.boot := rfl
@[simp] theorem setFn_nvm (s : State) (k : Nat) (f : FnState → FnState) : (s.setFn k f).nvm = s.nvm := rfl
@[simp] theorem setFn_regs (s : State) (k : Nat) (f : FnState → FnState) : (s.setFn k f).regs = s.regs := rfl
@[simp] theorem setFn_latch (s : State) (k : Nat) (f : FnState → FnState) : (s.setFn k f).latch = s.latch := rfl
@[simp] theorem setFn_mgmt (s : State) (k : Nat) (f : FnState → FnState) : (s.setFn k f).mgmt = s.mgmt := rfl
@[simp] theorem setFn_objs (s : State) (k : Nat) (f : FnState → FnState) : (s.setFn k f).objs = s.objs := rfl
@[simp] theorem setFn_tel (s : State) (k : Nat) (f : FnState → FnState) : (s.setFn k f).tel = s.tel := rfl
@[simp] theorem setFn_time (s : State) (k : Nat) (f : FnState → FnState) : (s.setFn k f).time = s.time := rfl
@[simp] theorem setFn_ticks (s : State) (k : Nat) (f : FnState → FnState) : (s.setFn k f).ticks = s.ticks := rfl
@[simp] theorem setFn_ptp (s : State) (k : Nat) (f : FnState → FnState) : (s.setFn k f).ptp = s.ptp := rfl
@[simp] theorem setFn_tide (s : State) (k : Nat) (f : FnState → FnState) : (s.setFn k f).tide = s.tide := rfl
@[simp] theorem setFn_plan (s : State) (k : Nat) (f : FnState → FnState) : (s.setFn k f).plan = s.plan := rfl
@[simp] theorem setFn_fibres (s : State) (k : Nat) (f : FnState → FnState) : (s.setFn k f).fibres = s.fibres := rfl
@[simp] theorem setFn_ports (s : State) (k : Nat) (f : FnState → FnState) : (s.setFn k f).ports = s.ports := rfl
@[simp] theorem setFn_lanes (s : State) (k : Nat) (f : FnState → FnState) : (s.setFn k f).lanes = s.lanes := rfl
@[simp] theorem setFn_tiles (s : State) (k : Nat) (f : FnState → FnState) : (s.setFn k f).tiles = s.tiles := rfl
@[simp] theorem setFn_queues (s : State) (k : Nat) (f : FnState → FnState) : (s.setFn k f).queues = s.queues := rfl
@[simp] theorem setFn_undertow (s : State) (k : Nat) (f : FnState → FnState) : (s.setFn k f).undertow = s.undertow := rfl
@[simp] theorem setFn_xbar (s : State) (k : Nat) (f : FnState → FnState) : (s.setFn k f).xbar = s.xbar := rfl
@[simp] theorem setFn_frames (s : State) (k : Nat) (f : FnState → FnState) : (s.setFn k f).frames = s.frames := rfl
@[simp] theorem setFn_tc (s : State) (k : Nat) (f : FnState → FnState) : (s.setFn k f).tc = s.tc := rfl
@[simp] theorem setFn_tables (s : State) (k : Nat) (f : FnState → FnState) : (s.setFn k f).tables = s.tables := rfl
@[simp] theorem setFn_gen (s : State) (k : Nat) (f : FnState → FnState) : (s.setFn k f).gen = s.gen := rfl
@[simp] theorem setFn_est (s : State) (k : Nat) (f : FnState → FnState) : (s.setFn k f).est = s.est := rfl
@[simp] theorem setFn_bwk (s : State) (k : Nat) (f : FnState → FnState) : (s.setFn k f).bwk = s.bwk := rfl
@[simp] theorem setFn_mem (s : State) (k : Nat) (f : FnState → FnState) : (s.setFn k f).mem = s.mem := rfl
@[simp] theorem setFn_csw (s : State) (k : Nat) (f : FnState → FnState) : (s.setFn k f).csw = s.csw := rfl
@[simp] theorem setFn_swl (s : State) (k : Nat) (f : FnState → FnState) : (s.setFn k f).swl = s.swl := rfl
@[simp] theorem setFn_opt (s : State) (k : Nat) (f : FnState → FnState) : (s.setFn k f).opt = s.opt := rfl
@[simp] theorem setFn_d2d (s : State) (k : Nat) (f : FnState → FnState) : (s.setFn k f).d2d = s.d2d := rfl
@[simp] theorem setFn_pwr (s : State) (k : Nat) (f : FnState → FnState) : (s.setFn k f).pwr = s.pwr := rfl
@[simp] theorem setFn_bist (s : State) (k : Nat) (f : FnState → FnState) : (s.setFn k f).bist = s.bist := rfl
@[simp] theorem setFn_fibreTx (s : State) (k : Nat) (f : FnState → FnState) : (s.setFn k f).fibreTx = s.fibreTx := rfl
@[simp] theorem setFn_free (s : State) (k : Nat) (f : FnState → FnState) : (s.setFn k f).free = s.free := rfl
@[simp] theorem setFn_pending (s : State) (k : Nat) (f : FnState → FnState) : (s.setFn k f).pending = s.pending := rfl

/-! ### `setSlot` writes `mgmt` alone -/

@[simp] theorem setSlot_pins (s : State) (i : Nat) (f : Session → Session) : (s.setSlot i f).pins = s.pins := rfl
@[simp] theorem setSlot_boot (s : State) (i : Nat) (f : Session → Session) : (s.setSlot i f).boot = s.boot := rfl
@[simp] theorem setSlot_nvm (s : State) (i : Nat) (f : Session → Session) : (s.setSlot i f).nvm = s.nvm := rfl
@[simp] theorem setSlot_fns (s : State) (i : Nat) (f : Session → Session) : (s.setSlot i f).fns = s.fns := rfl
@[simp] theorem setSlot_regs (s : State) (i : Nat) (f : Session → Session) : (s.setSlot i f).regs = s.regs := rfl
@[simp] theorem setSlot_latch (s : State) (i : Nat) (f : Session → Session) : (s.setSlot i f).latch = s.latch := rfl
@[simp] theorem setSlot_objs (s : State) (i : Nat) (f : Session → Session) : (s.setSlot i f).objs = s.objs := rfl
@[simp] theorem setSlot_tel (s : State) (i : Nat) (f : Session → Session) : (s.setSlot i f).tel = s.tel := rfl
@[simp] theorem setSlot_time (s : State) (i : Nat) (f : Session → Session) : (s.setSlot i f).time = s.time := rfl
@[simp] theorem setSlot_ticks (s : State) (i : Nat) (f : Session → Session) : (s.setSlot i f).ticks = s.ticks := rfl
@[simp] theorem setSlot_ptp (s : State) (i : Nat) (f : Session → Session) : (s.setSlot i f).ptp = s.ptp := rfl
@[simp] theorem setSlot_tide (s : State) (i : Nat) (f : Session → Session) : (s.setSlot i f).tide = s.tide := rfl
@[simp] theorem setSlot_plan (s : State) (i : Nat) (f : Session → Session) : (s.setSlot i f).plan = s.plan := rfl
@[simp] theorem setSlot_fibres (s : State) (i : Nat) (f : Session → Session) : (s.setSlot i f).fibres = s.fibres := rfl
@[simp] theorem setSlot_ports (s : State) (i : Nat) (f : Session → Session) : (s.setSlot i f).ports = s.ports := rfl
@[simp] theorem setSlot_lanes (s : State) (i : Nat) (f : Session → Session) : (s.setSlot i f).lanes = s.lanes := rfl
@[simp] theorem setSlot_tiles (s : State) (i : Nat) (f : Session → Session) : (s.setSlot i f).tiles = s.tiles := rfl
@[simp] theorem setSlot_queues (s : State) (i : Nat) (f : Session → Session) : (s.setSlot i f).queues = s.queues := rfl
@[simp] theorem setSlot_undertow (s : State) (i : Nat) (f : Session → Session) : (s.setSlot i f).undertow = s.undertow := rfl
@[simp] theorem setSlot_xbar (s : State) (i : Nat) (f : Session → Session) : (s.setSlot i f).xbar = s.xbar := rfl
@[simp] theorem setSlot_frames (s : State) (i : Nat) (f : Session → Session) : (s.setSlot i f).frames = s.frames := rfl
@[simp] theorem setSlot_tc (s : State) (i : Nat) (f : Session → Session) : (s.setSlot i f).tc = s.tc := rfl
@[simp] theorem setSlot_tables (s : State) (i : Nat) (f : Session → Session) : (s.setSlot i f).tables = s.tables := rfl
@[simp] theorem setSlot_gen (s : State) (i : Nat) (f : Session → Session) : (s.setSlot i f).gen = s.gen := rfl
@[simp] theorem setSlot_est (s : State) (i : Nat) (f : Session → Session) : (s.setSlot i f).est = s.est := rfl
@[simp] theorem setSlot_bwk (s : State) (i : Nat) (f : Session → Session) : (s.setSlot i f).bwk = s.bwk := rfl
@[simp] theorem setSlot_mem (s : State) (i : Nat) (f : Session → Session) : (s.setSlot i f).mem = s.mem := rfl
@[simp] theorem setSlot_csw (s : State) (i : Nat) (f : Session → Session) : (s.setSlot i f).csw = s.csw := rfl
@[simp] theorem setSlot_swl (s : State) (i : Nat) (f : Session → Session) : (s.setSlot i f).swl = s.swl := rfl
@[simp] theorem setSlot_opt (s : State) (i : Nat) (f : Session → Session) : (s.setSlot i f).opt = s.opt := rfl
@[simp] theorem setSlot_d2d (s : State) (i : Nat) (f : Session → Session) : (s.setSlot i f).d2d = s.d2d := rfl
@[simp] theorem setSlot_pwr (s : State) (i : Nat) (f : Session → Session) : (s.setSlot i f).pwr = s.pwr := rfl
@[simp] theorem setSlot_bist (s : State) (i : Nat) (f : Session → Session) : (s.setSlot i f).bist = s.bist := rfl
@[simp] theorem setSlot_fibreTx (s : State) (i : Nat) (f : Session → Session) : (s.setSlot i f).fibreTx = s.fibreTx := rfl
@[simp] theorem setSlot_free (s : State) (i : Nat) (f : Session → Session) : (s.setSlot i f).free = s.free := rfl
@[simp] theorem setSlot_pending (s : State) (i : Nat) (f : Session → Session) : (s.setSlot i f).pending = s.pending := rfl

/-! ### `setObj` writes `objs` alone -/

@[simp] theorem setObj_pins (s : State) (h : Nat) (o : Obj) : (s.setObj h o).pins = s.pins := rfl
@[simp] theorem setObj_boot (s : State) (h : Nat) (o : Obj) : (s.setObj h o).boot = s.boot := rfl
@[simp] theorem setObj_nvm (s : State) (h : Nat) (o : Obj) : (s.setObj h o).nvm = s.nvm := rfl
@[simp] theorem setObj_fns (s : State) (h : Nat) (o : Obj) : (s.setObj h o).fns = s.fns := rfl
@[simp] theorem setObj_regs (s : State) (h : Nat) (o : Obj) : (s.setObj h o).regs = s.regs := rfl
@[simp] theorem setObj_latch (s : State) (h : Nat) (o : Obj) : (s.setObj h o).latch = s.latch := rfl
@[simp] theorem setObj_mgmt (s : State) (h : Nat) (o : Obj) : (s.setObj h o).mgmt = s.mgmt := rfl
@[simp] theorem setObj_tel (s : State) (h : Nat) (o : Obj) : (s.setObj h o).tel = s.tel := rfl
@[simp] theorem setObj_time (s : State) (h : Nat) (o : Obj) : (s.setObj h o).time = s.time := rfl
@[simp] theorem setObj_ticks (s : State) (h : Nat) (o : Obj) : (s.setObj h o).ticks = s.ticks := rfl
@[simp] theorem setObj_ptp (s : State) (h : Nat) (o : Obj) : (s.setObj h o).ptp = s.ptp := rfl
@[simp] theorem setObj_tide (s : State) (h : Nat) (o : Obj) : (s.setObj h o).tide = s.tide := rfl
@[simp] theorem setObj_plan (s : State) (h : Nat) (o : Obj) : (s.setObj h o).plan = s.plan := rfl
@[simp] theorem setObj_fibres (s : State) (h : Nat) (o : Obj) : (s.setObj h o).fibres = s.fibres := rfl
@[simp] theorem setObj_ports (s : State) (h : Nat) (o : Obj) : (s.setObj h o).ports = s.ports := rfl
@[simp] theorem setObj_lanes (s : State) (h : Nat) (o : Obj) : (s.setObj h o).lanes = s.lanes := rfl
@[simp] theorem setObj_tiles (s : State) (h : Nat) (o : Obj) : (s.setObj h o).tiles = s.tiles := rfl
@[simp] theorem setObj_queues (s : State) (h : Nat) (o : Obj) : (s.setObj h o).queues = s.queues := rfl
@[simp] theorem setObj_undertow (s : State) (h : Nat) (o : Obj) : (s.setObj h o).undertow = s.undertow := rfl
@[simp] theorem setObj_xbar (s : State) (h : Nat) (o : Obj) : (s.setObj h o).xbar = s.xbar := rfl
@[simp] theorem setObj_frames (s : State) (h : Nat) (o : Obj) : (s.setObj h o).frames = s.frames := rfl
@[simp] theorem setObj_tc (s : State) (h : Nat) (o : Obj) : (s.setObj h o).tc = s.tc := rfl
@[simp] theorem setObj_tables (s : State) (h : Nat) (o : Obj) : (s.setObj h o).tables = s.tables := rfl
@[simp] theorem setObj_gen (s : State) (h : Nat) (o : Obj) : (s.setObj h o).gen = s.gen := rfl
@[simp] theorem setObj_est (s : State) (h : Nat) (o : Obj) : (s.setObj h o).est = s.est := rfl
@[simp] theorem setObj_bwk (s : State) (h : Nat) (o : Obj) : (s.setObj h o).bwk = s.bwk := rfl
@[simp] theorem setObj_mem (s : State) (h : Nat) (o : Obj) : (s.setObj h o).mem = s.mem := rfl
@[simp] theorem setObj_csw (s : State) (h : Nat) (o : Obj) : (s.setObj h o).csw = s.csw := rfl
@[simp] theorem setObj_swl (s : State) (h : Nat) (o : Obj) : (s.setObj h o).swl = s.swl := rfl
@[simp] theorem setObj_opt (s : State) (h : Nat) (o : Obj) : (s.setObj h o).opt = s.opt := rfl
@[simp] theorem setObj_d2d (s : State) (h : Nat) (o : Obj) : (s.setObj h o).d2d = s.d2d := rfl
@[simp] theorem setObj_pwr (s : State) (h : Nat) (o : Obj) : (s.setObj h o).pwr = s.pwr := rfl
@[simp] theorem setObj_bist (s : State) (h : Nat) (o : Obj) : (s.setObj h o).bist = s.bist := rfl
@[simp] theorem setObj_fibreTx (s : State) (h : Nat) (o : Obj) : (s.setObj h o).fibreTx = s.fibreTx := rfl
@[simp] theorem setObj_free (s : State) (h : Nat) (o : Obj) : (s.setObj h o).free = s.free := rfl
@[simp] theorem setObj_pending (s : State) (h : Nat) (o : Obj) : (s.setObj h o).pending = s.pending := rfl

/-! ### `setFibre` writes `fibres` alone -/

@[simp] theorem setFibre_pins (s : State) (k : Nat) (f : FibreSt → FibreSt) : (s.setFibre k f).pins = s.pins := rfl
@[simp] theorem setFibre_boot (s : State) (k : Nat) (f : FibreSt → FibreSt) : (s.setFibre k f).boot = s.boot := rfl
@[simp] theorem setFibre_nvm (s : State) (k : Nat) (f : FibreSt → FibreSt) : (s.setFibre k f).nvm = s.nvm := rfl
@[simp] theorem setFibre_fns (s : State) (k : Nat) (f : FibreSt → FibreSt) : (s.setFibre k f).fns = s.fns := rfl
@[simp] theorem setFibre_regs (s : State) (k : Nat) (f : FibreSt → FibreSt) : (s.setFibre k f).regs = s.regs := rfl
@[simp] theorem setFibre_latch (s : State) (k : Nat) (f : FibreSt → FibreSt) : (s.setFibre k f).latch = s.latch := rfl
@[simp] theorem setFibre_mgmt (s : State) (k : Nat) (f : FibreSt → FibreSt) : (s.setFibre k f).mgmt = s.mgmt := rfl
@[simp] theorem setFibre_objs (s : State) (k : Nat) (f : FibreSt → FibreSt) : (s.setFibre k f).objs = s.objs := rfl
@[simp] theorem setFibre_tel (s : State) (k : Nat) (f : FibreSt → FibreSt) : (s.setFibre k f).tel = s.tel := rfl
@[simp] theorem setFibre_time (s : State) (k : Nat) (f : FibreSt → FibreSt) : (s.setFibre k f).time = s.time := rfl
@[simp] theorem setFibre_ticks (s : State) (k : Nat) (f : FibreSt → FibreSt) : (s.setFibre k f).ticks = s.ticks := rfl
@[simp] theorem setFibre_ptp (s : State) (k : Nat) (f : FibreSt → FibreSt) : (s.setFibre k f).ptp = s.ptp := rfl
@[simp] theorem setFibre_tide (s : State) (k : Nat) (f : FibreSt → FibreSt) : (s.setFibre k f).tide = s.tide := rfl
@[simp] theorem setFibre_plan (s : State) (k : Nat) (f : FibreSt → FibreSt) : (s.setFibre k f).plan = s.plan := rfl
@[simp] theorem setFibre_ports (s : State) (k : Nat) (f : FibreSt → FibreSt) : (s.setFibre k f).ports = s.ports := rfl
@[simp] theorem setFibre_lanes (s : State) (k : Nat) (f : FibreSt → FibreSt) : (s.setFibre k f).lanes = s.lanes := rfl
@[simp] theorem setFibre_tiles (s : State) (k : Nat) (f : FibreSt → FibreSt) : (s.setFibre k f).tiles = s.tiles := rfl
@[simp] theorem setFibre_queues (s : State) (k : Nat) (f : FibreSt → FibreSt) : (s.setFibre k f).queues = s.queues := rfl
@[simp] theorem setFibre_undertow (s : State) (k : Nat) (f : FibreSt → FibreSt) : (s.setFibre k f).undertow = s.undertow := rfl
@[simp] theorem setFibre_xbar (s : State) (k : Nat) (f : FibreSt → FibreSt) : (s.setFibre k f).xbar = s.xbar := rfl
@[simp] theorem setFibre_frames (s : State) (k : Nat) (f : FibreSt → FibreSt) : (s.setFibre k f).frames = s.frames := rfl
@[simp] theorem setFibre_tc (s : State) (k : Nat) (f : FibreSt → FibreSt) : (s.setFibre k f).tc = s.tc := rfl
@[simp] theorem setFibre_tables (s : State) (k : Nat) (f : FibreSt → FibreSt) : (s.setFibre k f).tables = s.tables := rfl
@[simp] theorem setFibre_gen (s : State) (k : Nat) (f : FibreSt → FibreSt) : (s.setFibre k f).gen = s.gen := rfl
@[simp] theorem setFibre_est (s : State) (k : Nat) (f : FibreSt → FibreSt) : (s.setFibre k f).est = s.est := rfl
@[simp] theorem setFibre_bwk (s : State) (k : Nat) (f : FibreSt → FibreSt) : (s.setFibre k f).bwk = s.bwk := rfl
@[simp] theorem setFibre_mem (s : State) (k : Nat) (f : FibreSt → FibreSt) : (s.setFibre k f).mem = s.mem := rfl
@[simp] theorem setFibre_csw (s : State) (k : Nat) (f : FibreSt → FibreSt) : (s.setFibre k f).csw = s.csw := rfl
@[simp] theorem setFibre_swl (s : State) (k : Nat) (f : FibreSt → FibreSt) : (s.setFibre k f).swl = s.swl := rfl
@[simp] theorem setFibre_opt (s : State) (k : Nat) (f : FibreSt → FibreSt) : (s.setFibre k f).opt = s.opt := rfl
@[simp] theorem setFibre_d2d (s : State) (k : Nat) (f : FibreSt → FibreSt) : (s.setFibre k f).d2d = s.d2d := rfl
@[simp] theorem setFibre_pwr (s : State) (k : Nat) (f : FibreSt → FibreSt) : (s.setFibre k f).pwr = s.pwr := rfl
@[simp] theorem setFibre_bist (s : State) (k : Nat) (f : FibreSt → FibreSt) : (s.setFibre k f).bist = s.bist := rfl
@[simp] theorem setFibre_fibreTx (s : State) (k : Nat) (f : FibreSt → FibreSt) : (s.setFibre k f).fibreTx = s.fibreTx := rfl
@[simp] theorem setFibre_free (s : State) (k : Nat) (f : FibreSt → FibreSt) : (s.setFibre k f).free = s.free := rfl
@[simp] theorem setFibre_pending (s : State) (k : Nat) (f : FibreSt → FibreSt) : (s.setFibre k f).pending = s.pending := rfl

/-! ### `setPort` writes `ports` alone -/

@[simp] theorem setPort_pins (s : State) (k : Nat) (f : PortSt → PortSt) : (s.setPort k f).pins = s.pins := rfl
@[simp] theorem setPort_boot (s : State) (k : Nat) (f : PortSt → PortSt) : (s.setPort k f).boot = s.boot := rfl
@[simp] theorem setPort_nvm (s : State) (k : Nat) (f : PortSt → PortSt) : (s.setPort k f).nvm = s.nvm := rfl
@[simp] theorem setPort_fns (s : State) (k : Nat) (f : PortSt → PortSt) : (s.setPort k f).fns = s.fns := rfl
@[simp] theorem setPort_regs (s : State) (k : Nat) (f : PortSt → PortSt) : (s.setPort k f).regs = s.regs := rfl
@[simp] theorem setPort_latch (s : State) (k : Nat) (f : PortSt → PortSt) : (s.setPort k f).latch = s.latch := rfl
@[simp] theorem setPort_mgmt (s : State) (k : Nat) (f : PortSt → PortSt) : (s.setPort k f).mgmt = s.mgmt := rfl
@[simp] theorem setPort_objs (s : State) (k : Nat) (f : PortSt → PortSt) : (s.setPort k f).objs = s.objs := rfl
@[simp] theorem setPort_tel (s : State) (k : Nat) (f : PortSt → PortSt) : (s.setPort k f).tel = s.tel := rfl
@[simp] theorem setPort_time (s : State) (k : Nat) (f : PortSt → PortSt) : (s.setPort k f).time = s.time := rfl
@[simp] theorem setPort_ticks (s : State) (k : Nat) (f : PortSt → PortSt) : (s.setPort k f).ticks = s.ticks := rfl
@[simp] theorem setPort_ptp (s : State) (k : Nat) (f : PortSt → PortSt) : (s.setPort k f).ptp = s.ptp := rfl
@[simp] theorem setPort_tide (s : State) (k : Nat) (f : PortSt → PortSt) : (s.setPort k f).tide = s.tide := rfl
@[simp] theorem setPort_plan (s : State) (k : Nat) (f : PortSt → PortSt) : (s.setPort k f).plan = s.plan := rfl
@[simp] theorem setPort_fibres (s : State) (k : Nat) (f : PortSt → PortSt) : (s.setPort k f).fibres = s.fibres := rfl
@[simp] theorem setPort_lanes (s : State) (k : Nat) (f : PortSt → PortSt) : (s.setPort k f).lanes = s.lanes := rfl
@[simp] theorem setPort_tiles (s : State) (k : Nat) (f : PortSt → PortSt) : (s.setPort k f).tiles = s.tiles := rfl
@[simp] theorem setPort_queues (s : State) (k : Nat) (f : PortSt → PortSt) : (s.setPort k f).queues = s.queues := rfl
@[simp] theorem setPort_undertow (s : State) (k : Nat) (f : PortSt → PortSt) : (s.setPort k f).undertow = s.undertow := rfl
@[simp] theorem setPort_xbar (s : State) (k : Nat) (f : PortSt → PortSt) : (s.setPort k f).xbar = s.xbar := rfl
@[simp] theorem setPort_frames (s : State) (k : Nat) (f : PortSt → PortSt) : (s.setPort k f).frames = s.frames := rfl
@[simp] theorem setPort_tc (s : State) (k : Nat) (f : PortSt → PortSt) : (s.setPort k f).tc = s.tc := rfl
@[simp] theorem setPort_tables (s : State) (k : Nat) (f : PortSt → PortSt) : (s.setPort k f).tables = s.tables := rfl
@[simp] theorem setPort_gen (s : State) (k : Nat) (f : PortSt → PortSt) : (s.setPort k f).gen = s.gen := rfl
@[simp] theorem setPort_est (s : State) (k : Nat) (f : PortSt → PortSt) : (s.setPort k f).est = s.est := rfl
@[simp] theorem setPort_bwk (s : State) (k : Nat) (f : PortSt → PortSt) : (s.setPort k f).bwk = s.bwk := rfl
@[simp] theorem setPort_mem (s : State) (k : Nat) (f : PortSt → PortSt) : (s.setPort k f).mem = s.mem := rfl
@[simp] theorem setPort_csw (s : State) (k : Nat) (f : PortSt → PortSt) : (s.setPort k f).csw = s.csw := rfl
@[simp] theorem setPort_swl (s : State) (k : Nat) (f : PortSt → PortSt) : (s.setPort k f).swl = s.swl := rfl
@[simp] theorem setPort_opt (s : State) (k : Nat) (f : PortSt → PortSt) : (s.setPort k f).opt = s.opt := rfl
@[simp] theorem setPort_d2d (s : State) (k : Nat) (f : PortSt → PortSt) : (s.setPort k f).d2d = s.d2d := rfl
@[simp] theorem setPort_pwr (s : State) (k : Nat) (f : PortSt → PortSt) : (s.setPort k f).pwr = s.pwr := rfl
@[simp] theorem setPort_bist (s : State) (k : Nat) (f : PortSt → PortSt) : (s.setPort k f).bist = s.bist := rfl
@[simp] theorem setPort_fibreTx (s : State) (k : Nat) (f : PortSt → PortSt) : (s.setPort k f).fibreTx = s.fibreTx := rfl
@[simp] theorem setPort_free (s : State) (k : Nat) (f : PortSt → PortSt) : (s.setPort k f).free = s.free := rfl
@[simp] theorem setPort_pending (s : State) (k : Nat) (f : PortSt → PortSt) : (s.setPort k f).pending = s.pending := rfl

/-! ### `setLane` writes `lanes` alone -/

@[simp] theorem setLane_pins (s : State) (k : Nat) (f : LaneSt → LaneSt) : (s.setLane k f).pins = s.pins := rfl
@[simp] theorem setLane_boot (s : State) (k : Nat) (f : LaneSt → LaneSt) : (s.setLane k f).boot = s.boot := rfl
@[simp] theorem setLane_nvm (s : State) (k : Nat) (f : LaneSt → LaneSt) : (s.setLane k f).nvm = s.nvm := rfl
@[simp] theorem setLane_fns (s : State) (k : Nat) (f : LaneSt → LaneSt) : (s.setLane k f).fns = s.fns := rfl
@[simp] theorem setLane_regs (s : State) (k : Nat) (f : LaneSt → LaneSt) : (s.setLane k f).regs = s.regs := rfl
@[simp] theorem setLane_latch (s : State) (k : Nat) (f : LaneSt → LaneSt) : (s.setLane k f).latch = s.latch := rfl
@[simp] theorem setLane_mgmt (s : State) (k : Nat) (f : LaneSt → LaneSt) : (s.setLane k f).mgmt = s.mgmt := rfl
@[simp] theorem setLane_objs (s : State) (k : Nat) (f : LaneSt → LaneSt) : (s.setLane k f).objs = s.objs := rfl
@[simp] theorem setLane_tel (s : State) (k : Nat) (f : LaneSt → LaneSt) : (s.setLane k f).tel = s.tel := rfl
@[simp] theorem setLane_time (s : State) (k : Nat) (f : LaneSt → LaneSt) : (s.setLane k f).time = s.time := rfl
@[simp] theorem setLane_ticks (s : State) (k : Nat) (f : LaneSt → LaneSt) : (s.setLane k f).ticks = s.ticks := rfl
@[simp] theorem setLane_ptp (s : State) (k : Nat) (f : LaneSt → LaneSt) : (s.setLane k f).ptp = s.ptp := rfl
@[simp] theorem setLane_tide (s : State) (k : Nat) (f : LaneSt → LaneSt) : (s.setLane k f).tide = s.tide := rfl
@[simp] theorem setLane_plan (s : State) (k : Nat) (f : LaneSt → LaneSt) : (s.setLane k f).plan = s.plan := rfl
@[simp] theorem setLane_fibres (s : State) (k : Nat) (f : LaneSt → LaneSt) : (s.setLane k f).fibres = s.fibres := rfl
@[simp] theorem setLane_ports (s : State) (k : Nat) (f : LaneSt → LaneSt) : (s.setLane k f).ports = s.ports := rfl
@[simp] theorem setLane_tiles (s : State) (k : Nat) (f : LaneSt → LaneSt) : (s.setLane k f).tiles = s.tiles := rfl
@[simp] theorem setLane_queues (s : State) (k : Nat) (f : LaneSt → LaneSt) : (s.setLane k f).queues = s.queues := rfl
@[simp] theorem setLane_undertow (s : State) (k : Nat) (f : LaneSt → LaneSt) : (s.setLane k f).undertow = s.undertow := rfl
@[simp] theorem setLane_xbar (s : State) (k : Nat) (f : LaneSt → LaneSt) : (s.setLane k f).xbar = s.xbar := rfl
@[simp] theorem setLane_frames (s : State) (k : Nat) (f : LaneSt → LaneSt) : (s.setLane k f).frames = s.frames := rfl
@[simp] theorem setLane_tc (s : State) (k : Nat) (f : LaneSt → LaneSt) : (s.setLane k f).tc = s.tc := rfl
@[simp] theorem setLane_tables (s : State) (k : Nat) (f : LaneSt → LaneSt) : (s.setLane k f).tables = s.tables := rfl
@[simp] theorem setLane_gen (s : State) (k : Nat) (f : LaneSt → LaneSt) : (s.setLane k f).gen = s.gen := rfl
@[simp] theorem setLane_est (s : State) (k : Nat) (f : LaneSt → LaneSt) : (s.setLane k f).est = s.est := rfl
@[simp] theorem setLane_bwk (s : State) (k : Nat) (f : LaneSt → LaneSt) : (s.setLane k f).bwk = s.bwk := rfl
@[simp] theorem setLane_mem (s : State) (k : Nat) (f : LaneSt → LaneSt) : (s.setLane k f).mem = s.mem := rfl
@[simp] theorem setLane_csw (s : State) (k : Nat) (f : LaneSt → LaneSt) : (s.setLane k f).csw = s.csw := rfl
@[simp] theorem setLane_swl (s : State) (k : Nat) (f : LaneSt → LaneSt) : (s.setLane k f).swl = s.swl := rfl
@[simp] theorem setLane_opt (s : State) (k : Nat) (f : LaneSt → LaneSt) : (s.setLane k f).opt = s.opt := rfl
@[simp] theorem setLane_d2d (s : State) (k : Nat) (f : LaneSt → LaneSt) : (s.setLane k f).d2d = s.d2d := rfl
@[simp] theorem setLane_pwr (s : State) (k : Nat) (f : LaneSt → LaneSt) : (s.setLane k f).pwr = s.pwr := rfl
@[simp] theorem setLane_bist (s : State) (k : Nat) (f : LaneSt → LaneSt) : (s.setLane k f).bist = s.bist := rfl
@[simp] theorem setLane_fibreTx (s : State) (k : Nat) (f : LaneSt → LaneSt) : (s.setLane k f).fibreTx = s.fibreTx := rfl
@[simp] theorem setLane_free (s : State) (k : Nat) (f : LaneSt → LaneSt) : (s.setLane k f).free = s.free := rfl
@[simp] theorem setLane_pending (s : State) (k : Nat) (f : LaneSt → LaneSt) : (s.setLane k f).pending = s.pending := rfl

/-! ### `setTile` writes `tiles` alone -/

@[simp] theorem setTile_pins (s : State) (k : Nat) (f : TileSt → TileSt) : (s.setTile k f).pins = s.pins := rfl
@[simp] theorem setTile_boot (s : State) (k : Nat) (f : TileSt → TileSt) : (s.setTile k f).boot = s.boot := rfl
@[simp] theorem setTile_nvm (s : State) (k : Nat) (f : TileSt → TileSt) : (s.setTile k f).nvm = s.nvm := rfl
@[simp] theorem setTile_fns (s : State) (k : Nat) (f : TileSt → TileSt) : (s.setTile k f).fns = s.fns := rfl
@[simp] theorem setTile_regs (s : State) (k : Nat) (f : TileSt → TileSt) : (s.setTile k f).regs = s.regs := rfl
@[simp] theorem setTile_latch (s : State) (k : Nat) (f : TileSt → TileSt) : (s.setTile k f).latch = s.latch := rfl
@[simp] theorem setTile_mgmt (s : State) (k : Nat) (f : TileSt → TileSt) : (s.setTile k f).mgmt = s.mgmt := rfl
@[simp] theorem setTile_objs (s : State) (k : Nat) (f : TileSt → TileSt) : (s.setTile k f).objs = s.objs := rfl
@[simp] theorem setTile_tel (s : State) (k : Nat) (f : TileSt → TileSt) : (s.setTile k f).tel = s.tel := rfl
@[simp] theorem setTile_time (s : State) (k : Nat) (f : TileSt → TileSt) : (s.setTile k f).time = s.time := rfl
@[simp] theorem setTile_ticks (s : State) (k : Nat) (f : TileSt → TileSt) : (s.setTile k f).ticks = s.ticks := rfl
@[simp] theorem setTile_ptp (s : State) (k : Nat) (f : TileSt → TileSt) : (s.setTile k f).ptp = s.ptp := rfl
@[simp] theorem setTile_tide (s : State) (k : Nat) (f : TileSt → TileSt) : (s.setTile k f).tide = s.tide := rfl
@[simp] theorem setTile_plan (s : State) (k : Nat) (f : TileSt → TileSt) : (s.setTile k f).plan = s.plan := rfl
@[simp] theorem setTile_fibres (s : State) (k : Nat) (f : TileSt → TileSt) : (s.setTile k f).fibres = s.fibres := rfl
@[simp] theorem setTile_ports (s : State) (k : Nat) (f : TileSt → TileSt) : (s.setTile k f).ports = s.ports := rfl
@[simp] theorem setTile_lanes (s : State) (k : Nat) (f : TileSt → TileSt) : (s.setTile k f).lanes = s.lanes := rfl
@[simp] theorem setTile_queues (s : State) (k : Nat) (f : TileSt → TileSt) : (s.setTile k f).queues = s.queues := rfl
@[simp] theorem setTile_undertow (s : State) (k : Nat) (f : TileSt → TileSt) : (s.setTile k f).undertow = s.undertow := rfl
@[simp] theorem setTile_xbar (s : State) (k : Nat) (f : TileSt → TileSt) : (s.setTile k f).xbar = s.xbar := rfl
@[simp] theorem setTile_frames (s : State) (k : Nat) (f : TileSt → TileSt) : (s.setTile k f).frames = s.frames := rfl
@[simp] theorem setTile_tc (s : State) (k : Nat) (f : TileSt → TileSt) : (s.setTile k f).tc = s.tc := rfl
@[simp] theorem setTile_tables (s : State) (k : Nat) (f : TileSt → TileSt) : (s.setTile k f).tables = s.tables := rfl
@[simp] theorem setTile_gen (s : State) (k : Nat) (f : TileSt → TileSt) : (s.setTile k f).gen = s.gen := rfl
@[simp] theorem setTile_est (s : State) (k : Nat) (f : TileSt → TileSt) : (s.setTile k f).est = s.est := rfl
@[simp] theorem setTile_bwk (s : State) (k : Nat) (f : TileSt → TileSt) : (s.setTile k f).bwk = s.bwk := rfl
@[simp] theorem setTile_mem (s : State) (k : Nat) (f : TileSt → TileSt) : (s.setTile k f).mem = s.mem := rfl
@[simp] theorem setTile_csw (s : State) (k : Nat) (f : TileSt → TileSt) : (s.setTile k f).csw = s.csw := rfl
@[simp] theorem setTile_swl (s : State) (k : Nat) (f : TileSt → TileSt) : (s.setTile k f).swl = s.swl := rfl
@[simp] theorem setTile_opt (s : State) (k : Nat) (f : TileSt → TileSt) : (s.setTile k f).opt = s.opt := rfl
@[simp] theorem setTile_d2d (s : State) (k : Nat) (f : TileSt → TileSt) : (s.setTile k f).d2d = s.d2d := rfl
@[simp] theorem setTile_pwr (s : State) (k : Nat) (f : TileSt → TileSt) : (s.setTile k f).pwr = s.pwr := rfl
@[simp] theorem setTile_bist (s : State) (k : Nat) (f : TileSt → TileSt) : (s.setTile k f).bist = s.bist := rfl
@[simp] theorem setTile_fibreTx (s : State) (k : Nat) (f : TileSt → TileSt) : (s.setTile k f).fibreTx = s.fibreTx := rfl
@[simp] theorem setTile_free (s : State) (k : Nat) (f : TileSt → TileSt) : (s.setTile k f).free = s.free := rfl
@[simp] theorem setTile_pending (s : State) (k : Nat) (f : TileSt → TileSt) : (s.setTile k f).pending = s.pending := rfl

/-! ### `setQueue` writes `queues` alone -/

@[simp] theorem setQueue_pins (s : State) (k : Nat) (q : List QCell) : (s.setQueue k q).pins = s.pins := rfl
@[simp] theorem setQueue_boot (s : State) (k : Nat) (q : List QCell) : (s.setQueue k q).boot = s.boot := rfl
@[simp] theorem setQueue_nvm (s : State) (k : Nat) (q : List QCell) : (s.setQueue k q).nvm = s.nvm := rfl
@[simp] theorem setQueue_fns (s : State) (k : Nat) (q : List QCell) : (s.setQueue k q).fns = s.fns := rfl
@[simp] theorem setQueue_regs (s : State) (k : Nat) (q : List QCell) : (s.setQueue k q).regs = s.regs := rfl
@[simp] theorem setQueue_latch (s : State) (k : Nat) (q : List QCell) : (s.setQueue k q).latch = s.latch := rfl
@[simp] theorem setQueue_mgmt (s : State) (k : Nat) (q : List QCell) : (s.setQueue k q).mgmt = s.mgmt := rfl
@[simp] theorem setQueue_objs (s : State) (k : Nat) (q : List QCell) : (s.setQueue k q).objs = s.objs := rfl
@[simp] theorem setQueue_tel (s : State) (k : Nat) (q : List QCell) : (s.setQueue k q).tel = s.tel := rfl
@[simp] theorem setQueue_time (s : State) (k : Nat) (q : List QCell) : (s.setQueue k q).time = s.time := rfl
@[simp] theorem setQueue_ticks (s : State) (k : Nat) (q : List QCell) : (s.setQueue k q).ticks = s.ticks := rfl
@[simp] theorem setQueue_ptp (s : State) (k : Nat) (q : List QCell) : (s.setQueue k q).ptp = s.ptp := rfl
@[simp] theorem setQueue_tide (s : State) (k : Nat) (q : List QCell) : (s.setQueue k q).tide = s.tide := rfl
@[simp] theorem setQueue_plan (s : State) (k : Nat) (q : List QCell) : (s.setQueue k q).plan = s.plan := rfl
@[simp] theorem setQueue_fibres (s : State) (k : Nat) (q : List QCell) : (s.setQueue k q).fibres = s.fibres := rfl
@[simp] theorem setQueue_ports (s : State) (k : Nat) (q : List QCell) : (s.setQueue k q).ports = s.ports := rfl
@[simp] theorem setQueue_lanes (s : State) (k : Nat) (q : List QCell) : (s.setQueue k q).lanes = s.lanes := rfl
@[simp] theorem setQueue_tiles (s : State) (k : Nat) (q : List QCell) : (s.setQueue k q).tiles = s.tiles := rfl
@[simp] theorem setQueue_undertow (s : State) (k : Nat) (q : List QCell) : (s.setQueue k q).undertow = s.undertow := rfl
@[simp] theorem setQueue_xbar (s : State) (k : Nat) (q : List QCell) : (s.setQueue k q).xbar = s.xbar := rfl
@[simp] theorem setQueue_frames (s : State) (k : Nat) (q : List QCell) : (s.setQueue k q).frames = s.frames := rfl
@[simp] theorem setQueue_tc (s : State) (k : Nat) (q : List QCell) : (s.setQueue k q).tc = s.tc := rfl
@[simp] theorem setQueue_tables (s : State) (k : Nat) (q : List QCell) : (s.setQueue k q).tables = s.tables := rfl
@[simp] theorem setQueue_gen (s : State) (k : Nat) (q : List QCell) : (s.setQueue k q).gen = s.gen := rfl
@[simp] theorem setQueue_est (s : State) (k : Nat) (q : List QCell) : (s.setQueue k q).est = s.est := rfl
@[simp] theorem setQueue_bwk (s : State) (k : Nat) (q : List QCell) : (s.setQueue k q).bwk = s.bwk := rfl
@[simp] theorem setQueue_mem (s : State) (k : Nat) (q : List QCell) : (s.setQueue k q).mem = s.mem := rfl
@[simp] theorem setQueue_csw (s : State) (k : Nat) (q : List QCell) : (s.setQueue k q).csw = s.csw := rfl
@[simp] theorem setQueue_swl (s : State) (k : Nat) (q : List QCell) : (s.setQueue k q).swl = s.swl := rfl
@[simp] theorem setQueue_opt (s : State) (k : Nat) (q : List QCell) : (s.setQueue k q).opt = s.opt := rfl
@[simp] theorem setQueue_d2d (s : State) (k : Nat) (q : List QCell) : (s.setQueue k q).d2d = s.d2d := rfl
@[simp] theorem setQueue_pwr (s : State) (k : Nat) (q : List QCell) : (s.setQueue k q).pwr = s.pwr := rfl
@[simp] theorem setQueue_bist (s : State) (k : Nat) (q : List QCell) : (s.setQueue k q).bist = s.bist := rfl
@[simp] theorem setQueue_fibreTx (s : State) (k : Nat) (q : List QCell) : (s.setQueue k q).fibreTx = s.fibreTx := rfl
@[simp] theorem setQueue_free (s : State) (k : Nat) (q : List QCell) : (s.setQueue k q).free = s.free := rfl
@[simp] theorem setQueue_pending (s : State) (k : Nat) (q : List QCell) : (s.setQueue k q).pending = s.pending := rfl

/-! ### `setUnder` writes `undertow` alone -/

@[simp] theorem setUnder_pins (s : State) (k : Nat) (q : List QCell) : (s.setUnder k q).pins = s.pins := rfl
@[simp] theorem setUnder_boot (s : State) (k : Nat) (q : List QCell) : (s.setUnder k q).boot = s.boot := rfl
@[simp] theorem setUnder_nvm (s : State) (k : Nat) (q : List QCell) : (s.setUnder k q).nvm = s.nvm := rfl
@[simp] theorem setUnder_fns (s : State) (k : Nat) (q : List QCell) : (s.setUnder k q).fns = s.fns := rfl
@[simp] theorem setUnder_regs (s : State) (k : Nat) (q : List QCell) : (s.setUnder k q).regs = s.regs := rfl
@[simp] theorem setUnder_latch (s : State) (k : Nat) (q : List QCell) : (s.setUnder k q).latch = s.latch := rfl
@[simp] theorem setUnder_mgmt (s : State) (k : Nat) (q : List QCell) : (s.setUnder k q).mgmt = s.mgmt := rfl
@[simp] theorem setUnder_objs (s : State) (k : Nat) (q : List QCell) : (s.setUnder k q).objs = s.objs := rfl
@[simp] theorem setUnder_tel (s : State) (k : Nat) (q : List QCell) : (s.setUnder k q).tel = s.tel := rfl
@[simp] theorem setUnder_time (s : State) (k : Nat) (q : List QCell) : (s.setUnder k q).time = s.time := rfl
@[simp] theorem setUnder_ticks (s : State) (k : Nat) (q : List QCell) : (s.setUnder k q).ticks = s.ticks := rfl
@[simp] theorem setUnder_ptp (s : State) (k : Nat) (q : List QCell) : (s.setUnder k q).ptp = s.ptp := rfl
@[simp] theorem setUnder_tide (s : State) (k : Nat) (q : List QCell) : (s.setUnder k q).tide = s.tide := rfl
@[simp] theorem setUnder_plan (s : State) (k : Nat) (q : List QCell) : (s.setUnder k q).plan = s.plan := rfl
@[simp] theorem setUnder_fibres (s : State) (k : Nat) (q : List QCell) : (s.setUnder k q).fibres = s.fibres := rfl
@[simp] theorem setUnder_ports (s : State) (k : Nat) (q : List QCell) : (s.setUnder k q).ports = s.ports := rfl
@[simp] theorem setUnder_lanes (s : State) (k : Nat) (q : List QCell) : (s.setUnder k q).lanes = s.lanes := rfl
@[simp] theorem setUnder_tiles (s : State) (k : Nat) (q : List QCell) : (s.setUnder k q).tiles = s.tiles := rfl
@[simp] theorem setUnder_queues (s : State) (k : Nat) (q : List QCell) : (s.setUnder k q).queues = s.queues := rfl
@[simp] theorem setUnder_xbar (s : State) (k : Nat) (q : List QCell) : (s.setUnder k q).xbar = s.xbar := rfl
@[simp] theorem setUnder_frames (s : State) (k : Nat) (q : List QCell) : (s.setUnder k q).frames = s.frames := rfl
@[simp] theorem setUnder_tc (s : State) (k : Nat) (q : List QCell) : (s.setUnder k q).tc = s.tc := rfl
@[simp] theorem setUnder_tables (s : State) (k : Nat) (q : List QCell) : (s.setUnder k q).tables = s.tables := rfl
@[simp] theorem setUnder_gen (s : State) (k : Nat) (q : List QCell) : (s.setUnder k q).gen = s.gen := rfl
@[simp] theorem setUnder_est (s : State) (k : Nat) (q : List QCell) : (s.setUnder k q).est = s.est := rfl
@[simp] theorem setUnder_bwk (s : State) (k : Nat) (q : List QCell) : (s.setUnder k q).bwk = s.bwk := rfl
@[simp] theorem setUnder_mem (s : State) (k : Nat) (q : List QCell) : (s.setUnder k q).mem = s.mem := rfl
@[simp] theorem setUnder_csw (s : State) (k : Nat) (q : List QCell) : (s.setUnder k q).csw = s.csw := rfl
@[simp] theorem setUnder_swl (s : State) (k : Nat) (q : List QCell) : (s.setUnder k q).swl = s.swl := rfl
@[simp] theorem setUnder_opt (s : State) (k : Nat) (q : List QCell) : (s.setUnder k q).opt = s.opt := rfl
@[simp] theorem setUnder_d2d (s : State) (k : Nat) (q : List QCell) : (s.setUnder k q).d2d = s.d2d := rfl
@[simp] theorem setUnder_pwr (s : State) (k : Nat) (q : List QCell) : (s.setUnder k q).pwr = s.pwr := rfl
@[simp] theorem setUnder_bist (s : State) (k : Nat) (q : List QCell) : (s.setUnder k q).bist = s.bist := rfl
@[simp] theorem setUnder_fibreTx (s : State) (k : Nat) (q : List QCell) : (s.setUnder k q).fibreTx = s.fibreTx := rfl
@[simp] theorem setUnder_free (s : State) (k : Nat) (q : List QCell) : (s.setUnder k q).free = s.free := rfl
@[simp] theorem setUnder_pending (s : State) (k : Nat) (q : List QCell) : (s.setUnder k q).pending = s.pending := rfl

/-! ### `setBrg` writes `mem` alone -/

@[simp] theorem setBrg_pins (s : State) (b : Nat) (f : BridgeSt → BridgeSt) : (s.setBrg b f).pins = s.pins := rfl
@[simp] theorem setBrg_boot (s : State) (b : Nat) (f : BridgeSt → BridgeSt) : (s.setBrg b f).boot = s.boot := rfl
@[simp] theorem setBrg_nvm (s : State) (b : Nat) (f : BridgeSt → BridgeSt) : (s.setBrg b f).nvm = s.nvm := rfl
@[simp] theorem setBrg_fns (s : State) (b : Nat) (f : BridgeSt → BridgeSt) : (s.setBrg b f).fns = s.fns := rfl
@[simp] theorem setBrg_regs (s : State) (b : Nat) (f : BridgeSt → BridgeSt) : (s.setBrg b f).regs = s.regs := rfl
@[simp] theorem setBrg_latch (s : State) (b : Nat) (f : BridgeSt → BridgeSt) : (s.setBrg b f).latch = s.latch := rfl
@[simp] theorem setBrg_mgmt (s : State) (b : Nat) (f : BridgeSt → BridgeSt) : (s.setBrg b f).mgmt = s.mgmt := rfl
@[simp] theorem setBrg_objs (s : State) (b : Nat) (f : BridgeSt → BridgeSt) : (s.setBrg b f).objs = s.objs := rfl
@[simp] theorem setBrg_tel (s : State) (b : Nat) (f : BridgeSt → BridgeSt) : (s.setBrg b f).tel = s.tel := rfl
@[simp] theorem setBrg_time (s : State) (b : Nat) (f : BridgeSt → BridgeSt) : (s.setBrg b f).time = s.time := rfl
@[simp] theorem setBrg_ticks (s : State) (b : Nat) (f : BridgeSt → BridgeSt) : (s.setBrg b f).ticks = s.ticks := rfl
@[simp] theorem setBrg_ptp (s : State) (b : Nat) (f : BridgeSt → BridgeSt) : (s.setBrg b f).ptp = s.ptp := rfl
@[simp] theorem setBrg_tide (s : State) (b : Nat) (f : BridgeSt → BridgeSt) : (s.setBrg b f).tide = s.tide := rfl
@[simp] theorem setBrg_plan (s : State) (b : Nat) (f : BridgeSt → BridgeSt) : (s.setBrg b f).plan = s.plan := rfl
@[simp] theorem setBrg_fibres (s : State) (b : Nat) (f : BridgeSt → BridgeSt) : (s.setBrg b f).fibres = s.fibres := rfl
@[simp] theorem setBrg_ports (s : State) (b : Nat) (f : BridgeSt → BridgeSt) : (s.setBrg b f).ports = s.ports := rfl
@[simp] theorem setBrg_lanes (s : State) (b : Nat) (f : BridgeSt → BridgeSt) : (s.setBrg b f).lanes = s.lanes := rfl
@[simp] theorem setBrg_tiles (s : State) (b : Nat) (f : BridgeSt → BridgeSt) : (s.setBrg b f).tiles = s.tiles := rfl
@[simp] theorem setBrg_queues (s : State) (b : Nat) (f : BridgeSt → BridgeSt) : (s.setBrg b f).queues = s.queues := rfl
@[simp] theorem setBrg_undertow (s : State) (b : Nat) (f : BridgeSt → BridgeSt) : (s.setBrg b f).undertow = s.undertow := rfl
@[simp] theorem setBrg_xbar (s : State) (b : Nat) (f : BridgeSt → BridgeSt) : (s.setBrg b f).xbar = s.xbar := rfl
@[simp] theorem setBrg_frames (s : State) (b : Nat) (f : BridgeSt → BridgeSt) : (s.setBrg b f).frames = s.frames := rfl
@[simp] theorem setBrg_tc (s : State) (b : Nat) (f : BridgeSt → BridgeSt) : (s.setBrg b f).tc = s.tc := rfl
@[simp] theorem setBrg_tables (s : State) (b : Nat) (f : BridgeSt → BridgeSt) : (s.setBrg b f).tables = s.tables := rfl
@[simp] theorem setBrg_gen (s : State) (b : Nat) (f : BridgeSt → BridgeSt) : (s.setBrg b f).gen = s.gen := rfl
@[simp] theorem setBrg_est (s : State) (b : Nat) (f : BridgeSt → BridgeSt) : (s.setBrg b f).est = s.est := rfl
@[simp] theorem setBrg_bwk (s : State) (b : Nat) (f : BridgeSt → BridgeSt) : (s.setBrg b f).bwk = s.bwk := rfl
@[simp] theorem setBrg_csw (s : State) (b : Nat) (f : BridgeSt → BridgeSt) : (s.setBrg b f).csw = s.csw := rfl
@[simp] theorem setBrg_swl (s : State) (b : Nat) (f : BridgeSt → BridgeSt) : (s.setBrg b f).swl = s.swl := rfl
@[simp] theorem setBrg_opt (s : State) (b : Nat) (f : BridgeSt → BridgeSt) : (s.setBrg b f).opt = s.opt := rfl
@[simp] theorem setBrg_d2d (s : State) (b : Nat) (f : BridgeSt → BridgeSt) : (s.setBrg b f).d2d = s.d2d := rfl
@[simp] theorem setBrg_pwr (s : State) (b : Nat) (f : BridgeSt → BridgeSt) : (s.setBrg b f).pwr = s.pwr := rfl
@[simp] theorem setBrg_bist (s : State) (b : Nat) (f : BridgeSt → BridgeSt) : (s.setBrg b f).bist = s.bist := rfl
@[simp] theorem setBrg_fibreTx (s : State) (b : Nat) (f : BridgeSt → BridgeSt) : (s.setBrg b f).fibreTx = s.fibreTx := rfl
@[simp] theorem setBrg_free (s : State) (b : Nat) (f : BridgeSt → BridgeSt) : (s.setBrg b f).free = s.free := rfl
@[simp] theorem setBrg_pending (s : State) (b : Nat) (f : BridgeSt → BridgeSt) : (s.setBrg b f).pending = s.pending := rfl

/-! ### `setOe` writes `opt` alone -/

@[simp] theorem setOe_pins (s : State) (e : Nat) (f : EngineSt → EngineSt) : (s.setOe e f).pins = s.pins := rfl
@[simp] theorem setOe_boot (s : State) (e : Nat) (f : EngineSt → EngineSt) : (s.setOe e f).boot = s.boot := rfl
@[simp] theorem setOe_nvm (s : State) (e : Nat) (f : EngineSt → EngineSt) : (s.setOe e f).nvm = s.nvm := rfl
@[simp] theorem setOe_fns (s : State) (e : Nat) (f : EngineSt → EngineSt) : (s.setOe e f).fns = s.fns := rfl
@[simp] theorem setOe_regs (s : State) (e : Nat) (f : EngineSt → EngineSt) : (s.setOe e f).regs = s.regs := rfl
@[simp] theorem setOe_latch (s : State) (e : Nat) (f : EngineSt → EngineSt) : (s.setOe e f).latch = s.latch := rfl
@[simp] theorem setOe_mgmt (s : State) (e : Nat) (f : EngineSt → EngineSt) : (s.setOe e f).mgmt = s.mgmt := rfl
@[simp] theorem setOe_objs (s : State) (e : Nat) (f : EngineSt → EngineSt) : (s.setOe e f).objs = s.objs := rfl
@[simp] theorem setOe_tel (s : State) (e : Nat) (f : EngineSt → EngineSt) : (s.setOe e f).tel = s.tel := rfl
@[simp] theorem setOe_time (s : State) (e : Nat) (f : EngineSt → EngineSt) : (s.setOe e f).time = s.time := rfl
@[simp] theorem setOe_ticks (s : State) (e : Nat) (f : EngineSt → EngineSt) : (s.setOe e f).ticks = s.ticks := rfl
@[simp] theorem setOe_ptp (s : State) (e : Nat) (f : EngineSt → EngineSt) : (s.setOe e f).ptp = s.ptp := rfl
@[simp] theorem setOe_tide (s : State) (e : Nat) (f : EngineSt → EngineSt) : (s.setOe e f).tide = s.tide := rfl
@[simp] theorem setOe_plan (s : State) (e : Nat) (f : EngineSt → EngineSt) : (s.setOe e f).plan = s.plan := rfl
@[simp] theorem setOe_fibres (s : State) (e : Nat) (f : EngineSt → EngineSt) : (s.setOe e f).fibres = s.fibres := rfl
@[simp] theorem setOe_ports (s : State) (e : Nat) (f : EngineSt → EngineSt) : (s.setOe e f).ports = s.ports := rfl
@[simp] theorem setOe_lanes (s : State) (e : Nat) (f : EngineSt → EngineSt) : (s.setOe e f).lanes = s.lanes := rfl
@[simp] theorem setOe_tiles (s : State) (e : Nat) (f : EngineSt → EngineSt) : (s.setOe e f).tiles = s.tiles := rfl
@[simp] theorem setOe_queues (s : State) (e : Nat) (f : EngineSt → EngineSt) : (s.setOe e f).queues = s.queues := rfl
@[simp] theorem setOe_undertow (s : State) (e : Nat) (f : EngineSt → EngineSt) : (s.setOe e f).undertow = s.undertow := rfl
@[simp] theorem setOe_xbar (s : State) (e : Nat) (f : EngineSt → EngineSt) : (s.setOe e f).xbar = s.xbar := rfl
@[simp] theorem setOe_frames (s : State) (e : Nat) (f : EngineSt → EngineSt) : (s.setOe e f).frames = s.frames := rfl
@[simp] theorem setOe_tc (s : State) (e : Nat) (f : EngineSt → EngineSt) : (s.setOe e f).tc = s.tc := rfl
@[simp] theorem setOe_tables (s : State) (e : Nat) (f : EngineSt → EngineSt) : (s.setOe e f).tables = s.tables := rfl
@[simp] theorem setOe_gen (s : State) (e : Nat) (f : EngineSt → EngineSt) : (s.setOe e f).gen = s.gen := rfl
@[simp] theorem setOe_est (s : State) (e : Nat) (f : EngineSt → EngineSt) : (s.setOe e f).est = s.est := rfl
@[simp] theorem setOe_bwk (s : State) (e : Nat) (f : EngineSt → EngineSt) : (s.setOe e f).bwk = s.bwk := rfl
@[simp] theorem setOe_mem (s : State) (e : Nat) (f : EngineSt → EngineSt) : (s.setOe e f).mem = s.mem := rfl
@[simp] theorem setOe_csw (s : State) (e : Nat) (f : EngineSt → EngineSt) : (s.setOe e f).csw = s.csw := rfl
@[simp] theorem setOe_swl (s : State) (e : Nat) (f : EngineSt → EngineSt) : (s.setOe e f).swl = s.swl := rfl
@[simp] theorem setOe_d2d (s : State) (e : Nat) (f : EngineSt → EngineSt) : (s.setOe e f).d2d = s.d2d := rfl
@[simp] theorem setOe_pwr (s : State) (e : Nat) (f : EngineSt → EngineSt) : (s.setOe e f).pwr = s.pwr := rfl
@[simp] theorem setOe_bist (s : State) (e : Nat) (f : EngineSt → EngineSt) : (s.setOe e f).bist = s.bist := rfl
@[simp] theorem setOe_fibreTx (s : State) (e : Nat) (f : EngineSt → EngineSt) : (s.setOe e f).fibreTx = s.fibreTx := rfl
@[simp] theorem setOe_free (s : State) (e : Nat) (f : EngineSt → EngineSt) : (s.setOe e f).free = s.free := rfl
@[simp] theorem setOe_pending (s : State) (e : Nat) (f : EngineSt → EngineSt) : (s.setOe e f).pending = s.pending := rfl

/-! ### `setRing` writes `opt` alone -/

@[simp] theorem setRing_pins (s : State) (e r : Nat) (f : RingSt → RingSt) : (s.setRing e r f).pins = s.pins := rfl
@[simp] theorem setRing_boot (s : State) (e r : Nat) (f : RingSt → RingSt) : (s.setRing e r f).boot = s.boot := rfl
@[simp] theorem setRing_nvm (s : State) (e r : Nat) (f : RingSt → RingSt) : (s.setRing e r f).nvm = s.nvm := rfl
@[simp] theorem setRing_fns (s : State) (e r : Nat) (f : RingSt → RingSt) : (s.setRing e r f).fns = s.fns := rfl
@[simp] theorem setRing_regs (s : State) (e r : Nat) (f : RingSt → RingSt) : (s.setRing e r f).regs = s.regs := rfl
@[simp] theorem setRing_latch (s : State) (e r : Nat) (f : RingSt → RingSt) : (s.setRing e r f).latch = s.latch := rfl
@[simp] theorem setRing_mgmt (s : State) (e r : Nat) (f : RingSt → RingSt) : (s.setRing e r f).mgmt = s.mgmt := rfl
@[simp] theorem setRing_objs (s : State) (e r : Nat) (f : RingSt → RingSt) : (s.setRing e r f).objs = s.objs := rfl
@[simp] theorem setRing_tel (s : State) (e r : Nat) (f : RingSt → RingSt) : (s.setRing e r f).tel = s.tel := rfl
@[simp] theorem setRing_time (s : State) (e r : Nat) (f : RingSt → RingSt) : (s.setRing e r f).time = s.time := rfl
@[simp] theorem setRing_ticks (s : State) (e r : Nat) (f : RingSt → RingSt) : (s.setRing e r f).ticks = s.ticks := rfl
@[simp] theorem setRing_ptp (s : State) (e r : Nat) (f : RingSt → RingSt) : (s.setRing e r f).ptp = s.ptp := rfl
@[simp] theorem setRing_tide (s : State) (e r : Nat) (f : RingSt → RingSt) : (s.setRing e r f).tide = s.tide := rfl
@[simp] theorem setRing_plan (s : State) (e r : Nat) (f : RingSt → RingSt) : (s.setRing e r f).plan = s.plan := rfl
@[simp] theorem setRing_fibres (s : State) (e r : Nat) (f : RingSt → RingSt) : (s.setRing e r f).fibres = s.fibres := rfl
@[simp] theorem setRing_ports (s : State) (e r : Nat) (f : RingSt → RingSt) : (s.setRing e r f).ports = s.ports := rfl
@[simp] theorem setRing_lanes (s : State) (e r : Nat) (f : RingSt → RingSt) : (s.setRing e r f).lanes = s.lanes := rfl
@[simp] theorem setRing_tiles (s : State) (e r : Nat) (f : RingSt → RingSt) : (s.setRing e r f).tiles = s.tiles := rfl
@[simp] theorem setRing_queues (s : State) (e r : Nat) (f : RingSt → RingSt) : (s.setRing e r f).queues = s.queues := rfl
@[simp] theorem setRing_undertow (s : State) (e r : Nat) (f : RingSt → RingSt) : (s.setRing e r f).undertow = s.undertow := rfl
@[simp] theorem setRing_xbar (s : State) (e r : Nat) (f : RingSt → RingSt) : (s.setRing e r f).xbar = s.xbar := rfl
@[simp] theorem setRing_frames (s : State) (e r : Nat) (f : RingSt → RingSt) : (s.setRing e r f).frames = s.frames := rfl
@[simp] theorem setRing_tc (s : State) (e r : Nat) (f : RingSt → RingSt) : (s.setRing e r f).tc = s.tc := rfl
@[simp] theorem setRing_tables (s : State) (e r : Nat) (f : RingSt → RingSt) : (s.setRing e r f).tables = s.tables := rfl
@[simp] theorem setRing_gen (s : State) (e r : Nat) (f : RingSt → RingSt) : (s.setRing e r f).gen = s.gen := rfl
@[simp] theorem setRing_est (s : State) (e r : Nat) (f : RingSt → RingSt) : (s.setRing e r f).est = s.est := rfl
@[simp] theorem setRing_bwk (s : State) (e r : Nat) (f : RingSt → RingSt) : (s.setRing e r f).bwk = s.bwk := rfl
@[simp] theorem setRing_mem (s : State) (e r : Nat) (f : RingSt → RingSt) : (s.setRing e r f).mem = s.mem := rfl
@[simp] theorem setRing_csw (s : State) (e r : Nat) (f : RingSt → RingSt) : (s.setRing e r f).csw = s.csw := rfl
@[simp] theorem setRing_swl (s : State) (e r : Nat) (f : RingSt → RingSt) : (s.setRing e r f).swl = s.swl := rfl
@[simp] theorem setRing_d2d (s : State) (e r : Nat) (f : RingSt → RingSt) : (s.setRing e r f).d2d = s.d2d := rfl
@[simp] theorem setRing_pwr (s : State) (e r : Nat) (f : RingSt → RingSt) : (s.setRing e r f).pwr = s.pwr := rfl
@[simp] theorem setRing_bist (s : State) (e r : Nat) (f : RingSt → RingSt) : (s.setRing e r f).bist = s.bist := rfl
@[simp] theorem setRing_fibreTx (s : State) (e r : Nat) (f : RingSt → RingSt) : (s.setRing e r f).fibreTx = s.fibreTx := rfl
@[simp] theorem setRing_free (s : State) (e r : Nat) (f : RingSt → RingSt) : (s.setRing e r f).free = s.free := rfl
@[simp] theorem setRing_pending (s : State) (e r : Nat) (f : RingSt → RingSt) : (s.setRing e r f).pending = s.pending := rfl

/-! ### `setEye` writes `opt` alone -/

@[simp] theorem setEye_pins (s : State) (k : Nat) (f : EyeSt → EyeSt) : (s.setEye k f).pins = s.pins := rfl
@[simp] theorem setEye_boot (s : State) (k : Nat) (f : EyeSt → EyeSt) : (s.setEye k f).boot = s.boot := rfl
@[simp] theorem setEye_nvm (s : State) (k : Nat) (f : EyeSt → EyeSt) : (s.setEye k f).nvm = s.nvm := rfl
@[simp] theorem setEye_fns (s : State) (k : Nat) (f : EyeSt → EyeSt) : (s.setEye k f).fns = s.fns := rfl
@[simp] theorem setEye_regs (s : State) (k : Nat) (f : EyeSt → EyeSt) : (s.setEye k f).regs = s.regs := rfl
@[simp] theorem setEye_latch (s : State) (k : Nat) (f : EyeSt → EyeSt) : (s.setEye k f).latch = s.latch := rfl
@[simp] theorem setEye_mgmt (s : State) (k : Nat) (f : EyeSt → EyeSt) : (s.setEye k f).mgmt = s.mgmt := rfl
@[simp] theorem setEye_objs (s : State) (k : Nat) (f : EyeSt → EyeSt) : (s.setEye k f).objs = s.objs := rfl
@[simp] theorem setEye_tel (s : State) (k : Nat) (f : EyeSt → EyeSt) : (s.setEye k f).tel = s.tel := rfl
@[simp] theorem setEye_time (s : State) (k : Nat) (f : EyeSt → EyeSt) : (s.setEye k f).time = s.time := rfl
@[simp] theorem setEye_ticks (s : State) (k : Nat) (f : EyeSt → EyeSt) : (s.setEye k f).ticks = s.ticks := rfl
@[simp] theorem setEye_ptp (s : State) (k : Nat) (f : EyeSt → EyeSt) : (s.setEye k f).ptp = s.ptp := rfl
@[simp] theorem setEye_tide (s : State) (k : Nat) (f : EyeSt → EyeSt) : (s.setEye k f).tide = s.tide := rfl
@[simp] theorem setEye_plan (s : State) (k : Nat) (f : EyeSt → EyeSt) : (s.setEye k f).plan = s.plan := rfl
@[simp] theorem setEye_fibres (s : State) (k : Nat) (f : EyeSt → EyeSt) : (s.setEye k f).fibres = s.fibres := rfl
@[simp] theorem setEye_ports (s : State) (k : Nat) (f : EyeSt → EyeSt) : (s.setEye k f).ports = s.ports := rfl
@[simp] theorem setEye_lanes (s : State) (k : Nat) (f : EyeSt → EyeSt) : (s.setEye k f).lanes = s.lanes := rfl
@[simp] theorem setEye_tiles (s : State) (k : Nat) (f : EyeSt → EyeSt) : (s.setEye k f).tiles = s.tiles := rfl
@[simp] theorem setEye_queues (s : State) (k : Nat) (f : EyeSt → EyeSt) : (s.setEye k f).queues = s.queues := rfl
@[simp] theorem setEye_undertow (s : State) (k : Nat) (f : EyeSt → EyeSt) : (s.setEye k f).undertow = s.undertow := rfl
@[simp] theorem setEye_xbar (s : State) (k : Nat) (f : EyeSt → EyeSt) : (s.setEye k f).xbar = s.xbar := rfl
@[simp] theorem setEye_frames (s : State) (k : Nat) (f : EyeSt → EyeSt) : (s.setEye k f).frames = s.frames := rfl
@[simp] theorem setEye_tc (s : State) (k : Nat) (f : EyeSt → EyeSt) : (s.setEye k f).tc = s.tc := rfl
@[simp] theorem setEye_tables (s : State) (k : Nat) (f : EyeSt → EyeSt) : (s.setEye k f).tables = s.tables := rfl
@[simp] theorem setEye_gen (s : State) (k : Nat) (f : EyeSt → EyeSt) : (s.setEye k f).gen = s.gen := rfl
@[simp] theorem setEye_est (s : State) (k : Nat) (f : EyeSt → EyeSt) : (s.setEye k f).est = s.est := rfl
@[simp] theorem setEye_bwk (s : State) (k : Nat) (f : EyeSt → EyeSt) : (s.setEye k f).bwk = s.bwk := rfl
@[simp] theorem setEye_mem (s : State) (k : Nat) (f : EyeSt → EyeSt) : (s.setEye k f).mem = s.mem := rfl
@[simp] theorem setEye_csw (s : State) (k : Nat) (f : EyeSt → EyeSt) : (s.setEye k f).csw = s.csw := rfl
@[simp] theorem setEye_swl (s : State) (k : Nat) (f : EyeSt → EyeSt) : (s.setEye k f).swl = s.swl := rfl
@[simp] theorem setEye_d2d (s : State) (k : Nat) (f : EyeSt → EyeSt) : (s.setEye k f).d2d = s.d2d := rfl
@[simp] theorem setEye_pwr (s : State) (k : Nat) (f : EyeSt → EyeSt) : (s.setEye k f).pwr = s.pwr := rfl
@[simp] theorem setEye_bist (s : State) (k : Nat) (f : EyeSt → EyeSt) : (s.setEye k f).bist = s.bist := rfl
@[simp] theorem setEye_fibreTx (s : State) (k : Nat) (f : EyeSt → EyeSt) : (s.setEye k f).fibreTx = s.fibreTx := rfl
@[simp] theorem setEye_free (s : State) (k : Nat) (f : EyeSt → EyeSt) : (s.setEye k f).free = s.free := rfl
@[simp] theorem setEye_pending (s : State) (k : Nat) (f : EyeSt → EyeSt) : (s.setEye k f).pending = s.pending := rfl

/-! ### `setDie` writes `pwr` alone -/

@[simp] theorem setDie_pins (s : State) (d : Nat) (f : DieSt → DieSt) : (s.setDie d f).pins = s.pins := rfl
@[simp] theorem setDie_boot (s : State) (d : Nat) (f : DieSt → DieSt) : (s.setDie d f).boot = s.boot := rfl
@[simp] theorem setDie_nvm (s : State) (d : Nat) (f : DieSt → DieSt) : (s.setDie d f).nvm = s.nvm := rfl
@[simp] theorem setDie_fns (s : State) (d : Nat) (f : DieSt → DieSt) : (s.setDie d f).fns = s.fns := rfl
@[simp] theorem setDie_regs (s : State) (d : Nat) (f : DieSt → DieSt) : (s.setDie d f).regs = s.regs := rfl
@[simp] theorem setDie_latch (s : State) (d : Nat) (f : DieSt → DieSt) : (s.setDie d f).latch = s.latch := rfl
@[simp] theorem setDie_mgmt (s : State) (d : Nat) (f : DieSt → DieSt) : (s.setDie d f).mgmt = s.mgmt := rfl
@[simp] theorem setDie_objs (s : State) (d : Nat) (f : DieSt → DieSt) : (s.setDie d f).objs = s.objs := rfl
@[simp] theorem setDie_tel (s : State) (d : Nat) (f : DieSt → DieSt) : (s.setDie d f).tel = s.tel := rfl
@[simp] theorem setDie_time (s : State) (d : Nat) (f : DieSt → DieSt) : (s.setDie d f).time = s.time := rfl
@[simp] theorem setDie_ticks (s : State) (d : Nat) (f : DieSt → DieSt) : (s.setDie d f).ticks = s.ticks := rfl
@[simp] theorem setDie_ptp (s : State) (d : Nat) (f : DieSt → DieSt) : (s.setDie d f).ptp = s.ptp := rfl
@[simp] theorem setDie_tide (s : State) (d : Nat) (f : DieSt → DieSt) : (s.setDie d f).tide = s.tide := rfl
@[simp] theorem setDie_plan (s : State) (d : Nat) (f : DieSt → DieSt) : (s.setDie d f).plan = s.plan := rfl
@[simp] theorem setDie_fibres (s : State) (d : Nat) (f : DieSt → DieSt) : (s.setDie d f).fibres = s.fibres := rfl
@[simp] theorem setDie_ports (s : State) (d : Nat) (f : DieSt → DieSt) : (s.setDie d f).ports = s.ports := rfl
@[simp] theorem setDie_lanes (s : State) (d : Nat) (f : DieSt → DieSt) : (s.setDie d f).lanes = s.lanes := rfl
@[simp] theorem setDie_tiles (s : State) (d : Nat) (f : DieSt → DieSt) : (s.setDie d f).tiles = s.tiles := rfl
@[simp] theorem setDie_queues (s : State) (d : Nat) (f : DieSt → DieSt) : (s.setDie d f).queues = s.queues := rfl
@[simp] theorem setDie_undertow (s : State) (d : Nat) (f : DieSt → DieSt) : (s.setDie d f).undertow = s.undertow := rfl
@[simp] theorem setDie_xbar (s : State) (d : Nat) (f : DieSt → DieSt) : (s.setDie d f).xbar = s.xbar := rfl
@[simp] theorem setDie_frames (s : State) (d : Nat) (f : DieSt → DieSt) : (s.setDie d f).frames = s.frames := rfl
@[simp] theorem setDie_tc (s : State) (d : Nat) (f : DieSt → DieSt) : (s.setDie d f).tc = s.tc := rfl
@[simp] theorem setDie_tables (s : State) (d : Nat) (f : DieSt → DieSt) : (s.setDie d f).tables = s.tables := rfl
@[simp] theorem setDie_gen (s : State) (d : Nat) (f : DieSt → DieSt) : (s.setDie d f).gen = s.gen := rfl
@[simp] theorem setDie_est (s : State) (d : Nat) (f : DieSt → DieSt) : (s.setDie d f).est = s.est := rfl
@[simp] theorem setDie_bwk (s : State) (d : Nat) (f : DieSt → DieSt) : (s.setDie d f).bwk = s.bwk := rfl
@[simp] theorem setDie_mem (s : State) (d : Nat) (f : DieSt → DieSt) : (s.setDie d f).mem = s.mem := rfl
@[simp] theorem setDie_csw (s : State) (d : Nat) (f : DieSt → DieSt) : (s.setDie d f).csw = s.csw := rfl
@[simp] theorem setDie_swl (s : State) (d : Nat) (f : DieSt → DieSt) : (s.setDie d f).swl = s.swl := rfl
@[simp] theorem setDie_opt (s : State) (d : Nat) (f : DieSt → DieSt) : (s.setDie d f).opt = s.opt := rfl
@[simp] theorem setDie_d2d (s : State) (d : Nat) (f : DieSt → DieSt) : (s.setDie d f).d2d = s.d2d := rfl
@[simp] theorem setDie_bist (s : State) (d : Nat) (f : DieSt → DieSt) : (s.setDie d f).bist = s.bist := rfl
@[simp] theorem setDie_fibreTx (s : State) (d : Nat) (f : DieSt → DieSt) : (s.setDie d f).fibreTx = s.fibreTx := rfl
@[simp] theorem setDie_free (s : State) (d : Nat) (f : DieSt → DieSt) : (s.setDie d f).free = s.free := rfl
@[simp] theorem setDie_pending (s : State) (d : Nat) (f : DieSt → DieSt) : (s.setDie d f).pending = s.pending := rfl

/-! ### `setLink` writes `d2d` alone -/

@[simp] theorem setLink_pins (s : State) (l : Nat) (f : LinkSt → LinkSt) : (s.setLink l f).pins = s.pins := rfl
@[simp] theorem setLink_boot (s : State) (l : Nat) (f : LinkSt → LinkSt) : (s.setLink l f).boot = s.boot := rfl
@[simp] theorem setLink_nvm (s : State) (l : Nat) (f : LinkSt → LinkSt) : (s.setLink l f).nvm = s.nvm := rfl
@[simp] theorem setLink_fns (s : State) (l : Nat) (f : LinkSt → LinkSt) : (s.setLink l f).fns = s.fns := rfl
@[simp] theorem setLink_regs (s : State) (l : Nat) (f : LinkSt → LinkSt) : (s.setLink l f).regs = s.regs := rfl
@[simp] theorem setLink_latch (s : State) (l : Nat) (f : LinkSt → LinkSt) : (s.setLink l f).latch = s.latch := rfl
@[simp] theorem setLink_mgmt (s : State) (l : Nat) (f : LinkSt → LinkSt) : (s.setLink l f).mgmt = s.mgmt := rfl
@[simp] theorem setLink_objs (s : State) (l : Nat) (f : LinkSt → LinkSt) : (s.setLink l f).objs = s.objs := rfl
@[simp] theorem setLink_tel (s : State) (l : Nat) (f : LinkSt → LinkSt) : (s.setLink l f).tel = s.tel := rfl
@[simp] theorem setLink_time (s : State) (l : Nat) (f : LinkSt → LinkSt) : (s.setLink l f).time = s.time := rfl
@[simp] theorem setLink_ticks (s : State) (l : Nat) (f : LinkSt → LinkSt) : (s.setLink l f).ticks = s.ticks := rfl
@[simp] theorem setLink_ptp (s : State) (l : Nat) (f : LinkSt → LinkSt) : (s.setLink l f).ptp = s.ptp := rfl
@[simp] theorem setLink_tide (s : State) (l : Nat) (f : LinkSt → LinkSt) : (s.setLink l f).tide = s.tide := rfl
@[simp] theorem setLink_plan (s : State) (l : Nat) (f : LinkSt → LinkSt) : (s.setLink l f).plan = s.plan := rfl
@[simp] theorem setLink_fibres (s : State) (l : Nat) (f : LinkSt → LinkSt) : (s.setLink l f).fibres = s.fibres := rfl
@[simp] theorem setLink_ports (s : State) (l : Nat) (f : LinkSt → LinkSt) : (s.setLink l f).ports = s.ports := rfl
@[simp] theorem setLink_lanes (s : State) (l : Nat) (f : LinkSt → LinkSt) : (s.setLink l f).lanes = s.lanes := rfl
@[simp] theorem setLink_tiles (s : State) (l : Nat) (f : LinkSt → LinkSt) : (s.setLink l f).tiles = s.tiles := rfl
@[simp] theorem setLink_queues (s : State) (l : Nat) (f : LinkSt → LinkSt) : (s.setLink l f).queues = s.queues := rfl
@[simp] theorem setLink_undertow (s : State) (l : Nat) (f : LinkSt → LinkSt) : (s.setLink l f).undertow = s.undertow := rfl
@[simp] theorem setLink_xbar (s : State) (l : Nat) (f : LinkSt → LinkSt) : (s.setLink l f).xbar = s.xbar := rfl
@[simp] theorem setLink_frames (s : State) (l : Nat) (f : LinkSt → LinkSt) : (s.setLink l f).frames = s.frames := rfl
@[simp] theorem setLink_tc (s : State) (l : Nat) (f : LinkSt → LinkSt) : (s.setLink l f).tc = s.tc := rfl
@[simp] theorem setLink_tables (s : State) (l : Nat) (f : LinkSt → LinkSt) : (s.setLink l f).tables = s.tables := rfl
@[simp] theorem setLink_gen (s : State) (l : Nat) (f : LinkSt → LinkSt) : (s.setLink l f).gen = s.gen := rfl
@[simp] theorem setLink_est (s : State) (l : Nat) (f : LinkSt → LinkSt) : (s.setLink l f).est = s.est := rfl
@[simp] theorem setLink_bwk (s : State) (l : Nat) (f : LinkSt → LinkSt) : (s.setLink l f).bwk = s.bwk := rfl
@[simp] theorem setLink_mem (s : State) (l : Nat) (f : LinkSt → LinkSt) : (s.setLink l f).mem = s.mem := rfl
@[simp] theorem setLink_csw (s : State) (l : Nat) (f : LinkSt → LinkSt) : (s.setLink l f).csw = s.csw := rfl
@[simp] theorem setLink_swl (s : State) (l : Nat) (f : LinkSt → LinkSt) : (s.setLink l f).swl = s.swl := rfl
@[simp] theorem setLink_opt (s : State) (l : Nat) (f : LinkSt → LinkSt) : (s.setLink l f).opt = s.opt := rfl
@[simp] theorem setLink_pwr (s : State) (l : Nat) (f : LinkSt → LinkSt) : (s.setLink l f).pwr = s.pwr := rfl
@[simp] theorem setLink_bist (s : State) (l : Nat) (f : LinkSt → LinkSt) : (s.setLink l f).bist = s.bist := rfl
@[simp] theorem setLink_fibreTx (s : State) (l : Nat) (f : LinkSt → LinkSt) : (s.setLink l f).fibreTx = s.fibreTx := rfl
@[simp] theorem setLink_free (s : State) (l : Nat) (f : LinkSt → LinkSt) : (s.setLink l f).free = s.free := rfl
@[simp] theorem setLink_pending (s : State) (l : Nat) (f : LinkSt → LinkSt) : (s.setLink l f).pending = s.pending := rfl

/-! ### `putCtx` writes `est` alone -/

@[simp] theorem putCtx_pins (s : State) (x : Nat) (c : Ctx) : (s.putCtx x c).pins = s.pins := rfl
@[simp] theorem putCtx_boot (s : State) (x : Nat) (c : Ctx) : (s.putCtx x c).boot = s.boot := rfl
@[simp] theorem putCtx_nvm (s : State) (x : Nat) (c : Ctx) : (s.putCtx x c).nvm = s.nvm := rfl
@[simp] theorem putCtx_fns (s : State) (x : Nat) (c : Ctx) : (s.putCtx x c).fns = s.fns := rfl
@[simp] theorem putCtx_regs (s : State) (x : Nat) (c : Ctx) : (s.putCtx x c).regs = s.regs := rfl
@[simp] theorem putCtx_latch (s : State) (x : Nat) (c : Ctx) : (s.putCtx x c).latch = s.latch := rfl
@[simp] theorem putCtx_mgmt (s : State) (x : Nat) (c : Ctx) : (s.putCtx x c).mgmt = s.mgmt := rfl
@[simp] theorem putCtx_objs (s : State) (x : Nat) (c : Ctx) : (s.putCtx x c).objs = s.objs := rfl
@[simp] theorem putCtx_tel (s : State) (x : Nat) (c : Ctx) : (s.putCtx x c).tel = s.tel := rfl
@[simp] theorem putCtx_time (s : State) (x : Nat) (c : Ctx) : (s.putCtx x c).time = s.time := rfl
@[simp] theorem putCtx_ticks (s : State) (x : Nat) (c : Ctx) : (s.putCtx x c).ticks = s.ticks := rfl
@[simp] theorem putCtx_ptp (s : State) (x : Nat) (c : Ctx) : (s.putCtx x c).ptp = s.ptp := rfl
@[simp] theorem putCtx_tide (s : State) (x : Nat) (c : Ctx) : (s.putCtx x c).tide = s.tide := rfl
@[simp] theorem putCtx_plan (s : State) (x : Nat) (c : Ctx) : (s.putCtx x c).plan = s.plan := rfl
@[simp] theorem putCtx_fibres (s : State) (x : Nat) (c : Ctx) : (s.putCtx x c).fibres = s.fibres := rfl
@[simp] theorem putCtx_ports (s : State) (x : Nat) (c : Ctx) : (s.putCtx x c).ports = s.ports := rfl
@[simp] theorem putCtx_lanes (s : State) (x : Nat) (c : Ctx) : (s.putCtx x c).lanes = s.lanes := rfl
@[simp] theorem putCtx_tiles (s : State) (x : Nat) (c : Ctx) : (s.putCtx x c).tiles = s.tiles := rfl
@[simp] theorem putCtx_queues (s : State) (x : Nat) (c : Ctx) : (s.putCtx x c).queues = s.queues := rfl
@[simp] theorem putCtx_undertow (s : State) (x : Nat) (c : Ctx) : (s.putCtx x c).undertow = s.undertow := rfl
@[simp] theorem putCtx_xbar (s : State) (x : Nat) (c : Ctx) : (s.putCtx x c).xbar = s.xbar := rfl
@[simp] theorem putCtx_frames (s : State) (x : Nat) (c : Ctx) : (s.putCtx x c).frames = s.frames := rfl
@[simp] theorem putCtx_tc (s : State) (x : Nat) (c : Ctx) : (s.putCtx x c).tc = s.tc := rfl
@[simp] theorem putCtx_tables (s : State) (x : Nat) (c : Ctx) : (s.putCtx x c).tables = s.tables := rfl
@[simp] theorem putCtx_gen (s : State) (x : Nat) (c : Ctx) : (s.putCtx x c).gen = s.gen := rfl
@[simp] theorem putCtx_bwk (s : State) (x : Nat) (c : Ctx) : (s.putCtx x c).bwk = s.bwk := rfl
@[simp] theorem putCtx_mem (s : State) (x : Nat) (c : Ctx) : (s.putCtx x c).mem = s.mem := rfl
@[simp] theorem putCtx_csw (s : State) (x : Nat) (c : Ctx) : (s.putCtx x c).csw = s.csw := rfl
@[simp] theorem putCtx_swl (s : State) (x : Nat) (c : Ctx) : (s.putCtx x c).swl = s.swl := rfl
@[simp] theorem putCtx_opt (s : State) (x : Nat) (c : Ctx) : (s.putCtx x c).opt = s.opt := rfl
@[simp] theorem putCtx_d2d (s : State) (x : Nat) (c : Ctx) : (s.putCtx x c).d2d = s.d2d := rfl
@[simp] theorem putCtx_pwr (s : State) (x : Nat) (c : Ctx) : (s.putCtx x c).pwr = s.pwr := rfl
@[simp] theorem putCtx_bist (s : State) (x : Nat) (c : Ctx) : (s.putCtx x c).bist = s.bist := rfl
@[simp] theorem putCtx_fibreTx (s : State) (x : Nat) (c : Ctx) : (s.putCtx x c).fibreTx = s.fibreTx := rfl
@[simp] theorem putCtx_free (s : State) (x : Nat) (c : Ctx) : (s.putCtx x c).free = s.free := rfl
@[simp] theorem putCtx_pending (s : State) (x : Nat) (c : Ctx) : (s.putCtx x c).pending = s.pending := rfl

/-! ### `modCtx` writes `est` alone -/

@[simp] theorem modCtx_pins (s : State) (x : Nat) (f : Ctx → Ctx) : (s.modCtx x f).pins = s.pins := rfl
@[simp] theorem modCtx_boot (s : State) (x : Nat) (f : Ctx → Ctx) : (s.modCtx x f).boot = s.boot := rfl
@[simp] theorem modCtx_nvm (s : State) (x : Nat) (f : Ctx → Ctx) : (s.modCtx x f).nvm = s.nvm := rfl
@[simp] theorem modCtx_fns (s : State) (x : Nat) (f : Ctx → Ctx) : (s.modCtx x f).fns = s.fns := rfl
@[simp] theorem modCtx_regs (s : State) (x : Nat) (f : Ctx → Ctx) : (s.modCtx x f).regs = s.regs := rfl
@[simp] theorem modCtx_latch (s : State) (x : Nat) (f : Ctx → Ctx) : (s.modCtx x f).latch = s.latch := rfl
@[simp] theorem modCtx_mgmt (s : State) (x : Nat) (f : Ctx → Ctx) : (s.modCtx x f).mgmt = s.mgmt := rfl
@[simp] theorem modCtx_objs (s : State) (x : Nat) (f : Ctx → Ctx) : (s.modCtx x f).objs = s.objs := rfl
@[simp] theorem modCtx_tel (s : State) (x : Nat) (f : Ctx → Ctx) : (s.modCtx x f).tel = s.tel := rfl
@[simp] theorem modCtx_time (s : State) (x : Nat) (f : Ctx → Ctx) : (s.modCtx x f).time = s.time := rfl
@[simp] theorem modCtx_ticks (s : State) (x : Nat) (f : Ctx → Ctx) : (s.modCtx x f).ticks = s.ticks := rfl
@[simp] theorem modCtx_ptp (s : State) (x : Nat) (f : Ctx → Ctx) : (s.modCtx x f).ptp = s.ptp := rfl
@[simp] theorem modCtx_tide (s : State) (x : Nat) (f : Ctx → Ctx) : (s.modCtx x f).tide = s.tide := rfl
@[simp] theorem modCtx_plan (s : State) (x : Nat) (f : Ctx → Ctx) : (s.modCtx x f).plan = s.plan := rfl
@[simp] theorem modCtx_fibres (s : State) (x : Nat) (f : Ctx → Ctx) : (s.modCtx x f).fibres = s.fibres := rfl
@[simp] theorem modCtx_ports (s : State) (x : Nat) (f : Ctx → Ctx) : (s.modCtx x f).ports = s.ports := rfl
@[simp] theorem modCtx_lanes (s : State) (x : Nat) (f : Ctx → Ctx) : (s.modCtx x f).lanes = s.lanes := rfl
@[simp] theorem modCtx_tiles (s : State) (x : Nat) (f : Ctx → Ctx) : (s.modCtx x f).tiles = s.tiles := rfl
@[simp] theorem modCtx_queues (s : State) (x : Nat) (f : Ctx → Ctx) : (s.modCtx x f).queues = s.queues := rfl
@[simp] theorem modCtx_undertow (s : State) (x : Nat) (f : Ctx → Ctx) : (s.modCtx x f).undertow = s.undertow := rfl
@[simp] theorem modCtx_xbar (s : State) (x : Nat) (f : Ctx → Ctx) : (s.modCtx x f).xbar = s.xbar := rfl
@[simp] theorem modCtx_frames (s : State) (x : Nat) (f : Ctx → Ctx) : (s.modCtx x f).frames = s.frames := rfl
@[simp] theorem modCtx_tc (s : State) (x : Nat) (f : Ctx → Ctx) : (s.modCtx x f).tc = s.tc := rfl
@[simp] theorem modCtx_tables (s : State) (x : Nat) (f : Ctx → Ctx) : (s.modCtx x f).tables = s.tables := rfl
@[simp] theorem modCtx_gen (s : State) (x : Nat) (f : Ctx → Ctx) : (s.modCtx x f).gen = s.gen := rfl
@[simp] theorem modCtx_bwk (s : State) (x : Nat) (f : Ctx → Ctx) : (s.modCtx x f).bwk = s.bwk := rfl
@[simp] theorem modCtx_mem (s : State) (x : Nat) (f : Ctx → Ctx) : (s.modCtx x f).mem = s.mem := rfl
@[simp] theorem modCtx_csw (s : State) (x : Nat) (f : Ctx → Ctx) : (s.modCtx x f).csw = s.csw := rfl
@[simp] theorem modCtx_swl (s : State) (x : Nat) (f : Ctx → Ctx) : (s.modCtx x f).swl = s.swl := rfl
@[simp] theorem modCtx_opt (s : State) (x : Nat) (f : Ctx → Ctx) : (s.modCtx x f).opt = s.opt := rfl
@[simp] theorem modCtx_d2d (s : State) (x : Nat) (f : Ctx → Ctx) : (s.modCtx x f).d2d = s.d2d := rfl
@[simp] theorem modCtx_pwr (s : State) (x : Nat) (f : Ctx → Ctx) : (s.modCtx x f).pwr = s.pwr := rfl
@[simp] theorem modCtx_bist (s : State) (x : Nat) (f : Ctx → Ctx) : (s.modCtx x f).bist = s.bist := rfl
@[simp] theorem modCtx_fibreTx (s : State) (x : Nat) (f : Ctx → Ctx) : (s.modCtx x f).fibreTx = s.fibreTx := rfl
@[simp] theorem modCtx_free (s : State) (x : Nat) (f : Ctx → Ctx) : (s.modCtx x f).free = s.free := rfl
@[simp] theorem modCtx_pending (s : State) (x : Nat) (f : Ctx → Ctx) : (s.modCtx x f).pending = s.pending := rfl

/-! ### `setSlice` writes `est` alone -/

@[simp] theorem setSlice_pins (s : State) (t : Nat) (f : Slice → Slice) : (s.setSlice t f).pins = s.pins := rfl
@[simp] theorem setSlice_boot (s : State) (t : Nat) (f : Slice → Slice) : (s.setSlice t f).boot = s.boot := rfl
@[simp] theorem setSlice_nvm (s : State) (t : Nat) (f : Slice → Slice) : (s.setSlice t f).nvm = s.nvm := rfl
@[simp] theorem setSlice_fns (s : State) (t : Nat) (f : Slice → Slice) : (s.setSlice t f).fns = s.fns := rfl
@[simp] theorem setSlice_regs (s : State) (t : Nat) (f : Slice → Slice) : (s.setSlice t f).regs = s.regs := rfl
@[simp] theorem setSlice_latch (s : State) (t : Nat) (f : Slice → Slice) : (s.setSlice t f).latch = s.latch := rfl
@[simp] theorem setSlice_mgmt (s : State) (t : Nat) (f : Slice → Slice) : (s.setSlice t f).mgmt = s.mgmt := rfl
@[simp] theorem setSlice_objs (s : State) (t : Nat) (f : Slice → Slice) : (s.setSlice t f).objs = s.objs := rfl
@[simp] theorem setSlice_tel (s : State) (t : Nat) (f : Slice → Slice) : (s.setSlice t f).tel = s.tel := rfl
@[simp] theorem setSlice_time (s : State) (t : Nat) (f : Slice → Slice) : (s.setSlice t f).time = s.time := rfl
@[simp] theorem setSlice_ticks (s : State) (t : Nat) (f : Slice → Slice) : (s.setSlice t f).ticks = s.ticks := rfl
@[simp] theorem setSlice_ptp (s : State) (t : Nat) (f : Slice → Slice) : (s.setSlice t f).ptp = s.ptp := rfl
@[simp] theorem setSlice_tide (s : State) (t : Nat) (f : Slice → Slice) : (s.setSlice t f).tide = s.tide := rfl
@[simp] theorem setSlice_plan (s : State) (t : Nat) (f : Slice → Slice) : (s.setSlice t f).plan = s.plan := rfl
@[simp] theorem setSlice_fibres (s : State) (t : Nat) (f : Slice → Slice) : (s.setSlice t f).fibres = s.fibres := rfl
@[simp] theorem setSlice_ports (s : State) (t : Nat) (f : Slice → Slice) : (s.setSlice t f).ports = s.ports := rfl
@[simp] theorem setSlice_lanes (s : State) (t : Nat) (f : Slice → Slice) : (s.setSlice t f).lanes = s.lanes := rfl
@[simp] theorem setSlice_tiles (s : State) (t : Nat) (f : Slice → Slice) : (s.setSlice t f).tiles = s.tiles := rfl
@[simp] theorem setSlice_queues (s : State) (t : Nat) (f : Slice → Slice) : (s.setSlice t f).queues = s.queues := rfl
@[simp] theorem setSlice_undertow (s : State) (t : Nat) (f : Slice → Slice) : (s.setSlice t f).undertow = s.undertow := rfl
@[simp] theorem setSlice_xbar (s : State) (t : Nat) (f : Slice → Slice) : (s.setSlice t f).xbar = s.xbar := rfl
@[simp] theorem setSlice_frames (s : State) (t : Nat) (f : Slice → Slice) : (s.setSlice t f).frames = s.frames := rfl
@[simp] theorem setSlice_tc (s : State) (t : Nat) (f : Slice → Slice) : (s.setSlice t f).tc = s.tc := rfl
@[simp] theorem setSlice_tables (s : State) (t : Nat) (f : Slice → Slice) : (s.setSlice t f).tables = s.tables := rfl
@[simp] theorem setSlice_gen (s : State) (t : Nat) (f : Slice → Slice) : (s.setSlice t f).gen = s.gen := rfl
@[simp] theorem setSlice_bwk (s : State) (t : Nat) (f : Slice → Slice) : (s.setSlice t f).bwk = s.bwk := rfl
@[simp] theorem setSlice_mem (s : State) (t : Nat) (f : Slice → Slice) : (s.setSlice t f).mem = s.mem := rfl
@[simp] theorem setSlice_csw (s : State) (t : Nat) (f : Slice → Slice) : (s.setSlice t f).csw = s.csw := rfl
@[simp] theorem setSlice_swl (s : State) (t : Nat) (f : Slice → Slice) : (s.setSlice t f).swl = s.swl := rfl
@[simp] theorem setSlice_opt (s : State) (t : Nat) (f : Slice → Slice) : (s.setSlice t f).opt = s.opt := rfl
@[simp] theorem setSlice_d2d (s : State) (t : Nat) (f : Slice → Slice) : (s.setSlice t f).d2d = s.d2d := rfl
@[simp] theorem setSlice_pwr (s : State) (t : Nat) (f : Slice → Slice) : (s.setSlice t f).pwr = s.pwr := rfl
@[simp] theorem setSlice_bist (s : State) (t : Nat) (f : Slice → Slice) : (s.setSlice t f).bist = s.bist := rfl
@[simp] theorem setSlice_fibreTx (s : State) (t : Nat) (f : Slice → Slice) : (s.setSlice t f).fibreTx = s.fibreTx := rfl
@[simp] theorem setSlice_free (s : State) (t : Nat) (f : Slice → Slice) : (s.setSlice t f).free = s.free := rfl
@[simp] theorem setSlice_pending (s : State) (t : Nat) (f : Slice → Slice) : (s.setSlice t f).pending = s.pending := rfl

/-! ### `drawFree` counts the values drawn, and nothing else -/

@[simp] theorem drawFree_pins (s : State) : s.drawFree.2.pins = s.pins := rfl
@[simp] theorem drawFree_boot (s : State) : s.drawFree.2.boot = s.boot := rfl
@[simp] theorem drawFree_nvm (s : State) : s.drawFree.2.nvm = s.nvm := rfl
@[simp] theorem drawFree_fns (s : State) : s.drawFree.2.fns = s.fns := rfl
@[simp] theorem drawFree_regs (s : State) : s.drawFree.2.regs = s.regs := rfl
@[simp] theorem drawFree_latch (s : State) : s.drawFree.2.latch = s.latch := rfl
@[simp] theorem drawFree_mgmt (s : State) : s.drawFree.2.mgmt = s.mgmt := rfl
@[simp] theorem drawFree_objs (s : State) : s.drawFree.2.objs = s.objs := rfl
@[simp] theorem drawFree_tel (s : State) : s.drawFree.2.tel = s.tel := rfl
@[simp] theorem drawFree_time (s : State) : s.drawFree.2.time = s.time := rfl
@[simp] theorem drawFree_ticks (s : State) : s.drawFree.2.ticks = s.ticks := rfl
@[simp] theorem drawFree_ptp (s : State) : s.drawFree.2.ptp = s.ptp := rfl
@[simp] theorem drawFree_tide (s : State) : s.drawFree.2.tide = s.tide := rfl
@[simp] theorem drawFree_plan (s : State) : s.drawFree.2.plan = s.plan := rfl
@[simp] theorem drawFree_fibres (s : State) : s.drawFree.2.fibres = s.fibres := rfl
@[simp] theorem drawFree_ports (s : State) : s.drawFree.2.ports = s.ports := rfl
@[simp] theorem drawFree_lanes (s : State) : s.drawFree.2.lanes = s.lanes := rfl
@[simp] theorem drawFree_tiles (s : State) : s.drawFree.2.tiles = s.tiles := rfl
@[simp] theorem drawFree_queues (s : State) : s.drawFree.2.queues = s.queues := rfl
@[simp] theorem drawFree_undertow (s : State) : s.drawFree.2.undertow = s.undertow := rfl
@[simp] theorem drawFree_xbar (s : State) : s.drawFree.2.xbar = s.xbar := rfl
@[simp] theorem drawFree_frames (s : State) : s.drawFree.2.frames = s.frames := rfl
@[simp] theorem drawFree_tc (s : State) : s.drawFree.2.tc = s.tc := rfl
@[simp] theorem drawFree_tables (s : State) : s.drawFree.2.tables = s.tables := rfl
@[simp] theorem drawFree_gen (s : State) : s.drawFree.2.gen = s.gen := rfl
@[simp] theorem drawFree_est (s : State) : s.drawFree.2.est = s.est := rfl
@[simp] theorem drawFree_bwk (s : State) : s.drawFree.2.bwk = s.bwk := rfl
@[simp] theorem drawFree_mem (s : State) : s.drawFree.2.mem = s.mem := rfl
@[simp] theorem drawFree_csw (s : State) : s.drawFree.2.csw = s.csw := rfl
@[simp] theorem drawFree_swl (s : State) : s.drawFree.2.swl = s.swl := rfl
@[simp] theorem drawFree_opt (s : State) : s.drawFree.2.opt = s.opt := rfl
@[simp] theorem drawFree_d2d (s : State) : s.drawFree.2.d2d = s.d2d := rfl
@[simp] theorem drawFree_pwr (s : State) : s.drawFree.2.pwr = s.pwr := rfl
@[simp] theorem drawFree_bist (s : State) : s.drawFree.2.bist = s.bist := rfl
@[simp] theorem drawFree_fibreTx (s : State) : s.drawFree.2.fibreTx = s.fibreTx := rfl
@[simp] theorem drawFree_pending (s : State) : s.drawFree.2.pending = s.pending := rfl
@[simp] theorem drawFree_free (s : State) : s.drawFree.2.free = s.free + 1 := rfl

/-! ### The clock brought forward writes `time` alone -/

theorem advanceTo_only (s : State) (n : Nat) : ∃ t, s.advanceTo n = { s with time := t } := by
  unfold State.advanceTo
  split
  · exact ⟨_, rfl⟩
  · exact ⟨s.time, rfl⟩

theorem advancePtp_only (s : State) (p : Nat) : ∃ t, s.advancePtp p = { s with time := t } := by
  unfold State.advancePtp
  split
  · exact ⟨_, rfl⟩
  · exact ⟨s.time, rfl⟩

@[simp] theorem advanceTo_pins (s : State) (n : Nat) : (s.advanceTo n).pins = s.pins := by
  obtain ⟨t, h⟩ := advanceTo_only s n; rw [h]
@[simp] theorem advancePtp_pins (s : State) (p : Nat) : (s.advancePtp p).pins = s.pins := by
  obtain ⟨t, h⟩ := advancePtp_only s p; rw [h]
@[simp] theorem advanceTo_boot (s : State) (n : Nat) : (s.advanceTo n).boot = s.boot := by
  obtain ⟨t, h⟩ := advanceTo_only s n; rw [h]
@[simp] theorem advancePtp_boot (s : State) (p : Nat) : (s.advancePtp p).boot = s.boot := by
  obtain ⟨t, h⟩ := advancePtp_only s p; rw [h]
@[simp] theorem advanceTo_nvm (s : State) (n : Nat) : (s.advanceTo n).nvm = s.nvm := by
  obtain ⟨t, h⟩ := advanceTo_only s n; rw [h]
@[simp] theorem advancePtp_nvm (s : State) (p : Nat) : (s.advancePtp p).nvm = s.nvm := by
  obtain ⟨t, h⟩ := advancePtp_only s p; rw [h]
@[simp] theorem advanceTo_fns (s : State) (n : Nat) : (s.advanceTo n).fns = s.fns := by
  obtain ⟨t, h⟩ := advanceTo_only s n; rw [h]
@[simp] theorem advancePtp_fns (s : State) (p : Nat) : (s.advancePtp p).fns = s.fns := by
  obtain ⟨t, h⟩ := advancePtp_only s p; rw [h]
@[simp] theorem advanceTo_regs (s : State) (n : Nat) : (s.advanceTo n).regs = s.regs := by
  obtain ⟨t, h⟩ := advanceTo_only s n; rw [h]
@[simp] theorem advancePtp_regs (s : State) (p : Nat) : (s.advancePtp p).regs = s.regs := by
  obtain ⟨t, h⟩ := advancePtp_only s p; rw [h]
@[simp] theorem advanceTo_latch (s : State) (n : Nat) : (s.advanceTo n).latch = s.latch := by
  obtain ⟨t, h⟩ := advanceTo_only s n; rw [h]
@[simp] theorem advancePtp_latch (s : State) (p : Nat) : (s.advancePtp p).latch = s.latch := by
  obtain ⟨t, h⟩ := advancePtp_only s p; rw [h]
@[simp] theorem advanceTo_mgmt (s : State) (n : Nat) : (s.advanceTo n).mgmt = s.mgmt := by
  obtain ⟨t, h⟩ := advanceTo_only s n; rw [h]
@[simp] theorem advancePtp_mgmt (s : State) (p : Nat) : (s.advancePtp p).mgmt = s.mgmt := by
  obtain ⟨t, h⟩ := advancePtp_only s p; rw [h]
@[simp] theorem advanceTo_objs (s : State) (n : Nat) : (s.advanceTo n).objs = s.objs := by
  obtain ⟨t, h⟩ := advanceTo_only s n; rw [h]
@[simp] theorem advancePtp_objs (s : State) (p : Nat) : (s.advancePtp p).objs = s.objs := by
  obtain ⟨t, h⟩ := advancePtp_only s p; rw [h]
@[simp] theorem advanceTo_tel (s : State) (n : Nat) : (s.advanceTo n).tel = s.tel := by
  obtain ⟨t, h⟩ := advanceTo_only s n; rw [h]
@[simp] theorem advancePtp_tel (s : State) (p : Nat) : (s.advancePtp p).tel = s.tel := by
  obtain ⟨t, h⟩ := advancePtp_only s p; rw [h]
@[simp] theorem advanceTo_ticks (s : State) (n : Nat) : (s.advanceTo n).ticks = s.ticks := by
  obtain ⟨t, h⟩ := advanceTo_only s n; rw [h]
@[simp] theorem advancePtp_ticks (s : State) (p : Nat) : (s.advancePtp p).ticks = s.ticks := by
  obtain ⟨t, h⟩ := advancePtp_only s p; rw [h]
@[simp] theorem advanceTo_ptp (s : State) (n : Nat) : (s.advanceTo n).ptp = s.ptp := by
  obtain ⟨t, h⟩ := advanceTo_only s n; rw [h]
@[simp] theorem advancePtp_ptp (s : State) (p : Nat) : (s.advancePtp p).ptp = s.ptp := by
  obtain ⟨t, h⟩ := advancePtp_only s p; rw [h]
@[simp] theorem advanceTo_tide (s : State) (n : Nat) : (s.advanceTo n).tide = s.tide := by
  obtain ⟨t, h⟩ := advanceTo_only s n; rw [h]
@[simp] theorem advancePtp_tide (s : State) (p : Nat) : (s.advancePtp p).tide = s.tide := by
  obtain ⟨t, h⟩ := advancePtp_only s p; rw [h]
@[simp] theorem advanceTo_plan (s : State) (n : Nat) : (s.advanceTo n).plan = s.plan := by
  obtain ⟨t, h⟩ := advanceTo_only s n; rw [h]
@[simp] theorem advancePtp_plan (s : State) (p : Nat) : (s.advancePtp p).plan = s.plan := by
  obtain ⟨t, h⟩ := advancePtp_only s p; rw [h]
@[simp] theorem advanceTo_fibres (s : State) (n : Nat) : (s.advanceTo n).fibres = s.fibres := by
  obtain ⟨t, h⟩ := advanceTo_only s n; rw [h]
@[simp] theorem advancePtp_fibres (s : State) (p : Nat) : (s.advancePtp p).fibres = s.fibres := by
  obtain ⟨t, h⟩ := advancePtp_only s p; rw [h]
@[simp] theorem advanceTo_ports (s : State) (n : Nat) : (s.advanceTo n).ports = s.ports := by
  obtain ⟨t, h⟩ := advanceTo_only s n; rw [h]
@[simp] theorem advancePtp_ports (s : State) (p : Nat) : (s.advancePtp p).ports = s.ports := by
  obtain ⟨t, h⟩ := advancePtp_only s p; rw [h]
@[simp] theorem advanceTo_lanes (s : State) (n : Nat) : (s.advanceTo n).lanes = s.lanes := by
  obtain ⟨t, h⟩ := advanceTo_only s n; rw [h]
@[simp] theorem advancePtp_lanes (s : State) (p : Nat) : (s.advancePtp p).lanes = s.lanes := by
  obtain ⟨t, h⟩ := advancePtp_only s p; rw [h]
@[simp] theorem advanceTo_tiles (s : State) (n : Nat) : (s.advanceTo n).tiles = s.tiles := by
  obtain ⟨t, h⟩ := advanceTo_only s n; rw [h]
@[simp] theorem advancePtp_tiles (s : State) (p : Nat) : (s.advancePtp p).tiles = s.tiles := by
  obtain ⟨t, h⟩ := advancePtp_only s p; rw [h]
@[simp] theorem advanceTo_queues (s : State) (n : Nat) : (s.advanceTo n).queues = s.queues := by
  obtain ⟨t, h⟩ := advanceTo_only s n; rw [h]
@[simp] theorem advancePtp_queues (s : State) (p : Nat) : (s.advancePtp p).queues = s.queues := by
  obtain ⟨t, h⟩ := advancePtp_only s p; rw [h]
@[simp] theorem advanceTo_undertow (s : State) (n : Nat) : (s.advanceTo n).undertow = s.undertow := by
  obtain ⟨t, h⟩ := advanceTo_only s n; rw [h]
@[simp] theorem advancePtp_undertow (s : State) (p : Nat) : (s.advancePtp p).undertow = s.undertow := by
  obtain ⟨t, h⟩ := advancePtp_only s p; rw [h]
@[simp] theorem advanceTo_xbar (s : State) (n : Nat) : (s.advanceTo n).xbar = s.xbar := by
  obtain ⟨t, h⟩ := advanceTo_only s n; rw [h]
@[simp] theorem advancePtp_xbar (s : State) (p : Nat) : (s.advancePtp p).xbar = s.xbar := by
  obtain ⟨t, h⟩ := advancePtp_only s p; rw [h]
@[simp] theorem advanceTo_frames (s : State) (n : Nat) : (s.advanceTo n).frames = s.frames := by
  obtain ⟨t, h⟩ := advanceTo_only s n; rw [h]
@[simp] theorem advancePtp_frames (s : State) (p : Nat) : (s.advancePtp p).frames = s.frames := by
  obtain ⟨t, h⟩ := advancePtp_only s p; rw [h]
@[simp] theorem advanceTo_tc (s : State) (n : Nat) : (s.advanceTo n).tc = s.tc := by
  obtain ⟨t, h⟩ := advanceTo_only s n; rw [h]
@[simp] theorem advancePtp_tc (s : State) (p : Nat) : (s.advancePtp p).tc = s.tc := by
  obtain ⟨t, h⟩ := advancePtp_only s p; rw [h]
@[simp] theorem advanceTo_tables (s : State) (n : Nat) : (s.advanceTo n).tables = s.tables := by
  obtain ⟨t, h⟩ := advanceTo_only s n; rw [h]
@[simp] theorem advancePtp_tables (s : State) (p : Nat) : (s.advancePtp p).tables = s.tables := by
  obtain ⟨t, h⟩ := advancePtp_only s p; rw [h]
@[simp] theorem advanceTo_gen (s : State) (n : Nat) : (s.advanceTo n).gen = s.gen := by
  obtain ⟨t, h⟩ := advanceTo_only s n; rw [h]
@[simp] theorem advancePtp_gen (s : State) (p : Nat) : (s.advancePtp p).gen = s.gen := by
  obtain ⟨t, h⟩ := advancePtp_only s p; rw [h]
@[simp] theorem advanceTo_est (s : State) (n : Nat) : (s.advanceTo n).est = s.est := by
  obtain ⟨t, h⟩ := advanceTo_only s n; rw [h]
@[simp] theorem advancePtp_est (s : State) (p : Nat) : (s.advancePtp p).est = s.est := by
  obtain ⟨t, h⟩ := advancePtp_only s p; rw [h]
@[simp] theorem advanceTo_bwk (s : State) (n : Nat) : (s.advanceTo n).bwk = s.bwk := by
  obtain ⟨t, h⟩ := advanceTo_only s n; rw [h]
@[simp] theorem advancePtp_bwk (s : State) (p : Nat) : (s.advancePtp p).bwk = s.bwk := by
  obtain ⟨t, h⟩ := advancePtp_only s p; rw [h]
@[simp] theorem advanceTo_mem (s : State) (n : Nat) : (s.advanceTo n).mem = s.mem := by
  obtain ⟨t, h⟩ := advanceTo_only s n; rw [h]
@[simp] theorem advancePtp_mem (s : State) (p : Nat) : (s.advancePtp p).mem = s.mem := by
  obtain ⟨t, h⟩ := advancePtp_only s p; rw [h]
@[simp] theorem advanceTo_csw (s : State) (n : Nat) : (s.advanceTo n).csw = s.csw := by
  obtain ⟨t, h⟩ := advanceTo_only s n; rw [h]
@[simp] theorem advancePtp_csw (s : State) (p : Nat) : (s.advancePtp p).csw = s.csw := by
  obtain ⟨t, h⟩ := advancePtp_only s p; rw [h]
@[simp] theorem advanceTo_swl (s : State) (n : Nat) : (s.advanceTo n).swl = s.swl := by
  obtain ⟨t, h⟩ := advanceTo_only s n; rw [h]
@[simp] theorem advancePtp_swl (s : State) (p : Nat) : (s.advancePtp p).swl = s.swl := by
  obtain ⟨t, h⟩ := advancePtp_only s p; rw [h]
@[simp] theorem advanceTo_opt (s : State) (n : Nat) : (s.advanceTo n).opt = s.opt := by
  obtain ⟨t, h⟩ := advanceTo_only s n; rw [h]
@[simp] theorem advancePtp_opt (s : State) (p : Nat) : (s.advancePtp p).opt = s.opt := by
  obtain ⟨t, h⟩ := advancePtp_only s p; rw [h]
@[simp] theorem advanceTo_d2d (s : State) (n : Nat) : (s.advanceTo n).d2d = s.d2d := by
  obtain ⟨t, h⟩ := advanceTo_only s n; rw [h]
@[simp] theorem advancePtp_d2d (s : State) (p : Nat) : (s.advancePtp p).d2d = s.d2d := by
  obtain ⟨t, h⟩ := advancePtp_only s p; rw [h]
@[simp] theorem advanceTo_pwr (s : State) (n : Nat) : (s.advanceTo n).pwr = s.pwr := by
  obtain ⟨t, h⟩ := advanceTo_only s n; rw [h]
@[simp] theorem advancePtp_pwr (s : State) (p : Nat) : (s.advancePtp p).pwr = s.pwr := by
  obtain ⟨t, h⟩ := advancePtp_only s p; rw [h]
@[simp] theorem advanceTo_bist (s : State) (n : Nat) : (s.advanceTo n).bist = s.bist := by
  obtain ⟨t, h⟩ := advanceTo_only s n; rw [h]
@[simp] theorem advancePtp_bist (s : State) (p : Nat) : (s.advancePtp p).bist = s.bist := by
  obtain ⟨t, h⟩ := advancePtp_only s p; rw [h]
@[simp] theorem advanceTo_fibreTx (s : State) (n : Nat) : (s.advanceTo n).fibreTx = s.fibreTx := by
  obtain ⟨t, h⟩ := advanceTo_only s n; rw [h]
@[simp] theorem advancePtp_fibreTx (s : State) (p : Nat) : (s.advancePtp p).fibreTx = s.fibreTx := by
  obtain ⟨t, h⟩ := advancePtp_only s p; rw [h]
@[simp] theorem advanceTo_free (s : State) (n : Nat) : (s.advanceTo n).free = s.free := by
  obtain ⟨t, h⟩ := advanceTo_only s n; rw [h]
@[simp] theorem advancePtp_free (s : State) (p : Nat) : (s.advancePtp p).free = s.free := by
  obtain ⟨t, h⟩ := advancePtp_only s p; rw [h]
@[simp] theorem advanceTo_pending (s : State) (n : Nat) : (s.advanceTo n).pending = s.pending := by
  obtain ⟨t, h⟩ := advanceTo_only s n; rw [h]
@[simp] theorem advancePtp_pending (s : State) (p : Nat) : (s.advancePtp p).pending = s.pending := by
  obtain ⟨t, h⟩ := advancePtp_only s p; rw [h]

/-! ### A periodic happening writes `time` and `ticks` alone -/

theorem every_only (s : State) (k : Periodic) (i n : Nat) : ∃ t u, s.every k i n = { s with time := t, ticks := u } := by
  unfold State.every
  obtain ⟨t, h⟩ := advanceTo_only s (s.ticks.getD (tickKey k i) 0 + n)
  rw [h]
  exact ⟨_, _, rfl⟩

@[simp] theorem every_pins (s : State) (k : Periodic) (i n : Nat) : (s.every k i n).pins = s.pins := by
  obtain ⟨t, u, h⟩ := every_only s k i n; rw [h]
@[simp] theorem every_boot (s : State) (k : Periodic) (i n : Nat) : (s.every k i n).boot = s.boot := by
  obtain ⟨t, u, h⟩ := every_only s k i n; rw [h]
@[simp] theorem every_nvm (s : State) (k : Periodic) (i n : Nat) : (s.every k i n).nvm = s.nvm := by
  obtain ⟨t, u, h⟩ := every_only s k i n; rw [h]
@[simp] theorem every_fns (s : State) (k : Periodic) (i n : Nat) : (s.every k i n).fns = s.fns := by
  obtain ⟨t, u, h⟩ := every_only s k i n; rw [h]
@[simp] theorem every_regs (s : State) (k : Periodic) (i n : Nat) : (s.every k i n).regs = s.regs := by
  obtain ⟨t, u, h⟩ := every_only s k i n; rw [h]
@[simp] theorem every_latch (s : State) (k : Periodic) (i n : Nat) : (s.every k i n).latch = s.latch := by
  obtain ⟨t, u, h⟩ := every_only s k i n; rw [h]
@[simp] theorem every_mgmt (s : State) (k : Periodic) (i n : Nat) : (s.every k i n).mgmt = s.mgmt := by
  obtain ⟨t, u, h⟩ := every_only s k i n; rw [h]
@[simp] theorem every_objs (s : State) (k : Periodic) (i n : Nat) : (s.every k i n).objs = s.objs := by
  obtain ⟨t, u, h⟩ := every_only s k i n; rw [h]
@[simp] theorem every_tel (s : State) (k : Periodic) (i n : Nat) : (s.every k i n).tel = s.tel := by
  obtain ⟨t, u, h⟩ := every_only s k i n; rw [h]
@[simp] theorem every_ptp (s : State) (k : Periodic) (i n : Nat) : (s.every k i n).ptp = s.ptp := by
  obtain ⟨t, u, h⟩ := every_only s k i n; rw [h]
@[simp] theorem every_tide (s : State) (k : Periodic) (i n : Nat) : (s.every k i n).tide = s.tide := by
  obtain ⟨t, u, h⟩ := every_only s k i n; rw [h]
@[simp] theorem every_plan (s : State) (k : Periodic) (i n : Nat) : (s.every k i n).plan = s.plan := by
  obtain ⟨t, u, h⟩ := every_only s k i n; rw [h]
@[simp] theorem every_fibres (s : State) (k : Periodic) (i n : Nat) : (s.every k i n).fibres = s.fibres := by
  obtain ⟨t, u, h⟩ := every_only s k i n; rw [h]
@[simp] theorem every_ports (s : State) (k : Periodic) (i n : Nat) : (s.every k i n).ports = s.ports := by
  obtain ⟨t, u, h⟩ := every_only s k i n; rw [h]
@[simp] theorem every_lanes (s : State) (k : Periodic) (i n : Nat) : (s.every k i n).lanes = s.lanes := by
  obtain ⟨t, u, h⟩ := every_only s k i n; rw [h]
@[simp] theorem every_tiles (s : State) (k : Periodic) (i n : Nat) : (s.every k i n).tiles = s.tiles := by
  obtain ⟨t, u, h⟩ := every_only s k i n; rw [h]
@[simp] theorem every_queues (s : State) (k : Periodic) (i n : Nat) : (s.every k i n).queues = s.queues := by
  obtain ⟨t, u, h⟩ := every_only s k i n; rw [h]
@[simp] theorem every_undertow (s : State) (k : Periodic) (i n : Nat) : (s.every k i n).undertow = s.undertow := by
  obtain ⟨t, u, h⟩ := every_only s k i n; rw [h]
@[simp] theorem every_xbar (s : State) (k : Periodic) (i n : Nat) : (s.every k i n).xbar = s.xbar := by
  obtain ⟨t, u, h⟩ := every_only s k i n; rw [h]
@[simp] theorem every_frames (s : State) (k : Periodic) (i n : Nat) : (s.every k i n).frames = s.frames := by
  obtain ⟨t, u, h⟩ := every_only s k i n; rw [h]
@[simp] theorem every_tc (s : State) (k : Periodic) (i n : Nat) : (s.every k i n).tc = s.tc := by
  obtain ⟨t, u, h⟩ := every_only s k i n; rw [h]
@[simp] theorem every_tables (s : State) (k : Periodic) (i n : Nat) : (s.every k i n).tables = s.tables := by
  obtain ⟨t, u, h⟩ := every_only s k i n; rw [h]
@[simp] theorem every_gen (s : State) (k : Periodic) (i n : Nat) : (s.every k i n).gen = s.gen := by
  obtain ⟨t, u, h⟩ := every_only s k i n; rw [h]
@[simp] theorem every_est (s : State) (k : Periodic) (i n : Nat) : (s.every k i n).est = s.est := by
  obtain ⟨t, u, h⟩ := every_only s k i n; rw [h]
@[simp] theorem every_bwk (s : State) (k : Periodic) (i n : Nat) : (s.every k i n).bwk = s.bwk := by
  obtain ⟨t, u, h⟩ := every_only s k i n; rw [h]
@[simp] theorem every_mem (s : State) (k : Periodic) (i n : Nat) : (s.every k i n).mem = s.mem := by
  obtain ⟨t, u, h⟩ := every_only s k i n; rw [h]
@[simp] theorem every_csw (s : State) (k : Periodic) (i n : Nat) : (s.every k i n).csw = s.csw := by
  obtain ⟨t, u, h⟩ := every_only s k i n; rw [h]
@[simp] theorem every_swl (s : State) (k : Periodic) (i n : Nat) : (s.every k i n).swl = s.swl := by
  obtain ⟨t, u, h⟩ := every_only s k i n; rw [h]
@[simp] theorem every_opt (s : State) (k : Periodic) (i n : Nat) : (s.every k i n).opt = s.opt := by
  obtain ⟨t, u, h⟩ := every_only s k i n; rw [h]
@[simp] theorem every_d2d (s : State) (k : Periodic) (i n : Nat) : (s.every k i n).d2d = s.d2d := by
  obtain ⟨t, u, h⟩ := every_only s k i n; rw [h]
@[simp] theorem every_pwr (s : State) (k : Periodic) (i n : Nat) : (s.every k i n).pwr = s.pwr := by
  obtain ⟨t, u, h⟩ := every_only s k i n; rw [h]
@[simp] theorem every_bist (s : State) (k : Periodic) (i n : Nat) : (s.every k i n).bist = s.bist := by
  obtain ⟨t, u, h⟩ := every_only s k i n; rw [h]
@[simp] theorem every_fibreTx (s : State) (k : Periodic) (i n : Nat) : (s.every k i n).fibreTx = s.fibreTx := by
  obtain ⟨t, u, h⟩ := every_only s k i n; rw [h]
@[simp] theorem every_free (s : State) (k : Periodic) (i n : Nat) : (s.every k i n).free = s.free := by
  obtain ⟨t, u, h⟩ := every_only s k i n; rw [h]
@[simp] theorem every_pending (s : State) (k : Periodic) (i n : Nat) : (s.every k i n).pending = s.pending := by
  obtain ⟨t, u, h⟩ := every_only s k i n; rw [h]

/-! ### A happening so many times a second writes `time` and `ticks` alone -/

theorem perSecond_only (s : State) (k : Periodic) (i n : Nat) :
    ∃ t u, s.perSecond k i n = { s with time := t, ticks := u } := by
  unfold State.perSecond
  obtain ⟨t, h⟩ := advanceTo_only s (gridAfter n (s.ticks.getD (tickKey k i) 0))
  rw [h]
  exact ⟨_, _, rfl⟩

@[simp] theorem perSecond_pins (s : State) (k : Periodic) (i n : Nat) : (s.perSecond k i n).pins = s.pins := by
  obtain ⟨t, u, h⟩ := perSecond_only s k i n; rw [h]
@[simp] theorem perSecond_boot (s : State) (k : Periodic) (i n : Nat) : (s.perSecond k i n).boot = s.boot := by
  obtain ⟨t, u, h⟩ := perSecond_only s k i n; rw [h]
@[simp] theorem perSecond_nvm (s : State) (k : Periodic) (i n : Nat) : (s.perSecond k i n).nvm = s.nvm := by
  obtain ⟨t, u, h⟩ := perSecond_only s k i n; rw [h]
@[simp] theorem perSecond_fns (s : State) (k : Periodic) (i n : Nat) : (s.perSecond k i n).fns = s.fns := by
  obtain ⟨t, u, h⟩ := perSecond_only s k i n; rw [h]
@[simp] theorem perSecond_regs (s : State) (k : Periodic) (i n : Nat) : (s.perSecond k i n).regs = s.regs := by
  obtain ⟨t, u, h⟩ := perSecond_only s k i n; rw [h]
@[simp] theorem perSecond_latch (s : State) (k : Periodic) (i n : Nat) : (s.perSecond k i n).latch = s.latch := by
  obtain ⟨t, u, h⟩ := perSecond_only s k i n; rw [h]
@[simp] theorem perSecond_mgmt (s : State) (k : Periodic) (i n : Nat) : (s.perSecond k i n).mgmt = s.mgmt := by
  obtain ⟨t, u, h⟩ := perSecond_only s k i n; rw [h]
@[simp] theorem perSecond_objs (s : State) (k : Periodic) (i n : Nat) : (s.perSecond k i n).objs = s.objs := by
  obtain ⟨t, u, h⟩ := perSecond_only s k i n; rw [h]
@[simp] theorem perSecond_tel (s : State) (k : Periodic) (i n : Nat) : (s.perSecond k i n).tel = s.tel := by
  obtain ⟨t, u, h⟩ := perSecond_only s k i n; rw [h]
@[simp] theorem perSecond_ptp (s : State) (k : Periodic) (i n : Nat) : (s.perSecond k i n).ptp = s.ptp := by
  obtain ⟨t, u, h⟩ := perSecond_only s k i n; rw [h]
@[simp] theorem perSecond_tide (s : State) (k : Periodic) (i n : Nat) : (s.perSecond k i n).tide = s.tide := by
  obtain ⟨t, u, h⟩ := perSecond_only s k i n; rw [h]
@[simp] theorem perSecond_plan (s : State) (k : Periodic) (i n : Nat) : (s.perSecond k i n).plan = s.plan := by
  obtain ⟨t, u, h⟩ := perSecond_only s k i n; rw [h]
@[simp] theorem perSecond_fibres (s : State) (k : Periodic) (i n : Nat) : (s.perSecond k i n).fibres = s.fibres := by
  obtain ⟨t, u, h⟩ := perSecond_only s k i n; rw [h]
@[simp] theorem perSecond_ports (s : State) (k : Periodic) (i n : Nat) : (s.perSecond k i n).ports = s.ports := by
  obtain ⟨t, u, h⟩ := perSecond_only s k i n; rw [h]
@[simp] theorem perSecond_lanes (s : State) (k : Periodic) (i n : Nat) : (s.perSecond k i n).lanes = s.lanes := by
  obtain ⟨t, u, h⟩ := perSecond_only s k i n; rw [h]
@[simp] theorem perSecond_tiles (s : State) (k : Periodic) (i n : Nat) : (s.perSecond k i n).tiles = s.tiles := by
  obtain ⟨t, u, h⟩ := perSecond_only s k i n; rw [h]
@[simp] theorem perSecond_queues (s : State) (k : Periodic) (i n : Nat) : (s.perSecond k i n).queues = s.queues := by
  obtain ⟨t, u, h⟩ := perSecond_only s k i n; rw [h]
@[simp] theorem perSecond_undertow (s : State) (k : Periodic) (i n : Nat) : (s.perSecond k i n).undertow = s.undertow := by
  obtain ⟨t, u, h⟩ := perSecond_only s k i n; rw [h]
@[simp] theorem perSecond_xbar (s : State) (k : Periodic) (i n : Nat) : (s.perSecond k i n).xbar = s.xbar := by
  obtain ⟨t, u, h⟩ := perSecond_only s k i n; rw [h]
@[simp] theorem perSecond_frames (s : State) (k : Periodic) (i n : Nat) : (s.perSecond k i n).frames = s.frames := by
  obtain ⟨t, u, h⟩ := perSecond_only s k i n; rw [h]
@[simp] theorem perSecond_tc (s : State) (k : Periodic) (i n : Nat) : (s.perSecond k i n).tc = s.tc := by
  obtain ⟨t, u, h⟩ := perSecond_only s k i n; rw [h]
@[simp] theorem perSecond_tables (s : State) (k : Periodic) (i n : Nat) : (s.perSecond k i n).tables = s.tables := by
  obtain ⟨t, u, h⟩ := perSecond_only s k i n; rw [h]
@[simp] theorem perSecond_gen (s : State) (k : Periodic) (i n : Nat) : (s.perSecond k i n).gen = s.gen := by
  obtain ⟨t, u, h⟩ := perSecond_only s k i n; rw [h]
@[simp] theorem perSecond_est (s : State) (k : Periodic) (i n : Nat) : (s.perSecond k i n).est = s.est := by
  obtain ⟨t, u, h⟩ := perSecond_only s k i n; rw [h]
@[simp] theorem perSecond_bwk (s : State) (k : Periodic) (i n : Nat) : (s.perSecond k i n).bwk = s.bwk := by
  obtain ⟨t, u, h⟩ := perSecond_only s k i n; rw [h]
@[simp] theorem perSecond_mem (s : State) (k : Periodic) (i n : Nat) : (s.perSecond k i n).mem = s.mem := by
  obtain ⟨t, u, h⟩ := perSecond_only s k i n; rw [h]
@[simp] theorem perSecond_csw (s : State) (k : Periodic) (i n : Nat) : (s.perSecond k i n).csw = s.csw := by
  obtain ⟨t, u, h⟩ := perSecond_only s k i n; rw [h]
@[simp] theorem perSecond_swl (s : State) (k : Periodic) (i n : Nat) : (s.perSecond k i n).swl = s.swl := by
  obtain ⟨t, u, h⟩ := perSecond_only s k i n; rw [h]
@[simp] theorem perSecond_opt (s : State) (k : Periodic) (i n : Nat) : (s.perSecond k i n).opt = s.opt := by
  obtain ⟨t, u, h⟩ := perSecond_only s k i n; rw [h]
@[simp] theorem perSecond_d2d (s : State) (k : Periodic) (i n : Nat) : (s.perSecond k i n).d2d = s.d2d := by
  obtain ⟨t, u, h⟩ := perSecond_only s k i n; rw [h]
@[simp] theorem perSecond_pwr (s : State) (k : Periodic) (i n : Nat) : (s.perSecond k i n).pwr = s.pwr := by
  obtain ⟨t, u, h⟩ := perSecond_only s k i n; rw [h]
@[simp] theorem perSecond_bist (s : State) (k : Periodic) (i n : Nat) : (s.perSecond k i n).bist = s.bist := by
  obtain ⟨t, u, h⟩ := perSecond_only s k i n; rw [h]
@[simp] theorem perSecond_fibreTx (s : State) (k : Periodic) (i n : Nat) : (s.perSecond k i n).fibreTx = s.fibreTx := by
  obtain ⟨t, u, h⟩ := perSecond_only s k i n; rw [h]
@[simp] theorem perSecond_free (s : State) (k : Periodic) (i n : Nat) : (s.perSecond k i n).free = s.free := by
  obtain ⟨t, u, h⟩ := perSecond_only s k i n; rw [h]
@[simp] theorem perSecond_pending (s : State) (k : Periodic) (i n : Nat) : (s.perSecond k i n).pending = s.pending := by
  obtain ⟨t, u, h⟩ := perSecond_only s k i n; rw [h]

/-! ### An event writes `tel`, `regs` and, on a bridge's link, `mem` alone -/

theorem moveLog_only (s : State) (up : Bool) (e : LogEvent) : ∃ m, s.moveLog up e = { s with mem := m } := ⟨_, rfl⟩

theorem writeLog_only (s : State) (m : Merged) (flags : Nat) :
    ∃ t r w, s.writeLog m flags = { s with tel := t, regs := r, mem := w } := by
  unfold State.writeLog
  dsimp only
  split
  · exact ⟨_, s.regs, _, rfl⟩
  · split
    · exact ⟨_, _, _, rfl⟩
    · exact ⟨s.tel, _, s.mem, rfl⟩

theorem writeLow_only (s : State) (m : Merged) (flags : Nat) :
    ∃ t r w, s.writeLow m flags = { s with tel := t, regs := r, mem := w } := by
  unfold State.writeLow
  split
  · obtain ⟨t, r, w, h⟩ := writeLog_only
      { s with tel := { s.tel with written := s.tel.written + recordsOf m.data } } m flags
    exact ⟨t, r, w, h⟩
  · exact ⟨_, s.regs, s.mem, rfl⟩

theorem offerLow_only (s : State) (sev : Nat) (data : List Byte) : ∃ t, s.offerLow sev data = { s with tel := t } := by
  unfold State.offerLow
  split
  · exact ⟨_, rfl⟩
  · exact ⟨s.tel, rfl⟩

theorem raiseEv_only (s : State) (code sev source : Nat) (data : List Byte) :
    ∃ t r w, s.raiseEv code sev source data = { s with tel := t, regs := r, mem := w } := by
  unfold State.raiseEv
  obtain ⟨u, hu⟩ := offerLow_only (s.bump (sevCounter sev) []) sev data
  rw [hu]
  dsimp only [State.number]
  split
  · split <;> exact ⟨_, _, s.mem, rfl⟩
  · split
    · obtain ⟨t, r, w, h⟩ := writeLog_only
        { s.bump (sevCounter sev) [] with tel := { u with nextSeq := u.nextSeq + 1 } } _ 0
      exact ⟨t, r, w, h⟩
    · split
      · obtain ⟨t, r, w, h⟩ := writeLow_only
          { s.bump (sevCounter sev) [] with tel := { u with nextSeq := u.nextSeq + 1 } } _ 0
        exact ⟨t, r, w, h⟩
      · split <;> exact ⟨_, _, s.mem, rfl⟩

@[simp] theorem raiseEv_pins (s : State) (c v o : Nat) (d : List Byte) : (s.raiseEv c v o d).pins = s.pins := by
  obtain ⟨t, r, w, h⟩ := raiseEv_only s c v o d; rw [h]
@[simp] theorem raiseEv_boot (s : State) (c v o : Nat) (d : List Byte) : (s.raiseEv c v o d).boot = s.boot := by
  obtain ⟨t, r, w, h⟩ := raiseEv_only s c v o d; rw [h]
@[simp] theorem raiseEv_nvm (s : State) (c v o : Nat) (d : List Byte) : (s.raiseEv c v o d).nvm = s.nvm := by
  obtain ⟨t, r, w, h⟩ := raiseEv_only s c v o d; rw [h]
@[simp] theorem raiseEv_fns (s : State) (c v o : Nat) (d : List Byte) : (s.raiseEv c v o d).fns = s.fns := by
  obtain ⟨t, r, w, h⟩ := raiseEv_only s c v o d; rw [h]
@[simp] theorem raiseEv_latch (s : State) (c v o : Nat) (d : List Byte) : (s.raiseEv c v o d).latch = s.latch := by
  obtain ⟨t, r, w, h⟩ := raiseEv_only s c v o d; rw [h]
@[simp] theorem raiseEv_mgmt (s : State) (c v o : Nat) (d : List Byte) : (s.raiseEv c v o d).mgmt = s.mgmt := by
  obtain ⟨t, r, w, h⟩ := raiseEv_only s c v o d; rw [h]
@[simp] theorem raiseEv_objs (s : State) (c v o : Nat) (d : List Byte) : (s.raiseEv c v o d).objs = s.objs := by
  obtain ⟨t, r, w, h⟩ := raiseEv_only s c v o d; rw [h]
@[simp] theorem raiseEv_time (s : State) (c v o : Nat) (d : List Byte) : (s.raiseEv c v o d).time = s.time := by
  obtain ⟨t, r, w, h⟩ := raiseEv_only s c v o d; rw [h]
@[simp] theorem raiseEv_ticks (s : State) (c v o : Nat) (d : List Byte) : (s.raiseEv c v o d).ticks = s.ticks := by
  obtain ⟨t, r, w, h⟩ := raiseEv_only s c v o d; rw [h]
@[simp] theorem raiseEv_ptp (s : State) (c v o : Nat) (d : List Byte) : (s.raiseEv c v o d).ptp = s.ptp := by
  obtain ⟨t, r, w, h⟩ := raiseEv_only s c v o d; rw [h]
@[simp] theorem raiseEv_tide (s : State) (c v o : Nat) (d : List Byte) : (s.raiseEv c v o d).tide = s.tide := by
  obtain ⟨t, r, w, h⟩ := raiseEv_only s c v o d; rw [h]
@[simp] theorem raiseEv_plan (s : State) (c v o : Nat) (d : List Byte) : (s.raiseEv c v o d).plan = s.plan := by
  obtain ⟨t, r, w, h⟩ := raiseEv_only s c v o d; rw [h]
@[simp] theorem raiseEv_fibres (s : State) (c v o : Nat) (d : List Byte) : (s.raiseEv c v o d).fibres = s.fibres := by
  obtain ⟨t, r, w, h⟩ := raiseEv_only s c v o d; rw [h]
@[simp] theorem raiseEv_ports (s : State) (c v o : Nat) (d : List Byte) : (s.raiseEv c v o d).ports = s.ports := by
  obtain ⟨t, r, w, h⟩ := raiseEv_only s c v o d; rw [h]
@[simp] theorem raiseEv_lanes (s : State) (c v o : Nat) (d : List Byte) : (s.raiseEv c v o d).lanes = s.lanes := by
  obtain ⟨t, r, w, h⟩ := raiseEv_only s c v o d; rw [h]
@[simp] theorem raiseEv_tiles (s : State) (c v o : Nat) (d : List Byte) : (s.raiseEv c v o d).tiles = s.tiles := by
  obtain ⟨t, r, w, h⟩ := raiseEv_only s c v o d; rw [h]
@[simp] theorem raiseEv_queues (s : State) (c v o : Nat) (d : List Byte) : (s.raiseEv c v o d).queues = s.queues := by
  obtain ⟨t, r, w, h⟩ := raiseEv_only s c v o d; rw [h]
@[simp] theorem raiseEv_undertow (s : State) (c v o : Nat) (d : List Byte) : (s.raiseEv c v o d).undertow = s.undertow := by
  obtain ⟨t, r, w, h⟩ := raiseEv_only s c v o d; rw [h]
@[simp] theorem raiseEv_xbar (s : State) (c v o : Nat) (d : List Byte) : (s.raiseEv c v o d).xbar = s.xbar := by
  obtain ⟨t, r, w, h⟩ := raiseEv_only s c v o d; rw [h]
@[simp] theorem raiseEv_frames (s : State) (c v o : Nat) (d : List Byte) : (s.raiseEv c v o d).frames = s.frames := by
  obtain ⟨t, r, w, h⟩ := raiseEv_only s c v o d; rw [h]
@[simp] theorem raiseEv_tc (s : State) (c v o : Nat) (d : List Byte) : (s.raiseEv c v o d).tc = s.tc := by
  obtain ⟨t, r, w, h⟩ := raiseEv_only s c v o d; rw [h]
@[simp] theorem raiseEv_tables (s : State) (c v o : Nat) (d : List Byte) : (s.raiseEv c v o d).tables = s.tables := by
  obtain ⟨t, r, w, h⟩ := raiseEv_only s c v o d; rw [h]
@[simp] theorem raiseEv_gen (s : State) (c v o : Nat) (d : List Byte) : (s.raiseEv c v o d).gen = s.gen := by
  obtain ⟨t, r, w, h⟩ := raiseEv_only s c v o d; rw [h]
@[simp] theorem raiseEv_est (s : State) (c v o : Nat) (d : List Byte) : (s.raiseEv c v o d).est = s.est := by
  obtain ⟨t, r, w, h⟩ := raiseEv_only s c v o d; rw [h]
@[simp] theorem raiseEv_bwk (s : State) (c v o : Nat) (d : List Byte) : (s.raiseEv c v o d).bwk = s.bwk := by
  obtain ⟨t, r, w, h⟩ := raiseEv_only s c v o d; rw [h]
@[simp] theorem raiseEv_csw (s : State) (c v o : Nat) (d : List Byte) : (s.raiseEv c v o d).csw = s.csw := by
  obtain ⟨t, r, w, h⟩ := raiseEv_only s c v o d; rw [h]
@[simp] theorem raiseEv_swl (s : State) (c v o : Nat) (d : List Byte) : (s.raiseEv c v o d).swl = s.swl := by
  obtain ⟨t, r, w, h⟩ := raiseEv_only s c v o d; rw [h]
@[simp] theorem raiseEv_opt (s : State) (c v o : Nat) (d : List Byte) : (s.raiseEv c v o d).opt = s.opt := by
  obtain ⟨t, r, w, h⟩ := raiseEv_only s c v o d; rw [h]
@[simp] theorem raiseEv_d2d (s : State) (c v o : Nat) (d : List Byte) : (s.raiseEv c v o d).d2d = s.d2d := by
  obtain ⟨t, r, w, h⟩ := raiseEv_only s c v o d; rw [h]
@[simp] theorem raiseEv_pwr (s : State) (c v o : Nat) (d : List Byte) : (s.raiseEv c v o d).pwr = s.pwr := by
  obtain ⟨t, r, w, h⟩ := raiseEv_only s c v o d; rw [h]
@[simp] theorem raiseEv_bist (s : State) (c v o : Nat) (d : List Byte) : (s.raiseEv c v o d).bist = s.bist := by
  obtain ⟨t, r, w, h⟩ := raiseEv_only s c v o d; rw [h]
@[simp] theorem raiseEv_fibreTx (s : State) (c v o : Nat) (d : List Byte) : (s.raiseEv c v o d).fibreTx = s.fibreTx := by
  obtain ⟨t, r, w, h⟩ := raiseEv_only s c v o d; rw [h]
@[simp] theorem raiseEv_free (s : State) (c v o : Nat) (d : List Byte) : (s.raiseEv c v o d).free = s.free := by
  obtain ⟨t, r, w, h⟩ := raiseEv_only s c v o d; rw [h]
@[simp] theorem raiseEv_pending (s : State) (c v o : Nat) (d : List Byte) : (s.raiseEv c v o d).pending = s.pending := by
  obtain ⟨t, r, w, h⟩ := raiseEv_only s c v o d; rw [h]

/-! ### What leaves on a fibre writes `fibreTx` alone -/

theorem toFibre_only (s : State) (l : Nat) (x : FibreTx) : ∃ t, s.toFibre l x = { s with fibreTx := t } := by
  unfold State.toFibre
  split
  · exact ⟨_, rfl⟩
  · exact ⟨s.fibreTx, rfl⟩

@[simp] theorem toFibre_pins (s : State) (l : Nat) (x : FibreTx) : (s.toFibre l x).pins = s.pins := by
  obtain ⟨t, h⟩ := toFibre_only s l x; rw [h]
@[simp] theorem toFibre_boot (s : State) (l : Nat) (x : FibreTx) : (s.toFibre l x).boot = s.boot := by
  obtain ⟨t, h⟩ := toFibre_only s l x; rw [h]
@[simp] theorem toFibre_nvm (s : State) (l : Nat) (x : FibreTx) : (s.toFibre l x).nvm = s.nvm := by
  obtain ⟨t, h⟩ := toFibre_only s l x; rw [h]
@[simp] theorem toFibre_fns (s : State) (l : Nat) (x : FibreTx) : (s.toFibre l x).fns = s.fns := by
  obtain ⟨t, h⟩ := toFibre_only s l x; rw [h]
@[simp] theorem toFibre_regs (s : State) (l : Nat) (x : FibreTx) : (s.toFibre l x).regs = s.regs := by
  obtain ⟨t, h⟩ := toFibre_only s l x; rw [h]
@[simp] theorem toFibre_latch (s : State) (l : Nat) (x : FibreTx) : (s.toFibre l x).latch = s.latch := by
  obtain ⟨t, h⟩ := toFibre_only s l x; rw [h]
@[simp] theorem toFibre_mgmt (s : State) (l : Nat) (x : FibreTx) : (s.toFibre l x).mgmt = s.mgmt := by
  obtain ⟨t, h⟩ := toFibre_only s l x; rw [h]
@[simp] theorem toFibre_objs (s : State) (l : Nat) (x : FibreTx) : (s.toFibre l x).objs = s.objs := by
  obtain ⟨t, h⟩ := toFibre_only s l x; rw [h]
@[simp] theorem toFibre_tel (s : State) (l : Nat) (x : FibreTx) : (s.toFibre l x).tel = s.tel := by
  obtain ⟨t, h⟩ := toFibre_only s l x; rw [h]
@[simp] theorem toFibre_time (s : State) (l : Nat) (x : FibreTx) : (s.toFibre l x).time = s.time := by
  obtain ⟨t, h⟩ := toFibre_only s l x; rw [h]
@[simp] theorem toFibre_ticks (s : State) (l : Nat) (x : FibreTx) : (s.toFibre l x).ticks = s.ticks := by
  obtain ⟨t, h⟩ := toFibre_only s l x; rw [h]
@[simp] theorem toFibre_ptp (s : State) (l : Nat) (x : FibreTx) : (s.toFibre l x).ptp = s.ptp := by
  obtain ⟨t, h⟩ := toFibre_only s l x; rw [h]
@[simp] theorem toFibre_tide (s : State) (l : Nat) (x : FibreTx) : (s.toFibre l x).tide = s.tide := by
  obtain ⟨t, h⟩ := toFibre_only s l x; rw [h]
@[simp] theorem toFibre_plan (s : State) (l : Nat) (x : FibreTx) : (s.toFibre l x).plan = s.plan := by
  obtain ⟨t, h⟩ := toFibre_only s l x; rw [h]
@[simp] theorem toFibre_fibres (s : State) (l : Nat) (x : FibreTx) : (s.toFibre l x).fibres = s.fibres := by
  obtain ⟨t, h⟩ := toFibre_only s l x; rw [h]
@[simp] theorem toFibre_ports (s : State) (l : Nat) (x : FibreTx) : (s.toFibre l x).ports = s.ports := by
  obtain ⟨t, h⟩ := toFibre_only s l x; rw [h]
@[simp] theorem toFibre_lanes (s : State) (l : Nat) (x : FibreTx) : (s.toFibre l x).lanes = s.lanes := by
  obtain ⟨t, h⟩ := toFibre_only s l x; rw [h]
@[simp] theorem toFibre_tiles (s : State) (l : Nat) (x : FibreTx) : (s.toFibre l x).tiles = s.tiles := by
  obtain ⟨t, h⟩ := toFibre_only s l x; rw [h]
@[simp] theorem toFibre_queues (s : State) (l : Nat) (x : FibreTx) : (s.toFibre l x).queues = s.queues := by
  obtain ⟨t, h⟩ := toFibre_only s l x; rw [h]
@[simp] theorem toFibre_undertow (s : State) (l : Nat) (x : FibreTx) : (s.toFibre l x).undertow = s.undertow := by
  obtain ⟨t, h⟩ := toFibre_only s l x; rw [h]
@[simp] theorem toFibre_xbar (s : State) (l : Nat) (x : FibreTx) : (s.toFibre l x).xbar = s.xbar := by
  obtain ⟨t, h⟩ := toFibre_only s l x; rw [h]
@[simp] theorem toFibre_frames (s : State) (l : Nat) (x : FibreTx) : (s.toFibre l x).frames = s.frames := by
  obtain ⟨t, h⟩ := toFibre_only s l x; rw [h]
@[simp] theorem toFibre_tc (s : State) (l : Nat) (x : FibreTx) : (s.toFibre l x).tc = s.tc := by
  obtain ⟨t, h⟩ := toFibre_only s l x; rw [h]
@[simp] theorem toFibre_tables (s : State) (l : Nat) (x : FibreTx) : (s.toFibre l x).tables = s.tables := by
  obtain ⟨t, h⟩ := toFibre_only s l x; rw [h]
@[simp] theorem toFibre_gen (s : State) (l : Nat) (x : FibreTx) : (s.toFibre l x).gen = s.gen := by
  obtain ⟨t, h⟩ := toFibre_only s l x; rw [h]
@[simp] theorem toFibre_est (s : State) (l : Nat) (x : FibreTx) : (s.toFibre l x).est = s.est := by
  obtain ⟨t, h⟩ := toFibre_only s l x; rw [h]
@[simp] theorem toFibre_bwk (s : State) (l : Nat) (x : FibreTx) : (s.toFibre l x).bwk = s.bwk := by
  obtain ⟨t, h⟩ := toFibre_only s l x; rw [h]
@[simp] theorem toFibre_mem (s : State) (l : Nat) (x : FibreTx) : (s.toFibre l x).mem = s.mem := by
  obtain ⟨t, h⟩ := toFibre_only s l x; rw [h]
@[simp] theorem toFibre_csw (s : State) (l : Nat) (x : FibreTx) : (s.toFibre l x).csw = s.csw := by
  obtain ⟨t, h⟩ := toFibre_only s l x; rw [h]
@[simp] theorem toFibre_swl (s : State) (l : Nat) (x : FibreTx) : (s.toFibre l x).swl = s.swl := by
  obtain ⟨t, h⟩ := toFibre_only s l x; rw [h]
@[simp] theorem toFibre_opt (s : State) (l : Nat) (x : FibreTx) : (s.toFibre l x).opt = s.opt := by
  obtain ⟨t, h⟩ := toFibre_only s l x; rw [h]
@[simp] theorem toFibre_d2d (s : State) (l : Nat) (x : FibreTx) : (s.toFibre l x).d2d = s.d2d := by
  obtain ⟨t, h⟩ := toFibre_only s l x; rw [h]
@[simp] theorem toFibre_pwr (s : State) (l : Nat) (x : FibreTx) : (s.toFibre l x).pwr = s.pwr := by
  obtain ⟨t, h⟩ := toFibre_only s l x; rw [h]
@[simp] theorem toFibre_bist (s : State) (l : Nat) (x : FibreTx) : (s.toFibre l x).bist = s.bist := by
  obtain ⟨t, h⟩ := toFibre_only s l x; rw [h]
@[simp] theorem toFibre_free (s : State) (l : Nat) (x : FibreTx) : (s.toFibre l x).free = s.free := by
  obtain ⟨t, h⟩ := toFibre_only s l x; rw [h]
@[simp] theorem toFibre_pending (s : State) (l : Nat) (x : FibreTx) : (s.toFibre l x).pending = s.pending := by
  obtain ⟨t, h⟩ := toFibre_only s l x; rw [h]

/-! ### What is read back -/

@[simp] theorem setFn_fn (s : State) (k : Nat) (f : FnState → FnState) : (s.setFn k f).fn k = f (s.fn k) :=
  AMap.getD_modD_same _ _ _ _
theorem setFn_fn_ne (s : State) {j k : Nat} (f : FnState → FnState) (h : j ≠ k) : (s.setFn k f).fn j = s.fn j :=
  AMap.getD_modD_ne _ _ _ _ h
@[simp] theorem setFibre_fibre (s : State) (k : Nat) (f : FibreSt → FibreSt) : (s.setFibre k f).fibre k = f (s.fibre k) :=
  AMap.getD_modD_same _ _ _ _
theorem setFibre_fibre_ne (s : State) {j k : Nat} (f : FibreSt → FibreSt) (h : j ≠ k) : (s.setFibre k f).fibre j = s.fibre j :=
  AMap.getD_modD_ne _ _ _ _ h
@[simp] theorem setPort_port (s : State) (k : Nat) (f : PortSt → PortSt) : (s.setPort k f).port k = f (s.port k) :=
  AMap.getD_modD_same _ _ _ _
theorem setPort_port_ne (s : State) {j k : Nat} (f : PortSt → PortSt) (h : j ≠ k) : (s.setPort k f).port j = s.port j :=
  AMap.getD_modD_ne _ _ _ _ h
@[simp] theorem setLane_lane (s : State) (k : Nat) (f : LaneSt → LaneSt) : (s.setLane k f).lane k = f (s.lane k) :=
  AMap.getD_modD_same _ _ _ _
theorem setLane_lane_ne (s : State) {j k : Nat} (f : LaneSt → LaneSt) (h : j ≠ k) : (s.setLane k f).lane j = s.lane j :=
  AMap.getD_modD_ne _ _ _ _ h
@[simp] theorem setTile_tile (s : State) (k : Nat) (f : TileSt → TileSt) : (s.setTile k f).tile k = f (s.tile k) :=
  AMap.getD_modD_same _ _ _ _
theorem setTile_tile_ne (s : State) {j k : Nat} (f : TileSt → TileSt) (h : j ≠ k) : (s.setTile k f).tile j = s.tile j :=
  AMap.getD_modD_ne _ _ _ _ h
@[simp] theorem setBrg_brg (s : State) (k : Nat) (f : BridgeSt → BridgeSt) : (s.setBrg k f).brg k = f (s.brg k) :=
  AMap.getD_modD_same _ _ _ _
theorem setBrg_brg_ne (s : State) {j k : Nat} (f : BridgeSt → BridgeSt) (h : j ≠ k) : (s.setBrg k f).brg j = s.brg j :=
  AMap.getD_modD_ne _ _ _ _ h
@[simp] theorem setOe_oe (s : State) (k : Nat) (f : EngineSt → EngineSt) : (s.setOe k f).oe k = f (s.oe k) :=
  AMap.getD_modD_same _ _ _ _
theorem setOe_oe_ne (s : State) {j k : Nat} (f : EngineSt → EngineSt) (h : j ≠ k) : (s.setOe k f).oe j = s.oe j :=
  AMap.getD_modD_ne _ _ _ _ h
@[simp] theorem setEye_eye (s : State) (k : Nat) (f : EyeSt → EyeSt) : (s.setEye k f).eye k = f (s.eye k) :=
  AMap.getD_modD_same _ _ _ _
theorem setEye_eye_ne (s : State) {j k : Nat} (f : EyeSt → EyeSt) (h : j ≠ k) : (s.setEye k f).eye j = s.eye j :=
  AMap.getD_modD_ne _ _ _ _ h
@[simp] theorem setDie_die (s : State) (k : Nat) (f : DieSt → DieSt) : (s.setDie k f).die k = f (s.die k) :=
  AMap.getD_modD_same _ _ _ _
theorem setDie_die_ne (s : State) {j k : Nat} (f : DieSt → DieSt) (h : j ≠ k) : (s.setDie k f).die j = s.die j :=
  AMap.getD_modD_ne _ _ _ _ h
@[simp] theorem setLink_link (s : State) (k : Nat) (f : LinkSt → LinkSt) : (s.setLink k f).link k = f (s.link k) :=
  AMap.getD_modD_same _ _ _ _
theorem setLink_link_ne (s : State) {j k : Nat} (f : LinkSt → LinkSt) (h : j ≠ k) : (s.setLink k f).link j = s.link j :=
  AMap.getD_modD_ne _ _ _ _ h
@[simp] theorem setSlice_slice (s : State) (k : Nat) (f : Slice → Slice) : (s.setSlice k f).slice k = f (s.slice k) :=
  AMap.getD_modD_same _ _ _ _
theorem setSlice_slice_ne (s : State) {j k : Nat} (f : Slice → Slice) (h : j ≠ k) : (s.setSlice k f).slice j = s.slice j :=
  AMap.getD_modD_ne _ _ _ _ h
@[simp] theorem setQueue_queue (s : State) (k : Nat) (q : List QCell) : (s.setQueue k q).queue k = q :=
  AMap.getD_setD_same _ _ _ _
theorem setQueue_queue_ne (s : State) {j k : Nat} (q : List QCell) (h : j ≠ k) : (s.setQueue k q).queue j = s.queue j :=
  AMap.getD_setD_ne _ _ _ _ h
@[simp] theorem setUnder_under (s : State) (k : Nat) (q : List QCell) : (s.setUnder k q).under k = q :=
  AMap.getD_setD_same _ _ _ _
theorem setUnder_under_ne (s : State) {j k : Nat} (q : List QCell) (h : j ≠ k) : (s.setUnder k q).under j = s.under j :=
  AMap.getD_setD_ne _ _ _ _ h
@[simp] theorem setReg_reg (s : State) (r : Reg) (ix : List Nat) (w : Word) : (s.setReg r ix w).reg r ix = w :=
  AMap.getD_setD_same _ _ _ _
theorem setReg_reg_ne (s : State) {r q : Reg} {ix jx : List Nat} (w : Word) (h : regAddr q jx ≠ regAddr r ix) :
    (s.setReg r ix w).reg q jx = s.reg q jx := AMap.getD_setD_ne _ _ _ _ h
@[simp] theorem putCtx_ctx (s : State) (x : Nat) (c : Ctx) : (s.putCtx x c).ctx x = some c := AMap.find_put_same _ _ _
theorem putCtx_ctx_ne (s : State) {x y : Nat} (c : Ctx) (h : y ≠ x) : (s.putCtx x c).ctx y = s.ctx y :=
  AMap.find_put_ne _ _ h

end Sys2Proof.Machine
end

