-- ==== Sys2Proof/Laws/Mgmt.lean ====
section
/-! SUPPORT. Session slots, and how a host's command that waits in its queue runs and ends. -/

namespace Sys2Proof.Machine

/-! ## Lists changed at one place -/

theorem modAt_length {α : Type} (l : List α) (i : Nat) (f : α → α) : (modAt l i f).length = l.length := by
  induction l generalizing i with
  | nil => rfl
  | cons x xs ih => cases i <;> simp [modAt, ih]

theorem modAt_getD_same {α : Type} (l : List α) (i : Nat) (f : α → α) (d : α) (h : i < l.length) :
    (modAt l i f).getD i d = f (l.getD i d) := by
  induction l generalizing i with
  | nil => simp at h
  | cons x xs ih =>
    cases i with
    | zero => simp [modAt]
    | succ n => simpa [modAt] using ih n (by simpa using h)

theorem modAt_getD_ne {α : Type} (l : List α) (i j : Nat) (f : α → α) (d : α) (h : j ≠ i) :
    (modAt l i f).getD j d = l.getD j d := by
  induction l generalizing i j with
  | nil => rfl
  | cons x xs ih =>
    cases i with
    | zero => cases j <;> simp_all [modAt]
    | succ n =>
      cases j with
      | zero => simp [modAt]
      | succ m => simpa [modAt] using ih n m (by omega)

theorem modAt_modAt {α : Type} (l : List α) (i : Nat) (f g : α → α) :
    modAt (modAt l i f) i g = modAt l i (fun x => g (f x)) := by
  induction l generalizing i with
  | nil => rfl
  | cons x xs ih => cases i <;> simp [modAt, ih]

/-- A change that does nothing to the entry it meets leaves the list as it was. -/
theorem modAt_id {α : Type} (l : List α) (i : Nat) (f : α → α) (d : α) (h : f (l.getD i d) = l.getD i d) :
    modAt l i f = l := by
  induction l generalizing i with
  | nil => rfl
  | cons x xs ih =>
    cases i with
    | zero => simpa [modAt] using h
    | succ n => simpa [modAt] using ih n (by simpa using h)

/-! ## Slots -/

theorem slot_setSlot_same (s : State) (i : Nat) (f : Session → Session) (h : i < s.mgmt.slots.length) :
    (s.setSlot i f).slot i = f (s.slot i) := modAt_getD_same _ _ _ _ h

theorem slot_setSlot_ne (s : State) (i j : Nat) (f : Session → Session) (h : j ≠ i) :
    (s.setSlot i f).slot j = s.slot j := modAt_getD_ne _ _ _ _ _ h

theorem setSlot_setSlot (s : State) (i : Nat) (f g : Session → Session) :
    (s.setSlot i f).setSlot i g = s.setSlot i fun x => g (f x) := by
  simp [State.setSlot, modAt_modAt]

/-- An open session's slot lies in the table. -/
theorem slotIx_lt {s : State} {n i : Nat} (h : s.slotIx n = some i) : i < s.mgmt.slots.length := by
  unfold State.slotIx at h
  exact (List.findIdx?_eq_some_iff_findIdx_eq.mp h).1

/-! ## A waiting command runs -/

/-- The request of a waiting row, its slot and its entry. -/
theorem Waits.request {s : State} {c : Instr} {i : Nat} {e : CmdEntry} (h : Waits s c i e) :
    ∃ r, requestOf c = some r ∧ s.waiting r = some (i, e) := by
  have := h.waits
  cases hr : requestOf c with
  | none => simp [hr] at this
  | some r => exact ⟨r, rfl, by simpa [hr] using this⟩

/-- A command that waits and may start runs its meaning. -/
theorem hostCmdThen_waits {s : State} {c : Instr} {i : Nat} {e : CmdEntry} (h : Waits s c i e) (body : Body)
    (after : Nat → State → State) : hostCmdThen c body after s = runCmd i e body after s := by
  obtain ⟨r, hr, hw⟩ := h.request
  simp [hostCmdThen, hr, hw, h.booted, State.start, h.start]

theorem hostCmd_waits {s : State} {c : Instr} {i : Nat} {e : CmdEntry} (h : Waits s c i e) (body : Body) :
    hostCmd c body s = runCmd i e body (fun _ t => t) s :=
  hostCmdThen_waits h body _

/-- The slot of a waiting row is its session's, and the entry is of the row's opcode, tag and parameters. -/
theorem Waits.found {s : State} {c : Instr} {i : Nat} {e : CmdEntry} (h : Waits s c i e) :
    ∃ r, requestOf c = some r ∧ s.slotIx r.iss.session.toNat = some i ∧ e.opcode = r.op ∧ e.tag = r.iss.tag ∧
      e.params = r.params ∧ e.phase = .queued := by
  obtain ⟨r, hr, hw⟩ := h.request
  refine ⟨r, hr, ?_⟩
  unfold State.waiting at hw
  obtain ⟨j, hj, hw⟩ := Option.bind_eq_some_iff.mp hw
  obtain ⟨a, ha, hw⟩ := Option.map_eq_some_iff.mp hw
  obtain ⟨rfl, rfl⟩ := Prod.mk.inj hw
  have := List.find?_some ha
  simp only [CmdEntry.isOf, decide_eq_true_eq] at this
  exact ⟨hj, this.2.1, this.1, this.2.2.2, this.2.2.1⟩

/-- A waiting session-0 command runs and is answered. -/
theorem zeroCmd_waits {s s' : State} {c : Instr} {z : ZeroReq} {rest : List ZeroReq} (h : WaitsZero s c z rest)
    {body : ZeroReq → State → Ans × State} {st det : Nat} {res : List Byte}
    (hb : body z { s with mgmt := { s.mgmt with zeroCmds := rest } } = (.done st det res, s')) :
    zeroCmd c body s = s'.sendZero z ⟨st, det, res⟩ := by
  obtain ⟨r, hr, hw⟩ := Option.bind_eq_some_iff.mp h.waits
  have any : s.mgmt.zeroCmds.any (·.isOf r) = true := by
    by_contra hn
    simp only [Bool.not_eq_true, List.any_eq_false] at hn
    have none : ∀ l : List ZeroReq, (∀ x ∈ l, ¬ x.isOf r = true) → takeFirst (·.isOf r) l = none := by
      intro l
      induction l with
      | nil => intro _; rfl
      | cons x xs ih =>
        intro hl
        simp [takeFirst, hl x (by simp), ih fun y hy => hl y (by simp [hy])]
    rw [none _ (by simpa using hn)] at hw
    simp at hw
  simp only [zeroCmd, hr, h.booted, ne_eq, not_true_eq_false, if_false, any, if_true, hw, hb]

/-- A command at hand runs and is answered. -/
theorem arrivalCmd_waits {s s' : State} {c : Instr} {i : Nat} {e : CmdEntry} {rest : List CmdEntry}
    (h : AtHand s c i e rest) {body : Body} {st det : Nat} {res : List Byte}
    (hb : body i (s.setSlot i fun y => { y with arrivals := rest }) = (.done st det res, s')) :
    arrivalCmd c body s = (s'.sendOn i e.opcode e.tag e.flags 0 e.src e.vlan ⟨st, det, res⟩).endLast i e.last := by
  obtain ⟨r, hr, hw⟩ := Option.bind_eq_some_iff.mp h.waits
  simp only [arrivalCmd, hr, h.booted, ne_eq, not_true_eq_false, if_false, hw, Option.isSome_some, if_true, hb]

/-- A final answer other than INTERNAL ends the command. -/
theorem runCmd_done {i : Nat} {e : CmdEntry} {body : Body} {after : Nat → State → State} {s s' : State} {st det : Nat}
    {res : List Byte} (h : body i s = (.done st det res, s')) (hst : st ≠ stInternal) :
    runCmd i e body after s = after i (s'.ends i e st det res) := by
  simp [runCmd, h, hst, State.ends]

/-- A PENDING answer leaves the command waiting on its job. -/
theorem runCmd_pend {i : Nat} {e : CmdEntry} {body : Body} {after : Nat → State → State} {s s' : State} {objs : List Nat}
    {job : Job} (h : body i s = (.pend objs job, s')) : runCmd i e body after s = s'.pendCmd i e objs job := by
  simp [runCmd, h]

/-- A command that runs on replies nothing yet. -/
theorem runCmd_hold {i : Nat} {e : CmdEntry} {body : Body} {after : Nat → State → State} {s s' : State} {job : Job}
    (h : body i s = (.hold job, s')) : runCmd i e body after s = s'.holdCmd i e job := by
  simp [runCmd, h]

/-! ## What the checks leave -/

/-- Parameters that all pass change nothing. -/
theorem guardParams_ok {cs : List (Bool × Nat)} (s : State) (k : Ans × State) (h : ∀ c ∈ cs, c.1 = true) :
    guardParams cs s k = k := by
  have : firstBad cs = none := by
    simp only [firstBad, Option.map_eq_none_iff, List.find?_eq_none]
    intro c hc
    simp [h c hc]
  simp [guardParams, this]

/-- Functions that are all in service change nothing. -/
theorem guardUp_ok {fids : List Nat} (s : State) (k : Ans × State) (h : ∀ f ∈ fids, s.fnDown f = false) :
    guardUp fids s k = k := by
  have : fids.find? s.fnDown = none := by
    rw [List.find?_eq_none]
    intro f hf
    simp [h f hf]
  simp [guardUp, this]

/-! ## What a reply may write -/

/-- Only sessions, objects, telemetry, the registers and the bridges' links, over which events go to LOG, differ. -/
def ReplyWrites (s s' : State) : Prop :=
  ∃ m o t r w, s' = { s with mgmt := m, objs := o, tel := t, regs := r, mem := w }

theorem ReplyWrites.refl (s : State) : ReplyWrites s s := ⟨s.mgmt, s.objs, s.tel, s.regs, s.mem, rfl⟩

theorem ReplyWrites.trans {s s' s'' : State} (h : ReplyWrites s s') (h' : ReplyWrites s' s'') : ReplyWrites s s'' := by
  obtain ⟨m, o, t, r, w, rfl⟩ := h
  obtain ⟨m', o', t', r', w', rfl⟩ := h'
  exact ⟨m', o', t', r', w', rfl⟩

theorem ReplyWrites.bump (s : State) (r : Reg) (ix : List Nat) : ReplyWrites s (s.bump r ix) := ⟨_, _, _, _, s.mem, rfl⟩

theorem ReplyWrites.setSlot (s : State) (i : Nat) (f : Session → Session) : ReplyWrites s (s.setSlot i f) :=
  ⟨_, _, _, _, s.mem, rfl⟩

theorem ReplyWrites.raiseEv (s : State) (c v o : Nat) (d : List Byte) : ReplyWrites s (s.raiseEv c v o d) := by
  obtain ⟨t, r, w, h⟩ := raiseEv_only s c v o d
  exact ⟨s.mgmt, s.objs, t, r, w, h⟩

/-- A stream of a session that closes stops. -/
theorem ReplyWrites.stream (s : State) (n : Nat) : ReplyWrites s
    (if s.tel.stream.enable ∧ s.tel.stream.session = n then
      { s with tel := { s.tel with stream := { s.tel.stream with enable := false } } } else s) := by
  split
  · exact ⟨_, _, _, _, s.mem, rfl⟩
  · exact .refl s

theorem closeSession_only (s : State) (i reason : Nat) : ReplyWrites s (s.closeSession i reason) := by
  unfold State.closeSession
  dsimp only
  split
  · exact .refl s
  · refine ReplyWrites.trans (ReplyWrites.trans ?_ (.stream _ _)) (.raiseEv _ _ _ _ _)
    exact ⟨_, _, _, _, s.mem, rfl⟩

theorem ReplyWrites.closeIf {s s' : State} (h : ReplyWrites s s') (c : Prop) [Decidable c] (i r : Nat) :
    ReplyWrites s (if c then s'.closeSession i r else s') := by
  split
  · exact h.trans (closeSession_only s' i r)
  · exact h

theorem sendOn_only (s : State) (i op : Nat) (tag : BitVec 32) (flags extra : Byte) (dst : BitVec 48)
    (vlan : Option (BitVec 16)) (f : Final) : ReplyWrites s (s.sendOn i op tag flags extra dst vlan f) := by
  have busy : ReplyWrites s (if f.status = stBusy then s.bump .cmdBusy [] else s) := by
    split
    · exact .bump s _ _
    · exact .refl s
  unfold State.sendOn
  revert busy
  generalize (if f.status = stBusy then s.bump .cmdBusy [] else s) = u
  intro busy
  refine busy.trans ?_
  dsimp only
  have sent (c : Prop) [Decidable c] (g : Session → Session) (m : List MgmtTx) :
      ReplyWrites u (if c then { u.setSlot i g with mgmt := { (u.setSlot i g).mgmt with sent := m } } else u) := by
    split
    · exact ⟨_, _, _, _, u.mem, rfl⟩
    · exact .refl u
  exact (sent _ _ _).closeIf _ _ _

theorem ReplyWrites.endLast {s s' : State} (h : ReplyWrites s s') (i : Nat) (last : Bool) :
    ReplyWrites s (s'.endLast i last) := by
  unfold State.endLast
  split
  · exact h.trans (closeSession_only s' i 3)
  · exact h

/-- A command whose frame did not carry the last host sequence closes nothing. -/
@[simp] theorem endLast_false (s : State) (i : Nat) : s.endLast i false = s := rfl

theorem finishCmd_only (s : State) (i : Nat) (e : CmdEntry) (extra : Byte) (f : Final) :
    ReplyWrites s (s.finishCmd i e extra f) :=
  ((ReplyWrites.setSlot s i _).trans (sendOn_only _ _ _ _ _ _ _ _ _)).endLast _ _

theorem pendCmd_only (s : State) (i : Nat) (e : CmdEntry) (objs : List Nat) (job : Job) :
    ReplyWrites s (s.pendCmd i e objs job) :=
  ((ReplyWrites.setSlot s i _).trans (sendOn_only _ _ _ _ _ _ _ _ _)).endLast _ _

end Sys2Proof.Machine
end

