-- ==== Sys2Proof/Laws/PerInstr.lean ====
section
/-! SUPPORT. Well-formedness, command by command: the operands that can be ill-formed are a flit and the items of TRIGGER_WRITE. -/

namespace Sys2Proof.Laws.Operands

/-- An ill-formed command is a received flit without its 15 slots or its 8 credit limits, or a TRIGGER_WRITE with an item of
another KIND's layout. -/
def Statement (i : Instr) : Prop := i.wf = false →
  (∃ l f r, i = .flitReceive l f r ∧ f.wf = false) ∨
  ∃ iss kind rsv count items, i = .triggerWrite iss kind rsv count items ∧ items.all (TrigItem.fits kind) = false

theorem powerOnResetAssert : Statement (.powerOnResetAssert) := fun h => Bool.noConfusion h
theorem systemResetAssert : Statement (.systemResetAssert) := fun h => Bool.noConfusion h
theorem resetRelease a0 a1 : Statement (.resetRelease a0 a1) := fun h => Bool.noConfusion h
theorem bootStepEnd a0 : Statement (.bootStepEnd a0) := fun h => Bool.noConfusion h
theorem railUndervoltage : Statement (.railUndervoltage) := fun h => Bool.noConfusion h
theorem railRecoveryExpiry : Statement (.railRecoveryExpiry) := fun h => Bool.noConfusion h
theorem refclkStop : Statement (.refclkStop) := fun h => Bool.noConfusion h
theorem thermalTrip a0 a1 : Statement (.thermalTrip a0 a1) := fun h => Bool.noConfusion h
theorem thermalThrottle a0 a1 : Statement (.thermalThrottle a0 a1) := fun h => Bool.noConfusion h
theorem jtagInstruction a0 a1 : Statement (.jtagInstruction a0 a1) := fun h => Bool.noConfusion h
theorem extestExit a0 : Statement (.extestExit a0) := fun h => Bool.noConfusion h
theorem mgmtFrameReceive a0 : Statement (.mgmtFrameReceive a0) := fun h => Bool.noConfusion h
theorem sessionOpen a0 a1 a2 a3 : Statement (.sessionOpen a0 a1 a2 a3) := fun h => Bool.noConfusion h
theorem sessionFinish a0 a1 a2 a3 a4 a5 a6 : Statement (.sessionFinish a0 a1 a2 a3 a4 a5 a6) := fun h => Bool.noConfusion h
theorem sessionClose a0 : Statement (.sessionClose a0) := fun h => Bool.noConfusion h
theorem sessionList a0 : Statement (.sessionList a0) := fun h => Bool.noConfusion h
theorem devIdentify a0 : Statement (.devIdentify a0) := fun h => Bool.noConfusion h
theorem nop a0 a1 : Statement (.nop a0 a1) := fun h => Bool.noConfusion h
theorem cmdPoll a0 a1 : Statement (.cmdPoll a0 a1) := fun h => Bool.noConfusion h
theorem cmdCancel a0 a1 : Statement (.cmdCancel a0 a1) := fun h => Bool.noConfusion h
theorem objOpen a0 a1 a2 a3 : Statement (.objOpen a0 a1 a2 a3) := fun h => Bool.noConfusion h
theorem objWrite a0 a1 a2 a3 a4 a5 : Statement (.objWrite a0 a1 a2 a3 a4 a5) := fun h => Bool.noConfusion h
theorem objClose a0 a1 a2 a3 : Statement (.objClose a0 a1 a2 a3) := fun h => Bool.noConfusion h
theorem objRead a0 a1 a2 a3 a4 a5 : Statement (.objRead a0 a1 a2 a3 a4 a5) := fun h => Bool.noConfusion h
theorem objFree a0 a1 a2 : Statement (.objFree a0 a1 a2) := fun h => Bool.noConfusion h
theorem regRead a0 a1 : Statement (.regRead a0 a1) := fun h => Bool.noConfusion h
theorem regWrite a0 a1 a2 : Statement (.regWrite a0 a1 a2) := fun h => Bool.noConfusion h
theorem regModify a0 a1 a2 a3 : Statement (.regModify a0 a1 a2 a3) := fun h => Bool.noConfusion h
theorem regReadBlock a0 a1 a2 : Statement (.regReadBlock a0 a1 a2) := fun h => Bool.noConfusion h
theorem regWriteList a0 a1 a2 : Statement (.regWriteList a0 a1 a2) := fun h => Bool.noConfusion h
theorem rcRegisterRead a0 a1 a2 : Statement (.rcRegisterRead a0 a1 a2) := fun h => Bool.noConfusion h
theorem latchingRegisterRead a0 a1 : Statement (.latchingRegisterRead a0 a1) := fun h => Bool.noConfusion h
theorem w1cRegisterWrite a0 a1 a2 a3 : Statement (.w1cRegisterWrite a0 a1 a2 a3) := fun h => Bool.noConfusion h
theorem cmdConfigWrite a0 a1 : Statement (.cmdConfigWrite a0 a1) := fun h => Bool.noConfusion h
theorem tcConfigWrite a0 a1 a2 : Statement (.tcConfigWrite a0 a1 a2) := fun h => Bool.noConfusion h
theorem tblCmdWriteEntry a0 a1 : Statement (.tblCmdWriteEntry a0 a1) := fun h => Bool.noConfusion h
theorem tblCmdReadEntry a0 a1 : Statement (.tblCmdReadEntry a0 a1) := fun h => Bool.noConfusion h
theorem tblCmdInvalidateEntry a0 a1 : Statement (.tblCmdInvalidateEntry a0 a1) := fun h => Bool.noConfusion h
theorem tblCmdMoveEntries a0 a1 : Statement (.tblCmdMoveEntries a0 a1) := fun h => Bool.noConfusion h
theorem tableOperationComplete : Statement (.tableOperationComplete) := fun h => Bool.noConfusion h
theorem spolBind a0 : Statement (.spolBind a0) := fun h => Bool.noConfusion h
theorem spolRead a0 : Statement (.spolRead a0) := fun h => Bool.noConfusion h
theorem spolUnbind a0 : Statement (.spolUnbind a0) := fun h => Bool.noConfusion h
theorem spolOperationComplete : Statement (.spolOperationComplete) := fun h => Bool.noConfusion h
theorem tblWrite a0 a1 a2 a3 a4 a5 a6 : Statement (.tblWrite a0 a1 a2 a3 a4 a5 a6) := fun h => Bool.noConfusion h
theorem tblRead a0 a1 a2 a3 a4 a5 : Statement (.tblRead a0 a1 a2 a3 a4 a5) := fun h => Bool.noConfusion h
theorem tblInvalidate a0 a1 a2 a3 a4 a5 : Statement (.tblInvalidate a0 a1 a2 a3 a4 a5) := fun h => Bool.noConfusion h
theorem tblMove a0 a1 a2 a3 a4 a5 a6 a7 : Statement (.tblMove a0 a1 a2 a3 a4 a5 a6 a7) := fun h => Bool.noConfusion h
theorem tblBulkWrite a0 a1 a2 a3 a4 a5 a6 a7 a8 a9 : Statement (.tblBulkWrite a0 a1 a2 a3 a4 a5 a6 a7 a8 a9) := fun h => Bool.noConfusion h
theorem tblBulkRead a0 a1 a2 a3 a4 a5 a6 : Statement (.tblBulkRead a0 a1 a2 a3 a4 a5 a6) := fun h => Bool.noConfusion h
theorem soundConfig a0 a1 a2 a3 a4 : Statement (.soundConfig a0 a1 a2 a3 a4) := fun h => Bool.noConfusion h
theorem genActivate a0 a1 a2 a3 a4 a5 : Statement (.genActivate a0 a1 a2 a3 a4 a5) := fun h => Bool.noConfusion h
theorem genStatus a0 : Statement (.genStatus a0) := fun h => Bool.noConfusion h
theorem genAbandon a0 : Statement (.genAbandon a0) := fun h => Bool.noConfusion h
theorem planLoad a0 a1 a2 a3 : Statement (.planLoad a0 a1 a2 a3) := fun h => Bool.noConfusion h
theorem portConfig a0 a1 a2 a3 : Statement (.portConfig a0 a1 a2 a3) := fun h => Bool.noConfusion h
theorem portStatus a0 a1 a2 : Statement (.portStatus a0 a1 a2) := fun h => Bool.noConfusion h
theorem portEnable a0 a1 a2 a3 : Statement (.portEnable a0 a1 a2 a3) := fun h => Bool.noConfusion h
theorem linkRetrain a0 a1 a2 : Statement (.linkRetrain a0 a1 a2) := fun h => Bool.noConfusion h
theorem discoveryRead a0 a1 a2 a3 a4 : Statement (.discoveryRead a0 a1 a2 a3 a4) := fun h => Bool.noConfusion h
theorem oeStatus a0 a1 a2 : Statement (.oeStatus a0 a1 a2) := fun h => Bool.noConfusion h
theorem oeCalibrate a0 a1 a2 a3 a4 : Statement (.oeCalibrate a0 a1 a2 a3 a4) := fun h => Bool.noConfusion h
theorem ringReseek a0 a1 a2 a3 a4 : Statement (.ringReseek a0 a1 a2 a3 a4) := fun h => Bool.noConfusion h
theorem pilotPlan a0 a1 a2 a3 : Statement (.pilotPlan a0 a1 a2 a3) := fun h => Bool.noConfusion h
theorem cswCircuit a0 a1 a2 a3 a4 : Statement (.cswCircuit a0 a1 a2 a3 a4) := fun h => Bool.noConfusion h
theorem cswStatus a0 a1 a2 : Statement (.cswStatus a0 a1 a2) := fun h => Bool.noConfusion h
theorem swlCalibrate a0 a1 a2 : Statement (.swlCalibrate a0 a1 a2) := fun h => Bool.noConfusion h
theorem swlDeskewRead a0 a1 a2 : Statement (.swlDeskewRead a0 a1 a2) := fun h => Bool.noConfusion h
theorem timeRead a0 : Statement (.timeRead a0) := fun h => Bool.noConfusion h
theorem timeAdjust a0 a1 a2 a3 a4 : Statement (.timeAdjust a0 a1 a2 a3 a4) := fun h => Bool.noConfusion h
theorem ptpConfig a0 a1 a2 a3 a4 a5 a6 a7 a8 a9 : Statement (.ptpConfig a0 a1 a2 a3 a4 a5 a6 a7 a8 a9) := fun h => Bool.noConfusion h
theorem tsQueueRead a0 a1 a2 a3 : Statement (.tsQueueRead a0 a1 a2 a3) := fun h => Bool.noConfusion h
theorem timedLaunch a0 a1 a2 a3 a4 a5 a6 a7 a8 : Statement (.timedLaunch a0 a1 a2 a3 a4 a5 a6 a7 a8) := fun h => Bool.noConfusion h
theorem tideLoad a0 a1 a2 a3 : Statement (.tideLoad a0 a1 a2 a3) := fun h => Bool.noConfusion h
theorem tideRead a0 a1 a2 a3 : Statement (.tideRead a0 a1 a2 a3) := fun h => Bool.noConfusion h
theorem tideCommit a0 a1 a2 a3 : Statement (.tideCommit a0 a1 a2 a3) := fun h => Bool.noConfusion h
theorem tideCancel a0 : Statement (.tideCancel a0) := fun h => Bool.noConfusion h
theorem groupCreate a0 a1 a2 a3 a4 a5 a6 a7 a8 : Statement (.groupCreate a0 a1 a2 a3 a4 a5 a6 a7 a8) := fun h => Bool.noConfusion h
theorem groupDestroy a0 a1 a2 : Statement (.groupDestroy a0 a1 a2) := fun h => Bool.noConfusion h
theorem groupQuery a0 a1 a2 a3 a4 : Statement (.groupQuery a0 a1 a2 a3 a4) := fun h => Bool.noConfusion h
theorem groupWeight a0 a1 a2 a3 : Statement (.groupWeight a0 a1 a2 a3) := fun h => Bool.noConfusion h
theorem ctxQuery a0 a1 a2 a3 a4 : Statement (.ctxQuery a0 a1 a2 a3 a4) := fun h => Bool.noConfusion h
theorem ctxAbort a0 a1 : Statement (.ctxAbort a0 a1) := fun h => Bool.noConfusion h
theorem memberExclude a0 a1 a2 a3 a4 a5 a6 a7 a8 : Statement (.memberExclude a0 a1 a2 a3 a4 a5 a6 a7 a8) := fun h => Bool.noConfusion h
theorem ebbRead a0 a1 a2 a3 : Statement (.ebbRead a0 a1 a2 a3) := fun h => Bool.noConfusion h
theorem triggerWrite a0 a1 a2 a3 a4 : Statement (.triggerWrite a0 a1 a2 a3 a4) := fun h => .inr ⟨_, _, _, _, _, rfl, h⟩
theorem triggerRead a0 a1 a2 a3 a4 : Statement (.triggerRead a0 a1 a2 a3 a4) := fun h => Bool.noConfusion h
theorem bwkGroupCreate a0 a1 a2 a3 a4 a5 a6 a7 : Statement (.bwkGroupCreate a0 a1 a2 a3 a4 a5 a6 a7) := fun h => Bool.noConfusion h
theorem bwkGroupDestroy a0 a1 a2 : Statement (.bwkGroupDestroy a0 a1 a2) := fun h => Bool.noConfusion h
theorem bwkQuery a0 a1 a2 a3 a4 : Statement (.bwkQuery a0 a1 a2 a3 a4) := fun h => Bool.noConfusion h
theorem partRead a0 : Statement (.partRead a0) := fun h => Bool.noConfusion h
theorem partResize a0 a1 a2 a3 : Statement (.partResize a0 a1 a2 a3) := fun h => Bool.noConfusion h
theorem memErrorRead a0 a1 a2 a3 a4 : Statement (.memErrorRead a0 a1 a2 a3 a4) := fun h => Bool.noConfusion h
theorem testRun a0 a1 a2 a3 : Statement (.testRun a0 a1 a2 a3) := fun h => Bool.noConfusion h
theorem testResult a0 a1 a2 a3 a4 : Statement (.testResult a0 a1 a2 a3 a4) := fun h => Bool.noConfusion h
theorem repairApply a0 a1 a2 a3 a4 a5 a6 : Statement (.repairApply a0 a1 a2 a3 a4 a5 a6) := fun h => Bool.noConfusion h
theorem funcReset a0 a1 a2 a3 : Statement (.funcReset a0 a1 a2 a3) := fun h => Bool.noConfusion h
theorem deviceReset a0 : Statement (.deviceReset a0) := fun h => Bool.noConfusion h
theorem resetDelayExpiry : Statement (.resetDelayExpiry) := fun h => Bool.noConfusion h
theorem powerCap a0 a1 a2 : Statement (.powerCap a0 a1 a2) := fun h => Bool.noConfusion h
theorem powerStatus a0 : Statement (.powerStatus a0) := fun h => Bool.noConfusion h
theorem telCounterRead a0 a1 a2 a3 a4 : Statement (.telCounterRead a0 a1 a2 a3 a4) := fun h => Bool.noConfusion h
theorem telCounterClear a0 a1 a2 a3 a4 : Statement (.telCounterClear a0 a1 a2 a3 a4) := fun h => Bool.noConfusion h
theorem telExportConfig a0 a1 a2 a3 a4 a5 a6 a7 a8 : Statement (.telExportConfig a0 a1 a2 a3 a4 a5 a6 a7 a8) := fun h => Bool.noConfusion h
theorem logRead a0 a1 a2 a3 a4 a5 a6 : Statement (.logRead a0 a1 a2 a3 a4 a5 a6) := fun h => Bool.noConfusion h
theorem attest a0 a1 : Statement (.attest a0 a1) := fun h => Bool.noConfusion h
theorem certRead a0 a1 a2 a3 : Statement (.certRead a0 a1 a2 a3) := fun h => Bool.noConfusion h
theorem fwUpdate a0 a1 a2 a3 : Statement (.fwUpdate a0 a1 a2 a3) := fun h => Bool.noConfusion h
theorem fwActivate a0 a1 a2 a3 : Statement (.fwActivate a0 a1 a2 a3) := fun h => Bool.noConfusion h
theorem commandComplete a0 a1 a2 : Statement (.commandComplete a0 a1 a2) := fun h => Bool.noConfusion h
theorem keepaliveExpiry a0 : Statement (.keepaliveExpiry a0) := fun h => Bool.noConfusion h
theorem handshakeTimeout a0 : Statement (.handshakeTimeout a0) := fun h => Bool.noConfusion h
theorem watchdogExpiry a0 : Statement (.watchdogExpiry a0) := fun h => Bool.noConfusion h
theorem funcResetEnd a0 : Statement (.funcResetEnd a0) := fun h => Bool.noConfusion h
theorem flitReceive a0 a1 a2 : Statement (.flitReceive a0 a1 a2) := fun h => .inl ⟨_, _, _, rfl, h⟩
theorem replayTimerExpiry a0 : Statement (.replayTimerExpiry a0) := fun h => Bool.noConfusion h
theorem ackStallTimeout a0 : Statement (.ackStallTimeout a0) := fun h => Bool.noConfusion h
theorem linkSilenceTimeout a0 : Statement (.linkSilenceTimeout a0) := fun h => Bool.noConfusion h
theorem laneSilenceTimeout a0 : Statement (.laneSilenceTimeout a0) := fun h => Bool.noConfusion h
theorem flitTransmit a0 : Statement (.flitTransmit a0) := fun h => Bool.noConfusion h
theorem ethFrameReceive a0 a1 a2 : Statement (.ethFrameReceive a0 a1 a2) := fun h => Bool.noConfusion h
theorem cellTrainReceive a0 a1 a2 : Statement (.cellTrainReceive a0 a1 a2) := fun h => Bool.noConfusion h
theorem eModeTransmitStart a0 : Statement (.eModeTransmitStart a0) := fun h => Bool.noConfusion h
theorem trainFillExpiry a0 : Statement (.trainFillExpiry a0) := fun h => Bool.noConfusion h
theorem eKeepaliveSend a0 : Statement (.eKeepaliveSend a0) := fun h => Bool.noConfusion h
theorem eModeSilenceTimeout a0 : Statement (.eModeSilenceTimeout a0) := fun h => Bool.noConfusion h
theorem laneDrop a0 a1 : Statement (.laneDrop a0 a1) := fun h => Bool.noConfusion h
theorem laneReturn a0 a1 : Statement (.laneReturn a0 a1) := fun h => Bool.noConfusion h
theorem discoverSend a0 : Statement (.discoverSend a0) := fun h => Bool.noConfusion h
theorem discoverReceive a0 a1 a2 : Statement (.discoverReceive a0 a1 a2) := fun h => Bool.noConfusion h
theorem partnerLostTimeout a0 : Statement (.partnerLostTimeout a0) := fun h => Bool.noConfusion h
theorem fibreComparisonComplete a0 : Statement (.fibreComparisonComplete a0) := fun h => Bool.noConfusion h
theorem portTrainingComplete a0 : Statement (.portTrainingComplete a0) := fun h => Bool.noConfusion h
theorem cellLookup a0 : Statement (.cellLookup a0) := fun h => Bool.noConfusion h
theorem cellAdmission a0 : Statement (.cellAdmission a0) := fun h => Bool.noConfusion h
theorem landedCellRejudge a0 : Statement (.landedCellRejudge a0) := fun h => Bool.noConfusion h
theorem generatedCellReoffer a0 : Statement (.generatedCellReoffer a0) := fun h => Bool.noConfusion h
theorem undertowReadback a0 a1 a2 : Statement (.undertowReadback a0 a1 a2) := fun h => Bool.noConfusion h
theorem headSweep a0 : Statement (.headSweep a0) := fun h => Bool.noConfusion h
theorem xbarSlot : Statement (.xbarSlot) := fun h => Bool.noConfusion h
theorem depthReport : Statement (.depthReport) := fun h => Bool.noConfusion h
theorem macAgeSweep a0 : Statement (.macAgeSweep a0) := fun h => Bool.noConfusion h
theorem soundingVisit a0 : Statement (.soundingVisit a0) := fun h => Bool.noConfusion h
theorem genActivation : Statement (.genActivation) := fun h => Bool.noConfusion h
theorem genRetire : Statement (.genRetire) := fun h => Bool.noConfusion h
theorem ptpMessageReceive a0 a1 : Statement (.ptpMessageReceive a0 a1) := fun h => Bool.noConfusion h
theorem ptpMessageSend a0 a1 : Statement (.ptpMessageSend a0 a1) := fun h => Bool.noConfusion h
theorem announceTimeout a0 : Statement (.announceTimeout a0) := fun h => Bool.noConfusion h
theorem slewEnd : Statement (.slewEnd) := fun h => Bool.noConfusion h
theorem ppsPulse : Statement (.ppsPulse) := fun h => Bool.noConfusion h
theorem ppsPulseEnd : Statement (.ppsPulseEnd) := fun h => Bool.noConfusion h
theorem timedLaunchDue a0 : Statement (.timedLaunchDue a0) := fun h => Bool.noConfusion h
theorem tideCheckEnd : Statement (.tideCheckEnd) := fun h => Bool.noConfusion h
theorem tideActivation a0 : Statement (.tideActivation a0) := fun h => Bool.noConfusion h
theorem tideWindowBoundary a0 : Statement (.tideWindowBoundary a0) := fun h => Bool.noConfusion h
theorem laneDivertStart a0 : Statement (.laneDivertStart a0) := fun h => Bool.noConfusion h
theorem causewayChange a0 : Statement (.causewayChange a0) := fun h => Bool.noConfusion h
theorem causewayChangeEnd a0 a1 : Statement (.causewayChangeEnd a0 a1) := fun h => Bool.noConfusion h
theorem laneDivertEnd a0 a1 : Statement (.laneDivertEnd a0 a1) := fun h => Bool.noConfusion h
theorem swellInstanceStart a0 a1 a2 : Statement (.swellInstanceStart a0 a1 a2) := fun h => Bool.noConfusion h
theorem swellInstanceEnd a0 a1 : Statement (.swellInstanceEnd a0 a1) := fun h => Bool.noConfusion h
theorem swlCalibrationExpiry a0 a1 : Statement (.swlCalibrationExpiry a0 a1) := fun h => Bool.noConfusion h
theorem swlCalibrateTimeout : Statement (.swlCalibrateTimeout) := fun h => Bool.noConfusion h
theorem openReceive a0 : Statement (.openReceive a0) := fun h => Bool.noConfusion h
theorem cupReceive a0 : Statement (.cupReceive a0) := fun h => Bool.noConfusion h
theorem codeReceive a0 : Statement (.codeReceive a0) := fun h => Bool.noConfusion h
theorem deltaApply a0 a1 : Statement (.deltaApply a0 a1) := fun h => Bool.noConfusion h
theorem ctxLineFetchComplete a0 a1 : Statement (.ctxLineFetchComplete a0 a1) := fun h => Bool.noConfusion h
theorem headerUnpin a0 : Statement (.headerUnpin a0) := fun h => Bool.noConfusion h
theorem paceRoundStart a0 : Statement (.paceRoundStart a0) := fun h => Bool.noConfusion h
theorem missingRound a0 a1 : Statement (.missingRound a0 a1) := fun h => Bool.noConfusion h
theorem resendReceive a0 a1 : Statement (.resendReceive a0 a1) := fun h => Bool.noConfusion h
theorem contextDeadline a0 : Statement (.contextDeadline a0) := fun h => Bool.noConfusion h
theorem lingerExpiry a0 : Statement (.lingerExpiry a0) := fun h => Bool.noConfusion h
theorem ringLockAcquire a0 a1 : Statement (.ringLockAcquire a0 a1) := fun h => Bool.noConfusion h
theorem ringLockLoss a0 : Statement (.ringLockLoss a0) := fun h => Bool.noConfusion h
theorem relockStart a0 a1 a2 : Statement (.relockStart a0 a1 a2) := fun h => Bool.noConfusion h
theorem captureTimeout a0 a1 : Statement (.captureTimeout a0 a1) := fun h => Bool.noConfusion h
theorem pilotWindowEnd a0 a1 : Statement (.pilotWindowEnd a0 a1) := fun h => Bool.noConfusion h
theorem cooldownExpiry a0 a1 : Statement (.cooldownExpiry a0 a1) := fun h => Bool.noConfusion h
theorem seekResonance a0 a1 a2 : Statement (.seekResonance a0 a1 a2) := fun h => Bool.noConfusion h
theorem seekSweepEnd a0 a1 : Statement (.seekSweepEnd a0 a1) := fun h => Bool.noConfusion h
theorem seekRetryExpiry a0 a1 : Statement (.seekRetryExpiry a0 a1) := fun h => Bool.noConfusion h
theorem feedforwardSample a0 a1 a2 : Statement (.feedforwardSample a0 a1 a2) := fun h => Bool.noConfusion h
theorem lightLossDetect a0 : Statement (.lightLossDetect a0) := fun h => Bool.noConfusion h
theorem probeBurst a0 : Statement (.probeBurst a0) := fun h => Bool.noConfusion h
theorem lightPresent a0 : Statement (.lightPresent a0) := fun h => Bool.noConfusion h
theorem openDwellExpiry a0 : Statement (.openDwellExpiry a0) := fun h => Bool.noConfusion h
theorem laserInputFail a0 a1 : Statement (.laserInputFail a0 a1) := fun h => Bool.noConfusion h
theorem laserInputGoodExpiry a0 a1 : Statement (.laserInputGoodExpiry a0 a1) := fun h => Bool.noConfusion h
theorem errorWindowEnd a0 : Statement (.errorWindowEnd a0) := fun h => Bool.noConfusion h
theorem quarantineUnitDue : Statement (.quarantineUnitDue) := fun h => Bool.noConfusion h
theorem patrolScrub a0 a1 : Statement (.patrolScrub a0 a1) := fun h => Bool.noConfusion h
theorem bridgeZeroingComplete a0 : Statement (.bridgeZeroingComplete a0) := fun h => Bool.noConfusion h
theorem shorelineCrcLimit a0 a1 : Statement (.shorelineCrcLimit a0 a1) := fun h => Bool.noConfusion h
theorem widthRecordPublish a0 : Statement (.widthRecordPublish a0) := fun h => Bool.noConfusion h
theorem widthRecordReceive a0 a1 : Statement (.widthRecordReceive a0 a1) := fun h => Bool.noConfusion h
theorem powerPeriod a0 a1 a2 a3 a4 a5 : Statement (.powerPeriod a0 a1 a2 a3 a4 a5) := fun h => Bool.noConfusion h
theorem powerReplyReceive a0 : Statement (.powerReplyReceive a0) := fun h => Bool.noConfusion h
theorem proposeReceive a0 a1 a2 : Statement (.proposeReceive a0 a1 a2) := fun h => Bool.noConfusion h
theorem proposeTimeout a0 : Statement (.proposeTimeout a0) := fun h => Bool.noConfusion h
theorem tileRatioStep a0 : Statement (.tileRatioStep a0) := fun h => Bool.noConfusion h
theorem testStaggerExpiry : Statement (.testStaggerExpiry) := fun h => Bool.noConfusion h
theorem testEnd a0 a1 a2 : Statement (.testEnd a0 a1 a2) := fun h => Bool.noConfusion h
theorem eventRaise a0 : Statement (.eventRaise a0) := fun h => Bool.noConfusion h
theorem telStageTimer : Statement (.telStageTimer) := fun h => Bool.noConfusion h
theorem coalesceWindowExpiry a0 a1 : Statement (.coalesceWindowExpiry a0 a1) := fun h => Bool.noConfusion h
theorem holdRelease : Statement (.holdRelease) := fun h => Bool.noConfusion h
theorem telStreamSend : Statement (.telStreamSend) := fun h => Bool.noConfusion h
theorem telCollectorSend a0 : Statement (.telCollectorSend a0) := fun h => Bool.noConfusion h
theorem refclkRunExpiry : Statement (.refclkRunExpiry) := fun h => Bool.noConfusion h

end Sys2Proof.Laws.Operands
end

