-- ==== Sys2Proof/Laws/Wire.lean ====
section
/-! SUPPORT. The lengths of bytes, and the checks that what is made with a CRC passes. -/

namespace Sys2Proof

namespace Machine

@[simp] theorem beBytes_length (n v : Nat) : (beBytes n v).length = n := by
  induction n with
  | zero => rfl
  | succ n ih => simp [beBytes, ih]

@[simp] theorem bvBytes_length {w : Nat} (n : Nat) (x : BitVec w) : (bvBytes n x).length = n := beBytes_length n _

@[simp] theorem gcmApply_length (key : BitVec 256) (iv bs : List Byte) : (gcmApply key iv bs).length = bs.length := by
  simp [gcmApply]

@[simp] theorem fcsOf_length (bs : List Byte) : (fcsOf bs).length = 4 := by simp [fcsOf]

/-- A frame that is sent with its FCS passes the check of R93. -/
theorem fcsGood_withFcs (bs : List Byte) : fcsGood (withFcs bs) = true := by simp [fcsGood, withFcs]

end Machine

/-- A flit that is sent with its CRC passes the check of R110. -/
@[simp] theorem Flit.sealed_crcOk (f : Flit) : f.sealed.crcOk = true := by
  simp [Flit.crcOk, Flit.sealed, Flit.body, LinkCell.body]

end Sys2Proof
end

