-- ==== Sys2Proof/Tests/Slice0.lean ====
section
/-! SUPPORT. Tests on small states. The first part takes its expected results from the spec's worked examples and
tables; the second shows, for every statement that has hypotheses, a state and operands that meet them. -/

namespace Sys2Proof.Machine

set_option Elab.async false
set_option linter.unusedVariables false
set_option linter.unusedTactic false
set_option linter.unreachableTactic false
set_option linter.unnecessarySeqFocus false

/-- The part in service, with no session open. -/
def tUp : State :=
  { State.reset with
    boot := { State.reset.boot with phase := .done }
    pins := { State.reset.pins with porLow := false } }

/-- A host's command as these tests send it: session 1, TAG 7, no flags. -/
def tIss : Issuer := ⟨1, 7, 0⟩

/-- The command of a row, as it waits. -/
def tEntry (c : Instr) : CmdEntry :=
  let r := (requestOf c).getD ⟨tIss, 0, []⟩
  ⟨r.iss.tag, r.op, 0, r.params, 0, 0, false, .queued, 0, none, [], .firmware, none⟩

/-- Session 1 open in slot 0, with commands. -/
def tWith (s : State) (cmds : List CmdEntry) : State :=
  { s with mgmt := { s.mgmt with
    slots := { Session.free with st := .active, number := 1, cmds := cmds } :: List.replicate 7 Session.free } }

/-- The same with one command that waits. -/
def tCmd (c : Instr) (s : State) : State := tWith s [tEntry c]

/-- That command waits and may start. -/
theorem tWaits (c : Instr) (s : State) (h : s.boot.phase = .done) (hr : (requestOf c).map (·.iss) = some tIss) :
    Waits (tCmd c s) c 0 (tEntry c) := by
  cases hq : requestOf c with
  | none => simp [hq] at hr
  | some r =>
    simp only [hq, Option.map_some, Option.some.injEq] at hr
    have hi : (tCmd c s).slotIx r.iss.session.toNat = some 0 := by rw [hr]; rfl
    refine ⟨h, ?_, by simp [tCmd, tWith, State.mayStart, State.turnOf, State.slot, tEntry, startable, Session.free]⟩
    simp only [hq, Option.bind_some, State.waiting, hi]
    simp [tCmd, tWith, State.slot, tEntry, hq, CmdEntry.isOf]

/-- A command of session 0, as it waits. -/
def tReq (c : Instr) : ZeroReq :=
  let r := (requestOf c).getD ⟨tIss, 0, []⟩
  ⟨r.iss.tag, r.op, 0, r.params, 0, none⟩

def tZero (c : Instr) (s : State) : State := { s with mgmt := { s.mgmt with zeroCmds := [tReq c] } }

theorem tWaitsZero (c : Instr) (s : State) (h : s.boot.phase = .done)
    (hr : (requestOf c).map (·.iss.session) = some 0) : WaitsZero (tZero c s) c (tReq c) [] := by
  cases hq : requestOf c with
  | none => simp [hq] at hr
  | some r =>
    simp only [hq, Option.map_some, Option.some.injEq] at hr
    exact ⟨h, by simp [hq, tZero, takeFirst, ZeroReq.isOf, tReq, hr]⟩

/-- A command that runs at its arrival, on a session with commands. -/
def tAt (c : Instr) (s : State) (cmds : List CmdEntry) (cache : List CachedReply) : State :=
  { s with mgmt := { s.mgmt with
    slots := { Session.free with st := .active, number := 1, cmds := cmds, arrivals := [tEntry c], cache := cache } ::
      List.replicate 7 Session.free } }

theorem tAtHand (c : Instr) (s : State) (cmds : List CmdEntry) (cache : List CachedReply) (h : s.boot.phase = .done)
    (hr : (requestOf c).map (·.iss) = some tIss) : AtHand (tAt c s cmds cache) c 0 (tEntry c) [] := by
  cases hq : requestOf c with
  | none => simp [hq] at hr
  | some r =>
    simp only [hq, Option.map_some, Option.some.injEq] at hr
    have hi : (tAt c s cmds cache).slotIx r.iss.session.toNat = some 0 := by rw [hr]; rfl
    refine ⟨h, ?_⟩
    simp only [hq, Option.bind_some, State.atHand, hi]
    simp [tAt, State.slot, tEntry, hq, CmdEntry.isOf, takeFirst]

/-- A host's frame on session 1 with no parameters, and its tag. -/
def tBare (op : BitVec 16) (seq : BitVec 64) : MgmtFrame :=
  ⟨Config.mgmtMac, 9, 0x88B6, [], 1, 0, op, 7, 1, 0, seq, 0, seq, []⟩

def tMgmt (op : BitVec 16) (seq : BitVec 64) : MgmtFrame :=
  { tBare op seq with
    body := bvBytes 16 (Config.gcmTag 0 (frameNonce (tBare op seq)) (frameHeader (tBare op seq)) []) }

theorem tVerifies (op : BitVec 16) (seq : BitVec 64) : frameVerifies 0 (tMgmt op seq) = true := by
  have h : (tMgmt op seq).body.length = 16 := bvBytes_length 16 _
  have e : ((tMgmt op seq).body.drop 0).take 16 = (tMgmt op seq).body := List.take_of_length_le (by simp [h])
  exact decide_eq_true e

/-- A sealed object with handle 5. -/
def tObj (type length : Nat) (bytes : AMap Byte) : Obj := ⟨1, type, length, bytes, true⟩

def tHas (o : Obj) (s : State) : State := { s with objs := ⟨[(5, o)], 5⟩ }

/-- The links of engine 0, tile 0's bridge side included, as they are in service. -/
def tUpLink : LinkSt := { LinkSt.init with st := .up, mask := 0xFFFF }

/-- Port 0 of width 1 on fibre 0, its lane good both ways, the partner a pod edge; the links of dies 0 and of the bridges up. -/
def tPort (layout : Nat) (st : PState) : State :=
  { tUp with
    fibres := [(0, { FibreSt.init with layout := some layout, disc := some ⟨0, 0, 1, layout, 0, 0, 0, 255, 0⟩ })]
    ports := [(0, { PortSt.init with st := st, tx := 1, rx := 1, peerTx := 1, peerRx := 1, replayLimit := 16 })]
    lanes := [(0, { LaneSt.init with txOk := true, rxOk := true })]
    opt := { tUp.opt with rings := [(128, { RingSt.init with st := .verified })] }
    d2d := ⟨[(0, tUpLink)], []⟩ }

/-- A cell of a class, with its source and outputs. -/
def tCell (cls : Nat) (src : CellSrc) (outs : List OutTarget) : QCell :=
  ⟨⟨mkHdr 0 cls 0 0 0 0 0 0 0 0 0 0, 0⟩, src, 0, 0, 1000, outs, false, none, 0, 0, true, 0, none, false, 0, 0⟩

/-- A second cell of an ordinary frame. -/
def tSeg : QCell := { tCell 6 (.cMode 0) [] with cell := ⟨mkHdr 0 6 0 0 0 0 0 1 0 0 0 0, 0⟩ }

theorem tPair {α β : Type} {x : α × β} {a : α} (h : x.1 = a) : x = (a, x.2) := by subst h; rfl

/-- A flit of a link type, with a CRC of 0. -/
def tFlit (type : Byte) : Flit :=
  ⟨List.replicate 15 ⟨0, 0⟩, ⟨0, 0, type, 1, 1, 0, 0, List.replicate 8 0, 0, 0, 0⟩⟩

/-- The part with a tide table of one window active on port 0. -/
def tTide (w : Window) : State := { tPort 128 .up with tide := { tUp.tide with active := [(0, ⟨0, 10, [w]⟩)] } }

/-- A Swell window on wavelength 0. -/
def tSwell : Window := ⟨0, 1024, 0, false, true, 256, 0, 0⟩

def tCommit (c : Commit) (set : List TidePort) : State :=
  { tPort 0 .up with tide := { tUp.tide with commit := some c, staged := some set } }

def tSlots (xs : List Session) : State := { tUp with mgmt := { tUp.mgmt with slots := xs } }

def tGroup : Group := ⟨16, 0, 4, 1, [5], none, 0, [], [], []⟩

def tGroups : State := { tUp with est := { tUp.est with groups := [(3, tGroup)] } }

def tCoding : Coding := ⟨2, 0, 3, 1, [5, 6], 9, none, [], [], false⟩

def tCodings : State := { tUp with bwk := { tUp.bwk with groups := [(3, tCoding)] } }

def tLink (l : Nat) (x : LinkSt) (s : State) : State := { s with d2d := ⟨[(l, x)], []⟩ }

/-- A CTRL cell for a slice. -/
def tCtrl (aux : Nat) : QCell :=
  ⟨⟨mkHdr 0 7 0 0 0 0 0 0 0 0 0 aux, 0⟩, .generated, 0, 0, 1000, [.slice 0], false, none, 0, 0, true, 0, none, false, 0, 0⟩

def tEvent : LogEvent := ⟨1, 0, 0, 0, 3, 0, 0, 0, 0, 1, [], false⟩

def tLog : State := { tWith tUp [] with tel := { tUp.tel with
  nextSeq := 2, log := [tEvent], stream := ⟨true, 0, 10, 1, 0, 1, 0⟩ } }

def tMsg (kind : PtpKind) (twoStep : Bool) : PtpMsg := ⟨kind, 0, 44, twoStep, 0, 0, 0, 0, 0, 0, ⟨0, 0, 0, 0, 0, 0, 0⟩, 0, 0⟩

/-- Port 0 a PTP source, selected. -/
def tSource : State :=
  { tPort 0 .up with
    plan := some ⟨0, 0, 0, [], [0], [], []⟩
    ptp := { tUp.ptp with selected := some (0, 0) } }

def tTest (started : Bool) : TestRun := ⟨1, 0, 1, false, 5, started⟩

def tTesting (started : Bool) : State :=
  { tUp with bist := { tUp.bist with running := [some (tTest started), none] } }

/-- The lasers of engine 0 on. -/
def tOe : State := tUp.setOe 0 fun x => { x with laserA := true, laserB := true }

def tRing (f : RingSt → RingSt) : State := tOe.setRing 0 0 f

def tFrame (type : BitVec 16) (good : Bool) : EthFrame := ⟨0, 0, none, type, List.replicate 46 0, good⟩

def tTrain : Train := ⟨0, 0, 1, 1, [⟨0, 0⟩], true⟩

/-- A context in a state. -/
def tCtx (st : CtxState) : Ctx :=
  { st := st, reason := 0, failOff := 0, coding := false, group := 0, m := 1, span := 1, desc := 0, openedAt := 0,
    deadline := 1000, endedAt := 0, lingerEnd := 0, deadlinePtp := 0, incarnation := 0, base := 0, members := [], chunks := [],
    cplt := [], handing := [], workedAt := none, excludedAny := false, flagRec := 0, lastMember := none, lateness := 0, dups := 0, ahead := 0,
    excl := 0, fmtDrops := 0, lacks := 0, resent := 0, gone := 0, rounds := 1, matrix := [], rem_ := [], matrixAt := none,
    current := none, nextRound := none, ended := 0, paced := [], claims := [], staging := none, lostCols := [], lost := [] }

def tWithCtx (c : Ctx) : State := { tUp with est := { tUp.est with ctxs := [(0, c)] } }

/-- Tile 0 attached to the crossbar. -/
def tTile (g : TileSt → TileSt) : State := { tUp with xbar := { tUp.xbar with live := 1 } }.setTile 0 g

/-- The same with no room. -/
def tFull (q : QCell) : State :=
  tTile fun x => { x with pktMib := 0, pool := 0, reserves := List.replicate 8 0, looked := [q] }

/-- A pilot window in which one tone, or none, stands out. -/
def tDepths (tone : Option Nat) : PilotWindow := ⟨(List.range 8).map fun t => if tone = some t then 1000 else 0⟩

/-- The clock as TIME_ADJUST leaves it before its correction. -/
def tHost (s : State) : State := { s with time := { s.time with clock := .host, base := 0 } }

/-- The quarantine budget spent. -/
def tSpent (s : State) : State := { s with tel := { s.tel with tokens := 0, unitFrom := 10000000000, unitNo := 1 } }

/-- The bridges' links up. -/
def tBridges (s : State) : State := { s with d2d := ⟨[(16, tUpLink), (17, tUpLink), (18, tUpLink), (19, tUpLink)], []⟩ }

/-- A queue with a cell in Undertow, and room there. -/
def tSpill (k : Nat) : State :=
  ([0, 1, 2, 3].foldl (fun s b => s.setBrg b fun x => { x with ready := true })
    (tBridges { tUp with xbar := { tUp.xbar with live := 1 } })).setUnder k [tCell 0 .generated []]

/-- Words of group 0 whose CRC does not agree. -/
def tBadWords : List ShoreWord := List.replicate 256 ⟨0, 0, 0, Config.shoreCrc 0 ^^^ 1⟩

theorem tBadAll : (tBadWords.filter fun w => decide (w.crc ≠ Config.shoreCrc w.data)) = tBadWords := by
  have h (x : BitVec 16) : x ^^^ 1 ≠ x := fun e => by simpa using congrArg (fun y => y ^^^ x) e
  exact List.filter_eq_self.mpr fun w hw => by rw [List.eq_of_mem_replicate hw]; exact decide_eq_true (h _)

theorem tBadGroup : (tBadWords.filter fun w => decide (w.group = 0)) = tBadWords :=
  List.filter_eq_self.mpr fun w hw => by rw [List.eq_of_mem_replicate hw]; rfl

theorem test_reset_queue : State.reset.pending = [] := by rfl

/-! ## Arithmetic: the worked examples of 10_estuary_arithmetic.md -/

/-- The first word and the flags of a chunk whose element `i` takes these contributions, in this order. -/
def tReduce (arith ctx i : Nat) (xs : List Nat) : Nat × Nat :=
  let n := fmtElems (arIn arith)
  let w := fmtBits (arIn arith)
  let es := xs.foldl (init := []) fun es x =>
    addContribution arith n 0 (BitVec.ofNat 512 (x * 2 ^ (w * (n - 1 - i)))) 0 es
  let r := chunkResults arith n ctx 0 xs.length es
  (elemOf (arOut arith) (r.1.getD 0 (0, 0)).1 i, r.2)

/-- The order of the contributions does not matter. -/
theorem test_fp32_sum_is_exact :
    tReduce 0 0 0 [0x4B800000, 0x3F800000, 0xCB800000] = (0x3F800000, 0) ∧
    tReduce 0 0 0 [0x4B800000, 0xCB800000, 0x3F800000] = (0x3F800000, 0) := by decide +kernel

theorem test_fp16_special_values :
    tReduce 2304 0 0 [0x3C00, 0x7C01, 0x4000] = (0x7E00, 32) ∧
    tReduce 2304 0 0 [0x7C00, 0xFC00, 0x3C00] = (0x7E00, 32) ∧
    tReduce 2304 0 0 [0x7C00, 0x7BFF, 0x7BFF] = (0x7C00, 16) ∧
    (tReduce 2304 0 0 [0x8000, 0x8000, 0x8000]).1 = 0x8000 ∧
    (tReduce 2304 0 0 [0x8000, 0]).1 = 0 ∧
    (tReduce 2304 0 0 [0x3C00, 0xBC00]).1 = 0 ∧
    tReduce 2304 0 0 [1, 1, 1] = (3, 0) := by decide +kernel

theorem test_fp16_overflow :
    tReduce 2304 0 0 [0x7BFF, 0x7BFF] = (0x7C00, 10) ∧
    tReduce 2336 0 0 [0x7BFF, 0x7BFF] = (0x7BFF, 10) := by decide +kernel

theorem test_e4m3_overflow :
    tReduce 3456 0 0 [0x78, 0x77] = (0x7E, 14) ∧
    (tReduce 3472 0 0 [0x78, 0x77]).1 = 0x7F ∧
    tReduce 3456 0 0 [0x78, 0x75] = (0x7E, 2) := by decide +kernel

theorem test_bf16_dithered :
    tReduce 1216 5 3 [0x3F00, 0x3F00, 0x3B00] = (0x3F81, 2) ∧
    tReduce 1152 5 3 [0x3F00, 0x3F00, 0x3B00] = (0x3F80, 2) := by decide +kernel

theorem test_int8_average :
    tReduce 16256 0 0 [5, 6, 6] = (6, 2) ∧ tReduce 16288 0 0 [5, 6, 6] = (5, 2) ∧
    tReduce 16256 0 0 [251, 250, 250] = (250, 2) ∧ tReduce 16288 0 0 [251, 250, 250] = (251, 2) := by decide +kernel

/-- Two blocks of MXFP4: the result's scale is in AUX. -/
theorem test_mxfp4_sum :
    (let es := addContribution 5760 32 0 (mkPay [0x73, 0x90]) 0x7F000000 []
     let r := chunkResults 5760 32 0 0 2 (addContribution 5760 32 0 (mkPay [0x51, 0x20]) 0x80000000 es)
     (r.1.map fun c => (c.1, c.2 / 2 ^ 24), r.2)) = ([(mkPay [0x72, 0x20], 0x80)], 2) := by decide +kernel

/-! ## Breakwater: the worked example of 13_breakwater.md -/

theorem test_field_products : gfMulBits 2 0x34 = 0x68 ∧ gfMulBits (gfPow 2) 0x56 = 0x45 := by decide +kernel

theorem test_rebuild_two :
    (gfRebuild [0, 2] (mkPay [0x44]) (mkPay [0x57])).map (fun v => v.toNat / 256 ^ 63) = [0x12, 0x56] := by decide +kernel

/-! ## The cell's header and the register map -/

theorem test_header : mkHdr 1 0 137 412 17 5 3 0x0102 0 64 1 0 = 0x84499C08805000018081008100000000 := by decide +kernel

theorem test_register_addresses :
    regAddr .tileVoqDepth [9, 326] = 0x49000D18 ∧ regAddr .oeFibre [9, 6] = 0x89000118 ∧
    regAddr .tblStaleEpoch [2] = 0x0600018C ∧ regAddr .d2dLink [17] = 0x10000044 ∧
    regAddr .tilePortStatus [15, 0] = 0x4F001080 := by decide +kernel

theorem test_addresses_read_back :
    locate 0x49000D18 = some (.tileVoqDepth, [9, 326]) ∧ locate 0x89000118 = some (.oeFibre, [9, 6]) ∧
    locate 0x10000044 = some (.d2dLink, [17]) := by decide +kernel

/-- The shared pool of a tile at reset (05_buffers.md). -/
theorem test_pool_at_reset : State.reset.freeF 15 = 175206 := by decide +kernel

/-! ## Tides: the worked example of 09_time_and_tide.md -/

theorem test_window_capacity :
    capacity true 8 ⟨0, 2048, 1, false, false, 0, 0, 0⟩ = 4560 ∧
    capacity true 8 ⟨0, 2048, 0x81, false, false, 0, 0, 0⟩ = 4256 := by decide +kernel

/-- The four ports of the example, each with one window. -/
def tLoads (bytes : Nat) : List Placed :=
  [480, 488, 496, 504].map fun l => (⟨l, 14, [⟨0, 2048, 1, false, false, 0, bytes, 0⟩]⟩, true)

theorem test_destination_load :
    worst (loadFails (tLoads 360000) 15) = some (0, 5) ∧ loadFails (tLoads 288000) 15 = [] := by decide +kernel

/-! ## The boot record: the worked example of 18_security.md -/

/-- Slot A good at SVN 6, slot B at SVN 7, after FW_ACTIVATE of B with TRIAL. -/
def tTrial : State :=
  { State.reset with nvm := { State.reset.nvm with
    copy0 := recordBytes ⟨90, false, 0xFF, 5120⟩, copy1 := recordBytes ⟨91, false, 1, 5120⟩, fusedSvn := 6,
    slotA := { State.reset.nvm.slotA with svn := 6 }, slotB := { State.reset.nvm.slotA with svn := 7 } } }

theorem test_trial_boots_once :
    parseRecord (tTrial.bootRom true).nvm.copy0 = some ⟨92, false, 0xFF, 5121⟩ ∧
    (tTrial.bootRom true).boot.runningSlot = true ∧ (tTrial.bootRom true).boot.incarnation = 5121 ∧
    parseRecord ((tTrial.bootRom true).bootRom true).nvm.copy1 = some ⟨93, false, 0xFF, 5122⟩ ∧
    ((tTrial.bootRom true).bootRom true).boot.runningSlot = false := by decide +kernel

/-! ## Ill-formed commands are refused -/

theorem test_flit_of_few_slots_is_refused :
    exec (.flitReceive 0 { tFlit 0 with slots := [] } true) tUp = .fault (.illFormed "flit") := by rfl

theorem test_flit_of_few_credits_is_refused :
    exec (.flitReceive 0 { tFlit 0 with link := { (tFlit 0).link with credit := [] } } true) tUp =
      .fault (.illFormed "flit") := by rfl

/-- Each check of `Instr.wf` refuses a term. -/
theorem test_ill_formed :
    Instr.wf (.flitReceive 0 { tFlit 0 with slots := [] } true) = false ∧
    Instr.wf (.flitReceive 0 { tFlit 0 with link := { (tFlit 0).link with credit := [] } } true) = false ∧
    Instr.wf (.flitReceive 0 (tFlit 0) true) = true ∧
    Instr.wf (.triggerWrite tIss 1 0 1 [.counter 1 0 2]) = false ∧
    Instr.wf (.triggerWrite tIss 0 0 1 [.counter 1 0 2]) = true := by decide +kernel

/-- The items of TRIGGER_WRITE must be of its KIND. -/
theorem test_trigger_items :
    TrigItem.fits 0 (.counter 1 0 2) = true ∧ TrigItem.fits 1 (.counter 1 0 2) = false ∧
    TrigItem.fits 1 (.entry 1 0 0 1 2 0) = true ∧ TrigItem.fits 2 (.entry 1 0 0 1 2 0) = false ∧
    TrigItem.fits 2 (.invalidate 1) = true ∧ TrigItem.fits 0 (.invalidate 1) = false := by decide +kernel

/-! ## Every statement's hypotheses are met somewhere -/

theorem test_meets_StepRunsFront :
  (∃ (s : State), s.pending = [] ∧ s.boot.phase ≠ .reset ∧ s.pins.refStopped = false) ∧
  (∃ (s : State), s.pending = [] ∧ (s.boot.phase = .reset ∨ s.pins.refStopped = true)) :=
  ⟨⟨tUp,
    by and_intros <;> decide +kernel⟩,
   ⟨State.reset,
    by and_intros <;> decide +kernel⟩⟩

theorem test_meets_EveryCommandAnswers :
  (∃ (c : Instr) (s : State), c.wf = true) ∧
  (∃ (l : Lane) (f : Flit) (good : Bool) (s : State), f.wf = false) :=
  ⟨⟨.refclkStop, tUp,
    by decide +kernel⟩,
   ⟨0, { tFlit 0 with slots := [] }, true, tUp,
    by decide +kernel⟩⟩

theorem test_meets_ResetPinsComplete :
  (∃ (s : State) (d : Die) (temp : BitVec 16), s.boot.phase ≠ .reset ∧ (if d.val = 0 then 1840 else if d.val = 1 then
    1760 else 1680) ≤ temp.toInt) ∧
  (∃ (s : State) (i : JtagInstr), s.boot.phase ≠ .reset ∧ i ≠ .other ∧ i ≠ .extest ∧ s.pins.jtag ≠ .extest) ∧
  (∃ (s : State) (i : JtagInstr), s.pins.jtag ≠ .extest) ∧
  (∃ (s : State), s.boot.phase ≠ .reset ∧ s.pins.jtag ≠ .extest) ∧
  (∃ (s : State) (low : Bool), s.pins.jtag = .extest ∧ s.pins.free = true) :=
  ⟨⟨tUp, 21, 1680,
    by and_intros <;> decide +kernel⟩,
   ⟨tUp, .bypass,
    by and_intros <;> decide +kernel⟩,
   ⟨tUp, .bypass,
    by decide +kernel⟩,
   ⟨tUp,
    by and_intros <;> decide +kernel⟩,
   ⟨{ tUp with pins := { tUp.pins with jtag := .extest } }, false,
    by and_intros <;> decide +kernel⟩⟩

theorem test_meets_ResetReleaseStartsBoot :
  (∃ (s : State) (skip : Bool), s.pins.porLow = true ∧ s.pins.sysLow = false ∧ s.pins.tripped = false ∧ s.pins.railBad
    = false ∧ s.pins.refStopped = false ∧ s.boot.phase = .reset) ∧
  (∃ (s : State) (skip : Bool), s.pins.sysLow = true ∧ s.pins.porLow = false ∧ s.pins.tripped = false ∧ s.pins.railBad
    = false ∧ s.pins.refStopped = false ∧ s.boot.phase = .reset) ∧
  (∃ (s : State), s.pins.railBad = true ∧ s.pins.porLow = false ∧ s.pins.sysLow = false ∧ s.pins.tripped = false ∧
    s.pins.refStopped = false ∧ s.boot.phase = .reset) ∧
  (∃ (s : State), s.pins.refStopped = true ∧ s.pins.porLow = false ∧ s.pins.sysLow = false ∧ s.pins.tripped = false ∧
    s.pins.railBad = false ∧ s.boot.phase = .reset) :=
  ⟨⟨State.reset, true,
    by and_intros <;> decide +kernel⟩,
   ⟨{ State.reset with pins := { State.reset.pins with porLow := false, sysLow := true } }, true,
    by and_intros <;> decide +kernel⟩,
   ⟨{ State.reset with pins := { State.reset.pins with porLow := false, railBad := true } },
    by and_intros <;> decide +kernel⟩,
   ⟨{ State.reset with pins := { State.reset.pins with porLow := false, refStopped := true } },
    by and_intros <;> decide +kernel⟩⟩

theorem test_meets_BootStepsComplete :
  (∃ (s : State) (rep : BootReport) (which : Bool) (g : BootRecord), s.boot.phase = .step 2 ∧ rep.recordWriteOk = true
    ∧ s.nvm.governing = some (which, g) ∧ g.boots < 2 ^ 32 - 1) ∧
  (∃ (s : State) (rep : BootReport), s.boot.phase = .step 1) ∧
  (∃ (s : State) (rep : BootReport), s.boot.phase = .step 3 ∧ coreFault rep.records = false) ∧
  (∃ (s : State) (rep : BootReport), s.boot.phase = .step 4 ∧ s.boot.bistSkipped = true) ∧
  (∃ (s : State) (rep : BootReport), s.boot.phase = .step 5) ∧
  (∃ (s : State) (rep : BootReport), s.boot.phase = .step 6) ∧
  (∃ (s : State) (rep : BootReport) (n : Nat), s.boot.phase = .step 7 ∧ n < 4 ∧ (s.fn (fidCmd n)).failed = false ∧ (∀
    m < n, (s.fn (fidCmd m)).failed = true)) :=
  ⟨⟨{ tUp with boot := { tUp.boot with phase := .step 2, bistSkipped := true } }, ⟨0, [], [], [], [], [], true⟩,
    false, ⟨1, false, 0xFF, 0⟩,
    by and_intros <;> decide +kernel⟩,
   ⟨{ tUp with boot := { tUp.boot with phase := .step 1, bistSkipped := true } }, ⟨0, [], [], [], [], [], true⟩,
    by decide +kernel⟩,
   ⟨{ tUp with boot := { tUp.boot with phase := .step 3, bistSkipped := true } }, ⟨0, [], [], [], [], [], true⟩,
    by and_intros <;> decide +kernel⟩,
   ⟨{ tUp with boot := { tUp.boot with phase := .step 4, bistSkipped := true } }, ⟨0, [], [], [], [], [], true⟩,
    by and_intros <;> decide +kernel⟩,
   ⟨{ tUp with boot := { tUp.boot with phase := .step 5, bistSkipped := true } }, ⟨0, [], [], [], [], [], true⟩,
    by decide +kernel⟩,
   ⟨{ tUp with boot := { tUp.boot with phase := .step 6, bistSkipped := true } }, ⟨0, [], [], [], [], [], true⟩,
    by decide +kernel⟩,
   ⟨{ tUp with boot := { tUp.boot with phase := .step 7 }, fns := [(0x700, { FnState.up with failed := true })] }, ⟨0,
    [], [], [], [], [], true⟩, 1,
    by and_intros <;> decide +kernel⟩⟩

theorem test_meets_FrameReceiveCompletes :
  (∃ (s : State) (f : MgmtFrame) (i : Nat), s.boot.phase = .done ∧ frameForUs s f = true ∧ f.version = 1 ∧ f.session ≠
    0 ∧ s.slotIx f.session.toNat = some i ∧ 16 + f.plen.toNat ≤ f.body.length ∧ frameVerifies (s.slot i).hostKey f =
    true ∧ f.nonceSalt = (s.slot i).hostSalt ∧ f.nonceSeq = f.seq ∧ seqFresh (s.slot i) f.seq.toNat = true ∧
    f.seq.toNat ≠ 2 ^ 64 - 1 ∧ opAtArrival f.opcode.toNat = false ∧
    (let params := gcmApply (s.slot i).hostKey (frameNonce f) (f.body.take f.plen.toNat); judge (s.slot i)
      f.opcode.toNat params f.flags f.tag = .accept)) ∧
  (∃ (s : State) (f : MgmtFrame) (i : Nat), s.boot.phase = .done ∧ frameForUs s f = true ∧ f.version = 1 ∧ f.session ≠
    0 ∧ s.slotIx f.session.toNat = some i ∧ 16 + f.plen.toNat ≤ f.body.length ∧ frameVerifies (s.slot i).hostKey f =
    true ∧ (s.slot i).txSeq + 1 < 2 ^ 64 - 1 ∧ (f.nonceSalt ≠ (s.slot i).hostSalt ∨ f.nonceSeq ≠ f.seq ∨ seqFresh
    (s.slot i) f.seq.toNat = false)) :=
  ⟨⟨tWith tUp [], tMgmt 6 1, 0,
    by dsimp only; and_intros <;> first | exact tVerifies _ _ | decide +kernel | (simp [frameForUs, frameLen, tMgmt, tBare]; done) | (simp [frameForUs, frameLen, tMgmt, tBare]; decide +kernel)⟩,
   ⟨tWith tUp [], tMgmt 6 0, 0,
    by and_intros <;> first | exact tVerifies _ _ | decide +kernel | (simp [frameForUs, frameLen, tMgmt, tBare]; done) | (simp [frameForUs, frameLen, tMgmt, tBare]; decide +kernel)⟩⟩

theorem test_meets_ReplayWindowExact : ∃ (qs : List Nat) (q : Nat), (∀ p ∈ qs, p < 2 ^ 64) :=
  ⟨[1, 64], 0,
    by decide +kernel⟩

theorem test_meets_NewSessionChoice :
  (∃ (s : State) (n : Nat) (m : _), s.chooseEngine = some n ∧ m < 4 ∧ s.fnDown (fidCmd m) = false ∧ m < n) ∧
  (∃ (s : State), s.chooseEngine = none) ∧
  (∃ (used : List Nat) (last : Nat), used.length ≤ 8 ∧ last ≤ 0xFFFE) :=
  ⟨⟨{ tUp with mgmt := { tUp.mgmt with slots := [{ Session.free with st := .active, engine := 0 }] } }, 1, 0,
    by and_intros <;> decide +kernel⟩,
   ⟨{ tUp with fns := [(0x700, ⟨true, false, false, false⟩), (0x701, ⟨true, false, false, false⟩), (0x702, ⟨true,
    false, false, false⟩), (0x703, ⟨true, false, false, false⟩)] },
    by decide +kernel⟩,
   ⟨[1, 2, 3, 4, 5, 6, 7, 8], 0,
    by and_intros <;> decide +kernel⟩⟩

theorem test_meets_HandshakeCompletes :
  (∃ (s : State) (iss : Issuer) (x : BitVec 256) (k : BitVec 9472) (nonce : BitVec 256) (n i : Nat) (z : ZeroReq)
    (rest : List ZeroReq), WaitsZero s (.sessionOpen iss x k nonce) z rest ∧ s.chooseEngine = some n ∧ s.freeSlot =
    some i) ∧
  (∃ (s : State) (iss : Issuer) (session : BitVec 16) (ed : BitVec 256) (ml : BitVec 15616) (sig : BitVec 512) (msig :
    BitVec 26472) (i : Nat) (z : ZeroReq) (rest : List ZeroReq), WaitsZero s (.sessionFinish iss session 0 ed ml sig
    msig) z rest ∧ (s.mgmt.slots.findIdx? (fun y => decide (y.st = .handshake ∧ y.number = session.toNat)) = some i)) ∧
  (∃ (s : State) (slot : Fin 8), (s.slot slot).st = .handshake) :=
  ⟨⟨tZero (.sessionOpen ⟨0, 7, 0⟩ 0 0 0) tUp, ⟨0, 7, 0⟩, 0, 0, 0, 0, 0, tReq (.sessionOpen ⟨0, 7, 0⟩ 0 0 0), [],
    by and_intros <;> first | exact tWaitsZero _ _ rfl rfl | decide +kernel⟩,
   ⟨tZero (.sessionFinish ⟨0, 7, 0⟩ 3 0 0 0 0 0) { tUp with mgmt := { tUp.mgmt with slots := [{ Session.free with
    st := .handshake, number := 3 }] } }, ⟨0, 7, 0⟩, 3, 0, 0, 0, 0, 0, tReq (.sessionFinish ⟨0, 7, 0⟩ 3 0 0 0 0 0),
    [],
    by and_intros <;> first | exact tWaitsZero _ _ rfl rfl | decide +kernel | rfl⟩,
   ⟨{ tUp with mgmt := { tUp.mgmt with slots := [{ Session.free with st := .handshake, number := 3 }] } }, 0,
    by decide +kernel⟩⟩

theorem test_meets_SessionCommandsComplete :
  (∃ (s : State) (iss : Issuer) (tag : BitVec 32) (i : Nat) (e : CmdEntry) (rest : List CmdEntry) (o : _), AtHand s
    (.cmdPoll iss tag) i e rest ∧ (s.slot i).cmds.find? (fun o => decide (o.tag = tag)) = some o) ∧
  (∃ (s : State) (iss : Issuer) (tag : BitVec 32) (i : Nat) (e : CmdEntry) (rest : List CmdEntry) (c : _), AtHand s
    (.cmdPoll iss tag) i e rest ∧ (s.slot i).cmds.find? (fun o => decide (o.tag = tag)) = none ∧ (s.slot
    i).cache.find? (fun c => decide (c.tag = tag)) = some c) ∧
  (∃ (s : State) (iss : Issuer) (tag : BitVec 32) (i : Nat) (e : CmdEntry) (rest : List CmdEntry), AtHand s (.cmdPoll
    iss tag) i e rest ∧ (s.slot i).cmds.find? (fun o => decide (o.tag = tag)) = none ∧ (s.slot i).cache.find? (fun c
    => decide (c.tag = tag)) = none) ∧
  (∃ (s : State) (iss : Issuer) (tag : BitVec 32) (i : Nat) (e o : CmdEntry) (rest : List CmdEntry), AtHand s
    (.cmdCancel iss tag) i e rest ∧ (s.slot i).cmds.find? (fun o => decide (o.tag = tag)) = some o ∧ o.phase =
    .queued) ∧
  (∃ (s : State) (iss : Issuer) (tag : BitVec 32) (i : Nat) (e o : CmdEntry) (rest : List CmdEntry), AtHand s
    (.cmdCancel iss tag) i e rest ∧ (s.slot i).cmds.find? (fun o => decide (o.tag = tag)) = some o ∧ o.phase ≠
    .queued) ∧
  (∃ (s : State) (iss : Issuer) (i : Nat) (e : CmdEntry) (params : List Byte), Waits s (.nop iss params) i e) ∧
  (∃ (s : State) (iss : Issuer) (i : Nat) (e : CmdEntry), Waits s (.devIdentify iss) i e ∧ iss.session ≠ 0) ∧
  (∃ (s : State) (iss : Issuer) (z : ZeroReq) (rest : List ZeroReq), WaitsZero s (.devIdentify iss) z rest) ∧
  (∃ (s : State) (iss : Issuer) (i : Nat) (e : CmdEntry), Waits s (.sessionList iss) i e) ∧
  (∃ (s : State) (iss : Issuer) (i : Nat) (e : CmdEntry), Waits s (.sessionClose iss) i e) ∧
  (∃ (s : State) (slot : Fin 8), (s.slot slot).st = .active) ∧
  (∃ (s : State) (i why : Nat), (s.slot i).st = .active) :=
  ⟨⟨tAt (.cmdPoll tIss 7) tUp [tEntry (.nop tIss [])] [], tIss, 7, 0, tEntry (.cmdPoll tIss 7), [], tEntry (.nop tIss
    []),
    by and_intros <;> first | exact tAtHand _ _ _ _ rfl rfl | decide +kernel⟩,
   ⟨tAt (.cmdPoll tIss 9) tUp [] [⟨9, 6, 0, ⟨0, 0, []⟩⟩], tIss, 9, 0, tEntry (.cmdPoll tIss 9), [], ⟨9, 6, 0, ⟨0, 0,
    []⟩⟩,
    by and_intros <;> first | exact tAtHand _ _ _ _ rfl rfl | decide +kernel⟩,
   ⟨tAt (.cmdPoll tIss 9) tUp [] [], tIss, 9, 0, tEntry (.cmdPoll tIss 9), [],
    by and_intros <;> first | exact tAtHand _ _ _ _ rfl rfl | decide +kernel⟩,
   ⟨tAt (.cmdCancel tIss 7) tUp [tEntry (.nop tIss [])] [], tIss, 7, 0, tEntry (.cmdCancel tIss 7), tEntry (.nop tIss
    []), [],
    by and_intros <;> first | exact tAtHand _ _ _ _ rfl rfl | decide +kernel⟩,
   ⟨tAt (.cmdCancel tIss 7) tUp [{ tEntry (.nop tIss []) with phase := .pending }] [], tIss, 7, 0, tEntry (.cmdCancel
    tIss 7), { tEntry (.nop tIss []) with phase := .pending }, [],
    by and_intros <;> first | exact tAtHand _ _ _ _ rfl rfl | decide +kernel⟩,
   ⟨tCmd (.nop tIss [1, 2]) tUp, tIss, 0, tEntry (.nop tIss [1, 2]), [1, 2],
    by first | exact tWaits _ _ rfl rfl | decide +kernel⟩,
   ⟨tCmd (.devIdentify tIss) tUp, tIss, 0, tEntry (.devIdentify tIss),
    by and_intros <;> first | exact tWaits _ _ rfl rfl | decide +kernel⟩,
   ⟨tZero (.devIdentify ⟨0, 7, 0⟩) tUp, ⟨0, 7, 0⟩, tReq (.devIdentify ⟨0, 7, 0⟩), [],
    by first | exact tWaitsZero _ _ rfl rfl | decide +kernel⟩,
   ⟨tCmd (.sessionList tIss) tUp, tIss, 0, tEntry (.sessionList tIss),
    by first | exact tWaits _ _ rfl rfl | decide +kernel⟩,
   ⟨tCmd (.sessionClose tIss) tUp, tIss, 0, tEntry (.sessionClose tIss),
    by first | exact tWaits _ _ rfl rfl | decide +kernel⟩,
   ⟨tWith tUp [], 0,
    by decide +kernel⟩,
   ⟨tWith tUp [], 0, 2,
    by decide +kernel⟩⟩

theorem test_meets_EndOfCommandFrame :
  (∃ (s : State) (i : Nat) (e : CmdEntry) (st det : Nat) (res : List Byte), i < s.mgmt.slots.length ∧ e.last = false ∧
    (s.slot i).txSeq + 1 < 2 ^ 64 - 1 ∧ st ≠ stBusy ∧ (flagQuiet e.flags = true ∧ (st = stOk ∨ st = stPending))) ∧
  (∃ (s : State) (i : Nat) (e : CmdEntry) (st det : Nat) (res : List Byte), i < s.mgmt.slots.length ∧ e.last = false ∧
    (s.slot i).txSeq + 1 < 2 ^ 64 - 1 ∧ st ≠ stBusy ∧ flagQuiet e.flags = false ∧ s.pins.jtag ≠ .extest) :=
  ⟨⟨tCmd (.nop tIss []) tUp, 0, { tEntry (.nop tIss []) with flags := 2 }, 0, 0, [],
    by and_intros <;> decide +kernel⟩,
   ⟨tCmd (.nop tIss []) tUp, 0, tEntry (.nop tIss []), 0, 0, [],
    by and_intros <;> decide +kernel⟩⟩

theorem test_meets_CompletionDelivered :
  (∃ (s : State) (session : BitVec 16) (tag : BitVec 32) (fw : FwEnd) (i : Nat) (e : CmdEntry) (f : Final), s.slotHeld
    session.toNat = some i ∧ ((s.slot i).cmds.find? (fun e => decide (e.tag = tag ∧ e.phase = .pending)) = some e) ∧
    e.finished = some f) ∧
  (∃ (s : State) (session : BitVec 16) (tag : BitVec 32) (i : Nat) (e : CmdEntry) (f : Final) (t : State), s.slotHeld
    session.toNat = some i ∧ ((s.slot i).cmds.find? (fun e => decide (e.tag = tag ∧ e.phase = .pending)) = some e) ∧
    e.finished = none ∧ s.firmwareEnd e.job ⟨[], [], [], []⟩ = some (f, t)) ∧
  (∃ (s : State) (session : BitVec 16) (tag : BitVec 32) (r : CalReport) (i : Nat) (e : CmdEntry) (f : Final) (t :
    State), s.slotHeld session.toNat = some i ∧ ((s.slot i).cmds.find? (fun e => decide (e.tag = tag ∧ e.phase =
    .pending)) = some e) ∧ e.finished = none ∧ s.firmwareEnd e.job r = some (f, t)) ∧
  (∃ (s : State) (session : BitVec 16) (tag : BitVec 32) (code : BitVec 16) (applied : BitVec 32) (i : Nat) (e :
    CmdEntry), s.slotHeld session.toNat = some i ∧ ((s.slot i).cmds.find? (fun e => decide (e.tag = tag ∧ e.phase =
    .pending)) = some e) ∧ e.finished = none ∧ e.job.byFirmware = true) ∧
  (∃ (s : State) (i : Nat) (e : CmdEntry) (job : Job) (f : Final), (s.slot i).cmds = [e] ∧ e.phase = .running ∧ e.job
    = job ∧ (s.slot i).st = .active ∧ i < s.mgmt.slots.length ∧ (∀ j ≠ i, (s.slot j).cmds = [])) ∧
  (∃ (s : State) (i : Nat) (e : CmdEntry) (f : Final), (s.slot i).st = .active ∧ i < s.mgmt.slots.length ∧ flagNotify
    e.flags = false) ∧
  (∃ (s : State) (i : Nat) (e : CmdEntry) (f : Final), (s.slot i).st = .active ∧ flagNotify e.flags = true) ∧
  (∃ (s : State) (i : Nat) (e : CmdEntry) (f : Final), (s.slot i).st = .closing) :=
  ⟨⟨tWith tUp [{ tEntry (.partRead tIss) with phase := .pending, finished := some ⟨0, 0, []⟩ }], 1, 7, .good, 0, {
    tEntry (.partRead tIss) with phase := .pending, finished := some ⟨0, 0, []⟩ }, ⟨0, 0, []⟩,
    by and_intros <;> decide +kernel⟩,
   ⟨tWith tUp [{ tEntry (.partRead tIss) with phase := .pending }], 1, 7, 0, { tEntry (.partRead tIss) with
    phase := .pending }, ⟨0, 0, []⟩, tWith tUp [{ tEntry (.partRead tIss) with phase := .pending }],
    by and_intros <;> first | rfl | decide +kernel⟩,
   ⟨tWith tUp [{ tEntry (.partRead tIss) with phase := .pending }], 1, 7, ⟨[], [], [], []⟩, 0, { tEntry (.partRead
    tIss) with phase := .pending }, ⟨0, 0, []⟩, tWith tUp [{ tEntry (.partRead tIss) with phase := .pending }],
    by and_intros <;> first | rfl | decide +kernel⟩,
   ⟨tWith tUp [{ tEntry (.partRead tIss) with phase := .pending }], 1, 7, 1, 0, 0, { tEntry (.partRead tIss) with
    phase := .pending },
    by and_intros <;> decide +kernel⟩,
   ⟨tWith tUp [{ tEntry (.partRead tIss) with phase := .running }], 0, { tEntry (.partRead tIss) with
    phase := .running }, .firmware, ⟨0, 0, []⟩,
    by and_intros <;> first | rfl | decide +kernel | (intro j hj; match j, hj with | 0, h => exact absurd rfl h | 1, _ => rfl | 2, _ => rfl | 3, _ => rfl | 4, _ => rfl | 5, _ => rfl | 6, _ => rfl | 7, _ => rfl | _ + 8, _ => rfl)⟩,
   ⟨tWith tUp [], 0, tEntry (.nop tIss []), ⟨0, 0, []⟩,
    by and_intros <;> decide +kernel⟩,
   ⟨tWith tUp [], 0, { tEntry (.nop tIss []) with flags := 1 }, ⟨0, 0, []⟩,
    by and_intros <;> decide +kernel⟩,
   ⟨{ tUp with mgmt := { tUp.mgmt with slots := [{ Session.free with st := .closing }] } }, 0, tEntry (.nop tIss []),
    ⟨0, 0, []⟩,
    by decide +kernel⟩⟩

theorem test_meets_ObjectCommandsComplete :
  (∃ (s : State) (iss : Issuer) (i : Nat) (e : CmdEntry) (type : Byte) (length : BitVec 32), Waits s (.objOpen iss
    type 0 length) i e ∧ 1 ≤ type.toNat ∧ type.toNat ≤ 5 ∧ 1 ≤ length.toNat ∧ length.toNat ≤ 150994944 ∧ s.objs.count
    (s.slot i).number < 16 ∧ s.objs.used + length.toNat ≤ 536870912) ∧
  (∃ (s : State) (iss : Issuer) (i : Nat) (e : CmdEntry) (handle : BitVec 16) (offset : BitVec 32) (data : List Byte)
    (o : Obj), Waits s (.objWrite iss handle 0 offset 0 data) i e ∧ s.objOf (s.slot i).number handle.toNat = some o ∧
    s.objHeld i handle.toNat = false ∧ o.sealed = false ∧ offset.toNat + data.length ≤ o.length) ∧
  (∃ (s : State) (iss : Issuer) (i : Nat) (e : CmdEntry) (handle : BitVec 16) (o : Obj), Waits s (.objClose iss handle
    0 (Config.sha384 o.all)) i e ∧ s.objOf (s.slot i).number handle.toNat = some o ∧ s.objHeld i handle.toNat = false) ∧
  (∃ (s : State) (iss : Issuer) (i : Nat) (e : CmdEntry) (handle : BitVec 16) (offset count : BitVec 32) (o : Obj)
    (met : List BlockErr), Waits s (.objRead iss handle 0 offset count met) i e ∧ s.objOf (s.slot i).number
    handle.toNat = some o ∧ o.sealed = true ∧ offset.toNat + count.toNat ≤ o.length ∧ 1 ≤ count.toNat ∧ count.toNat ≤
    8944 ∧
    (let n := readBlocks offset.toNat count.toNat;
      (let u := (s.meet 3 n (errOn objBridge) met).sendBytes objBridge false 3 count.toNat;
        (let bad := (lostBlocks n met).map fun b => (handle.toNat, offset.toNat / 64 + b);
          (let u : State := { u with mem := { u.mem with badObjects := bad ++ u.mem.badObjects } }; u.objBad
            handle.toNat offset.toNat count.toNat = false))))) ∧
  (∃ (s : State) (iss : Issuer) (i : Nat) (e : CmdEntry) (handle : BitVec 16) (offset count : BitVec 32) (o : Obj)
    (met : List BlockErr), Waits s (.objRead iss handle 0 offset count met) i e ∧ s.objOf (s.slot i).number
    handle.toNat = some o ∧ o.sealed = true ∧ offset.toNat + count.toNat ≤ o.length ∧ 1 ≤ count.toNat ∧ count.toNat ≤
    8944 ∧
    (let n := readBlocks offset.toNat count.toNat;
      (let u := (s.meet 3 n (errOn objBridge) met).sendBytes objBridge false 3 count.toNat;
        (let bad := (lostBlocks n met).map fun b => (handle.toNat, offset.toNat / 64 + b);
          (let u : State := { u with mem := { u.mem with badObjects := bad ++ u.mem.badObjects } }; u.objBad
            handle.toNat offset.toNat count.toNat = true))))) ∧
  (∃ (s : State) (iss : Issuer) (i : Nat) (e : CmdEntry) (handle : BitVec 16) (o : Obj), Waits s (.objFree iss handle
    0) i e ∧ s.objOf (s.slot i).number handle.toNat = some o ∧ s.objHeld i handle.toNat = false) ∧
  (∃ (o : Obj) (off : Nat) (data : List Byte) (a : Nat) (k : _), k < data.length ∧ a = off + k) ∧
  (∃ (o : Obj) (off : Nat) (data : List Byte) (a : Nat), (a < off ∨ off + data.length ≤ a)) :=
  ⟨⟨tCmd (.objOpen tIss 5 0 150994944) tUp, tIss, 0, tEntry (.objOpen tIss 5 0 150994944), 5, 150994944,
    by and_intros <;> first | exact tWaits _ _ rfl rfl | decide +kernel⟩,
   ⟨tCmd (.objWrite tIss 5 0 6 0 [1, 2]) (tHas (⟨1, 1, 8, [], false⟩) tUp), tIss, 0, tEntry (.objWrite tIss 5 0 6 0
    [1, 2]), 5, 6, [1, 2], ⟨1, 1, 8, [], false⟩,
    by and_intros <;> first | exact tWaits _ _ rfl rfl | decide +kernel⟩,
   ⟨tCmd (.objClose tIss 5 0 (Config.sha384 (Obj.all ⟨1, 1, 8, [], false⟩))) (tHas (⟨1, 1, 8, [], false⟩) tUp), tIss,
    0, tEntry (.objClose tIss 5 0 (Config.sha384 (Obj.all ⟨1, 1, 8, [], false⟩))), 5, ⟨1, 1, 8, [], false⟩,
    by and_intros <;> first | exact tWaits _ _ rfl rfl | decide +kernel⟩,
   ⟨tCmd (.objRead tIss 5 0 0 8944 []) (tHas (tObj 1 8944 []) tUp), tIss, 0, tEntry (.objRead tIss 5 0 0 8944 []), 5,
    0, 8944, tObj 1 8944 [], [],
    by dsimp only; and_intros <;> first | exact tWaits _ _ rfl rfl | decide +kernel⟩,
   ⟨tCmd (.objRead tIss 5 0 64 64 [⟨0, 0, 0, 0, 0, 2⟩]) (tHas (tObj 1 8944 []) tUp), tIss, 0, tEntry (.objRead tIss 5
    0 64 64 [⟨0, 0, 0, 0, 0, 2⟩]), 5, 64, 64, tObj 1 8944 [], [⟨0, 0, 0, 0, 0, 2⟩],
    by dsimp only; and_intros <;> first | exact tWaits _ _ rfl rfl | decide +kernel⟩,
   ⟨tCmd (.objFree tIss 5 0) (tHas (⟨1, 1, 8, [], false⟩) tUp), tIss, 0, tEntry (.objFree tIss 5 0), 5, ⟨1, 1, 8, [],
    false⟩,
    by and_intros <;> first | exact tWaits _ _ rfl rfl | decide +kernel⟩,
   ⟨⟨1, 1, 8, [], false⟩, 3, [1, 2], 4, 1,
    by and_intros <;> decide +kernel⟩,
   ⟨⟨1, 1, 8, [], false⟩, 3, [1, 2], 5,
    by decide +kernel⟩⟩

theorem test_meets_RegisterReadsComplete :
  (∃ (s : State) (iss : Issuer) (i : Nat) (e : CmdEntry) (a : Addr) (r : Reg) (ix : List Nat), Waits s (.regRead iss
    a) i e ∧ locate a = some (r, ix) ∧ s.ownerDown a.toNat = none) ∧
  (∃ (s : State) (r : Reg) (ix : List Nat) (n : Nat), r.mask .rc ≠ 0) ∧
  (∃ (s : State) (r : Reg) (ix : List Nat) (n : Nat), r.mask .rc = 0) ∧
  (∃ (s : State) (r : Reg) (ix : List Nat), (r = .timeFreeFrac ∨ r = .timePtpFrac)) ∧
  (∃ (s : State) (r : Reg) (ix : List Nat), r = .genArmTimeLo) ∧
  (∃ (s : State) (r : Reg) (ix : List Nat), r = .genHorizonLo) ∧
  (∃ (s : State) (r : Reg) (ix : List Nat), r = .telLogNextLo) ∧
  (∃ (s : State) (r : Reg) (ix : List Nat), r ∉ [Reg.timeFreeFrac, .timePtpFrac, .genArmTimeLo, .genHorizonLo,
    .telLogNextLo]) ∧
  (∃ (s : State) (iss : Issuer) (i : Nat) (e : CmdEntry) (first : Addr) (count : BitVec 16), Waits s (.regReadBlock
    iss first count) i e ∧ 1 ≤ count.toNat ∧ count.toNat ≤ 256 ∧ (∀ a ∈ blockAddrs first count.toNat, (locate
    a).isSome = true ∧ s.ownerDown a.toNat = none)) :=
  ⟨⟨tCmd (.regRead tIss 0) tUp, tIss, 0, tEntry (.regRead tIss 0), 0, .devId, [],
    by and_intros <;> first | exact tWaits _ _ rfl rfl | decide +kernel⟩,
   ⟨tUp, .cmdDrops, [], 0,
    by decide +kernel⟩,
   ⟨tUp, .devId, [], 0,
    by decide +kernel⟩,
   ⟨tUp, .timePtpFrac, [],
    by decide +kernel⟩,
   ⟨tUp, .genArmTimeLo, [],
    by decide +kernel⟩,
   ⟨tUp, .genHorizonLo, [3],
    by decide +kernel⟩,
   ⟨tUp, .telLogNextLo, [],
    by decide +kernel⟩,
   ⟨tUp, .devId, [],
    by decide +kernel⟩,
   ⟨tCmd (.regReadBlock tIss 0 1) tUp, tIss, 0, tEntry (.regReadBlock tIss 0 1), 0, 1,
    by and_intros <;> first | exact tWaits _ _ rfl rfl | (intro a ha; simp [blockAddrs] at ha; subst ha; decide +kernel) | decide +kernel⟩⟩

theorem test_meets_RegisterWritesComplete :
  (∃ (s : State) (iss : Issuer) (i : Nat) (e : CmdEntry) (a : Addr) (r : Reg) (ix : List Nat) (v hw : Word), locate a
    = some (r, ix) ∧ s.ownerDown a.toNat = none ∧ Waits s (.regWrite iss a v) i e) ∧
  (∃ (s : State) (iss : Issuer) (i : Nat) (e : CmdEntry) (a : Addr) (r : Reg) (ix : List Nat) (v hw : Word), locate a
    = some (r, ix) ∧ s.ownerDown a.toNat = none ∧ Waits s (.w1cRegisterWrite iss a v hw) i e) ∧
  (∃ (s : State) (iss : Issuer) (i : Nat) (e : CmdEntry) (a : Addr) (r : Reg) (ix : List Nat) (v hw : Word), locate a
    = some (r, ix) ∧ s.ownerDown a.toNat = none ∧ Waits s (.tcConfigWrite iss a v) i e) ∧
  (∃ (s : State) (iss : Issuer) (i : Nat) (e : CmdEntry) (v : Word), Waits s (.cmdConfigWrite iss v) i e) ∧
  (∃ (s : State) (iss : Issuer) (i : Nat) (e : CmdEntry) (v : Word), Waits s (.tblCmdWriteEntry iss v) i e) ∧
  (∃ (s : State) (iss : Issuer) (i : Nat) (e : CmdEntry) (v : Word), Waits s (.tblCmdReadEntry iss v) i e) ∧
  (∃ (s : State) (iss : Issuer) (i : Nat) (e : CmdEntry) (v : Word), Waits s (.tblCmdInvalidateEntry iss v) i e) ∧
  (∃ (s : State) (iss : Issuer) (i : Nat) (e : CmdEntry) (v : Word), Waits s (.tblCmdMoveEntries iss v) i e) ∧
  (∃ (s : State) (iss : Issuer) (i : Nat) (e : CmdEntry), Waits s (.spolBind iss) i e) ∧
  (∃ (s : State) (iss : Issuer) (i : Nat) (e : CmdEntry), Waits s (.spolRead iss) i e) ∧
  (∃ (s : State) (iss : Issuer) (i : Nat) (e : CmdEntry), Waits s (.spolUnbind iss) i e) ∧
  (∃ (s t : State) (iss : Issuer) (i : Nat) (e : CmdEntry) (pairs : List (Addr × Word)), Waits s (.regWriteList iss
    pairs none) i e ∧ (∀ p ∈ pairs, (locate p.1).isSome = true) ∧ s.firstDown pairs 0 = none ∧ s.writePairs (s.slot
    i).number none pairs 0 = (none, t)) ∧
  (∃ (s : State) (r : Reg) (ix : List Nat) (v hw : Word) (n : Nat), r.idleAt ix = false ∧ s.overrun r = none ∧
    (let old := s.reg r ix;
      (let w := writtenWord r old v hw; badFields r w = []))) ∧
  (∃ (s : State) (r : Reg) (ix : List Nat) (v hw : Word) (n : Nat), r.idleAt ix = false ∧ s.overrun r = none ∧
    (let old := s.reg r ix;
      (let w := writtenWord r old v hw; badFields r w ≠ []))) ∧
  (∃ (r : Reg) (ix : List Nat) (w : Word) (f : FieldSpec), f ∈ r.row.fields ∧ f ∈ badFields r w) ∧
  (∃ (r : Reg) (ix : List Nat) (w : Word) (f : FieldSpec), f ∈ r.row.fields ∧ f ∉ badFields r w) :=
  ⟨⟨tCmd (.regWrite tIss (BitVec.ofNat 32 (regAddr .cmdConfig [])) 5) tUp, tIss, 0, tEntry (.regWrite tIss
    (BitVec.ofNat 32 (regAddr .cmdConfig [])) 5), BitVec.ofNat 32 (regAddr .cmdConfig []), .cmdConfig, [], 5, 0,
    by and_intros <;> first | exact tWaits _ _ rfl rfl | decide +kernel⟩,
   ⟨tCmd (.w1cRegisterWrite tIss (BitVec.ofNat 32 (regAddr .cmdConfig [])) 5 0) tUp, tIss, 0, tEntry
    (.w1cRegisterWrite tIss (BitVec.ofNat 32 (regAddr .cmdConfig [])) 5 0), BitVec.ofNat 32 (regAddr .cmdConfig []),
    .cmdConfig, [], 5, 0,
    by and_intros <;> first | exact tWaits _ _ rfl rfl | decide +kernel⟩,
   ⟨tCmd (.tcConfigWrite tIss (BitVec.ofNat 32 (regAddr .cmdConfig [])) 5) tUp, tIss, 0, tEntry (.tcConfigWrite tIss
    (BitVec.ofNat 32 (regAddr .cmdConfig [])) 5), BitVec.ofNat 32 (regAddr .cmdConfig []), .cmdConfig, [], 5, 0,
    by and_intros <;> first | exact tWaits _ _ rfl rfl | decide +kernel⟩,
   ⟨tCmd (.cmdConfigWrite tIss 5) tUp, tIss, 0, tEntry (.cmdConfigWrite tIss 5), 5,
    by first | exact tWaits _ _ rfl rfl | decide +kernel⟩,
   ⟨tCmd (.tblCmdWriteEntry tIss 5) tUp, tIss, 0, tEntry (.tblCmdWriteEntry tIss 5), 5,
    by first | exact tWaits _ _ rfl rfl | decide +kernel⟩,
   ⟨tCmd (.tblCmdReadEntry tIss 5) tUp, tIss, 0, tEntry (.tblCmdReadEntry tIss 5), 5,
    by first | exact tWaits _ _ rfl rfl | decide +kernel⟩,
   ⟨tCmd (.tblCmdInvalidateEntry tIss 5) tUp, tIss, 0, tEntry (.tblCmdInvalidateEntry tIss 5), 5,
    by first | exact tWaits _ _ rfl rfl | decide +kernel⟩,
   ⟨tCmd (.tblCmdMoveEntries tIss 5) tUp, tIss, 0, tEntry (.tblCmdMoveEntries tIss 5), 5,
    by first | exact tWaits _ _ rfl rfl | decide +kernel⟩,
   ⟨tCmd (.spolBind tIss) tUp, tIss, 0, tEntry (.spolBind tIss),
    by first | exact tWaits _ _ rfl rfl | decide +kernel⟩,
   ⟨tCmd (.spolRead tIss) tUp, tIss, 0, tEntry (.spolRead tIss),
    by first | exact tWaits _ _ rfl rfl | decide +kernel⟩,
   ⟨tCmd (.spolUnbind tIss) tUp, tIss, 0, tEntry (.spolUnbind tIss),
    by first | exact tWaits _ _ rfl rfl | decide +kernel⟩,
   ⟨tCmd (.regWriteList tIss [] none) tUp, tCmd (.regWriteList tIss [] none) tUp, tIss, 0, tEntry (.regWriteList tIss
    [] none), [],
    by and_intros <;> first | exact tWaits _ _ rfl rfl | rfl | simp⟩,
   ⟨tUp, .cmdConfig, [], 5, 0, 1,
    by dsimp only; and_intros <;> decide +kernel⟩,
   ⟨tUp, .bufSpill, [], 0x6464, 0, 1,
    by dsimp only; and_intros <;> decide +kernel⟩,
   ⟨.bufSpill, [], 0x6464, ⟨15, 8, .rw, [70], []⟩,
    by and_intros <;> decide +kernel⟩,
   ⟨.bufSpill, [], 0x6464, ⟨16, 16, .rw, [0], []⟩,
    by and_intros <;> decide +kernel⟩⟩

theorem test_meets_ModifyWrites :
  (∃ (s : State) (iss : Issuer) (i : Nat) (e : CmdEntry) (a : Addr) (r : Reg) (ix : List Nat) (mask v : Word), Waits s
    (.regModify iss a mask v) i e ∧ locate a = some (r, ix) ∧ s.ownerDown a.toNat = none) ∧
  (∃ (r : Reg) (old mask v : Word) (n : Nat), n < 32) :=
  ⟨⟨tCmd (.regModify tIss 0 0 0) tUp, tIss, 0, tEntry (.regModify tIss 0 0 0), 0, .devId, [], 0, 0,
    by and_intros <;> first | exact tWaits _ _ rfl rfl | decide +kernel⟩,
   ⟨.cmdConfig, 0, 0xFF, 5, 31,
    by decide +kernel⟩⟩

theorem test_meets_WrittenBits : ∃ (r : Reg) (old v hw : Word) (n : Nat), n < 32 :=
  ⟨.cmdConfig, 0, 0xFF, 5, 31,
    by decide +kernel⟩

theorem test_meets_CountersSaturate :
  (∃ (s : State) (r : Reg) (ix : List Nat), r.mask .rc ≠ 0) ∧
  (∃ (s : State) (set index item : Nat), item < ((setShape set).getD (0, 0)).1 ∧ set ≠ 2 ∧ item < 64 ∧ index < 2 ^ 22) :=
  ⟨⟨tUp, .cmdDrops, [],
    by decide +kernel⟩,
   ⟨tUp, 1, 0, 39,
    by and_intros <;> decide +kernel⟩⟩

theorem test_meets_TableCommandsComplete :
  (∃ (s : State) (iss : Issuer) (i : Nat) (e : CmdEntry) (qmask table flags : Byte) (index : BitVec 32) (image :
    BitVec 256), 0 < qmask.toNat ∧ qmask.toNat < 16 ∧ table.toNat < 6 ∧ flags.toNat < 2 ∧ index.toNat < tblSize
    table.toNat ∧ (∀ f ∈ pipesOf qmask.toNat, s.fnDown f = false) ∧ s.conflict (s.slot i).number none table.toNat
    qmask.toNat index.toNat (index.toNat + 1) = none ∧ s.bankRefusal table.toNat = none ∧ Waits s (.tblWrite iss qmask
    table flags 0 index image) i e ∧ s.lpmOk qmask.toNat table.toNat index.toNat (imgHost table.toNat image) = true ∧
    imgBad table.toNat image = none) ∧
  (∃ (s : State) (iss : Issuer) (i : Nat) (e : CmdEntry) (qmask table flags : Byte) (index : BitVec 32) (image :
    BitVec 256), 0 < qmask.toNat ∧ qmask.toNat < 16 ∧ table.toNat < 6 ∧ flags.toNat < 2 ∧ index.toNat < tblSize
    table.toNat ∧ (∀ f ∈ pipesOf qmask.toNat, s.fnDown f = false) ∧ s.conflict (s.slot i).number none table.toNat
    qmask.toNat index.toNat (index.toNat + 1) = none ∧ s.bankRefusal table.toNat = none ∧ Waits s (.tblInvalidate iss
    qmask table flags 0 index) i e ∧ s.lpmOk qmask.toNat table.toNat index.toNat 0 = true) ∧
  (∃ (s : State) (iss : Issuer) (i : Nat) (e : CmdEntry) (quad table flags : Byte) (index : BitVec 32), Waits s
    (.tblRead iss quad table flags 0 index) i e ∧ quad.toNat < 4 ∧ table.toNat < 6 ∧ flags.toNat < 2 ∧ index.toNat <
    tblSize table.toNat ∧ s.fnDown (fidTbl quad.toNat) = false) ∧
  (∃ (s : State) (iss : Issuer) (i : Nat) (e : CmdEntry) (qmask flags : Byte) (src dst count : BitVec 32), Waits s
    (.tblMove iss qmask 0 flags 0 src dst count) i e ∧ 0 < qmask.toNat ∧ qmask.toNat < 16 ∧ flags.toNat < 2 ∧ 1 ≤
    count.toNat ∧ src.toNat + count.toNat ≤ 262144 ∧ dst.toNat + count.toNat ≤ 262144 ∧ (∀ q ∈ quadsOf qmask.toNat,
    splitsPair s.tables.entries q src.toNat count.toNat = false ∧ splitsPair s.tables.entries q dst.toNat count.toNat
    = false ∧ ((dst.toNat + src.toNat) % 2 = 0 ∨ rangeHasV6 s.tables.entries q src.toNat count.toNat = false)) ∧ (∀ f
    ∈ pipesOf qmask.toNat, s.fnDown f = false) ∧ s.conflict (s.slot i).number (some (s.startingOrder i)) 0 qmask.toNat
    (min src.toNat dst.toNat) (max src.toNat dst.toNat + count.toNat) = none) ∧
  (∃ (s : State) (iss : Issuer) (i : Nat) (e : CmdEntry) (rate : BitVec 32) (repair : Byte), Waits s (.soundConfig iss
    0 rate repair 0) i e ∧ rate.toNat ≤ 4000000 ∧ repair.toNat ≤ 1) ∧
  (∃ (s : State) (iss : Issuer) (i : Nat) (e : CmdEntry) (qmask table flags : Byte) (handle : BitVec 16) (first count
    : BitVec 32) (met : List BlockErr) (o : Obj) (t : Tables), Waits s (.tblBulkWrite iss qmask table flags 0 handle 0
    first count met) i e ∧ 0 < qmask.toNat ∧ qmask.toNat < 16 ∧ table.toNat < 6 ∧ flags.toNat < 2 ∧ 1 ≤ count.toNat ∧
    first.toNat + count.toNat ≤ tblSize table.toNat ∧ s.objOf (s.slot i).number handle.toNat = some o ∧ s.objBusy
    handle.toNat = false ∧ o.sealed = true ∧ o.type = 4 ∧ (s.readObject handle.toNat 0 o.length met).1 = false ∧ 32 *
    count.toNat ≤ o.length ∧ (∀ f ∈ pipesOf qmask.toNat, s.fnDown f = false) ∧ s.conflict (s.slot i).number (some
    (s.startingOrder i)) table.toNat qmask.toNat first.toNat (first.toNat + count.toNat) = none ∧ s.bankRefusal
    table.toNat = none ∧ (s.readObject handle.toNat 0 o.length met).2.tables.bulk qmask.toNat table.toNat
    (flags.getLsbD 0) first.toNat (objImages o count.toNat) = some t) ∧
  (∃ (s : State) (iss : Issuer) (i : Nat) (e : CmdEntry) (quad table flags : Byte) (first count : BitVec 32) (h : Nat)
    (t : State), Waits s (.tblBulkRead iss quad table flags 0 first count) i e ∧ quad.toNat < 4 ∧ table.toNat < 6 ∧
    flags.toNat < 2 ∧ 1 ≤ count.toNat ∧ count.toNat ≤ 65536 ∧ first.toNat + count.toNat ≤ tblSize table.toNat ∧
    s.fnDown (fidTbl quad.toNat) = false ∧
    (let m := if flags.getLsbD 0 then s.tables.shadow else s.tables.entries;
      (let bytes := (rangeFrom first.toNat count.toNat).flatMap fun n => imgBytes (entryAt m quad.toNat table.toNat n);
        s.resultObject (s.slot i).number bytes = some (h, t)))) :=
  ⟨⟨tCmd (.tblWrite tIss 15 0 1 0 262143 0) tUp, tIss, 0, tEntry (.tblWrite tIss 15 0 1 0 262143 0), 15, 0, 1, 262143,
    0,
    by and_intros <;> first | exact tWaits _ _ rfl rfl | decide +kernel⟩,
   ⟨tCmd (.tblInvalidate tIss 15 0 1 0 0) tUp, tIss, 0, tEntry (.tblInvalidate tIss 15 0 1 0 0), 15, 0, 1, 0, 0,
    by and_intros <;> first | exact tWaits _ _ rfl rfl | decide +kernel⟩,
   ⟨tCmd (.tblRead tIss 3 5 0 0 0) tUp, tIss, 0, tEntry (.tblRead tIss 3 5 0 0 0), 3, 5, 0, 0,
    by and_intros <;> first | exact tWaits _ _ rfl rfl | decide +kernel⟩,
   ⟨tCmd (.tblMove tIss 1 0 0 0 0 2 1) tUp, tIss, 0, tEntry (.tblMove tIss 1 0 0 0 0 2 1), 1, 0, 0, 2, 1,
    by and_intros <;> first | exact tWaits _ _ rfl rfl | decide +kernel⟩,
   ⟨tCmd (.soundConfig tIss 0 4000000 1 0) tUp, tIss, 0, tEntry (.soundConfig tIss 0 4000000 1 0), 4000000, 1,
    by and_intros <;> first | exact tWaits _ _ rfl rfl | decide +kernel⟩,
   ⟨tCmd (.tblBulkWrite tIss 1 0 0 0 5 0 0 1 []) (tHas (tObj 4 32 []) tUp), tIss, 0, tEntry (.tblBulkWrite tIss 1 0 0
    0 5 0 0 1 []), 1, 0, 0, 5, 0, 1, [], tObj 4 32 [], ((tHas (tObj 4 32 []) tUp).tables.bulk 1 0 false 0 (objImages
    (tObj 4 32 []) 1)).getD tUp.tables,
    by and_intros <;> first | exact tWaits _ _ rfl rfl | decide +kernel | rfl⟩,
   ⟨tCmd (.tblBulkRead tIss 3 0 0 0 0 1) tUp, tIss, 0, tEntry (.tblBulkRead tIss 3 0 0 0 0 1), 3, 0, 0, 0, 1, (((tCmd
    (.tblBulkRead tIss 3 0 0 0 0 1) tUp).resultObject 1 ((rangeFrom 0 1).flatMap fun n => imgBytes (entryAt [] 3 0
    n))).getD (0, tUp)).1, (((tCmd (.tblBulkRead tIss 3 0 0 0 0 1) tUp).resultObject 1 ((rangeFrom 0 1).flatMap fun n
    => imgBytes (entryAt [] 3 0 n))).getD (0, tUp)).2,
    by dsimp only; and_intros <;> first | exact tWaits _ _ rfl rfl | decide +kernel | rfl⟩⟩

theorem test_meets_TableWriteFrame :
  (∃ (m : AMap EntryImage) (q tb i : Nat) (img : EntryImage) (q' tb' j : _), m.wf = true ∧ i < 262144 ∧ tb < 8 ∧ (tb =
    0 → isV6 img = true → i % 2 = 0) ∧ j < 262144 ∧ tb' < 8 ∧ (q', tb') ≠ (q, tb)) ∧
  (∃ (m : AMap EntryImage) (q tb i : Nat) (img : EntryImage) (j : _), m.wf = true ∧ i < 262144 ∧ tb < 8 ∧ (tb = 0 →
    isV6 img = true → i % 2 = 0) ∧ j < 262144 ∧ j ≠ i ∧ (¬ (tb = 0 ∧ isV6 img = true ∧ j = i + 1)) ∧ (¬ (tb = 1 ∧
    img.getLsbD 255 = true ∧ (entryAt m q tb j).getLsbD 254 = true ∧ macKeyOf (entryAt m q tb j) = macKeyOf img))) :=
  ⟨⟨[], 0, 0, 262143, 0, 1, 0, 0,
    by and_intros <;> decide +kernel⟩,
   ⟨[], 0, 0, 0, 0, 1,
    by and_intros <;> decide +kernel⟩⟩

theorem test_meets_TableRoundsComplete :
  (∃ (s : State), s.boot.phase ≠ .reset) ∧
  (∃ (s : State) (p q : Nat) (x : PortSt), s.ports.wf = true ∧ s.tables.est.wf = true ∧ s.ports.find p = some x ∧ (∀ k
    ∈ s.ports.map (·.1), k < 2048) ∧ q < 4) ∧
  (∃ (s : State) (q : Quad), s.regBits .tblMacConfig [] 15 0 ≠ 0 ∧ s.fnDown (fidTbl q.val) = false) ∧
  (∃ (s : State) (met : List BlockErr), s.regBits .tblSound [] 21 0 ≠ 0 ∧ s.tables.soundPos < 1577216 ∧
    (let e := soundEntry s.tables.soundPos; s.linkUp (16 + addrBridge (shadowAddr e.1 e.2.1 e.2.2)) = true)) ∧
  (∃ (s : State) (v hw : Word) (n : Nat), s.tables.op.busy = true) ∧
  (∃ (s : State) (v hw : Word) (n : Nat), s.tc.op.busy = true) ∧
  (∃ (s : State), s.tables.op.busy = true) ∧
  (∃ (s : State), s.tc.op.busy = true) :=
  ⟨⟨tUp,
    by decide +kernel⟩,
   ⟨{ tUp with ports := [(2047, PortSt.init)] }, 2047, 3, PortSt.init,
    by and_intros <;> first | decide +kernel | (intro k hk; simp at hk; subst hk; decide +kernel)⟩,
   ⟨tUp.setReg .tblMacConfig [] 1, 3,
    by and_intros <;> decide +kernel⟩,
   ⟨tLink 16 tUpLink (tUp.setReg .tblSound [] 1), [],
    by dsimp only; and_intros <;> decide +kernel⟩,
   ⟨{ tUp with tables := { tUp.tables with op := ⟨true, 1, 0⟩ } }, 1, 0, 0,
    by decide +kernel⟩,
   ⟨{ tUp with tc := { tUp.tc with op := ⟨true, 1, 0⟩ } }, 1, 0, 0,
    by decide +kernel⟩,
   ⟨{ tUp with tables := { tUp.tables with op := ⟨true, 1, 0⟩ } },
    by decide +kernel⟩,
   ⟨{ tUp with tc := { tUp.tc with op := ⟨true, 1, 0⟩ } },
    by decide +kernel⟩⟩

theorem test_meets_GenerationCommandsComplete :
  (∃ (s : State) (iss : Issuer) (i : Nat) (e : CmdEntry) (t : BitVec 64), s.conflict (s.slot i).number (some
    (s.startingOrder i)) 2 15 0 512 = none ∧ s.conflict (s.slot i).number (some (s.startingOrder i)) 3 15 0 512 = none
    ∧ (s.gen.bank (1 - s.gen.act)).st = .idle ∧ Waits s (.genActivate iss 0 0 0 t []) i e ∧ s.startingReceipt i + 2000
    ≤ t.toNat ∧ t.toNat ≤ s.startingReceipt i + 10000000000) ∧
  (∃ (s : State) (iss : Issuer) (i : Nat) (e : CmdEntry) (t : BitVec 64), s.conflict (s.slot i).number (some
    (s.startingOrder i)) 2 15 0 512 = none ∧ s.conflict (s.slot i).number (some (s.startingOrder i)) 3 15 0 512 = none
    ∧ (s.gen.bank (1 - s.gen.act)).st = .idle ∧ Waits s (.genActivate iss 1 0 0 t []) i e) ∧
  (∃ (s : State) (iss : Issuer) (i : Nat) (e : CmdEntry) (handle : BitVec 16) (t : BitVec 64) (met : List BlockErr) (o
    : Obj), Waits s (.genActivate iss 2 0 handle t met) i e ∧ s.objOf (s.slot i).number handle.toNat = some o ∧
    s.objBusy handle.toNat = false ∧ o.sealed = true ∧ o.type = 4 ∧ o.length = 16384 ∧ (s.readObject handle.toNat 0
    o.length met).1 = false ∧ s.startingReceipt i + 2000 ≤ t.toNat ∧ t.toNat ≤ s.startingReceipt i + 10000000000 ∧ (∀
    q < 4, s.fnDown (fidTbl q) = false) ∧ s.conflict (s.slot i).number (some (s.startingOrder i)) 2 15 0 512 = none ∧
    s.conflict (s.slot i).number (some (s.startingOrder i)) 3 15 0 512 = none ∧ s.gen.queued = none ∧
    (let n := 1 - s.gen.act; (s.gen.bank n).st = .idle)) ∧
  (∃ (s : State) (iss : Issuer) (i : Nat) (e : CmdEntry) (handle : BitVec 16) (t : BitVec 64) (met : List BlockErr) (o
    : Obj), Waits s (.genActivate iss 2 0 handle t met) i e ∧ s.objOf (s.slot i).number handle.toNat = some o ∧
    s.objBusy handle.toNat = false ∧ o.sealed = true ∧ o.type = 4 ∧ o.length = 16384 ∧ (s.readObject handle.toNat 0
    o.length met).1 = false ∧ s.startingReceipt i + 2000 ≤ t.toNat ∧ t.toNat ≤ s.startingReceipt i + 10000000000 ∧ (∀
    q < 4, s.fnDown (fidTbl q) = false) ∧ s.conflict (s.slot i).number (some (s.startingOrder i)) 2 15 0 512 = none ∧
    s.conflict (s.slot i).number (some (s.startingOrder i)) 3 15 0 512 = none ∧ s.gen.queued = none ∧
    (let n := 1 - s.gen.act; (s.gen.bank n).st = .draining)) ∧
  (∃ (s : State) (iss : Issuer) (i : Nat) (e : CmdEntry), Waits s (.genStatus iss) i e) ∧
  (∃ (s : State) (iss : Issuer) (i : Nat) (e : CmdEntry), Waits s (.genAbandon iss) i e ∧ s.gen.queued = none ∧
    (s.gen.bank (1 - s.gen.act)).st = .armed) :=
  ⟨⟨tCmd (.genActivate tIss 0 0 0 2000 []) tUp, tIss, 0, tEntry (.genActivate tIss 0 0 0 2000 []), 2000,
    by and_intros <;> first | exact tWaits _ _ rfl rfl | decide +kernel⟩,
   ⟨tCmd (.genActivate tIss 1 0 0 0 []) tUp, tIss, 0, tEntry (.genActivate tIss 1 0 0 0 []), 0,
    by and_intros <;> first | exact tWaits _ _ rfl rfl | decide +kernel⟩,
   ⟨tCmd (.genActivate tIss 2 0 5 2000 []) (tHas (tObj 4 16384 []) tUp), tIss, 0, tEntry (.genActivate tIss 2 0 5 2000
    []), 5, 2000, [], tObj 4 16384 [],
    by dsimp only; and_intros <;> first | exact tWaits _ _ rfl rfl | decide +kernel⟩,
   ⟨tCmd (.genActivate tIss 2 0 5 2000 []) ({ (tHas (tObj 4 16384 []) tUp) with gen := { tUp.gen with bank1 := {
    tUp.gen.bank1 with st := .draining } } }), tIss, 0, tEntry (.genActivate tIss 2 0 5 2000 []), 5, 2000, [], tObj 4
    16384 [],
    by dsimp only; and_intros <;> first | exact tWaits _ _ rfl rfl | decide +kernel⟩,
   ⟨tCmd (.genStatus tIss) tUp, tIss, 0, tEntry (.genStatus tIss),
    by first | exact tWaits _ _ rfl rfl | decide +kernel⟩,
   ⟨tCmd (.genAbandon tIss) ({ tUp with gen := { tUp.gen with bank1 := { tUp.gen.bank1 with st := .armed } } }), tIss,
    0, tEntry (.genAbandon tIss),
    by and_intros <;> first | exact tWaits _ _ rfl rfl | decide +kernel⟩⟩

theorem test_meets_GenerationSwap :
  (∃ (s : State), (s.gen.bank (1 - s.gen.act)).st = .armed ∧ (s.gen.bank (1 - s.gen.act)).immediate = false) ∧
  (∃ (s : State), s.oneActive ∧ (s.gen.bank (1 - s.gen.act)).st = .armed) ∧
  (∃ (s : State), s.oneActive ∧ (s.gen.bank (1 - s.gen.act)).st = .draining ∧ s.inflight (1 - s.gen.act) = 0 ∧
    s.gen.queued = none) :=
  ⟨⟨{ tUp with gen := { tUp.gen with bank1 := { tUp.gen.bank1 with st := .armed } } },
    by and_intros <;> decide +kernel⟩,
   ⟨{ tUp with gen := { tUp.gen with bank1 := { tUp.gen.bank1 with st := .armed } } },
    by and_intros <;> first | decide +kernel | (unfold State.oneActive; decide +kernel)⟩,
   ⟨{ tUp with gen := { tUp.gen with bank1 := { tUp.gen.bank1 with st := .draining } } },
    by and_intros <;> first | decide +kernel | (unfold State.oneActive; decide +kernel)⟩⟩

theorem test_meets_PortCommandsComplete :
  (∃ (s : State) (iss : Issuer) (i : Nat) (e : CmdEntry) (handle : BitVec 16) (met : List BlockErr) (o : Obj), Waits s
    (.planLoad iss handle 0 met) i e ∧ s.objOf (s.slot i).number handle.toNat = some o ∧ s.objBusy handle.toNat =
    false ∧ o.sealed = true ∧ o.type = 1 ∧ (s.readObject handle.toNat 0 o.length met).1 = false ∧ s.fnDown (fidCmd
    s.boot.holder) = false) ∧
  (∃ (s : State) (iss : Issuer) (i : Nat) (e : CmdEntry) (fibre : BitVec 16) (layout : Byte), Waits s (.portConfig iss
    fibre layout 0) i e ∧ fibre.toNat < 256 ∧ layoutLegal layout.toNat = true ∧ s.fnDown (fidTile (fibre.toNat / 4)) =
    false ∧ (s.entry fibre.toNat).state ≠ 1) ∧
  (∃ (s : State) (iss : Issuer) (i : Nat) (e : CmdEntry) (lane : BitVec 16), s.configured lane.toNat = true ∧ s.fnDown
    (fidTile (tileOf lane.toNat)) = false ∧ Waits s (.portStatus iss lane 0) i e) ∧
  (∃ (s : State) (iss : Issuer) (i : Nat) (e : CmdEntry) (lane : BitVec 16), s.configured lane.toNat = true ∧ s.fnDown
    (fidTile (tileOf lane.toNat)) = false ∧ Waits s (.portEnable iss lane 0 0) i e) ∧
  (∃ (s : State) (iss : Issuer) (i : Nat) (e : CmdEntry) (lane : BitVec 16), s.configured lane.toNat = true ∧ s.fnDown
    (fidTile (tileOf lane.toNat)) = false ∧ Waits s (.portEnable iss lane 1 0) i e) ∧
  (∃ (s : State) (iss : Issuer) (i : Nat) (e : CmdEntry) (lane : BitVec 16), s.configured lane.toNat = true ∧ s.fnDown
    (fidTile (tileOf lane.toNat)) = false ∧ Waits s (.linkRetrain iss lane 0) i e) ∧
  (∃ (s : State) (iss : Issuer) (i : Nat) (e : CmdEntry) (fibre count : BitVec 16), Waits s (.discoveryRead iss fibre
    count 0 0) i e ∧ 1 ≤ count.toNat ∧ fibre.toNat + count.toNat ≤ 256 ∧ count.toNat ≤ 135) :=
  ⟨⟨tCmd (.planLoad tIss 5 0 []) (tHas (tObj 1 0 []) tUp), tIss, 0, tEntry (.planLoad tIss 5 0 []), 5, [], tObj 1 0
    [],
    by and_intros <;> first | exact tWaits _ _ rfl rfl | decide +kernel⟩,
   ⟨tCmd (.portConfig tIss 255 0x80 0) tUp, tIss, 0, tEntry (.portConfig tIss 255 0x80 0), 255, 0x80,
    by and_intros <;> first | exact tWaits _ _ rfl rfl | decide +kernel⟩,
   ⟨tCmd (.portStatus tIss 0 0) (tPort 128 .up), tIss, 0, tEntry (.portStatus tIss 0 0), 0,
    by and_intros <;> first | exact tWaits _ _ rfl rfl | decide +kernel⟩,
   ⟨tCmd (.portEnable tIss 0 0 0) (tPort 128 .up), tIss, 0, tEntry (.portEnable tIss 0 0 0), 0,
    by and_intros <;> first | exact tWaits _ _ rfl rfl | decide +kernel⟩,
   ⟨tCmd (.portEnable tIss 0 1 0) (tPort 128 .up), tIss, 0, tEntry (.portEnable tIss 0 1 0), 0,
    by and_intros <;> first | exact tWaits _ _ rfl rfl | decide +kernel⟩,
   ⟨tCmd (.linkRetrain tIss 0 0) (tPort 128 .up), tIss, 0, tEntry (.linkRetrain tIss 0 0), 0,
    by and_intros <;> first | exact tWaits _ _ rfl rfl | decide +kernel⟩,
   ⟨tCmd (.discoveryRead tIss 0 135 0 0) tUp, tIss, 0, tEntry (.discoveryRead tIss 0 135 0 0), 0, 135,
    by and_intros <;> first | exact tWaits _ _ rfl rfl | decide +kernel⟩⟩

theorem test_meets_FibreAndLaneRowsComplete :
  (∃ (s : State) (l : Lane) (src : BitVec 48) (pay : BitVec 512), s.hears l.val = true) ∧
  (∃ (s : State) (f : Fibre), (s.fibre f.val).found = true) ∧
  (∃ (s : State) (f : Fibre), (s.fibre f.val).comparing = true) ∧
  (∃ (s : State) (f : Fibre) (p : _), s.boot.phase = .done ∧ s.fnDown (fidTile (f.val / 4)) = false ∧
    (let t := s.every .discover f.val (s.regBits .linkConfig [] 11 8 * 1000000); (t.portsOf f.val).any (fun p =>
      (t.port p).st.formed) = true ∧ t.discoverPort f.val = some p)) ∧
  (∃ (s : State) (f : Fibre), s.boot.phase = .done ∧ s.fnDown (fidTile (f.val / 4)) = false ∧
    (let t := s.every .discover f.val (s.regBits .linkConfig [] 11 8 * 1000000); (t.portsOf f.val).any (fun p =>
      (t.port p).st.formed) = true ∧ t.discoverPort f.val = none)) ∧
  (∃ (s : State) (f : Fibre), s.boot.phase = .done ∧ s.fnDown (fidTile (f.val / 4)) = false ∧
    (let t := s.every .discover f.val (s.regBits .linkConfig [] 11 8 * 1000000); (t.portsOf f.val).any (fun p =>
      (t.port p).st.formed) = false)) ∧
  (∃ (s : State) (l : Lane), (s.laneRing l.val .rx).st = .verified ∧ (s.lane l.val).diverted = false) ∧
  (∃ (s : State) (p : Lane), s.configured p.val = true ∧ s.fnDown (fidTile (tileOf p.val)) = false) ∧
  (∃ (s : State) (p : Nat), (s.port p).st ≠ .training ∧ (s.port p).st ≠ .retraining) ∧
  (∃ (s : State) (p b : Nat) (q : _), (s.port p).st = .training ∧ s.isC p = false ∧ eBlock (s.eUsable p) p (s.widthAt
    p) = some b ∧ q ≠ p) ∧
  (∃ (s : State) (p b : Nat), (s.port p).st = .retraining ∧ s.isC p = false ∧ eBlock (s.eUsable p) p (s.widthAt p) =
    some b) ∧
  (∃ (s : State) (p : Nat), s.isC p = false ∧ eBlock (s.eUsable p) p (s.widthAt p) = none) ∧
  (∃ (s : State) (p : Nat), ((s.port p).st = .training ∨ (s.port p).st = .retraining) ∧ s.isC p = true ∧ (s.usable p
    .tx = 0 ∨ s.usable p .rx = 0)) ∧
  (∃ (s : State) (p : Nat), ((s.port p).st = .training ∨ (s.port p).st = .retraining) ∧ s.isC p = true ∧ s.usable p
    .tx ≠ 0 ∧ s.usable p .rx ≠ 0 ∧ s.sharedPool (tileOf p) < 16384 + s.landingNeed) ∧
  (∃ (s : State) (p : Nat) (q : _), ((s.port p).st = .training ∨ (s.port p).st = .retraining) ∧ s.isC p = true ∧
    s.usable p .tx ≠ 0 ∧ s.usable p .rx ≠ 0 ∧ 16384 + s.landingNeed ≤ s.sharedPool (tileOf p) ∧ q ≠ p) :=
  ⟨⟨tPort 0 .up, 0, 0, 0,
    by decide +kernel⟩,
   ⟨tUp.setFibre 0 fun x => { x with found := true }, 0,
    by decide +kernel⟩,
   ⟨tUp.setFibre 0 fun x => { x with comparing := true }, 0,
    by decide +kernel⟩,
   ⟨tPort 128 .up, 0, 0,
    by dsimp only; and_intros <;> decide +kernel⟩,
   ⟨tPort 128 .retraining, 0,
    by dsimp only; and_intros <;> decide +kernel⟩,
   ⟨tUp, 255,
    by dsimp only; and_intros <;> decide +kernel⟩,
   ⟨tPort 128 .up, 0,
    by and_intros <;> decide +kernel⟩,
   ⟨tPort 128 .training, 0,
    by and_intros <;> decide +kernel⟩,
   ⟨tUp, 0,
    by and_intros <;> decide +kernel⟩,
   ⟨tPort 0 .training, 0, 1, 1,
    by and_intros <;> decide +kernel⟩,
   ⟨tPort 0 .retraining, 0, 1,
    by and_intros <;> decide +kernel⟩,
   ⟨tUp, 0,
    by and_intros <;> decide +kernel⟩,
   ⟨(tPort 128 .training).setLane 0 fun x => { x with txOk := false }, 0,
    by and_intros <;> decide +kernel⟩,
   ⟨(tPort 128 .retraining).setTile 0 fun x => { x with pktMib := 0 }, 0,
    by and_intros <;> decide +kernel⟩,
   ⟨tPort 128 .training, 0, 1,
    by and_intros <;> decide +kernel⟩⟩

theorem test_meets_LinkTimersComplete :
  (∃ (s : State) (p : Lane) (due : Nat), (s.port p.val).gapDue = some due ∧ (s.port p.val).st.formed = true) ∧
  (∃ (s : State) (p : Lane), s.configured p.val = true ∧ s.isC p.val = true ∧ (s.port p.val).st.formed = true ∧
    s.allDiverted p.val = false ∧ (s.port p.val).replay ≠ [] ∧ (s.port p.val).requests < (s.port p.val).replayLimit) ∧
  (∃ (s : State) (p : Lane), s.configured p.val = true ∧ s.isC p.val = true ∧ (s.port p.val).st.formed = true ∧
    s.allDiverted p.val = false ∧ (s.port p.val).replay ≠ [] ∧ (s.port p.val).replayLimit ≤ (s.port p.val).requests) ∧
  (∃ (s : State) (l : Lane), s.configured (s.portOf l.val) = true ∧ s.isC (s.portOf l.val) = true ∧ (s.port (s.portOf
    l.val)).st.formed = true ∧ bit (s.port (s.portOf l.val)).rx (lambdaOf l.val) = true) ∧
  (∃ (s : State) (p : Lane), s.configured p.val = true ∧ s.isC p.val = false ∧ (s.port p.val).st.running = true ∧
    ((s.fibre (fibreOf p.val)).disc.map Discover.role).getD 0 = 1) :=
  ⟨⟨(tPort 128 .up).setPort 0 fun y => { y with gapDue := some 5 }, 0, 5,
    by and_intros <;> decide +kernel⟩,
   ⟨(tPort 128 .up).setPort 0 fun y => { y with replay := [(0, tFlit 0)] }, 0,
    by and_intros <;> decide +kernel⟩,
   ⟨(tPort 128 .up).setPort 0 fun y => { y with replay := [(0, tFlit 0)], requests := 16 }, 0,
    by and_intros <;> decide +kernel⟩,
   ⟨tPort 128 .up, 0,
    by and_intros <;> decide +kernel⟩,
   ⟨tPort 0 .up, 0,
    by and_intros <;> decide +kernel⟩⟩

theorem test_meets_FlitReceiveCompletes :
  (∃ (s : State) (l : Lane) (f : Flit) (fec : Bool), f.wf = true ∧ s.hears l.val = true ∧ s.configured (s.portOf
    l.val) = true ∧ s.isC (s.portOf l.val) = true ∧ (s.port (s.portOf l.val)).st.formed = true ∧ (fec && f.crcOk) =
    false) ∧
  (∃ (s : State) (l : Lane) (f : Flit), f.wf = true ∧ s.hears l.val = true ∧ s.configured (s.portOf l.val) = true ∧
    s.isC (s.portOf l.val) = true ∧ (s.port (s.portOf l.val)).st.formed = true ∧
    (let p := s.portOf l.val; f.crcOk = true ∧
      (let t := s.linkFields l.val p f.link; f.link.ltype = 0 ∧ (t.port p).requests < (t.port p).replayLimit))) ∧
  (∃ (s : State) (l : Lane) (f : Flit), f.wf = true ∧ s.hears l.val = true ∧ s.configured (s.portOf l.val) = true ∧
    s.isC (s.portOf l.val) = true ∧ (s.port (s.portOf l.val)).st.formed = true ∧
    (let p := s.portOf l.val; f.crcOk = true ∧
      (let t := s.linkFields l.val p f.link; 1 < f.link.ltype.toNat ∧ (t.port p).requests < (t.port p).replayLimit))) ∧
  (∃ (s : State) (l : Lane) (f : Flit), f.wf = true ∧ s.hears l.val = true ∧ s.configured (s.portOf l.val) = true ∧
    s.isC (s.portOf l.val) = true ∧ (s.port (s.portOf l.val)).st.formed = true ∧
    (let p := s.portOf l.val; f.crcOk = true ∧
      (let t := s.linkFields l.val p f.link; f.link.ltype ≠ 1 ∧ (t.port p).replayLimit ≤ (t.port p).requests))) ∧
  (∃ (s : State) (l : Lane) (f : Flit), f.wf = true ∧ s.hears l.val = true ∧ s.configured (s.portOf l.val) = true ∧
    s.isC (s.portOf l.val) = true ∧ (s.port (s.portOf l.val)).st.formed = true ∧
    (let p := s.portOf l.val; f.crcOk = true ∧
      (let t := s.linkFields l.val p f.link; f.link.ltype = 1 ∧
        (let u := (t.bump .tilePortReplays [tileOf p, slotOf p]).setPort p fun y => { y with requests := y.requests + 1, resend := y.replay };
          (u.port p).requests < (u.port p).replayLimit)))) ∧
  (∃ (s : State) (l : Lane) (f : Flit), f.wf = true ∧ s.hears l.val = true ∧ s.configured (s.portOf l.val) = true ∧
    s.isC (s.portOf l.val) = true ∧ (s.port (s.portOf l.val)).st.formed = true ∧
    (let p := s.portOf l.val; f.crcOk = true ∧
      (let t := s.linkFields l.val p f.link; f.link.ltype = 1 ∧
        (let u := (t.bump .tilePortReplays [tileOf p, slotOf p]).setPort p fun y => { y with requests := y.requests + 1, resend := y.replay };
          (u.port p).replayLimit ≤ (u.port p).requests)))) :=
  ⟨⟨tPort 128 .up, 0, tFlit 0, false,
    by and_intros <;> decide +kernel⟩,
   ⟨tPort 128 .up, 0, (tFlit 0).sealed,
    by dsimp only; and_intros <;> first | exact Flit.sealed_crcOk _ | decide +kernel⟩,
   ⟨tPort 128 .up, 0, (tFlit 2).sealed,
    by dsimp only; and_intros <;> first | exact Flit.sealed_crcOk _ | decide +kernel⟩,
   ⟨(tPort 128 .up).setPort 0 fun y => { y with requests := 16 }, 0, (tFlit 0).sealed,
    by dsimp only; and_intros <;> first | exact Flit.sealed_crcOk _ | decide +kernel⟩,
   ⟨tPort 128 .up, 0, (tFlit 1).sealed,
    by dsimp only; and_intros <;> first | exact Flit.sealed_crcOk _ | decide +kernel⟩,
   ⟨(tPort 128 .up).setPort 0 fun y => { y with requests := 15 }, 0, (tFlit 1).sealed,
    by dsimp only; and_intros <;> first | exact Flit.sealed_crcOk _ | decide +kernel⟩⟩

theorem test_meets_FlitTransmitCompletes :
  (∃ (s : State) (l : Lane), s.boot.phase = .done ∧ s.configured (s.portOf l.val) = true ∧ s.isC (s.portOf l.val) =
    true ∧ (s.port (s.portOf l.val)).st.formed = true ∧ (s.lane l.val).ok .tx = true ∧
    (let p := s.portOf l.val;
      (let w := lambdaOf l.val; bit (s.port p).tx w = false))) ∧
  (∃ (s : State) (l : Lane), s.boot.phase = .done ∧ s.configured (s.portOf l.val) = true ∧ s.isC (s.portOf l.val) =
    true ∧ (s.port (s.portOf l.val)).st.formed = true ∧ (s.lane l.val).ok .tx = true ∧
    (let p := s.portOf l.val;
      (let w := lambdaOf l.val; bit (s.port p).tx w = true ∧ (s.port p).turn ≠ some w))) ∧
  (∃ (s : State) (l : Lane) (seq f rest : _), s.boot.phase = .done ∧ s.configured (s.portOf l.val) = true ∧ s.isC
    (s.portOf l.val) = true ∧ (s.port (s.portOf l.val)).st.formed = true ∧ (s.lane l.val).ok .tx = true ∧
    (let p := s.portOf l.val;
      (let w := lambdaOf l.val; bit (s.port p).tx w = true ∧ (s.port p).turn = some w ∧ (s.port p).resend = (seq, f)
        :: rest))) ∧
  (∃ (s : State) (l : Lane), s.boot.phase = .done ∧ s.configured (s.portOf l.val) = true ∧ s.isC (s.portOf l.val) =
    true ∧ (s.port (s.portOf l.val)).st.formed = true ∧ (s.lane l.val).ok .tx = true ∧
    (let p := s.portOf l.val;
      (let w := lambdaOf l.val; bit (s.port p).tx w = true ∧ (s.port p).turn = some w ∧ (s.port p).resend = [] ∧ 256 ≤
        (s.port p).replay.length))) ∧
  (∃ (s : State) (l : Lane), s.boot.phase = .done ∧ s.configured (s.portOf l.val) = true ∧ s.isC (s.portOf l.val) =
    true ∧ (s.port (s.portOf l.val)).st.formed = true ∧ (s.lane l.val).ok .tx = true ∧
    (let p := s.portOf l.val;
      (let w := lambdaOf l.val; bit (s.port p).tx w = true ∧ (s.port p).turn = some w ∧ (s.port p).resend = [] ∧
        (s.port p).replay.length < 256))) :=
  ⟨⟨(tPort 128 .up).setPort 0 fun y => { y with tx := 0 }, 0,
    by dsimp only; and_intros <;> decide +kernel⟩,
   ⟨(tPort 128 .up).setPort 0 fun y => { y with tx := 3, lastTx := 0 }, 0,
    by dsimp only; and_intros <;> decide +kernel⟩,
   ⟨(tPort 128 .up).setPort 0 fun y => { y with resend := [(3, tFlit 0)] }, 0, 3, tFlit 0, [],
    by dsimp only; and_intros <;> decide +kernel⟩,
   ⟨(tPort 128 .up).setPort 0 fun y => { y with replay := List.replicate 256 (0, tFlit 0) }, 0,
    by dsimp only; and_intros <;> decide +kernel⟩,
   ⟨(tPort 128 .up).setPort 0 fun y => { y with replay := List.replicate 255 (0, tFlit 0) }, 0,
    by dsimp only; and_intros <;> decide +kernel⟩⟩

theorem test_meets_EModeRowsComplete :
  (∃ (s : State) (p : Lane) (t : Train) (ovr : Bool), s.eLive p.val = true ∧ s.linkUp (engineOf p.val) = true ∧
    t.fcsOk = true ∧ t.version = 1 ∧ t.count ≠ 0 ∧ t.count.toNat ≤ 18 ∧ t.count.toNat ≤ t.cells.length ∧ (ovr ||
    s.fnDown (fidTbl (tileOf p.val / 16))) = true) ∧
  (∃ (s : State) (p : Lane) (t : Train), s.eLive p.val = true ∧ s.linkUp (engineOf p.val) = true ∧ t.fcsOk = true ∧
    t.version = 1 ∧ t.count ≠ 0 ∧ t.count.toNat ≤ 18 ∧ t.count.toNat ≤ t.cells.length ∧ s.fnDown (fidTbl (tileOf p.val
    / 16)) = false) ∧
  (∃ (s : State) (p : Lane) (f : EthFrame) (ovr : Bool), s.eLive p.val = true ∧ frameFits (ethBytes f) = true ∧
    f.etherType = 0x88B5) ∧
  (∃ (s : State) (p : Lane) (f : EthFrame) (ovr : Bool), s.eLive p.val = true ∧ frameFits (ethBytes f) = true ∧
    f.etherType ≠ 0x88B5 ∧ f.fcsOk = false) ∧
  (∃ (s : State) (p : Lane) (f : EthFrame) (ovr : Bool), s.eLive p.val = true ∧ frameFits (ethBytes f) = true ∧
    f.etherType = 0x8808 ∧ f.fcsOk = true ∧ s.linkUp (engineOf p.val) = true ∧ (s.port p.val).st ≠ .quarantined) ∧
  (∃ (s : State) (p : Lane) (f : EthFrame) (ovr : Bool), s.eLive p.val = true ∧ frameFits (ethBytes f) = true ∧
    f.etherType ≠ 0x88B5 ∧ f.etherType ≠ 0x8808 ∧ f.fcsOk = true ∧ s.linkUp (engineOf p.val) = true ∧ s.ownPtp f =
    false ∧ (s.port p.val).st = .up ∧ ovr = false ∧ s.fnDown (fidTbl (tileOf p.val / 16)) = false) ∧
  (∃ (s : State) (p : Lane) (f : EthFrame) (ovr : Bool), s.eLive p.val = true ∧ frameFits (ethBytes f) = true ∧
    f.etherType ≠ 0x88B5 ∧ f.fcsOk = true ∧ s.linkUp (engineOf p.val) = true ∧ s.ownPtp f = false ∧ (s.port p.val).st
    = .quarantined ∧ ovr = false ∧ s.fnDown (fidTbl (tileOf p.val / 16)) = false) ∧
  (∃ (s : State) (p : Lane), s.eLive p.val = true ∧
    (let t := s.advanceTo (s.port p.val).busyTill; t.idles p.val = false)) ∧
  (∃ (s : State) (p : Lane) (due : Nat), s.fillDue p.val = some due ∧ s.eLive p.val = true ∧
    (let t := (s.advanceTo due).advanceTo (s.port p.val).busyTill; t.idles p.val = false)) :=
  ⟨⟨tPort 0 .up, 0, tTrain, true,
    by and_intros <;> decide +kernel⟩,
   ⟨tPort 0 .up, 0, tTrain,
    by and_intros <;> decide +kernel⟩,
   ⟨tPort 0 .up, 0, tFrame 0x88B5 true, false,
    by and_intros <;> decide +kernel⟩,
   ⟨tPort 0 .up, 0, tFrame 0x0800 false, false,
    by and_intros <;> decide +kernel⟩,
   ⟨tPort 0 .up, 0, tFrame 0x8808 true, false,
    by and_intros <;> decide +kernel⟩,
   ⟨tPort 0 .up, 0, tFrame 0x0800 true, false,
    by and_intros <;> decide +kernel⟩,
   ⟨tPort 0 .quarantined, 0, tFrame 0x8808 true, false,
    by and_intros <;> decide +kernel⟩,
   ⟨tPort 0 .up, 0,
    by dsimp only; and_intros <;> decide +kernel⟩,
   ⟨(tPort 0 .up).setQueue (eqKey 0 7) [tCtrl 0], 0, 0,
    by dsimp only; and_intros <;> decide +kernel⟩⟩

theorem test_meets_CellLookupCompletes :
  (∃ (s : State) (t : Tile) (q : QCell) (before rest : List QCell), s.fnDown (fidTbl (t.val / 16)) = false ∧
    s.nextArrival [] (s.tile t.val).arrivals = some (before, q, rest) ∧ q.cls = clsOrd) ∧
  (∃ (s : State) (t : Tile) (q : QCell) (before rest : List QCell), s.fnDown (fidTbl (t.val / 16)) = false ∧
    s.nextArrival [] (s.tile t.val).arrivals = some (before, q, rest) ∧ (q.cls = clsSched ∨ q.cls = clsFreq ∨ q.cls =
    clsFrsp)) ∧
  (∃ (s : State) (t : Tile) (q : QCell) (before rest : List QCell), s.fnDown (fidTbl (t.val / 16)) = false ∧
    s.nextArrival [] (s.tile t.val).arrivals = some (before, q, rest) ∧ q.cls = clsCode) ∧
  (∃ (s : State) (t : Tile) (q : QCell) (before rest : List QCell), s.fnDown (fidTbl (t.val / 16)) = false ∧
    s.nextArrival [] (s.tile t.val).arrivals = some (before, q, rest) ∧
    (let u := s.setTile t.val fun x => { x with arrivals := before ++ rest }; q.cls = clsCup ∧ (u.ctx
      q.cell.ctx).filter (fun x => x.st.live) = none)) ∧
  (∃ (s : State) (t : Tile) (q : QCell) (before rest : List QCell) (c : _), s.fnDown (fidTbl (t.val / 16)) = false ∧
    s.nextArrival [] (s.tile t.val).arrivals = some (before, q, rest) ∧
    (let u := s.setTile t.val fun x => { x with arrivals := before ++ rest }; q.cls = clsCup ∧ (u.ctx
      q.cell.ctx).filter (fun x => x.st.live) = some c)) ∧
  (∃ (s : State) (t : Tile) (q : QCell) (before rest : List QCell), s.fnDown (fidTbl (t.val / 16)) = false ∧
    s.nextArrival [] (s.tile t.val).arrivals = some (before, q, rest) ∧ q.cls = clsCtrl) ∧
  (∃ (s : State) (t : Tile), s.fnDown (fidTbl (t.val / 16)) = true) :=
  ⟨⟨(tUp).setTile 0 fun x => { x with arrivals := [tSeg] }, 0, tSeg, [], [],
    by and_intros <;> decide +kernel⟩,
   ⟨(tUp).setTile 0 fun x => { x with arrivals := [tCell 0 (.cMode 0) []] }, 0, tCell 0 (.cMode 0) [], [], [],
    by and_intros <;> decide +kernel⟩,
   ⟨(tUp).setTile 0 fun x => { x with arrivals := [tCell 5 (.cMode 0) []] }, 0, tCell 5 (.cMode 0) [], [], [],
    by and_intros <;> decide +kernel⟩,
   ⟨(tUp).setTile 0 fun x => { x with arrivals := [tCell 1 (.cMode 0) []] }, 0, tCell 1 (.cMode 0) [], [], [],
    by dsimp only; and_intros <;> decide +kernel⟩,
   ⟨(tWithCtx (tCtx .active)).setTile 0 fun x => { x with arrivals := [tCell 1 (.cMode 0) []] }, 0, tCell 1 (.cMode 0)
    [], [], [], tCtx .active,
    by dsimp only; and_intros <;> first | decide +kernel | rfl⟩,
   ⟨(tUp).setTile 0 fun x => { x with arrivals := [tCell 7 (.cMode 0) []] }, 0, tCell 7 (.cMode 0) [], [], [],
    by and_intros <;> decide +kernel⟩,
   ⟨{ tUp with fns := [(fidTbl 0, ⟨true, false, false, false⟩)] }, 0,
    by decide +kernel⟩⟩

theorem test_meets_CellAdmissionCompletes :
  (∃ (s : State) (t : Tile) (q : QCell) (rest : List QCell), (s.tile t.val).looked = q :: rest ∧
    (let u := s.setTile t.val fun x => { x with looked := rest }; q.cls = clsOrd ∧ u.frames.aborted.contains q.frame =
      true)) ∧
  (∃ (s : State) (t : Tile) (q : QCell) (rest : List QCell), (s.tile t.val).looked = q :: rest ∧
    (let u := s.setTile t.val fun x => { x with looked := rest };
      (let r := { q with outs := u.liveOuts q }; (¬ (q.cls = clsOrd ∧ u.frames.aborted.contains q.frame = true)) ∧
        r.outs = []))) ∧
  (∃ (s : State) (t : Tile) (q : QCell) (rest : List QCell), (s.tile t.val).looked = q :: rest ∧
    (let u := s.setTile t.val fun x => { x with looked := rest };
      (let r := { q with outs := u.liveOuts q }; (¬ (q.cls = clsOrd ∧ u.frames.aborted.contains q.frame = true)) ∧
        r.outs ≠ [] ∧ r.landed = true ∧ u.aged r = true))) ∧
  (∃ (s : State) (t : Tile) (q : QCell) (rest : List QCell), (s.tile t.val).looked = q :: rest ∧
    (let u := s.setTile t.val fun x => { x with looked := rest };
      (let r := { q with outs := u.liveOuts q }; (¬ (q.cls = clsOrd ∧ u.frames.aborted.contains q.frame = true)) ∧
        r.outs ≠ [] ∧ (r.landed && u.aged r) = false ∧ u.behind t.val r = true))) ∧
  (∃ (s : State) (t : Tile) (q : QCell) (rest : List QCell) (v : _), (s.tile t.val).looked = q :: rest ∧
    (let u := s.setTile t.val fun x => { x with looked := rest };
      (let r := { q with outs := u.liveOuts q }; (¬ (q.cls = clsOrd ∧ u.frames.aborted.contains q.frame = true)) ∧
        r.outs ≠ [] ∧ (r.landed && u.aged r) = false ∧ u.behind t.val r = false ∧ u.place t.val r = (true, v)))) ∧
  (∃ (s : State) (t : Tile) (q : QCell) (rest : List QCell) (v : _), (s.tile t.val).looked = q :: rest ∧
    (let u := s.setTile t.val fun x => { x with looked := rest };
      (let r := { q with outs := u.liveOuts q }; (¬ (q.cls = clsOrd ∧ u.frames.aborted.contains q.frame = true)) ∧
        r.outs ≠ [] ∧ (r.landed && u.aged r) = false ∧ u.behind t.val r = false ∧ u.place t.val r = (false, v)))) ∧
  (∃ (s : State) (t : Nat) (q : QCell) (p : _), (q.src = .cMode p ∨ q.src = .gone p)) ∧
  (∃ (s : State) (t : Nat) (q : QCell), q.src = .generated) ∧
  (∃ (s : State) (t : Nat) (q : QCell) (p : _), q.src = .eMode p) :=
  ⟨⟨{ tTile fun x => { x with looked := [tSeg] } with frames := { tUp.frames with aborted := [0] } }, 0, tSeg, [],
    by dsimp only; and_intros <;> decide +kernel⟩,
   ⟨tTile fun x => { x with looked := [tSeg] }, 0, tSeg, [],
    by dsimp only; and_intros <;> decide +kernel⟩,
   ⟨tTile fun x => { x with looked := [{ tCell 1 (.cMode 0) [.slice 0] with limit := 0 }] }, 0, { tCell 1 (.cMode 0)
    [.slice 0] with limit := 0 }, [],
    by dsimp only; and_intros <;> decide +kernel⟩,
   ⟨tTile fun x => { x with looked := [tCell 1 (.cMode 0) [.slice 0]], landed := [tCell 1 (.cMode 0) [.slice 0]] }, 0,
    tCell 1 (.cMode 0) [.slice 0], [],
    by dsimp only; and_intros <;> decide +kernel⟩,
   ⟨tTile fun x => { x with looked := [tCell 1 .generated [.slice 0]] }, 0, tCell 1 .generated [.slice 0], [],
    (State.place ((tTile fun x => { x with looked := [tCell 1 .generated [.slice 0]] }).setTile 0 fun x => { x with
    looked := [] }) 0 (tCell 1 .generated [.slice 0])).2,
    by dsimp only; and_intros <;> first | exact tPair (by decide +kernel) | decide +kernel⟩,
   ⟨tFull (tCell 1 .generated [.slice 0]), 0, tCell 1 .generated [.slice 0], [], (State.place ((tFull (tCell 1
    .generated [.slice 0])).setTile 0 fun x => { x with looked := [] }) 0 (tCell 1 .generated [.slice 0])).2,
    by dsimp only; and_intros <;> first | exact tPair (by decide +kernel) | decide +kernel⟩,
   ⟨tUp, 0, tCell 1 (.cMode 0) [.slice 0], 0,
    by decide +kernel⟩,
   ⟨tUp, 0, tCell 1 .generated [.slice 0],
    by decide +kernel⟩,
   ⟨tUp, 0, tCell 1 (.eMode 0) [.slice 0], 0,
    by decide +kernel⟩⟩

theorem test_meets_QueueRowsComplete :
  (∃ (s u v : State) (t : Tile) (q : QCell), s.nextHeld t.val = (some q, u) ∧ s.aged q = false ∧ s.liveOuts q ≠ [] ∧
    u.place t.val { q with outs := s.liveOuts q } = (true, v)) ∧
  (∃ (s : State) (t : Tile) (j : Fin 520) (met : List BlockErr),
    (let k := qKey t.val j.val; (s.queue k).length < 64 ∧ s.under k ≠ [] ∧ s.underReady = true)) ∧
  (∃ (s : State) (t : Tile), s.boot.phase ≠ .reset) ∧
  (∃ (s : State), s.fnDown fidXbar = false ∧ s.xbar.ready = true) ∧
  (∃ (s : State), (s.fnDown fidXbar = true ∨ s.xbar.ready = false)) :=
  ⟨⟨tTile fun x => { x with held := [tCell 7 .generated [.slice 0]] }, ((tTile fun x => { x with held := [tCell 7
    .generated [.slice 0]] }).nextHeld 0).2, (State.place ((tTile fun x => { x with held := [tCell 7 .generated
    [.slice 0]] }).nextHeld 0).2 0 (tCell 7 .generated [.slice 0])).2, 0, tCell 7 .generated [.slice 0],
    by and_intros <;> first | exact tPair (by decide +kernel) | decide +kernel⟩,
   ⟨tBridges (tUp.setUnder (qKey 63 519) [tCell 1 .generated []]), 63, 519, [],
    by dsimp only; and_intros <;> decide +kernel⟩,
   ⟨tUp, 63,
    by decide +kernel⟩,
   ⟨{ tUp with xbar := { tUp.xbar with ready := true } },
    by and_intros <;> decide +kernel⟩,
   ⟨tUp,
    by decide +kernel⟩⟩

theorem test_meets_UndertowKeepsOrder :
  (∃ (s u : State) (t : Nat) (q : QCell) (j : _), (s.spillJudge t).judgeAdmit t (queueFor t q) q.cls = (.spill, u) ∧
    (let k := queueFor t q; j ≠ k)) ∧
  (∃ (s v : State) (t : Nat) (q : QCell), s.under (queueFor t q) ≠ [] ∧ s.place t q = (true, v)) ∧
  (∃ (s : State) (t k n : Nat) (j : _), (∀ q ∈ s.under k, q.lost = false ∧ s.aged q = false ∧ ¬ (q.cls = clsOrd ∧
    s.frames.aborted.contains q.frame = true)) ∧ j ≠ k) :=
  ⟨⟨tSpill (qKey 0 (qVoq 0 0)), (((tSpill (qKey 0 (qVoq 0 0))).spillJudge 0).judgeAdmit 0 (queueFor 0 (tCell 0
    .generated [.port 0])) 0).2, 0, tCell 0 .generated [.port 0], 1,
    by dsimp only; and_intros <;> first | exact tPair (by decide +kernel) | decide +kernel⟩,
   ⟨tSpill (qKey 0 (qVoq 0 0)), (State.place (tSpill (qKey 0 (qVoq 0 0))) 0 (tCell 0 .generated [.port 0])).2, 0,
    tCell 0 .generated [.port 0],
    by and_intros <;> first | exact tPair (by decide +kernel) | decide +kernel⟩,
   ⟨tUp.setUnder 0 [tCell 1 .generated []], 0, 0, 1, 1,
    by and_intros <;> decide +kernel⟩⟩

theorem test_meets_TimeAdjustByState :
  (∃ (s : State) (iss : Issuer) (i : Nat) (e : CmdEntry) (flags : Byte) (delta : BitVec 64) (base : BitVec 32), Waits
    s (.timeAdjust iss flags 0 delta base) i e ∧ flags.toNat < 4 ∧
    (let inBounds := decide (-274877906 ≤ base.toInt ∧ base.toInt ≤ 274877906); flags.getLsbD 1 = true ∧ inBounds =
      false)) ∧
  (∃ (s : State) (iss : Issuer) (i : Nat) (e : CmdEntry) (flags : Byte) (delta : BitVec 64) (base : BitVec 32), Waits
    s (.timeAdjust iss flags 0 delta base) i e ∧ flags.toNat < 4 ∧
    (let inBounds := decide (-274877906 ≤ base.toInt ∧ base.toInt ≤ 274877906); (flags.getLsbD 1 = false ∨ inBounds =
      true) ∧ s.fnDown fidTime = false ∧ (s.time.clock = .tracking ∨ s.time.clock = .locked))) ∧
  (∃ (s : State) (iss : Issuer) (i : Nat) (e : CmdEntry) (flags : Byte) (delta : BitVec 64) (base : BitVec 32), Waits
    s (.timeAdjust iss flags 0 delta base) i e ∧ flags.toNat < 4 ∧
    (let inBounds := decide (-274877906 ≤ base.toInt ∧ base.toInt ≤ 274877906); (flags.getLsbD 1 = false ∨ inBounds =
      true) ∧ s.fnDown fidTime = false ∧ (s.time.clock = .unset ∨ s.time.clock = .holdover ∨ s.time.clock = .host))) :=
  ⟨⟨tCmd (.timeAdjust tIss 2 0 0 (274877907)) tUp, tIss, 0, tEntry (.timeAdjust tIss 2 0 0 (274877907)), 2, 0,
    274877907,
    by dsimp only; and_intros <;> first | exact tWaits _ _ rfl rfl | decide +kernel⟩,
   ⟨tCmd (.timeAdjust tIss 2 0 0 (274877906)) ({ tUp with time := { tUp.time with clock := .locked } }), tIss, 0,
    tEntry (.timeAdjust tIss 2 0 0 (274877906)), 2, 0, 274877906,
    by dsimp only; and_intros <;> first | exact tWaits _ _ rfl rfl | decide +kernel⟩,
   ⟨tCmd (.timeAdjust tIss 3 0 0 (-274877906)) tUp, tIss, 0, tEntry (.timeAdjust tIss 3 0 0 (-274877906)), 3, 0,
    -274877906,
    by dsimp only; and_intros <;> first | exact tWaits _ _ rfl rfl | decide +kernel⟩⟩

theorem test_meets_TimeCommandsComplete :
  (∃ (s : State) (iss : Issuer) (i : Nat) (e : CmdEntry) (flags : Byte) (delta : BitVec 64) (base : BitVec 32), Waits
    s (.timeAdjust iss flags 0 delta base) i e ∧ flags.toNat < 4 ∧ (flags.getLsbD 1 = false ∨ (-baseMax ≤ base.toInt ∧
    base.toInt ≤ baseMax)) ∧ s.fnDown fidTime = false ∧ (s.time.clock = .unset ∨ s.time.clock = .holdover ∨
    s.time.clock = .host) ∧ flags.getLsbD 0 = false) ∧
  (∃ (s : State) (iss : Issuer) (i : Nat) (e : CmdEntry) (flags : Byte) (delta : BitVec 64) (base : BitVec 32)
    (stepped v : _), Waits s (.timeAdjust iss flags 0 delta base) i e ∧ flags.toNat < 4 ∧
    (let u : State := { s with time := { s.time with clock := .host, base := if flags.getLsbD 1 then base.toInt else s.time.base } };
      (flags.getLsbD 1 = false ∨ (-baseMax ≤ base.toInt ∧ base.toInt ≤ baseMax)) ∧ s.fnDown fidTime = false ∧
      (s.time.clock = .unset ∨ s.time.clock = .holdover ∨ s.time.clock = .host) ∧ flags.getLsbD 0 = true ∧ u.correct
      (delta.toInt * 2 ^ 40) = (stepped, v))) ∧
  (∃ (s : State) (iss : Issuer) (i : Nat) (e : CmdEntry), Waits s (.timeRead iss) i e ∧ s.fnDown fidTime = false) ∧
  (∃ (s : State) (iss : Issuer) (i : Nat) (e : CmdEntry) (domain flags a b c p1 p2 : Byte) (asym : List (BitVec 16 ×
    BitVec 48)), Waits s (.ptpConfig iss domain flags a b c p1 p2 0 asym) i e ∧ (asym.map fun x => x.1.toNat).Nodup ∧
    (∀ x ∈ asym, x.1.toNat ∈ s.sources) ∧ asym.length = s.sources.length ∧ s.fnDown fidTime = false ∧ flags.toNat < 4
    ∧ (logOk a 2).1 = true ∧ (logOk b 3).1 = true ∧ (logOk c 4).1 = true) ∧
  (∃ (s : State) (iss : Issuer) (i : Nat) (e : CmdEntry) (first count : Byte), Waits s (.tsQueueRead iss first count
    0) i e ∧ 1 ≤ count.toNat ∧ count.toNat ≤ 16 ∧ first.toNat + count.toNat ≤ 64 ∧
    (let ts := rangeFrom first.toNat count.toNat; (∀ t ∈ ts, s.fnDown (fidTile t) = false))) ∧
  (∃ (s : State) (iss : Issuer) (i : Nat) (e : CmdEntry) (lane ident : BitVec 16) (flags : Byte) (t : BitVec 64) (data
    : List Byte), Waits s (.timedLaunch iss lane ident flags 0 t (BitVec.ofNat 16 data.length) 0 data) i e ∧
    s.configured lane.toNat = true ∧ flags.toNat < 2 ∧ s.startingReceipt i + 2000 ≤ t.toNat ∧ t.toNat ≤
    s.startingReceipt i + 10000000000 ∧ s.schedWindow lane.toNat t.toNat = none ∧ (∀ f ∈ s.timeFailed, s.fnDown f =
    false) ∧ s.fnDown (fidTile (tileOf lane.toNat)) = false ∧ (s.launches (tileOf lane.toNat)).length < 4096 ∧ s.isC
    lane.toNat = false ∧ 60 ≤ data.length ∧ data.length ≤ 8928) ∧
  (∃ (s : State) (iss : Issuer) (i : Nat) (e : CmdEntry) (lane ident : BitVec 16) (flags : Byte) (t : BitVec 64) (data
    : List Byte), Waits s (.timedLaunch iss lane ident flags 0 t (BitVec.ofNat 16 data.length) 0 data) i e ∧
    s.configured lane.toNat = true ∧ flags.toNat < 2 ∧ s.startingReceipt i + 2000 ≤ t.toNat ∧ t.toNat ≤
    s.startingReceipt i + 10000000000 ∧ s.schedWindow lane.toNat t.toNat = none ∧ (∀ f ∈ s.timeFailed, s.fnDown f =
    false) ∧ s.fnDown (fidTile (tileOf lane.toNat)) = false ∧ (s.launches (tileOf lane.toNat)).length < 4096 ∧ s.isC
    lane.toNat = true ∧ data.length % 80 = 0 ∧ 80 ≤ data.length ∧ data.length ≤ 8880) ∧
  (∃ (s : State) (sl : Slew), s.time.slew = some sl) ∧
  (∃ (s : State), s.time.clock ≠ .unset ∧ s.boot.phase ≠ .reset) ∧
  (∃ (s : State), s.pins.ppsOut = true) ∧
  (∃ (s : State) (p : Lane) (k : PtpKind), s.boot.phase = .done ∧ s.fnDown fidTime = false ∧ s.mayPtp p.val k = true) ∧
  (∃ (s : State) (p : Lane) (m : PtpMsg), s.boot.phase = .done ∧ s.fnDown fidTime = false ∧ s.hearsPort p.val = true ∧
    s.runsPtp p.val = true ∧ m.domain.toNat = s.ptp.config.domain ∧ m.kind = .delayReq) ∧
  (∃ (s : State) (p : Lane) (m : PtpMsg), s.boot.phase = .done ∧ s.fnDown fidTime = false ∧ s.hearsPort p.val = true ∧
    s.runsPtp p.val = true ∧ m.domain.toNat = s.ptp.config.domain ∧ m.kind = .announce ∧ s.sources.contains p.val =
    true) ∧
  (∃ (s : State) (p : Lane) (m : PtpMsg), s.boot.phase = .done ∧ s.fnDown fidTime = false ∧ s.hearsPort p.val = true ∧
    s.runsPtp p.val = true ∧ m.domain.toNat = s.ptp.config.domain ∧ m.kind = .sync ∧ s.sources.contains p.val = true ∧
    m.twoStep = false) ∧
  (∃ (s : State) (p : Lane) (m : PtpMsg), s.boot.phase = .done ∧ s.fnDown fidTime = false ∧ s.hearsPort p.val = true ∧
    s.runsPtp p.val = true ∧ m.domain.toNat = s.ptp.config.domain ∧ m.kind = .sync ∧ s.sources.contains p.val = true ∧
    m.twoStep = true) ∧
  (∃ (s : State) (p : Lane) (m : PtpMsg) (q t2 c : _), s.boot.phase = .done ∧ s.fnDown fidTime = false ∧ s.hearsPort
    p.val = true ∧ s.runsPtp p.val = true ∧ m.domain.toNat = s.ptp.config.domain ∧ m.kind = .followUp ∧ (s.ptpPort
    p.val).sync = some (q, t2, c) ∧ s.sources.contains p.val = true ∧ q = m.seq) ∧
  (∃ (s : State) (b : Bool) (p : Nat) (d : BitVec 64), s.ptp.selected = some (p, d)) ∧
  (∃ (s : State) (t : Tile) (l : Launch) (rest : List Launch) (e : _), s.launches t.val = l :: rest ∧
    (let u := s.advancePtp l.at_; u.schedWindow l.lane l.at_ = some e)) ∧
  (∃ (s : State) (t : Tile) (l : Launch) (rest : List Launch), s.launches t.val = l :: rest ∧
    (let u := s.advancePtp l.at_; u.schedWindow l.lane l.at_ = none ∧ (u.setLaunches t.val rest).portUp l.lane =
      true)) ∧
  (∃ (s : State) (t : Tile) (l : Launch) (rest : List Launch), s.launches t.val = l :: rest ∧
    (let u := s.advancePtp l.at_; u.schedWindow l.lane l.at_ = none ∧ (u.setLaunches t.val rest).portUp l.lane =
      false)) :=
  ⟨⟨tCmd (.timeAdjust tIss 2 0 0 (-274877906)) tUp, tIss, 0, tEntry (.timeAdjust tIss 2 0 0 (-274877906)), 2, 0,
    -274877906,
    by and_intros <;> first | exact tWaits _ _ rfl rfl | decide +kernel⟩,
   ⟨tCmd (.timeAdjust tIss 1 0 5 (0)) tUp, tIss, 0, tEntry (.timeAdjust tIss 1 0 5 (0)), 1, 5, 0, ((tHost (tCmd
    (.timeAdjust tIss 1 0 5 (0)) tUp)).correct 5497558138880).1, ((tHost (tCmd (.timeAdjust tIss 1 0 5 (0))
    tUp)).correct 5497558138880).2,
    by dsimp only; and_intros <;> first | exact tWaits _ _ rfl rfl | decide +kernel | rfl⟩,
   ⟨tCmd (.timeRead tIss) tUp, tIss, 0, tEntry (.timeRead tIss),
    by and_intros <;> first | exact tWaits _ _ rfl rfl | decide +kernel⟩,
   ⟨tCmd (.ptpConfig tIss 0 3 0xFC 0 0xFC 128 128 0 []) tUp, tIss, 0, tEntry (.ptpConfig tIss 0 3 0xFC 0 0xFC 128 128
    0 []), 0, 3, 0xFC, 0, 0xFC, 128, 128, [],
    by and_intros <;> first | exact tWaits _ _ rfl rfl | (intro x h; cases h; done) | decide +kernel⟩,
   ⟨tCmd (.tsQueueRead tIss 48 16 0) tUp, tIss, 0, tEntry (.tsQueueRead tIss 48 16 0), 48, 16,
    by dsimp only; and_intros <;> first | exact tWaits _ _ rfl rfl | decide +kernel⟩,
   ⟨tCmd (.timedLaunch tIss 0 9 1 0 2000 (BitVec.ofNat 16 (List.replicate 60 0).length) 0 (List.replicate 60 0))
    (tPort 0 .up), tIss, 0, tEntry (.timedLaunch tIss 0 9 1 0 2000 (BitVec.ofNat 16 (List.replicate 60 0).length) 0
    (List.replicate 60 0)), 0, 9, 1, 2000, (List.replicate 60 0),
    by and_intros <;> first | exact tWaits _ _ rfl rfl | decide +kernel⟩,
   ⟨tCmd (.timedLaunch tIss 0 9 1 0 2000 (BitVec.ofNat 16 (List.replicate 80 0).length) 0 (List.replicate 80 0))
    (tPort 128 .up), tIss, 0, tEntry (.timedLaunch tIss 0 9 1 0 2000 (BitVec.ofNat 16 (List.replicate 80 0).length) 0
    (List.replicate 80 0)), 0, 9, 1, 2000, (List.replicate 80 0),
    by and_intros <;> first | exact tWaits _ _ rfl rfl | decide +kernel⟩,
   ⟨{ tUp with time := { tUp.time with slew := some ⟨5, 1⟩ } }, ⟨5, 1⟩,
    by decide +kernel⟩,
   ⟨{ tUp with time := { tUp.time with clock := .host } },
    by and_intros <;> decide +kernel⟩,
   ⟨{ tUp with pins := { tUp.pins with ppsOut := true } },
    by decide +kernel⟩,
   ⟨tSource, 0, .pdelayReq,
    by and_intros <;> decide +kernel⟩,
   ⟨tSource, 0, tMsg .delayReq false,
    by and_intros <;> decide +kernel⟩,
   ⟨tSource, 0, tMsg .announce false,
    by and_intros <;> decide +kernel⟩,
   ⟨tSource, 0, tMsg .sync false,
    by and_intros <;> decide +kernel⟩,
   ⟨tSource, 0, tMsg .sync true,
    by and_intros <;> decide +kernel⟩,
   ⟨{ tSource with ptp := { tSource.ptp with ports := [(0, { PtpPort.init with sync := some (0, 0, 0) })] } }, 0, tMsg
    .followUp false, 0, 0, 0,
    by and_intros <;> decide +kernel⟩,
   ⟨tSource, false, 0, 0,
    by decide +kernel⟩,
   ⟨(tTide ⟨0, 1024, 1, false, false, 0, 0, 0⟩).setLaunches 0 [⟨0, 1, false, 5, [], [], 0⟩], 0, ⟨0, 1, false, 5, [],
    [], 0⟩, [], 1024,
    by dsimp only; and_intros <;> decide +kernel⟩,
   ⟨(tPort 0 .up).setLaunches 0 [⟨0, 1, false, 5, [], [], 0⟩], 0, ⟨0, 1, false, 5, [], [], 0⟩, [],
    by dsimp only; and_intros <;> decide +kernel⟩,
   ⟨tUp.setLaunches 0 [⟨0, 1, false, 5, [], [], 0⟩], 0, ⟨0, 1, false, 5, [], [], 0⟩, [],
    by dsimp only; and_intros <;> decide +kernel⟩⟩

theorem test_meets_ClockMovesForward : ∃ (s : State) (ns : Nat), ns < 2 ^ 64 :=
  ⟨tUp, 5,
    by decide +kernel⟩

theorem test_meets_TideCommandsComplete :
  (∃ (s : State) (iss : Issuer) (i : Nat) (e : CmdEntry) (handle : BitVec 16) (met : List BlockErr) (o : Obj) (ps :
    _), Waits s (.tideLoad iss handle 0 met) i e ∧ s.objOf (s.slot i).number handle.toNat = some o ∧ s.objBusy
    handle.toNat = false ∧ o.sealed = true ∧ o.type = 3 ∧ (s.readObject handle.toNat 0 o.length met).1 = false ∧ (∀ f
    ∈ s.timeFailed, s.fnDown f = false) ∧ s.tide.commit = none ∧
    (let u := (s.readObject handle.toNat 0 o.length met).2; u.tideSet o = .inr ps)) ∧
  (∃ (s : State) (iss : Issuer) (i : Nat) (e : CmdEntry) (handle : BitVec 16) (met : List BlockErr) (o : Obj) (f : _),
    Waits s (.tideLoad iss handle 0 met) i e ∧ s.objOf (s.slot i).number handle.toNat = some o ∧ s.objBusy
    handle.toNat = false ∧ o.sealed = true ∧ o.type = 3 ∧ (s.readObject handle.toNat 0 o.length met).1 = false ∧ (∀ f
    ∈ s.timeFailed, s.fnDown f = false) ∧ s.tide.commit = none ∧
    (let u := (s.readObject handle.toNat 0 o.length met).2; u.tideSet o = .inl f)) ∧
  (∃ (s u : State) (iss : Issuer) (i : Nat) (e : CmdEntry) (lane : BitVec 16) (t : TidePort) (h : Nat), Waits s
    (.tideRead iss 0 0 lane) i e ∧ s.configured lane.toNat = true ∧ s.tide.active.find lane.toNat = some t ∧
    s.resultObject (s.slot i).number t.encode = some (h, u)) ∧
  (∃ (s : State) (iss : Issuer) (i : Nat) (e : CmdEntry) (flags : Byte) (a : BitVec 64) (ps : List TidePort), Waits s
    (.tideCommit iss flags 0 a) i e ∧ flags.toNat < 2 ∧ s.fnDown fidTime = false ∧ s.tide.commit = none ∧
    s.tide.staged = some ps) ∧
  (∃ (s : State) (iss : Issuer) (i : Nat) (e : CmdEntry) (ps : List TidePort), Waits s (.tideCancel iss) i e ∧
    s.tide.commit = none ∧ s.tide.staged = some ps) ∧
  (∃ (s : State) (c : Commit) (set : List TidePort), s.tide.commit = some c ∧ s.tide.staged = some set ∧ c.checked =
    false ∧ s.tide.spoilt = true) ∧
  (∃ (s : State) (c : Commit) (set : List TidePort) (pos why : _), s.tide.commit = some c ∧ s.tide.staged = some set ∧
    c.checked = false ∧ s.tide.spoilt = false ∧ ((enginesOf (s.tablesAfter set)).all fun e => sameK (s.tablesAfter
    set) e) = true ∧ (enginesOf (s.tablesAfter set)).findSome? (s.causewayCheck (s.tablesAfter set)) = none ∧
    s.deadline (s.tablesAfter set) = some (pos, why)) ∧
  (∃ (s : State) (c : Commit) (set : List TidePort) (w ws : _), s.tide.commit = some c ∧ s.tide.staged = some set ∧
    c.checked = false ∧ s.tide.spoilt = false ∧ ((enginesOf (s.tablesAfter set)).all fun e => sameK (s.tablesAfter
    set) e) = true ∧ (enginesOf (s.tablesAfter set)).findSome? (s.causewayCheck (s.tablesAfter set)) = none ∧
    s.deadline (s.tablesAfter set) = none ∧
    (let a := if c.immediate then s.ptpNs else c.a; s.boundaries set (max a s.ptpNs) = w :: ws)) ∧
  (∃ (s : State) (c : Commit) (p : Lane) (t : TidePort) (at_ : Nat) (w : TidePort × Nat) (ws : List (TidePort × Nat)),
    s.tide.commit = some c ∧ c.waiting.find? (fun w => decide (w.1.lane = p.val)) = some (t, at_) ∧ c.waiting.filter
    (fun w => decide (w.1.lane ≠ p.val)) = w :: ws ∧ t.k ≠ 0 ∧ (((w :: ws).any fun w => decide (w.2 = at_ ∧ engineOf
    w.1.lane = engineOf p.val)) = true)) ∧
  (∃ (s : State) (p : Lane) (tp : TidePort) (t : Nat) (ts : List Nat), s.tide.active.find p.val = some tp ∧
    ((tp.windows.flatMap fun w => [w.start, w.start + w.len]).map fun e => nextAt tp.k e (s.ptpNs + 1)) = t :: ts) :=
  ⟨⟨tCmd (.tideLoad tIss 5 0 []) (tHas (tObj 3 24 [(0, 1), (3, 1), (18, 10)]) (tPort 0 .up)), tIss, 0, tEntry
    (.tideLoad tIss 5 0 []), 5, [], tObj 3 24 [(0, 1), (3, 1), (18, 10)], [⟨0, 10, []⟩],
    by dsimp only; and_intros <;> first | exact tWaits _ _ rfl rfl | decide +kernel | rfl⟩,
   ⟨tCmd (.tideLoad tIss 5 0 []) (tHas (tObj 3 0 []) tUp), tIss, 0, tEntry (.tideLoad tIss 5 0 []), 5, [], tObj 3 0
    [], 0xFFFF,
    by dsimp only; and_intros <;> first | exact tWaits _ _ rfl rfl | decide +kernel | rfl⟩,
   ⟨tCmd (.tideRead tIss 0 0 0) ({ tPort 0 .up with tide := { tUp.tide with active := [(0, ⟨0, 10, []⟩)] } }), (((tCmd
    (.tideRead tIss 0 0 0) ({ tPort 0 .up with tide := { tUp.tide with active := [(0, ⟨0, 10, []⟩)] } })).resultObject
    1 (TidePort.encode ⟨0, 10, []⟩)).getD (0, tUp)).2, tIss, 0, tEntry (.tideRead tIss 0 0 0), 0, ⟨0, 10, []⟩, (((tCmd
    (.tideRead tIss 0 0 0) ({ tPort 0 .up with tide := { tUp.tide with active := [(0, ⟨0, 10, []⟩)] } })).resultObject
    1 (TidePort.encode ⟨0, 10, []⟩)).getD (0, tUp)).1,
    by and_intros <;> first | exact tWaits _ _ rfl rfl | decide +kernel | rfl⟩,
   ⟨tCmd (.tideCommit tIss 1 0 0) ({ tUp with tide := { tUp.tide with staged := some [] } }), tIss, 0, tEntry
    (.tideCommit tIss 1 0 0), 1, 0, [],
    by and_intros <;> first | exact tWaits _ _ rfl rfl | decide +kernel⟩,
   ⟨tCmd (.tideCancel tIss) ({ tUp with tide := { tUp.tide with staged := some [] } }), tIss, 0, tEntry (.tideCancel
    tIss), [],
    by and_intros <;> first | exact tWaits _ _ rfl rfl | decide +kernel⟩,
   ⟨{ tCommit ⟨0, true, 1, 7, false, [], 0, 0⟩ [] with tide := { (tCommit ⟨0, true, 1, 7, false, [], 0, 0⟩ []).tide
    with spoilt := true } }, ⟨0, true, 1, 7, false, [], 0, 0⟩, [],
    by and_intros <;> decide +kernel⟩,
   ⟨tCommit ⟨0, true, 1, 7, false, [], 0, 0⟩ [⟨0, 10, [⟨0, 0, 1, false, false, 0, 80, 3⟩]⟩], ⟨0, true, 1, 7, false,
    [], 0, 0⟩, [⟨0, 10, [⟨0, 0, 1, false, false, 0, 80, 3⟩]⟩], (((tCommit ⟨0, true, 1, 7, false, [], 0, 0⟩ [⟨0, 10,
    [⟨0, 0, 1, false, false, 0, 80, 3⟩]⟩]).deadline ((tCommit ⟨0, true, 1, 7, false, [], 0, 0⟩ [⟨0, 10, [⟨0, 0, 1,
    false, false, 0, 80, 3⟩]⟩]).tablesAfter [⟨0, 10, [⟨0, 0, 1, false, false, 0, 80, 3⟩]⟩])).getD (0, 0)).1,
    (((tCommit ⟨0, true, 1, 7, false, [], 0, 0⟩ [⟨0, 10, [⟨0, 0, 1, false, false, 0, 80, 3⟩]⟩]).deadline ((tCommit ⟨0,
    true, 1, 7, false, [], 0, 0⟩ [⟨0, 10, [⟨0, 0, 1, false, false, 0, 80, 3⟩]⟩]).tablesAfter [⟨0, 10, [⟨0, 0, 1,
    false, false, 0, 80, 3⟩]⟩])).getD (0, 0)).2,
    by and_intros <;> first | decide +kernel | rfl⟩,
   ⟨tCommit ⟨0, true, 1, 7, false, [], 0, 0⟩ [⟨0, 10, []⟩], ⟨0, true, 1, 7, false, [], 0, 0⟩, [⟨0, 10, []⟩], (⟨0, 10,
    []⟩, nextAt 10 0 0), [],
    by dsimp only; and_intros <;> first | decide +kernel | rfl⟩,
   ⟨tCommit ⟨0, true, 1, 7, true, [(⟨0, 10, []⟩, 1024), (⟨1, 10, []⟩, 1024)], 1024, 2⟩ [], ⟨0, true, 1, 7, true, [(⟨0,
    10, []⟩, 1024), (⟨1, 10, []⟩, 1024)], 1024, 2⟩, 0, ⟨0, 10, []⟩, 1024, (⟨1, 10, []⟩, 1024), [],
    by and_intros <;> decide +kernel⟩,
   ⟨tTide ⟨0, 100, 0, false, false, 0, 0, 0⟩, 0, ⟨0, 10, [⟨0, 100, 0, false, false, 0, 0, 0⟩]⟩, nextAt 10 0 1, [nextAt
    10 100 1],
    by and_intros <;> decide +kernel⟩⟩

theorem test_meets_CausewayCompletes :
  (∃ (s : State) (iss : Issuer) (i : Nat) (e : CmdEntry) (engine : Byte), Waits s (.cswStatus iss engine 0) i e ∧
    engine.toNat < 16 ∧ s.fnDown (fidOe engine.toNat) = false) ∧
  (∃ (s : State) (iss : Issuer) (i : Nat) (e : CmdEntry) (mask a b : Byte), a.toNat / 16 = b.toNat / 16 ∧ a ≠ b ∧
    s.fnDown (fidOe (a.toNat / 16)) = false ∧ (s.entry a.toNat).state = 1 ∧ (s.entry b.toNat).state = 1 ∧ s.scheduled
    (a.toNat / 16) = false ∧ (∀ l, s.layout a.toNat = some l → maskWhole l mask.toNat = true) ∧ (∀ l, s.layout b.toNat
    = some l → maskWhole l mask.toNat = true) ∧ Waits s (.cswCircuit iss 0 mask a b) i e) ∧
  (∃ (s : State) (iss : Issuer) (i : Nat) (e : CmdEntry) (mask a b : Byte), a.toNat / 16 = b.toNat / 16 ∧ a ≠ b ∧
    s.fnDown (fidOe (a.toNat / 16)) = false ∧ (s.entry a.toNat).state = 1 ∧ (s.entry b.toNat).state = 1 ∧ s.scheduled
    (a.toNat / 16) = false ∧ (∀ l, s.layout a.toNat = some l → maskWhole l mask.toNat = true) ∧ (∀ l, s.layout b.toNat
    = some l → maskWhole l mask.toNat = true) ∧
    (let c : CircuitEntry := ⟨mask.toNat, a.toNat, b.toNat⟩; Waits s (.cswCircuit iss 1 mask a b) i e ∧ (∀ l ∈
      c.lanes, s.csw.lanes.contains l = false) ∧
      (let set := c.paths.map fun p => (p.1, CswPath.set (p.2 % 16) true 0); set = []))) ∧
  (∃ (s : State) (iss : Issuer) (i : Nat) (e : CmdEntry) (mask a b : Byte), a.toNat / 16 = b.toNat / 16 ∧ a ≠ b ∧
    s.fnDown (fidOe (a.toNat / 16)) = false ∧ (s.entry a.toNat).state = 1 ∧ (s.entry b.toNat).state = 1 ∧ s.scheduled
    (a.toNat / 16) = false ∧ (∀ l, s.layout a.toNat = some l → maskWhole l mask.toNat = true) ∧ (∀ l, s.layout b.toNat
    = some l → maskWhole l mask.toNat = true) ∧
    (let c : CircuitEntry := ⟨mask.toNat, a.toNat, b.toNat⟩; Waits s (.cswCircuit iss 1 mask a b) i e ∧ (∀ l ∈
      c.lanes, s.csw.lanes.contains l = false) ∧
      (let set := c.paths.map fun p => (p.1, CswPath.set (p.2 % 16) true 0); set ≠ []))) ∧
  (∃ (s : State) (l : Lane), (s.lane l.val).diverted = false ∧ s.divLeft l.val s.ptpNs ≠ []) ∧
  (∃ (s : State) (l : Lane) (t : _), (s.lane l.val).diverted = false ∧ s.divLeft l.val s.ptpNs = [] ∧ earliest
    ((s.divOf l.val).map fun d => nextAt d.1 d.2.1 s.ptpNs) = some t) ∧
  (∃ (s : State) (l : Lane) (b : Bool), (s.lane l.val).diverted = true ∧ s.csw.lanes.contains l.val = false ∧
    s.divLeft l.val s.ptpNs = []) ∧
  (∃ (s : State) (e : Engine), s.fnDown (fidOe e.val) = false ∧ (s.oe e.val).ready = true) ∧
  (∃ (s : State) (e : Engine) (cap : List (Fin 2304 × BitVec 12)) (at_ : Nat), s.csw.changes.find e.val = some at_ ∧
    at_ + 40000 < 2 ^ 64) ∧
  (∃ (s : State) (e : Engine) (p : Fin 128) (x : CswPath), s.csw.paths.find (128 * e.val + p.val) = some x ∧ x.st =
    .opened) ∧
  (∃ (s : State) (e : Engine) (p : Fin 128) (x : CswPath), s.csw.paths.find (128 * e.val + p.val) = some x ∧ x.st =
    .dark ∧ s.boot.phase ≠ .reset) ∧
  (∃ (s : State) (e : Engine) (p : Fin 128) (x : CswPath) (win : PilotWindow), s.csw.paths.find (128 * e.val + p.val)
    = some x ∧
    (let right := confirms win x.window.2; x.st = .waitPilot ∧ right = true)) ∧
  (∃ (s : State) (e : Engine) (p : Fin 128) (x : CswPath) (win : PilotWindow), s.csw.paths.find (128 * e.val + p.val)
    = some x ∧
    (let right := confirms win x.window.2; x.st = .waitPilot ∧ right = false)) ∧
  (∃ (s : State) (e : Engine) (p : Fin 128) (x : CswPath) (win : PilotWindow), s.csw.paths.find (128 * e.val + p.val)
    = some x ∧
    (let right := confirms win x.window.2; x.st = .opened ∧ right = true)) ∧
  (∃ (s : State) (e : Engine) (p : Fin 128) (x : CswPath) (win : PilotWindow), s.csw.paths.find (128 * e.val + p.val)
    = some x ∧
    (let right := confirms win x.window.2; x.st = .opened ∧ right = false ∧ clearWin win = true)) ∧
  (∃ (s : State) (e : Engine) (p : Fin 128) (x : CswPath) (win : PilotWindow), s.csw.paths.find (128 * e.val + p.val)
    = some x ∧ x.st = .opened ∧ clearWin win = false ∧ x.fails = 0) ∧
  (∃ (s : State) (e : Engine) (p : Fin 128) (x : CswPath) (win : PilotWindow), s.csw.paths.find (128 * e.val + p.val)
    = some x ∧ x.st = .opened ∧ clearWin win = false ∧ x.fails ≠ 0) ∧
  (∃ (s : State) (e : Engine) (p : Fin 128) (x : CswPath) (g : CswPath → CswPath), s.csw.paths.find (128 * e.val +
    p.val) = some x ∧ ((g x).st = x.st ∨ x.st ≠ .opened)) ∧
  (∃ (s : State) (e : Engine) (p : Fin 128) (x : CswPath) (g : CswPath → CswPath), s.csw.paths.find (128 * e.val +
    p.val) = some x ∧ x.st = .opened ∧ (g x).st ≠ .opened) :=
  ⟨⟨tCmd (.cswStatus tIss 15 0) tUp, tIss, 0, tEntry (.cswStatus tIss 15 0), 15,
    by and_intros <;> first | exact tWaits _ _ rfl rfl | decide +kernel⟩,
   ⟨tCmd (.cswCircuit tIss 0 1 0 1) ({ tUp with plan := some ⟨0, 0, 0, [(0, ⟨1, 0, 0, 0, 128⟩), (1, ⟨1, 1, 0, 0,
    128⟩)], [], [], []⟩ }), tIss, 0, tEntry (.cswCircuit tIss 0 1 0 1), 1, 0, 1,
    by and_intros <;> first | exact tWaits _ _ rfl rfl | decide +kernel | (intro l h; injection h with h; subst h; decide +kernel)⟩,
   ⟨tCmd (.cswCircuit tIss 1 0 0 1) ({ tUp with plan := some ⟨0, 0, 0, [(0, ⟨1, 0, 0, 0, 128⟩), (1, ⟨1, 1, 0, 0,
    128⟩)], [], [], []⟩ }), tIss, 0, tEntry (.cswCircuit tIss 1 0 0 1), 0, 0, 1,
    by dsimp only; and_intros <;> first | exact tWaits _ _ rfl rfl | decide +kernel | (intro l h; injection h with h; subst h; decide +kernel)⟩,
   ⟨tCmd (.cswCircuit tIss 1 1 0 1) ({ tUp with plan := some ⟨0, 0, 0, [(0, ⟨1, 0, 0, 0, 128⟩), (1, ⟨1, 1, 0, 0,
    128⟩)], [], [], []⟩ }), tIss, 0, tEntry (.cswCircuit tIss 1 1 0 1), 1, 0, 1,
    by dsimp only; and_intros <;> first | exact tWaits _ _ rfl rfl | decide +kernel | (intro l h; injection h with h; subst h; decide +kernel)⟩,
   ⟨tTide ⟨0, 1023, 0, false, true, 256, 0, 0⟩, 0,
    by and_intros <;> decide +kernel⟩,
   ⟨{ tPort 128 .up with tide := { tUp.tide with active := [(0, ⟨0, 13, [⟨6000, 100, 0, false, true, 256, 0, 0⟩]⟩)] }
    }, 0, 2000,
    by and_intros <;> decide +kernel⟩,
   ⟨tUp.setLane 0 fun x => { x with diverted := true }, 0, true,
    by and_intros <;> decide +kernel⟩,
   ⟨tUp.setOe 15 fun x => { x with ready := true }, 15,
    by and_intros <;> decide +kernel⟩,
   ⟨{ tUp with csw := ⟨[], [(0, 5)], [], [], []⟩ }, 0, [], 5,
    by and_intros <;> decide +kernel⟩,
   ⟨{ tUp with csw := ⟨[(0, ⟨.opened, 0, 0, true, 0, 0, false, (5, 0)⟩)], [], [], [], []⟩ }, 0, 0, ⟨.opened, 0, 0,
    true, 0, 0, false, (5, 0)⟩,
    by and_intros <;> decide +kernel⟩,
   ⟨{ tUp with csw := ⟨[(0, ⟨.dark, 0, 0, true, 0, 0, false, (5, 0)⟩)], [], [], [], []⟩ }, 0, 0, ⟨.dark, 0, 0, true,
    0, 0, false, (5, 0)⟩,
    by and_intros <;> decide +kernel⟩,
   ⟨{ tUp with csw := ⟨[(0, ⟨.waitPilot, 0, 0, true, 0, 0, false, (5, 0)⟩)], [], [], [], []⟩ }, 0, 0, ⟨.waitPilot, 0,
    0, true, 0, 0, false, (5, 0)⟩, tDepths (some 0),
    by dsimp only; and_intros <;> decide +kernel⟩,
   ⟨{ tUp with csw := ⟨[(0, ⟨.waitPilot, 0, 0, true, 0, 0, false, (5, 0)⟩)], [], [], [], []⟩ }, 0, 0, ⟨.waitPilot, 0,
    0, true, 0, 0, false, (5, 0)⟩, tDepths none,
    by dsimp only; and_intros <;> decide +kernel⟩,
   ⟨{ tUp with csw := ⟨[(0, ⟨.opened, 0, 0, true, 0, 0, false, (5, 0)⟩)], [], [], [], []⟩ }, 0, 0, ⟨.opened, 0, 0,
    true, 0, 0, false, (5, 0)⟩, tDepths (some 0),
    by dsimp only; and_intros <;> decide +kernel⟩,
   ⟨{ tUp with csw := ⟨[(0, ⟨.opened, 0, 0, true, 0, 0, false, (5, 0)⟩)], [], [], [], []⟩ }, 0, 0, ⟨.opened, 0, 0,
    true, 0, 0, false, (5, 0)⟩, tDepths (some 1),
    by dsimp only; and_intros <;> decide +kernel⟩,
   ⟨{ tUp with csw := ⟨[(0, ⟨.opened, 0, 0, true, 0, 0, false, (5, 0)⟩)], [], [], [], []⟩ }, 0, 0, ⟨.opened, 0, 0,
    true, 0, 0, false, (5, 0)⟩, tDepths none,
    by and_intros <;> decide +kernel⟩,
   ⟨{ tUp with csw := ⟨[(0, ⟨.opened, 0, 0, true, 0, 1, false, (5, 0)⟩)], [], [], [], []⟩ }, 0, 0, ⟨.opened, 0, 0,
    true, 0, 1, false, (5, 0)⟩, tDepths none,
    by and_intros <;> decide +kernel⟩,
   ⟨{ tUp with csw := ⟨[(0, ⟨.opened, 0, 0, true, 0, 0, false, (5, 0)⟩)], [], [], [], []⟩ }, 0, 0, ⟨.opened, 0, 0,
    true, 0, 0, false, (5, 0)⟩, id,
    by and_intros <;> decide +kernel⟩,
   ⟨{ tUp with csw := ⟨[(0, ⟨.opened, 0, 0, true, 0, 0, false, (5, 0)⟩)], [], [], [], []⟩ }, 0, 0, ⟨.opened, 0, 0,
    true, 0, 0, false, (5, 0)⟩, fun y => { y with st := .dark },
    by and_intros <;> decide +kernel⟩⟩

theorem test_meets_SwellCompletes :
  (∃ (s : State) (iss : Issuer) (i : Nat) (e : CmdEntry) (mask : BitVec 16), Waits s (.swlCalibrate iss mask 0) i e ∧
    (∀ f ∈ (maskBits 16 mask.toNat).map fidOe, s.fnDown f = false) ∧ maskBits 16 mask.toNat ≠ []) ∧
  (∃ (s : State) (iss : Issuer) (i : Nat) (e : CmdEntry) (fibre count : BitVec 16), Waits s (.swlDeskewRead iss fibre
    count) i e ∧ 1 ≤ count.toNat ∧ count.toNat ≤ 64 ∧ fibre.toNat + count.toNat ≤ 256) ∧
  (∃ (s : State) (e : Engine) (w : Fin 8) (present : List Lane) (t : Nat) (x : PlacedWin), s.swl.insts.find (e.val * 8
    + w.val) = none ∧ s.nextSwell e.val w.val = some (t, x)) ∧
  (∃ (s : State) (ins : List SwellInput) (bursts : List SwellBurst) (k : Nat) (x : SwlInst), s.swl.insts = [(k, x)]) ∧
  (∃ (s : State) (e : Engine) (d : SwlCal), s.swl.cals.find e.val = some d ∧ s.regBits .swlCal [] 31 31 = 0) ∧
  (∃ (s : State), s.calWaits = []) ∧
  (∃ (s : State) (m t : Nat), s.calWaits = [(m, t)]) :=
  ⟨⟨tCmd (.swlCalibrate tIss 0x8000 0) tUp, tIss, 0, tEntry (.swlCalibrate tIss 0x8000 0), 0x8000,
    by and_intros <;> first | exact tWaits _ _ rfl rfl | decide +kernel⟩,
   ⟨tCmd (.swlDeskewRead tIss 192 64) tUp, tIss, 0, tEntry (.swlDeskewRead tIss 192 64), 192, 64,
    by and_intros <;> first | exact tWaits _ _ rfl rfl | decide +kernel⟩,
   ⟨tTide tSwell, 0, 0, [], (((tTide tSwell).nextSwell 0 0).get (by decide +kernel)).1, (((tTide tSwell).nextSwell 0
    0).get (by decide +kernel)).2,
    by and_intros <;> first | decide +kernel | rfl⟩,
   ⟨{ tUp with swl := { tUp.swl with insts := [(0, ⟨0, 1024, none, [], [], false, [], false, false, false⟩)] } }, [],
    [], 0, ⟨0, 1024, none, [], [], false, [], false, false, false⟩,
    by decide +kernel⟩,
   ⟨{ tUp with swl := { tUp.swl with cals := [(0, ⟨0, []⟩)] } }.setReg .swlCal [] 0, 0, ⟨0, []⟩,
    by and_intros <;> decide +kernel⟩,
   ⟨tUp,
    by first | exact tWaits _ _ rfl rfl | decide +kernel⟩,
   ⟨tSlots [{ Session.free with cmds := [⟨7, 0x507, 0, [], 0, 0, false, .pending, 0, none, [], .swlCalibrate 1 0,
    none⟩] }], 1, 0,
    by first | exact tWaits _ _ rfl rfl | decide +kernel⟩⟩

theorem test_meets_GroupCommandsComplete :
  (∃ (s : State) (iss : Issuer) (i : Nat) (e : CmdEntry) (group m : BitVec 16) (weight : Byte) (base count : BitVec
    32) (members : List Word), Waits s (.groupCreate iss group weight 0 base count m 0 members) i e ∧ group.toNat <
    8192 ∧ s.est.groups.find group.toNat = none ∧ s.rangeOk base.toNat count.toNat 1 = true ∧ 1 ≤ m.toNat ∧ m.toNat ≤
    2048 ∧ (∀ c ∈ recordChecks 16 members [], c.1 = true) ∧ s.rangeBusy base.toNat count.toNat = false ∧
    s.memberRecords + m.toNat ≤ 1048576) ∧
  (∃ (s : State) (iss : Issuer) (i : Nat) (e : CmdEntry) (group : BitVec 16) (g : Group), s.groupOf group.toNat = some
    g ∧ Waits s (.groupDestroy iss group 0) i e) ∧
  (∃ (s : State) (iss : Issuer) (i : Nat) (e : CmdEntry) (group : BitVec 16) (g : Group) (first count : BitVec 16),
    s.groupOf group.toNat = some g ∧ Waits s (.groupQuery iss group first count 0) i e ∧ first.toNat < g.m ∧ 1 ≤
    count.toNat ∧ first.toNat + count.toNat ≤ g.m ∧ count.toNat ≤ 2048) ∧
  (∃ (s : State) (iss : Issuer) (i : Nat) (e : CmdEntry) (group : BitVec 16) (g : Group) (weight : Byte), s.groupOf
    group.toNat = some g ∧ Waits s (.groupWeight iss group weight 0) i e ∧ weight ≠ 0) ∧
  (∃ (s : State) (iss : Issuer) (i : Nat) (e : CmdEntry) (group : BitVec 16) (g : Group), s.groupOf group.toNat = some
    g ∧ Waits s (.ebbRead iss group 0 0) i e) ∧
  (∃ (s : State) (iss : Issuer) (i : Nat) (e : CmdEntry) (group : BitVec 16) (g : Group), s.groupOf group.toNat = some
    g ∧ Waits s (.ebbRead iss group 1 0) i e) :=
  ⟨⟨tCmd (.groupCreate tIss 8191 0 0 0 2097151 1 0 [5]) tUp, tIss, 0, tEntry (.groupCreate tIss 8191 0 0 0 2097151 1 0
    [5]), 8191, 1, 0, 0, 2097151, [5],
    by and_intros <;> first | exact tWaits _ _ rfl rfl | decide +kernel | rfl⟩,
   ⟨tCmd (.groupDestroy tIss 3 0) tGroups, tIss, 0, tEntry (.groupDestroy tIss 3 0), 3, tGroup,
    by and_intros <;> first | exact tWaits _ _ rfl rfl | decide +kernel | rfl⟩,
   ⟨tCmd (.groupQuery tIss 3 0 1 0) tGroups, tIss, 0, tEntry (.groupQuery tIss 3 0 1 0), 3, tGroup, 0, 1,
    by and_intros <;> first | exact tWaits _ _ rfl rfl | decide +kernel | rfl⟩,
   ⟨tCmd (.groupWeight tIss 3 255 0) tGroups, tIss, 0, tEntry (.groupWeight tIss 3 255 0), 3, tGroup, 255,
    by and_intros <;> first | exact tWaits _ _ rfl rfl | decide +kernel | rfl⟩,
   ⟨tCmd (.ebbRead tIss 3 0 0) tGroups, tIss, 0, tEntry (.ebbRead tIss 3 0 0), 3, tGroup,
    by and_intros <;> first | exact tWaits _ _ rfl rfl | decide +kernel | rfl⟩,
   ⟨tCmd (.ebbRead tIss 3 1 0) tGroups, tIss, 0, tEntry (.ebbRead tIss 3 1 0), 3, tGroup,
    by and_intros <;> first | exact tWaits _ _ rfl rfl | decide +kernel | rfl⟩⟩

theorem test_meets_ContextAndCodingCommandsComplete :
  (∃ (s : State) (iss : Issuer) (i : Nat) (e : CmdEntry) (ctx : BitVec 32) (first count : BitVec 16) (met : List
    BlockErr), Waits s (.ctxQuery iss ctx first count met) i e ∧ ctx.toNat < 2097152 ∧ count.toNat ≤ 128) ∧
  (∃ (s : State) (iss : Issuer) (i : Nat) (e : CmdEntry) (ctx : BitVec 32) (c : Ctx), Waits s (.ctxAbort iss ctx) i e
    ∧ s.ctx ctx.toNat = some c ∧ c.st.live = true ∧ c.completes s.now = false) ∧
  (∃ (s : State) (iss : Issuer) (i : Nat) (e : CmdEntry) (ctx : BitVec 32) (c : Ctx), Waits s (.ctxAbort iss ctx) i e
    ∧ s.ctx ctx.toNat = some c ∧ c.st.live = true ∧ c.completes s.now = true) ∧
  (∃ (s : State) (iss : Issuer) (i : Nat) (e : CmdEntry) (group count : BitVec 16) (g : Group) (ms : List (BitVec 16))
    (met : List BlockErr), s.groupOf group.toNat = some g ∧ 1 ≤ count.toNat ∧ count.toNat ≤ 1024 ∧ (∀ m ∈ ms, m.toNat
    < g.m) ∧ Waits s (.memberExclude iss group 1 0 0 count 0 ms met) i e) ∧
  (∃ (s : State) (iss : Issuer) (i : Nat) (e : CmdEntry) (group count : BitVec 16) (g : Group) (ms : List (BitVec 16))
    (met : List BlockErr), s.groupOf group.toNat = some g ∧ 1 ≤ count.toNat ∧ count.toNat ≤ 1024 ∧ (∀ m ∈ ms, m.toNat
    < g.m) ∧ Waits s (.memberExclude iss group 0 0 0 count 0 ms met) i e) ∧
  (∃ (s : State) (iss : Issuer) (i : Nat) (e : CmdEntry) (group count : BitVec 16) (g : Group) (ms : List (BitVec 16))
    (met : List BlockErr) (x : BitVec 32) (c : Ctx), s.groupOf group.toNat = some g ∧ 1 ≤ count.toNat ∧ count.toNat ≤
    1024 ∧ (∀ m ∈ ms, m.toNat < g.m) ∧ Waits s (.memberExclude iss group 2 0 x count 0 ms met) i e ∧ g.base ≤ x.toNat
    ∧ x.toNat < g.base + g.count ∧ s.ctx x.toNat = some c ∧ c.st.live = true) ∧
  (∃ (s : State) (iss : Issuer) (i : Nat) (e : CmdEntry) (kind : Byte) (items : List TrigItem), Waits s (.triggerWrite
    iss kind 0 (BitVec.ofNat 16 items.length) items) i e ∧ kind.toNat ≤ 2 ∧ items.length < 65536 ∧ (kind = 0 →
    items.length ≤ 1000) ∧ (kind = 1 → items.length ≤ 111) ∧ (∀ t ∈ items, t.fits kind = true) ∧ (∀ c ∈
    items.zipIdx.flatMap fun (t, n) => itemChecks (4 + itemSize kind.toNat * n) t, c.1 = true)) ∧
  (∃ (s : State) (iss : Issuer) (i : Nat) (e : CmdEntry) (count : BitVec 16) (first : BitVec 32), 1 ≤ count.toNat ∧
    Waits s (.triggerRead iss 0 0 count first) i e ∧ count.toNat ≤ 1000 ∧ first.toNat + count.toNat ≤ 65536) ∧
  (∃ (s : State) (iss : Issuer) (i : Nat) (e : CmdEntry) (count : BitVec 16) (first : BitVec 32), 1 ≤ count.toNat ∧
    Waits s (.triggerRead iss 1 0 count first) i e ∧ count.toNat ≤ 111 ∧ first.toNat + count.toNat ≤ 262144) ∧
  (∃ (s : State) (iss : Issuer) (i : Nat) (e : CmdEntry) (group : BitVec 16) (k : Byte) (base count z : BitVec 32)
    (members : List Word), Waits s (.bwkGroupCreate iss group k 0 base count z members) i e ∧ group.toNat < 4096 ∧
    s.bwk.groups.find group.toNat = none ∧ 2 ≤ k.toNat ∧ k.toNat ≤ 30 ∧ s.codingRange base.toNat count.toNat = true ∧
    1 ≤ z.toNat ∧ z.toNat ≤ 65536 ∧ (∀ c ∈ recordChecks 16 members [], c.1 = true) ∧ s.fnDown fidBwk = false ∧
    s.rangeBusy base.toNat count.toNat = false ∧ (∀ b < 4, (s.slotsUsed b).length + unitsOn z.toNat b ≤
    s.bridgeUnits)) ∧
  (∃ (s : State) (iss : Issuer) (i : Nat) (e : CmdEntry) (group : BitVec 16) (g : Coding), s.fnDown fidBwk = false ∧
    s.bwk.groups.find group.toNat = some g ∧ Waits s (.bwkGroupDestroy iss group 0) i e ∧ g.destroying = none) ∧
  (∃ (s : State) (iss : Issuer) (i : Nat) (e : CmdEntry) (group : BitVec 16) (g : Coding) (first count : BitVec 32),
    s.fnDown fidBwk = false ∧ s.bwk.groups.find group.toNat = some g ∧ Waits s (.bwkQuery iss group 0 first count) i e
    ∧ first.toNat ≤ g.z ∧ count.toNat ≤ 16384 ∧ first.toNat + count.toNat ≤ g.z) :=
  ⟨⟨tCmd (.ctxQuery tIss 2097151 0 128 []) tUp, tIss, 0, tEntry (.ctxQuery tIss 2097151 0 128 []), 2097151, 0, 128,
    [],
    by and_intros <;> first | exact tWaits _ _ rfl rfl | decide +kernel⟩,
   ⟨tCmd (.ctxAbort tIss 0) (tWithCtx (tCtx .active)), tIss, 0, tEntry (.ctxAbort tIss 0), 0, tCtx .active,
    by and_intros <;> first | exact tWaits _ _ rfl rfl | decide +kernel | rfl⟩,
   ⟨tCmd (.ctxAbort tIss 0) (tWithCtx { tCtx .active with workedAt := some 0 }), tIss, 0, tEntry (.ctxAbort tIss 0),
    0, { tCtx .active with workedAt := some 0 },
    by and_intros <;> first | exact tWaits _ _ rfl rfl | decide +kernel | rfl⟩,
   ⟨tCmd (.memberExclude tIss 3 1 0 0 1 0 [0] []) (tGroups), tIss, 0, tEntry (.memberExclude tIss 3 1 0 0 1 0 [0] []),
    3, 1, tGroup, [0], [],
    by and_intros <;> first | exact tWaits _ _ rfl rfl | (intro m hm; simp at hm; subst hm; decide +kernel) | decide +kernel | rfl⟩,
   ⟨tCmd (.memberExclude tIss 3 0 0 0 1 0 [0] []) (tGroups), tIss, 0, tEntry (.memberExclude tIss 3 0 0 0 1 0 [0] []),
    3, 1, tGroup, [0], [],
    by and_intros <;> first | exact tWaits _ _ rfl rfl | (intro m hm; simp at hm; subst hm; decide +kernel) | decide +kernel | rfl⟩,
   ⟨tCmd (.memberExclude tIss 3 2 0 0 1 0 [0] []) ({ tGroups with est := { tGroups.est with ctxs := [(0, tCtx
    .active)] } }), tIss, 0, tEntry (.memberExclude tIss 3 2 0 0 1 0 [0] []), 3, 1, tGroup, [0], [], 0, tCtx .active,
    by and_intros <;> first | exact tWaits _ _ rfl rfl | (intro m hm; simp at hm; subst hm; decide +kernel) | decide +kernel | rfl⟩,
   ⟨tCmd (.triggerWrite tIss 1 0 (BitVec.ofNat 16 (List.length [TrigItem.entry 262143 0 0 1 2097151 0]))
    [TrigItem.entry 262143 0 0 1 2097151 0]) tUp, tIss, 0, tEntry (.triggerWrite tIss 1 0 (BitVec.ofNat 16
    (List.length [TrigItem.entry 262143 0 0 1 2097151 0])) [TrigItem.entry 262143 0 0 1 2097151 0]), 1,
    [TrigItem.entry 262143 0 0 1 2097151 0],
    by and_intros <;> first | exact tWaits _ _ rfl rfl | decide +kernel⟩,
   ⟨tCmd (.triggerRead tIss 0 0 1000 64536) tUp, tIss, 0, tEntry (.triggerRead tIss 0 0 1000 64536), 1000, 64536,
    by and_intros <;> first | exact tWaits _ _ rfl rfl | decide +kernel⟩,
   ⟨tCmd (.triggerRead tIss 1 0 111 262033) tUp, tIss, 0, tEntry (.triggerRead tIss 1 0 111 262033), 111, 262033,
    by and_intros <;> first | exact tWaits _ _ rfl rfl | decide +kernel⟩,
   ⟨tCmd (.bwkGroupCreate tIss 4095 2 0 0 3 65536 [5, 6]) tUp, tIss, 0, tEntry (.bwkGroupCreate tIss 4095 2 0 0 3
    65536 [5, 6]), 4095, 2, 0, 3, 65536, [5, 6],
    by and_intros <;> first | exact tWaits _ _ rfl rfl | decide +kernel⟩,
   ⟨tCmd (.bwkGroupDestroy tIss 3 0) tCodings, tIss, 0, tEntry (.bwkGroupDestroy tIss 3 0), 3, tCoding,
    by and_intros <;> first | exact tWaits _ _ rfl rfl | decide +kernel | rfl⟩,
   ⟨tCmd (.bwkQuery tIss 3 0 0 1) tCodings, tIss, 0, tEntry (.bwkQuery tIss 3 0 0 1), 3, tCoding, 0, 1,
    by and_intros <;> first | exact tWaits _ _ rfl rfl | decide +kernel | rfl⟩⟩

theorem test_meets_EstuaryRowsComplete :
  (∃ (s : State) (t : Tile) (q : QCell) (rest : List QCell), s.queue (qKey t.val (qEst clsCtrl)) = q :: rest ∧ s.now <
    q.limit ∧ s.fnDown (fidTile t) = false ∧ s.ctx q.cell.ctx = none ∧ ctrlType q.cell = 1) ∧
  (∃ (s : State) (t : Tile) (q : QCell) (rest : List QCell) (met : List BlockErr), s.queue (qKey t.val (qEst clsCtrl))
    = q :: rest ∧ s.now < q.limit ∧ s.fnDown (fidTile t) = false ∧ s.ctx q.cell.ctx = none ∧ ctrlType q.cell = 2 ∧
    ctrlKind q.cell = 1) ∧
  (∃ (s : State) (x : CtxNum) (c : Ctx), s.ctx x.toNat = some c ∧ c.st.live = true ∧
    (let u := s.advanceTo c.deadline; c.completes u.now = false)) ∧
  (∃ (s : State) (x : CtxNum) (c : Ctx), s.ctx x.toNat = some c ∧ c.st.live = true ∧
    (let u := s.advanceTo c.deadline; c.completes u.now = true)) ∧
  (∃ (s : State) (x : CtxNum) (c : Ctx), s.ctx x.toNat = some c ∧ c.st.terminal = true) ∧
  (∃ (s : State) (x : CtxNum) (c : Ctx) (met : List BlockErr), s.ctx x.toNat = some c ∧ c.st.live = true ∧ c.rounds <
    4 ∧
    (let need := c.headLines (List.range c.m);
      (let u (met : List BlockErr) := ((s.advanceTo (c.openedAt + dTimeout c.desc * (4 + c.rounds) / 8 * 1000)).readLines (homeOf x.toNat 0) x.toNat true need met).1;
        s.linesReady (homeOf x.toNat 0) x.toNat need = true ∧ (u met).ctx x.toNat = some c))) ∧
  (∃ (s : State) (x : CtxNum) (c : Ctx) (met : List BlockErr), s.ctx x.toNat = some c ∧ c.st.live = true ∧ c.rounds <
    4 ∧
    (let need := c.headLines (List.range c.m);
      (let u (met : List BlockErr) := ((s.advanceTo (c.openedAt + dTimeout c.desc * (4 + c.rounds) / 8 * 1000)).readLines (homeOf x.toNat 0) x.toNat true need met).1;
        s.linesReady (homeOf x.toNat 0) x.toNat need = true ∧ ((u met).ctx x.toNat).filter (fun d => d.st.live) =
        none))) ∧
  (∃ (s : State) (x : CtxNum) (c : Ctx), s.ctx x.toNat = some c ∧ c.st.live = true ∧ c.rounds < 4 ∧
    (let need := c.headLines (List.range c.m); s.linesReady (homeOf x.toNat 0) x.toNat need = false)) ∧
  (∃ (s : State) (x : Nat) (c : Ctx),
    (let u := s.putCtx x { c with rounds := c.rounds + 1 }; (c.rounds = 0 → ∀ m ∈ c.activeMembers, (u.recPort
      (u.memberRec c m)).isSome = true))) ∧
  (∃ (s : State) (x : CtxNum) (c : Ctx) (r : Round), s.ctx x.toNat = some c ∧ c.st = .active ∧ c.nextRound = some r) ∧
  (∃ (s : State) (x : CtxNum) (c : Ctx) (r : Round), s.ctx x.toNat = some c ∧ c.st = .active ∧ c.nextRound = none ∧
    c.current = some r) ∧
  (∃ (s : State) (t : Tile) (f : Fetch), (s.slice t.val).fetch = some f ∧ (∀ l ∈ f.lines, s.fnDown (fidBrg (lineBridge
    f.ctx l)) = false) ∧ (∀ m ∈ f.marks, s.linkUp (16 + m.1) = true)) ∧
  (∃ (s : State) (t : Tile) (f : Fetch) (met : List BlockErr), (s.slice t.val).fetch = some f ∧ (∀ m ∈ f.marks,
    s.fnDown (fidBrg m.1) = true ∨ s.linkUp (16 + m.1) = true) ∧
    (let down := f.lines.filter fun l => s.fnDown (fidBrg (lineBridge f.ctx l)); down ≠ [])) ∧
  (∃ (s : State) (b : Bridge) (d : Delta) (rest : List Delta), s.bwk.deltas.getD b.val [] = d :: rest ∧ s.fnDown
    (fidBrg b.val) = false ∧ s.linkUp (16 + b.val) = true ∧ s.ctx d.ctx = none) ∧
  (∃ (s : State) (b : Bridge) (d : Delta) (rest : List Delta) (c : Ctx) (met : List BlockErr), s.bwk.deltas.getD b.val
    [] = d :: rest ∧ s.fnDown (fidBrg b.val) = false ∧ s.linkUp (16 + b.val) = true ∧ s.ctx d.ctx = some c ∧ c.st.live
    = true ∧ lostBlocks 2 met ≠ []) ∧
  (∃ (s : State) (b : Bridge) (d : Delta) (rest : List Delta) (c : Ctx) (met : List BlockErr), s.bwk.deltas.getD b.val
    [] = d :: rest ∧ s.fnDown (fidBrg b.val) = false ∧ s.linkUp (16 + b.val) = true ∧ s.ctx d.ctx = some c ∧ c.st.live
    = false) :=
  ⟨⟨tUp.setQueue (qKey 0 (qEst clsCtrl)) [tCtrl (2 ^ 24)], 0, tCtrl (2 ^ 24), [],
    by and_intros <;> decide +kernel⟩,
   ⟨tUp.setQueue (qKey 0 (qEst clsCtrl)) [tCtrl (2 ^ 25 + 2 ^ 16)], 0, tCtrl (2 ^ 25 + 2 ^ 16), [], [],
    by and_intros <;> decide +kernel⟩,
   ⟨tWithCtx (tCtx .active), 0, tCtx .active,
    by dsimp only; and_intros <;> first | decide +kernel | rfl⟩,
   ⟨tWithCtx { tCtx .active with workedAt := some 1000 }, 0, { tCtx .active with workedAt := some 1000 },
    by dsimp only; and_intros <;> first | decide +kernel | rfl⟩,
   ⟨tWithCtx (tCtx .done), 0, tCtx .done,
    by and_intros <;> first | decide +kernel | rfl⟩,
   ⟨tBridges (tWithCtx (tCtx .active)), 0, tCtx .active, [],
    by dsimp only; and_intros <;> first | decide +kernel | rfl⟩,
   ⟨{ tWithCtx (tCtx .active) with fns := [0x300, 0x301, 0x302, 0x303].map fun f => (f, ⟨true, false, false, false⟩)
    }, 0, tCtx .active, [],
    by dsimp only; and_intros <;> first | exact Option.isNone_iff_eq_none.mp (by decide +kernel) | decide +kernel | rfl⟩,
   ⟨tWithCtx (tCtx .active), 0, tCtx .active,
    by dsimp only; and_intros <;> first | decide +kernel | rfl⟩,
   ⟨tWithCtx (tCtx .active), 0, tCtx .active,
    by dsimp only; intro h; exact absurd h (by decide +kernel)⟩,
   ⟨tWithCtx { tCtx .active with nextRound := some ⟨1, 5, []⟩ }, 0, { tCtx .active with nextRound := some ⟨1, 5, []⟩
    }, ⟨1, 5, []⟩,
    by and_intros <;> first | decide +kernel | rfl⟩,
   ⟨tWithCtx { tCtx .active with current := some ⟨1, 5, []⟩ }, 0, { tCtx .active with current := some ⟨1, 5, []⟩ },
    ⟨1, 5, []⟩,
    by and_intros <;> first | decide +kernel | rfl⟩,
   ⟨tLink 16 tUpLink (tUp.setSlice 0 fun v => { v with fetch := some ⟨0, [1], []⟩ }), 0, ⟨0, [1], []⟩,
    by and_intros <;> decide +kernel⟩,
   ⟨tLink 16 tUpLink ({ tUp with fns := [(fidBrg 0, ⟨true, false, false, false⟩)] }.setSlice 0 fun v => { v with
    fetch := some ⟨0, [1], []⟩ }), 0, ⟨0, [1], []⟩, [],
    by dsimp only; and_intros <;> decide +kernel⟩,
   ⟨tLink 16 tUpLink { tUp with bwk := { tUp.bwk with deltas := [(0, [⟨5, 0, 0, 0, 0⟩])] } }, 0, ⟨5, 0, 0, 0, 0⟩, [],
    by and_intros <;> decide +kernel⟩,
   ⟨tLink 16 tUpLink { tWithCtx (tCtx .active) with bwk := { tUp.bwk with deltas := [(0, [⟨0, 0, 0, 0, 0⟩])] } }, 0,
    ⟨0, 0, 0, 0, 0⟩, [], tCtx .active, [⟨1, 0, 0, 0, 0, 2⟩],
    by and_intros <;> first | decide +kernel | rfl⟩,
   ⟨tLink 16 tUpLink { tWithCtx (tCtx .done) with bwk := { tUp.bwk with deltas := [(0, [⟨0, 0, 0, 0, 0⟩])] } }, 0, ⟨0,
    0, 0, 0, 0⟩, [], tCtx .done, [],
    by and_intros <;> first | decide +kernel | rfl⟩⟩

theorem test_meets_RebuildRecovers :
  (∃ (a b : Nat) (da db : BitVec 512), a < b ∧ b < 30) ∧
  (∃ (a : _), a < 256 ∧ 0 < a) ∧
  (∃ (i : _) (j : _), i < 30 ∧ j < 30 ∧ gfPow i = gfPow j) :=
  ⟨⟨0, 29, 0, 0,
    by and_intros <;> decide +kernel⟩,
   ⟨255,
    by and_intros <;> decide +kernel⟩,
   ⟨29, 29,
    by and_intros <;> decide +kernel⟩⟩

theorem test_meets_ReductionOrderFree : ∃ (arith n c : Nat) (xs ys : List (BitVec 512 × Nat)), xs.Perm ys :=
  ⟨0, 1, 0, [(0, 1), (5, 2)], [(5, 2), (0, 1)],
    by exact List.Perm.swap _ _ _⟩

theorem test_meets_BitwiseReduction : ∃ (arith ctx chunk k i : Nat) (first : BitVec 512) (rest : List (BitVec 512)), 6
    ≤ arIn arith ∧ 6 ≤ arOut arith ∧ (arOp arith = 4 ∨ arOp arith = 5) :=
  ⟨4 * 8192 + 6 * 1024 + 7 * 128, 0, 0, 2, 0, 0, [5],
    by and_intros <;> decide +kernel⟩

theorem test_meets_MemoryCompletes :
  (∃ (s : State) (iss : Issuer) (i : Nat) (e : CmdEntry), Waits s (.partRead iss) i e) ∧
  (∃ (s : State) (iss : Issuer) (i : Nat) (e : CmdEntry) (id : Byte) (size : BitVec 16), Waits s (.partResize iss id 0
    size) i e ∧ id.toNat ≤ 5 ∧ id.toNat ≠ 1 ∧ sizeRule id.toNat size.toNat = true ∧ s.partEmpty id.toNat = true ∧
    size.toNat ≤ s.mem.sizeOf id.toNat + s.mem.unassigned) ∧
  (∃ (s : State) (iss : Issuer) (i : Nat) (e : CmdEntry) (bridge : Byte) (first count : BitVec 16), Waits s
    (.memErrorRead iss bridge 0 first count) i e ∧ bridge.toNat < 4 ∧ 1 ≤ count.toNat ∧ count.toNat ≤ 512 ∧ s.fnDown
    (fidBrg bridge.toNat) = false) ∧
  (∃ (s : State) (b : Bridge), s.fnDown (fidBrg b.val) = false ∧ (s.brg b.val).ready = true ∧ s.regBits .brgScrub
    [b.val] 7 0 ≠ 0) ∧
  (∃ (s : State) (b : Bridge), s.fnDown (fidBrg b.val) = false ∧ s.boot.phase ≠ .reset ∧ s.linkUp (16 + b.val) = true) :=
  ⟨⟨tCmd (.partRead tIss) tUp, tIss, 0, tEntry (.partRead tIss),
    by first | exact tWaits _ _ rfl rfl | decide +kernel⟩,
   ⟨tCmd (.partResize tIss 5 0 4) tUp, tIss, 0, tEntry (.partResize tIss 5 0 4), 5, 4,
    by and_intros <;> first | exact tWaits _ _ rfl rfl | decide +kernel⟩,
   ⟨tCmd (.memErrorRead tIss 3 0 0 512) tUp, tIss, 0, tEntry (.memErrorRead tIss 3 0 0 512), 3, 0, 512,
    by and_intros <;> first | exact tWaits _ _ rfl rfl | decide +kernel⟩,
   ⟨(tUp.setBrg 3 fun x => { x with ready := true }).setReg .brgScrub [3] 1, 3,
    by and_intros <;> decide +kernel⟩,
   ⟨tLink 19 tUpLink tUp, 3,
    by and_intros <;> decide +kernel⟩⟩

theorem test_meets_TestsComplete :
  (∃ (s : State) (iss : Issuer) (i : Nat) (e : CmdEntry) (func : BitVec 16) (kinds flags : Byte) (n : Nat), Waits s
    (.testRun iss func kinds flags) i e ∧ fnValid func.toNat = true ∧ (func.toNat / 256 = 0 ∨ func.toNat / 256 = 2) ∧
    1 ≤ kinds.toNat ∧ kinds.toNat < 8 ∧ flags.toNat < 4 ∧ s.fnDown func.toNat = false ∧ (s.fn func.toNat).testing =
    false ∧ s.bist.freeEntry = some n ∧ (flags.getLsbD 0 = true ∨ s.drained func.toNat = true)) ∧
  (∃ (s : State) (iss : Issuer) (i : Nat) (e : CmdEntry) (test first count : BitVec 16) (r : TestRes) (t : State),
    Waits s (.testResult iss test first count 0) i e ∧ s.testRes test.toNat = (some r, t) ∧ count.toNat ≤ 512) ∧
  (∃ (s : State) (iss : Issuer) (i : Nat) (e : CmdEntry) (kind flags : Byte) (func inst bit : BitVec 16) (addr :
    BitVec 32), Waits s (.repairApply iss kind flags func inst bit addr) i e ∧ flags.toNat < 2 ∧ fnValid func.toNat =
    true ∧ repairKindOk kind.toNat (func.toNat / 256) = true ∧ kind.toNat < 2 ∧ (func.toNat / 256 = 0 ∨ func.toNat /
    256 = 2) ∧ (∀ c ∈ sramChecks kind.toNat func.toNat inst.toNat bit.toNat addr.toNat, c.1 = true) ∧ (s.fn
    func.toNat).failed = false ∧ (((s.fn func.toNat).inReset = true ∧ (s.fn func.toNat).held = true) ∨ (s.fn
    func.toNat).testing = true) ∧
    (let r : Repair := ⟨func.toNat, inst.toNat, bit.toNat, addr.toNat, kind.toNat + 1⟩; s.spareLeft r = true ∧
      (flags.getLsbD 0 = true → s.fusesUsed func.toNat < fusesOf func.toNat))) ∧
  (∃ (s : State) (iss : Issuer) (i : Nat) (e : CmdEntry) (kind flags : Byte) (func inst bit : BitVec 16) (addr :
    BitVec 32), Waits s (.repairApply iss kind flags func inst bit addr) i e ∧ flags.toNat < 2 ∧ fnValid func.toNat =
    true ∧ repairKindOk kind.toNat (func.toNat / 256) = true ∧ kind.toNat = 2 ∧ func.toNat / 256 = 3 ∧ inst.toNat /
    256 / 8 = func.toNat % 256 ∧ bit = 0 ∧ s.fnDown func.toNat = false) ∧
  (∃ (s : State) (x : TestRun), s.bist.running = [some x, none] ∧ x.started = false) ∧
  (∃ (s : State) (n : Fin 2) (faults : List TestRecord) (us : BitVec 32) (x : TestRun), s.bist.running.getD n.val none
    = some x ∧ x.started = true) :=
  ⟨⟨tCmd (.testRun tIss 63 7 3) tUp, tIss, 0, tEntry (.testRun tIss 63 7 3), 63, 7, 3, 0,
    by and_intros <;> first | exact tWaits _ _ rfl rfl | decide +kernel⟩,
   ⟨tCmd (.testResult tIss 0 0 512 0) tUp, tIss, 0, tEntry (.testResult tIss 0 0 512 0), 0, 0, 512, tUp.bist.boot,
    tCmd (.testResult tIss 0 0 512 0) tUp,
    by and_intros <;> first | exact tWaits _ _ rfl rfl | decide +kernel | rfl⟩,
   ⟨tCmd (.repairApply tIss 1 1 0 383 255 0) ({ tUp with fns := [(0, ⟨true, true, false, false⟩)] }), tIss, 0, tEntry
    (.repairApply tIss 1 1 0 383 255 0), 1, 1, 0, 383, 255, 0,
    by dsimp only; and_intros <;> first | exact tWaits _ _ rfl rfl | decide +kernel⟩,
   ⟨tCmd (.repairApply tIss 2 1 0x300 0 0 0) tUp, tIss, 0, tEntry (.repairApply tIss 2 1 0x300 0 0 0), 2, 1, 0x300, 0,
    0, 0,
    by and_intros <;> first | exact tWaits _ _ rfl rfl | decide +kernel⟩,
   ⟨tTesting false, tTest false,
    by and_intros <;> decide +kernel⟩,
   ⟨tTesting true, 0, [], 0, tTest true,
    by and_intros <;> decide +kernel⟩⟩

theorem test_meets_FunctionResetsComplete :
  (∃ (s : State) (iss : Issuer) (i : Nat) (e : CmdEntry) (func : BitVec 16) (hold : Bool), Waits s (.funcReset iss
    func (if hold then 1 else 0) 0) i e ∧ func.toNat < 4096 ∧ fnValid func.toNat = true ∧ (s.fn func.toNat).inReset =
    false ∧ (s.fn func.toNat).testing = false ∧ (s.fn func.toNat).failed = false ∧ func.toNat ≠ fidCmd (s.slot
    i).engine) ∧
  (∃ (s : State) (iss : Issuer) (i : Nat) (e : CmdEntry) (func : BitVec 16) (hold : Bool), func.toNat < 4096 ∧ fnValid
    func.toNat = true ∧ (s.fn func.toNat).testing = false ∧ (s.fn func.toNat).failed = false ∧ Waits s (.funcReset iss
    func (if hold then 1 else 0) 0) i e ∧ (s.fn func.toNat).inReset = false ∧ func.toNat = fidCmd (s.slot i).engine) ∧
  (∃ (s : State) (iss : Issuer) (i : Nat) (e : CmdEntry) (func : BitVec 16), func.toNat < 4096 ∧ fnValid func.toNat =
    true ∧ (s.fn func.toNat).testing = false ∧ (s.fn func.toNat).failed = false ∧ Waits s (.funcReset iss func 2 0) i
    e ∧ (s.fn func.toNat).held = true) ∧
  (∃ (s : State) (iss : Issuer) (i : Nat) (e : CmdEntry), Waits s (.deviceReset iss) i e) ∧
  (∃ (s : State) (due : Nat), s.boot.resetDue = [(due, none)]) ∧
  (∃ (s : State) (due fid : Nat) (hold : Bool), s.boot.resetDue = [(due, some (fid, hold))] ∧ (s.fn fid).inReset =
    false ∧ (s.fn fid).failed = false) ∧
  (∃ (s : State) (func : BitVec 12) (r : Reg) (ix : List Nat) (t : _), fnValid func.toNat = true ∧ (s.fn
    func.toNat).inReset = true ∧ (s.fn func.toNat).held = false ∧ (s.fn func.toNat).testing = false ∧ (s.fn
    func.toNat).failed = false ∧ (ownersAt (regAddr r ix)).contains func.toNat = true ∧ keptAddr (regAddr r ix) =
    false ∧ func.toNat / 256 ∈ [1, 3, 4, 5, 6, 7, 9] ∧ exec (.funcResetEnd func) s = .next t) ∧
  (∃ (s : State) (fid : Nat), fid / 256 ≠ 3) ∧
  (∃ (s : State) (fid : Nat), fid / 256 = 3) ∧
  (∃ (s : State) (n : Fin 4), s.boot.phase = .done ∧ s.fnDown (fidCmd n.val) = false ∧ s.regBits .rstWdog [] 15 0 ≠ 0) ∧
  (∃ (s : State) (fid : Nat) (r : Reg) (ix : List Nat), (ownersAt (regAddr r ix)).contains fid = true ∧ keptAddr
    (regAddr r ix) = false) ∧
  (∃ (s : State) (fid : Nat) (r : Reg) (ix : List Nat), ((ownersAt (regAddr r ix)).contains fid = false ∨ keptAddr
    (regAddr r ix) = true)) :=
  ⟨⟨tCmd (.funcReset tIss 0x703 (if true then 1 else 0) 0) tUp, tIss, 0, tEntry (.funcReset tIss 0x703 (if true then 1
    else 0) 0), 0x703, true,
    by and_intros <;> first | exact tWaits _ _ rfl rfl | decide +kernel⟩,
   ⟨tCmd (.funcReset tIss 0x700 (if true then 1 else 0) 0) tUp, tIss, 0, tEntry (.funcReset tIss 0x700 (if true then 1
    else 0) 0), 0x700, true,
    by and_intros <;> first | exact tWaits _ _ rfl rfl | decide +kernel⟩,
   ⟨tCmd (.funcReset tIss 5 2 0) ({ tUp with fns := [(5, ⟨true, true, false, false⟩)] }), tIss, 0, tEntry (.funcReset
    tIss 5 2 0), 5,
    by and_intros <;> first | exact tWaits _ _ rfl rfl | decide +kernel⟩,
   ⟨tCmd (.deviceReset tIss) tUp, tIss, 0, tEntry (.deviceReset tIss),
    by first | exact tWaits _ _ rfl rfl | decide +kernel⟩,
   ⟨{ tUp with boot := { tUp.boot with resetDue := [(5, none)] } }, 5,
    by decide +kernel⟩,
   ⟨{ tUp with boot := { tUp.boot with resetDue := [(5, some (5, true))] } }, 5, 5, true,
    by and_intros <;> decide +kernel⟩,
   ⟨{ tUp with fns := [(0x300, ⟨true, false, false, false⟩)] }, 0x300, .brgScrub, [0], (((({ tUp with fns := [(0x300,
    ⟨true, false, false, false⟩)] }).leaveReset 0x300).endJobs (fun j => decide (j = Job.funcReset 0x300 true)) ⟨stOk,
    0, []⟩).endResets 0x300),
    by and_intros <;> first | decide +kernel | rfl⟩,
   ⟨tUp, 5,
    by decide +kernel⟩,
   ⟨tUp, 0x300,
    by decide +kernel⟩,
   ⟨tUp.setReg .rstWdog [] 1, 3,
    by and_intros <;> decide +kernel⟩,
   ⟨tUp, 0, .tileAdmDrops, [0, 0],
    by and_intros <;> decide +kernel⟩,
   ⟨tUp, 0, .devId, [],
    by decide +kernel⟩⟩

theorem test_meets_JoinRowsComplete :
  (∃ (s : State) (l : D2dLink), s.boot.phase ≠ .reset) ∧
  (∃ (s : State) (l : D2dLink) (words : List ShoreWord), (s.link l.val).st ≠ .down ∧ (s.link l.val).st ≠ .failed ∧
    (let bad := words.filter fun w => decide (w.crc ≠ Config.shoreCrc w.data);
      (let u := (s.bumpBy .d2dCrcErrs [l.val] bad.length).setLink l.val fun y => { y with replay := replayOf words };
        (∀ g : Fin 16, (bad.filter fun w => w.group = g).length ≤ u.regBits .d2dConfig [] 7 0)))) ∧
  (∃ (s : State) (l : D2dLink) (words : List ShoreWord), (s.link l.val).st ≠ .down ∧ (s.link l.val).st ≠ .failed ∧
    (let bad := words.filter fun w => decide (w.crc ≠ Config.shoreCrc w.data);
      (let u := (s.bumpBy .d2dCrcErrs [l.val] bad.length).setLink l.val fun y => { y with replay := replayOf words };
        (∃ g : Fin 16, u.regBits .d2dConfig [] 7 0 < (bad.filter fun w => w.group = g).length) ∧ (s.link l.val).st =
        .up))) ∧
  (∃ (s : State) (l : D2dLink) (words : List ShoreWord), (s.link l.val).st ≠ .down ∧ (s.link l.val).st ≠ .failed ∧
    (let bad := words.filter fun w => decide (w.crc ≠ Config.shoreCrc w.data);
      (let u := (s.bumpBy .d2dCrcErrs [l.val] bad.length).setLink l.val fun y => { y with replay := replayOf words };
        (∃ g : Fin 16, u.regBits .d2dConfig [] 7 0 < (bad.filter fun w => w.group = g).length) ∧ (s.link l.val).st ≠
        .up ∧ (s.link l.val).full = true))) ∧
  (∃ (s : State) (l : D2dLink) (words : List ShoreWord), (s.link l.val).st ≠ .down ∧ (s.link l.val).st ≠ .failed ∧
    (let bad := words.filter fun w => decide (w.crc ≠ Config.shoreCrc w.data);
      (let u := (s.bumpBy .d2dCrcErrs [l.val] bad.length).setLink l.val fun y => { y with replay := replayOf words };
        (∃ g : Fin 16, u.regBits .d2dConfig [] 7 0 < (bad.filter fun w => w.group = g).length) ∧ (s.link l.val).st ≠
        .up ∧ (s.link l.val).full = false))) ∧
  (∃ (s : State) (l : D2dLink) (r : WidthRecord), r.crc = crc32cOf (widthBytes r) ∧ r.version = 1 ∧ r.round.toNat =
    (s.link l.val).round ∧ r.kind = 1 ∧ (s.link l.val).st = .training ∧
    (let g := (BitVec.ofNat 16 (s.link l.val).own &&& r.mask).toNat; popCount 16 g < 8)) ∧
  (∃ (s : State) (l : D2dLink) (r : WidthRecord), r.crc = crc32cOf (widthBytes r) ∧ r.version = 1 ∧ r.round.toNat =
    (s.link l.val).round ∧ r.kind = 1 ∧ (s.link l.val).st = .training ∧
    (let g := (BitVec.ofNat 16 (s.link l.val).own &&& r.mask).toNat; 8 ≤ popCount 16 g ∧ (s.link l.val).full = false ∧
      g ≠ (s.link l.val).before)) ∧
  (∃ (s : State) (l : D2dLink) (r : WidthRecord), r.crc = crc32cOf (widthBytes r) ∧ r.version = 1 ∧ r.round.toNat =
    (s.link l.val).round ∧ r.kind = 1 ∧ (s.link l.val).st = .training ∧
    (let g := (BitVec.ofNat 16 (s.link l.val).own &&& r.mask).toNat; 8 ≤ popCount 16 g ∧ ((s.link l.val).full = true ∨
      g = (s.link l.val).before))) ∧
  (∃ (s : State) (l : D2dLink) (r : WidthRecord), r.crc = crc32cOf (widthBytes r) ∧ r.version = 1 ∧ r.round.toNat =
    (s.link l.val).round ∧ r.kind = 2 ∧ (s.link l.val).st = .agreeing ∧ r.mask.toNat = (s.link l.val).cand) ∧
  (∃ (s : State) (l : D2dLink) (r : WidthRecord), r.crc = crc32cOf (widthBytes r) ∧ r.version = 1 ∧ r.round.toNat =
    (s.link l.val).round ∧ r.kind = 2 ∧ (s.link l.val).st = .agreeing ∧ r.mask.toNat ≠ (s.link l.val).cand) ∧
  (∃ (s : State) (l : D2dLink) (r : WidthRecord), r.crc ≠ crc32cOf (widthBytes r)) :=
  ⟨⟨tUp, 19,
    by decide +kernel⟩,
   ⟨tLink 0 { LinkSt.init with st := .up } tUp, 0, [],
    by refine ⟨by decide +kernel, by decide +kernel, fun g => ?_⟩; exact Nat.zero_le _⟩,
   ⟨tLink 0 { LinkSt.init with st := .up } tUp, 0, tBadWords,
    by refine ⟨by decide +kernel, by decide +kernel, ⟨0, ?_⟩, by decide +kernel⟩; simp only [tBadAll, tBadGroup]; decide +kernel⟩,
   ⟨tLink 0 { LinkSt.init with st := .training, full := true } tUp, 0, tBadWords,
    by refine ⟨by decide +kernel, by decide +kernel, ⟨0, ?_⟩, by decide +kernel, by decide +kernel⟩; simp only [tBadAll, tBadGroup]; decide +kernel⟩,
   ⟨tLink 0 { LinkSt.init with st := .training, full := false } tUp, 0, tBadWords,
    by refine ⟨by decide +kernel, by decide +kernel, ⟨0, ?_⟩, by decide +kernel, by decide +kernel⟩; simp only [tBadAll, tBadGroup]; decide +kernel⟩,
   ⟨tLink 0 { LinkSt.init with st := .training, own := 0xFFFF } tUp, 0, { (⟨1, 1, 0, 0x7F, 0, 0, 0⟩ : WidthRecord)
    with crc := crc32cOf (widthBytes ⟨1, 1, 0, 0x7F, 0, 0, 0⟩) },
    by dsimp only; and_intros <;> decide +kernel⟩,
   ⟨tLink 0 { LinkSt.init with st := .training, own := 0xFFFF, full := false } tUp, 0, { (⟨1, 1, 0, 0xFF, 0, 0, 0⟩ :
    WidthRecord) with crc := crc32cOf (widthBytes ⟨1, 1, 0, 0xFF, 0, 0, 0⟩) },
    by dsimp only; and_intros <;> decide +kernel⟩,
   ⟨tLink 0 { LinkSt.init with st := .training, own := 0xFFFF } tUp, 0, { (⟨1, 1, 0, 0xFF, 0, 0, 0⟩ : WidthRecord)
    with crc := crc32cOf (widthBytes ⟨1, 1, 0, 0xFF, 0, 0, 0⟩) },
    by dsimp only; and_intros <;> decide +kernel⟩,
   ⟨tLink 0 { LinkSt.init with st := .agreeing, cand := 0xFF } tUp, 0, { (⟨1, 2, 0, 0xFF, 0, 0, 0⟩ : WidthRecord) with
    crc := crc32cOf (widthBytes ⟨1, 2, 0, 0xFF, 0, 0, 0⟩) },
    by and_intros <;> decide +kernel⟩,
   ⟨tLink 0 { LinkSt.init with st := .agreeing, cand := 0xFF } tUp, 0, { (⟨1, 2, 0, 0x1FF, 0, 0, 0⟩ : WidthRecord)
    with crc := crc32cOf (widthBytes ⟨1, 2, 0, 0x1FF, 0, 0, 0⟩) },
    by and_intros <;> decide +kernel⟩,
   ⟨tUp, 19, ⟨1, 1, 0, 0, 0, 0, 0⟩,
    by decide +kernel⟩⟩

theorem test_meets_PowerCompletes :
  (∃ (s : State) (iss : Issuer) (i : Nat) (e : CmdEntry) (cap : BitVec 16), Waits s (.powerCap iss cap 0) i e ∧ 2000 ≤
    cap.toNat ∧ cap.toNat ≤ 3500) ∧
  (∃ (s : State) (iss : Issuer) (i : Nat) (e : CmdEntry), Waits s (.powerStatus iss) i e) ∧
  (∃ (s : State) (forecast : List (Die × BitVec 16)) (logic : DieReading) (need : BitVec 16) (ratio : Fin 17) (steps :
    List (Engine × StepForecast)) (drivers : List Tile), s.boot.phase ≠ .reset ∧ s.boot.phase ≠ .stuck ∧ 1840 ≤
    logic.temp.toInt) ∧
  (∃ (s : State) (forecast : List (Die × BitVec 16)) (logic : DieReading) (need : BitVec 16) (ratio : Fin 17) (steps :
    List (Engine × StepForecast)) (drivers : List Tile), s.boot.phase ≠ .reset ∧ s.boot.phase ≠ .stuck ∧
    logic.temp.toInt < 1840) ∧
  (∃ (s : State) (d : Die) (m : List Byte), d.val ≠ 0 ∧ s.dieDown d.val = false ∧ (s.die d.val).answer = some m ∧
    field2 m 2 ≠ s.pwr.seq) ∧
  (∃ (s : State) (d : Die) (m : List Byte), d.val ≠ 0 ∧ s.dieDown d.val = false ∧ (s.die d.val).answer = some m ∧
    (let verdict := ((m.getD 12 0) : Byte).toNat; field2 m 2 = s.pwr.seq ∧ verdict = 1)) ∧
  (∃ (s : State) (d : Die) (m : List Byte), d.val ≠ 0 ∧ s.dieDown d.val = false ∧ (s.die d.val).answer = some m ∧
    (let verdict := ((m.getD 12 0) : Byte).toNat; field2 m 2 = s.pwr.seq ∧ verdict = 2)) ∧
  (∃ (s : State) (d : Die) (m : List Byte), d.val ≠ 0 ∧ s.dieDown d.val = false ∧ (s.die d.val).answer = some m ∧
    (let verdict := ((m.getD 12 0) : Byte).toNat; field2 m 2 = s.pwr.seq ∧ verdict ≠ 1 ∧ verdict ≠ 2)) ∧
  (∃ (s : State) (d : Die) (m : List Byte) (expected : BitVec 16) (now : DieReading), s.dieDown d.val = false ∧ (s.die
    d.val).proposed = some m) ∧
  (∃ (s : State) (d : Die), d.val ≠ 0 ∧ s.dieDown d.val = false ∧ s.boot.phase ≠ .reset) ∧
  (∃ (s : State) (t : Tile), s.fnDown (fidTile t.val) = false ∧ (s.tile t.val).target < (s.tile t.val).ratio) ∧
  (∃ (s : State) (t : Tile), s.fnDown (fidTile t.val) = false ∧ (s.tile t.val).ratio ≤ (s.tile t.val).target ∧ (s.tile
    t.val).hot = true) ∧
  (∃ (s : State) (t : Tile), s.fnDown (fidTile t.val) = false ∧ (s.tile t.val).ratio < (s.tile t.val).target ∧ (s.tile
    t.val).hot = false ∧ t.val ∉ s.pwr.rampHold) ∧
  (∃ (s : State) (d : Die) (temp : BitVec 16), s.boot.phase ≠ .reset ∧ tripAt d.val ≤ temp.toInt) ∧
  (∃ (s : State) (d : Die) (temp : BitVec 16), s.boot.phase ≠ .reset ∧ temp.toInt < tripAt d.val ∧ (d.val = 1 ∨ 18 ≤
    d.val)) :=
  ⟨⟨tCmd (.powerCap tIss 3500 0) tUp, tIss, 0, tEntry (.powerCap tIss 3500 0), 3500,
    by and_intros <;> first | exact tWaits _ _ rfl rfl | decide +kernel⟩,
   ⟨tCmd (.powerStatus tIss) tUp, tIss, 0, tEntry (.powerStatus tIss),
    by first | exact tWaits _ _ rfl rfl | decide +kernel⟩,
   ⟨tUp, [], ⟨0, 0, 1840, 0⟩, 0, 16, [], [],
    by and_intros <;> decide +kernel⟩,
   ⟨tUp, [], ⟨0, 0, 1839, 0⟩, 0, 16, [], [],
    by and_intros <;> decide +kernel⟩,
   ⟨tUp.setDie 21 fun x => { x with answer := some [0, 0, 0, 1, 0, 0, 0, 0, 0, 0, 0, 0, 0] }, 21, [0, 0, 0, 1, 0, 0,
    0, 0, 0, 0, 0, 0, 0],
    by and_intros <;> decide +kernel⟩,
   ⟨tUp.setDie 21 fun x => { x with answer := some [0, 0, 0, 0, 0, 0, 0, 0, 0, 0, 0, 0, 1] }, 21, [0, 0, 0, 0, 0, 0,
    0, 0, 0, 0, 0, 0, 1],
    by dsimp only; and_intros <;> decide +kernel⟩,
   ⟨tUp.setDie 21 fun x => { x with answer := some [0, 0, 0, 0, 0, 0, 0, 0, 0, 0, 0, 0, 2] }, 21, [0, 0, 0, 0, 0, 0,
    0, 0, 0, 0, 0, 0, 2],
    by dsimp only; and_intros <;> decide +kernel⟩,
   ⟨tUp.setDie 21 fun x => { x with answer := some [0, 0, 0, 0, 0, 0, 0, 0, 0, 0, 0, 0, 0] }, 21, [0, 0, 0, 0, 0, 0,
    0, 0, 0, 0, 0, 0, 0],
    by dsimp only; and_intros <;> decide +kernel⟩,
   ⟨tUp.setDie 21 fun x => { x with proposed := some [] }, 21, [], 0, ⟨0, 0, 0, 0⟩,
    by and_intros <;> decide +kernel⟩,
   ⟨tUp, 21,
    by and_intros <;> decide +kernel⟩,
   ⟨tUp.setTile 63 fun x => { x with target := 15 }, 63,
    by and_intros <;> decide +kernel⟩,
   ⟨tUp.setTile 63 fun x => { x with ratio := 14, target := 15, hot := true }, 63,
    by and_intros <;> decide +kernel⟩,
   ⟨tUp.setTile 63 fun x => { x with ratio := 15 }, 63,
    by and_intros <;> decide +kernel⟩,
   ⟨tUp, 21, 1680,
    by and_intros <;> decide +kernel⟩,
   ⟨tUp, 21, 1679,
    by and_intros <;> decide +kernel⟩⟩

theorem test_meets_TelemetryCompletes :
  (∃ (s : State) (iss : Issuer) (i : Nat) (e : CmdEntry) (set : Byte) (count : BitVec 16) (first : BitVec 32),
    (setShape set.toNat).isSome = true ∧ s.indexesOk set.toNat first.toNat (wideCount count) = true ∧ s.fnDown fidTel
    = false ∧ Waits s (.telCounterRead iss set 0 count first) i e ∧
    (let items := ((setShape set.toNat).getD (0, 0)).1; 4 + 8 * wideCount count * items ≤ 8944)) ∧
  (∃ (s : State) (iss : Issuer) (i : Nat) (e : CmdEntry) (set : Byte) (count : BitVec 16) (first : BitVec 32) (h t :
    _), (setShape set.toNat).isSome = true ∧ s.indexesOk set.toNat first.toNat (wideCount count) = true ∧ s.fnDown
    fidTel = false ∧ Waits s (.telCounterRead iss set 1 count first) i e ∧ s.resultObject (s.slot i).number (beBytes 2
    ((setShape set.toNat).getD (0, 0)).1 ++ [0, 0] ++ (rangeFrom first.toNat (wideCount count)).flatMap (s.csRow
    set.toNat)) = some (h, t)) ∧
  (∃ (s : State) (iss : Issuer) (i : Nat) (e : CmdEntry) (set : Byte) (count : BitVec 16) (first : BitVec 32),
    (setShape set.toNat).isSome = true ∧ s.indexesOk set.toNat first.toNat (wideCount count) = true ∧ s.fnDown fidTel
    = false ∧ Waits s (.telCounterClear iss set 0 count first) i e) ∧
  (∃ (s : State) (iss : Issuer) (i : Nat) (e : CmdEntry) (target flags minSev : Byte) (rate : BitVec 16) (record flow
    : BitVec 32), Waits s (.telExportConfig iss target flags minSev 0 rate 0 record flow) i e ∧ flags.toNat < 2 ∧
    minSev.toNat < 4 ∧ 1 ≤ rate.toNat ∧ rate.toNat ≤ 100 ∧ s.fnDown fidTel = false ∧ target = 0) ∧
  (∃ (s : State) (iss : Issuer) (i : Nat) (e : CmdEntry) (target flags minSev : Byte) (rate : BitVec 16) (record flow
    : BitVec 32), Waits s (.telExportConfig iss target flags minSev 0 rate 0 record flow) i e ∧ flags.toNat < 2 ∧
    minSev.toNat < 4 ∧ 1 ≤ rate.toNat ∧ rate.toNat ≤ 100 ∧ s.fnDown fidTel = false ∧ 1 ≤ target.toNat ∧ target.toNat ≤
    4 ∧ record.toNat / 2 ^ 20 % 512 = 0 ∧ flow.toNat < 2 ^ 21) ∧
  (∃ (s : State) (iss : Issuer) (i : Nat) (e : CmdEntry) (flags minSev : Byte) (count : BitVec 32) (first : BitVec
    64), Waits s (.logRead iss flags minSev 0 count first []) i e ∧ minSev.toNat < 4 ∧ 1 ≤ count.toNat ∧ s.fnDown
    fidTel = false ∧ flags.toNat < 2 ∧ count.toNat ≤ 139) ∧
  (∃ (s : State) (iss : Issuer) (i : Nat) (e : CmdEntry) (flags minSev : Byte) (count : BitVec 32) (first : BitVec
    64), Waits s (.logRead iss flags minSev 0 count first []) i e ∧ minSev.toNat < 4 ∧ 1 ≤ count.toNat ∧ s.fnDown
    fidTel = false ∧ flags.toNat = 2 ∧ count.toNat ≤ 524288) ∧
  (∃ (s : State) (ev : EventIn) (sev : Nat), s.boot.phase ≠ .reset ∧ eventSev ev.code.toNat = some sev) ∧
  (∃ (s : State), s.fnDown fidTel = false ∧ s.boot.phase ≠ .reset ∧ s.tel.stage = 0) ∧
  (∃ (s : State), s.fnDown fidTel = false ∧ s.boot.phase ≠ .reset ∧ s.tel.stage = 1) ∧
  (∃ (s : State), s.fnDown fidTel = false ∧ s.boot.phase ≠ .reset ∧ s.tel.stage = 2) ∧
  (∃ (s : State) (code : BitVec 16) (source : BitVec 12) (m : Merged) (rest : List Merged), (takeFirst (fun m =>
    decide (m.code = code.toNat ∧ m.source = source.toNat)) s.tel.coal = some (m, rest)) ∧ s.tel.hold = false ∧
    s.tel.stage ≠ 2) ∧
  (∃ (s : State) (code : BitVec 16) (source : BitVec 12) (m : Merged) (rest : List Merged), (takeFirst (fun m =>
    decide (m.code = code.toNat ∧ m.source = source.toNat)) s.tel.coal = some (m, rest)) ∧ s.tel.hold = false ∧
    s.tel.stage = 2) ∧
  (∃ (s : State), s.fnDown fidTel = false ∧ s.tel.hold = true ∧ s.tel.lost = 0) ∧
  (∃ (s : State) (i : Nat) (x y : LogEvent), s.slotIx s.tel.stream.session = some i ∧ s.tel.stream.enable = true ∧
    s.fnDown fidTel = false ∧ s.mgmtOn = true ∧ s.tel.lag s.tel.stream.next ≤ 65536 ∧
    (let got := takeRecords 139 139 (s.tel.exports s.tel.stream.next s.tel.stream.minSev); got.head? = some x ∧
      got.getLast? = some y)) ∧
  (∃ (s : State) (n : Fin 4) (c : Collector) (x : LogEvent), s.tel.collectors[n.val]? = some c ∧ c.enable = true ∧
    s.fnDown fidTel = false ∧ s.tel.lag c.next ≤ 4096 ∧ (s.tel.exports c.next c.minSev).head? = some x) ∧
  (∃ (s : State), s.fnDown fidTel = false ∧ s.tel.tokens < s.regBits .telQuar [] 15 8) :=
  ⟨⟨tCmd (.telCounterRead tIss 1 0 1 2047) tUp, tIss, 0, tEntry (.telCounterRead tIss 1 0 1 2047), 1, 1, 2047,
    by dsimp only; and_intros <;> first | exact tWaits _ _ rfl rfl | decide +kernel⟩,
   ⟨tCmd (.telCounterRead tIss 1 1 1 2047) tUp, tIss, 0, tEntry (.telCounterRead tIss 1 1 1 2047), 1, 1, 2047, (((tCmd
    (.telCounterRead tIss 1 1 1 2047) tUp).resultObject 1 (beBytes 2 ((setShape 1).getD (0, 0)).1 ++ [0, 0] ++
    (rangeFrom 2047 1).flatMap ((tCmd (.telCounterRead tIss 1 1 1 2047) tUp).csRow 1))).getD (0, tUp)).1, (((tCmd
    (.telCounterRead tIss 1 1 1 2047) tUp).resultObject 1 (beBytes 2 ((setShape 1).getD (0, 0)).1 ++ [0, 0] ++
    (rangeFrom 2047 1).flatMap ((tCmd (.telCounterRead tIss 1 1 1 2047) tUp).csRow 1))).getD (0, tUp)).2,
    by and_intros <;> first | exact tWaits _ _ rfl rfl | decide +kernel | rfl⟩,
   ⟨tCmd (.telCounterClear tIss 1 0 1 2047) tUp, tIss, 0, tEntry (.telCounterClear tIss 1 0 1 2047), 1, 1, 2047,
    by and_intros <;> first | exact tWaits _ _ rfl rfl | decide +kernel⟩,
   ⟨tCmd (.telExportConfig tIss 0 1 3 0 100 0 0 0) tUp, tIss, 0, tEntry (.telExportConfig tIss 0 1 3 0 100 0 0 0), 0,
    1, 3, 100, 0, 0,
    by and_intros <;> first | exact tWaits _ _ rfl rfl | decide +kernel⟩,
   ⟨tCmd (.telExportConfig tIss 4 1 3 0 100 0 0 2097151) tUp, tIss, 0, tEntry (.telExportConfig tIss 4 1 3 0 100 0 0
    2097151), 4, 1, 3, 100, 0, 2097151,
    by and_intros <;> first | exact tWaits _ _ rfl rfl | decide +kernel⟩,
   ⟨tCmd (.logRead tIss 1 3 0 139 0 []) tUp, tIss, 0, tEntry (.logRead tIss 1 3 0 139 0 []), 1, 3, 139, 0,
    by and_intros <;> first | exact tWaits _ _ rfl rfl | decide +kernel⟩,
   ⟨tCmd (.logRead tIss 2 3 0 524288 0 []) tUp, tIss, 0, tEntry (.logRead tIss 2 3 0 524288 0 []), 2, 3, 524288, 0,
    by and_intros <;> first | exact tWaits _ _ rfl rfl | decide +kernel⟩,
   ⟨tUp, ⟨0x0102, 0, []⟩, 3,
    by and_intros <;> decide +kernel⟩,
   ⟨tUp,
    by and_intros <;> decide +kernel⟩,
   ⟨{ tUp with tel := { tUp.tel with stage := 1 } },
    by and_intros <;> decide +kernel⟩,
   ⟨{ tUp with tel := { tUp.tel with stage := 2 } },
    by and_intros <;> decide +kernel⟩,
   ⟨{ tUp with tel := { tUp.tel with coal := [⟨0, 1, 2, 0, 1, 0, 0, 0, []⟩] } }, 1, 2, ⟨0, 1, 2, 0, 1, 0, 0, 0, []⟩,
    [],
    by and_intros <;> decide +kernel⟩,
   ⟨{ tUp with tel := { tUp.tel with coal := [⟨0, 1, 2, 0, 1, 0, 0, 0, []⟩], stage := 2 } }, 1, 2, ⟨0, 1, 2, 0, 1, 0,
    0, 0, []⟩, [],
    by and_intros <;> decide +kernel⟩,
   ⟨{ tUp with tel := { tUp.tel with hold := true } },
    by and_intros <;> decide +kernel⟩,
   ⟨tLog, 0, tEvent, tEvent,
    by dsimp only; and_intros <;> decide +kernel⟩,
   ⟨{ tLog with tel := { tLog.tel with collectors := [⟨true, 0, 1, 0, 0, 1, 0⟩] } }, 0, ⟨true, 0, 1, 0, 0, 1, 0⟩,
    tEvent,
    by and_intros <;> decide +kernel⟩,
   ⟨{ tUp with tel := { tUp.tel with tokens := 7 } },
    by and_intros <;> decide +kernel⟩⟩

theorem test_meets_LogStaysOrdered : ∃ (s : State) (m : Merged) (flags : Nat) (x : _), s.tel.log.Pairwise (fun a b =>
    a.seq < b.seq) ∧ (∀ x ∈ s.tel.log, x.seq < s.tel.nextSeq ∧ x.seq ≠ m.seq) ∧ m.seq < s.tel.nextSeq ∧ x ∈ s.tel.log
    ∧ 2 ≤ x.sev :=
  ⟨tLog, ⟨0, 1, 2, 0, 1, 0, 0, 0, []⟩, 0, tEvent,
    by and_intros <;> first | decide +kernel | (intro x hx; simp [tLog] at hx; subst hx; decide +kernel) | simp [tLog]⟩

theorem test_meets_SecurityCompletes :
  (∃ (s : State) (iss : Issuer) (i : Nat) (e : CmdEntry) (nonce : BitVec 256), Waits s (.attest iss nonce) i e) ∧
  (∃ (s : State) (iss : Issuer) (i : Nat) (e : CmdEntry) (scheme depth : Byte) (der : List Byte), Waits s (.certRead
    iss scheme depth 0) i e ∧ scheme.toNat < 2 ∧ certificate scheme.toNat depth.toNat = some der) ∧
  (∃ (s : State) (iss : Issuer) (i : Nat) (e : CmdEntry) (handle : BitVec 16) (met : List BlockErr) (o : Obj), Waits s
    (.fwUpdate iss handle 0 met) i e ∧ s.objOf (s.slot i).number handle.toNat = some o ∧ s.objBusy handle.toNat =
    false ∧ o.sealed = true ∧ o.type = 2 ∧ (s.readObject handle.toNat 0 o.length met).1 = false ∧ o.length ≤ 134217728
    ∧ s.fwBusy = false ∧ s.activeSlot = s.boot.runningSlot) ∧
  (∃ (s : State) (iss : Issuer) (i : Nat) (e : CmdEntry) (slot : Byte), slot.toNat < 2 ∧ s.fwBusy = false ∧ Waits s
    (.fwActivate iss slot 0 0) i e) ∧
  (∃ (s : State) (iss : Issuer) (i : Nat) (e : CmdEntry) (slot : Byte), slot.toNat < 2 ∧ s.fwBusy = false ∧ Waits s
    (.fwActivate iss slot 1 0) i e) ∧
  (∃ (s : State) (iss : Issuer) (i : Nat) (e : CmdEntry) (slot : Byte), slot.toNat < 2 ∧ s.fwBusy = false ∧ Waits s
    (.fwActivate iss slot 2 0) i e ∧ decide (slot = 1) = s.boot.runningSlot) :=
  ⟨⟨tCmd (.attest tIss 0) tUp, tIss, 0, tEntry (.attest tIss 0), 0,
    by first | exact tWaits _ _ rfl rfl | decide +kernel⟩,
   ⟨tCmd (.certRead tIss 1 0 0) tUp, tIss, 0, tEntry (.certRead tIss 1 0 0), 1, 0, (Config.certChain 1).device,
    by and_intros <;> first | exact tWaits _ _ rfl rfl | decide +kernel | rfl⟩,
   ⟨tCmd (.fwUpdate tIss 5 0 []) (tHas (tObj 2 134217728 []) tUp), tIss, 0, tEntry (.fwUpdate tIss 5 0 []), 5, [],
    tObj 2 134217728 [],
    by and_intros <;> first | exact tWaits _ _ rfl rfl | decide +kernel⟩,
   ⟨tCmd (.fwActivate tIss 1 0 0) tUp, tIss, 0, tEntry (.fwActivate tIss 1 0 0), 1,
    by and_intros <;> first | exact tWaits _ _ rfl rfl | decide +kernel⟩,
   ⟨tCmd (.fwActivate tIss 1 1 0) tUp, tIss, 0, tEntry (.fwActivate tIss 1 1 0), 1,
    by and_intros <;> first | exact tWaits _ _ rfl rfl | decide +kernel⟩,
   ⟨tCmd (.fwActivate tIss 0 2 0) tUp, tIss, 0, tEntry (.fwActivate tIss 0 2 0), 0,
    by and_intros <;> first | exact tWaits _ _ rfl rfl | decide +kernel⟩⟩

theorem test_meets_OpticsCommandsComplete :
  (∃ (s : State) (iss : Issuer) (i : Nat) (e : CmdEntry) (engine : Byte), engine.toNat < 16 ∧ s.fnDown (fidOe
    engine.toNat) = false ∧ Waits s (.oeStatus iss engine 0) i e) ∧
  (∃ (s : State) (iss : Issuer) (i : Nat) (e : CmdEntry) (engine : Byte) (flags : Byte), engine.toNat < 16 ∧ s.fnDown
    (fidOe engine.toNat) = false ∧ flags.toNat < 2 ∧ (s.oe engine.toNat).cal = none ∧ Waits s (.oeCalibrate iss engine
    1 flags 0) i e) ∧
  (∃ (s : State) (iss : Issuer) (i : Nat) (e : CmdEntry) (engine : Byte) (flags : Byte), engine.toNat < 16 ∧ s.fnDown
    (fidOe engine.toNat) = false ∧ flags.toNat < 2 ∧ (s.oe engine.toNat).cal = none ∧ Waits s (.oeCalibrate iss engine
    2 flags 0) i e ∧ s.byPassed engine.toNat (rangeFrom (128 * engine.toNat) 128) = false ∧ (flags = 0 → ((rangeFrom
    (16 * engine.toNat) 16).flatMap s.portsOf).any s.portUp = false)) ∧
  (∃ (s : State) (iss : Issuer) (i : Nat) (e : CmdEntry) (engine : Byte) (dir fibre mask : Byte), engine.toNat < 16 ∧
    s.fnDown (fidOe engine.toNat) = false ∧ Waits s (.ringReseek iss engine dir fibre mask) i e ∧ dir.toNat < 2 ∧
    fibre.toNat < 16 ∧ mask ≠ 0 ∧
    (let rs := (maskBits 8 mask.toNat).map fun w => 128 * dir.toNat + 8 * fibre.toNat + w; s.byPassed engine.toNat
      (rs.map (laneOfRing engine.toNat)) = false)) ∧
  (∃ (s : State) (iss : Issuer) (i : Nat) (e : CmdEntry) (mask : BitVec 16) (tones : List Byte), Waits s (.pilotPlan
    iss mask 0 tones) i e ∧ tones.length = 8 ∧ (∀ t < 8, ∃ x ∈ tones, x.toNat = t) ∧ (∀ f ∈ (maskBits 16
    mask.toNat).map fidOe, s.fnDown f = false)) :=
  ⟨⟨tCmd (.oeStatus tIss 15 0) tUp, tIss, 0, tEntry (.oeStatus tIss 15 0), 15,
    by and_intros <;> first | exact tWaits _ _ rfl rfl | decide +kernel⟩,
   ⟨tCmd (.oeCalibrate tIss 15 1 1 0) tUp, tIss, 0, tEntry (.oeCalibrate tIss 15 1 1 0), 15, 1,
    by and_intros <;> first | exact tWaits _ _ rfl rfl | decide +kernel⟩,
   ⟨tCmd (.oeCalibrate tIss 15 2 1 0) tUp, tIss, 0, tEntry (.oeCalibrate tIss 15 2 1 0), 15, 1,
    by and_intros <;> first | exact tWaits _ _ rfl rfl | decide +kernel⟩,
   ⟨tCmd (.ringReseek tIss 15 1 15 255) tUp, tIss, 0, tEntry (.ringReseek tIss 15 1 15 255), 15, 1, 15, 255,
    by dsimp only; and_intros <;> first | exact tWaits _ _ rfl rfl | decide +kernel⟩,
   ⟨tCmd (.pilotPlan tIss 0xFFFF 0 [0, 1, 2, 3, 4, 5, 6, 7]) tUp, tIss, 0, tEntry (.pilotPlan tIss 0xFFFF 0 [0, 1, 2,
    3, 4, 5, 6, 7]), 0xFFFF, [0, 1, 2, 3, 4, 5, 6, 7],
    by and_intros <;> first | exact tWaits _ _ rfl rfl | decide +kernel⟩⟩

theorem test_meets_RingRowsComplete :
  (∃ (s : State) (e : Engine) (r : RingIx) (code : BitVec 12), (s.ring e r).st = .seeking ∧ s.canSeek e r = true ∧
    (s.ring e r).heater ≤ code.toNat) ∧
  (∃ (s : State) (e : Engine) (r : RingIx) (code : BitVec 12), (s.ring e r).st = .seeking ∧ s.canSeek e r = true ∧
    code.toNat < (s.ring e r).heater) ∧
  (∃ (s : State) (e : Engine) (r : RingIx), (s.ring e r).st = .parked ∧ (s.ring e r).retry = true ∧ s.suspended e r =
    false) ∧
  (∃ (s : State) (e : Engine) (r : RingIx), (s.ring e r).st = .wrong ∧ s.suspended e r = false) ∧
  (∃ (s : State) (e : Engine) (r : RingIx), ((s.ring e r).st = .locked ∨ (s.ring e r).st = .verified) ∧ s.suspended e
    r = false) ∧
  (∃ (s : State) (e : Engine) (r : RingIx), (s.ring e r).st = .lost ∧ s.suspended e r = false ∧ (s.oe e).steep =
    false) ∧
  (∃ (s : State) (e : Engine) (r : RingIx), (s.ring e r).st = .lost ∧ s.suspended e r = false ∧ (s.ring e r).caught =
    true) ∧
  (∃ (s : State) (e : Engine) (r : RingIx), (s.ring e r).st = .lost ∧ s.suspended e r = false ∧ (s.ring e r).caught =
    false ∧ (s.ring e r).at_ ≠ 0) ∧
  (∃ (s : State) (e : Engine) (r : RingIx) (win : PilotWindow), s.suspended e r = false ∧
    (let x := s.ring e r;
      (let right := confirms win x.window.2; x.st = .locked ∧ right = true))) ∧
  (∃ (s : State) (e : Engine) (r : RingIx) (win : PilotWindow), s.suspended e r = false ∧
    (let x := s.ring e r;
      (let right := confirms win x.window.2; x.st = .locked ∧ right = false ∧ clearWin win = true ∧ x.sweep = true))) ∧
  (∃ (s : State) (e : Engine) (r : RingIx) (win : PilotWindow), s.suspended e r = false ∧
    (let x := s.ring e r;
      (let right := confirms win x.window.2; x.st = .locked ∧ right = false ∧ clearWin win = true ∧ x.sweep = false))) ∧
  (∃ (s : State) (e : Engine) (r : RingIx) (win : PilotWindow), s.suspended e r = false ∧
    (let x := s.ring e r; x.st = .locked ∧ clearWin win = false)) ∧
  (∃ (s : State) (e : Engine) (r : RingIx) (win : PilotWindow), s.suspended e r = false ∧
    (let x := s.ring e r;
      (let right := confirms win x.window.2; x.st = .verified ∧ right = true))) ∧
  (∃ (s : State) (e : Engine) (r : RingIx) (win : PilotWindow), s.suspended e r = false ∧
    (let x := s.ring e r;
      (let right := confirms win x.window.2; x.st = .verified ∧ right = false ∧ x.fails = 0))) ∧
  (∃ (s : State) (e : Engine) (r : RingIx) (win : PilotWindow), s.suspended e r = false ∧
    (let x := s.ring e r;
      (let right := confirms win x.window.2; x.st = .verified ∧ right = false ∧ x.fails ≠ 0))) ∧
  (∃ (s : State) (e : Engine) (a b c d : BitVec 16), s.boot.phase = .done ∧ s.fnDown (fidOe e) = false ∧ (∀ t ∈ [a, b,
    c, d], hotSensor t.toNat = false)) ∧
  (∃ (s : State) (e : Engine) (temps : List (BitVec 16)) (loop : List (RingIx × BitVec 12)), temps.length = 4 ∧
    s.boot.phase = .done ∧ s.fnDown (fidOe e) = false) :=
  ⟨⟨tRing fun x => { x with st := .seeking }, 0, 0, 0,
    by and_intros <;> decide +kernel⟩,
   ⟨tRing fun x => { x with st := .seeking, heater := 1 }, 0, 0, 0,
    by and_intros <;> decide +kernel⟩,
   ⟨tRing fun x => { x with retry := true }, 0, 0,
    by and_intros <;> decide +kernel⟩,
   ⟨tRing fun x => { x with st := .wrong }, 0, 0,
    by and_intros <;> decide +kernel⟩,
   ⟨tRing fun x => { x with st := .verified }, 0, 0,
    by and_intros <;> decide +kernel⟩,
   ⟨tRing fun x => { x with st := .lost }, 0, 0,
    by and_intros <;> decide +kernel⟩,
   ⟨tRing fun x => { x with st := .lost, caught := true }, 0, 0,
    by and_intros <;> decide +kernel⟩,
   ⟨tRing fun x => { x with st := .lost, at_ := 5 }, 0, 0,
    by and_intros <;> decide +kernel⟩,
   ⟨tRing fun x => { x with st := .locked }, 0, 0, tDepths (some 0),
    by dsimp only; and_intros <;> decide +kernel⟩,
   ⟨tRing fun x => { x with st := .locked, sweep := true }, 0, 0, tDepths (some 1),
    by dsimp only; and_intros <;> decide +kernel⟩,
   ⟨tRing fun x => { x with st := .locked }, 0, 0, tDepths (some 1),
    by dsimp only; and_intros <;> decide +kernel⟩,
   ⟨tRing fun x => { x with st := .locked }, 0, 0, tDepths none,
    by dsimp only; and_intros <;> decide +kernel⟩,
   ⟨tRing fun x => { x with st := .verified }, 0, 0, tDepths (some 0),
    by dsimp only; and_intros <;> decide +kernel⟩,
   ⟨tRing fun x => { x with st := .verified }, 0, 0, tDepths none,
    by dsimp only; and_intros <;> decide +kernel⟩,
   ⟨tRing fun x => { x with st := .verified, fails := 1 }, 0, 0, tDepths none,
    by dsimp only; and_intros <;> decide +kernel⟩,
   ⟨tUp, 15, 1440, 0, 0, 0,
    by and_intros <;> first | (intro t ht; simp at ht; rcases ht with h | h <;> subst h <;> decide +kernel) | decide +kernel⟩,
   ⟨tUp, 15, [0, 0, 0, 0], [],
    by and_intros <;> decide +kernel⟩⟩

theorem test_meets_FibreRowsComplete :
  (∃ (s : State) (f : Fibre) (b : Bool), s.boot.phase ≠ .reset) ∧
  (∃ (s : State) (l n : Nat) (x : CswPath), s.csw.paths = [(n, x)] ∧ n / 128 * 128 + 8 * x.src + n % 8 = l ∧ x.st =
    .opened) ∧
  (∃ (s : State) (f : Fibre), (s.eye f.val).st = .closed) ∧
  (∃ (s : State) (f : Fibre), s.boot.phase ≠ .reset) ∧
  (∃ (s : State) (f : Fibre), (s.eye f.val).st = .probing ∧ (s.eye f.val).light = true) ∧
  (∃ (s : State) (e : Engine) (b : Bool), (if b then (s.oe e).laserB else (s.oe e).laserA) = false ∧ s.boot.phase ≠
    .reset ∧ s.fnDown (fidOe e) = false) ∧
  (∃ (s : State) (l : Lane) (uncorr corrected : Nat),
    (let r := ringOf l.val .rx;
      (let e := engineOf l.val; ((s.ring e r).st ≠ .verified ∨ (s.ring e r).lapsed = true ∨ (s.lane l.val).diverted =
        true)))) ∧
  (∃ (s : State) (l : Lane) (uncorr corrected : Nat) (n : _),
    (let r := ringOf l.val .rx;
      (let e := engineOf l.val;
        (let ix := [tileOf l.val, slotOf l.val];
          (let u := s.every .errorWindow l.val (s.regBits .oeErrConfig [e] 7 0 * 100000);
            (let t := (u.bumpBy .tileLaneFecCorr ix corrected).bumpBy .tileLaneFecUncorr ix uncorr; (s.ring e r).st =
              .verified ∧ (s.ring e r).lapsed = false ∧ (s.lane l.val).diverted = false ∧ (s.ring e r).errDrop = true
              ∧ n = (if t.cleanWindow e uncorr corrected then (s.ring e r).clean + 1 else 0))))))) ∧
  (∃ (s : State) (l : Lane) (uncorr corrected : Nat),
    (let r := ringOf l.val .rx;
      (let e := engineOf l.val;
        (let crosses : Bool := decide (s.regBits .oeErrConfig [e] 15 8 ≤ uncorr ∨ s.regBits .oeErrConfig [e] 23 16 * codewordsIn (s.regBits .oeErrConfig [e] 7 0) < 16 * corrected);
          (s.ring e r).st = .verified ∧ (s.ring e r).lapsed = false ∧ (s.lane l.val).diverted = false ∧ (s.ring e
          r).errDrop = false ∧ (s.eye (fibreOf l.val)).st = .opened ∧ crosses = false)))) ∧
  (∃ (s : State) (l : Lane) (uncorr corrected : Nat) (v : _),
    (let r := ringOf l.val .rx;
      (let e := engineOf l.val;
        (let ix := [tileOf l.val, slotOf l.val];
          (let u := s.every .errorWindow l.val (s.regBits .oeErrConfig [e] 7 0 * 100000);
            (let t := (u.bumpBy .tileLaneFecCorr ix corrected).bumpBy .tileLaneFecUncorr ix uncorr;
              (let crosses : Bool := decide (s.regBits .oeErrConfig [e] 15 8 ≤ uncorr ∨ s.regBits .oeErrConfig [e] 23 16 * codewordsIn (s.regBits .oeErrConfig [e] 7 0) < 16 * corrected);
                (s.ring e r).st = .verified ∧ (s.ring e r).lapsed = false ∧ (s.lane l.val).diverted = false ∧ (s.ring
                e r).errDrop = false ∧ (s.eye (fibreOf l.val)).st = .opened ∧ crosses = true ∧ t.askUnit = (true,
                v)))))))) ∧
  (∃ (s : State) (l : Lane) (uncorr corrected : Nat) (v : _),
    (let r := ringOf l.val .rx;
      (let e := engineOf l.val;
        (let ix := [tileOf l.val, slotOf l.val];
          (let u := s.every .errorWindow l.val (s.regBits .oeErrConfig [e] 7 0 * 100000);
            (let t := (u.bumpBy .tileLaneFecCorr ix corrected).bumpBy .tileLaneFecUncorr ix uncorr;
              (let crosses : Bool := decide (s.regBits .oeErrConfig [e] 15 8 ≤ uncorr ∨ s.regBits .oeErrConfig [e] 23 16 * codewordsIn (s.regBits .oeErrConfig [e] 7 0) < 16 * corrected);
                (s.ring e r).st = .verified ∧ (s.ring e r).lapsed = false ∧ (s.lane l.val).diverted = false ∧ (s.ring
                e r).errDrop = false ∧ (s.eye (fibreOf l.val)).st = .opened ∧ crosses = true ∧ t.askUnit = (false,
                v)))))))) :=
  ⟨⟨tUp, 255, true,
    by decide +kernel⟩,
   ⟨{ tUp with csw := ⟨[(0, ⟨.opened, 0, 0, true, 0, 0, false, (5, 0)⟩)], [], [], [], []⟩ }, 0, 0, ⟨.opened, 0, 0,
    true, 0, 0, false, (5, 0)⟩,
    by and_intros <;> decide +kernel⟩,
   ⟨tUp.setEye 255 fun y => { y with st := .closed }, 255,
    by decide +kernel⟩,
   ⟨tUp, 255,
    by decide +kernel⟩,
   ⟨tUp.setEye 255 fun y => { y with st := .probing, light := true }, 255,
    by and_intros <;> decide +kernel⟩,
   ⟨tUp, 15, true,
    by and_intros <;> decide +kernel⟩,
   ⟨tUp, 0, 0, 0,
    by dsimp only; decide +kernel⟩,
   ⟨((tPort 128 .up).setRing 0 (ringOf 0 .rx) fun x => { x with errDrop := true }), 0, 0, 0, 1,
    by dsimp only; and_intros <;> first | decide +kernel | rfl⟩,
   ⟨((tPort 128 .up).setEye 0 fun y => { y with st := .opened }), 0, 0, 0,
    by dsimp only; and_intros <;> decide +kernel⟩,
   ⟨((tPort 128 .up).setEye 0 fun y => { y with st := .opened }), 0, 255, 0, (((((((tPort 128 .up).setEye 0 fun y => {
    y with st := .opened }).every .errorWindow 0 (((tPort 128 .up).setEye 0 fun y => { y with st := .opened }).regBits
    .oeErrConfig [0] 7 0 * 100000))).bumpBy .tileLaneFecCorr [0, 0] 0).bumpBy .tileLaneFecUncorr [0, 0]
    255).askUnit).2,
    by dsimp only; and_intros <;> first | exact tPair (by decide +kernel) | decide +kernel⟩,
   ⟨tSpent ((tPort 128 .up).setEye 0 fun y => { y with st := .opened }), 0, 255, 0, ((((((tSpent ((tPort 128
    .up).setEye 0 fun y => { y with st := .opened })).every .errorWindow 0 ((tSpent ((tPort 128 .up).setEye 0 fun y =>
    { y with st := .opened })).regBits .oeErrConfig [0] 7 0 * 100000))).bumpBy .tileLaneFecCorr [0, 0] 0).bumpBy
    .tileLaneFecUncorr [0, 0] 255).askUnit).2,
    by dsimp only; and_intros <;> first | exact tPair (by decide +kernel) | decide +kernel⟩⟩

theorem test_meets_QueueOrderKept : ∃ (s t : State), step s = .next t :=
  ⟨tUp, { tUp with time := tUp.time.advance 1 },
    by rfl⟩

theorem test_meets_SlotsAndBanksKept :
  (∃ (s t : State), step s = .next t ∧ s.mgmt.slots.length = 8) ∧
  (∃ (s t : State), step s = .next t ∧ s.oneActive) :=
  ⟨⟨tUp, { tUp with time := tUp.time.advance 1 },
    by and_intros <;> rfl⟩,
   ⟨tUp, { tUp with time := tUp.time.advance 1 },
    by refine ⟨rfl, ?_⟩; unfold State.oneActive; decide +kernel⟩⟩

theorem test_meets_TableEntriesKept : ∃ (s t : State), step s = .next t ∧ s.tables.entries.wf = true :=
  ⟨tUp, { tUp with time := tUp.time.advance 1 },
    by and_intros <;> first | rfl | decide +kernel⟩

end Sys2Proof.Machine
end

section
/-! PROOFS. Counters that saturate (R16): the value after one raise, after any number of raises, and after a clear. -/

namespace Sys2Proof.Machine

/-! ## One raise -/

@[simp] theorem satAdd_toNat {w : Nat} (x : BitVec w) (n : Nat) :
    (satAdd x n).toNat = min (x.toNat + n) (2 ^ w - 1) := by
  have hpos : 0 < 2 ^ w := Nat.two_pow_pos w
  have hlt : min (x.toNat + n) (2 ^ w - 1) < 2 ^ w := by omega
  rw [satAdd, BitVec.toNat_ofNat, Nat.mod_eq_of_lt hlt]

@[simp] theorem satAdd_zero {w : Nat} (x : BitVec w) : satAdd x 0 = x := by
  apply BitVec.eq_of_toNat_eq
  have hx := x.isLt
  rw [satAdd_toNat]
  omega

@[simp] theorem bumpBy_reg (s : State) (r : Reg) (ix : List Nat) (n : Nat) :
    (s.bumpBy r ix n).reg r ix = satAdd (s.reg r ix) n := setReg_reg s r ix _

theorem csItem_csAdd (s : State) (set index item n : Nat) :
    (s.csAdd set index item n).csItem set index item = min (s.csItem set index item + n) (2 ^ 64 - 1) := by
  simp only [State.csItem, State.csAdd, AMap.getD_modD_same, satAdd_toNat]

/-! ## Any number of raises -/

/-- Raises that each stop at `top` add up to one raise by their sum that stops at `top`: what an earlier raise
lost above `top`, a later one cannot bring back. -/
theorem foldl_saturates {σ : Type} (raise : σ → Nat → σ) (count : σ → Nat) (top : Nat)
    (hraise : ∀ s n, count (raise s n) = min (count s + n) top) (ns : List Nat) (s : σ) (hs : count s ≤ top) :
    count (ns.foldl raise s) = min (count s + ns.sum) top := by
  induction ns generalizing s with
  | nil => exact (Nat.min_eq_left hs).symm
  | cons n ns ih =>
    have hnext : count (raise s n) ≤ top := (hraise s n).trans_le (Nat.min_le_right _ _)
    rw [List.foldl_cons, ih _ hnext, hraise, List.sum_cons]
    omega

theorem reg_foldl_bumpBy (s : State) (r : Reg) (ix ns : List Nat) :
    ((ns.foldl (fun s n => s.bumpBy r ix n) s).reg r ix).toNat = min ((s.reg r ix).toNat + ns.sum) (2 ^ 32 - 1) :=
  foldl_saturates (fun s n => s.bumpBy r ix n) (fun s => (s.reg r ix).toNat) _
    (fun s n => by rw [bumpBy_reg, satAdd_toNat]) ns s (Nat.le_sub_one_of_lt (s.reg r ix).isLt)

theorem csItem_foldl_csAdd (s : State) (set index item : Nat) (ns : List Nat) :
    (ns.foldl (fun s n => s.csAdd set index item n) s).csItem set index item =
      min (s.csItem set index item + ns.sum) (2 ^ 64 - 1) :=
  foldl_saturates (fun s n => s.csAdd set index item n) (fun s => s.csItem set index item) _
    (fun s n => csItem_csAdd s set index item n) ns s (Nat.le_sub_one_of_lt (BitVec.isLt _))

/-! ## A clear -/

theorem clearCounter_reg (s : State) (r : Reg) (ix : List Nat) (n : Nat) (h : r.mask .rc ≠ 0) :
    (s.clearCounter r ix n).reg r ix = satAdd 0 n := by
  rw [State.clearCounter, if_neg h, setReg_reg]

/-- A key that has been deleted stays so, whichever keys are deleted before and after it. -/
theorem AMap.find_foldl_del {α : Type} (key : Nat → Nat) (ks : List Nat) (m : AMap α) (j : Nat) :
    (ks.foldl (fun m k => m.del (key k)) m).find j = if j ∈ ks.map key then none else m.find j := by
  induction ks generalizing m with
  | nil => simp
  | cons k ks ih =>
    rw [List.foldl_cons, ih]
    by_cases hj : j = key k
    · simp [hj]
    · simp [hj, AMap.find_del_ne m hj]

/-- Set 2 is left out: the clear sets its PEAK to the depth of the queue (R577). -/
theorem csItem_csClear (s : State) {set : Nat} (index : Nat) {item : Nat}
    (hitem : item < ((setShape set).getD (0, 0)).1) (hset : set ≠ 2) :
    (s.csClear set index).csItem set index item = 0 := by
  have hmem : csKey set index item ∈ (List.range ((setShape set).getD (0, 0)).1).map (csKey set index) :=
    List.mem_map_of_mem (List.mem_range.mpr hitem)
  simp only [State.csItem, State.csClear, if_neg hset, AMap.getD, AMap.find_foldl_del, if_pos hmem]
  rfl

/-- Settles O18: a raise that stops at all ones, repeated by `foldl_saturates`; a clear writes 0 to a register and
deletes every item of an index. -/
theorem countersSaturate : Obligations.CountersSaturate :=
  ⟨reg_foldl_bumpBy, csItem_foldl_csAdd,
    fun s r ix h => (clearCounter_reg s r ix 0 h).trans (satAdd_zero 0),
    fun s _ index _ hitem hset _ _ => csItem_csClear s index hitem hset⟩

end Sys2Proof.Machine
end

section
/-! PROOFS. A command that writes registers, and the word that REG_MODIFY writes (R75). -/

namespace Sys2Proof.Machine

/-! ## A command on one address -/

/-- An address that names a register of functions that are all in service passes the checks (R18). -/
theorem atReg_found {s : State} {a : Addr} {r : Reg} {ix : List Nat} (hloc : locate a = some (r, ix))
    (hup : s.ownerDown a.toNat = none) (off : Nat) (k : Reg → List Nat → Ans × State) : s.atReg a off k = k r ix := by
  simp only [State.atReg, hloc, hup]

/-! ## A command that writes registers -/

/-- A waiting command that writes registers and completes: once its reply is sent, idle sessions close where the
write changed KEEPALIVE (R88). -/
theorem regWriting_done {s s' : State} {c : Instr} {i : Nat} {e : CmdEntry} (h : Waits s c i e) {body : Body}
    {st det : Nat} {res : List Byte} (hbody : body i s = (.done st det res, s')) (hst : st ≠ stInternal) :
    regWriting c body s =
      if (s'.ends i e st det res).regBits .cmdConfig [] 7 0 = s.regBits .cmdConfig [] 7 0
      then s'.ends i e st det res else (s'.ends i e st det res).closeIdle :=
  (hostCmdThen_waits h body _).trans (runCmd_done hbody hst)

/-- The row of REG_MODIFY is its own register command. -/
theorem exec_regModify (iss : Issuer) (a : Addr) (mask v : Word) (s : State) :
    exec (.regModify iss a mask v) s = execRegModify iss a mask v s := rfl

/-- The read, its latches and the write of REG_MODIFY are one body, with no other access between them (R75). -/
theorem exec_regModify_waits {s : State} {iss : Issuer} {i : Nat} {e : CmdEntry} {a : Addr} {r : Reg} {ix : List Nat}
    {mask v : Word} (h : Waits s (.regModify iss a mask v) i e) (hloc : locate a = some (r, ix))
    (hup : s.ownerDown a.toNat = none) :
    let w := modifiedWord r (s.readNow r ix) mask v
    let t := ((s.latchOn r ix).writeReg r ix w 0 (s.slot i).number).ends i e stOk 0 (leBytes (s.readNow r ix) ++ leBytes w)
    exec (.regModify iss a mask v) s =
      .next (if t.regBits .cmdConfig [] 7 0 = s.regBits .cmdConfig [] 7 0 then t else t.closeIdle) := by
  rw [exec_regModify, execRegModify]
  exact congrArg Host.Outcome.next (regWriting_done h (atReg_found hloc hup 0 _) (by decide))

/-! ## The word that REG_MODIFY writes -/

/-- The value under the mask; outside it the old value, but 0 in a W1C, WO or RC field (R75). -/
theorem modifiedWord_getLsbD (r : Reg) (old mask v : Word) {n : Nat} (hn : n < 32) :
    (modifiedWord r old mask v).getLsbD n =
      if mask.getLsbD n then v.getLsbD n
      else old.getLsbD n && !((r.mask .w1c).getLsbD n || (r.mask .wo).getLsbD n || (r.mask .rc).getLsbD n) := by
  simp only [modifiedWord, BitVec.getLsbD_or, BitVec.getLsbD_and, BitVec.getLsbD_not, hn, decide_true, Bool.true_and]
  cases mask.getLsbD n with
  | true => simp
  | false => simp

/-- Settles O16: the command is one body that completes (`exec_regModify_waits`), and its word is read bit by bit. -/
theorem modifyWrites : Obligations.ModifyWrites :=
  ⟨fun _ _ _ _ _ _ _ _ _ h hloc hup => exec_regModify_waits h hloc hup,
    fun r old mask v _ hn => modifiedWord_getLsbD r old mask v hn⟩

end Sys2Proof.Machine
end

section
/-! PROOFS. TIME_ADJUST by the state of the clock (R299): its checks, the refusal by the servo, and its two replies. -/

namespace Sys2Proof.Machine

/-! ## A command that ends -/

/-- The first parameter that fails is named, whatever stands after it (R69). -/
theorem guardParams_bad {good rest : List (Bool × Nat)} {off : Nat} (s : State) (k : Ans × State)
    (hgood : ∀ c ∈ good, c.1 = true) : guardParams (good ++ (false, off) :: rest) s k = (badParam off, s) := by
  have hnone : good.find? (fun c => !c.1) = none := by
    rw [List.find?_eq_none]
    intro c hc
    simp [hgood c hc]
  simp [guardParams, firstBad, List.find?_append, hnone]

/-- A waiting command that gives a final answer other than INTERNAL ends with it. -/
theorem hostCmd_done {s s' : State} {c : Instr} {i : Nat} {e : CmdEntry} (h : Waits s c i e) {body : Body}
    {st det : Nat} {res : List Byte} (hbody : body i s = (.done st det res, s')) (hst : st ≠ stInternal) :
    hostCmd c body s = s'.ends i e st det res :=
  (hostCmd_waits h body).trans (runCmd_done hbody hst)

/-! ## The checks of TIME_ADJUST -/

/-- A base rate must lie in the bounds of R294, where FLAGS say that it is set. -/
def adjustBaseOk (flags : Byte) (base : BitVec 32) : Bool :=
  !flags.getLsbD 1 || decide (-baseMax ≤ signed base ∧ signed base ≤ baseMax)

/-- The parameters of TIME_ADJUST with the offset that each one's failure names (R69). -/
def adjustChecks (flags : Byte) (rsv : BitVec 24) (base : BitVec 32) : List (Bool × Nat) :=
  [(decide (flags.toNat < 4), 0), rsvOk rsv 1, (adjustBaseOk flags base, 12)]

/-- Where every parameter passes and the time unit is in service, the state of the clock decides. -/
theorem adjust_guards_ok {s : State} {flags : Byte} {base : BitVec 32} (hf : flags.toNat < 4)
    (hb : adjustBaseOk flags base = true) (hup : s.fnDown fidTime = false) (k : Ans × State) :
    guardParams (adjustChecks flags 0 base) s (guardUp [fidTime] s k) = k := by
  have hparams : ∀ c ∈ adjustChecks flags 0 base, c.1 = true := by simp [adjustChecks, rsvOk, hf, hb]
  rw [guardParams_ok s _ hparams, guardUp_ok s k (by simpa using hup)]

/-- A base out of bounds is refused where it stands, after FLAGS and the reserved field have passed. -/
theorem adjust_guards_base {s : State} {flags : Byte} {base : BitVec 32} (hf : flags.toNat < 4)
    (hb : adjustBaseOk flags base = false) (k : Ans × State) :
    guardParams (adjustChecks flags 0 base) s k = (badParam 12, s) := by
  rw [adjustChecks, hb]
  exact guardParams_bad (good := [(decide (flags.toNat < 4), 0), rsvOk 0 1]) s k (by simp [rsvOk, hf])

/-! ## TIME_ADJUST by the state of the clock -/

/-- The row of TIME_ADJUST is its own time command. -/
theorem exec_timeAdjust (iss : Issuer) (flags : Byte) (rsv : BitVec 24) (delta : BitVec 64) (base : BitVec 32)
    (s : State) : exec (.timeAdjust iss flags rsv delta base) s = execTimeAdjust iss flags rsv delta base s := rfl

/-- The host owns the clock from here on; the base rate is the one given, if it is to be set (R299). -/
def State.hostOwnsClock (s : State) (flags : Byte) (base : BitVec 32) : State :=
  { s with time := { s.time with clock := .host, base := if flags.getLsbD 1 then base.toInt else s.time.base } }

section
variable {s : State} {iss : Issuer} {i : Nat} {e : CmdEntry} {flags : Byte} {delta : BitVec 64} {base : BitVec 32}
  (h : Waits s (.timeAdjust iss flags 0 delta base) i e) (hf : flags.toNat < 4)
include h hf

theorem exec_timeAdjust_badBase (hb : adjustBaseOk flags base = false) :
    exec (.timeAdjust iss flags 0 delta base) s = .next (s.ends i e stBadParam 12 []) := by
  rw [exec_timeAdjust, execTimeAdjust]
  exact congrArg Host.Outcome.next (hostCmd_done h (adjust_guards_base hf hb _) (by decide))

variable (hb : adjustBaseOk flags base = true) (hup : s.fnDown fidTime = false)
include hb hup

theorem exec_timeAdjust_busy (hservo : s.time.clock = .tracking ∨ s.time.clock = .locked) :
    exec (.timeAdjust iss flags 0 delta base) s = .next (s.ends i e stBusy 2 []) := by
  rw [exec_timeAdjust, execTimeAdjust]
  exact congrArg Host.Outcome.next
    (hostCmd_done h ((adjust_guards_ok hf hb hup _).trans (if_pos hservo)) (by decide))

variable (hfree : ¬(s.time.clock = .tracking ∨ s.time.clock = .locked))
include hfree

/-- No offset to apply: APPLIED is 2. -/
theorem exec_timeAdjust_rate (hoff : flags.getLsbD 0 = false) :
    exec (.timeAdjust iss flags 0 delta base) s = .next ((s.hostOwnsClock flags base).ends i e stOk 0
      ([2, 0, 0, 0] ++ beBytes 8 (s.hostOwnsClock flags base).slewEnd)) := by
  rw [exec_timeAdjust, execTimeAdjust]
  refine congrArg Host.Outcome.next
    (hostCmd_done h ((adjust_guards_ok hf hb hup _).trans ((if_neg hfree).trans ?_)) (by decide))
  simp only [hoff, Bool.false_eq_true, if_false, Bool.not_false, if_true]
  rfl

/-- An offset to apply: APPLIED is 0 where it was stepped and 1 where it is slewed. -/
theorem exec_timeAdjust_offset (hoff : flags.getLsbD 0 = true) {stepped : Bool} {v : State}
    (hv : (s.hostOwnsClock flags base).correct (delta.toInt * 2 ^ 40) = (stepped, v)) :
    exec (.timeAdjust iss flags 0 delta base) s =
      .next (v.ends i e stOk 0 ([if stepped then 0 else 1, 0, 0, 0] ++ beBytes 8 v.slewEnd)) := by
  rw [exec_timeAdjust, execTimeAdjust]
  refine congrArg Host.Outcome.next
    (hostCmd_done h ((adjust_guards_ok hf hb hup _).trans ((if_neg hfree).trans ?_)) (by decide))
  simp only [State.hostOwnsClock] at hv
  simp only [hoff, signed, if_true, hv]
  cases stepped with
  | true => rfl
  | false => rfl

theorem exec_timeAdjust_accepted :
    ∃ (t : State) (res : List Byte), exec (.timeAdjust iss flags 0 delta base) s = .next (t.ends i e stOk 0 res) := by
  cases hoff : flags.getLsbD 0 with
  | false => exact ⟨_, _, exec_timeAdjust_rate h hf hb hup hfree hoff⟩
  | true => exact ⟨_, _, exec_timeAdjust_offset h hf hb hup hfree hoff rfl⟩

end

/-- Settles O34: check 12 looks at the base only with its flag; past the checks the state of the clock decides. -/
theorem timeAdjustByState : Obligations.TimeAdjustByState := by
  intro s iss i e flags delta base h hf inBounds
  refine ⟨fun hset hout => exec_timeAdjust_badBase h hf ?_, fun hbase hup => ?_⟩
  · exact Bool.or_eq_false_iff.mpr ⟨by rw [hset]; rfl, hout⟩
  · have hb : adjustBaseOk flags base = true :=
      Bool.or_eq_true_iff.mpr (hbase.imp (fun hkeep => by rw [hkeep]; rfl) id)
    refine ⟨exec_timeAdjust_busy h hf hb hup, fun hfree => exec_timeAdjust_accepted h hf hb hup ?_⟩
    rcases hfree with hc | hc | hc <;> simp [hc]

end Sys2Proof.Machine
end

section
/-! PROOFS. BAND and BOR (R337): a contribution as the two's complement value of its element, one step of the running
value seen at the width of the output format, and the result of a chunk's element. -/

namespace Sys2Proof.Machine

/-! ## Widths -/

/-- No format is wider than the 32 bits that `bwAnd` and `bwOr` work on. -/
theorem fmtBits_le_32 (f : Nat) : fmtBits f ≤ 32 := by
  unfold fmtBits
  split <;> decide

theorem fmtBits_pos (f : Nat) : 0 < fmtBits f := by
  unfold fmtBits
  split <;> decide

/-- Two's complement encodings agree on their low bits. -/
theorem setWidth_ofInt_of_le {w n : Nat} (h : w ≤ n) (v : Int) :
    (BitVec.ofInt n v).setWidth w = BitVec.ofInt w v := by
  apply BitVec.eq_of_toInt_eq
  rw [BitVec.toInt_setWidth, BitVec.toNat_ofInt, BitVec.toInt_ofInt]
  have hdvd : ((2 ^ w : Nat) : Int) ∣ ((2 ^ n : Nat) : Int) := Int.natCast_dvd_natCast.mpr (Nat.pow_dvd_pow 2 h)
  have hpos : ((2 ^ n : Nat) : Int) ≠ 0 := Int.natCast_ne_zero.mpr (Nat.two_pow_pos n).ne'
  rw [Int.toNat_of_nonneg (Int.emod_nonneg v hpos), Int.bmod_def, Int.bmod_def, Int.emod_emod_of_dvd v hdvd]

theorem ofInt_toInt_of_le {w n : Nat} (h : w ≤ n) (x : BitVec n) : BitVec.ofInt w x.toInt = x.setWidth w := by
  rw [← setWidth_ofInt_of_le h, BitVec.ofInt_toInt]

theorem ofInt_bwAnd {w : Nat} (h : w ≤ 32) (a b : Int) :
    BitVec.ofInt w (bwAnd a b) = BitVec.ofInt w a &&& BitVec.ofInt w b := by
  rw [bwAnd, ofInt_toInt_of_le h, BitVec.setWidth_and, setWidth_ofInt_of_le h, setWidth_ofInt_of_le h]

theorem ofInt_bwOr {w : Nat} (h : w ≤ 32) (a b : Int) :
    BitVec.ofInt w (bwOr a b) = BitVec.ofInt w a ||| BitVec.ofInt w b := by
  rw [bwOr, ofInt_toInt_of_le h, BitVec.setWidth_or, setWidth_ofInt_of_le h, setWidth_ofInt_of_le h]

/-! ## A contribution -/

theorem elemOf_lt (f : Nat) (p : BitVec 512) (i : Nat) : elemOf f p i < 2 ^ fmtBits f :=
  Nat.mod_lt _ (Nat.two_pow_pos _)

theorem contributionInt_eq_toInt (f : Nat) (p : BitVec 512) (i : Nat) :
    contributionInt f p i = (BitVec.ofNat (fmtBits f) (elemOf f p i)).toInt := by
  have hmsb : (BitVec.ofNat (fmtBits f) (elemOf f p i)).msb = bit (elemOf f p i) (fmtBits f - 1) := by
    have htop : fmtBits f - 1 < fmtBits f := Nat.sub_one_lt (fmtBits_pos f).ne'
    rw [BitVec.msb_eq_getLsbD_last, BitVec.getLsbD_ofNat, decide_eq_true htop, Bool.true_and,
      Nat.testBit_eq_decide_div_mod_eq, bit]
  rw [BitVec.toInt_eq_msb_cond, hmsb, BitVec.toNat_ofNat, Nat.mod_eq_of_lt (elemOf_lt f p i), contributionInt,
    Nat.cast_pow, Nat.cast_ofNat]

/-- The sign extension of R337. -/
theorem ofInt_contributionInt (w f : Nat) (p : BitVec 512) (i : Nat) :
    BitVec.ofInt w (contributionInt f p i) = (BitVec.ofNat (fmtBits f) (elemOf f p i)).signExtend w := by
  rw [contributionInt_eq_toInt, BitVec.signExtend]

/-! ## The running value -/

theorem addInt_run {op : Nat} (hop : 2 ≤ op) (f : Nat) (e : Elem) (v : Int) :
    (e.addInt f op v).run = runWith op e.run v := by
  rw [Elem.addInt, if_neg (by omega)]

/-- One more contribution, seen at a width `w` of at most 32 bits: the running value's low bits depend on nothing but
the low bits of what came before. -/
theorem addInt_run_bitwise {op w : Nat} (hop : op = 4 ∨ op = 5) (hw : w ≤ 32) (f : Nat) {e : Elem} {a : BitVec w}
    (ha : e.run.map (BitVec.ofInt w) = some a) (v : Int) :
    (e.addInt f op v).run.map (BitVec.ofInt w) =
      some (if op = 4 then a &&& BitVec.ofInt w v else a ||| BitVec.ofInt w v) := by
  obtain ⟨x, hx, rfl⟩ := Option.map_eq_some_iff.mp ha
  obtain rfl | rfl := hop
  · rw [addInt_run (by decide), hx, if_pos rfl, ← ofInt_bwAnd hw]
    rfl
  · rw [addInt_run (by decide), hx, if_neg (by decide), ← ofInt_bwOr hw]
    rfl

theorem foldl_addInt_run_bitwise {op w : Nat} (hop : op = 4 ∨ op = 5) (hw : w ≤ 32) (f i : Nat)
    (ps : List (BitVec 512)) {e : Elem} {a : BitVec w} (ha : e.run.map (BitVec.ofInt w) = some a) :
    (ps.foldl (fun e p => e.addInt f op (contributionInt f p i)) e).run.map (BitVec.ofInt w) =
      some (ps.foldl (fun a p => if op = 4 then a &&& BitVec.ofInt w (contributionInt f p i)
        else a ||| BitVec.ofInt w (contributionInt f p i)) a) := by
  induction ps generalizing e a with
  | nil => exact ha
  | cons p ps ih =>
    rw [List.foldl_cons, List.foldl_cons]
    exact ih (addInt_run_bitwise hop hw f ha (contributionInt f p i))

/-! ## The result -/

theorem resultInt_of_run {arith : Nat} (hop : 2 ≤ arOp arith) {e : Elem} {a : BitVec (fmtBits (arOut arith))}
    (ha : e.run.map (BitVec.ofInt (fmtBits (arOut arith))) = some a) (ctx chunk k i : Nat) :
    resultInt arith ctx chunk k i e = (a.toNat, 0) := by
  obtain ⟨x, hx, rfl⟩ := Option.map_eq_some_iff.mp ha
  simp only [resultInt, if_pos hop, hx, Option.getD_some, encInt]

/-- Settles O45: the first contribution is the running value, each further one keeps the running value's encoding in
the output format equal to the bitwise result, and the result is that encoding. -/
theorem bitwiseReduction : Obligations.BitwiseReduction := by
  intro arith ctx chunk k i first rest _ _ hop
  have hop2 : 2 ≤ arOp arith := by omega
  have hfirst : (Elem.init.addInt (arIn arith) (arOp arith) (contributionInt (arIn arith) first i)).run.map
      (BitVec.ofInt (fmtBits (arOut arith))) = some (BitVec.ofInt _ (contributionInt (arIn arith) first i)) := by
    rw [addInt_run hop2]
    rfl
  simp only [← ofInt_contributionInt, List.foldl_cons]
  exact resultInt_of_run hop2
    (foldl_addInt_run_bitwise hop (fmtBits_le_32 _) (arIn arith) i rest hfirst) ctx chunk k i

end Sys2Proof.Machine
end

