-- ==== Sys2Proof/Proofs/QueueClock.lean ====
section
/-! PROOFS. The front of the queue, the state at reset, the bits that a write leaves, and the counter C. -/

namespace Sys2Proof.Machine

/-- Settles O1: a step is defined by the front of the queue. -/
theorem stepRunsFront : Obligations.StepRunsFront := by
  refine ⟨fun s c rest => rfl, fun s hp hb hr => ?_, fun s hp h => ?_⟩
  · simp [step, hp, State.tick, hb, hr]
  · obtain h | h := h <;> simp [step, hp, State.tick, h]

/-- Settles O60: each value is the one that `State.reset` gives. -/
theorem resetState : Obligations.ResetState :=
  ⟨rfl, by simp [State.oneActive, State.reset], rfl, rfl, rfl, rfl, rfl, rfl, rfl, rfl, rfl, rfl, rfl, rfl⟩

/-! ## O17 -/

/-- No register has a field that is written both ways. -/
theorem rw_w1c_disjoint (r : Reg) : r.mask .rw &&& r.mask .w1c = 0 := by
  cases r <;> rfl

theorem writtenBits : Obligations.WrittenBits := by
  intro r old v hw n hn
  have apart : ((r.mask .rw).getLsbD n && (r.mask .w1c).getLsbD n) = false := by
    rw [← BitVec.getLsbD_and, rw_w1c_disjoint]
    exact BitVec.getLsbD_zero
  simp only [writtenWord, BitVec.getLsbD_or, BitVec.getLsbD_and, BitVec.getLsbD_not, hn, decide_true, Bool.true_and]
  revert apart
  cases (r.mask .rw).getLsbD n <;> cases (r.mask .w1c).getLsbD n <;> simp [Bool.or_comm]

/-! ## O36 -/
theorem advance_c (t : TimeSt) (n : Nat) : (t.advance n).c = t.c + BitVec.ofNat 96 (n * 2 ^ 32) := rfl

/-- The counter's nanoseconds after a number of cycles that keeps them below 2^64. -/
theorem now_advance (s : State) (n : Nat) (h : s.now + n < 2 ^ 64) :
    ({ s with time := s.time.advance n } : State).now = s.now + n := by
  have hc := s.time.c.isLt
  unfold State.now at h ⊢
  rw [advance_c, BitVec.toNat_add, BitVec.toNat_ofNat]
  generalize s.time.c.toNat = c at h hc
  omega

/-- The clock brought forward stands at the later of the two moments. -/
theorem advanceTo_now (s : State) (ns : Nat) (h : ns < 2 ^ 64) : (s.advanceTo ns).now = max s.now ns := by
  unfold State.advanceTo
  split
  · rename_i hlt
    rw [now_advance s _ (by omega)]
    omega
  · omega

/-- Settles O36. -/
theorem clockMovesForward : Obligations.ClockMovesForward := by
  intro s ns h
  rw [advanceTo_now s ns h]
  exact ⟨le_max_left _ _, le_max_right _ _, le_rfl, advanceTo_regs s ns, advanceTo_gen s ns⟩

end Sys2Proof.Machine
end

