-- ==== Sys2Proof/Proofs/Replay.lean ====
section
/-! PROOFS. The replay window (R58): what it holds after any run of offered sequences. -/

namespace Sys2Proof.Machine

/-! ## The window's bits -/

theorem bit_eq_testBit (n i : Nat) : bit n i = n.testBit i := Nat.testBit_eq_decide_div_mod_eq.symm

/-- One added at a place that is clear sets that place alone. -/
theorem testBit_add_two_pow {w j : Nat} (h : w.testBit j = false) (k : Nat) :
    (w + 2 ^ j).testBit k = (decide (k = j) || w.testBit k) := by
  obtain rfl | hne := eq_or_ne k j
  · simp [Nat.add_comm w, Nat.testBit_two_pow_add_eq, h]
  have hr : w % 2 ^ j < 2 ^ j := Nat.mod_lt _ (Nat.two_pow_pos j)
  have hw : w = 2 ^ (j + 1) * (w / 2 ^ (j + 1)) + w % 2 ^ j := by
    have even : w / 2 ^ j % 2 = 0 := by
      rw [Nat.testBit_eq_decide_div_mod_eq, decide_eq_false_iff_not] at h
      omega
    rw [Nat.pow_succ, ← Nat.div_div_eq_div_mul, Nat.mul_assoc]
    have := Nat.div_add_mod w (2 ^ j)
    have := Nat.div_add_mod (w / 2 ^ j) 2
    rw [even] at this
    simp_all
  have hs : w + 2 ^ j = 2 ^ (j + 1) * (w / 2 ^ (j + 1)) + (2 ^ j + w % 2 ^ j) := by omega
  have h2 : 2 ^ (j + 1) = 2 ^ j * 2 := Nat.pow_succ ..
  have out : (w + 2 ^ j).testBit k = w.testBit k := by
    rw [hs, Nat.testBit_two_pow_mul_add _ (by omega)]
    conv_rhs => rw [hw, Nat.testBit_two_pow_mul_add _ (by omega)]
    split
    · rw [Nat.testBit_two_pow_add_gt (by omega)]
    · rfl
  simp [out, hne]

/-- The window moved up by `d` places, with the new highest sequence in place 0. -/
theorem testBit_shifted (w : Nat) {d k : Nat} (hd : 0 < d) (hk : k < 64) :
    ((w * 2 ^ min 64 d) % 2 ^ 64 + 1).testBit k = (decide (k = 0) || decide (d ≤ k) && w.testBit (k - d)) := by
  have clear : ((w * 2 ^ min 64 d) % 2 ^ 64).testBit 0 = false := by
    rw [Nat.testBit_mod_two_pow, Nat.testBit_mul_two_pow]
    simp
    omega
  have := testBit_add_two_pow clear k
  rw [Nat.pow_zero, Nat.testBit_mod_two_pow, Nat.testBit_mul_two_pow] at this
  rw [this]
  by_cases hdk : d ≤ k
  · simp [hk, hdk, show min 64 d = d by omega]
  · simp [hk, hdk]

/-! ## The window holds what was accepted -/

/-- The highest sequence accepted and, in the window, those among the 64 below it. -/
structure WindowOf (x : Session) (acc : List Nat) : Prop where
  high : x.high = acc.foldl max 0
  zero : 0 ∈ acc
  below : ∀ q ∈ acc, q ≤ x.high
  bits : ∀ k < 64, k ≤ x.high → (x.window.testBit k = true ↔ x.high - k ∈ acc)

theorem foldl_max_eq (xs : List Nat) (a : Nat) : xs.foldl max a = max a (xs.foldl max 0) := by
  induction xs generalizing a with
  | nil => simp
  | cons x xs ih => rw [List.foldl_cons, List.foldl_cons, ih (max a x), ih (max 0 x)]; omega

theorem WindowOf.fresh {x : Session} {acc : List Nat} (h : WindowOf x acc) (q : Nat) :
    seqFresh x q = true ↔ (x.high < q ∨ (x.high ≤ q + 63 ∧ q ≤ x.high ∧ q ∉ acc)) := by
  simp only [seqFresh, bit_eq_testBit, Bool.and_eq_true, Bool.or_eq_true, decide_eq_true_eq, Bool.not_eq_true']
  by_cases hq : x.high < q
  · simp only [hq, true_or, and_true, iff_true]
    omega
  by_cases hn : x.high ≤ q + 63
  · have hb := h.bits (x.high - q) (by omega) (by omega)
    rw [show x.high - (x.high - q) = q by omega] at hb
    have h0 : q ∉ acc → q ≠ 0 := fun hm e => hm (e ▸ h.zero)
    rw [← hb, Bool.not_eq_true] at h0 ⊢
    constructor
    · rintro ⟨-, hl | ⟨-, hw⟩⟩
      · exact .inl hl
      · exact .inr ⟨hn, by omega, hw⟩
    · rintro (hl | ⟨-, -, hw⟩)
      · exact absurd hl hq
      · exact ⟨h0 hw, .inr ⟨by omega, hw⟩⟩
  · constructor
    · rintro ⟨-, hl | ⟨hl, -⟩⟩ <;> omega
    · rintro (hl | ⟨hl, -, -⟩) <;> omega

theorem WindowOf.free : WindowOf Session.free [0] where
  high := rfl
  zero := by simp
  below := by simp
  bits := by
    intro k _ hk
    obtain rfl : k = 0 := Nat.le_zero.mp hk
    simp [Session.free]

/-- A fresh sequence taken is the newest of those accepted. -/
theorem WindowOf.takeSeq {x : Session} {acc : List Nat} (h : WindowOf x acc) {q : Nat} (hq : seqFresh x q = true) :
    WindowOf (x.takeSeq q) (q :: acc) := by
  have hmax : (q :: acc).foldl max 0 = max q x.high := by
    rw [List.foldl_cons, foldl_max_eq, ← h.high]
    omega
  by_cases hlt : x.high < q
  · have high : (x.takeSeq q).high = q := by simp [Session.takeSeq, hlt]
    have window : (x.takeSeq q).window = (x.window * 2 ^ min 64 (q - x.high)) % 2 ^ 64 + 1 := by
      simp [Session.takeSeq, hlt]
    refine ⟨by rw [high, hmax]; omega, by simp [h.zero], fun p hp => ?_, fun k hk hkq => ?_⟩
    · rw [high]
      obtain rfl | hp := List.mem_cons.mp hp
      · exact le_rfl
      · exact (h.below p hp).trans hlt.le
    · rw [high] at hkq ⊢
      rw [window, testBit_shifted _ (by omega) hk, List.mem_cons, Bool.or_eq_true, Bool.and_eq_true,
        decide_eq_true_eq, decide_eq_true_eq]
      refine or_congr (by omega) ?_
      by_cases hd : q - x.high ≤ k
      · rw [h.bits (k - (q - x.high)) (by omega) (by omega), show x.high - (k - (q - x.high)) = q - k by omega]
        simp [hd]
      · simp only [hd, false_and, false_iff]
        intro hm
        have := h.below _ hm
        omega
  · have hnew := ((h.fresh q).mp hq).resolve_left hlt
    have high : (x.takeSeq q).high = x.high := by simp [Session.takeSeq, hlt]
    have window : (x.takeSeq q).window = x.window + 2 ^ (x.high - q) := by simp [Session.takeSeq, hlt]
    have clear : x.window.testBit (x.high - q) = false := by
      rw [← Bool.not_eq_true, h.bits _ (by omega) (by omega), show x.high - (x.high - q) = q by omega]
      exact hnew.2.2
    refine ⟨by rw [high, hmax]; omega, by simp [h.zero], fun p hp => ?_, fun k hk hkq => ?_⟩
    · rw [high]
      obtain rfl | hp := List.mem_cons.mp hp
      · omega
      · exact h.below p hp
    · rw [high] at hkq ⊢
      rw [window, testBit_add_two_pow clear, List.mem_cons, Bool.or_eq_true, decide_eq_true_eq, h.bits k hk hkq]
      exact or_congr (by omega) Iff.rfl

theorem WindowOf.offer {x : Session} {acc : List Nat} (h : WindowOf x acc) (q : Nat) :
    WindowOf (Session.offer (x, acc) q).1 (Session.offer (x, acc) q).2 := by
  unfold Session.offer
  split
  · rename_i hq
    exact h.takeSeq hq
  · exact h

theorem WindowOf.offers {x : Session} {acc : List Nat} (h : WindowOf x acc) (qs : List Nat) :
    WindowOf (qs.foldl Session.offer (x, acc)).1 (qs.foldl Session.offer (x, acc)).2 := by
  induction qs generalizing x acc with
  | nil => exact h
  | cons q qs ih => exact ih (h.offer q)

/-- Settles O7, by induction on the sequences offered: the window holds the accepted ones (`WindowOf`). -/
theorem replayWindowExact : Obligations.ReplayWindowExact := by
  intro qs q _
  have h := WindowOf.free.offers qs
  exact ⟨h.high, h.fresh q⟩

end Sys2Proof.Machine
end

