-- ==== Sys2Proof/Proofs/SessionChoice.lean ====
section
/-! PROOFS. The engine and the number of a new session (R56). -/

namespace Sys2Proof.Machine

/-! ## The engine that serves the fewest sessions -/

/-- The better of the engine chosen so far and one more. -/
def lighter (load : Nat → Nat) (best : Option Nat) (n : Nat) : Option Nat :=
  match best with
  | none => some n
  | some b => if load n < load b then some n else some b

theorem chooseEngine_eq (s : State) : s.chooseEngine =
    ([0, 1, 2, 3].filter fun n => !s.fnDown (fidCmd n)).foldl (lighter s.engineLoad) none := rfl

/-- Among numbers that rise, a fold of `lighter` finds the first of the least load. -/
theorem foldl_lighter_some (load : Nat → Nat) (xs : List Nat) (b : Nat) (h : (b :: xs).Pairwise (· < ·)) :
    ∃ n ∈ b :: xs, xs.foldl (lighter load) (some b) = some n ∧
      ∀ m ∈ b :: xs, load n ≤ load m ∧ (m < n → load n < load m) := by
  induction xs generalizing b with
  | nil => exact ⟨b, by simp, rfl, by simp⟩
  | cons x xs ih =>
    simp only [List.pairwise_cons, List.mem_cons, forall_eq_or_imp] at h
    obtain ⟨⟨hbx, hb⟩, hx, hxs⟩ := h
    by_cases hl : load x < load b
    · obtain ⟨n, hn, hf, hmin⟩ := ih x (List.pairwise_cons.mpr ⟨hx, hxs⟩)
      refine ⟨n, by simp [List.mem_cons.mp hn], by simpa [lighter, hl] using hf, ?_⟩
      intro m hm
      obtain rfl | hm := List.mem_cons.mp hm
      · have := (hmin x (by simp)).1
        exact ⟨by omega, fun _ => by omega⟩
      · exact hmin m hm
    · obtain ⟨n, hn, hf, hmin⟩ := ih b (List.pairwise_cons.mpr ⟨hb, hxs⟩)
      refine ⟨n, ?_, by simpa [lighter, hl] using hf, ?_⟩
      · obtain rfl | hn := List.mem_cons.mp hn <;> simp [*]
      intro m hm
      have hxn : load n ≤ load x ∧ (x < n → load n < load x) := by
        have hbn := hmin b (by simp)
        obtain rfl | hn := List.mem_cons.mp hn
        · exact ⟨by omega, fun _ => by omega⟩
        · have := hbn.2 (hb n hn)
          exact ⟨by omega, fun _ => by omega⟩
      simp only [List.mem_cons] at hm
      obtain rfl | rfl | hm := hm
      · exact hmin m (by simp)
      · exact hxn
      · exact hmin m (by simp [hm])

theorem mem_enginesUp (s : State) (n : Nat) :
    n ∈ ([0, 1, 2, 3].filter fun n => !s.fnDown (fidCmd n)) ↔ n < 4 ∧ s.fnDown (fidCmd n) = false := by
  simp only [List.mem_filter, Bool.not_eq_true', List.mem_cons, List.not_mem_nil, or_false]
  constructor <;> intro ⟨h, hs⟩ <;> exact ⟨by omega, hs⟩

theorem chooseEngine_cases (s : State) :
    (s.chooseEngine = none ∧ ∀ n < 4, s.fnDown (fidCmd n) = true) ∨
    ∃ n, s.chooseEngine = some n ∧ n < 4 ∧ s.fnDown (fidCmd n) = false ∧ ∀ m < 4, s.fnDown (fidCmd m) = false →
      s.engineLoad n ≤ s.engineLoad m ∧ (m < n → s.engineLoad n < s.engineLoad m) := by
  have hmem := mem_enginesUp s
  have hsort : ([0, 1, 2, 3].filter fun n => !s.fnDown (fidCmd n)).Pairwise (· < ·) :=
    List.Pairwise.filter _ (by decide)
  rw [chooseEngine_eq]
  generalize ([0, 1, 2, 3].filter fun n => !s.fnDown (fidCmd n)) = xs at hmem hsort
  cases xs with
  | nil =>
    refine .inl ⟨rfl, fun n hn => ?_⟩
    have := (hmem n).not.mp (by simp)
    simpa [hn] using this
  | cons x xs =>
    obtain ⟨n, hn, hf, hmin⟩ := foldl_lighter_some s.engineLoad xs x hsort
    obtain ⟨h4, hup⟩ := (hmem n).mp hn
    exact .inr ⟨n, hf, h4, hup, fun m hm hmu => hmin m ((hmem m).mpr ⟨hm, hmu⟩)⟩

/-! ## The next number of a session -/

/-- The number tried after `k` that are in use. -/
def numberAfter (last k : Nat) : Nat := (last + k) % 0xFFFE + 1

theorem numberAfter_next (last k : Nat) : numberAfter (last % 0xFFFE + 1) k = numberAfter last (k + 1) := by
  unfold numberAfter
  omega

theorem numberAfter_inj {last j k : Nat} (hj : j < 9) (hk : k < 9) (h : numberAfter last j = numberAfter last k) : j = k := by
  unfold numberAfter at h
  omega

/-- The number is the first tried that is not in use, or the last one tried. -/
theorem nextNumber_eq (used : List Nat) (last fuel : Nat) : ∃ j ≤ fuel, nextNumber used last fuel = numberAfter last j ∧
    (∀ i < j, numberAfter last i ∈ used) ∧ (j < fuel → numberAfter last j ∉ used) := by
  induction fuel generalizing last with
  | zero => exact ⟨0, le_rfl, rfl, by simp, by simp⟩
  | succ fuel ih =>
    have first : numberAfter last 0 = last % 0xFFFE + 1 := rfl
    by_cases hu : last % 0xFFFE + 1 ∈ used
    · obtain ⟨j, hj, he, hin, hout⟩ := ih (last % 0xFFFE + 1)
      simp only [numberAfter_next] at he hin hout
      refine ⟨j + 1, by omega, by simp [nextNumber, hu, he], fun i hi => ?_, fun h => hout (by omega)⟩
      cases i with
      | zero => exact first ▸ hu
      | succ i => exact hin i (by omega)
    · exact ⟨0, by omega, by simp [nextNumber, hu, first], by simp, fun _ => first ▸ hu⟩

/-- Nine numbers are tried and eight can be in use. -/
theorem nextNumber_notMem {used : List Nat} (last : Nat) (h : used.length ≤ 8) : nextNumber used last 8 ∉ used := by
  obtain ⟨j, hj, he, hin, hout⟩ := nextNumber_eq used last 8
  rw [he]
  intro hm
  have h8 : j = 8 := by
    by_contra hn
    exact hout (by omega) hm
  subst h8
  have sub : (List.range 9).map (numberAfter last) ⊆ used := by
    intro x hx
    obtain ⟨i, hi, rfl⟩ := List.mem_map.mp hx
    obtain hi | rfl := Nat.lt_succ_iff_lt_or_eq.mp (List.mem_range.mp hi)
    · exact hin i hi
    · exact hm
  have nd : ((List.range 9).map (numberAfter last)).Nodup :=
    List.Nodup.map_on (fun a ha b hb => numberAfter_inj (List.mem_range.mp ha) (List.mem_range.mp hb)) List.nodup_range
  have := (List.subperm_of_subset nd sub).length_le
  simp at this
  omega

/-- Settles O8. -/
theorem newSessionChoice : Obligations.NewSessionChoice := by
  refine ⟨fun s n hn => ?_, fun s hn => ?_, fun used last hu _ => ⟨nextNumber_notMem last hu, ?_⟩⟩
  · obtain ⟨h, -⟩ | ⟨m, h, hm⟩ := chooseEngine_cases s
    · simp [h] at hn
    · rw [hn, Option.some_inj] at h
      exact h ▸ hm
  · obtain ⟨-, h⟩ | ⟨m, h, -⟩ := chooseEngine_cases s
    · exact h
    · simp [hn] at h
  · obtain ⟨j, -, he, -⟩ := nextNumber_eq used last 8
    rw [he]
    unfold numberAfter
    omega

end Sys2Proof.Machine
end

