-- ==== Sys2Proof/Proofs/CommandEnd.lean ====
section
/-! PROOFS. The end of a command: its slot, and its reply (R54, R65). -/

namespace Sys2Proof.Machine

/-- What a reply's end writes to a slot (R64, R65). -/
def Session.ended (x : Session) (e : CmdEntry) (st det : Nat) (res : List Byte) (sent : Nat) : Session := { x with
  cmds := x.cmds.filter fun o => decide (o.tag ≠ e.tag)
  cache := (⟨e.tag, e.opcode, e.flags, ⟨st, det, res⟩⟩ :: x.cache).take 64
  txSeq := x.txSeq + sent }

theorem replyFlags_zero (f : Byte) : replyFlags f 0 = f &&& 0x0F := by simp [replyFlags]

/-- A reply that QUIET holds back is not sent. -/
theorem sendOn_quiet (s : State) (i op : Nat) (tag : BitVec 32) (flags extra : Byte) (dst : BitVec 48)
    (vlan : Option (BitVec 16)) (f : Final) (hq : replySent flags f.status = false) (hb : f.status ≠ stBusy)
    (hx : (s.slot i).txSeq ≠ 2 ^ 64 - 1) : s.sendOn i op tag flags extra dst vlan f = s := by
  simp only [State.sendOn, if_neg hb, hq, Bool.false_eq_true, false_and, if_false, if_neg hx]

/-- A reply that is sent takes the session's next sequence. -/
theorem sendOn_sent (s : State) (i op : Nat) (tag : BitVec 32) (flags extra : Byte) (dst : BitVec 48)
    (vlan : Option (BitVec 16)) (f : Final) (hs : replySent flags f.status = true) (hon : s.pins.jtag ≠ .extest)
    (hb : f.status ≠ stBusy) (hi : i < s.mgmt.slots.length) (hx : (s.slot i).txSeq + 1 ≠ 2 ^ 64 - 1) :
    s.sendOn i op tag flags extra dst vlan f =
      { s with mgmt := { s.mgmt with
        slots := modAt s.mgmt.slots i fun y => { y with txSeq := y.txSeq + 1 }
        sent := s.mgmt.sent ++ [s.reply (some (s.slot i).ownKey) (s.slot i).number op tag (replyFlags flags extra)
          ((s.slot i).txSeq + 1) (s.slot i).ownSalt dst vlan f] } } := by
  have hm : s.mgmtOn = true := decide_eq_true hon
  have hlast : ¬ ((s.setSlot i fun y => { y with txSeq := y.txSeq + 1 }).slot i).txSeq = 2 ^ 64 - 1 := by
    rw [slot_setSlot_same _ _ _ hi]
    exact hx
  simp only [State.sendOn, if_neg hb, hs, hm, and_self, if_true]
  exact if_neg hlast

/-- The end of a command whose frame was not the last: its slot, then its reply. -/
theorem ends_eq (s : State) (i : Nat) {e : CmdEntry} (st det : Nat) (res : List Byte) (h : e.last = false) :
    s.ends i e st det res =
      (s.setSlot i (·.ended e st det res 0)).sendOn i e.opcode e.tag e.flags 0 e.src e.vlan ⟨st, det, res⟩ := by
  rw [State.ends, State.finishCmd, h]
  rfl

/-- Settles O11: the end of a command writes its slot, and its reply is held back or sent. -/
theorem endOfCommandFrame : Obligations.EndOfCommandFrame := by
  intro s i e st det res hi hlast hseq hst
  have slot : (s.setSlot i (·.ended e st det res 0)).slot i = (s.slot i).ended e st det res 0 :=
    slot_setSlot_same _ _ _ hi
  have seq : ((s.slot i).ended e st det res 0).txSeq = (s.slot i).txSeq := rfl
  refine ⟨fun ⟨hq, hok⟩ => ?_, fun hq hon => ?_⟩
  · have quiet : replySent e.flags st = false := by simpa [replySent, hq, or_iff_not_imp_left] using hok
    rw [ends_eq s i st det res hlast, sendOn_quiet]
    · rfl
    · exact quiet
    · exact hst
    · rw [slot, seq]
      omega
  · have sent : replySent e.flags st = true := by simp [replySent, hq]
    rw [ends_eq s i st det res hlast, sendOn_sent]
    · rw [slot, replyFlags_zero]
      simp only [State.setSlot, modAt_modAt]
      rfl
    · exact sent
    · exact hon
    · exact hst
    · simpa [State.setSlot, modAt_length] using hi
    · rw [slot, seq]
      omega

end Sys2Proof.Machine
end

