-- ==== Sys2Proof/Proofs/LogOrder.lean ====
section
/-! PROOFS. The ring of the log stays ordered by SEQ and keeps severe events (R579, R583). -/

namespace Sys2Proof.Machine

/-! ## Lists ordered by a key -/

theorem mem_insertBy {α : Type} {key : α → Nat} {x y : α} {ys : List α} : y ∈ insertBy key x ys ↔ y = x ∨ y ∈ ys := by
  induction ys with
  | nil => simp [insertBy]
  | cons z zs ih =>
    rw [insertBy]
    split
    · simp
    · simp only [List.mem_cons, ih]
      tauto

/-- An insertion keeps a list ordered by a key that none of its members has. -/
theorem insertBy_pairwise {α : Type} {key : α → Nat} {x : α} {ys : List α} (h : ys.Pairwise (key · < key ·))
    (hx : ∀ y ∈ ys, key y ≠ key x) : (insertBy key x ys).Pairwise (key · < key ·) := by
  induction ys with
  | nil => simp [insertBy]
  | cons z zs ih =>
    obtain ⟨hz, hzs⟩ := List.pairwise_cons.mp h
    have hzx := hx z (by simp)
    rw [insertBy]
    split
    · rename_i hlt
      refine List.pairwise_cons.mpr ⟨fun y hy => ?_, h⟩
      obtain rfl | hy := List.mem_cons.mp hy
      · exact hlt
      · exact hlt.trans (hz y hy)
    · refine List.pairwise_cons.mpr ⟨fun y hy => ?_, ih hzs fun y hy => hx y (by simp [hy])⟩
      obtain rfl | hy := mem_insertBy.mp hy
      · omega
      · exact hz y hy

/-- What `takeFirst` finds has the property, and all the rest stays in its order. -/
theorem takeFirst_some {α : Type} {p : α → Bool} {xs rest : List α} {x : α} (h : takeFirst p xs = some (x, rest)) :
    p x = true ∧ rest.Sublist xs ∧ ∀ y ∈ xs, y = x ∨ y ∈ rest := by
  induction xs generalizing rest with
  | nil => simp [takeFirst] at h
  | cons z zs ih =>
    rw [takeFirst] at h
    split at h
    · rename_i hp
      simp only [Option.some.injEq, Prod.mk.injEq] at h
      obtain ⟨rfl, rfl⟩ := h
      exact ⟨hp, List.sublist_cons_self _ _, fun y hy => List.mem_cons.mp hy⟩
    · obtain ⟨⟨a, as⟩, ht, hm⟩ := Option.map_eq_some_iff.mp h
      simp only [Prod.mk.injEq] at hm
      obtain ⟨rfl, rfl⟩ := hm
      obtain ⟨hp, hsub, hall⟩ := ih ht
      refine ⟨hp, hsub.cons_cons z, fun y hy => ?_⟩
      obtain rfl | hy := List.mem_cons.mp hy
      · simp
      · obtain rfl | hy := hall y hy <;> simp [*]

/-! ## An event written to the ring -/

/-- The event as the ring holds it. -/
def State.logEvent (s : State) (m : Merged) (flags : Nat) : LogEvent :=
  { seq := m.seq, time := m.time, ptp := m.ptp, incarnation := s.boot.incarnation, sev := m.sev,
    flags := flags, code := m.code, source := m.source, shift := s.tel.shift, count := m.count, data := m.data, read := false }

/-- The ring after a write: the event with it, or without it, and of those before all but perhaps one that is not severe. -/
theorem writeLog_log (s : State) (m : Merged) (flags : Nat) :
    (∃ rest, (s.writeLog m flags).tel = { s.tel with log := insertBy LogEvent.seq (s.logEvent m flags) rest } ∧
      rest.Sublist s.tel.log ∧ ∀ y ∈ s.tel.log, 2 ≤ y.sev → y ∈ rest) ∨
    (s.writeLog m flags).tel = s.tel := by
  unfold State.writeLog
  dsimp only
  split
  · exact .inl ⟨s.tel.log, rfl, List.Sublist.refl _, fun y hy _ => hy⟩
  · split
    next o rest ht =>
      obtain ⟨hp, hsub, hall⟩ := takeFirst_some ht
      refine .inl ⟨rest, rfl, hsub, fun y hy hsev => (hall y hy).resolve_left ?_⟩
      rintro rfl
      simp only [Bool.and_eq_true, decide_eq_true_eq] at hp
      omega
    next => exact .inr rfl

/-- Settles O52. -/
theorem logStaysOrdered : Obligations.LogStaysOrdered := by
  refine ⟨fun s m => ⟨rfl, rfl, fun _ => rfl⟩, fun s m flags hord hall hm => ?_⟩
  obtain ⟨t, r, w, he⟩ := writeLog_only s m flags
  have hseq (x : LogEvent) (hx : x ∈ s.tel.log) := hall x hx
  obtain ⟨rest, htel, hsub, hkept⟩ | htel := writeLog_log s m flags
  · simp only [htel]
    refine ⟨trivial, insertBy_pairwise (hord.sublist hsub) fun y hy => (hseq y (hsub.subset hy)).2, fun x hx => ?_, fun x hx => ?_,
      fun x hx hsev => mem_insertBy.mpr (.inr (hkept x hx hsev)), by rw [he], by rw [he], by rw [he]⟩
    · obtain rfl | hx := mem_insertBy.mp hx
      · exact hm
      · exact (hseq x (hsub.subset hx)).1
    · obtain rfl | hx := mem_insertBy.mp hx
      · exact .inr ⟨rfl, rfl, rfl, rfl⟩
      · exact .inl (hsub.subset hx)
  · simp only [htel]
    exact ⟨trivial, hord, fun x hx => (hseq x hx).1, fun x hx => .inl hx, fun x hx _ => hx, by rw [he], by rw [he], by rw [he]⟩

end Sys2Proof.Machine
end

