-- ==== Sys2Proof/Proofs/Undertow.lean ====
section
/-! PROOFS. Spill and read-back keep a queue in order (R153). -/

namespace Sys2Proof.Machine

/-! ## What a spill leaves of the queues -/

/-- Neither part of a queue changes, nor what a cell's age and its frame's end are judged by. -/
@[reducible] def SameQueues (s t : State) : Prop :=
  t.queues = s.queues ∧ t.undertow = s.undertow ∧ t.time = s.time ∧ t.frames = s.frames

@[simp] theorem spillJudge_sameQueues (s : State) (t : Nat) : SameQueues s (s.spillJudge t) := by
  simp only [State.spillJudge]
  split
  · simp [SameQueues]
  · split
    · simp [SameQueues]
    · split <;> simp [SameQueues]

@[simp] theorem moveSpilled_sameQueues (s : State) (t b : Nat) (up : Bool) : SameQueues s (s.moveSpilled t b up) :=
  ⟨rfl, rfl, rfl, rfl⟩

@[simp] theorem creditPort_sameQueues (s : State) (p c : Nat) : SameQueues s (s.creditPort p c) := by
  unfold State.creditPort
  dsimp only
  split <;> simp [SameQueues]

@[simp] theorem credit_sameQueues (s : State) (q : QCell) : SameQueues s (s.credit q) := by
  unfold State.credit
  split
  · exact creditPort_sameQueues _ _ _
  · exact ⟨rfl, rfl, rfl, rfl⟩

@[simp] theorem countClass_sameQueues (s : State) (t c item n : Nat) : SameQueues s (s.countClass t c item n) :=
  ⟨rfl, rfl, rfl, rfl⟩

/-- The judge of stage 4 counts a full Undertow and changes no queue. -/
@[simp] theorem judgeAdmit_sameQueues (s : State) (t k c : Nat) : SameQueues s (s.judgeAdmit t k c).2 := by
  unfold State.judgeAdmit
  dsimp only
  repeat' split
  all_goals simp [SameQueues]

theorem queue_of_queues {s t : State} (h : t.queues = s.queues) (k : Nat) : t.queue k = s.queue k := by
  unfold State.queue; rw [h]

theorem under_of_undertow {s t : State} (h : t.undertow = s.undertow) (k : Nat) : t.under k = s.under k := by
  unfold State.under; rw [h]

/-- While Undertow holds a queue's cells, the next one spills or is refused. -/
theorem judgeAdmit_spilled (s : State) (t k c : Nat) (h : s.under k ≠ []) :
    (s.judgeAdmit t k c).1 = .spill ∨ (s.judgeAdmit t k c).1 = .refuse := by
  have hne : (!(s.under k).isEmpty) = true := by simpa using h
  simp only [State.judgeAdmit, hne, if_true]
  split
  · exact .inr rfl
  · split
    · exact .inl rfl
    · exact .inr rfl

/-- A cell that spills. -/
def State.spillCell (u : State) (t k : Nat) (q : QCell) : State :=
  (((u.moveSpilled t (u.spillBridge t) true).setUnder k (u.under k ++ [{ q with home := u.spillBridge t }])).bump
    .tileSpillWrites [t]).credit q |>.countClass t q.cls 4 1

theorem place_spill {s u : State} {t : Nat} {q : QCell}
    (h : (s.spillJudge t).judgeAdmit t (queueFor t q) q.cls = (.spill, u)) :
    s.place t q = (true, u.spillCell t (queueFor t q) q) := by
  simp only [State.place, h]
  rfl

theorem place_refuse {s u : State} {t : Nat} {q : QCell}
    (h : (s.spillJudge t).judgeAdmit t (queueFor t q) q.cls = (.refuse, u)) : s.place t q = (false, u) := by
  simp only [State.place, h]

theorem spillCell_queue (u : State) (t k : Nat) (q : QCell) (j : Nat) : (u.spillCell t k q).queue j = u.queue j :=
  queue_of_queues (by simp [State.spillCell]) j

theorem spillCell_under (u : State) (t k : Nat) (q : QCell) :
    (u.spillCell t k q).under k = u.under k ++ [{ q with home := u.spillBridge t }] := by
  unfold State.spillCell
  rw [under_of_undertow (by simp : _ = ((u.moveSpilled t (u.spillBridge t) true).setUnder k
    (u.under k ++ [{ q with home := u.spillBridge t }])).undertow), setUnder_under]

theorem spillCell_under_ne (u : State) (t : Nat) {k j : Nat} (q : QCell) (h : j ≠ k) :
    (u.spillCell t k q).under j = u.under j := by
  unfold State.spillCell
  rw [under_of_undertow (by simp : _ = ((u.moveSpilled t (u.spillBridge t) true).setUnder k
    (u.under k ++ [{ q with home := u.spillBridge t }])).undertow), setUnder_under_ne _ _ h]
  exact under_of_undertow (by simp) j

/-- The state that a judged cell meets has the queues from before. -/
theorem judged_sameQueues {s u : State} {t k c : Nat} {v : Stage4} (h : (s.spillJudge t).judgeAdmit t k c = (v, u)) :
    u.queues = s.queues ∧ u.undertow = s.undertow := by
  have := judgeAdmit_sameQueues (s.spillJudge t) t k c
  simpa only [h, SameQueues, spillJudge_sameQueues] using And.intro this.1 this.2.1

/-! ## Reading back -/

/-- The cell at the head of the queue's part in Undertow moves to the end of its part in the Cellar. -/
def State.readCell (s : State) (t k : Nat) (q : QCell) (rest : List QCell) : State :=
  (((((s.moveSpilled t q.home false).setUnder k rest).enqueue k q).bump .tileSpillReads [t]).spillJudge t)

theorem readCell_queue (s : State) (t k : Nat) (q : QCell) (rest : List QCell) :
    (s.readCell t k q rest).queue k = s.queue k ++ [q] := by
  unfold State.readCell
  rw [queue_of_queues (by simp : _ = (((s.moveSpilled t q.home false).setUnder k rest).enqueue k q).queues),
    State.enqueue, setQueue_queue]
  rfl

theorem readCell_under (s : State) (t k : Nat) (q : QCell) (rest : List QCell) :
    (s.readCell t k q rest).under k = rest := by
  unfold State.readCell
  rw [under_of_undertow (by simp [State.enqueue] : _ = ((s.moveSpilled t q.home false).setUnder k rest).undertow),
    setUnder_under]

theorem readCell_ne (s : State) (t : Nat) {k j : Nat} (q : QCell) (rest : List QCell) (h : j ≠ k) :
    (s.readCell t k q rest).queue j = s.queue j ∧ (s.readCell t k q rest).under j = s.under j := by
  unfold State.readCell
  constructor
  · rw [queue_of_queues (by simp : _ = (((s.moveSpilled t q.home false).setUnder k rest).enqueue k q).queues),
      State.enqueue, setQueue_queue_ne _ _ h]
    rfl
  · rw [under_of_undertow (by simp [State.enqueue] : _ = ((s.moveSpilled t q.home false).setUnder k rest).undertow),
      setUnder_under_ne _ _ h]
    rfl

/-- A cell ages, and its frame is aborted, by the clock and by the frames alone. -/
theorem readCell_judged (s : State) (t k : Nat) (q : QCell) (rest : List QCell) :
    (s.readCell t k q rest).now = s.now ∧ (s.readCell t k q rest).frames = s.frames := by
  simp [State.readCell, State.now, State.enqueue]

/-- The cells that reading back would take out of the queue. -/
def State.sound (s : State) (q : QCell) : Prop :=
  q.lost = false ∧ s.aged q = false ∧ ¬ (q.cls = clsOrd ∧ s.frames.aborted.contains q.frame = true)

/-- Reading back stops, or moves a sound head and goes on. -/
theorem readBack_succ {s : State} {t k n : Nat} {q : QCell} {rest : List QCell} (h : s.under k = q :: rest)
    (hq : s.sound q) : s.readBack t k (n + 1) = (s.readCell t k q rest).readBack t k n ∨ s.readBack t k (n + 1) = s := by
  obtain ⟨hl, ha, hf⟩ := hq
  simp only [State.readBack, h, hl, ha, Bool.false_eq_true, if_false, if_neg hf]
  split
  · exact .inl rfl
  · exact .inr rfl

theorem readBack_keeps (n : Nat) (s : State) (t k : Nat) (h : ∀ q ∈ s.under k, s.sound q) :
    (s.readBack t k n).queue k ++ (s.readBack t k n).under k = s.queue k ++ s.under k ∧
    ∀ j, j ≠ k → (s.readBack t k n).queue j = s.queue j ∧ (s.readBack t k n).under j = s.under j := by
  induction n generalizing s with
  | zero => exact ⟨rfl, fun _ _ => ⟨rfl, rfl⟩⟩
  | succ n ih =>
    cases hu : s.under k with
    | nil => simp [State.readBack, hu]
    | cons q rest =>
      obtain hr | hr := readBack_succ (t := t) (n := n) hu (h q (by simp [hu]))
      · have sound : ∀ p ∈ (s.readCell t k q rest).under k, (s.readCell t k q rest).sound p := by
          intro p hp
          rw [readCell_under] at hp
          obtain ⟨hnow, hframes⟩ := readCell_judged s t k q rest
          simpa only [State.sound, State.aged, hnow, hframes] using h p (by simp [hu, hp])
        obtain ⟨hk, hj⟩ := ih (s.readCell t k q rest) sound
        rw [hr, hk, readCell_queue, readCell_under]
        refine ⟨by simp, fun j hne => ?_⟩
        obtain ⟨hq, hv⟩ := readCell_ne s t q rest hne
        rw [← hq, ← hv]
        exact hj j hne
      · rw [hr, hu]
        exact ⟨rfl, fun _ _ => ⟨rfl, rfl⟩⟩

/-- Settles O33: a spill appends to one queue's part in Undertow, and reading back, by induction on the number of
cells, moves heads. -/
theorem undertowKeepsOrder : Obligations.UndertowKeepsOrder := by
  refine ⟨fun s u t q h => ?_, fun s v t q hne h => ?_, fun s t k n h => readBack_keeps n s t k h⟩
  · obtain ⟨hq, hu⟩ := judged_sameQueues h
    dsimp only
    rw [place_spill h]
    refine ⟨rfl, by rw [spillCell_queue, queue_of_queues hq], by rw [spillCell_under, under_of_undertow hu], fun j hj => ?_⟩
    rw [spillCell_queue, queue_of_queues hq, spillCell_under_ne _ _ _ hj, under_of_undertow hu]
    exact ⟨rfl, rfl⟩
  · have hne' : (s.spillJudge t).under (queueFor t q) ≠ [] := by
      rwa [under_of_undertow (spillJudge_sameQueues s t).2.1]
    obtain hs | hs := judgeAdmit_spilled (s.spillJudge t) t (queueFor t q) q.cls hne'
    · have hj : (s.spillJudge t).judgeAdmit t (queueFor t q) q.cls =
        (.spill, ((s.spillJudge t).judgeAdmit t (queueFor t q) q.cls).2) := by rw [← hs]
      obtain ⟨hq, hu⟩ := judged_sameQueues hj
      rw [place_spill hj, Prod.mk.injEq] at h
      obtain ⟨-, rfl⟩ := h
      rw [spillCell_queue, queue_of_queues hq, spillCell_under, under_of_undertow hu]
      exact ⟨rfl, _, rfl⟩
    · have hj : (s.spillJudge t).judgeAdmit t (queueFor t q) q.cls =
        (.refuse, ((s.spillJudge t).judgeAdmit t (queueFor t q) q.cls).2) := by rw [← hs]
      rw [place_refuse hj] at h
      simp at h

end Sys2Proof.Machine
end

