-- ==== Sys2Proof/Proofs/TableWrite.lean ====
section
/-! PROOFS. What a table write stores, takes away and leaves (R231, R232, R244). -/

namespace Sys2Proof.Machine

/-! ## A filtered store -/

theorem AMap.find_none_of_wfFrom {α : Type} {m : AMap α} {lo k : Nat} (h : m.wfFrom lo = true) (hk : k < lo) :
    m.find k = none := by
  induction m generalizing lo with
  | nil => rfl
  | cons p m ih =>
    obtain ⟨a, w⟩ := p
    simp only [AMap.wfFrom, Bool.and_eq_true, decide_eq_true_eq] at h
    rw [AMap.find, if_neg (by omega), ih h.2 (by omega)]

/-- In canonical form a key has one value, and it stays where the filter keeps it. -/
theorem AMap.find_filter {α : Type} {m : AMap α} {lo : Nat} (h : m.wfFrom lo = true) (p : Nat × α → Bool) (k : Nat) :
    (AMap.find (m.filter p) k) = (m.find k).filter fun v => p (k, v) := by
  induction m generalizing lo with
  | nil => rfl
  | cons e m ih =>
    obtain ⟨a, w⟩ := e
    simp only [AMap.wfFrom, Bool.and_eq_true, decide_eq_true_eq] at h
    have ih := ih h.2
    rw [List.filter_cons]
    by_cases hk : k = a
    · subst hk
      rw [AMap.find_none_of_wfFrom h.2 (by omega)] at ih
      cases hp : p (k, w) <;> simp [AMap.find, Option.filter, hp, ih]
    · cases p (a, w) <;> simp [AMap.find, hk, ih]

/-! ## Keys of table entries -/

theorem tblKey_table {q tb i : Nat} (hi : i < 262144) : tblKey q tb i / 262144 = q * 8 + tb := by
  unfold tblKey
  omega

theorem tblKey_inj {q tb i q' tb' j : Nat} (hi : i < 262144) (hj : j < 262144) (ht : tb < 8) (ht' : tb' < 8)
    (h : tblKey q' tb' j = tblKey q tb i) : q' = q ∧ tb' = tb ∧ j = i := by
  unfold tblKey at h
  omega

/-! ## What a write takes away -/

/-- The learned entries of the same MAC and VLAN gone. -/
def unlearned (m : AMap EntryImage) (q : Nat) (img : EntryImage) : AMap EntryImage :=
  m.filter fun e => !(decide (e.1 / 262144 = q * 8 + 1) && e.2.getLsbD 254 && decide (macKeyOf e.2 = macKeyOf img))

theorem putEntry_eq (m : AMap EntryImage) (q tb i : Nat) (img : EntryImage) : putEntry m q tb i img =
    writeImage (if tb = 1 ∧ img.getLsbD 255 then unlearned m q img else m) q tb i img := rfl

/-- An entry that is none of the table's learned entries of that key stays. -/
theorem entryAt_unlearned {m : AMap EntryImage} (hm : m.wf = true) (q : Nat) (img : EntryImage) {q' tb' j : Nat}
    (hj : j < 262144) (h : ¬ (q' * 8 + tb' = q * 8 + 1 ∧ (entryAt m q' tb' j).getLsbD 254 = true ∧
      macKeyOf (entryAt m q' tb' j) = macKeyOf img)) :
    entryAt (unlearned m q img) q' tb' j = entryAt m q' tb' j := by
  unfold entryAt AMap.getD at h ⊢
  rw [unlearned, AMap.find_filter hm]
  simp only [tblKey_table hj]
  cases hf : m.find (tblKey q' tb' j) with
  | none => rfl
  | some v =>
    have kept : (!(decide (q' * 8 + tb' = q * 8 + 1) && v.getLsbD 254 && decide (macKeyOf v = macKeyOf img))) = true := by
      simpa only [hf, Option.getD_some, Bool.not_eq_true', Bool.and_assoc, Bool.and_eq_false_iff, decide_eq_false_iff_not,
        not_and_or, Bool.not_eq_true] using h
    simp only [Option.filter, kept, if_true]

theorem entryAt_writeImage_same (m : AMap EntryImage) (q tb i : Nat) (img : EntryImage) :
    entryAt (writeImage m q tb i img) q tb i = img := AMap.getD_setD_same _ _ _ _

/-- Another entry stays, but for the odd half of an IPv6 pair. -/
theorem entryAt_writeImage_ne (m : AMap EntryImage) {q tb i q' tb' j : Nat} (img : EntryImage)
    (h : tblKey q' tb' j ≠ tblKey q tb i) (h6 : tb = 0 ∧ isV6 img = true → tblKey q' tb' j ≠ tblKey q tb (i + 1)) :
    entryAt (writeImage m q tb i img) q' tb' j = entryAt m q' tb' j := by
  unfold entryAt writeImage
  rw [AMap.getD_setD_ne _ _ _ _ h]
  split
  · rename_i hv
    rw [AMap.getD, AMap.getD, AMap.find_del_ne _ (h6 hv)]
  · rfl

theorem tblKey_ne_next {q tb i q' tb' j : Nat} (hi : i + 1 < 262144) (hj : j < 262144) (ht : tb < 8) (ht' : tb' < 8)
    (h : ¬ (q' = q ∧ tb' = tb ∧ j = i + 1)) : tblKey q' tb' j ≠ tblKey q tb (i + 1) := fun e =>
  h (tblKey_inj hi hj ht ht' e)

/-- Settles O20. -/
theorem tableWriteFrame : Obligations.TableWriteFrame := by
  intro m q tb i img hm hi htb heven
  have next (h : tb = 0 ∧ isV6 img = true) : i + 1 < 262144 := by
    have := heven h.1 h.2
    omega
  simp only [putEntry_eq]
  refine ⟨entryAt_writeImage_same _ _ _ _ _, fun q' tb' j hj htb' hne => ?_, fun j hj hne h6 hmac => ?_⟩
  · rw [Ne, Prod.mk.injEq] at hne
    rw [entryAt_writeImage_ne _ _ (fun e => hne ((tblKey_inj hi hj htb htb' e).imp_right And.left)) fun hv =>
      tblKey_ne_next (next hv) hj htb htb' fun e => hne ⟨e.1, e.2.1⟩]
    split
    · exact entryAt_unlearned hm q img hj fun h => by omega
    · rfl
  · rw [entryAt_writeImage_ne _ _ (fun e => hne (tblKey_inj hi hj htb htb e).2.2) fun hv =>
      tblKey_ne_next (next hv) hj htb htb fun e => h6 ⟨hv.1, hv.2, e.2.2⟩]
    split
    · rename_i h1
      obtain ⟨rfl, hv⟩ := h1
      exact entryAt_unlearned hm q img hj fun h => hmac ⟨rfl, hv, h.2⟩
    · rfl

end Sys2Proof.Machine
end

