-- ==== Sys2Proof/Proofs/Field.lean ====
section
/-! PROOFS. The field of R411, and the rebuilding of one or two lost shards. -/

namespace Sys2Proof.Machine

/-! ## Bytes under exclusive or -/

theorem xor_lt_256 {a b : Nat} (ha : a < 256) (hb : b < 256) : a ^^^ b < 256 := Nat.xor_lt_two_pow (n := 8) ha hb

/-- What holds of 0 and of the eight powers of 2, and is kept by exclusive or, holds of every byte. -/
theorem byte_induction {P : Nat → Prop} (zero : P 0) (pow : ∀ i < 8, P (2 ^ i))
    (xor : ∀ a < 256, ∀ b < 256, P a → P b → P (a ^^^ b)) (a : Nat) (ha : a < 256) : P a := by
  have upto (n : Nat) (hn : n ≤ 8) : ∀ a < 2 ^ n, P a := by
    induction n with
    | zero => exact fun a ha => by simpa [show a = 0 by omega] using zero
    | succ n ih =>
      intro a ha
      by_cases hlow : a < 2 ^ n
      · exact ih (by omega) a hlow
      have hr : a - 2 ^ n < 2 ^ n := by
        rw [Nat.pow_succ] at ha
        omega
      have hn8 : 2 ^ n ≤ 2 ^ 7 := Nat.pow_le_pow_right (by omega) (by omega)
      have split : a = 2 ^ n ^^^ (a - 2 ^ n) := by
        refine Nat.eq_of_testBit_eq fun j => ?_
        have sum : a = 2 ^ n * 1 + (a - 2 ^ n) := by omega
        rw [Nat.testBit_xor, Nat.testBit_two_pow]
        conv_lhs => rw [sum, Nat.testBit_two_pow_mul_add 1 hr]
        split
        · rename_i hj
          simp [show ¬ n = j by omega]
        · rename_i hj
          have hle : a - 2 ^ n < 2 ^ j := lt_of_lt_of_le hr (Nat.pow_le_pow_right (by omega) (by omega))
          rw [Nat.testBit_lt_two_pow hle, Bool.xor_false, ← Nat.pow_zero 2, Nat.testBit_two_pow]
          exact decide_eq_decide.mpr (by omega)
      rw [split]
      exact xor _ (by omega) _ (by omega) (pow n (by omega)) (ih (by omega) _ hr)
  exact upto 8 le_rfl a ha

/-! ## The field of R411 -/

theorem gfDouble_eq {a : Nat} (ha : a < 256) : gfDouble a = (a <<< 1) ^^^ (if a.testBit 7 then 0x11D else 0) := by
  have high : a.testBit 7 = decide (128 ≤ a) := by
    rw [Nat.testBit_eq_decide_div_mod_eq]
    exact decide_eq_decide.mpr (by omega)
  rw [gfDouble, high, Nat.shiftLeft_eq, pow_one]
  by_cases h : 128 ≤ a
  · simp [h, show ¬ a * 2 < 256 by omega]
  · simp [h, show a * 2 < 256 by omega]

theorem gfDouble_xor {a b : Nat} (ha : a < 256) (hb : b < 256) : gfDouble (a ^^^ b) = gfDouble a ^^^ gfDouble b := by
  have sum (x y : Bool) : (if (x ^^ y) = true then 0x11D else 0) = (if x then 0x11D else 0) ^^^ (if y then 0x11D else 0) := by
    cases x <;> cases y <;> rfl
  rw [gfDouble_eq ha, gfDouble_eq hb, gfDouble_eq (xor_lt_256 ha hb), Nat.testBit_xor, sum, Nat.shiftLeft_xor_distrib]
  ac_rfl

theorem gfDouble_lt {a : Nat} (ha : a < 256) : gfDouble a < 256 := by
  refine byte_induction (P := fun a => gfDouble a < 256) (by decide) (by decide) (fun a ha b hb h h' => ?_) a ha
  rw [gfDouble_xor ha hb]
  exact xor_lt_256 h h'

theorem gfMulAux_lt {a : Nat} (ha : a < 256) (b n : Nat) : gfMulAux a b n < 256 := by
  induction n with
  | zero => simp [gfMulAux]
  | succ n ih =>
    rw [gfMulAux]
    refine xor_lt_256 ?_ (gfDouble_lt ih)
    split
    · exact ha
    · decide

theorem gfMulBits_lt {a : Nat} (ha : a < 256) (b : Nat) : gfMulBits a b < 256 := gfMulAux_lt ha b 8

theorem gfMulAux_xor_right {a : Nat} (ha : a < 256) (b c n : Nat) :
    gfMulAux a (b ^^^ c) n = gfMulAux a b n ^^^ gfMulAux a c n := by
  have sum (x y : Bool) : (if (x ^^ y) = true then a else 0) = (if x then a else 0) ^^^ (if y then a else 0) := by
    cases x <;> cases y <;> simp
  induction n with
  | zero => simp [gfMulAux]
  | succ n ih =>
    simp only [gfMulAux, ih, bit_eq_testBit, Nat.testBit_xor, sum, gfDouble_xor (gfMulAux_lt ha b n) (gfMulAux_lt ha c n)]
    ac_rfl

theorem gfMulAux_xor_left {a b : Nat} (ha : a < 256) (hb : b < 256) (c n : Nat) :
    gfMulAux (a ^^^ b) c n = gfMulAux a c n ^^^ gfMulAux b c n := by
  have sum (x : Bool) : (if x then a ^^^ b else 0) = (if x then a else 0) ^^^ (if x then b else 0) := by
    cases x <;> simp
  induction n with
  | zero => simp [gfMulAux]
  | succ n ih =>
    simp only [gfMulAux, ih, sum, gfDouble_xor (gfMulAux_lt ha c n) (gfMulAux_lt hb c n)]
    ac_rfl

theorem gfMulBits_xor_right {a : Nat} (ha : a < 256) (b c : Nat) :
    gfMulBits a (b ^^^ c) = gfMulBits a b ^^^ gfMulBits a c := gfMulAux_xor_right ha b c 8

theorem gfMulBits_xor_left {a b : Nat} (ha : a < 256) (hb : b < 256) (c : Nat) :
    gfMulBits (a ^^^ b) c = gfMulBits a c ^^^ gfMulBits b c := gfMulAux_xor_left ha hb c 8

theorem gfMulBits_zero_right (a : Nat) : gfMulBits a 0 = 0 := by
  simp [gfMulBits, gfMulAux, bit, gfDouble]

theorem gfMulBits_zero_left (b : Nat) : gfMulBits 0 b = 0 := by
  simp [gfMulBits, gfMulAux, gfDouble]

theorem gfMulBits_one {a : Nat} (ha : a < 256) : gfMulBits a 1 = a := by
  refine byte_induction (P := fun a => gfMulBits a 1 = a) (by decide) (by decide) (fun a ha b hb h h' => ?_) a ha
  rw [gfMulBits_xor_left ha hb, h, h']

theorem gfMulBits_two {a : Nat} (ha : a < 256) : gfMulBits a 2 = gfDouble a := by
  refine byte_induction (P := fun a => gfMulBits a 2 = gfDouble a) (by decide) (by decide) (fun a ha b hb h h' => ?_) a ha
  rw [gfMulBits_xor_left ha hb, h, h', gfDouble_xor ha hb]

/-- Two bytes of one bit each: their products agree either way. -/
theorem gfMulBits_comm_pow : ∀ i < 8, ∀ j < 8, gfMulBits (2 ^ i) (2 ^ j) = gfMulBits (2 ^ j) (2 ^ i) := by decide

theorem gfMulBits_comm {a b : Nat} (ha : a < 256) (hb : b < 256) : gfMulBits a b = gfMulBits b a := by
  refine byte_induction (P := fun a => gfMulBits a b = gfMulBits b a)
    (by rw [gfMulBits_zero_left, gfMulBits_zero_right]) (fun i hi => ?_) (fun a ha a' ha' h h' => ?_) a ha
  · have hi8 : 2 ^ i < 256 := Nat.pow_lt_pow_right (n := 8) (by decide) hi
    refine byte_induction (P := fun b => gfMulBits (2 ^ i) b = gfMulBits b (2 ^ i))
      (by rw [gfMulBits_zero_left, gfMulBits_zero_right]) (gfMulBits_comm_pow i hi) (fun b hb c hc h h' => ?_) b hb
    rw [gfMulBits_xor_right hi8, gfMulBits_xor_left hb hc, h, h']
  · rw [gfMulBits_xor_left ha ha', gfMulBits_xor_right hb, h, h']

theorem gfMulBits_double_pow : ∀ i < 8, ∀ j < 8, gfMulBits (2 ^ i) (gfDouble (2 ^ j)) = gfDouble (gfMulBits (2 ^ i) (2 ^ j)) := by
  decide

/-- Multiplication by g goes through a product. -/
theorem gfMulBits_double {a b : Nat} (ha : a < 256) (hb : b < 256) : gfMulBits a (gfDouble b) = gfDouble (gfMulBits a b) := by
  refine byte_induction (P := fun a => gfMulBits a (gfDouble b) = gfDouble (gfMulBits a b))
    (by simp only [gfMulBits_zero_left]; decide) (fun i hi => ?_) (fun a ha a' ha' h h' => ?_) a ha
  · have hi8 : 2 ^ i < 256 := Nat.pow_lt_pow_right (n := 8) (by decide) hi
    refine byte_induction (P := fun b => gfMulBits (2 ^ i) (gfDouble b) = gfDouble (gfMulBits (2 ^ i) b))
      (by simp only [show gfDouble 0 = 0 from rfl, gfMulBits_zero_right]) (gfMulBits_double_pow i hi)
      (fun b hb c hc h h' => ?_) b hb
    rw [gfDouble_xor hb hc, gfMulBits_xor_right hi8, h, h', gfMulBits_xor_right hi8,
      gfDouble_xor (gfMulBits_lt hi8 _) (gfMulBits_lt hi8 _)]
  · rw [gfMulBits_xor_left ha ha', gfMulBits_xor_left ha ha', h, h', gfDouble_xor (gfMulBits_lt ha _) (gfMulBits_lt ha' _)]

/-! ## Powers of g -/

theorem gfPow_eq (k : Nat) : gfPow k = gfDouble^[k] 1 := by
  induction k with
  | zero => rfl
  | succ k ih => rw [Function.iterate_succ_apply', gfPow, ih]

theorem gfPow_lt (k : Nat) : gfPow k < 256 := by
  induction k with
  | zero => decide
  | succ k ih => exact gfDouble_lt ih

theorem gfMulBits_pow {a : Nat} (ha : a < 256) (k : Nat) : gfMulBits a (gfPow k) = gfDouble^[k] a := by
  induction k with
  | zero => exact gfMulBits_one ha
  | succ k ih => rw [gfPow, gfMulBits_double ha (gfPow_lt k), ih, Function.iterate_succ_apply']

theorem gfPow_add (j k : Nat) : gfMulBits (gfPow j) (gfPow k) = gfPow (j + k) := by
  rw [gfMulBits_pow (gfPow_lt j), gfPow_eq, gfPow_eq, ← Function.iterate_add_apply, Nat.add_comm]

theorem gfPow_15 : gfPow 15 = 38 := by decide
theorem gfPow_17 : gfPow 17 = 152 := by decide
theorem gfPow_51 : gfPow 51 = 10 := by
  rw [← gfPow_add 34 17, ← gfPow_add 17 17, gfPow_17]
  decide
theorem gfPow_85 : gfPow 85 = 214 := by
  rw [← gfPow_add 34 51, ← gfPow_add 17 17, gfPow_17, gfPow_51]
  decide
theorem gfPow_255 : gfPow 255 = 1 := by
  rw [← gfPow_add 170 85, ← gfPow_add 85 85, gfPow_85]
  decide

/-- Multiplying by g 255 times changes nothing. -/
theorem gfDouble_iterate_255_mul {a : Nat} (ha : a < 256) (k : Nat) : gfDouble^[255 * k] a = a := by
  have once : gfDouble^[255] a = a := by rw [← gfMulBits_pow ha, gfPow_255, gfMulBits_one ha]
  rw [Function.iterate_mul]
  exact Function.iterate_fixed once k

theorem gfPow_pos (k : Nat) : 0 < gfPow k := by
  refine Nat.pos_of_ne_zero fun h => ?_
  have back := gfDouble_iterate_255_mul (a := 1) (by decide) k
  rw [← gfPow_eq, show 255 * k = k + 254 * k by ring, ← gfPow_add, h, gfMulBits_zero_left] at back
  exact absurd back (by decide)

/-- The order of g is 255: it is none of the numbers that divide 85, 51 or 15. -/
theorem minimalPeriod_gfDouble : Function.minimalPeriod gfDouble 1 = 255 := by
  have period (k : Nat) : Function.minimalPeriod gfDouble 1 ∣ k ↔ gfPow k = 1 := by
    rw [← Function.isPeriodicPt_iff_minimalPeriod_dvd, gfPow_eq]
    rfl
  have mem : Function.minimalPeriod gfDouble 1 ∈ Nat.divisors 255 :=
    Nat.mem_divisors.mpr ⟨(period 255).mpr gfPow_255, by decide⟩
  have h15 := (period 15).not.mpr (by rw [gfPow_15]; decide)
  have h51 := (period 51).not.mpr (by rw [gfPow_51]; decide)
  have h85 := (period 85).not.mpr (by rw [gfPow_85]; decide)
  rw [show Nat.divisors 255 = {1, 3, 5, 15, 17, 51, 85, 255} by decide] at mem
  simp only [Finset.mem_insert, Finset.mem_singleton] at mem
  rcases mem with h | h | h | h | h | h | h | h <;> simp [h] at h15 h51 h85 ⊢

theorem gfPow_injOn : Set.InjOn gfPow (Set.Iio 255) := by
  have := Function.iterate_injOn_Iio_minimalPeriod (f := gfDouble) (x := 1)
  rw [minimalPeriod_gfDouble] at this
  exact fun i hi j hj h => this hi hj (by simpa only [gfPow_eq] using h)

/-- The powers of g are all the nonzero bytes. -/
theorem exists_gfPow {a : Nat} (ha : a < 256) (h0 : 0 < a) : ∃ k, gfPow k = a := by
  have sub : (Finset.range 255).image gfPow ⊆ Finset.Ioo 0 256 := by
    intro x hx
    obtain ⟨k, -, rfl⟩ := Finset.mem_image.mp hx
    exact Finset.mem_Ioo.mpr ⟨gfPow_pos k, gfPow_lt k⟩
  have card : ((Finset.range 255).image gfPow).card = 255 := by
    rw [Finset.card_image_of_injOn, Finset.card_range]
    simpa using gfPow_injOn
  have all := Finset.eq_of_subset_of_card_le sub (by rw [card, Nat.card_Ioo])
  have hm : a ∈ (Finset.range 255).image gfPow := by
    rw [all]
    exact Finset.mem_Ioo.mpr ⟨h0, ha⟩
  obtain ⟨k, -, hk⟩ := Finset.mem_image.mp hm
  exact ⟨k, hk⟩

theorem gfInv_pow (k : Nat) : gfInv (gfPow k) = gfPow (254 * k) := by
  have run (n j : Nat) : (List.range n).foldl (fun p _ => gfMulBits p (gfPow k)) (gfPow j) = gfPow (j + n * k) := by
    induction n with
    | zero => simp
    | succ n ih => rw [List.range_succ, List.foldl_append, ih, List.foldl_cons, List.foldl_nil, gfPow_add]; congr 1; ring
  rw [gfInv, run]
  congr 1
  ring

/-- A byte multiplied by an element and then by its inverse is the byte again. -/
theorem gfMulBits_mul_inv {a d : Nat} (ha : a < 256) (hd : d < 256) (h0 : 0 < d) : gfMulBits (gfMulBits a d) (gfInv d) = a := by
  obtain ⟨k, rfl⟩ := exists_gfPow hd h0
  rw [gfInv_pow, gfMulBits_pow (gfMulBits_lt ha _), gfMulBits_pow ha, ← Function.iterate_add_apply,
    show 254 * k + k = 255 * k by ring, gfDouble_iterate_255_mul ha]

theorem gfMulBits_inv {a : Nat} (ha : a < 256) (h0 : 0 < a) : gfMulBits a (gfInv a) = 1 := by
  have := gfMulBits_mul_inv (a := 1) (by decide) ha h0
  rwa [gfMulBits_comm (by decide) ha, gfMulBits_one ha] at this

/-! ## The bytes of a payload -/

/-- Byte `i` of the payload, the first highest. -/
def byteOf (v : BitVec 512) (i : Nat) : Nat := v.toNat / 256 ^ (63 - i) % 256

theorem byteOf_lt (v : BitVec 512) (i : Nat) : byteOf v i < 256 := Nat.mod_lt _ (by decide)

theorem byteOf_xor (v w : BitVec 512) (i : Nat) : byteOf (v ^^^ w) i = byteOf v i ^^^ byteOf w i := by
  have byte (x : Nat) : x / 256 ^ (63 - i) % 256 = (x >>> (8 * (63 - i))) % 2 ^ 8 := by
    rw [Nat.shiftRight_eq_div_pow, Nat.pow_mul, show 2 ^ 8 = 256 from rfl]
  simp only [byteOf, byte, BitVec.toNat_xor, Nat.shiftRight_xor_distrib, Nat.xor_mod_two_pow]

/-- Numbers of `n` bytes are equal when their bytes are. -/
theorem eq_of_bytes (n : Nat) {x y : Nat} (hx : x < 256 ^ n) (hy : y < 256 ^ n)
    (h : ∀ i < n, x / 256 ^ i % 256 = y / 256 ^ i % 256) : x = y := by
  induction n generalizing x y with
  | zero => omega
  | succ n ih =>
    rw [Nat.pow_succ] at hx hy
    have high : x / 256 = y / 256 := by
      refine ih (by omega) (by omega) fun i hi => ?_
      have := h (i + 1) (by omega)
      rwa [Nat.pow_succ', ← Nat.div_div_eq_div_mul, ← Nat.div_div_eq_div_mul] at this
    have low := h 0 (by omega)
    rw [Nat.pow_zero, Nat.div_one, Nat.div_one] at low
    omega

theorem two_pow_512 : 2 ^ 512 = 256 ^ 64 := by rw [show 512 = 8 * 64 from rfl, Nat.pow_mul]

theorem byteOf_ext {v w : BitVec 512} (h : ∀ i < 64, byteOf v i = byteOf w i) : v = w := by
  have hv := v.isLt
  have hw := w.isLt
  rw [two_pow_512] at hv hw
  refine BitVec.eq_of_toNat_eq (eq_of_bytes 64 hv hw fun i hi => ?_)
  have := h (63 - i) (by omega)
  rwa [byteOf, byteOf, show 63 - (63 - i) = i by omega] at this

/-- The number whose bytes, the first highest, are `f 0` to `f (n - 1)`. -/
def packBytes (f : Nat → Nat) (n : Nat) : Nat := (List.range n).foldl (fun acc i => acc * 256 + f i) 0

theorem packBytes_succ (f : Nat → Nat) (n : Nat) : packBytes f (n + 1) = packBytes f n * 256 + f n := by
  simp [packBytes, List.range_succ]

theorem packBytes_lt {f : Nat → Nat} (hf : ∀ i, f i < 256) (n : Nat) : packBytes f n < 256 ^ n := by
  induction n with
  | zero => simp [packBytes]
  | succ n ih =>
    have := hf n
    rw [packBytes_succ, Nat.pow_succ]
    omega

theorem packBytes_byte {f : Nat → Nat} (hf : ∀ i, f i < 256) (n k : Nat) (hk : k < n) :
    packBytes f n / 256 ^ (n - 1 - k) % 256 = f k := by
  induction n with
  | zero => omega
  | succ n ih =>
    have hn := hf n
    rw [packBytes_succ]
    by_cases h : k = n
    · subst h
      rw [show k + 1 - 1 - k = 0 by omega, Nat.pow_zero, Nat.div_one]
      omega
    · rw [show n + 1 - 1 - k = (n - 1 - k) + 1 by omega, Nat.pow_succ', ← Nat.div_div_eq_div_mul,
        show (packBytes f n * 256 + f n) / 256 = packBytes f n by omega]
      exact ih (by omega)

theorem byteOf_gfScale (a : Nat) (v : BitVec 512) {i : Nat} (hi : i < 64) :
    byteOf (gfScale a v) i = gfMulBits (byteOf v i) a := by
  have hf (i : Nat) : gfMulBits (byteOf v i) a < 256 := gfMulBits_lt (byteOf_lt v i) a
  have pack : gfScale a v = BitVec.ofNat 512 (packBytes (fun i => gfMulBits (byteOf v i) a) 64) := rfl
  have hlt := packBytes_lt hf 64
  rw [← two_pow_512] at hlt
  rw [pack, byteOf, BitVec.toNat_ofNat, Nat.mod_eq_of_lt hlt]
  exact packBytes_byte hf 64 i hi

/-! ## Rebuilding -/

theorem gfScale_xor (a : Nat) (v w : BitVec 512) : gfScale a (v ^^^ w) = gfScale a v ^^^ gfScale a w := by
  refine byteOf_ext fun i hi => ?_
  rw [byteOf_xor, byteOf_gfScale _ _ hi, byteOf_gfScale _ _ hi, byteOf_gfScale _ _ hi, byteOf_xor,
    gfMulBits_xor_left (byteOf_lt v i) (byteOf_lt w i)]

theorem gfScale_xor_left (a b : Nat) (v : BitVec 512) : gfScale (a ^^^ b) v = gfScale a v ^^^ gfScale b v := by
  refine byteOf_ext fun i hi => ?_
  rw [byteOf_xor, byteOf_gfScale _ _ hi, byteOf_gfScale _ _ hi, byteOf_gfScale _ _ hi, gfMulBits_xor_right (byteOf_lt v i)]

theorem gfScale_inv {d : Nat} (hd : d < 256) (h0 : 0 < d) (v : BitVec 512) : gfScale (gfInv d) (gfScale d v) = v := by
  refine byteOf_ext fun i hi => ?_
  rw [byteOf_gfScale _ _ hi, byteOf_gfScale _ _ hi, gfMulBits_mul_inv (byteOf_lt v i) hd h0]

/-- Without the second shard, the two parities leave the first times the difference of the two powers. -/
theorem gfScale_syndrome (x y : Nat) (da db : BitVec 512) :
    (gfScale x da ^^^ gfScale y db) ^^^ gfScale y (da ^^^ db) = gfScale (x ^^^ y) da := by
  rw [gfScale_xor, gfScale_xor_left, BitVec.xor_assoc, BitVec.xor_comm (gfScale y da), ← BitVec.xor_assoc (gfScale y db),
    BitVec.xor_self, BitVec.zero_xor]

theorem gfRebuild_two {a b : Nat} (hab : a < b) (hb : b < 30) (da db : BitVec 512) :
    gfRebuild [a, b] (da ^^^ db) (gfScale (gfPow a) da ^^^ gfScale (gfPow b) db) = [da, db] := by
  have hne : gfPow a ^^^ gfPow b ≠ 0 := fun h =>
    hab.ne (gfPow_injOn (Set.mem_Iio.mpr (by omega)) (Set.mem_Iio.mpr (by omega)) (Nat.xor_eq_zero_iff.mp h))
  have first : gfScale (gfInv (gfPow a ^^^ gfPow b)) ((gfScale (gfPow a) da ^^^ gfScale (gfPow b) db) ^^^
      gfScale (gfPow b) (da ^^^ db)) = da := by
    rw [gfScale_syndrome, gfScale_inv (xor_lt_256 (gfPow_lt a) (gfPow_lt b)) (Nat.pos_of_ne_zero hne)]
  have second : da ^^^ db ^^^ da = db := by
    rw [BitVec.xor_comm, ← BitVec.xor_assoc, BitVec.xor_self, BitVec.zero_xor]
  simp only [gfRebuild, first, second]

/-- Settles O43: two shards are found from the two parities because distinct positions have distinct powers of g, and the
laws of the field hold for every byte because they are additive and hold for the bytes of one bit. -/
theorem rebuildRecovers : Obligations.RebuildRecovers :=
  ⟨fun _ _ da db hab hb => gfRebuild_two hab hb da db, fun _ _ _ => rfl, fun _ ha _ hb => gfMulBits_comm ha hb,
    fun _ ha b _ c _ => gfMulBits_xor_right ha b c,
    fun a ha => ⟨gfMulBits_one ha, gfMulBits_zero_right a, gfMulBits_two ha⟩, fun _ ha h0 => gfMulBits_inv ha h0,
    fun _ hi _ hj h => gfPow_injOn (Set.mem_Iio.mpr (by omega)) (Set.mem_Iio.mpr (by omega)) h⟩

end Sys2Proof.Machine
end

