-- ==== Sys2Proof/Proofs/Reduction.lean ====
section
/-! PROOFS. A reduction does not depend on the order of its contributions. -/

namespace Sys2Proof.Machine

/-! ## One bin -/

/-- The number `v` added into one bin: the value stays below 2^64 in B and the carry or borrow goes into C. -/
def Bin.plus (x : Bin) (v : Int) : Bin :=
  ⟨BitVec.ofInt 64 (x.b.toNat + v), x.c + BitVec.ofInt 16 ((x.b.toNat + v) / 2 ^ 64)⟩

theorem Bin.plus_b_toNat (x : Bin) (v : Int) : ((x.plus v).b.toNat : Int) = (x.b.toNat + v) % 2 ^ 64 := by
  simp only [Bin.plus, BitVec.toNat_ofInt]
  omega

theorem ofInt_64_emod (a v : Int) : BitVec.ofInt 64 (a % 2 ^ 64 + v) = BitVec.ofInt 64 (a + v) := by
  apply BitVec.eq_of_toNat_eq
  simp

/-- Two numbers added one after the other leave what their sum leaves. -/
theorem Bin.plus_plus (x : Bin) (v w : Int) : (x.plus v).plus w = x.plus (v + w) := by
  have carry : (x.b.toNat + v) / 2 ^ 64 + ((x.b.toNat + v) % 2 ^ 64 + w) / 2 ^ 64 =
      (x.b.toNat + (v + w)) / 2 ^ 64 := by omega
  have c : (x.plus v).c = x.c + BitVec.ofInt 16 ((x.b.toNat + v) / 2 ^ 64) := rfl
  rw [Bin.plus, Bin.plus_b_toNat, ofInt_64_emod, c, add_assoc, BitVec.add_assoc, ← BitVec.ofInt_add, carry]
  rfl

theorem Bin.plus_comm (x : Bin) (v w : Int) : (x.plus v).plus w = (x.plus w).plus v := by
  rw [Bin.plus_plus, Bin.plus_plus, add_comm v w]

/-- The part of a magnitude below 2^64, with its sign. -/
def binPart (neg : Bool) (m : Nat) : Int := if neg then -((m % 2 ^ 64 : Nat) : Int) else (m % 2 ^ 64 : Nat)

/-- A magnitude goes into the lowest bin with its part below 2^64, and with the rest into the bins above. -/
theorem addBins_cons (neg : Bool) (m : Nat) (x : Bin) (xs : List Bin) :
    addBins neg m (x :: xs) = x.plus (binPart neg m) :: addBins neg (m / 2 ^ 64) xs := by
  have hp : m % 2 ^ 64 < 2 ^ 64 := Nat.mod_lt _ (by decide)
  have hb := x.b.isLt
  rw [addBins, List.cons.injEq]
  refine ⟨?_, rfl⟩
  unfold binPart Bin.plus
  generalize m % 2 ^ 64 = p at hp
  cases neg with
  | true =>
    have word : BitVec.ofInt 64 (x.b.toNat + -(p : Int)) = x.b - BitVec.ofNat 64 p := by
      apply BitVec.eq_of_toNat_eq
      simp only [BitVec.toNat_ofInt, BitVec.toNat_sub, BitVec.toNat_ofNat]
      omega
    simp only [if_true, word, Bin.mk.injEq, true_and]
    split
    · rw [show ((x.b.toNat : Int) + -(p : Int)) / 2 ^ 64 = -1 by omega]
      simp [BitVec.sub_eq_add_neg]
    · rw [show ((x.b.toNat : Int) + -(p : Int)) / 2 ^ 64 = 0 by omega]
      simp
  | false =>
    have word : BitVec.ofInt 64 (x.b.toNat + (p : Int)) = x.b + BitVec.ofNat 64 p := by
      simp [BitVec.ofInt_add]
    simp only [Bool.false_eq_true, if_false, word, Bin.mk.injEq, true_and]
    split
    · rw [show ((x.b.toNat : Int) + (p : Int)) / 2 ^ 64 = 1 by omega]
      simp
    · rw [show ((x.b.toNat : Int) + (p : Int)) / 2 ^ 64 = 0 by omega]
      simp

theorem addBins_comm (n₁ n₂ : Bool) (m₁ m₂ : Nat) (xs : List Bin) :
    addBins n₁ m₁ (addBins n₂ m₂ xs) = addBins n₂ m₂ (addBins n₁ m₁ xs) := by
  induction xs generalizing m₁ m₂ with
  | nil => rfl
  | cons x xs ih => rw [addBins_cons n₂, addBins_cons n₁, addBins_cons n₁ _ x, addBins_cons n₂, Bin.plus_comm, ih]

/-! ## One element -/

theorem Elem.add_comm (f : Nat) (e : Elem) (v w : Int) : (e.add f v).add f w = (e.add f w).add f v := by
  unfold Elem.add
  split
  · rw [addBins_comm]
  · rw [BitVec.add_assoc, BitVec.add_assoc, BitVec.add_comm (BitVec.ofInt 64 v)]

theorem bwAnd_comm (a b : Int) : bwAnd a b = bwAnd b a := by
  unfold bwAnd; rw [BitVec.and_comm]

theorem bwOr_comm (a b : Int) : bwOr a b = bwOr b a := by
  unfold bwOr; rw [BitVec.or_comm]

theorem bwAnd_right_comm (a b c : Int) : bwAnd (bwAnd a b) c = bwAnd (bwAnd a c) b := by
  simp only [bwAnd, BitVec.ofInt_toInt, BitVec.and_assoc, BitVec.and_comm (BitVec.ofInt 32 b)]

theorem bwOr_right_comm (a b c : Int) : bwOr (bwOr a b) c = bwOr (bwOr a c) b := by
  simp only [bwOr, BitVec.ofInt_toInt, BitVec.or_assoc, BitVec.or_comm (BitVec.ofInt 32 b)]

theorem runWith_comm (op : Nat) (r : Option Int) (v w : Int) :
    runWith op (runWith op r v) w = runWith op (runWith op r w) v := by
  cases r with
  | none => simp only [runWith, max_comm v w, min_comm v w, bwAnd_comm v w, bwOr_comm v w]
  | some x =>
    simp only [runWith]
    split
    · rw [max_right_comm]
    · split
      · rw [min_right_comm]
      · split
        · rw [bwAnd_right_comm]
        · rw [bwOr_right_comm]

theorem Elem.addInt_comm (f op : Nat) (e : Elem) (v w : Int) :
    (e.addInt f op v).addInt f op w = (e.addInt f op w).addInt f op v := by
  unfold Elem.addInt
  split
  · exact Elem.add_comm f e v w
  · simp only [runWith_comm op e.run v w]

/-- What a contribution of a floating-point format marks: its kind, and whether every one so far is a negative zero. -/
def Elem.mark (op : Nat) (e : Elem) (v : Val) : Elem := { e with
  nan := e.nan || decide (v = .nan)
  pinf := e.pinf || decide (op ≤ 1 ∧ v = .inf false)
  ninf := e.ninf || decide (op ≤ 1 ∧ v = .inf true)
  negZero := e.negZero && decide (v = .num true 0) }

/-- What it adds to the sum or to the running value. -/
def Elem.count (f op : Nat) (e : Elem) : Val → Elem
  | .nan => e
  | .inf neg => if op ≤ 1 then e else { e with run := runWith op e.run (orderKey (.inf neg)) }
  | .num neg m =>
    if op ≤ 1 then e.add f (if neg then -m else m) else { e with run := runWith op e.run (orderKey (.num neg m)) }

theorem Elem.addVal_eq (f op : Nat) (e : Elem) (v : Val) : e.addVal f op v = (e.mark op v).count f op v := by
  cases v with
  | nan => simp [addVal, mark, count]
  | inf neg => by_cases hop : op ≤ 1 <;> cases neg <;> simp [addVal, mark, count, hop]
  | num neg m => simp [addVal, mark, count]

theorem Elem.mark_comm (op : Nat) (e : Elem) (v w : Val) : (e.mark op v).mark op w = (e.mark op w).mark op v := by
  simp only [mark, Bool.or_assoc, Bool.and_assoc, Bool.or_comm (decide (v = .nan)), Bool.and_comm (decide (v = .num true 0)),
    Bool.or_comm (decide (op ≤ 1 ∧ v = .inf false)), Bool.or_comm (decide (op ≤ 1 ∧ v = .inf true))]

theorem Elem.mark_add (f op : Nat) (e : Elem) (x : Int) (v : Val) : (e.add f x).mark op v = (e.mark op v).add f x := by
  unfold add
  split <;> rfl

theorem Elem.count_mark (f op : Nat) (e : Elem) (v w : Val) :
    (e.count f op v).mark op w = (e.mark op w).count f op v := by
  cases v with
  | nan => rfl
  | inf neg => unfold count; dsimp only; split <;> rfl
  | num neg m => unfold count; dsimp only; split; exacts [mark_add f op e _ w, rfl]

theorem Elem.count_comm (f op : Nat) (e : Elem) (v w : Val) :
    (e.count f op v).count f op w = (e.count f op w).count f op v := by
  by_cases hop : op ≤ 1
  · cases v <;> cases w <;> simp only [count, if_pos hop, add_comm]
  · cases v <;> cases w <;> simp only [count, if_neg hop, runWith_comm]

theorem Elem.addVal_comm (f op : Nat) (e : Elem) (v w : Val) :
    (e.addVal f op v).addVal f op w = (e.addVal f op w).addVal f op v := by
  simp only [addVal_eq, count_mark]
  rw [mark_comm, count_comm]

theorem addContribution_comm (arith n c : Nat) (x y : BitVec 512 × Nat) (es : List Elem) :
    addContribution arith n c y.1 y.2 (addContribution arith n c x.1 x.2 es) =
      addContribution arith n c x.1 x.2 (addContribution arith n c y.1 y.2 es) := by
  unfold addContribution
  dsimp only
  refine List.map_congr_left fun i hi => ?_
  rw [List.mem_range] at hi
  simp only [List.getD_eq_getElem?_getD, List.getElem?_map, List.getElem?_range hi, Option.map_some, Option.getD_some]
  split
  · rw [Elem.addInt_comm]
  · rw [Elem.addVal_comm]

/-- Settles O44: any two contributions may change places, so every order gives the same elements. -/
theorem reductionOrderFree : Obligations.ReductionOrderFree := by
  intro arith n c xs ys h
  exact h.foldl_eq' (fun x _ y _ es => addContribution_comm arith n c x y es) []

end Sys2Proof.Machine
end

