-- ==== Sys2Proof/Proofs/FrameState.lean ====
section
/-! PROOFS. The frame of the state's operations: which of them leave the queue, the nonvolatile store, the route banks, the table entries, the management unit, the tests and the Swell instances as they were. -/

namespace Sys2Proof.Machine

/-- Nothing changes of the queue, the nonvolatile store, the route generations, the sessions, the table entries, the tests and
the Swell instances. -/
@[reducible] def Still (s t : State) : Prop :=
  t.pending = s.pending ∧ t.nvm = s.nvm ∧ t.gen = s.gen ∧ t.tables.entries = s.tables.entries ∧ t.mgmt = s.mgmt ∧
    t.bist = s.bist ∧ t.swl.insts = s.swl.insts

/-- The same, but of the sessions the number of slots alone, and the Swell instances may change. -/
@[reducible] def SlotsStill (s t : State) : Prop :=
  t.pending = s.pending ∧ t.nvm = s.nvm ∧ t.gen = s.gen ∧ t.tables.entries = s.tables.entries ∧
    t.mgmt.slots.length = s.mgmt.slots.length ∧ t.bist = s.bist

/-- The same as `Still`, but the tests and the Swell instances may change. -/
@[reducible] def CoreStill (s t : State) : Prop :=
  t.pending = s.pending ∧ t.nvm = s.nvm ∧ t.gen = s.gen ∧ t.tables.entries = s.tables.entries ∧ t.mgmt = s.mgmt

theorem ite_parts (c : Prop) [Decidable c] (a b : State) :
    (if c then a else b).pending = (if c then a.pending else b.pending) ∧
    (if c then a else b).nvm = (if c then a.nvm else b.nvm) ∧
    (if c then a else b).gen = (if c then a.gen else b.gen) ∧
    (if c then a else b).tables.entries = (if c then a.tables.entries else b.tables.entries) ∧
    (if c then a else b).mgmt = (if c then a.mgmt else b.mgmt) ∧
    (if c then a else b).bist = (if c then a.bist else b.bist) ∧
    (if c then a else b).swl.insts = (if c then a.swl.insts else b.swl.insts) := by
  split <;> simp

theorem foldl_still {α : Type} {f : State → α → State} (h : ∀ t x, Still t (f t x)) (s : State) (xs : List α) :
    Still s (xs.foldl f s) := by
  induction xs generalizing s with
  | nil => simp [Still]
  | cons x xs ih => simpa [Still, h] using ih (f s x)

theorem foldl_coreStill {α : Type} {f : State → α → State} (h : ∀ t x, CoreStill t (f t x)) (s : State) (xs : List α) :
    CoreStill s (xs.foldl f s) := by
  induction xs generalizing s with
  | nil => simp [CoreStill]
  | cons x xs ih => simpa [CoreStill, h] using ih (f s x)

theorem foldl_slotsStill {α : Type} {f : State → α → State} (h : ∀ t x, SlotsStill t (f t x)) (s : State)
    (xs : List α) :
    SlotsStill s (xs.foldl f s) := by
  induction xs generalizing s with
  | nil => simp [SlotsStill]
  | cons x xs ih => simpa [SlotsStill, h] using ih (f s x)
@[simp] theorem modAt_len {α : Type} (l : List α) (i : Nat) (f : α → α) :
    (modAt l i f).length = l.length := modAt_length l i f
theorem eq_pair {α β : Type} {p : α × β} {a : α} {b : β} (h : p = (a, b)) : p.1 = a ∧ p.2 = b := by simp [h]

theorem foldl_fst_still {α β : Type} {f : State × β → α → State × β} (h : ∀ t n x, Still t (f (t, n) x).1) (s : State)
    (n : β) (xs : List α) : Still s (xs.foldl f (s, n)).1 := by
  induction xs generalizing s n with
  | nil => simp [Still]
  | cons x xs ih => simpa [Still, h] using ih (f (s, n) x).1 (f (s, n) x).2

theorem foldl_snd_still {α β : Type} {f : β × State → α → β × State} (h : ∀ n t x, Still t (f (n, t) x).2) (n : β)
    (s : State) (xs : List α) : Still s (xs.foldl f (n, s)).2 := by
  induction xs generalizing s n with
  | nil => simp [Still]
  | cons x xs ih => simpa [Still, h] using ih (f (n, s) x).1 (f (n, s) x).2

theorem ite_pair {α β : Type} (c : Prop) [Decidable c] (p q : α × β) :
    (if c then p else q).1 = (if c then p.1 else q.1) ∧ (if c then p else q).2 = (if c then p.2 else q.2) := by
  split <;> simp

theorem ite_slots (c : Prop) [Decidable c] (a b : Mgmt) :
    (if c then a else b).slots.length = if c then a.slots.length else b.slots.length := by
  split <;> simp

theorem Still.trans {s t u : State} (h : Still s t) (h' : Still t u) : Still s u := by
  obtain ⟨a, b, c, d, e, f, g⟩ := h
  simpa only [Still, a, b, c, d, e, f, g] using h'

theorem Still.slotsStill {s t : State} (h : Still s t) : SlotsStill s t := by
  obtain ⟨hp, hn, hg, he, hm, hb, -⟩ := h
  exact ⟨hp, hn, hg, he, by rw [hm], hb⟩

theorem Still.core {s t : State} (h : Still s t) : CoreStill s t := by
  obtain ⟨hp, hn, hg, he, hm, -⟩ := h
  exact ⟨hp, hn, hg, he, hm⟩

theorem SlotsStill.trans {s t u : State} (h : SlotsStill s t) (h' : SlotsStill t u) : SlotsStill s u := by
  obtain ⟨a, b, c, d, e, f⟩ := h
  simpa only [SlotsStill, a, b, c, d, e, f] using h'

@[simp] theorem tick_still (s : State) : Still s (State.tick s) := by
  simp [Still, State.tick, ite_parts]

@[simp] theorem advanceTo_still (s : State) (ns : ℕ) : Still s (State.advanceTo s ns) := by
  simp [Still, State.advanceTo, ite_parts]

@[simp] theorem every_still (s : State) (k : Periodic) (i : ℕ) (period : ℕ) : Still s (State.every s k i period) := by
  simp [Still, State.every]

@[simp] theorem perSecond_still (s : State) (k : Periodic) (i : ℕ) (rate : ℕ) :
    Still s (State.perSecond s k i rate) := by
  simp [Still, State.perSecond]

@[simp] theorem advancePtp_still (s : State) (p : ℕ) : Still s (State.advancePtp s p) := by
  simp [Still, State.advancePtp, ite_parts]

@[simp] theorem sign_still (s : State) (msg : List Byte) : Still s (State.sign s msg).2 := by
  simp [Still, State.sign]

@[simp] theorem drawFree_still (s : State) : Still s (State.drawFree s).2 := by
  simp [Still, State.drawFree]

@[simp] theorem freeBytes_still (s : State) (n : Nat) : Still s (s.freeBytes n).2 := by
  induction n generalizing s with
  | zero => simp [Still, State.freeBytes]
  | succ n ih => simpa [Still, State.freeBytes] using ih s.drawFree.2

@[simp] theorem setFn_still (s : State) (fid : ℕ) (f : FnState → FnState) : Still s (State.setFn s fid f) := by
  simp [Still, State.setFn]

@[simp] theorem setReg_still (s : State) (r : Reg) (ix : List ℕ) (w : Word) : Still s (State.setReg s r ix w) := by
  simp [Still, State.setReg]

@[simp] theorem bumpBy_still (s : State) (r : Reg) (ix : List ℕ) (n : ℕ) : Still s (State.bumpBy s r ix n) := by
  simp [Still, State.bumpBy]

@[simp] theorem bump_still (s : State) (r : Reg) (ix : List ℕ) : Still s (State.bump s r ix) := by
  simp [Still, State.bump]

@[simp] theorem csAdd_still (s : State) (set : ℕ) (index : ℕ) (item : ℕ) (n : ℕ) :
    Still s (State.csAdd s set index item n) := by
  simp [Still, State.csAdd]

@[simp] theorem setBrg_still (s : State) (b : ℕ) (g : BridgeSt → BridgeSt) : Still s (State.setBrg s b g) := by
  simp [Still, State.setBrg]

@[simp] theorem setLink_still (s : State) (l : ℕ) (g : LinkSt → LinkSt) : Still s (State.setLink s l g) := by
  simp [Still, State.setLink]

@[simp] theorem askLink_still (s : State) (b : ℕ) (up : Bool) (i : ℕ) (n : ℕ) :
    Still s (State.askLink s b up i n).2 := by
  simp [Still, State.askLink]

@[simp] theorem sendBytes_still (s : State) (b : ℕ) (up : Bool) (i : ℕ) (n : ℕ) :
    Still s (State.sendBytes s b up i n) := by
  simp [Still, State.sendBytes]

@[simp] theorem moveLog_still (s : State) (up : Bool) (e : LogEvent) : Still s (State.moveLog s up e) := by
  simp [Still, State.moveLog]

@[simp] theorem number_still (s : State) (m : Merged) : Still s (State.number s m).2 := by
  simp [Still, State.number]

@[simp] theorem writeLog_still (s : State) (m : Merged) (flags : ℕ) : Still s (State.writeLog s m flags) := by
  unfold State.writeLog
  dsimp only
  split
  · simp [Still, ite_parts]
  · split <;> simp [Still, ite_parts]

@[simp] theorem writeLow_still (s : State) (m : Merged) (flags : ℕ) : Still s (State.writeLow s m flags) := by
  simp [Still, State.writeLow, ite_parts]

@[simp] theorem drainLate_still (s : State) (fuel : Nat) : Still s (s.drainLate fuel) := by
  induction fuel generalizing s with
  | zero => simp [Still, State.drainLate]
  | succ n ih =>
    unfold State.drainLate
    split
    · simp [Still]
    · split <;> simp [Still, ih]

@[simp] theorem offerLow_still (s : State) (sev : ℕ) (data : List Byte) : Still s (State.offerLow s sev data) := by
  simp [Still, State.offerLow, ite_parts]

@[simp] theorem raiseEv_still (s : State) (code : ℕ) (sev : ℕ) (source : ℕ) (data : List Byte) :
    Still s (State.raiseEv s code sev source data) := by
  simp [Still, State.raiseEv, ite_parts]

@[simp] theorem guardParams_snd (cs : List (Bool × Nat)) (s : State) (k : Ans × State) :
    (guardParams cs s k).2 = if firstBad cs = none then k.2 else s := by
  unfold guardParams
  split <;> simp_all

@[simp] theorem guardUp_snd (fids : List Nat) (s : State) (k : Ans × State) :
    (guardUp fids s k).2 = if fids.find? s.fnDown = none then k.2 else s := by
  unfold guardUp
  split <;> simp_all

@[simp] theorem setSlot_slotsStill (s : State) (i : ℕ) (f : Session → Session) :
    SlotsStill s (State.setSlot s i f) := by
  simp [SlotsStill, State.setSlot]

@[simp] theorem freeObjects_still (s : State) (num : ℕ) : Still s (State.freeObjects s num) := by
  simp [Still, State.freeObjects]

@[simp] theorem closeSession_slotsStill (s : State) (i : ℕ) (reason : ℕ) :
    SlotsStill s (State.closeSession s i reason) := by
  unfold State.closeSession
  dsimp only
  split <;> simp [SlotsStill, ite_parts]

@[simp] theorem sendOn_slotsStill (s : State) (i : ℕ) (op : ℕ) (tag : BitVec 32) (flags : Byte) (extra : Byte)
    (dst : BitVec 48) (vlan : Option (BitVec 16)) (f : Final) :
    SlotsStill s (State.sendOn s i op tag flags extra dst vlan f) := by
  unfold State.sendOn
  dsimp only
  repeat' split
  all_goals simp [SlotsStill, ite_parts]

@[simp] theorem endLast_slotsStill (s : State) (i : ℕ) (last : Bool) : SlotsStill s (State.endLast s i last) := by
  unfold State.endLast
  split <;> simp [SlotsStill]

@[simp] theorem sendZero_slotsStill (s : State) (z : ZeroReq) (f : Final) : SlotsStill s (s.sendZero z f) := by
  simp [SlotsStill, State.sendZero, ite_parts, ite_slots]

@[simp] theorem finishCmd_slotsStill (s : State) (i : ℕ) (e : CmdEntry) (extra : Byte) (f : Final) :
    SlotsStill s (State.finishCmd s i e extra f) := by
  simp [SlotsStill, State.finishCmd]

@[simp] theorem internalFault_still (s : State) (engine : ℕ) (op : ℕ) (code : ℕ) (applied : ℕ) :
    Still s (State.internalFault s engine op code applied) := by
  simp [Still, State.internalFault]

@[simp] theorem pendCmd_slotsStill (s : State) (i : ℕ) (e : CmdEntry) (objs : List ℕ) (job : Job) :
    SlotsStill s (State.pendCmd s i e objs job) := by
  simp [SlotsStill, State.pendCmd]

@[simp] theorem holdCmd_slotsStill (s : State) (i : ℕ) (e : CmdEntry) (job : Job) :
    SlotsStill s (State.holdCmd s i e job) := by
  simp [SlotsStill, State.holdCmd]

@[simp] theorem zeroFrame_slotsStill (r : Request) (src : BitVec 48) (vlan : Option (BitVec 16)) (s : State) :
    SlotsStill s (zeroFrame r src vlan s) := by
  unfold zeroFrame
  dsimp only
  split
  · simp [SlotsStill]
  · split <;> simp [SlotsStill]

@[simp] theorem sessionCmd_slotsStill (i : ℕ) (r : Request) (src : BitVec 48) (vlan : Option (BitVec 16))
    (last : Bool) (s : State) : SlotsStill s (sessionCmd i r src vlan last s) := by
  unfold sessionCmd
  split <;> simp [SlotsStill]

@[simp] theorem sessionFrame_slotsStill (i : ℕ) (f : MgmtFrame) (r : Request) (s : State) :
    SlotsStill s (sessionFrame i f r s) := by
  unfold sessionFrame
  dsimp only
  split
  · simp [SlotsStill, ite_parts]
  · split <;> simp [SlotsStill, ite_parts]

@[simp] theorem receive_slotsStill (s : State) (f : MgmtFrame) : SlotsStill s (s.receive f) := by
  unfold State.receive
  dsimp only
  split
  · simp [SlotsStill]
  · split
    · simp [SlotsStill]
    · split
      · simp [SlotsStill]
      · split
        · split <;> simp [SlotsStill]
        · split
          · simp [SlotsStill]
          · simp [SlotsStill, ite_parts, ite_slots]

@[simp] theorem hostArrive_slotsStill (s : State) (r : Request) : SlotsStill s (s.hostArrive r) := by
  unfold State.hostArrive
  extract_lets slot vlan u
  clear_value vlan slot
  split
  · simp [SlotsStill]
  · split
    · simp [SlotsStill]
    · split
      · simp [SlotsStill, u]
      · split <;> simp [SlotsStill, u, ite_parts, ite_slots]

@[simp] theorem endJobs_slotsStill (s : State) (p : Job → Bool) (f : Final) : SlotsStill s (State.endJobs s p f) := by
  simp [SlotsStill, State.endJobs]

@[simp] theorem leaveClosing_slotsStill (s : State) (i : ℕ) (e : CmdEntry) :
    SlotsStill s (State.leaveClosing s i e) := by
  simp [SlotsStill, State.leaveClosing]

@[simp] theorem endRunning_slotsStill (s : State) (f : Job → Option Final) : SlotsStill s (s.endRunning f) := by
  unfold State.endRunning
  refine foldl_slotsStill (fun t i => ?_) s _
  refine foldl_slotsStill (fun u e => ?_) t _
  split
  · split <;> simp [SlotsStill]
  · simp [SlotsStill]

@[simp] theorem complete_slotsStill (s : State) (i : ℕ) (e : CmdEntry) (f : Final) :
    SlotsStill s (State.complete s i e f) := by
  unfold State.complete
  dsimp only
  split
  · simp [SlotsStill, ite_parts]
  · split <;> simp [SlotsStill, ite_parts]

@[simp] theorem endResets_slotsStill (s : State) (fid : ℕ) : SlotsStill s (State.endResets s fid) := by
  unfold State.endResets
  split <;> simp [SlotsStill]

@[simp] theorem noteBlock_still (s : State) (kind : ℕ) (stack : ℕ) (part : ℕ) (pch : Byte) (bank : Byte)
    (row : BitVec 24) (symbols : ℕ) : Still s (State.noteBlock s kind stack part pch bank row symbols) := by
  simp [Still, State.noteBlock, ite_parts]

@[simp] theorem meet_still (s : State) (part : ℕ) (n : ℕ) (place : BlockErr → ℕ) (met : List BlockErr) :
    Still s (State.meet s part n place met) := by
  simp [Still, foldl_still, foldl_slotsStill, foldl_fst_still, foldl_snd_still, ite_parts, ite_pair, State.meet]

@[simp] theorem setFibre_still (s : State) (f : ℕ) (g : FibreSt → FibreSt) : Still s (State.setFibre s f g) := by
  simp [Still, State.setFibre]

@[simp] theorem setPort_still (s : State) (p : ℕ) (g : PortSt → PortSt) : Still s (State.setPort s p g) := by
  simp [Still, State.setPort]

@[simp] theorem setLane_still (s : State) (l : ℕ) (g : LaneSt → LaneSt) : Still s (State.setLane s l g) := by
  simp [Still, State.setLane]

theorem setTile_still (s : State) (t : Nat) (f : TileSt → TileSt) :
    Still s (s.setTile t f) := ⟨rfl, rfl, rfl, rfl, rfl, rfl, rfl⟩

@[simp] theorem setQueue_still (s : State) (k : ℕ) (q : List QCell) : Still s (State.setQueue s k q) := by
  simp [Still, State.setQueue]

@[simp] theorem setUnder_still (s : State) (k : ℕ) (q : List QCell) : Still s (State.setUnder s k q) := by
  simp [Still, State.setUnder]

@[simp] theorem spillJudge_still (s : State) (t : ℕ) : Still s (State.spillJudge s t) := by
  simp [Still, State.spillJudge, ite_parts]

@[simp] theorem creditPort_still (s : State) (p : ℕ) (c : ℕ) : Still s (State.creditPort s p c) := by
  simp [Still, State.creditPort, ite_parts]

@[simp] theorem credit_still (s : State) (q : QCell) : Still s (State.credit s q) := by
  unfold State.credit
  split <;> simp [Still]

@[simp] theorem countDrop_still (s : State) (p : ℕ) (c : ℕ) : Still s (State.countDrop s p c) := by
  simp [Still, State.countDrop]

@[simp] theorem dropCell_still (s : State) (q : QCell) : Still s (State.dropCell s q) := by
  unfold State.dropCell
  split <;> simp [Still]

@[simp] theorem dropCells_still (s : State) (qs : List QCell) : Still s (State.dropCells s qs) := by
  simp [Still, foldl_still, foldl_slotsStill, foldl_fst_still, foldl_snd_still, ite_parts, ite_pair, State.dropCells]

@[simp] theorem setDc_still (s : State) (p : ℕ) (c : ℕ) (v : ℤ) : Still s (State.setDc s p c v) := by
  simp [Still, State.setDc]

@[simp] theorem settleDc_still (s : State) (p : ℕ) (c : ℕ) : Still s (State.settleDc s p c) := by
  simp [Still, State.settleDc, ite_parts]

@[simp] theorem settleKey_still (s : State) (k : ℕ) : Still s (State.settleKey s k) := by
  simp [Still, State.settleKey, ite_parts]

@[simp] theorem clearHead_still (s : State) (k : ℕ) : Still s (State.clearHead s k) := by
  simp [Still, State.clearHead, ite_parts]

@[simp] theorem countClass_still (s : State) (t : ℕ) (c : ℕ) (item : ℕ) (n : ℕ) :
    Still s (State.countClass s t c item n) := by
  simp [Still, State.countClass]

@[simp] theorem countEnq_still (s : State) (p : ℕ) (c : ℕ) (depth : ℕ) : Still s (State.countEnq s p c depth) := by
  simp [Still, State.countEnq]

@[simp] theorem countDeq_still (s : State) (p : ℕ) (c : ℕ) : Still s (State.countDeq s p c) := by
  simp [Still, State.countDeq]

@[simp] theorem flushEgress_still (s : State) (p : Nat) (sel : Nat → Bool) : Still s (s.flushEgress p sel).1 := by
  unfold State.flushEgress
  refine foldl_fst_still (fun t n c => ?_) s 0 _
  dsimp only
  split <;> simp [Still]

@[simp] theorem flushAdm_still (s : State) (p : ℕ) : Still s (State.flushAdm s p) := by
  simp [Still, foldl_still, foldl_slotsStill, foldl_fst_still, foldl_snd_still, ite_parts, ite_pair, State.flushAdm]

@[simp] theorem putCtx_still (s : State) (x : ℕ) (c : Ctx) : Still s (State.putCtx s x c) := by
  simp [Still, State.putCtx]

@[simp] theorem modCtx_still (s : State) (x : ℕ) (f : Ctx → Ctx) : Still s (State.modCtx s x f) := by
  simp [Still, State.modCtx]

@[simp] theorem setSlice_still (s : State) (t : ℕ) (f : Slice → Slice) : Still s (State.setSlice s t f) := by
  simp [Still, State.setSlice]

@[simp] theorem emit_still (s : State) (t : ℕ) (hdr : BitVec 128) (pay : BitVec 512) (outs : List OutTarget)
    (limit : ℕ) (frame : optParam ℕ 0) : Still s (State.emit s t hdr pay outs limit frame) := by
  simp [Still, State.emit]

@[simp] theorem sendCtrl_still (s : State) (x : Nat) (c : Ctx) (m chunk last aux : Nat) (pay : BitVec 512)
    {lost : State → State} (h : ∀ t, Still t (lost t)) : Still s (s.sendCtrl x c m chunk last aux pay lost) := by
  unfold State.sendCtrl
  dsimp only
  split
  · exact h s
  · simp [Still]

@[simp] theorem countCtx_still (s : State) (x : ℕ) (item : ℕ) (n : ℕ) : Still s (State.countCtx s x item n) := by
  simp [Still, State.countCtx]

@[simp] theorem countGroup_still (s : State) (c : Ctx) (item : ℕ) (n : ℕ) :
    Still s (State.countGroup s c item n) := by
  simp [Still, State.countGroup, ite_parts]

@[simp] theorem noPort_still (s : State) (r : Reg) (c : Ctx) (n : ℕ) : Still s (State.noPort s r c n) := by
  simp [Still, State.noPort]

@[simp] theorem sendOpen_still (s : State) (x : ℕ) (c : Ctx) (m : ℕ) (st : CtxState) (reason : ℕ) (off : ℕ) :
    Still s (State.sendOpen s x c m st reason off) := by
  simp [Still, State.sendOpen]

@[simp] theorem estDrop_still (s : State) (r : Reg) (q : QCell) : Still s (State.estDrop s r q) := by
  unfold State.estDrop
  dsimp only
  split <;> simp [Still, ite_parts]

@[simp] theorem countEnd_still (s : State) (x : ℕ) (c : Ctx) (st : CtxState) : Still s (State.countEnd s x c st) := by
  simp [Still, State.countEnd]

@[simp] theorem sendResult_still (s : State) (x : ℕ) (c : Ctx) (t : ℕ) (ms : List ℕ) (chunk : ℕ) (fmt : ℕ)
    (member : ℕ) (last : ℕ) (aux : ℕ) (pay : BitVec 512) :
    Still s (State.sendResult s x c t ms chunk fmt member last aux pay) := by
  simp [Still, State.sendResult, ite_parts]

@[simp] theorem restShares_still (s : State) (t : ℕ) : Still s (State.restShares s t) := by
  simp [Still, State.restShares]

@[simp] theorem recall_still (s : State) (x : ℕ) (c : Ctx) (st : CtxState) : Still s (State.recall s x c st) := by
  simp [Still, foldl_still, foldl_slotsStill, foldl_fst_still, foldl_snd_still, ite_parts, ite_pair, State.recall]

@[simp] theorem unpin_still (s : State) (x : ℕ) : Still s (State.unpin s x) := by
  simp [Still, foldl_still, foldl_slotsStill, foldl_fst_still, foldl_snd_still, ite_parts, ite_pair, State.unpin]

@[simp] theorem dropDeltas_still (s : State) (x : ℕ) : Still s (State.dropDeltas s x) := by
  simp [Still, State.dropDeltas]

@[simp] theorem trigBump_still (s : State) (i : ℕ) : Still s (State.trigBump s i) := by
  simp [Still, State.trigBump]

@[simp] theorem ebb_still (s : State) (x : ℕ) (c : Ctx) : Still s (State.ebb s x c) := by
  unfold State.ebb
  dsimp only
  split
  · simp [Still, ite_parts]
  · split <;> simp [Still, ite_parts]

@[simp] theorem endUnit_still (s : State) (c : Ctx) (st : CtxState) : Still s (State.endUnit s c st) := by
  unfold State.endUnit
  split <;> simp [Still, ite_parts]

@[simp] theorem dropEarly_still (s : State) (x : ℕ) : Still s (State.dropEarly s x) := by
  simp [Still, foldl_still, foldl_slotsStill, foldl_fst_still, foldl_snd_still, ite_parts, ite_pair, State.dropEarly]

@[simp] theorem endCtx_still (s : State) (x : ℕ) (st : CtxState) (reason : ℕ) (off : ℕ) :
    Still s (State.endCtx s x st reason off) := by
  unfold State.endCtx
  split <;> simp [Still, foldl_still, foldl_slotsStill, foldl_fst_still, foldl_snd_still, ite_parts, ite_pair]

@[simp] theorem ctxFault_still (s : State) (x : ℕ) (lines : List ℕ) : Still s (State.ctxFault s x lines) := by
  unfold State.ctxFault
  split <;> simp [Still, ite_parts]

@[simp] theorem matrixFault_still (s : State) (x : ℕ) (cols : List ℕ) : Still s (State.matrixFault s x cols) := by
  unfold State.matrixFault
  split <;> simp [Still, ite_parts]

@[simp] theorem homeFault_still (s : State) (n : ℕ) : Still s (State.homeFault s n) := by
  unfold State.homeFault
  split <;> simp [Still, ite_parts]

@[simp] theorem recordFault_still (s : State) (a : ℕ) : Still s (State.recordFault s a) := by
  unfold State.recordFault
  dsimp only
  split <;> simp [Still, ite_parts]

@[simp] theorem writeBack_still (s : State) (l : CacheLine) : Still s (State.writeBack s l) := by
  simp [Still, State.writeBack]

@[simp] theorem evict_still (s : State) (t x fuel : Nat) : Still s (s.evict t x fuel) := by
  induction fuel generalizing s with
  | zero => simp [Still, State.evict]
  | succ n ih =>
    unfold State.evict
    dsimp only
    split
    · simp [Still]
    · split <;> simp [Still, ih, ite_parts]

@[simp] theorem makeRoom_still (s : State) (t : ℕ) (x : ℕ) : Still s (State.makeRoom s t x) := by
  simp [Still, State.makeRoom]

@[simp] theorem trimPins_still (s : State) (t : ℕ) : Still s (State.trimPins s t) := by
  unfold State.trimPins
  split <;> simp [Still, ite_parts]

@[simp] theorem frontLines_still (s : State) (t : ℕ) (x : ℕ) (dirty : Bool) (need : List ℕ) :
    Still s (State.frontLines s t x dirty need) := by
  simp [Still, State.frontLines]

@[simp] theorem useLines_still (s : State) (t : ℕ) (x : ℕ) (live : Bool) (need : List ℕ) :
    Still s (State.useLines s t x live need) := by
  simp [Still, State.useLines]

@[simp] theorem touchLines_still (s : State) (t : ℕ) (x : ℕ) (m : ℕ) (chunk : Option ℕ) :
    Still s (State.touchLines s t x m chunk) := by
  unfold State.touchLines
  split <;> simp [Still, ite_parts]

@[simp] theorem askLines_still (s : State) (t : ℕ) (x : ℕ) (ls : List ℕ) : Still s (State.askLines s t x ls) := by
  simp [Still, foldl_still, foldl_slotsStill, foldl_fst_still, foldl_snd_still, ite_parts, ite_pair, State.askLines]

@[simp] theorem withLines_still (s : State) (t x : Nat) (c : Ctx) (need : List Nat) {k : State → State}
    (h : ∀ u, Still u (k u)) : Still s (s.withLines t x c need k) := by
  unfold State.withLines
  dsimp only
  split
  · exact h s
  · split
    · exact Still.trans (useLines_still s t x c.st.live need) (h _)
    · simp [Still, ite_parts]

@[simp] theorem readLine_still (s : State) (t : ℕ) (x : ℕ) (live : Bool) (l : ℕ) (met : List BlockErr) :
    Still s (State.readLine s t x live l met).1 := by
  simp [Still, foldl_still, foldl_slotsStill, foldl_fst_still, foldl_snd_still, ite_parts, ite_pair, State.readLine]

@[simp] theorem readLines_still (s : State) (t : ℕ) (x : ℕ) (live : Bool) (need : List ℕ) (met : List BlockErr) :
    Still s (State.readLines s t x live need met).1 := by
  simp [Still, foldl_still, foldl_slotsStill, foldl_fst_still, foldl_snd_still, ite_parts, ite_pair, State.readLines]

@[simp] theorem failedCtx_still (s : State) (o : Owner) (x : ℕ) (reason : ℕ) (off : ℕ) (d : BitVec 512) :
    Still s (State.failedCtx s o x reason off d) := by
  simp [Still, State.failedCtx, ite_parts]

@[simp] theorem planRound_still (s : State) (x : ℕ) (r : ℕ) (start : ℕ) : Still s (State.planRound s x r start) := by
  unfold State.planRound
  split <;> simp [Still, foldl_still, foldl_slotsStill, foldl_fst_still, foldl_snd_still, ite_parts, ite_pair]

@[simp] theorem lastCells_still (s : State) (x : ℕ) (r : ℕ) (start : ℕ) : Still s (State.lastCells s x r start) := by
  unfold State.lastCells
  split <;> simp [Still, foldl_still, foldl_slotsStill, foldl_fst_still, foldl_snd_still, ite_parts, ite_pair]

@[simp] theorem sendMatrix_still (s : State) (x : ℕ) (c : Ctx) (m : ℕ) (blocks : List ℕ) (row0 : List ℕ) :
    Still s (State.sendMatrix s x c m blocks row0) := by
  simp [Still, foldl_still, foldl_slotsStill, foldl_fst_still, foldl_snd_still, ite_parts, ite_pair, State.sendMatrix]

@[simp] theorem startPacing_still (s : State) (x : ℕ) : Still s (State.startPacing s x) := by
  unfold State.startPacing
  split <;> simp [Still, foldl_still, foldl_slotsStill, foldl_fst_still, foldl_snd_still, ite_parts, ite_pair]

@[simp] theorem progress_still (s : State) (x : Nat) (c : Ctx) (b0 b1 step : Nat) :
    Still s (s.progress x c b0 b1 step) := by
  unfold State.progress
  refine foldl_still (fun t b => ?_) s _
  simp [Still, foldl_still]

@[simp] theorem sendChunk_still (s : State) (x : ℕ) (c : Ctx) (n : ℕ) (k : Chunk) (ms : List ℕ) :
    Still s (State.sendChunk s x c n k ms) := by
  simp [Still, foldl_still, foldl_slotsStill, foldl_fst_still, foldl_snd_still, ite_parts, ite_pair, State.sendChunk]

@[simp] theorem parityDone_still (s : State) (x : Nat) (c : Ctx) (n : Nat) (k : Chunk) :
    Still s (s.parityDone x c n k) := by
  unfold State.parityDone
  dsimp only
  split
  · simp [Still]
  · split
    · refine foldl_still (fun t y => ?_) s _
      split <;> simp [Still]
    · simp [Still]

@[simp] theorem finishChunk_still (s : State) (x n : Nat) : Still s (s.finishChunk x n) := by
  unfold State.finishChunk
  split
  · simp [Still]
  · simp [Still, ite_parts]

@[simp] theorem completeChunk_still (s : State) (x n : Nat) : Still s (s.completeChunk x n) := by
  unfold State.completeChunk
  split
  · simp [Still]
  · simp [Still, ite_parts]

@[simp] theorem judgeWork_still (s : State) (x : ℕ) : Still s (State.judgeWork s x) := by
  unfold State.judgeWork
  split <;> simp [Still, ite_parts]

@[simp] theorem completeNow_still (s : State) (x : ℕ) : Still s (State.completeNow s x) := by
  unfold State.completeNow
  split <;> simp [Still, foldl_still, foldl_slotsStill, foldl_fst_still, foldl_snd_still, ite_parts, ite_slots, ite_pair]

@[simp] theorem judgeChunks_still (s : State) (x : Nat) : Still s (s.judgeChunks x) := by
  unfold State.judgeChunks
  split
  · simp [Still]
  · simp [Still, ite_parts, foldl_still]

@[simp] theorem handOver_still (s : State) (q : QCell) : Still s (State.handOver s q) := by
  unfold State.handOver
  dsimp only
  split
  · simp [Still, ite_parts]
  · split <;> simp [Still, ite_parts]

@[simp] theorem accept_still (s : State) (x : Nat) (c : Ctx) (q : QCell) : Still s (s.accept x c q) := by
  unfold State.accept
  dsimp only
  split
  · simp [Still, ite_parts]
  · split
    · split <;> simp [Still]
    · split <;> simp [Still, ite_parts]

@[simp] theorem judgeMark_still (s : State) (x : Nat) (c : Ctx) (q : QCell) : Still s (s.judgeMark x c q) := by
  simp [Still, State.judgeMark, ite_parts]

@[simp] theorem waitEarly_still (s : State) (t : ℕ) (q : QCell) : Still s (State.waitEarly s t q) := by
  simp [Still, State.waitEarly, ite_parts]

@[simp] theorem judgeCell_still (s : State) (t : Nat) (q : QCell) : Still s (s.judgeCell t q) := by
  unfold State.judgeCell
  dsimp only
  split
  · simp [Still]
  · split
    · simp [Still]
    · cases (s.ctx q.cell.ctx).filter fun c => decide (c.st ≠ .free) <;> simp [Still, ite_parts]

@[simp] theorem judgeEarly_still (s : State) (x : Nat) : Still s (s.judgeEarly x) := by
  have one (x t : Nat) (u : State) (q : QCell) : Still u (if u.codeShut q then u.estDrop .bwkResetDrops q
      else (u.judgeCell t q).touchLines t x q.cell.member (some q.cell.chunk)) := by
    split <;> simp [Still]
  simp [State.judgeEarly, Still, foldl_still, one]

@[simp] theorem judgeOpen_still (s : State) (x : Nat) : Still s (s.judgeOpen x) := by
  unfold State.judgeOpen
  split
  · simp [Still]
  · simp [Still, ite_parts]

@[simp] theorem answerOpen_still (s : State) (x : ℕ) (m : ℕ) : Still s (State.answerOpen s x m) := by
  unfold State.answerOpen
  split <;> simp [Still]

@[simp] theorem tellExcluded_still (s : State) (x : ℕ) (c : Ctx) (ms : List ℕ) :
    Still s (State.tellExcluded s x c ms) := by
  simp [Still, foldl_still, foldl_slotsStill, foldl_fst_still, foldl_snd_still, ite_parts, ite_pair, State.tellExcluded]

@[simp] theorem admitted_still (s : State) (x : ℕ) (c : Ctx) : Still s (State.admitted s x c) := by
  simp [Still, State.admitted]

@[simp] theorem judgeOpenCell_still (s : State) (q : QCell) : Still s (State.judgeOpenCell s q) := by
  unfold State.judgeOpenCell
  dsimp only
  repeat' split
  all_goals simp [Still, ite_parts]

@[simp] theorem fire_still (s : State) (i : Nat) (e : Trigger) : Still s (s.fire i e) := by
  unfold State.fire
  dsimp only
  split
  · simp [Still]
  · split
    · simp [Still]
    · split <;> simp [Still, foldl_still]

@[simp] theorem fireAll_still (s : State) (fuel : Nat) : Still s (s.fireAll fuel) := by
  induction fuel generalizing s with
  | zero => simp [Still, State.fireAll]
  | succ n ih =>
    unfold State.fireAll
    split <;> simp [Still, ih]

@[simp] theorem settle_still (s : State) : Still s (State.settle s) := by
  simp [Still, State.settle]

@[simp] theorem setOe_still (s : State) (e : ℕ) (g : EngineSt → EngineSt) : Still s (State.setOe s e g) := by
  simp [Still, State.setOe]

@[simp] theorem setRing_still (s : State) (e : ℕ) (r : ℕ) (g : RingSt → RingSt) :
    Still s (State.setRing s e r g) := by
  simp [Still, State.setRing]

@[simp] theorem setEye_still (s : State) (f : ℕ) (g : EyeSt → EyeSt) : Still s (State.setEye s f g) := by
  simp [Still, State.setEye]

@[simp] theorem toFibre_still (s : State) (l : ℕ) (x : FibreTx) : Still s (State.toFibre s l x) := by
  simp [Still, State.toFibre, ite_parts]

@[simp] theorem pauseSweep_still (s : State) (l : ℕ) : Still s (State.pauseSweep s l) := by
  simp [Still, State.pauseSweep]

@[simp] theorem resumeSweep_still (s : State) (l : ℕ) : Still s (State.resumeSweep s l) := by
  simp [Still, State.resumeSweep, ite_parts]

@[simp] theorem serveSlice_still (s : State) (t cls : Nat) : Still s (s.serveSlice t cls) := by
  unfold State.serveSlice
  dsimp only
  split
  · simp [Still]
  · split
    · simp [Still]
    · split
      · simp [Still]
      · split
        · simp [Still]
        · split
          · simp [Still]
          · split
            · exact withLines_still _ _ _ _ _ fun u => by simp [Still]
            · simp [Still]

@[simp] theorem serveCtrl_still (s : State) (t type : Nat) {judge : QCell → State → State}
    (h : ∀ q u, Still u (judge q u)) : Still s (s.serveCtrl t type judge) := by
  unfold State.serveCtrl
  dsimp only
  split
  · simp [Still]
  · split
    · simp [Still]
    · split
      · simp [Still]
      · split
        · simp [Still]
        · split
          · exact withLines_still _ _ _ _ _ fun u => by simp [Still, h]
          · simp [Still, h]

@[simp] theorem sendLack_still (s : State) (x : ℕ) (c : Ctx) (round : ℕ) (m : ℕ) :
    Still s (State.sendLack s x c round m) := by
  simp [Still, foldl_still, foldl_slotsStill, foldl_fst_still, foldl_snd_still, ite_parts, ite_pair, State.sendLack]

@[simp] theorem missingRound_still (s : State) (x : ℕ) (c : Ctx) : Still s (State.missingRound s x c) := by
  simp [Still, foldl_still, foldl_slotsStill, foldl_fst_still, foldl_snd_still, ite_parts, ite_pair, State.missingRound]

@[simp] theorem readSlots_still (s : State) (x : ℕ) (c : Ctx) (chunks : List ℕ) (met : List BlockErr) :
    Still s (State.readSlots s x c chunks met) := by
  simp [Still, foldl_still, foldl_slotsStill, foldl_fst_still, foldl_snd_still, ite_parts, ite_pair, State.readSlots]

@[simp] theorem resend_still (s : State) (x m : Nat) (chunks : List Nat) : Still s (s.resend x m chunks) := by
  unfold State.resend
  split
  · simp [Still]
  · dsimp only
    generalize hf : List.foldl _ s _ = u
    have hu : Still s u := by
      rw [← hf]
      refine foldl_still (fun v j => ?_) s _
      split
      · simp [Still]
      · split <;> simp [Still]
    simp [Still, ite_parts, hu]

@[simp] theorem judgeResend_still (s : State) (q : QCell) (met : List BlockErr) : Still s (s.judgeResend q met) := by
  unfold State.judgeResend
  dsimp only
  split
  · simp [Still]
  · split
    · simp [Still]
    · split <;> simp [Still, ite_parts]

@[simp] theorem judgeDestroys_slotsStill (s : State) : SlotsStill s (State.judgeDestroys s) := by
  simp [SlotsStill, foldl_still, foldl_slotsStill, foldl_fst_still, foldl_snd_still, ite_parts, ite_pair, State.judgeDestroys]

@[simp] theorem damage_still (s : State) (g : ℕ) (u : ℕ) : Still s (State.damage s g u) := by
  unfold State.damage
  split <;> simp [Still, foldl_still, foldl_slotsStill, foldl_fst_still, foldl_snd_still, ite_parts, ite_pair]

@[simp] theorem writeBackAll_still (s : State) (x : ℕ) (t : ℕ) : Still s (State.writeBackAll s x t) := by
  simp [Still, foldl_still, foldl_slotsStill, foldl_fst_still, foldl_snd_still, ite_parts, ite_pair, State.writeBackAll]

@[simp] theorem resetSlice_still (s : State) (t : Nat) : Still s (s.resetSlice t) := by
  simp [Still, State.resetSlice, foldl_still]

@[simp] theorem countRx_still (s : State) (p : ℕ) (c : Cell) : Still s (State.countRx s p c) := by
  simp [Still, State.countRx]

@[simp] theorem countTx_still (s : State) (p : ℕ) (c : Cell) : Still s (State.countTx s p c) := by
  simp [Still, State.countTx]

@[simp] theorem chargeShaper_still (s : State) (p : ℕ) (c : ℕ) (n : ℕ) : Still s (State.chargeShaper s p c n) := by
  simp [Still, State.chargeShaper, ite_parts]

@[simp] theorem police_still {s t : State} {p : Nat} {c : Cell} (h : s.police p c = .pass t) : Still s t := by
  unfold State.police at h
  dsimp only at h
  split_ifs at h <;> cases h <;> simp [Still]

@[simp] theorem zeroShaper_still (s : State) (p : ℕ) (c : ℕ) : Still s (State.zeroShaper s p c) := by
  simp [Still, State.zeroShaper]

@[simp] theorem tcForm_still (s : State) (p : ℕ) : Still s (State.tcForm s p) := by
  simp [Still, State.tcForm]

@[simp] theorem drrNext_still (s : State) (p : Nat) (ok : Nat → Bool) (fuel : Nat) :
    Still s (s.drrNext p ok fuel).2 := by
  induction fuel generalizing s with
  | zero => simp [Still, State.drrNext]
  | succ n ih =>
    unfold State.drrNext
    split
    dsimp only
    split
    · split <;> simp [Still, ih, ite_parts, ite_pair]
    · simp [Still, ih]

@[simp] theorem passPointer_still (s : State) (p : ℕ) (ok : ℕ → Bool) : Still s (State.passPointer s p ok) := by
  simp [Still, State.passPointer, ite_parts]

@[simp] theorem nextClass_still (s : State) (p : ℕ) (ok : ℕ → Bool) : Still s (State.nextClass s p ok).2 := by
  simp [Still, foldl_still, foldl_slotsStill, foldl_fst_still, foldl_snd_still, ite_parts, ite_slots, ite_pair, State.nextClass]

@[simp] theorem chargeSent_still (s : State) (p : ℕ) (c : ℕ) (cell : Cell) :
    Still s (State.chargeSent s p c cell) := by
  simp [Still, State.chargeSent, ite_parts]

@[simp] theorem startChange_still (s : State) (e : ℕ) (set : List (ℕ × CswPath)) (clear : List ℕ) :
    Still s (State.startChange s e set clear) := by
  simp [Still, State.startChange]

@[simp] theorem endCommit_slotsStill (s : State) (f : Final) (consume : Bool) :
    SlotsStill s (State.endCommit s f consume) := by
  simp [SlotsStill, State.endCommit]

@[simp] theorem refuseCommit_slotsStill (s : State) (status : ℕ) (detail : ℕ) (reason : ℕ) (index : ℕ) :
    SlotsStill s (State.refuseCommit s status detail reason index) := by
  simp [SlotsStill, State.refuseCommit]

@[simp] theorem removeTable_slotsStill (s : State) (l : ℕ) : SlotsStill s (State.removeTable s l) := by
  unfold State.removeTable
  dsimp only
  repeat' split
  all_goals simp [SlotsStill, ite_parts]

@[simp] theorem readObject_still (s : State) (h : ℕ) (off : ℕ) (count : ℕ) (met : List BlockErr) :
    Still s (State.readObject s h off count met).2 := by
  simp [Still, State.readObject]

@[simp] theorem setObj_still (s : State) (h : ℕ) (o : Obj) : Still s (State.setObj s h o) := by
  simp [Still, State.setObj]

@[simp] theorem pulse_still (s : State) : Still s (State.pulse s) := by
  simp [Still, State.pulse, ite_parts]

@[simp] theorem correct_still (s : State) (d : ℤ) : Still s (State.correct s d).2 := by
  simp [Still, foldl_still, foldl_slotsStill, foldl_fst_still, foldl_snd_still, ite_parts, ite_pair, State.correct]

@[simp] theorem holdover_still (s : State) (cause : ℕ) : Still s (State.holdover s cause) := by
  simp [Still, State.holdover, ite_parts]

@[simp] theorem addStamp_still (s : State) (t : ℕ) (ident : ℕ) : Still s (State.addStamp s t ident) := by
  simp [Still, State.addStamp, ite_parts]

@[simp] theorem setLaunches_still (s : State) (t : ℕ) (ls : List Launch) : Still s (State.setLaunches s t ls) := by
  simp [Still, State.setLaunches]

@[simp] theorem restartLanes_still (s : State) (p : ℕ) : Still s (State.restartLanes s p) := by
  simp [Still, foldl_still, foldl_slotsStill, foldl_fst_still, foldl_snd_still, ite_parts, ite_pair, State.restartLanes]

@[simp] theorem retrainEvent_still (s : State) (p : ℕ) (cause : ℕ) : Still s (State.retrainEvent s p cause) := by
  simp [Still, State.retrainEvent]

@[simp] theorem abortFrame_still (s : State) (t : ℕ) (n : ℕ) : Still s (State.abortFrame s t n) := by
  simp [Still, foldl_still, foldl_slotsStill, foldl_fst_still, foldl_snd_still, ite_parts, ite_pair, State.abortFrame]

@[simp] theorem zeroEstimators_still (s : State) (p : ℕ) : Still s (State.zeroEstimators s p) := by
  simp [Still, State.zeroEstimators]

@[simp] theorem formC_still (s : State) (p : ℕ) : Still s (State.formC s p) := by
  simp [Still, State.formC]

@[simp] theorem formPort_still (s : State) (p : ℕ) : Still s (State.formPort s p) := by
  unfold State.formPort
  split
  · simp [Still, ite_parts]
  · split <;> simp [Still, ite_parts]

@[simp] theorem retryShort_still (s : State) (t : ℕ) : Still s (State.retryShort s t) := by
  simp [Still, foldl_still, foldl_slotsStill, foldl_fst_still, foldl_snd_still, ite_parts, ite_pair, State.retryShort]

@[simp] theorem missLaunches_still (s : State) (p : ℕ) : Still s (State.missLaunches s p) := by
  simp [Still, foldl_still, foldl_slotsStill, foldl_fst_still, foldl_snd_still, ite_parts, ite_pair, State.missLaunches]

@[simp] theorem dropEgress_still (s : State) (p : ℕ) (reconf : Bool) : Still s (State.dropEgress s p reconf) := by
  simp [Still, State.dropEgress, ite_parts]

@[simp] theorem dropPort_still (s : State) (p : ℕ) (target : PState) (reconf : Bool) :
    Still s (State.dropPort s p target reconf) := by
  unfold State.dropPort
  dsimp only
  split
  · simp [Still, ite_parts]
  · split <;> simp [Still, ite_parts]

@[simp] theorem retrain_still (s : State) (p : ℕ) (cause : ℕ) : Still s (State.retrain s p cause) := by
  simp [Still, State.retrain]

@[simp] theorem eRetrain_still (s : State) (p : ℕ) : Still s (State.eRetrain s p) := by
  simp [Still, foldl_still, foldl_slotsStill, foldl_fst_still, foldl_snd_still, ite_parts, ite_pair, State.eRetrain]

@[simp] theorem eJudge_still (s : State) (p : ℕ) : Still s (State.eJudge s p) := by
  simp [Still, State.eJudge, ite_parts]

@[simp] theorem quarantine_still (s : State) (p : ℕ) : Still s (State.quarantine s p) := by
  simp [Still, State.quarantine]

@[simp] theorem release_still (s : State) (p : ℕ) : Still s (State.release s p) := by
  simp [Still, State.release]

@[simp] theorem settlePort_still (s : State) (p : ℕ) : Still s (State.settlePort s p) := by
  unfold State.settlePort
  dsimp only
  split
  · simp [Still, ite_parts]
  · split <;> simp [Still, ite_parts]

@[simp] theorem settleFibre_still (s : State) (f : ℕ) : Still s (State.settleFibre s f) := by
  simp [Still, foldl_still, foldl_slotsStill, foldl_fst_still, foldl_snd_still, ite_parts, ite_pair, State.settleFibre]

@[simp] theorem discover_still (s : State) (f : ℕ) (pay : BitVec 512) : Still s (State.discover s f pay) := by
  simp [Still, foldl_still, foldl_slotsStill, foldl_fst_still, foldl_snd_still, ite_parts, ite_pair, State.discover]

@[simp] theorem dropFibre_slotsStill (s : State) (f : ℕ) : SlotsStill s (State.dropFibre s f) := by
  simp [SlotsStill, foldl_still, foldl_slotsStill, foldl_fst_still, foldl_snd_still, ite_parts, ite_pair, State.dropFibre]

@[simp] theorem retune_still (s : State) (p : ℕ) : Still s (State.retune s p) := by
  simp [Still, State.retune]

@[simp] theorem clearRx_still (s : State) (l : ℕ) : Still s (State.clearRx s l) := by
  simp [Still, State.clearRx]

@[simp] theorem laneLost_still (s : State) (l : ℕ) : Still s (State.laneLost s l) := by
  simp [Still, State.laneLost, ite_parts]

@[simp] theorem dropLane_still (s : State) (l : ℕ) (d : Dir) : Still s (State.dropLane s l d) := by
  simp [Still, State.dropLane]

@[simp] theorem returnLane_still (s : State) (l : ℕ) (d : Dir) : Still s (State.returnLane s l d) := by
  simp [Still, State.returnLane, ite_parts]

@[simp] theorem divertLane_still (s : State) (l : ℕ) : Still s (State.divertLane s l) := by
  simp [Still, State.divertLane, ite_parts]

@[simp] theorem undivertLane_still (s : State) (l : ℕ) : Still s (State.undivertLane s l) := by
  simp [Still, State.undivertLane, ite_parts]

@[simp] theorem followLane_still (s : State) (l : ℕ) (d : Dir) : Still s (State.followLane s l d) := by
  simp [Still, State.followLane, ite_parts]

@[simp] theorem followFibre_still (s : State) (f : ℕ) : Still s (State.followFibre s f) := by
  simp [Still, foldl_still, foldl_slotsStill, foldl_fst_still, foldl_snd_still, ite_parts, ite_pair, State.followFibre]

@[simp] theorem learnPartner_still (s : State) (l : ℕ) (src : BitVec 48) : Still s (State.learnPartner s l src) := by
  simp [Still, State.learnPartner]

@[simp] theorem toEgress_still (s : State) (p : ℕ) (c : ℕ) (q : QCell) : Still s (State.toEgress s p c q) := by
  simp [Still, State.toEgress]

@[simp] theorem queueCtrl_still (s : State) (p : ℕ) (c : Cell) : Still s (State.queueCtrl s p c) := by
  simp [Still, State.queueCtrl, ite_parts]

@[simp] theorem partnerMac_still (s : State) (p : ℕ) : Still s (State.partnerMac s p).2 := by
  unfold State.partnerMac
  split <;> simp [Still]

@[simp] theorem putTrain_still (s : State) (p : ℕ) (cells : List Cell) : Still s (State.putTrain s p cells) := by
  simp [Still, State.putTrain]

theorem guardTable_snd (session : Nat) (limit : Option Nat) (tb qmask lo hi : Nat) (s : State) (k : Ans × State) :
    (guardTable session limit tb qmask lo hi s k).2 = s ∨ (guardTable session limit tb qmask lo hi s k).2 = k.2 := by
  unfold guardTable
  split
  · exact .inl rfl
  · split
    · exact .inl rfl
    · exact .inr rfl

@[simp] theorem soundRead_still (s : State) (a : ℕ) (met : List BlockErr) : Still s (State.soundRead s a met) := by
  simp [Still, State.soundRead, ite_parts]

@[simp] theorem spindrift_still (s : State) (q : ℕ) (f : ℕ) (weights : ℕ) :
    Still s (State.spindrift s q f weights).2 := by
  simp [Still, foldl_still, foldl_slotsStill, foldl_fst_still, foldl_snd_still, ite_parts, ite_pair, State.spindrift]

@[simp] theorem routeBy_still (s : State) (q : Nat) (c : Cell) (img : EntryImage) (sched : Bool) :
    Still s (s.routeBy q c img sched).2 := by
  unfold State.routeBy
  dsimp only
  split
  · simp [Still]
  · split
    · simp [Still]
    · split
      all_goals
        next h =>
          obtain ⟨-, rfl⟩ := eq_pair h
          simp [Still]

@[simp] theorem routeCell_still (s : State) (q g : Nat) (c : Cell) : Still s (s.routeCell q g c).2 := by
  unfold State.routeCell
  split <;> simp [Still, ite_pair, ite_parts]

@[simp] theorem learnEvent_still (s : State) (q : ℕ) (kind : ℕ) (i : ℕ) (img : EntryImage) :
    Still s (State.learnEvent s q kind i img) := by
  simp [Still, State.learnEvent, ite_parts]

@[simp] theorem flowBytes_still (s : State) (v6 : Bool) (l3 : ℕ) (bs : List Byte) :
    Still s (State.flowBytes s v6 l3 bs).2 := by
  unfold State.flowBytes
  dsimp only
  split
  · simp [Still, ite_parts]
  · split <;> simp [Still, ite_parts]

@[simp] theorem routePod_still (s : State) (q : Nat) (img : EntryImage) (v6 : Bool) (l3 : Nat) (bs : List Byte) :
    Still s (s.routePod q img v6 l3 bs).2 := by
  unfold State.routePod
  dsimp only
  split
  · simp [Still]
  · split
    · split <;> simp [Still]
    · split
      all_goals
        next h =>
          obtain ⟨-, rfl⟩ := eq_pair h
          simp [Still]

@[simp] theorem routeFrame_still (s : State) (q : Nat) (h : FrameHead) (bs : List Byte) (c : Cell) :
    Still s (s.routeFrame q h bs c).2 := by
  unfold State.routeFrame
  extract_lets v6 part ttl
  split
  · simp [Still]
  · split
    · simp [Still]
    · extract_lets target
      split
      · simp [Still]
      · split
        next h =>
        obtain ⟨rfl, rfl⟩ := eq_pair h
        split <;> simp [Still, ite_pair, ite_parts]

@[simp] theorem onward_still (s : State) (t : ℕ) (q : QCell) : Still s (State.onward s t q) := by
  simp [Still, State.onward]

@[simp] theorem classDrop_still (s : State) (p : ℕ) (src : CellSrc) (c : ℕ) :
    Still s (State.classDrop s p src c) := by
  unfold State.classDrop
  split <;> simp [Still]

@[simp] theorem endAtLink_still (s : State) (p : ℕ) (src : CellSrc) (c : Cell) :
    Still s (State.endAtLink s p src c) := by
  unfold State.endAtLink
  split <;> simp [Still, ite_parts]

@[simp] theorem arrive_still (s : State) (p : ℕ) (src : CellSrc) (c : Cell) (frame : ℕ) (at_ : Stamp) :
    Still s (State.arrive s p src c frame at_) := by
  simp [Still, State.arrive]

@[simp] theorem judge_still (s : State) (p : Nat) (src : CellSrc) (c : Cell) (frame : Nat) (at_ : Stamp) :
    Still s (s.judge p src c frame at_) := by
  unfold State.judge
  dsimp only
  split
  · next h => exact Still.trans (police_still h) (by simp [Still])
  all_goals cases src <;> simp [Still, ite_parts]

@[simp] theorem joinFrame_still (s : State) (p : ℕ) (c : Cell) : Still s (State.joinFrame s p c).2 := by
  unfold State.joinFrame
  dsimp only
  repeat' split
  all_goals simp [Still, ite_parts]

@[simp] theorem arriveOrd_still (s : State) (p : Nat) (c : Cell) (at_ : Stamp) : Still s (s.arriveOrd p c at_) := by
  unfold State.arriveOrd
  split
  next h =>
    obtain ⟨rfl, rfl⟩ := eq_pair h
    split <;> simp [Still, ite_parts]

@[simp] theorem arriveC_still (s : State) (p : Nat) (at_ : Stamp) (c : Cell) : Still s (s.arriveC p at_ c) := by
  unfold State.arriveC
  extract_lets x cls ix src before beyond u t
  clear_value before beyond x ix
  have hu : Still s u := by simp [u, Still]
  clear_value u
  split
  · simp [Still]
  · repeat' split
    all_goals simp [Still, hu]

@[simp] theorem deliver_still (s : State) (p : Nat) (at_ : Stamp) (f : Flit) : Still s (s.deliver p at_ f) := by
  unfold State.deliver
  exact foldl_still (fun t c => by simp [Still]) s _

@[simp] theorem deliverHeld_still (s : State) (p n : Nat) : Still s (s.deliverHeld p n) := by
  induction n generalizing s with
  | zero => exact ⟨rfl, rfl, rfl, rfl, rfl, rfl, rfl⟩
  | succ n ih =>
    unfold State.deliverHeld
    dsimp only
    split
    · simp [Still]
    · exact Still.trans (by simp [Still]) (ih _)

@[simp] theorem sequenced_still (s : State) (p : Nat) (f : Flit) : Still s (s.sequenced p f) := by
  unfold State.sequenced
  dsimp only
  split
  · simp [Still]
  · split <;> simp [Still]

@[simp] theorem linkFields_still (s : State) (l : ℕ) (p : ℕ) (k : LinkCell) : Still s (State.linkFields s l p k) := by
  simp [Still, State.linkFields]

@[simp] theorem arriveE_still (s : State) (p : Nat) (c : Cell) : Still s (s.arriveE p c) := by
  unfold State.arriveE
  extract_lets ix src cls st u t
  have hu : Still s u := by simp [u, Still, ite_parts]
  clear_value u st
  repeat' split
  all_goals simp [Still, hu]

@[simp] theorem takeTrain_still (s : State) (p : Nat) (tr : Train) (overrun : Bool) :
    Still s (s.takeTrain p tr overrun) := by
  unfold State.takeTrain
  extract_lets ix cells now u v
  have hu : Still s u := by simp [u, Still]
  clear_value u now
  have hv : Still u v := by simp [v, Still, ite_parts]
  clear_value v
  repeat' split
  all_goals simp [Still, foldl_still, hu, hv]

@[simp] theorem loseCell_still (s : State) (t : ℕ) (q : QCell) : Still s (State.loseCell s t q) := by
  simp [Still, State.loseCell, ite_parts]

@[simp] theorem ageCell_still (s : State) (t : ℕ) (q : QCell) : Still s (State.ageCell s t q) := by
  simp [Still, State.ageCell]

@[simp] theorem moveSpilled_still (s : State) (t : ℕ) (b : ℕ) (up : Bool) : Still s (State.moveSpilled s t b up) := by
  simp [Still, State.moveSpilled]

@[simp] theorem judgeAdmit_still (s : State) (t : ℕ) (k : ℕ) (c : ℕ) : Still s (State.judgeAdmit s t k c).2 := by
  unfold State.judgeAdmit
  dsimp only
  repeat' split
  all_goals simp [Still, ite_parts]

@[simp] theorem enqueue_still (s : State) (k : ℕ) (q : QCell) : Still s (State.enqueue s k q) := by
  simp [Still, State.enqueue]

@[simp] theorem pushOut_still (s : State) (t : ℕ) (k : ℕ) : Still s (State.pushOut s t k) := by
  unfold State.pushOut
  split <;> simp [Still]

@[simp] theorem place_still (s : State) (t : Nat) (q : QCell) : Still s (s.place t q).2 := by
  unfold State.place
  dsimp only
  split
  all_goals
    next h =>
      obtain ⟨-, rfl⟩ := eq_pair h
      simp [Still]

@[simp] theorem refuseCell_still (s : State) (t : ℕ) (q : QCell) : Still s (State.refuseCell s t q) := by
  unfold State.refuseCell
  split <;> simp [Still]

@[simp] theorem rejudge_still (s : State) (t : Nat) (stuck : List QCell) (q : QCell) :
    Still s (s.rejudge t stuck q).1 := by
  unfold State.rejudge
  dsimp only
  split
  · simp [Still]
  · split
    · simp [Still]
    · split
      · simp [Still]
      · split
        · simp [Still]
        · split
          all_goals
            next h =>
              obtain ⟨-, rfl⟩ := eq_pair h
              simp [Still]

@[simp] theorem nextHeld_still (s : State) (t : ℕ) : Still s (State.nextHeld s t).2 := by
  unfold State.nextHeld
  dsimp only
  split
  · simp [Still, ite_parts]
  · split <;> simp [Still, ite_parts]

@[simp] theorem readBack_still (s : State) (t k n : Nat) : Still s (s.readBack t k n) := by
  induction n generalizing s with
  | zero => simp [Still, State.readBack]
  | succ n ih =>
    unfold State.readBack
    split <;> simp [Still, ih, ite_parts]

@[simp] theorem sweepHead_still (s : State) (t k fuel : Nat) : Still s (s.sweepHead t k fuel) := by
  induction fuel generalizing s with
  | zero => simp [Still, State.sweepHead]
  | succ n ih =>
    unfold State.sweepHead
    split <;> simp [Still, ih, ite_parts]

@[simp] theorem sweepKey_still (s : State) (t : ℕ) (k : ℕ) : Still s (State.sweepKey s t k) := by
  simp [Still, State.sweepKey]

@[simp] theorem sweepQueues_still (s : State) (t : ℕ) : Still s (State.sweepQueues s t) := by
  simp [Still, foldl_still, foldl_slotsStill, foldl_fst_still, foldl_snd_still, ite_parts, ite_slots, ite_pair, State.sweepQueues]

@[simp] theorem sweepLanding_still (s : State) (t : ℕ) : Still s (State.sweepLanding s t) := by
  simp [Still, foldl_still, foldl_slotsStill, foldl_fst_still, foldl_snd_still, ite_parts, ite_pair, State.sweepLanding]

@[simp] theorem sweepHeld_still (s : State) (t : ℕ) : Still s (State.sweepHeld s t) := by
  simp [Still, foldl_still, foldl_slotsStill, foldl_fst_still, foldl_snd_still, ite_parts, ite_slots, ite_pair, State.sweepHeld]

@[simp] theorem sweepEarly_still (s : State) (t : ℕ) : Still s (State.sweepEarly s t) := by
  simp [Still, foldl_still, foldl_slotsStill, foldl_fst_still, foldl_snd_still, ite_parts, ite_slots, ite_pair, State.sweepEarly]

@[simp] theorem sweepArrivals_still (s : State) (t : ℕ) : Still s (State.sweepArrivals s t) := by
  simp [Still, foldl_still, foldl_slotsStill, foldl_fst_still, foldl_snd_still, ite_parts, ite_pair, State.sweepArrivals]

@[simp] theorem sweepLaunches_still (s : State) (t : ℕ) : Still s (State.sweepLaunches s t) := by
  simp [Still, foldl_still, foldl_slotsStill, foldl_fst_still, foldl_snd_still, ite_parts, ite_pair, State.sweepLaunches]

@[simp] theorem setPtpPort_still (s : State) (p : ℕ) (f : PtpPort → PtpPort) : Still s (State.setPtpPort s p f) := by
  simp [Still, State.setPtpPort]

@[simp] theorem modPtp_still (s : State) (f : Ptp → Ptp) : Still s (State.modPtp s f) := by
  simp [Still, State.modPtp]

@[simp] theorem keepSources_still (s : State) (ps : List ℕ) : Still s (State.keepSources s ps) := by
  simp [Still, foldl_still, foldl_slotsStill, foldl_fst_still, foldl_snd_still, ite_parts, ite_pair, State.keepSources]

@[simp] theorem select_still (s : State) : Still s (State.select s) := by
  simp [Still, State.select, ite_parts]

@[simp] theorem servo_still (s : State) (m : ℤ) (delta : ℤ) (rate : ℤ) : Still s (State.servo s m delta rate) := by
  simp [Still, State.servo, ite_parts]

@[simp] theorem freeByte_still (s : State) : Still s (State.freeByte s).2 := by
  simp [Still, State.freeByte]

@[simp] theorem ptpHeader_still (s : State) (p : ℕ) (k : PtpKind) (flag : Bool) (corr : BitVec 64) (seq : ℕ)
    (log : ℕ) : Still s (State.ptpHeader s p k flag corr seq log).2 := by
  simp [Still, State.ptpHeader]

@[simp] theorem announced_still (s : State) : Still s (State.announced s).2 := by
  unfold State.announced
  dsimp only
  split <;> simp [Still, ite_parts]

@[simp] theorem announceBody_still (s : State) : Still s (State.announceBody s).2 := by
  simp [Still, State.announceBody]

@[simp] theorem sendPtp_still (s : State) (p : ℕ) (k : PtpKind) (seq : BitVec 16) (asker : BitVec 80)
    (corr : BitVec 64) : Still s (State.sendPtp s p k seq asker corr) := by
  unfold State.sendPtp
  dsimp only
  repeat' split
  all_goals simp [Still, ite_parts]

@[simp] theorem leavePtp_still (s : State) (p : ℕ) (c : Cell) : Still s (State.leavePtp s p c).2 := by
  simp [Still, foldl_still, foldl_slotsStill, foldl_fst_still, foldl_snd_still, ite_parts, ite_pair, State.leavePtp]

@[simp] theorem measure_still (s : State) (p : ℕ) (t1 : ℕ) (t2 : ℕ) (corr : ℤ) (m : PtpMsg) :
    Still s (State.measure s p t1 t2 corr m) := by
  unfold State.measure
  split <;> simp [Still, ite_parts]

@[simp] theorem setDelay_still (s : State) (p : ℕ) (t1 : ℕ) (t4 : ℕ) (held : ℤ) :
    Still s (State.setDelay s p t1 t4 held) := by
  simp [Still, State.setDelay]

@[simp] theorem ptpDue_still (s : State) (p : ℕ) (a : PtpKind) : Still s (State.ptpDue s p a) := by
  unfold State.ptpDue
  split <;> simp [Still]

@[simp] theorem adoptPlan_slotsStill (s : State) (p : Plan) : SlotsStill s (State.adoptPlan s p) := by
  simp [SlotsStill, foldl_still, foldl_slotsStill, foldl_fst_still, foldl_snd_still, ite_parts, ite_slots, ite_pair, State.adoptPlan]

@[simp] theorem disablePort_still (s : State) (p : ℕ) : Still s (State.disablePort s p) := by
  simp [Still, State.disablePort]

@[simp] theorem applyItem_still (s : State) (a : TrigItem) : Still s (State.applyItem s a) := by
  unfold State.applyItem
  split <;> simp [Still]

@[simp] theorem entryBytes_still (s : State) (i : ℕ) : Still s (State.entryBytes s i).2 := by
  unfold State.entryBytes
  split <;> simp [Still]

@[simp] theorem queryLines_still (s : State) (x : ℕ) (c : Ctx) (ms : List ℕ) (met : List BlockErr) :
    Still s (State.queryLines s x c ms met) := by
  simp [Still, foldl_still, foldl_slotsStill, foldl_fst_still, foldl_snd_still, ite_parts, ite_slots, ite_pair, State.queryLines]

@[simp] theorem excludeIn_still (s : State) (x : ℕ) (ms : List ℕ) : Still s (State.excludeIn s x ms) := by
  unfold State.excludeIn
  split <;> simp [Still, ite_parts]

@[simp] theorem readMembers_still (s : State) (xs ms : List Nat) (met : List BlockErr) :
    Still s (s.readMembers xs ms met) := by
  unfold State.readMembers
  refine foldl_fst_still (fun t n y => ?_) s met xs
  dsimp only
  split <;> simp [Still]

@[simp] theorem excludeAll_still (s : State) (xs : List ℕ) (ms : List ℕ) :
    Still s (State.excludeAll s xs ms).2.2 := by
  simp [Still, foldl_still, foldl_slotsStill, foldl_fst_still, foldl_snd_still, ite_parts, ite_slots, ite_pair, State.excludeAll]

@[simp] theorem resized_still (s : State) (p : ℕ) : Still s (State.resized s p) := by
  simp [Still, State.resized, ite_parts]

@[simp] theorem pickFree_still (s : State) (n : ℕ) : Still s (State.pickFree s n).2 := by
  simp [Still, State.pickFree]

@[simp] theorem loseSpilled_still (s : State) (t : ℕ) (b : ℕ) : Still s (State.loseSpilled s t b) := by
  unfold State.loseSpilled
  dsimp only
  split <;> simp [Still, ite_parts]

@[simp] theorem loseObject_still (s : State) : Still s (State.loseObject s) := by
  unfold State.loseObject
  dsimp only
  split <;> simp [Still, ite_parts]

@[simp] theorem loseStaging_still (s : State) (a : ℕ) : Still s (State.loseStaging s a) := by
  simp [Still, foldl_still, foldl_slotsStill, foldl_fst_still, foldl_snd_still, ite_parts, ite_pair, State.loseStaging]

@[simp] theorem gapLog_still (s : State) (seqs : List ℕ) : Still s (State.gapLog s seqs) := by
  simp [Still, State.gapLog]

@[simp] theorem loseLog_still (s : State) (b : ℕ) : Still s (State.loseLog s b) := by
  unfold State.loseLog
  dsimp only
  split <;> simp [Still, ite_parts]

@[simp] theorem badBlock_still (s : State) (part : ℕ) (a : ℕ) : Still s (State.badBlock s part a) := by
  unfold State.badBlock
  dsimp only
  repeat' split
  all_goals simp [Still, ite_parts]

@[simp] theorem dirtyOn_still (s : State) (b : ℕ) : Still s (State.dirtyOn s b) := by
  simp [Still, foldl_still, foldl_slotsStill, foldl_fst_still, foldl_snd_still, ite_parts, ite_pair, State.dirtyOn]

@[simp] theorem fetchesDown_still (s : State) (b : Nat) : Still s (s.fetchesDown b) := by
  unfold State.fetchesDown
  refine foldl_still (fun t e => ?_) s _
  split <;> simp [Still, ite_parts]

@[simp] theorem bridgeDown_still (s : State) (b : Nat) : Still s (s.bridgeDown b) := by
  unfold State.bridgeDown
  extract_lets s1 s2 s3 xs s4 homes s5 applying s6 bwk s7 units s8 objs s9 s10 tables s11
  have h3 : Still s s3 := by simp [s1, s2, s3, Still, foldl_still]
  clear_value s3
  have h5 : Still s3 s5 := by simp [s4, s5, Still, foldl_still, ite_parts]
  clear_value s5
  have h6 : Still s5 s6 := by
    refine foldl_still (fun t x => ?_) s5 _
    split <;> simp [Still]
  clear_value s6
  have h9 : Still s6 s9 := by simp [s7, s8, s9, Still, ite_parts, foldl_still]
  clear_value s9
  have h11 : Still s9 s11 := by simp [s10, s11, tables, Still, ite_parts, foldl_still]
  clear_value s11
  simp [Still, h3, h5, h6, h9, h11]

@[simp] theorem finishCommit_slotsStill (s : State) (c : Commit) : SlotsStill s (State.finishCommit s c) := by
  simp [SlotsStill, State.finishCommit, ite_parts]

@[simp] theorem settleEngine_still (s : State) (e : ℕ) (at_ : ℕ) : Still s (State.settleEngine s e at_) := by
  simp [Still, foldl_still, foldl_slotsStill, foldl_fst_still, foldl_snd_still, ite_parts, ite_pair, State.settleEngine]

@[simp] theorem moveRing_still (s : State) (e : ℕ) (r : ℕ) (g : RingSt → RingSt) :
    Still s (State.moveRing s e r g) := by
  simp [Still, State.moveRing, ite_parts]

@[simp] theorem restartWindow_still (s : State) (e : ℕ) (r : ℕ) : Still s (State.restartWindow s e r) := by
  simp [Still, State.restartWindow]

@[simp] theorem nextSeek_still (s : State) (e : ℕ) (bus : ℕ) : Still s (State.nextSeek s e bus) := by
  unfold State.nextSeek
  dsimp only
  split
  · simp [Still, ite_parts]
  · split <;> simp [Still, ite_parts]

@[simp] theorem judgeReady_still (s : State) (e : ℕ) : Still s (State.judgeReady s e) := by
  simp [Still, State.judgeReady, ite_parts]

@[simp] theorem seekOn_still (s : State) (e : ℕ) (buses : List ℕ) : Still s (State.seekOn s e buses) := by
  simp [Still, foldl_still, foldl_slotsStill, foldl_fst_still, foldl_snd_still, ite_parts, ite_pair, State.seekOn]

@[simp] theorem seekBus_still (s : State) (e : ℕ) (r : ℕ) : Still s (State.seekBus s e r) := by
  simp [Still, State.seekBus]

@[simp] theorem lockRing_still (s : State) (e : ℕ) (r : ℕ) (sweep : Bool) (code : ℕ) :
    Still s (State.lockRing s e r sweep code) := by
  simp [Still, State.lockRing]

@[simp] theorem pathEvent_still (s : State) (k : ℕ) (was : PathState) : Still s (State.pathEvent s k was) := by
  unfold State.pathEvent
  split <;> simp [Still, ite_parts]

@[simp] theorem movePath_still (s : State) (k : ℕ) (g : CswPath → CswPath) : Still s (State.movePath s k g) := by
  unfold State.movePath
  split <;> simp [Still]

@[simp] theorem loseRing_still (s : State) (e : ℕ) (r : ℕ) : Still s (State.loseRing s e r) := by
  simp [Still, State.loseRing, ite_parts]

@[simp] theorem wrongRing_still (s : State) (e : ℕ) (r : ℕ) (tone : ℕ) : Still s (State.wrongRing s e r tone) := by
  simp [Still, State.wrongRing]

@[simp] theorem judgeRing_still (s : State) (e : ℕ) (r : ℕ) (win : PilotWindow) (x : RingSt) :
    Still s (State.judgeRing s e r win x) := by
  unfold State.judgeRing
  split <;> simp [Still, ite_parts]

@[simp] theorem ringWindow_still (s : State) (e : ℕ) (r : ℕ) (win : PilotWindow) :
    Still s (State.ringWindow s e r win) := by
  simp [Still, State.ringWindow, ite_parts]

@[simp] theorem judgePath_still (s : State) (k : ℕ) (win : PilotWindow) (p : CswPath) :
    Still s (State.judgePath s k win p) := by
  unfold State.judgePath
  split <;> simp [Still, ite_parts]

@[simp] theorem pathWindow_still (s : State) (k : ℕ) (win : PilotWindow) : Still s (State.pathWindow s k win) := by
  unfold State.pathWindow
  split <;> simp [Still, ite_parts]

@[simp] theorem feed_still (s : State) (e : ℕ) (before : List ℤ) (after : List ℤ) :
    Still s (State.feed s e before after) := by
  unfold State.feed
  dsimp only
  repeat' split
  all_goals simp [Still, foldl_still, foldl_slotsStill, foldl_fst_still, foldl_snd_still, ite_parts, ite_pair]

@[simp] theorem feedforward_still (s : State) (e : ℕ) : Still s (State.feedforward s e) := by
  unfold State.feedforward
  dsimp only
  split <;> simp [Still, ite_parts]

@[simp] theorem verifyRouting_still (s : State) (e : ℕ) : Still s (State.verifyRouting s e) := by
  simp [Still, State.verifyRouting, ite_parts]

@[simp] theorem darken_still (s : State) (l : ℕ) : Still s (State.darken s l) := by
  simp [Still, foldl_still, foldl_slotsStill, foldl_fst_still, foldl_snd_still, ite_parts, ite_pair, State.darken]

@[simp] theorem dimInput_coreStill (s : State) (l : ℕ) : CoreStill s (State.dimInput s l) := by
  unfold State.dimInput
  dsimp only
  split <;> simp [CoreStill, ite_parts]

@[simp] theorem dimLane_coreStill (s : State) (l : ℕ) : CoreStill s (State.dimLane s l) := by
  simp [CoreStill, State.dimLane]

@[simp] theorem moveEye_still (s : State) (f : ℕ) (g : EyeSt → EyeSt) : Still s (State.moveEye s f g) := by
  simp [Still, foldl_still, foldl_slotsStill, foldl_fst_still, foldl_snd_still, ite_parts, ite_pair, State.moveEye]

@[simp] theorem pauseSweeps_still (s : State) (f : ℕ) : Still s (State.pauseSweeps s f) := by
  simp [Still, foldl_still, foldl_slotsStill, foldl_fst_still, foldl_snd_still, ite_parts, ite_pair, State.pauseSweeps]

@[simp] theorem resumeSweeps_still (s : State) (f : ℕ) : Still s (State.resumeSweeps s f) := by
  simp [Still, foldl_still, foldl_slotsStill, foldl_fst_still, foldl_snd_still, ite_parts, ite_pair, State.resumeSweeps]

@[simp] theorem settleLight_still (s : State) (f : ℕ) : Still s (State.settleLight s f) := by
  simp [Still, foldl_still, foldl_slotsStill, foldl_fst_still, foldl_snd_still, ite_parts, ite_pair, State.settleLight]

@[simp] theorem loseLight_coreStill (s : State) (f : Fibre) (backReflection : Bool) :
    CoreStill s (State.loseLight s f backReflection) := by
  unfold State.loseLight
  dsimp only
  repeat' split
  all_goals simp [CoreStill, foldl_coreStill, foldl_slotsStill, foldl_fst_still, foldl_snd_still, ite_parts, ite_pair]

@[simp] theorem holdEye_still (s : State) (f : ℕ) (why : HoldWhy) (on : Bool) :
    Still s (State.holdEye s f why on) := by
  simp [Still, State.holdEye, ite_parts]

@[simp] theorem takeDue_still (s : State) (fuel : Nat) : Still s (s.takeDue fuel) := by
  induction fuel generalizing s with
  | zero => simp [Still, State.takeDue]
  | succ n ih => simp [Still, State.takeDue, ih, ite_parts]

@[simp] theorem askUnit_still (s : State) : Still s s.askUnit.2 := by
  simp [Still, State.askUnit, ite_parts, ite_pair]

@[simp] theorem judgeWindow_still (s : State) (l uncorr corrected : Nat) :
    Still s (s.judgeWindow l uncorr corrected) := by
  unfold State.judgeWindow
  dsimp only
  split
  · simp [Still]
  · split
    · simp [Still, ite_parts]
    · split
      · simp [Still]
      · split
        · split
          all_goals
            next h =>
              obtain ⟨-, rfl⟩ := eq_pair h
              simp [Still]
        · simp [Still]

@[simp] theorem endWindow_still (s : State) (l : ℕ) (uncorr : ℕ) (corrected : ℕ) :
    Still s (State.endWindow s l uncorr corrected) := by
  simp [Still, State.endWindow]

@[simp] theorem endCircuits_slotsStill (s : State) (e : Nat) : SlotsStill s (s.endCircuits e) :=
  endRunning_slotsStill s _

theorem engineDown_setCsw_slotsStill (s : State) (c : Csw) (w : Swl) : SlotsStill s { s with csw := c, swl := w } := by
  simp [SlotsStill]

theorem engineDown_setOe_slotsStill {s u : State} (h : SlotsStill s u) (e : Nat) (g : EngineSt → EngineSt) :
    SlotsStill s ((u.setOe e g).endCircuits e) := by
  simp [SlotsStill, h]

@[simp] theorem engineDown_slotsStill (s : State) (e : Nat) : SlotsStill s (s.engineDown e) := by
  unfold State.engineDown
  generalize rangeFrom (16 * e) 16 = fs, List.range 256 = rs
  extract_lets s1 s2 gone csw0 csw swl0 swl s3 s4
  have h1 : Still s s1 := foldl_still (fun t f => by simp [Still]) s _
  clear_value s1
  have h2 : Still s1 s2 := foldl_still (fun t r => by simp [Still]) s1 _
  clear_value s2 csw swl
  have h3 : SlotsStill s2 s3 := engineDown_setCsw_slotsStill s2 csw swl
  clear_value s3
  have h4 : Still s3 s4 := foldl_still undivertLane_still s3 _
  clear_value s4
  exact engineDown_setOe_slotsStill (((h1.trans h2).slotsStill.trans h3).trans h4.slotsStill) e _

@[simp] theorem freeCalibration_still (s : State) (e : ℕ) : Still s (State.freeCalibration s e) := by
  simp [Still, foldl_still, foldl_slotsStill, foldl_fst_still, foldl_snd_still, ite_parts, ite_pair, State.freeCalibration]

@[simp] theorem engineUp_still (s : State) (e : ℕ) (laserA : Bool) (laserB : Bool) :
    Still s (State.engineUp s e laserA laserB) := by
  simp [Still, foldl_still, foldl_slotsStill, foldl_fst_still, foldl_snd_still, ite_parts, ite_pair, State.engineUp]

@[simp] theorem stopCalibration_still (s : State) (e : ℕ) (kind : ℕ) : Still s (State.stopCalibration s e kind) := by
  simp [Still, State.stopCalibration, ite_parts]

@[simp] theorem endCalibration_still (s : State) (e : ℕ) (kind : ℕ) (r : CalReport) :
    Still s (State.endCalibration s e kind r).2 := by
  simp [Still, State.endCalibration, ite_parts]

@[simp] theorem commit_still (s : State) (k : ℕ) (ts : ℕ) (n : ℕ) (ok : QCell → Bool) :
    Still s (State.commit s k ts n ok) := by
  simp [Still, State.commit]

@[simp] theorem fillLevel_still (s : State) (ks : List Nat) (ts n : Nat) : Still s (s.fillLevel ks ts n).1 := by
  induction n generalizing s with
  | zero => simp [Still, State.fillLevel]
  | succ n ih =>
    unfold State.fillLevel
    split <;> simp [Still, ih]

@[simp] theorem fillUni_still (s : State) (i : ℕ) (o : ℕ) (ts : ℕ) (promoted : Option ℕ) (room : ℕ → Bool) :
    Still s (State.fillUni s i o ts promoted room).1 := by
  unfold State.fillUni
  split <;> simp [Still, foldl_still, foldl_slotsStill, foldl_fst_still, foldl_snd_still, ite_parts, ite_pair]

@[simp] theorem setMatching_still (s : State) (m : Matching) : Still s (State.setMatching s m) := by
  simp [Still, State.setMatching]

@[simp] theorem takeHead_still (s : State) (k : ℕ) (o : ℕ) (ts : ℕ) : Still s (State.takeHead s k o ts) := by
  unfold State.takeHead
  split <;> simp [Still, ite_parts]

@[simp] theorem restart_still (s : State) (ks : List ℕ) : Still s (State.restart s ks) := by
  simp [Still, State.restart]

@[simp] theorem acceptGrant_still (s : State) (m : Matching) (r : Req) (first : Bool) :
    Still s (State.acceptGrant s m r first) := by
  simp [Still, foldl_still, foldl_slotsStill, foldl_fst_still, foldl_snd_still, ite_parts, ite_pair, State.acceptGrant]

@[simp] theorem acceptAll_still (s : State) (ts : ℕ) (first : Bool) (gs : List Req) :
    Still s (State.acceptAll s ts first gs) := by
  unfold State.acceptAll
  dsimp only
  repeat' split
  all_goals simp [Still, ite_parts]

@[simp] theorem round_still (s : State) (ts : ℕ) (first : Bool) : Still s (State.round s ts first) := by
  unfold State.round
  split <;> simp [Still, foldl_still, foldl_slotsStill, foldl_fst_still, foldl_snd_still, ite_parts, ite_pair]

@[simp] theorem split_still (s : State) (m : Matching) (i : ℕ) (c : ℕ) : Still s (State.split s m i c) := by
  unfold State.split
  dsimp only
  split <;> simp [Still, ite_parts]

@[simp] theorem countRun_still (s : State) (limit : ℕ) (k : ℕ) : Still s (State.countRun s limit k) := by
  simp [Still, State.countRun, ite_parts]

@[simp] theorem endRounds_still (s : State) (ts : ℕ) : Still s (State.endRounds s ts) := by
  unfold State.endRounds
  dsimp only
  split
  · simp [Still, foldl_still, foldl_slotsStill, foldl_fst_still, foldl_snd_still, ite_parts, ite_pair]
  · split <;> simp [Still, foldl_still, foldl_slotsStill, foldl_fst_still, foldl_snd_still, ite_parts, ite_pair]

@[simp] theorem leave_still (s : State) (k : ℕ) (ts : ℕ) : Still s (State.leave s k ts) := by
  simp [Still, foldl_still, foldl_slotsStill, foldl_fst_still, foldl_snd_still, ite_parts, ite_pair, State.leave]

@[simp] theorem transfer_still (s : State) (ts : ℕ) : Still s (State.transfer s ts) := by
  unfold State.transfer
  split <;> simp [Still, foldl_still, foldl_slotsStill, foldl_fst_still, foldl_snd_still, ite_parts, ite_pair]

@[simp] theorem writeOut_still (s : State) (d : ℕ) (q : QCell) (o : OutTarget) :
    Still s (State.writeOut s d q o) := by
  unfold State.writeOut
  split <;> simp [Still, ite_parts]

@[simp] theorem writeCell_still (s : State) (d : ℕ) (q : QCell) : Still s (State.writeCell s d q) := by
  simp [Still, foldl_still, foldl_slotsStill, foldl_fst_still, foldl_snd_still, ite_parts, ite_pair, State.writeCell]

@[simp] theorem writeLate_still (s : State) : Still s (State.writeLate s) := by
  simp [Still, foldl_still, foldl_slotsStill, foldl_fst_still, foldl_snd_still, ite_parts, ite_pair, State.writeLate]

@[simp] theorem writeMoved_still (s : State) (ts : ℕ) : Still s (State.writeMoved s ts) := by
  unfold State.writeMoved
  split <;> simp [Still, foldl_still, foldl_slotsStill, foldl_fst_still, foldl_snd_still, ite_parts, ite_pair]

@[simp] theorem uncommit_still (s : State) (k : ℕ) (p : ℕ → Bool) : Still s (State.uncommit s k p) := by
  simp [Still, State.uncommit]

@[simp] theorem detachQueue_still (s : State) (t : ℕ) (k : ℕ) : Still s (State.detachQueue s t k) := by
  simp [Still, State.detachQueue]

@[simp] theorem detach_still (s : State) (t : ℕ) : Still s (State.detach s t) := by
  simp [Still, foldl_still, foldl_slotsStill, foldl_fst_still, foldl_snd_still, ite_parts, ite_pair, State.detach]

@[simp] theorem attach_still (s : State) (t : ℕ) : Still s (State.attach s t) := by
  simp [Still, State.attach, ite_parts]

@[simp] theorem rejoin_still (s : State) (i : ℕ) (c : QCell) : Still s (State.rejoin s i c) := by
  simp [Still, State.rejoin]

@[simp] theorem resetXbar_still (s : State) : Still s (State.resetXbar s) := by
  simp [Still, foldl_still, foldl_slotsStill, foldl_fst_still, foldl_snd_still, ite_parts, ite_pair, State.resetXbar]

@[simp] theorem tileDown_still (s : State) (t : Nat) : Still s (s.tileDown t) := by
  have down (u : State) (f : Nat) : Still u ((u.portsOf f).foldl (init := u) fun s p =>
      if (s.port p).st = .disabled then s else s.dropPort p .down true) :=
    foldl_still (fun v p => by simp [Still, ite_parts]) u _
  have boot (u : State) (ps : List Nat) : Still u (ps.foldl (init := u) fun s p =>
      if (s.port p).st = .bootstrap then s.setPort p fun y => { y with st := .down } else s) :=
    foldl_still (fun v p => by simp [Still, ite_parts]) u ps
  simp [Still, State.tileDown, foldl_still, down, boot]

@[simp] theorem initSlice_still (s : State) (t : ℕ) : Still s (State.initSlice s t) := by
  simp [Still, State.initSlice, ite_parts]

@[simp] theorem clearTc_still (s : State) (t : ℕ) : Still s (State.clearTc s t) := by
  simp [Still, State.clearTc]

@[simp] theorem tileUp_still (s : State) (t : Nat) : Still s (s.tileUp t) := by
  unfold State.tileUp
  extract_lets s1 s2
  have h1 : Still s s1 :=
    Still.trans (Still.trans (initSlice_still s t) (clearTc_still _ t)) (setTile_still _ t _)
  clear_value s1
  have h2 : Still s1 s2 := by simp [s2, Still, ite_parts]
  clear_value s2
  exact Still.trans (Still.trans h1 h2) (foldl_still settleFibre_still s2 _)

@[simp] theorem dropPlan_slotsStill (s : State) : SlotsStill s (State.dropPlan s) := by
  unfold State.dropPlan
  split <;> simp [SlotsStill, foldl_still, foldl_slotsStill, foldl_fst_still, foldl_snd_still, ite_parts, ite_pair]

@[simp] theorem cmdDown_slotsStill (s : State) (n : ℕ) : SlotsStill s (State.cmdDown s n) := by
  simp [SlotsStill, foldl_still, foldl_slotsStill, foldl_fst_still, foldl_snd_still, ite_parts, ite_slots, ite_pair, State.cmdDown]

@[simp] theorem bwkDown_still (s : State) : Still s (State.bwkDown s) := by
  simp [Still, foldl_still, foldl_slotsStill, foldl_fst_still, foldl_snd_still, ite_parts, ite_slots, ite_pair, State.bwkDown]

@[simp] theorem bwkUp_still (s : State) : Still s s.bwkUp := by
  have hurt (t : State) (g : Nat × Coding) : Still t ((List.range g.2.z).foldl (fun s u => s.damage g.1 u) t) :=
    foldl_still (fun v u => by simp [Still]) t _
  simp [Still, State.bwkUp, foldl_still, hurt]

@[simp] theorem freshRecord_still (s : State) : Still s (State.freshRecord s).2 := by
  simp [Still, State.freshRecord]

@[simp] theorem retrainLink_still (s : State) (l : ℕ) (full : Bool) : Still s (State.retrainLink s l full) := by
  simp [Still, foldl_still, foldl_slotsStill, foldl_fst_still, foldl_snd_still, ite_parts, ite_pair, State.retrainLink]

@[simp] theorem resetRegs_still (s : State) (fid : ℕ) : Still s (State.resetRegs s fid) := by
  simp [Still, State.resetRegs]

@[simp] theorem startBoot_still (s : State) (cause : ℕ) : Still s (State.startBoot s cause) := by
  simp [Still, State.startBoot]

@[simp] theorem serveFibres_still (s : State) (l : ℕ) : Still s (State.serveFibres s l) := by
  simp [Still, foldl_still, foldl_slotsStill, foldl_fst_still, foldl_snd_still, ite_parts, ite_pair, State.serveFibres]

@[simp] theorem raiseLink_still (s : State) (l : ℕ) (mask : ℕ) : Still s (State.raiseLink s l mask) := by
  simp [Still, State.raiseLink]

@[simp] theorem tryBoot_still (s : State) (cause : ℕ) : Still s (State.tryBoot s cause) := by
  simp [Still, State.tryBoot, ite_parts]

@[simp] theorem softRepair_coreStill (s : State) (r : Repair) : CoreStill s (State.softRepair s r) := by
  simp [CoreStill, State.softRepair]

@[simp] theorem takeRepair_coreStill (s : State) (r : Repair) : CoreStill s (State.takeRepair s r) := by
  simp [CoreStill, State.takeRepair, ite_parts]

@[simp] theorem settleRecord_coreStill (s : State) (auto : Bool) (r : TestRecord) :
    CoreStill s (State.settleRecord s auto r).2 := by
  unfold State.settleRecord
  dsimp only
  repeat' split
  all_goals simp [CoreStill, ite_parts]

@[simp] theorem settleRecords_coreStill (s : State) (auto : Bool) (rs : List TestRecord) :
    CoreStill s (s.settleRecords auto rs).2 := by
  induction rs generalizing s with
  | nil => simp [CoreStill, State.settleRecords]
  | cons r rs ih => simpa [CoreStill, State.settleRecords] using ih (s.settleRecord auto r).2

@[simp] theorem bootTo_still (s : State) (n : ℕ) : Still s (State.bootTo s n) := by
  simp [Still, State.bootTo]

@[simp] theorem bootRecords_coreStill (s : State) (kinds : List ℕ) (rs : List TestRecord) :
    CoreStill s (State.bootRecords s kinds rs) := by
  simp [CoreStill, State.bootRecords]

@[simp] theorem bootBuffers_still (s : State) : Still s (State.bootBuffers s) := by
  simp [Still, foldl_still, foldl_slotsStill, foldl_fst_still, foldl_snd_still, ite_parts, ite_pair, State.bootBuffers]

@[simp] theorem bootRing_still (s : State) (e : ℕ) (r : ℕ) (found : Option (BitVec 12 × BitVec 3)) :
    Still s (State.bootRing s e r found) := by
  unfold State.bootRing
  split <;> simp [Still, ite_parts]

@[simp] theorem bootLight_still (s : State) (f : ℕ) : Still s (State.bootLight s f) := by
  simp [Still, State.bootLight, ite_parts]

@[simp] theorem bootRings_still (s : State) (rep : BootReport) : Still s (State.bootRings s rep) := by
  simp [Still, foldl_still, foldl_slotsStill, foldl_fst_still, foldl_snd_still, ite_parts, ite_pair, State.bootRings]

@[simp] theorem bootDone_still (s : State) (ms : ℕ) : Still s (State.bootDone s ms) := by
  unfold State.bootDone
  split <;> simp [Still]

@[simp] theorem testRes_still (s : State) (id : ℕ) : Still s (State.testRes s id).2 := by
  unfold State.testRes
  split
  · simp [Still, ite_parts]
  · split <;> simp [Still, ite_parts]

@[simp] theorem relearn_still (s : State) (k : ℕ) (src : ℕ) (captured : List (Fin 2304 × BitVec 12)) :
    Still s (State.relearn s k src captured) := by
  simp [Still, State.relearn]

@[simp] theorem engage_still (s : State) (k : ℕ) (src : ℕ) (captured : List (Fin 2304 × BitVec 12)) :
    Still s (State.engage s k src captured) := by
  simp [Still, State.engage]

@[simp] theorem endPath_still (s : State) (captured : List (Fin 2304 × BitVec 12)) (k : ℕ) :
    Still s (State.endPath s captured k) := by
  unfold State.endPath
  split
  · simp [Still, ite_parts]
  · split <;> simp [Still, ite_parts]

@[simp] theorem firmwareFault_still (s : State) (j : Job) : Still s (State.firmwareFault s j) := by
  unfold State.firmwareFault
  split <;> simp [Still]

@[simp] theorem clearOrd_still (s : State) (p : ℕ) : Still s (State.clearOrd s p) := by
  simp [Still, State.clearOrd, ite_parts]

@[simp] theorem startOrd_still (s : State) (q : QCell) : Still s (State.startOrd s q).2 := by
  simp [Still, foldl_still, foldl_slotsStill, foldl_fst_still, foldl_snd_still, ite_parts, ite_pair, State.startOrd]

@[simp] theorem dequeue_still (s : State) (p : ℕ) (c : ℕ) (q : QCell) : Still s (State.dequeue s p c q) := by
  simp [Still, State.dequeue]

@[simp] theorem countSent_still (s : State) (p : ℕ) (c : ℕ) : Still s (State.countSent s p c) := by
  simp [Still, State.countSent]

@[simp] theorem frameSent_still (s : State) (p : ℕ) (n : ℕ) (bs : List Byte) (last : Bool) :
    Still s (State.frameSent s p n bs last) := by
  simp [Still, State.frameSent, ite_parts]

@[simp] theorem serve_still (s : State) (p : ℕ) (c : ℕ) (q : QCell) : Still s (State.serve s p c q) := by
  simp [Still, State.serve]

@[simp] theorem sendOrd_still (s : State) (p : ℕ) (q : QCell) : Still s (State.sendOrd s p q).2 := by
  simp [Still, foldl_still, foldl_slotsStill, foldl_fst_still, foldl_snd_still, ite_parts, ite_pair, State.sendOrd]

@[simp] theorem nextCell_still (s : State) (p : Nat) (ctrlUsed : Bool) (fuel : Nat) :
    Still s (s.nextCell p ctrlUsed fuel).2 := by
  induction fuel generalizing s with
  | zero => exact ⟨rfl, rfl, rfl, rfl, rfl, rfl, rfl⟩
  | succ n ih =>
    rw [State.nextCell.eq_def]
    dsimp only
    split
    · next h => simp [Still, ← (eq_pair h).2]
    · next c u h =>
      have hu : Still s u := by simp [Still, ← (eq_pair h).2]
      split
      · simp [Still, hu]
      · split <;> simp [Still, ih, ite_parts, ite_pair, hu]

@[simp] theorem launchCell_still (s : State) (p : ℕ) : Still s (State.launchCell s p).2 := by
  unfold State.launchCell
  dsimp only
  repeat' split
  all_goals simp [Still, ite_parts]

@[simp] theorem putFlit_still (s : State) (l : ℕ) (f : Flit) : Still s (State.putFlit s l f) := by
  simp [Still, State.putFlit]

@[simp] theorem sendUnsequenced_still (s : State) (l : ℕ) (p : ℕ) : Still s (State.sendUnsequenced s l p) := by
  simp [Still, State.sendUnsequenced]

@[simp] theorem sendAgain_still (s : State) (l : ℕ) (p : ℕ) (seq : ℕ) (f : Flit) :
    Still s (State.sendAgain s l p seq f) := by
  simp [Still, State.sendAgain]

theorem sendNew_fillingSlot_still (f : Filling) (p : Nat) : Still f.st (f.slot p).st := by
  unfold Filling.slot
  split
  next h =>
    obtain ⟨-, rfl⟩ := eq_pair h
    simp [Still]
  next h =>
    obtain ⟨-, rfl⟩ := eq_pair h
    simp [Still]

theorem sendNew_filling_still (f : Filling) (p : Nat) (xs : List Nat) :
    Still f.st (xs.foldl (fun f _ => f.slot p) f).st := by
  induction xs generalizing f with
  | nil => exact ⟨rfl, rfl, rfl, rfl, rfl, rfl, rfl⟩
  | cons x xs ih => exact Still.trans (sendNew_fillingSlot_still f p) (ih (f.slot p))

@[simp] theorem sendNew_still (s : State) (l p : Nat) : Still s (s.sendNew l p) := by
  unfold State.sendNew
  generalize List.range 15 = xs
  extract_lets f u
  have hu : Still s u := sendNew_filling_still ⟨s, [], false⟩ p xs
  clear_value u
  simp [Still, hu]

@[simp] theorem noteCtrl_still (s : State) (p : ℕ) (c : ℕ) : Still s (State.noteCtrl s p c) := by
  unfold State.noteCtrl
  split <;> simp [Still]

@[simp] theorem occupy_still (s : State) (p : ℕ) (bytes : ℕ) : Still s (State.occupy s p bytes) := by
  simp [Still, State.occupy]

@[simp] theorem serveAll_still (s : State) (p : ℕ) (c : ℕ) (qs : List QCell) : Still s (State.serveAll s p c qs) := by
  simp [Still, foldl_still, foldl_slotsStill, foldl_fst_still, foldl_snd_still, ite_parts, ite_pair, State.serveAll]

@[simp] theorem sendFrame_still (s : State) (p : ℕ) (n : ℕ) (qs : List QCell) :
    Still s (State.sendFrame s p n qs) := by
  unfold State.sendFrame
  dsimp only
  split <;> simp [Still, ite_parts]

@[simp] theorem sendTrain_still (s : State) (p : ℕ) (c : ℕ) (qs : List QCell) :
    Still s (State.sendTrain s p c qs) := by
  simp [Still, State.sendTrain]

@[simp] theorem sendPtpFrame_still (s : State) (p : ℕ) (q : QCell) : Still s (State.sendPtpFrame s p q) := by
  simp [Still, State.sendPtpFrame]

@[simp] theorem dropAged_still (s : State) (p : ℕ) (c : ℕ) (qs : List QCell) : Still s (State.dropAged s p c qs) := by
  simp [Still, foldl_still, foldl_slotsStill, foldl_fst_still, foldl_snd_still, ite_parts, ite_pair, State.dropAged]

@[simp] theorem idle_still (s : State) (p : ℕ) (c : ℕ) : Still s (State.idle s p c) := by
  simp [Still, State.idle]

@[simp] theorem eStart_still (s : State) (p fuel : Nat) : Still s (s.eStart p fuel) := by
  induction fuel generalizing s with
  | zero => exact ⟨rfl, rfl, rfl, rfl, rfl, rfl, rfl⟩
  | succ n ih =>
    rw [State.eStart.eq_def]
    dsimp only
    split
    · next h => simp [Still, ← (eq_pair h).2]
    · next c u h =>
      have hu : Still s u := by simp [Still, ← (eq_pair h).2]
      split
      · split <;> simp [Still, ih, ite_parts, hu]
      · split
        · simp [Still, ih]
        · split <;> simp [Still, ite_parts, hu]

@[simp] theorem eServe_still (s : State) (p : ℕ) : Still s (State.eServe s p) := by
  simp [Still, State.eServe, ite_parts]

@[simp] theorem launchNow_still (s : State) (l : Launch) : Still s (State.launchNow s l) := by
  simp [Still, foldl_still, foldl_slotsStill, foldl_fst_still, foldl_snd_still, ite_parts, ite_pair, State.launchNow]

@[simp] theorem setDie_still (s : State) (d : ℕ) (g : DieSt → DieSt) : Still s (State.setDie s d g) := by
  simp [Still, State.setDie]

@[simp] theorem judgeReply_still (s : State) (d : ℕ) : Still s (State.judgeReply s d) := by
  simp [Still, State.judgeReply, ite_parts]

@[simp] theorem propose_still (s : State) (steps : List (Engine × StepForecast)) (d : ℕ) (budget : ℕ) :
    Still s (State.propose s steps d budget) := by
  simp [Still, State.propose]

@[simp] theorem ratioDown_still (s : State) (t : ℕ) : Still s (State.ratioDown s t) := by
  simp [Still, State.ratioDown, ite_parts]

@[simp] theorem setDiverts_still (s : State) (ls : List ℕ) (g : ℕ → Divert) : Still s (State.setDiverts s ls g) := by
  simp [Still, State.setDiverts]

@[simp] theorem levelOf_still (s : State) (bursts : List SwellBurst) (e : ℕ) (w : ℕ) (q : ℕ) (c : ℕ) :
    Still s (State.levelOf s bursts e w q c).2.2 := by
  unfold State.levelOf
  split <;> simp [Still, foldl_still, foldl_slotsStill, foldl_fst_still, foldl_snd_still, ite_parts, ite_pair]

@[simp] theorem elementOf_still (s : State) (bursts : List SwellBurst) (insts : List (ℕ × SwlInst)) (w : ℕ) (q : ℕ) :
    Still s (State.elementOf s bursts insts w q).2 := by
  simp [Still, foldl_still, foldl_slotsStill, foldl_fst_still, foldl_snd_still, ite_parts, ite_pair, State.elementOf]

@[simp] theorem chunkOf_still (s : State) (bursts : List SwellBurst) (insts : List (ℕ × SwlInst)) (mask : ℕ) (i : ℕ) :
    Still s (State.chunkOf s bursts insts mask i).2 := by
  simp [Still, foldl_still, foldl_slotsStill, foldl_fst_still, foldl_snd_still, ite_parts, ite_pair, State.chunkOf]

@[simp] theorem sendSum_still (s : State) (x : ℕ) (c : Ctx) (members : List ℕ) (last : Bool) (n : ℕ)
    (es : List (ℤ × ℕ × ℕ)) (bad : Bool) : Still s (State.sendSum s x c members last n es bad) := by
  simp [Still, foldl_still, foldl_slotsStill, foldl_fst_still, foldl_snd_still, ite_parts, ite_pair, State.sendSum]

@[simp] theorem sendDeskew_still (s : State) (x : ℕ) (c : Ctx) (m : ℕ) (ordinal : ℕ) (start : ℕ) (mask : ℕ) :
    Still s (State.sendDeskew s x c m ordinal start mask) := by
  unfold State.sendDeskew
  split <;> simp [Still]

@[simp] theorem notMeasured_still (s : State) (l : ℕ) (absent : Bool) : Still s (State.notMeasured s l absent) := by
  simp [Still, State.notMeasured]

@[simp] theorem noteInputs_still (s : State) (inputs : List SwellInput) (insts : List (Nat × SwlInst)) :
    Still s (s.noteInputs inputs insts) := by
  unfold State.noteInputs
  refine foldl_still (fun t y => ?_) s _
  dsimp only
  split <;> simp [Still, ite_parts]

@[simp] theorem yieldClaim_still (s : State) (x : ℕ) (bursts : List SwellBurst) (insts : List (ℕ × SwlInst))
    (bad : Bool) (k : Claim) (ordinal : ℕ) : Still s (State.yieldClaim s x bursts insts bad k ordinal) := by
  unfold State.yieldClaim
  split <;> simp [Still, foldl_still, foldl_slotsStill, foldl_fst_still, foldl_snd_still, ite_parts, ite_slots, ite_pair]

@[simp] theorem finishCal_still (s : State) (e : ℕ) : Still s (State.finishCal s e) := by
  simp [Still, State.finishCal]

@[simp] theorem judgeCals_slotsStill (s : State) : SlotsStill s (State.judgeCals s) := by
  simp [SlotsStill, foldl_still, foldl_slotsStill, foldl_fst_still, foldl_snd_still, ite_parts, ite_pair, State.judgeCals]

@[simp] theorem accrue_slotsStill (s : State) (i : ℕ × SwlInst) : SlotsStill s (State.accrue s i) := by
  unfold State.accrue
  dsimp only
  split
  · simp [SlotsStill, ite_parts]
  · split <;> simp [SlotsStill, ite_parts]

@[simp] theorem toStage_still (s : State) (stage : ℕ) (shift : ℕ) : Still s (State.toStage s stage shift) := by
  simp [Still, State.toStage]

@[simp] theorem judgeStage_still (s : State) (offered : ℕ) (output : ℕ) (calm : ℕ) :
    Still s (State.judgeStage s offered output calm) := by
  unfold State.judgeStage
  split <;> simp [Still, ite_parts]

@[simp] theorem writeNext_still (s : State) (m : Merged) (flags : ℕ) : Still s (State.writeNext s m flags) := by
  simp [Still, State.writeNext]

@[simp] theorem sendRecords_still (s : State) (c : Collector) (e : LogEvent) : Still s (State.sendRecords s c e) := by
  simp [Still, State.sendRecords]

@[simp] theorem csClear_still (s : State) (set : ℕ) (index : ℕ) : Still s (State.csClear s set index) := by
  simp [Still, State.csClear]

@[simp] theorem latchOn_still (s : State) (r : Reg) (ix : List ℕ) : Still s (State.latchOn s r ix) := by
  unfold State.latchOn
  split <;> simp [Still]

@[simp] theorem clearCounter_still (s : State) (r : Reg) (ix : List ℕ) (sameCycle : ℕ) :
    Still s (State.clearCounter s r ix sameCycle) := by
  simp [Still, State.clearCounter, ite_parts]

@[simp] theorem readReg_still (s : State) (r : Reg) (ix : List ℕ) (sameCycle : ℕ) :
    Still s (State.readReg s r ix sameCycle).2 := by
  simp [Still, State.readReg]

@[simp] theorem fillStream_still (s : State) (x : ℕ) : Still s (State.fillStream s x) := by
  simp [Still, State.fillStream]

@[simp] theorem spolOp_still (s : State) (op : ℕ) : Still s (State.spolOp s op).2 := by
  unfold State.spolOp
  dsimp only
  repeat' split
  all_goals simp [Still, ite_parts]

@[simp] theorem spolCmd_still (s : State) (op : ℕ) : Still s (State.spolCmd s op) := by
  simp [Still, State.spolCmd, ite_parts]

@[simp] theorem newQuar_still (s : State) (old : Word) : Still s (State.newQuar s old) := by
  simp [Still, State.newQuar, ite_parts]

@[simp] theorem closeIdle_slotsStill (s : State) : SlotsStill s s.closeIdle := by
  unfold State.closeIdle
  generalize List.range 8 = xs
  refine foldl_slotsStill (fun t i => ?_) s xs
  split <;> simp [SlotsStill]

@[simp] theorem readAll_still (s : State) (as : List Addr) : Still s (s.readAll as).2 := by
  induction as generalizing s with
  | nil => simp [Still, State.readAll]
  | cons a as ih =>
    unfold State.readAll
    split <;> simp [Still, ih]

end Sys2Proof.Machine
end

