-- ==== Sys2Proof/Proofs/Keeps.lean ====
section
/-! PROOFS. What every step keeps, and that the shared shapes of a command keep it. -/

namespace Sys2Proof.Machine

/-! ## What every step keeps -/

/-- The queue stays, eight slots stay eight, one ACTIVE bank stays one, and table entries stay in canonical form. -/
structure Keeps (s t : State) : Prop where
  pending : t.pending = s.pending
  slots : s.mgmt.slots.length = 8 → t.mgmt.slots.length = 8
  active : s.oneActive → t.oneActive
  entries : s.tables.entries.wf = true → t.tables.entries.wf = true

theorem Keeps.refl (s : State) : Keeps s s := ⟨rfl, id, id, id⟩

theorem Keeps.trans {s t u : State} (h : Keeps s t) (h' : Keeps t u) : Keeps s u :=
  ⟨h'.pending.trans h.pending, h'.slots ∘ h.slots, h'.active ∘ h.active, h'.entries ∘ h.entries⟩

theorem SlotsStill.keeps {s t : State} (h : SlotsStill s t) : Keeps s t := by
  obtain ⟨hp, -, hg, he, hs, -⟩ := h
  exact ⟨hp, fun h => hs.trans h, fun h => by simpa only [State.oneActive, hg] using h, fun h => by rwa [he]⟩

theorem CoreStill.keeps {s t : State} (h : CoreStill s t) : Keeps s t := by
  obtain ⟨hp, -, hg, he, hm⟩ := h
  exact ⟨hp, fun h => by rw [hm, h], fun h => by simpa only [State.oneActive, hg] using h, fun h => by rwa [he]⟩

theorem Still.keeps {s t : State} (h : Still s t) : Keeps s t := SlotsStill.keeps (Still.slotsStill h)

theorem keeps_foldl {α : Type} {f : State → α → State} (h : ∀ t x, Keeps t (f t x)) (s : State) (xs : List α) :
    Keeps s (xs.foldl f s) := by
  induction xs generalizing s with
  | nil => exact .refl s
  | cons x xs ih => exact (h s x).trans (ih (f s x))

theorem keeps_ite {c : Prop} [Decidable c] {s a b : State} (ha : Keeps s a) (hb : Keeps s b) :
    Keeps s (if c then a else b) := by
  split
  · exact ha
  · exact hb

/-! ## The whole reset -/

theorem wholeReset_keeps (s : State) (pins : Pins) (cause : Nat) : Keeps s (s.wholeReset pins cause) :=
  ⟨rfl, fun _ => rfl, fun _ => by simp [State.oneActive, State.wholeReset, State.reset], fun _ => rfl⟩

/-- Entries that are filtered stay in canonical form. -/
theorem AMap.wfFrom_filter {α : Type} (m : AMap α) (p : Nat × α → Bool) (lo : Nat) (h : m.wfFrom lo = true) :
    AMap.wfFrom (m.filter p) lo = true := by
  induction m generalizing lo with
  | nil => rfl
  | cons e m ih =>
    obtain ⟨a, v⟩ := e
    simp only [AMap.wfFrom, Bool.and_eq_true, decide_eq_true_eq] at h
    have ih := ih (a + 1) h.2
    rw [List.filter_cons]
    split
    · simp [AMap.wfFrom, h.1, ih]
    · exact AMap.wfFrom_mono _ (by omega) ih

theorem AMap.wf_filter {α : Type} (m : AMap α) (p : Nat × α → Bool) (h : m.wf = true) : AMap.wf (m.filter p) = true :=
  AMap.wfFrom_filter m p 0 h

theorem AMap.wf_foldl {α β : Type} {f : AMap α → β → AMap α} (hf : ∀ m x, m.wf = true → (f m x).wf = true)
    (m : AMap α)
    (xs : List β) (h : m.wf = true) : (xs.foldl f m).wf = true := by
  induction xs generalizing m with
  | nil => exact h
  | cons x xs ih => exact ih (f m x) (hf m x h)

/-- A change of the tables keeps what every step keeps when the entries stay in canonical form. -/
theorem tables_keeps (s : State) (k : Tables) (h : s.tables.entries.wf = true → k.entries.wf = true) :
    Keeps s { s with tables := k } := ⟨rfl, id, id, h⟩

theorem pipeDown_keeps (s : State) (q : Nat) : Keeps s (s.pipeDown q) :=
  tables_keeps s _ fun h => AMap.wf_filter _ _ h

theorem pipeUp_keeps (s : State) (q : Nat) : Keeps s (s.pipeUp q) :=
  tables_keeps s _ fun h => AMap.wf_foldl (fun m e hm => AMap.wf_put m e.1 e.2 hm) _ _ h

theorem putMac_keeps (s : State) (q i : Nat) (img : EntryImage) : Keeps s (s.putMac q i img) :=
  tables_keeps s _ fun h => AMap.wf_setD _ _ _ _ h

/-- Only the clock's state and the settings of PTP change. -/
theorem timeDown_still (s : State) : Still s s.timeDown := by
  simp [Still, State.timeDown]

theorem telDown_still (s : State) : Still s s.telDown := by
  simp [Still, State.telDown]

theorem fnDownEffects_keeps (s : State) (fid : Nat) : Keeps s (s.fnDownEffects fid) := by
  unfold State.fnDownEffects
  extract_lets i
  clear_value i
  split
  · exact Still.keeps (by simp [Still])
  · exact Still.keeps (by simp [Still])
  · exact (SlotsStill.keeps (endJobs_slotsStill s _ _)).trans (SlotsStill.keeps (engineDown_slotsStill _ i))
  · exact SlotsStill.keeps (by simp [SlotsStill])
  · exact pipeDown_keeps s i
  · exact SlotsStill.keeps (by simp [SlotsStill])
  · exact Still.keeps (timeDown_still s)
  · exact SlotsStill.keeps (by simp [SlotsStill])
  · exact SlotsStill.keeps (by simp [SlotsStill])
  · exact Still.keeps (telDown_still s)
  · exact .refl s

theorem holdFailed_keeps (s : State) (fid cause : Nat) : Keeps s (s.holdFailed fid cause) := by
  unfold State.holdFailed
  extract_lets a up b c d
  have ha : Keeps s a := keeps_ite (.refl s) (fnDownEffects_keeps s fid)
  clear_value a
  have hb : Still a b := by simp [Still, b]
  clear_value b
  have hc : Still b c := by simp [Still, c]
  clear_value c
  have hd : SlotsStill c d := by simp [SlotsStill, d]
  clear_value d
  refine ((ha.trans (Still.keeps hb)).trans (Still.keeps hc)).trans ((SlotsStill.keeps hd).trans (keeps_ite ?_ (.refl d)))
  exact keeps_foldl (fun u f => Still.keeps (by simp [Still])) d _

theorem failLink_keeps (s : State) (l : Nat) : Keeps s (s.failLink l) := by
  unfold State.failLink
  extract_lets a
  have ha : Still s a := by simp [Still, a]
  clear_value a
  exact (Still.keeps ha).trans (keeps_ite (.refl a) (holdFailed_keeps a _ _))

theorem failFn_keeps (s : State) (fid cause : Nat) : Keeps s (s.failFn fid cause) :=
  keeps_foldl (fun t f => keeps_ite (.refl t) (holdFailed_keeps t f cause)) s _

theorem failRecords_keeps (s : State) (rs : List TestRecord) : Keeps s (s.failRecords rs) :=
  keeps_foldl (fun t _ => failFn_keeps t _ _) s _

theorem setD2d_still (s : State) (d : D2d) : Still s { s with d2d := d } := by simp [Still]

theorem bootJoins_keeps (s : State) (rep : BootReport) : Keeps s (s.bootJoins rep) := by
  unfold State.bootJoins
  generalize List.range 20 = ls, List.range 4 = bs
  extract_lets a b c
  have ha : Keeps s a := by
    refine keeps_foldl (fun t l => ?_) s ls
    split
    · dsimp only
      refine keeps_ite (failLink_keeps t l) (Still.keeps ?_)
      simp [Still]
    · exact failLink_keeps t l
  clear_value a
  have hb : Keeps a b := by
    refine keeps_foldl (fun t x => ?_) a _
    dsimp only
    exact (Still.keeps (setD2d_still t _)).trans (keeps_ite (failFn_keeps _ _ _) (.refl _))
  clear_value b
  have hc : Keeps b c := by
    refine keeps_foldl (fun t x => ?_) b bs
    dsimp only
    have hu (n : Nat) : Keeps t (t.setBrg x fun y => { y with stacksUp := n }) := Still.keeps (by simp [Still])
    exact (hu _).trans (keeps_ite (.refl _) (failFn_keeps _ _ _))
  clear_value c
  exact ((ha.trans hb).trans hc).trans (failRecords_keeps c rep.records)

theorem bootTo_keeps (s : State) (n : Nat) : Keeps s (s.bootTo n) := Still.keeps (by simp [Still])

theorem setBoot_keeps (s : State) (b : Boot) : Keeps s { s with boot := b } := Still.keeps (by simp [Still])

theorem bootBist_keeps (s : State) (rep : BootReport) : Keeps s (s.bootBist rep) := by
  unfold State.bootBist
  refine keeps_ite (bootTo_keeps s 5) ?_
  have hs : Keeps s (s.settleRecords true rep.records).2 := CoreStill.keeps (by simp [CoreStill])
  generalize s.settleRecords true rep.records = p at hs ⊢
  obtain ⟨rs, u⟩ := p
  dsimp only at hs ⊢
  have hv : Keeps u ((u.failRecords rs).bootRecords [1, 2] rs) :=
    (failRecords_keeps u rs).trans (CoreStill.keeps (by simp [CoreStill]))
  refine (hs.trans hv).trans (keeps_ite (setBoot_keeps _ _) (bootTo_keeps _ 5))

theorem trip_keeps (s : State) : Keeps s s.trip := wholeReset_keeps s _ _

theorem sense_keeps (s : State) (d : Nat) (temp : BitVec 16) : Keeps s (s.sense d temp) := by
  unfold State.sense
  refine keeps_ite (trip_keeps s) ?_
  generalize List.range 64 = ts
  extract_lets hot rises u v
  have hu : Still s u := by simp [u, Still]
  clear_value u
  have hv : Still u v := foldl_still (fun t x => by simp [Still]) u ts
  clear_value v
  refine (Still.keeps hu).trans (keeps_ite ((Still.keeps hv).trans (keeps_ite (Still.keeps ?_) (.refl v))) ?_)
  · exact foldl_still (fun t x => by simp [Still]) v ts
  · split
    · generalize hp : u.drawFree = p
      have hd : Still u p.2 := by rw [← hp]; simp [Still]
      obtain ⟨a, w⟩ := p
      refine (Still.keeps hd).trans (Still.keeps ?_)
      simp [Still]
    · exact .refl u

theorem setPins_keeps (s : State) (p : Pins) : Keeps s { s with pins := p } := Still.keeps (by simp [Still])

theorem tryBoot_keeps (s : State) (cause : Nat) : Keeps s (s.tryBoot cause) := Still.keeps (by simp [Still])

theorem selectTap_keeps (s : State) (i : JtagInstr) : Keeps s (s.selectTap i) := by
  unfold State.selectTap
  extract_lets u
  have hu : Keeps s u := keeps_ite ((wholeReset_keeps s _ _).trans (tryBoot_keeps _ _)) (.refl s)
  exact hu.trans (setPins_keeps u _)

theorem setTrst_keeps (s : State) (low : Bool) : Keeps s (s.setTrst low) := by
  unfold State.setTrst
  extract_lets p u
  have hu : Keeps s u := setPins_keeps s _
  exact hu.trans (keeps_ite (selectTap_keeps u _) (.refl u))

theorem enterReset_keeps (s : State) (fid : Nat) (hold : Bool) : Keeps s (s.enterReset fid hold) := by
  unfold State.enterReset
  extract_lets a b c
  have ha : Still s a := by simp [a, Still]
  clear_value a
  have hb : Still a b := by simp [b, Still]
  clear_value b
  have hc : Keeps b c := fnDownEffects_keeps b fid
  clear_value c
  refine ((Still.keeps ha).trans (Still.keeps hb)).trans (hc.trans (keeps_ite ?_ (keeps_ite ?_ (.refl c))))
  · exact Still.keeps (by simp [Still])
  · exact Still.keeps (by simp [Still])

theorem enterDuring_keeps (s : State) (fid : Nat) : Keeps s (s.enterDuring fid) :=
  keeps_ite (enterReset_keeps s fid false) (.refl s)

theorem bootRom_keeps (s : State) (ok : Bool) : Keeps s (s.bootRom ok) := by
  have set (n : Nvm) (b : Boot) : Keeps s { s with nvm := n, boot := b } := ⟨rfl, id, id, id⟩
  unfold State.bootRom
  dsimp only
  split
  · exact set _ _
  · split
    · exact set _ _
    · split
      · exact set _ _
      · split
        · exact set _ _
        · exact set _ _

theorem setNvm_keeps (s : State) (n : Nvm) : Keeps s { s with nvm := n } := ⟨rfl, id, id, id⟩

theorem setImage_keeps (s : State) (slot : Bool) (x : Image) : Keeps s (s.setImage slot x) := setNvm_keeps s _

theorem fuseRepair_keeps (s : State) (r : Repair) : Keeps s (s.fuseRepair r) := setNvm_keeps s _

theorem commitFuses_keeps (s : State) : Keeps s s.commitFuses := setNvm_keeps s _

theorem bump_keeps (s : State) (r : Reg) (ix : List Nat) : Keeps s (s.bump r ix) := Still.keeps (by simp [Still])

theorem endFwUpdate_keeps (s : State) (slot : Bool) (x : Image) : Keeps s (s.endFwUpdate slot x).2 :=
  (setImage_keeps s slot x).trans (bump_keeps _ _ _)

theorem endFwActivate_keeps (s : State) (slot trial commit : Bool) :
    Keeps s (s.endFwActivate slot trial commit).2 := by
  have set (n : Nvm) (b : Boot) : Keeps s { s with nvm := n, boot := b } := ⟨rfl, id, id, id⟩
  unfold State.endFwActivate
  dsimp only
  split
  · exact .refl s
  · split
    · exact .refl s
    · dsimp only
      exact (set _ _).trans (keeps_ite (commitFuses_keeps _) (.refl _))

theorem firmwareEnd_keeps {s t : State} {j : Job} {r : CalReport} {f : Final} (h : s.firmwareEnd j r = some (f, t)) :
    Keeps s t := by
  cases j with
  | firmware =>
    cases h
    exact .refl s
  | fwUpdate slot x =>
    cases h
    exact endFwUpdate_keeps s slot x
  | fwActivate slot trial commit =>
    have := endFwActivate_keeps s slot trial commit
    rwa [Option.some.inj h] at this
  | oeCalibrate e kind =>
    simp only [State.firmwareEnd] at h
    split at h
    · have : Still s (s.endCalibration e kind r).2 := by simp [Still]
      rw [Option.some.inj h] at this
      exact Still.keeps this
    · cases h
  | reseek e rs =>
    simp only [State.firmwareEnd] at h
    split at h
    · cases h
      exact .refl s
    · cases h
  | funcReset fid hold =>
    simp only [State.firmwareEnd] at h
    split at h
    · cases h
      exact .refl s
    · cases h
  | _ => cases h

/-! ## Tables, registers and route banks -/

theorem putEntry_wf (m : AMap EntryImage) (q tb i : Nat) (img : EntryImage) (h : m.wf = true) :
    (putEntry m q tb i img).wf = true := by
  unfold putEntry writeImage
  refine AMap.wf_setD _ _ _ _ ?_
  split
  · refine AMap.wf_del _ _ ?_
    split
    · exact AMap.wf_filter _ _ h
    · exact h
  · split
    · exact AMap.wf_filter _ _ h
    · exact h

theorem moveIn_wf (m : AMap EntryImage) (q src dst n : Nat) (h : m.wf = true) : (moveIn m q src dst n).wf = true :=
  AMap.wf_foldl (fun _ _ hm => AMap.wf_put _ _ _ hm) _ _ (AMap.wf_filter _ _ h)

/-- Rewriting marks entries and changes none. -/
theorem fresh_entries (k : Tables) (c : Bool) (ks : List Nat) :
    (if c then k.fresh ks else k).entries = k.entries := by
  split <;> rfl

theorem tablesWrite_wf (k : Tables) (qm tb i : Nat) (sh : Bool) (img : EntryImage) (h : k.entries.wf = true) :
    (k.write qm tb i sh img).entries.wf = true := by
  refine AMap.wf_foldl (fun m q hm => putEntry_wf m q tb i img hm) _ _ ?_
  rwa [fresh_entries]

theorem tablesMove_wf (k : Tables) (qm src dst n : Nat) (sh : Bool) (h : k.entries.wf = true) :
    (k.move qm src dst n sh).entries.wf = true := by
  refine AMap.wf_foldl (fun m q hm => moveIn_wf m q src dst n hm) _ _ ?_
  rwa [fresh_entries]

theorem loadBank_keeps (s : State) (b : Nat) (images : List EntryImage) : Keeps s (s.loadBank b images) :=
  tables_keeps s _ fun h => AMap.wf_foldl (fun _ _ hm => AMap.wf_foldl (fun _ _ hm => AMap.wf_setD _ _ _ _ hm) _ _ hm) _ _ h

theorem act_cases (g : Gen) : g.act = 0 ∨ g.act = 1 := by
  unfold Gen.act
  split <;> simp

/-- A bank that keeps its state keeps one ACTIVE bank one. -/
theorem setBank_oneActive {s : State} {g : Nat} {b : Bank} (hb : b.st = (s.gen.bank g).st) (h : s.oneActive) :
    State.oneActive { s with gen := s.gen.setBank g b } := by
  unfold State.oneActive Gen.setBank Gen.bank at *
  split at hb <;> simp [*]

theorem setBank_keeps {s : State} {g : Nat} {b : Bank} (hb : b.st = (s.gen.bank g).st) :
    Keeps s { s with gen := s.gen.setBank g b } := ⟨rfl, id, setBank_oneActive hb, id⟩


theorem activate_keeps (s : State) : Keeps s s.activate := by
  unfold State.activate
  extract_lets a b x now src old s'
  split
  · exact .refl s
  · rename_i hx
    have hs : Keeps s s' := by
      refine ⟨rfl, id, fun h => ?_, id⟩
      have ha : a = s.gen.act := rfl
      simp only [x, b, ne_eq, Decidable.not_not] at hx
      unfold State.oneActive at h ⊢
      have act : s.gen.act = if s.gen.bank0.st = .active then 0 else 1 := rfl
      by_cases h0 : s.gen.bank0.st = .active
      · rw [if_pos h0] at act
        simp [s', old, x, a, b, act, Gen.setBank, Gen.bank]
      · rw [if_neg h0] at act
        simp [s', old, x, a, b, act, Gen.setBank, Gen.bank]
    exact hs.trans (bump_keeps _ _ _)

theorem learnEvent_keeps (s : State) (q kind i : Nat) (img : EntryImage) : Keeps s (s.learnEvent q kind i img) :=
  Still.keeps (by simp [Still])

theorem learn_keeps (s : State) (q p vid mac : Nat) : Keeps s (s.learn q p vid mac) := by
  unfold State.learn
  dsimp only
  refine keeps_ite (.refl s) ?_
  split
  · split
    · refine keeps_ite (putMac_keeps s _ _ _) ?_
      exact ((putMac_keeps s _ _ _).trans (bump_keeps _ _ _)).trans (learnEvent_keeps _ _ _ _ _)
    · exact keeps_ite (.refl s) (bump_keeps s _ _)
  · exact keeps_ite (bump_keeps s _ _) ((putMac_keeps s _ _ _).trans (learnEvent_keeps _ _ _ _ _))

theorem lookupFrame_keeps (s : State) (q p : Nat) (bs : List Byte) (c : Cell) :
    Keeps s (s.lookupFrame q p bs c).2 := by
  unfold State.lookupFrame
  dsimp only
  split
  · exact .refl s
  · refine Keeps.trans ?_ (learn_keeps _ _ _ _ _)
    split
    · split
      · exact Still.keeps (by simp [Still])
      · exact .refl s
    · exact .refl s

theorem setFrames_keeps (s : State) (f : Frames) : Keeps s { s with frames := f } := Still.keeps (by simp [Still])

theorem creditDrop_keeps (s : State) (q : QCell) : Keeps s ((s.credit q).dropCell q) := Still.keeps (by simp [Still])

theorem onward_keeps (s : State) (t : Nat) (q : QCell) : Keeps s (s.onward t q) := Still.keeps (by simp [Still])

theorem lookupOrd_keeps (s : State) (t : Nat) (q : QCell) (rest : List QCell) : Keeps s (s.lookupOrd t q rest) := by
  unfold State.lookupOrd
  extract_lets q' quad limit close more bs
  have hclose (u : State) : Keeps u (close u) := keeps_ite (setFrames_keeps u _) (.refl u)
  clear_value close limit bs
  refine keeps_ite ((creditDrop_keeps s q').trans (hclose _)) (keeps_ite ?_ ?_)
  · have hl := lookupFrame_keeps s quad q'.src.port bs q'.cell
    generalize s.lookupFrame quad q'.src.port bs q'.cell = r at hl ⊢
    split
    next o u =>
      dsimp only at hl ⊢
      refine (hl.trans (bump_keeps _ _ _)).trans ((creditDrop_keeps _ _).trans (keeps_ite (.refl _)
          (setFrames_keeps _ _)))
    next outs rw' cell u =>
      dsimp only at hl ⊢
      exact hl.trans ((setFrames_keeps _ _).trans (onward_keeps _ _ _))
  · split
    · exact keeps_ite ((creditDrop_keeps s q').trans (hclose _)) (onward_keeps _ _ _)
    · exact creditDrop_keeps s q'

theorem lookupFabric_keeps (s : State) (t : Nat) (q : QCell) : Keeps s (s.lookupFabric t q) := by
  unfold State.lookupFabric
  extract_lets quad g b
  refine keeps_ite ?_ ?_
  · refine Keeps.trans ?_ ((bump_keeps _ _ _).trans (creditDrop_keeps _ _))
    exact keeps_ite (setBank_keeps rfl) (.refl s)
  · have hr : Still s (s.routeCell quad g q.cell).2 := by simp [Still]
    generalize s.routeCell quad g q.cell = r at hr ⊢
    split
    next o u =>
      exact ((Still.keeps hr).trans (bump_keeps _ _ _)).trans (creditDrop_keeps _ _)
    next p u =>
      have hg : u.gen = s.gen := hr.2.2.1
      extract_lets limit v w
      have hv : Keeps u v := keeps_ite (setBank_keeps (by simp only [b, hg])) (.refl u)
      clear_value v
      exact (Still.keeps hr).trans (hv.trans ((keeps_ite (bump_keeps v _ _) (.refl v)).trans (onward_keeps w _ _)))

theorem fnUpEffects_keeps (s : State) (fid : Nat) : Keeps s (s.fnUpEffects fid) := by
  unfold State.fnUpEffects
  generalize List.range 64 = ts
  dsimp only
  split
  · exact Still.keeps (by simp [Still])
  · exact Still.keeps (by simp [Still])
  · exact pipeUp_keeps s _
  · exact Still.keeps (by simp [Still])
  · exact keeps_foldl (fun u t => keeps_ite (.refl u) (Still.keeps (by simp [Still]))) s ts
  · exact .refl s

theorem leaveReset_keeps (s : State) (fid : Nat) : Keeps s (s.leaveReset fid) := by
  refine Keeps.trans ?_ (fnUpEffects_keeps _ fid)
  exact Still.keeps (by simp [Still])

theorem setTables_keeps (s : State) (k : Tables) (h : k.entries = s.tables.entries) :
    Keeps s { s with tables := k } :=
  tables_keeps s k fun hw => h ▸ hw

theorem tblOp_keeps (s : State) (session : Nat) (v : Word) : Keeps s (s.tblOp session v).2 := by
  unfold State.tblOp
  generalize List.range 8 = ns
  extract_lets qm tb sh i img change
  have hchange (lo hi : Nat) (ok : Bool) (k : Tables) (hk : s.tables.entries.wf = true → k.entries.wf = true) :
      Keeps s (change lo hi ok k).2 := by
    simp only [change]
    split
    · exact .refl s
    · split
      · exact .refl s
      · split
        · exact .refl s
        · split
          · exact .refl s
          · exact tables_keeps s k hk
  clear_value change img i
  split
  · exact hchange _ _ _ _ (tablesWrite_wf _ _ _ _ _ _)
  · split
    · split
      · exact .refl s
      · split
        · exact .refl s
        · exact keeps_foldl (fun u n => Still.keeps (by simp [Still])) s ns
    · exact .refl s
  · exact hchange _ _ _ _ (tablesWrite_wf _ _ _ _ _ _)
  · exact hchange _ _ _ _ (tablesMove_wf _ _ _ _ _ _)
  · exact .refl s

theorem tblCmd_keeps (s : State) (session op : Nat) : Keeps s (s.tblCmd session op) := by
  unfold State.tblCmd
  refine keeps_ite (.refl s) ?_
  dsimp only
  exact (tblOp_keeps s session _).trans (setTables_keeps _ _ rfl)

theorem afterStore_keeps (s : State) (r : Reg) (ix : List Nat) (old v : Word) (session : Nat) :
    Keeps s (s.afterStore r ix old v session) := by
  unfold State.afterStore
  generalize List.range 64 = ts
  dsimp only
  split
  · exact tblCmd_keeps s _ _
  · exact Still.keeps (by simp [Still])
  · exact keeps_ite (Still.keeps (by simp [Still])) (.refl s)
  · exact keeps_foldl (fun u t => Still.keeps (by simp [Still])) s ts
  · exact keeps_ite (Still.keeps (by simp [Still])) (.refl s)
  · exact keeps_ite (Still.keeps (by simp [Still])) (.refl s)
  · exact keeps_ite (Still.keeps (by simp [Still])) (.refl s)
  · exact .refl s

theorem setReg_keeps (s : State) (r : Reg) (ix : List Nat) (w : Word) : Keeps s (s.setReg r ix w) :=
  Still.keeps (by simp [Still])

theorem writeReg_keeps (s : State) (r : Reg) (ix : List Nat) (v hw : Word) (session : Nat) :
    Keeps s (s.writeReg r ix v hw session) := by
  unfold State.writeReg
  refine keeps_ite (.refl s) ?_
  split
  · exact setReg_keeps s _ _ _
  · dsimp only
    refine Keeps.trans ?_ (afterStore_keeps _ _ _ _ _ _)
    exact keeps_ite (setReg_keeps s r ix _) (Still.keeps (by simp [Still]))

/-! ## Commands that the host issues -/

theorem runCmd_keeps {body : Body} {after : Nat → State → State} (hb : ∀ i s, Keeps s (body i s).2)
    (ha : ∀ i s, Keeps s (after i s)) (i : Nat) (e : CmdEntry) (s : State) : Keeps s (runCmd i e body after s) := by
  have h := hb i s
  unfold runCmd
  generalize body i s = r at h ⊢
  split
  next u =>
    extract_lets v
    have hv : Keeps u v := keeps_ite (Still.keeps (by simp [Still])) (.refl u)
    exact h.trans (hv.trans ((SlotsStill.keeps (finishCmd_slotsStill v i e 0 _)).trans (ha i _)))
  · exact h.trans (SlotsStill.keeps (by simp [SlotsStill]))
  · exact h.trans (SlotsStill.keeps (by simp [SlotsStill]))

theorem start_keeps {body : Body} {after : Nat → State → State} (hb : ∀ i s, Keeps s (body i s).2)
    (ha : ∀ i s, Keeps s (after i s)) (s : State) (w : Option (Nat × CmdEntry)) : Keeps s (s.start w body after) := by
  unfold State.start
  split
  · exact keeps_ite (runCmd_keeps hb ha _ _ s) (.refl s)
  · exact .refl s

theorem hostCmdThen_keeps {body : Body} {after : Nat → State → State} (hb : ∀ i s, Keeps s (body i s).2)
    (ha : ∀ i s, Keeps s (after i s)) (c : Instr) (s : State) : Keeps s (hostCmdThen c body after s) := by
  unfold hostCmdThen
  split
  · exact .refl s
  · refine keeps_ite (.refl s) (keeps_ite (start_keeps hb ha s _) ?_)
    exact (SlotsStill.keeps (by simp [SlotsStill])).trans (start_keeps hb ha _ _)

theorem hostCmd_keeps {body : Body} (hb : ∀ i s, Keeps s (body i s).2) (c : Instr) (s : State) :
    Keeps s (hostCmd c body s) := hostCmdThen_keeps hb (fun _ s => .refl s) c s

theorem zeroCmd_keeps {body : ZeroReq → State → Ans × State} (hb : ∀ z s, Keeps s (body z s).2) (c : Instr)
    (s : State) :
    Keeps s (zeroCmd c body s) := by
  unfold zeroCmd
  split
  · exact .refl s
  · refine keeps_ite (.refl s) ?_
    extract_lets u
    have hu : Keeps s u := keeps_ite (.refl s) (SlotsStill.keeps (by simp [SlotsStill]))
    clear_value u
    refine hu.trans ?_
    split
    · exact .refl u
    next z rest _ =>
      have hz : Keeps u { u with mgmt := { u.mgmt with zeroCmds := rest } } := SlotsStill.keeps (by simp [SlotsStill])
      have h := hz.trans (hb z { u with mgmt := { u.mgmt with zeroCmds := rest } })
      generalize body z { u with mgmt := { u.mgmt with zeroCmds := rest } } = r at h ⊢
      split
      · exact h.trans (SlotsStill.keeps (by simp [SlotsStill]))
      · exact h

theorem arrivalCmd_keeps {body : Body} (hb : ∀ i s, Keeps s (body i s).2) (c : Instr) (s : State) :
    Keeps s (arrivalCmd c body s) := by
  unfold arrivalCmd
  split
  · exact .refl s
  · refine keeps_ite (.refl s) ?_
    extract_lets u
    have hu : Keeps s u := keeps_ite (.refl s) (SlotsStill.keeps (by simp [SlotsStill]))
    clear_value u
    refine hu.trans ?_
    split
    · exact .refl u
    next i e rest _ =>
      have hz : Keeps u (u.setSlot i fun y => { y with arrivals := rest }) := SlotsStill.keeps (by simp [SlotsStill])
      have h := hz.trans (hb i (u.setSlot i fun y => { y with arrivals := rest }))
      generalize body i (u.setSlot i fun y => { y with arrivals := rest }) = r at h ⊢
      split
      · exact h.trans (SlotsStill.keeps (by simp [SlotsStill]))
      · exact h

/-! ## The checks before a command's effect -/

variable {s : State} {k : Ans × State}

theorem guardUp_keeps (fids : List Nat) (h : Keeps s k.2) : Keeps s (guardUp fids s k).2 := by
  unfold guardUp
  split
  · exact .refl s
  · exact h

theorem guardParams_keeps (cs : List (Bool × Nat)) (h : Keeps s k.2) : Keeps s (guardParams cs s k).2 := by
  unfold guardParams
  split
  · exact .refl s
  · exact h

theorem guardTable_keeps (session : Nat) (limit : Option Nat) (tb qmask lo hi : Nat) (h : Keeps s k.2) :
    Keeps s (guardTable session limit tb qmask lo hi s k).2 := by
  obtain hs | hk := guardTable_snd session limit tb qmask lo hi s k
  · rw [hs]
    exact .refl s
  · rwa [hk]

theorem atReg_keeps (s : State) (a : Addr) (off : Nat) {k : Reg → List Nat → Ans × State} (h : ∀ r ix,
    Keeps s (k r ix).2) :
    Keeps s (s.atReg a off k).2 := by
  unfold State.atReg
  split
  · exact .refl s
  · split
    · exact .refl s
    · exact h _ _

theorem onObject_keeps (i : Nat) (h : BitVec 16) (busy : Bool) (s : State) (cs : Obj → List (Bool × Nat))
    {k : Obj → Ans × State} (hk : ∀ o, Keeps s (k o).2) : Keeps s (onObject i h busy s cs k).2 := by
  unfold onObject
  split
  · exact .refl s
  · split
    · exact .refl s
    · exact guardParams_keeps _ (hk _)

theorem withObject_keeps (i : Nat) (h : BitVec 16) (off type : Nat) (lengthOk : Nat → Bool)
    (before after : List (Bool × Nat))
    (fids : List Nat) (s : State) {k : Obj → Ans × State} (hk : ∀ o, Keeps s (k o).2) :
    Keeps s (withObject i h off type lengthOk before after fids s k).2 := by
  unfold withObject
  split
  · exact guardParams_keeps _ (.refl s)
  · split
    · exact .refl s
    · exact guardParams_keeps _ (guardUp_keeps _ (hk _))

theorem consuming_keeps (h : BitVec 16) (o : Obj) (met : List BlockErr) (s : State) {k : State → Ans × State}
    (hk : ∀ t, Keeps t (k t).2) : Keeps s (consuming h o met s k).2 := by
  unfold consuming
  have hr : Still s (s.readObject h.toNat 0 o.length met).2 := by simp [Still]
  generalize s.readObject h.toNat 0 o.length met = r at hr ⊢
  obtain ⟨bad, u⟩ := r
  dsimp only at hr ⊢
  split
  · exact Still.keeps hr
  · exact (Still.keeps hr).trans (hk u)

theorem resultObject_still {s t : State} {session h : Nat} {bytes : List Byte}
    (e : s.resultObject session bytes = some (h, t)) : Still s t := by
  unfold State.resultObject State.newObject at e
  split at e
  · cases e
  · obtain ⟨-, rfl⟩ := Prod.mk.inj (Option.some.inj e)
    simp [Still]

theorem answerObject_keeps (session : Nat) (bytes : List Byte) (s : State) :
    Keeps s (answerObject session bytes s).2 := by
  unfold answerObject
  split
  next h => exact Still.keeps (resultObject_still h)
  · exact .refl s

theorem readAt_keeps (c : Instr) (a : Addr) (same : Nat) (s : State) : Keeps s (readAt c a same s) := by
  refine hostCmd_keeps (fun i u => atReg_keeps u a 0 fun r ix => ?_) c s
  exact Still.keeps (by simp [Still])

theorem regWriting_keeps {body : Body} (hb : ∀ i s, Keeps s (body i s).2) (c : Instr) (s : State) :
    Keeps s (regWriting c body s) :=
  hostCmdThen_keeps hb (fun _ t => keeps_ite (.refl t) (SlotsStill.keeps (by simp [SlotsStill]))) c s

theorem writeAt_keeps (c : Instr) (a : Addr) (v hw : Word) (s : State) : Keeps s (writeAt c a v hw s) :=
  regWriting_keeps (fun _ u => atReg_keeps u a 0 fun r ix => writeReg_keeps u r ix v hw _) c s

theorem writeTblCmd_keeps (c : Instr) (value op : Word) (s : State) : Keeps s (writeTblCmd c value op s) :=
  writeAt_keeps c _ _ _ s

theorem writeSpolCmd_keeps (c : Instr) (op : Word) (s : State) :
    Keeps s (writeSpolCmd c op s) := writeAt_keeps c _ _ _ s

theorem writePairs_keeps (s : State) (session : Nat) (enters : Option (Nat × BitVec 12)) (ps : List (Addr × Word))
    (n : Nat) :
    Keeps s (s.writePairs session enters ps n).2 := by
  induction ps generalizing s n with
  | nil => exact .refl s
  | cons p ps ih =>
    unfold State.writePairs
    extract_lets u
    have hu : Keeps s u := by
      simp only [u]
      split
      · exact keeps_ite (enterDuring_keeps s _) (.refl s)
      · exact .refl s
    clear_value u
    refine hu.trans ?_
    split
    · exact .refl u
    · split
      · exact ih u _
      · exact (writeReg_keeps u _ _ _ _ _).trans (ih _ _)

/-- Every next state of an outcome keeps what every step keeps. -/
def OutKeeps (s : State) (o : Out) : Prop := ∀ t, o = .next t → Keeps s t

theorem outKeeps_next {s t : State} (h : Keeps s t) : OutKeeps s (.next t) := by
  intro u e
  cases e
  exact h

theorem outKeeps_fault (s : State) (f : Fault) : OutKeeps s (.fault f) := fun _ e => by cases e

end Sys2Proof.Machine
end

