-- ==== Sys2Proof/Proofs/KeepsCommands.lean ====
section
/-! PROOFS. Each command keeps what every step keeps. -/

namespace Sys2Proof.Machine

theorem execSpolOperationComplete_keeps (s : State) : OutKeeps s (execSpolOperationComplete s) := by
  unfold execSpolOperationComplete
  refine outKeeps_next ?_
  split <;> exact Still.keeps (by simp [Still])

theorem execDiscoverReceive_keeps (lane : Lane) (src : BitVec 48) (payload : BitVec 512) (s : State) :
    OutKeeps s (execDiscoverReceive lane src payload s) := by
  unfold execDiscoverReceive
  refine outKeeps_next ?_
  dsimp only
  split <;> exact Still.keeps (by simp [Still])

theorem execProposeTimeout_keeps (d : Die) (s : State) : OutKeeps s (execProposeTimeout d s) := by
  unfold execProposeTimeout
  refine outKeeps_next ?_
  split <;> exact Still.keeps (by simp [Still])

theorem execTideCommit_keeps (iss : Issuer) (flags : Byte) (rsv : BitVec 24) (a : BitVec 64) (s : State) :
    OutKeeps s (execTideCommit iss flags rsv a s) := by
  unfold execTideCommit
  refine outKeeps_next (hostCmd_keeps (fun i u => ?_) _ s)
  dsimp only
  apply_rules [guardParams_keeps, guardUp_keeps, guardTable_keeps]
  repeat' split
  all_goals exact Still.keeps (by simp [Still])

theorem execTelExportConfig_keeps (iss : Issuer) (target : Byte) (flags : Byte) (minSev : Byte) (rsv : Byte)
    (rate : BitVec 16) (rsv2 : BitVec 16) (record : BitVec 32) (flow : BitVec 32) (s : State) :
    OutKeeps s (execTelExportConfig iss target flags minSev rsv rate rsv2 record flow s) := by
  unfold execTelExportConfig
  refine outKeeps_next (hostCmd_keeps (fun i u => ?_) _ s)
  dsimp only
  apply_rules [guardParams_keeps, guardUp_keeps, guardTable_keeps]
  split <;> exact Still.keeps (by simp [Still])

theorem execTimedLaunchDue_keeps (tile : Tile) (s : State) : OutKeeps s (execTimedLaunchDue tile s) := by
  unfold execTimedLaunchDue
  refine outKeeps_next ?_
  dsimp only
  repeat' split
  all_goals exact Still.keeps (by simp [Still])

theorem execRegRead_keeps (iss : Issuer) (addr : Addr) (s : State) : OutKeeps s (execRegRead iss addr s) := by
  unfold execRegRead
  exact outKeeps_next (readAt_keeps _ _ _ s)

theorem execDepthReport_keeps (s : State) : OutKeeps s (execDepthReport s) := by
  unfold execDepthReport
  refine outKeeps_next ?_
  split <;> exact Still.keeps (by simp [Still])

theorem execTblCmdReadEntry_keeps (iss : Issuer) (value : Word) (s : State) :
    OutKeeps s (execTblCmdReadEntry iss value s) := by
  unfold execTblCmdReadEntry
  exact outKeeps_next (writeAt_keeps _ _ _ _ s)

theorem execCoalesceWindowExpiry_keeps (code : BitVec 16) (source : BitVec 12) (s : State) :
    OutKeeps s (execCoalesceWindowExpiry code source s) := by
  unfold execCoalesceWindowExpiry
  refine outKeeps_next ?_
  dsimp only
  repeat' split
  all_goals exact Still.keeps (by simp [Still])

theorem execLaneDivertEnd_keeps (lane : Lane) (detuned : Bool) (s : State) :
    OutKeeps s (execLaneDivertEnd lane detuned s) := by
  unfold execLaneDivertEnd
  refine outKeeps_next ?_
  dsimp only
  repeat' split
  all_goals exact Still.keeps (by simp [Still])

theorem execCausewayChangeEnd_keeps (engine : Engine) (captured : List (Fin 2304 × BitVec 12)) (s : State) :
    OutKeeps s (execCausewayChangeEnd engine captured s) := by
  unfold execCausewayChangeEnd
  refine outKeeps_next ?_
  dsimp only
  repeat' split
  all_goals exact SlotsStill.keeps (by simp [SlotsStill, ite_parts, ite_slots,
    foldl_still, foldl_slotsStill, foldl_fst_still, foldl_snd_still, ite_pair])

theorem execGroupQuery_keeps (iss : Issuer) (group : BitVec 16) (first : BitVec 16) (count : BitVec 16)
    (rsv : BitVec 16) (s : State) : OutKeeps s (execGroupQuery iss group first count rsv s) := by
  unfold execGroupQuery
  refine outKeeps_next (hostCmd_keeps (fun i u => ?_) _ s)
  dsimp only
  apply_rules [guardParams_keeps, guardUp_keeps, guardTable_keeps]
  split <;> exact Still.keeps (by simp [Still])

theorem execTriggerWrite_keeps (iss : Issuer) (kind : Byte) (rsv : Byte) (count : BitVec 16) (items : List TrigItem)
    (s : State) : OutKeeps s (execTriggerWrite iss kind rsv count items s) := by
  unfold execTriggerWrite
  refine outKeeps_next (hostCmd_keeps (fun i u => ?_) _ s)
  dsimp only
  apply_rules [guardParams_keeps, guardUp_keeps, guardTable_keeps]
  repeat' split
  all_goals exact SlotsStill.keeps (by simp [SlotsStill, ite_parts, ite_slots,
    foldl_still, foldl_slotsStill, foldl_fst_still, foldl_snd_still, ite_pair])

theorem execCaptureTimeout_keeps (e : Engine) (r : RingIx) (s : State) : OutKeeps s (execCaptureTimeout e r s) := by
  unfold execCaptureTimeout
  refine outKeeps_next ?_
  dsimp only
  split <;> exact Still.keeps (by simp [Still])

theorem execAckStallTimeout_keeps (port : Lane) (s : State) : OutKeeps s (execAckStallTimeout port s) := by
  unfold execAckStallTimeout
  refine outKeeps_next ?_
  dsimp only
  repeat' split
  all_goals exact Still.keeps (by simp [Still])

theorem execPartResize_keeps (iss : Issuer) (id : Byte) (rsv : Byte) (size : BitVec 16) (s : State) :
    OutKeeps s (execPartResize iss id rsv size s) := by
  unfold execPartResize
  refine outKeeps_next (hostCmd_keeps (fun i u => ?_) _ s)
  dsimp only
  apply_rules [guardParams_keeps, guardUp_keeps, guardTable_keeps]
  repeat' split
  all_goals exact Still.keeps (by simp [Still])

theorem execSeekResonance_keeps (e : Engine) (r : RingIx) (code : BitVec 12) (s : State) :
    OutKeeps s (execSeekResonance e r code s) := by
  unfold execSeekResonance
  refine outKeeps_next ?_
  dsimp only
  split <;> exact Still.keeps (by simp [Still])

theorem execPowerStatus_keeps (iss : Issuer) (s : State) : OutKeeps s (execPowerStatus iss s) := by
  unfold execPowerStatus
  refine outKeeps_next (hostCmd_keeps (fun i u => ?_) _ s)
  exact .refl u

theorem execWidthRecordPublish_keeps (l : D2dLink) (s : State) : OutKeeps s (execWidthRecordPublish l s) := by
  unfold execWidthRecordPublish
  refine outKeeps_next ?_
  split <;> exact Still.keeps (by simp [Still])

theorem execReplayTimerExpiry_keeps (port : Lane) (s : State) : OutKeeps s (execReplayTimerExpiry port s) := by
  unfold execReplayTimerExpiry
  refine outKeeps_next ?_
  dsimp only
  repeat' split
  all_goals exact Still.keeps (by simp [Still])

theorem execFwActivate_keeps (iss : Issuer) (slot : Byte) (flags : Byte) (rsv : BitVec 16) (s : State) :
    OutKeeps s (execFwActivate iss slot flags rsv s) := by
  unfold execFwActivate
  refine outKeeps_next (hostCmd_keeps (fun i u => ?_) _ s)
  dsimp only
  apply_rules [guardParams_keeps, guardUp_keeps, guardTable_keeps]
  split <;> exact Still.keeps (by simp [Still])

theorem execPatrolScrub_keeps (b : Bridge) (finding : Option ScrubFinding) (s : State) :
    OutKeeps s (execPatrolScrub b finding s) := by
  unfold execPatrolScrub
  refine outKeeps_next ?_
  dsimp only
  repeat' split
  all_goals exact Still.keeps (by simp [Still])

theorem execHoldRelease_keeps (s : State) : OutKeeps s (execHoldRelease s) := by
  unfold execHoldRelease
  refine outKeeps_next ?_
  dsimp only
  repeat' split
  all_goals exact SlotsStill.keeps (by simp [SlotsStill, ite_parts, ite_slots,
    foldl_still, foldl_slotsStill, foldl_fst_still, foldl_snd_still, ite_pair])

theorem execLinkRetrain_keeps (iss : Issuer) (lane : BitVec 16) (rsv : BitVec 16) (s : State) :
    OutKeeps s (execLinkRetrain iss lane rsv s) := by
  unfold execLinkRetrain
  refine outKeeps_next (hostCmd_keeps (fun i u => ?_) _ s)
  dsimp only
  apply_rules [guardParams_keeps, guardUp_keeps, guardTable_keeps]
  split <;> exact Still.keeps (by simp [Still])

theorem execEModeTransmitStart_keeps (port : Lane) (s : State) : OutKeeps s (execEModeTransmitStart port s) := by
  unfold execEModeTransmitStart
  exact outKeeps_next (Still.keeps (by simp [Still]))

theorem execSeekSweepEnd_keeps (e : Engine) (r : RingIx) (s : State) : OutKeeps s (execSeekSweepEnd e r s) := by
  unfold execSeekSweepEnd
  refine outKeeps_next ?_
  dsimp only
  split <;> exact Still.keeps (by simp [Still])

theorem execTimeRead_keeps (iss : Issuer) (s : State) : OutKeeps s (execTimeRead iss s) := by
  unfold execTimeRead
  refine outKeeps_next (hostCmd_keeps (fun i u => ?_) _ s)
  refine guardUp_keeps _ ?_
  exact Still.keeps (by simp [Still])

theorem execLatchingRegisterRead_keeps (iss : Issuer) (addr : Addr) (s : State) :
    OutKeeps s (execLatchingRegisterRead iss addr s) := by
  unfold execLatchingRegisterRead
  exact outKeeps_next (readAt_keeps _ _ _ s)

theorem execSwlCalibrateTimeout_keeps (s : State) : OutKeeps s (execSwlCalibrateTimeout s) := by
  unfold execSwlCalibrateTimeout
  refine outKeeps_next ?_
  split <;> exact SlotsStill.keeps (by simp [SlotsStill])

theorem execDiscoverSend_keeps (fibre : Fibre) (s : State) : OutKeeps s (execDiscoverSend fibre s) := by
  unfold execDiscoverSend
  refine outKeeps_next ?_
  dsimp only
  repeat' split
  all_goals exact SlotsStill.keeps (by simp [SlotsStill, ite_parts, ite_slots,
    foldl_still, foldl_slotsStill, foldl_fst_still, foldl_snd_still, ite_pair])

theorem execLaserInputGoodExpiry_keeps (e : Engine) (b : Bool) (s : State) :
    OutKeeps s (execLaserInputGoodExpiry e b s) := by
  unfold execLaserInputGoodExpiry
  refine outKeeps_next ?_
  dsimp only
  repeat' split
  all_goals exact SlotsStill.keeps (by simp [SlotsStill, ite_parts, ite_slots,
    foldl_still, foldl_slotsStill, foldl_fst_still, foldl_snd_still, ite_pair])

theorem execSessionList_keeps (iss : Issuer) (s : State) : OutKeeps s (execSessionList iss s) := by
  unfold execSessionList
  refine outKeeps_next (hostCmd_keeps (fun i u => ?_) _ s)
  exact .refl u

theorem execRingLockAcquire_keeps (e : Engine) (r : RingIx) (s : State) : OutKeeps s (execRingLockAcquire e r s) := by
  unfold execRingLockAcquire
  refine outKeeps_next ?_
  dsimp only
  repeat' split
  all_goals exact Still.keeps (by simp [Still])

theorem execTimeAdjust_keeps (iss : Issuer) (flags : Byte) (rsv : BitVec 24) (delta : BitVec 64) (base : BitVec 32)
    (s : State) : OutKeeps s (execTimeAdjust iss flags rsv delta base s) := by
  unfold execTimeAdjust
  refine outKeeps_next (hostCmd_keeps (fun i u => ?_) _ s)
  dsimp only
  apply_rules [guardParams_keeps, guardUp_keeps, guardTable_keeps]
  repeat' split
  all_goals exact Still.keeps (by simp [Still])

theorem execPtpMessageReceive_keeps (port : Lane) (msg : PtpMsg) (s : State) :
    OutKeeps s (execPtpMessageReceive port msg s) := by
  unfold execPtpMessageReceive
  refine outKeeps_next ?_
  dsimp only
  repeat' split
  all_goals exact Still.keeps (by simp [Still])

theorem execEModeSilenceTimeout_keeps (port : Lane) (s : State) : OutKeeps s (execEModeSilenceTimeout port s) := by
  unfold execEModeSilenceTimeout
  refine outKeeps_next ?_
  dsimp only
  split <;> exact Still.keeps (by simp [Still])

theorem execOpenReceive_keeps (tile : Tile) (s : State) : OutKeeps s (execOpenReceive tile s) := by
  unfold execOpenReceive
  exact outKeeps_next (Still.keeps (by simp [Still]))

theorem execPpsPulse_keeps (s : State) : OutKeeps s (execPpsPulse s) := by
  unfold execPpsPulse
  refine outKeeps_next ?_
  split <;> exact Still.keeps (by simp [Still])

theorem execLaneReturn_keeps (lane : Lane) (dir : Dir) (s : State) : OutKeeps s (execLaneReturn lane dir s) := by
  unfold execLaneReturn
  refine outKeeps_next ?_
  dsimp only
  split <;> exact Still.keeps (by simp [Still])

theorem execEKeepaliveSend_keeps (port : Lane) (s : State) : OutKeeps s (execEKeepaliveSend port s) := by
  unfold execEKeepaliveSend
  refine outKeeps_next ?_
  dsimp only
  split <;> exact Still.keeps (by simp [Still])

theorem execContextDeadline_keeps (ctx : CtxNum) (s : State) : OutKeeps s (execContextDeadline ctx s) := by
  unfold execContextDeadline
  refine outKeeps_next ?_
  dsimp only
  repeat' split
  all_goals exact Still.keeps (by simp [Still])

theorem execPpsPulseEnd_keeps (s : State) : OutKeeps s (execPpsPulseEnd s) := by
  unfold execPpsPulseEnd
  refine outKeeps_next ?_
  split <;> exact Still.keeps (by simp [Still])

theorem execPortEnable_keeps (iss : Issuer) (lane : BitVec 16) (enable : Byte) (rsv : Byte) (s : State) :
    OutKeeps s (execPortEnable iss lane enable rsv s) := by
  unfold execPortEnable
  refine outKeeps_next (hostCmd_keeps (fun i u => ?_) _ s)
  dsimp only
  apply_rules [guardParams_keeps, guardUp_keeps, guardTable_keeps]
  repeat' split
  all_goals exact Still.keeps (by simp [Still])

theorem execLaneSilenceTimeout_keeps (lane : Lane) (s : State) : OutKeeps s (execLaneSilenceTimeout lane s) := by
  unfold execLaneSilenceTimeout
  refine outKeeps_next ?_
  dsimp only
  split <;> exact Still.keeps (by simp [Still])

theorem execMgmtFrameReceive_keeps (f : MgmtFrame) (s : State) : OutKeeps s (execMgmtFrameReceive f s) := by
  unfold execMgmtFrameReceive
  exact outKeeps_next (SlotsStill.keeps (by simp [SlotsStill]))

theorem execTsQueueRead_keeps (iss : Issuer) (first : Byte) (count : Byte) (rsv : BitVec 16) (s : State) :
    OutKeeps s (execTsQueueRead iss first count rsv s) := by
  unfold execTsQueueRead
  refine outKeeps_next (hostCmd_keeps (fun i u => ?_) _ s)
  refine guardParams_keeps _ (guardUp_keeps _ ?_)
  exact Still.keeps (by simp [Still])

theorem execGroupCreate_keeps (iss : Issuer) (group : BitVec 16) (weight : Byte) (rsv : Byte) (base : BitVec 32)
    (count : BitVec 32) (m : BitVec 16) (rsv2 : BitVec 16) (members : List Word) (s : State) :
    OutKeeps s (execGroupCreate iss group weight rsv base count m rsv2 members s) := by
  unfold execGroupCreate
  refine outKeeps_next (hostCmd_keeps (fun i u => ?_) _ s)
  dsimp only
  apply_rules [guardParams_keeps, guardUp_keeps, guardTable_keeps]
  repeat' split
  all_goals exact Still.keeps (by simp [Still])

theorem execTblCmdWriteEntry_keeps (iss : Issuer) (value : Word) (s : State) :
    OutKeeps s (execTblCmdWriteEntry iss value s) := by
  unfold execTblCmdWriteEntry
  exact outKeeps_next (writeAt_keeps _ _ _ _ s)

theorem execHeaderUnpin_keeps (ctx : CtxNum) (s : State) : OutKeeps s (execHeaderUnpin ctx s) := by
  unfold execHeaderUnpin
  refine outKeeps_next ?_
  dsimp only
  repeat' split
  all_goals exact SlotsStill.keeps (by simp [SlotsStill, ite_parts, ite_slots,
    foldl_still, foldl_slotsStill, foldl_fst_still, foldl_snd_still, ite_pair])

theorem execPowerReplyReceive_keeps (d : Die) (s : State) : OutKeeps s (execPowerReplyReceive d s) := by
  unfold execPowerReplyReceive
  refine outKeeps_next ?_
  dsimp only
  repeat' split
  all_goals exact Still.keeps (by simp [Still])

theorem execBwkQuery_keeps (iss : Issuer) (group : BitVec 16) (rsv : BitVec 16) (first : BitVec 32)
    (count : BitVec 32) (s : State) : OutKeeps s (execBwkQuery iss group rsv first count s) := by
  unfold execBwkQuery
  refine outKeeps_next (hostCmd_keeps (fun i u => ?_) _ s)
  dsimp only
  apply_rules [guardParams_keeps, guardUp_keeps, guardTable_keeps]
  split <;> exact Still.keeps (by simp [Still])

theorem execGroupWeight_keeps (iss : Issuer) (group : BitVec 16) (weight : Byte) (rsv : Byte) (s : State) :
    OutKeeps s (execGroupWeight iss group weight rsv s) := by
  unfold execGroupWeight
  refine outKeeps_next (hostCmd_keeps (fun i u => ?_) _ s)
  refine guardParams_keeps _ ?_
  exact Still.keeps (by simp [Still])

theorem execCmdConfigWrite_keeps (iss : Issuer) (value : Word) (s : State) :
    OutKeeps s (execCmdConfigWrite iss value s) := by
  unfold execCmdConfigWrite
  exact outKeeps_next (writeAt_keeps _ _ _ _ s)

theorem execTelStageTimer_keeps (s : State) : OutKeeps s (execTelStageTimer s) := by
  unfold execTelStageTimer
  refine outKeeps_next ?_
  dsimp only
  repeat' split
  all_goals exact Still.keeps (by simp [Still])

theorem execLightPresent_keeps (target : LightTarget) (s : State) : OutKeeps s (execLightPresent target s) := by
  unfold execLightPresent
  refine outKeeps_next ?_
  dsimp only
  repeat' split
  all_goals exact Still.keeps (by simp [Still])

theorem execBwkGroupCreate_keeps (iss : Issuer) (group : BitVec 16) (k : Byte) (rsv : Byte) (base : BitVec 32)
    (count : BitVec 32) (z : BitVec 32) (members : List Word) (s : State) :
    OutKeeps s (execBwkGroupCreate iss group k rsv base count z members s) := by
  unfold execBwkGroupCreate
  refine outKeeps_next (hostCmd_keeps (fun i u => ?_) _ s)
  dsimp only
  apply_rules [guardParams_keeps, guardUp_keeps, guardTable_keeps]
  repeat' split
  all_goals exact Still.keeps (by simp [Still])

theorem execLaserInputFail_keeps (e : Engine) (b : Bool) (s : State) : OutKeeps s (execLaserInputFail e b s) := by
  unfold execLaserInputFail
  refine outKeeps_next ?_
  dsimp only
  repeat' split
  all_goals exact SlotsStill.keeps (by simp [SlotsStill, ite_parts, ite_slots,
    foldl_still, foldl_slotsStill, foldl_fst_still, foldl_snd_still, ite_pair])

theorem execPtpMessageSend_keeps (port : Lane) (kind : PtpKind) (s : State) :
    OutKeeps s (execPtpMessageSend port kind s) := by
  unfold execPtpMessageSend
  refine outKeeps_next ?_
  split <;> exact Still.keeps (by simp [Still])

theorem execMemberExclude_keeps (iss : Issuer) (group : BitVec 16) (flags : Byte) (rsv : Byte) (ctx : BitVec 32)
    (count : BitVec 16) (rsv2 : BitVec 16) (members : List (BitVec 16)) (met : List BlockErr) (s : State) :
    OutKeeps s (execMemberExclude iss group flags rsv ctx count rsv2 members met s) := by
  unfold execMemberExclude
  refine outKeeps_next (hostCmd_keeps (fun i u => ?_) _ s)
  dsimp only
  apply_rules [guardParams_keeps, guardUp_keeps, guardTable_keeps]
  repeat' split
  all_goals exact Still.keeps (by simp [Still])

theorem execCausewayChange_keeps (engine : Engine) (s : State) : OutKeeps s (execCausewayChange engine s) := by
  unfold execCausewayChange
  refine outKeeps_next ?_
  dsimp only
  repeat' split
  all_goals exact SlotsStill.keeps (by simp [SlotsStill, ite_parts, ite_slots,
    foldl_still, foldl_slotsStill, foldl_fst_still, foldl_snd_still, ite_pair])

theorem execSpolBind_keeps (iss : Issuer) (s : State) : OutKeeps s (execSpolBind iss s) := by
  unfold execSpolBind
  exact outKeeps_next (writeAt_keeps _ _ _ _ s)

theorem execSpolUnbind_keeps (iss : Issuer) (s : State) : OutKeeps s (execSpolUnbind iss s) := by
  unfold execSpolUnbind
  exact outKeeps_next (writeAt_keeps _ _ _ _ s)

theorem execTblCmdInvalidateEntry_keeps (iss : Issuer) (value : Word) (s : State) :
    OutKeeps s (execTblCmdInvalidateEntry iss value s) := by
  unfold execTblCmdInvalidateEntry
  exact outKeeps_next (writeAt_keeps _ _ _ _ s)

theorem execHeadSweep_keeps (tile : Tile) (s : State) : OutKeeps s (execHeadSweep tile s) := by
  unfold execHeadSweep
  refine outKeeps_next ?_
  split <;> exact Still.keeps (by simp [Still])

theorem execPortTrainingComplete_keeps (port : Lane) (s : State) : OutKeeps s (execPortTrainingComplete port s) := by
  unfold execPortTrainingComplete
  refine outKeeps_next ?_
  dsimp only
  split <;> exact Still.keeps (by simp [Still])

theorem execAnnounceTimeout_keeps (sync : Bool) (s : State) : OutKeeps s (execAnnounceTimeout sync s) := by
  unfold execAnnounceTimeout
  refine outKeeps_next ?_
  split <;> exact Still.keeps (by simp [Still])

theorem execProbeBurst_keeps (f : Fibre) (s : State) : OutKeeps s (execProbeBurst f s) := by
  unfold execProbeBurst
  refine outKeeps_next ?_
  split <;> exact Still.keeps (by simp [Still])

theorem execCtxLineFetchComplete_keeps (tile : Tile) (met : List BlockErr) (s : State) :
    OutKeeps s (execCtxLineFetchComplete tile met s) := by
  unfold execCtxLineFetchComplete
  refine outKeeps_next ?_
  dsimp only
  repeat' split
  all_goals exact Still.keeps (by simp [Still])

theorem execRailRecoveryExpiry_keeps (s : State) : OutKeeps s (execRailRecoveryExpiry s) := by
  unfold execRailRecoveryExpiry
  refine outKeeps_next ?_
  split <;> exact Still.keeps (by simp [Still])

theorem execTideCheckEnd_keeps (s : State) : OutKeeps s (execTideCheckEnd s) := by
  unfold execTideCheckEnd
  refine outKeeps_next ?_
  dsimp only
  repeat' split
  all_goals exact SlotsStill.keeps (by simp [SlotsStill, ite_parts, ite_slots])

theorem execPaceRoundStart_keeps (ctx : CtxNum) (s : State) : OutKeeps s (execPaceRoundStart ctx s) := by
  unfold execPaceRoundStart
  refine outKeeps_next ?_
  dsimp only
  repeat' split
  all_goals exact Still.keeps (by simp [Still])

theorem execCtxQuery_keeps (iss : Issuer) (ctx : BitVec 32) (first : BitVec 16) (count : BitVec 16)
    (met : List BlockErr) (s : State) : OutKeeps s (execCtxQuery iss ctx first count met s) := by
  unfold execCtxQuery
  refine outKeeps_next (hostCmd_keeps (fun i u => ?_) _ s)
  dsimp only
  apply_rules [guardParams_keeps, guardUp_keeps, guardTable_keeps]
  repeat' split
  all_goals exact Still.keeps (by simp [Still])

theorem execOeStatus_keeps (iss : Issuer) (engine : Byte) (rsv : BitVec 24) (s : State) :
    OutKeeps s (execOeStatus iss engine rsv s) := by
  unfold execOeStatus
  refine outKeeps_next (hostCmd_keeps (fun i u => ?_) _ s)
  refine guardParams_keeps _ ?_
  exact Still.keeps (by simp [Still])

theorem execTideActivation_keeps (port : Lane) (s : State) : OutKeeps s (execTideActivation port s) := by
  unfold execTideActivation
  refine outKeeps_next ?_
  dsimp only
  repeat' split
  all_goals exact SlotsStill.keeps (by simp [SlotsStill, ite_parts, ite_slots])

theorem execTrainFillExpiry_keeps (port : Lane) (s : State) : OutKeeps s (execTrainFillExpiry port s) := by
  unfold execTrainFillExpiry
  refine outKeeps_next ?_
  split <;> exact Still.keeps (by simp [Still])

theorem execSessionFinish_keeps (iss : Issuer) (session : BitVec 16) (rsv : BitVec 16) (edKey : BitVec 256)
    (mldsaKey : BitVec 15616) (edSig : BitVec 512) (mldsaSig : BitVec 26472) (s : State) :
    OutKeeps s (execSessionFinish iss session rsv edKey mldsaKey edSig mldsaSig s) := by
  unfold execSessionFinish
  refine outKeeps_next (zeroCmd_keeps (fun i u => ?_) _ s)
  dsimp only
  apply_rules [guardParams_keeps, guardUp_keeps, guardTable_keeps]
  repeat' split
  all_goals exact SlotsStill.keeps (by simp [SlotsStill, ite_parts, ite_slots,
    foldl_still, foldl_slotsStill, foldl_fst_still, foldl_snd_still, ite_pair])

theorem execCswStatus_keeps (iss : Issuer) (engine : Byte) (rsv : BitVec 24) (s : State) :
    OutKeeps s (execCswStatus iss engine rsv s) := by
  unfold execCswStatus
  refine outKeeps_next (hostCmd_keeps (fun i u => ?_) _ s)
  refine guardParams_keeps _ ?_
  exact Still.keeps (by simp [Still])

theorem execMissingRound_keeps (ctx : CtxNum) (met : List BlockErr) (s : State) :
    OutKeeps s (execMissingRound ctx met s) := by
  unfold execMissingRound
  refine outKeeps_next ?_
  dsimp only
  repeat' split
  all_goals exact Still.keeps (by simp [Still])

theorem execLinkSilenceTimeout_keeps (port : Lane) (s : State) : OutKeeps s (execLinkSilenceTimeout port s) := by
  unfold execLinkSilenceTimeout
  refine outKeeps_next ?_
  dsimp only
  split <;> exact Still.keeps (by simp [Still])

theorem execSeekRetryExpiry_keeps (e : Engine) (r : RingIx) (s : State) : OutKeeps s (execSeekRetryExpiry e r s) := by
  unfold execSeekRetryExpiry
  refine outKeeps_next ?_
  dsimp only
  split <;> exact Still.keeps (by simp [Still])

theorem execCooldownExpiry_keeps (e : Engine) (r : RingIx) (s : State) : OutKeeps s (execCooldownExpiry e r s) := by
  unfold execCooldownExpiry
  refine outKeeps_next ?_
  dsimp only
  split <;> exact Still.keeps (by simp [Still])

theorem execPowerCap_keeps (iss : Issuer) (cap : BitVec 16) (rsv : BitVec 16) (s : State) :
    OutKeeps s (execPowerCap iss cap rsv s) := by
  unfold execPowerCap
  refine outKeeps_next (hostCmd_keeps (fun i u => ?_) _ s)
  refine guardParams_keeps _ ?_
  exact Still.keeps (by simp [Still])

theorem execRcRegisterRead_keeps (iss : Issuer) (addr : Addr) (sameCycle : ℕ) (s : State) :
    OutKeeps s (execRcRegisterRead iss addr sameCycle s) := by
  unfold execRcRegisterRead
  exact outKeeps_next (readAt_keeps _ _ _ s)

theorem execXbarSlot_keeps (s : State) : OutKeeps s (execXbarSlot s) := by
  unfold execXbarSlot
  refine outKeeps_next ?_
  dsimp only
  repeat' split
  all_goals exact Still.keeps (by simp [Still])

theorem execShorelineCrcLimit_keeps (l : D2dLink) (words : List ShoreWord) (s : State) :
    OutKeeps s (execShorelineCrcLimit l words s) := by
  unfold execShorelineCrcLimit
  refine outKeeps_next ?_
  dsimp only
  repeat' split
  all_goals exact Still.keeps (by simp [Still])

theorem execPilotPlan_keeps (iss : Issuer) (mask : BitVec 16) (rsv : BitVec 16) (tones : List Byte) (s : State) :
    OutKeeps s (execPilotPlan iss mask rsv tones s) := by
  unfold execPilotPlan
  refine outKeeps_next (hostCmd_keeps (fun i u => ?_) _ s)
  dsimp only
  apply_rules [guardParams_keeps, guardUp_keeps, guardTable_keeps]
  repeat' split
  all_goals exact SlotsStill.keeps (by simp [SlotsStill, ite_parts, ite_slots,
    foldl_still, foldl_slotsStill, foldl_fst_still, foldl_snd_still, ite_pair])

theorem execSwlDeskewRead_keeps (iss : Issuer) (fibre : BitVec 16) (count : BitVec 16) (s : State) :
    OutKeeps s (execSwlDeskewRead iss fibre count s) := by
  unfold execSwlDeskewRead
  refine outKeeps_next (hostCmd_keeps (fun i u => ?_) _ s)
  refine guardParams_keeps _ ?_
  exact Still.keeps (by simp [Still])

theorem execFibreComparisonComplete_keeps (fibre : Fibre) (s : State) :
    OutKeeps s (execFibreComparisonComplete fibre s) := by
  unfold execFibreComparisonComplete
  refine outKeeps_next ?_
  dsimp only
  split <;> exact Still.keeps (by simp [Still])

theorem execTblCmdMoveEntries_keeps (iss : Issuer) (value : Word) (s : State) :
    OutKeeps s (execTblCmdMoveEntries iss value s) := by
  unfold execTblCmdMoveEntries
  exact outKeeps_next (writeAt_keeps _ _ _ _ s)

theorem execTableOperationComplete_keeps (s : State) : OutKeeps s (execTableOperationComplete s) := by
  unfold execTableOperationComplete
  refine outKeeps_next ?_
  split <;> exact Still.keeps (by simp [Still])

theorem execNop_keeps (iss : Issuer) (params : List Byte) (s : State) : OutKeeps s (execNop iss params s) := by
  unfold execNop
  refine outKeeps_next (hostCmd_keeps (fun i u => ?_) _ s)
  exact .refl u

theorem execPortConfig_keeps (iss : Issuer) (fibre : BitVec 16) (layout : Byte) (rsv : Byte) (s : State) :
    OutKeeps s (execPortConfig iss fibre layout rsv s) := by
  unfold execPortConfig
  refine outKeeps_next (hostCmd_keeps (fun i u => ?_) _ s)
  dsimp only
  apply_rules [guardParams_keeps, guardUp_keeps, guardTable_keeps]
  repeat' split
  all_goals exact SlotsStill.keeps (by simp [SlotsStill, ite_parts, ite_slots,
    foldl_still, foldl_slotsStill, foldl_fst_still, foldl_snd_still, ite_pair])

theorem execOpenDwellExpiry_keeps (f : Fibre) (s : State) : OutKeeps s (execOpenDwellExpiry f s) := by
  unfold execOpenDwellExpiry
  refine outKeeps_next ?_
  dsimp only
  split <;> exact Still.keeps (by simp [Still])

theorem execTelStreamSend_keeps (s : State) : OutKeeps s (execTelStreamSend s) := by
  unfold execTelStreamSend
  refine outKeeps_next ?_
  dsimp only
  repeat' split
  all_goals exact SlotsStill.keeps (by simp [SlotsStill, ite_parts, ite_slots,
    foldl_still, foldl_slotsStill, foldl_fst_still, foldl_snd_still, ite_pair])

theorem execKeepaliveExpiry_keeps (slot : Fin 8) (s : State) : OutKeeps s (execKeepaliveExpiry slot s) := by
  unfold execKeepaliveExpiry
  refine outKeeps_next ?_
  split <;> exact SlotsStill.keeps (by simp [SlotsStill])

theorem execTimedLaunch_keeps (iss : Issuer) (lane : BitVec 16) (ident : BitVec 16) (flags : Byte) (rsv : BitVec 24)
    (t : BitVec 64) (length : BitVec 16) (rsv2 : BitVec 48) (data : List Byte) (s : State) :
    OutKeeps s (execTimedLaunch iss lane ident flags rsv t length rsv2 data s) := by
  unfold execTimedLaunch
  refine outKeeps_next (hostCmd_keeps (fun i u => ?_) _ s)
  dsimp only
  apply_rules [guardParams_keeps, guardUp_keeps, guardTable_keeps]
  split <;> exact Still.keeps (by simp [Still])

theorem execFlitTransmit_keeps (lane : Lane) (s : State) : OutKeeps s (execFlitTransmit lane s) := by
  unfold execFlitTransmit
  refine outKeeps_next ?_
  dsimp only
  repeat' split
  all_goals exact Still.keeps (by simp [Still])

theorem execErrorWindowEnd_keeps (ends : List (Lane × ℕ × ℕ)) (s : State) :
    OutKeeps s (execErrorWindowEnd ends s) := by
  unfold execErrorWindowEnd
  refine outKeeps_next ?_
  exact SlotsStill.keeps (by simp [SlotsStill, ite_parts, ite_slots,
    foldl_still, foldl_slotsStill, foldl_fst_still, foldl_snd_still, ite_pair])

theorem execCodeReceive_keeps (tile : Tile) (s : State) : OutKeeps s (execCodeReceive tile s) := by
  unfold execCodeReceive
  exact outKeeps_next (Still.keeps (by simp [Still]))

theorem execRefclkRunExpiry_keeps (s : State) : OutKeeps s (execRefclkRunExpiry s) := by
  unfold execRefclkRunExpiry
  refine outKeeps_next ?_
  split <;> exact Still.keeps (by simp [Still])

theorem execCswCircuit_keeps (iss : Issuer) (op : Byte) (mask : Byte) (a : Byte) (b : Byte) (s : State) :
    OutKeeps s (execCswCircuit iss op mask a b s) := by
  unfold execCswCircuit
  refine outKeeps_next (hostCmd_keeps (fun i u => ?_) _ s)
  dsimp only
  apply_rules [guardParams_keeps, guardUp_keeps, guardTable_keeps]
  repeat' split
  all_goals exact SlotsStill.keeps (by simp [SlotsStill, ite_parts, ite_slots,
    foldl_still, foldl_slotsStill, foldl_fst_still, foldl_snd_still, ite_pair])

theorem execEthFrameReceive_keeps (port : Lane) (frame : EthFrame) (overrun : Bool) (s : State) :
    OutKeeps s (execEthFrameReceive port frame overrun s) := by
  unfold execEthFrameReceive
  refine outKeeps_next ?_
  exact SlotsStill.keeps (by simp [SlotsStill, ite_parts, ite_slots,
    foldl_still, foldl_slotsStill, foldl_fst_still, foldl_snd_still, ite_pair])

theorem execRingLockLoss_keeps (target : PilotTarget) (s : State) : OutKeeps s (execRingLockLoss target s) := by
  unfold execRingLockLoss
  refine outKeeps_next ?_
  dsimp only
  repeat' split
  all_goals exact Still.keeps (by simp [Still])

theorem execSwlCalibrate_keeps (iss : Issuer) (mask : BitVec 16) (rsv : BitVec 16) (s : State) :
    OutKeeps s (execSwlCalibrate iss mask rsv s) := by
  unfold execSwlCalibrate
  refine outKeeps_next (hostCmd_keeps (fun i u => ?_) _ s)
  dsimp only
  apply_rules [guardParams_keeps, guardUp_keeps, guardTable_keeps]
  split <;> exact Still.keeps (by simp [Still])

theorem execLaneDrop_keeps (lane : Lane) (dir : Dir) (s : State) : OutKeeps s (execLaneDrop lane dir s) := by
  unfold execLaneDrop
  refine outKeeps_next ?_
  split <;> exact Still.keeps (by simp [Still])

theorem execPilotWindowEnd_keeps (target : PilotTarget) (window : PilotWindow) (s : State) :
    OutKeeps s (execPilotWindowEnd target window s) := by
  unfold execPilotWindowEnd
  refine outKeeps_next ?_
  split <;> exact Still.keeps (by simp [Still])

theorem execRingReseek_keeps (iss : Issuer) (engine : Byte) (dir : Byte) (fibre : Byte) (mask : Byte) (s : State) :
    OutKeeps s (execRingReseek iss engine dir fibre mask s) := by
  unfold execRingReseek
  refine outKeeps_next (hostCmd_keeps (fun i u => ?_) _ s)
  dsimp only
  apply_rules [guardParams_keeps, guardUp_keeps, guardTable_keeps]
  repeat' split
  all_goals exact SlotsStill.keeps (by simp [SlotsStill, ite_parts, ite_slots,
    foldl_still, foldl_slotsStill, foldl_fst_still, foldl_snd_still, ite_pair])

theorem execRelockStart_keeps (e : Engine) (r : RingIx) (captured : Option (BitVec 12)) (s : State) :
    OutKeeps s (execRelockStart e r captured s) := by
  unfold execRelockStart
  refine outKeeps_next ?_
  dsimp only
  split <;> exact Still.keeps (by simp [Still])

theorem execTileRatioStep_keeps (tile : Tile) (s : State) : OutKeeps s (execTileRatioStep tile s) := by
  unfold execTileRatioStep
  refine outKeeps_next ?_
  dsimp only
  repeat' split
  all_goals exact Still.keeps (by simp [Still])

theorem execTblRead_keeps (iss : Issuer) (quad : Byte) (table : Byte) (flags : Byte) (rsv : Byte) (index : BitVec 32)
    (s : State) : OutKeeps s (execTblRead iss quad table flags rsv index s) := by
  unfold execTblRead
  refine outKeeps_next (hostCmd_keeps (fun i u => ?_) _ s)
  refine guardParams_keeps _ ?_
  exact Still.keeps (by simp [Still])

theorem execGenStatus_keeps (iss : Issuer) (s : State) : OutKeeps s (execGenStatus iss s) := by
  unfold execGenStatus
  refine outKeeps_next (hostCmd_keeps (fun i u => ?_) _ s)
  exact .refl u

theorem execW1cRegisterWrite_keeps (iss : Issuer) (addr : Addr) (value : Word) (hwSet : Word) (s : State) :
    OutKeeps s (execW1cRegisterWrite iss addr value hwSet s) := by
  unfold execW1cRegisterWrite
  exact outKeeps_next (writeAt_keeps _ _ _ _ s)

theorem execFeedforwardSample_keeps (e : Engine) (temps : List (BitVec 16)) (loop : List (RingIx × BitVec 12))
    (s : State) : OutKeeps s (execFeedforwardSample e temps loop s) := by
  unfold execFeedforwardSample
  refine outKeeps_next ?_
  dsimp only
  repeat' split
  all_goals exact SlotsStill.keeps (by simp [SlotsStill, ite_parts, ite_slots,
    foldl_still, foldl_slotsStill, foldl_fst_still, foldl_snd_still, ite_pair])

theorem execRegWrite_keeps (iss : Issuer) (addr : Addr) (value : Word) (s : State) :
    OutKeeps s (execRegWrite iss addr value s) := by
  unfold execRegWrite
  exact outKeeps_next (writeAt_keeps _ _ _ _ s)

theorem execMemErrorRead_keeps (iss : Issuer) (bridge : Byte) (rsv : Byte) (first : BitVec 16) (count : BitVec 16)
    (s : State) : OutKeeps s (execMemErrorRead iss bridge rsv first count s) := by
  unfold execMemErrorRead
  refine outKeeps_next (hostCmd_keeps (fun i u => ?_) _ s)
  refine guardParams_keeps _ ?_
  exact Still.keeps (by simp [Still])

theorem execSwellInstanceEnd_keeps (inputs : List SwellInput) (bursts : List SwellBurst) (s : State) :
    OutKeeps s (execSwellInstanceEnd inputs bursts s) := by
  unfold execSwellInstanceEnd
  refine outKeeps_next ?_
  dsimp only
  repeat' split
  all_goals exact SlotsStill.keeps (by simp [SlotsStill, ite_parts, ite_slots,
    foldl_still, foldl_slotsStill, foldl_fst_still, foldl_snd_still, ite_pair])

theorem execOeCalibrate_keeps (iss : Issuer) (engine : Byte) (kind : Byte) (flags : Byte) (rsv : Byte) (s : State) :
    OutKeeps s (execOeCalibrate iss engine kind flags rsv s) := by
  unfold execOeCalibrate
  refine outKeeps_next (hostCmd_keeps (fun i u => ?_) _ s)
  dsimp only
  apply_rules [guardParams_keeps, guardUp_keeps, guardTable_keeps]
  repeat' split
  all_goals exact SlotsStill.keeps (by simp [SlotsStill, ite_parts, ite_slots,
    foldl_still, foldl_slotsStill, foldl_fst_still, foldl_snd_still, ite_pair])

theorem execCertRead_keeps (iss : Issuer) (scheme : Byte) (depth : Byte) (rsv : BitVec 16) (s : State) :
    OutKeeps s (execCertRead iss scheme depth rsv s) := by
  unfold execCertRead
  refine outKeeps_next (hostCmd_keeps (fun i u => ?_) _ s)
  refine guardParams_keeps _ ?_
  exact Still.keeps (by simp [Still])

theorem execSwellInstanceStart_keeps (engine : Engine) (lambda : Fin 8) (present : List Lane) (s : State) :
    OutKeeps s (execSwellInstanceStart engine lambda present s) := by
  unfold execSwellInstanceStart
  refine outKeeps_next ?_
  dsimp only
  repeat' split
  all_goals exact CoreStill.keeps (by simp [CoreStill])

theorem execDeltaApply_keeps (bridge : Bridge) (met : List BlockErr) (s : State) :
    OutKeeps s (execDeltaApply bridge met s) := by
  unfold execDeltaApply
  refine outKeeps_next ?_
  dsimp only
  repeat' split
  all_goals exact Still.keeps (by simp [Still])

theorem execResetRelease_keeps (pin : ResetPin) (bistSkip : Bool) (s : State) :
    OutKeeps s (execResetRelease pin bistSkip s) := by
  unfold execResetRelease
  refine outKeeps_next ?_
  dsimp only
  repeat' split
  all_goals exact Still.keeps (by simp [Still])

theorem execCupReceive_keeps (tile : Tile) (s : State) : OutKeeps s (execCupReceive tile s) := by
  unfold execCupReceive
  exact outKeeps_next (Still.keeps (by simp [Still]))

theorem execPortStatus_keeps (iss : Issuer) (lane : BitVec 16) (rsv : BitVec 16) (s : State) :
    OutKeeps s (execPortStatus iss lane rsv s) := by
  unfold execPortStatus
  refine outKeeps_next (hostCmd_keeps (fun i u => ?_) _ s)
  refine guardParams_keeps _ ?_
  exact Still.keeps (by simp [Still])

theorem execTelCounterClear_keeps (iss : Issuer) (set : Byte) (rsv : Byte) (count : BitVec 16) (first : BitVec 32)
    (s : State) : OutKeeps s (execTelCounterClear iss set rsv count first s) := by
  unfold execTelCounterClear
  refine outKeeps_next (hostCmd_keeps (fun i u => ?_) _ s)
  dsimp only
  apply_rules [guardParams_keeps, guardUp_keeps, guardTable_keeps]
  repeat' split
  all_goals exact SlotsStill.keeps (by simp [SlotsStill, ite_parts, ite_slots,
    foldl_still, foldl_slotsStill, foldl_fst_still, foldl_snd_still, ite_pair])

theorem execTcConfigWrite_keeps (iss : Issuer) (addr : Addr) (value : Word) (s : State) :
    OutKeeps s (execTcConfigWrite iss addr value s) := by
  unfold execTcConfigWrite
  exact outKeeps_next (writeAt_keeps _ _ _ _ s)

theorem execProposeReceive_keeps (d : Die) (expected : BitVec 16) (now : DieReading) (s : State) :
    OutKeeps s (execProposeReceive d expected now s) := by
  unfold execProposeReceive
  refine outKeeps_next ?_
  dsimp only
  repeat' split
  all_goals exact Still.keeps (by simp [Still])

theorem execUndertowReadback_keeps (tile : Tile) (queue : Fin 520) (met : List BlockErr) (s : State) :
    OutKeeps s (execUndertowReadback tile queue met s) := by
  unfold execUndertowReadback
  refine outKeeps_next ?_
  dsimp only
  split <;> exact Still.keeps (by simp [Still])

theorem execEbbRead_keeps (iss : Issuer) (group : BitVec 16) (flags : Byte) (rsv : Byte) (s : State) :
    OutKeeps s (execEbbRead iss group flags rsv s) := by
  unfold execEbbRead
  refine outKeeps_next (hostCmd_keeps (fun i u => ?_) _ s)
  dsimp only
  apply_rules [guardParams_keeps, guardUp_keeps, guardTable_keeps]
  repeat' split
  all_goals exact Still.keeps (by simp [Still])

theorem execSpolRead_keeps (iss : Issuer) (s : State) : OutKeeps s (execSpolRead iss s) := by
  unfold execSpolRead
  exact outKeeps_next (writeAt_keeps _ _ _ _ s)

theorem execPtpConfig_keeps (iss : Issuer) (domain : Byte) (flags : Byte) (logSync : Byte) (logAnnounce : Byte)
    (logPdelay : Byte) (prio1 : Byte) (prio2 : Byte) (rsv : Byte) (asym : List (BitVec 16 × BitVec 48)) (s : State) :
    OutKeeps s (execPtpConfig iss domain flags logSync logAnnounce logPdelay prio1 prio2 rsv asym s) := by
  unfold execPtpConfig
  refine outKeeps_next (hostCmd_keeps (fun i u => ?_) _ s)
  refine guardParams_keeps _ (guardUp_keeps _ ?_)
  exact Still.keeps (by simp [Still])

theorem execTelCollectorSend_keeps (i : Fin 4) (s : State) : OutKeeps s (execTelCollectorSend i s) := by
  unfold execTelCollectorSend
  refine outKeeps_next ?_
  dsimp only
  repeat' split
  all_goals exact Still.keeps (by simp [Still])

theorem execRegReadBlock_keeps (iss : Issuer) (first : Addr) (count : BitVec 16) (s : State) :
    OutKeeps s (execRegReadBlock iss first count s) := by
  unfold execRegReadBlock
  refine outKeeps_next (hostCmd_keeps (fun i u => ?_) _ s)
  dsimp only
  apply_rules [guardParams_keeps, guardUp_keeps, guardTable_keeps]
  split <;> exact Still.keeps (by simp [Still])

theorem execPartRead_keeps (iss : Issuer) (s : State) : OutKeeps s (execPartRead iss s) := by
  unfold execPartRead
  refine outKeeps_next (hostCmd_keeps (fun i u => ?_) _ s)
  exact .refl u

theorem execTestStaggerExpiry_keeps (s : State) : OutKeeps s (execTestStaggerExpiry s) := by
  unfold execTestStaggerExpiry
  refine outKeeps_next ?_
  dsimp only
  split <;> exact CoreStill.keeps (by simp [CoreStill])

theorem execSlewEnd_keeps (s : State) : OutKeeps s (execSlewEnd s) := by
  unfold execSlewEnd
  refine outKeeps_next ?_
  split <;> exact Still.keeps (by simp [Still])

theorem execCellTrainReceive_keeps (port : Lane) (train : Train) (overrun : Bool) (s : State) :
    OutKeeps s (execCellTrainReceive port train overrun s) := by
  unfold execCellTrainReceive
  exact outKeeps_next (Still.keeps (by simp [Still]))

theorem execLaneDivertStart_keeps (lane : Lane) (s : State) : OutKeeps s (execLaneDivertStart lane s) := by
  unfold execLaneDivertStart
  refine outKeeps_next ?_
  dsimp only
  repeat' split
  all_goals exact Still.keeps (by simp [Still])

theorem execQuarantineUnitDue_keeps (s : State) : OutKeeps s (execQuarantineUnitDue s) := by
  unfold execQuarantineUnitDue
  refine outKeeps_next ?_
  exact SlotsStill.keeps (by simp [SlotsStill, ite_parts, ite_slots,
    foldl_still, foldl_slotsStill, foldl_fst_still, foldl_snd_still, ite_pair])

theorem execBridgeZeroingComplete_keeps (b : Bridge) (s : State) : OutKeeps s (execBridgeZeroingComplete b s) := by
  unfold execBridgeZeroingComplete
  refine outKeeps_next ?_
  split <;> exact SlotsStill.keeps (by simp [SlotsStill])

theorem advanceTo_keeps (s : State) (n : Nat) : Keeps s (s.advanceTo n) := Still.keeps (by simp [Still])

theorem advancePtp_keeps (s : State) (n : Nat) : Keeps s (s.advancePtp n) := Still.keeps (by simp [Still])

theorem setSlot_keeps (s : State) (i : Nat) (f : Session → Session) : Keeps s (s.setSlot i f) :=
  SlotsStill.keeps (by simp [SlotsStill])

theorem raiseEv_keeps (s : State) (c v o : Nat) (d : List Byte) : Keeps s (s.raiseEv c v o d) :=
  Still.keeps (by simp [Still])

theorem settle_keeps (s : State) : Keeps s s.settle := Still.keeps (by simp [Still])

theorem setMgmt_keeps (s : State) (m : Mgmt) (h : m.slots = s.mgmt.slots) : Keeps s { s with mgmt := m } :=
  ⟨rfl, fun h8 => by rw [h]; exact h8, id, id⟩

theorem endJobs_keeps (s : State) (f : Job → Bool) (r : Final) : Keeps s (s.endJobs f r) :=
  SlotsStill.keeps (by simp [SlotsStill])

theorem execThermalTrip_keeps (die : Die) (temp : BitVec 16) (s : State) : OutKeeps s (execThermalTrip die temp s) :=
  outKeeps_next (keeps_ite (trip_keeps s) (.refl s))

theorem execThermalThrottle_keeps (die : Die) (temp : BitVec 16) (s : State) :
    OutKeeps s (execThermalThrottle die temp s) :=
  outKeeps_next (keeps_ite (.refl s) (sense_keeps s _ _))

theorem execEventRaise_keeps (ev : EventIn) (s : State) : OutKeeps s (execEventRaise ev s) := by
  unfold execEventRaise
  refine outKeeps_next ?_
  split
  · exact .refl s
  · exact keeps_ite (.refl s) (raiseEv_keeps s _ _ _ _)

theorem execHandshakeTimeout_keeps (slot : Fin 8) (s : State) : OutKeeps s (execHandshakeTimeout slot s) :=
  outKeeps_next (keeps_ite ((advanceTo_keeps s _).trans (setSlot_keeps _ _ _)) (.refl s))

theorem setFibre_settle_keeps (s : State) (f : Nat) (g : FibreSt → FibreSt) :
    Keeps s ((s.setFibre f g).settleFibre f) :=
  Still.keeps (by simp [Still])

theorem execPartnerLostTimeout_keeps (fibre : Fibre) (s : State) : OutKeeps s (execPartnerLostTimeout fibre s) :=
  outKeeps_next (keeps_ite ((advanceTo_keeps s _).trans (setFibre_settle_keeps _ _ _)) (.refl s))

theorem execRefclkStop_keeps (s : State) : OutKeeps s (execRefclkStop s) := outKeeps_next (wholeReset_keeps s _ _)

theorem execRailUndervoltage_keeps (s : State) : OutKeeps s (execRailUndervoltage s) :=
  outKeeps_next (wholeReset_keeps s _ _)

theorem execSystemResetAssert_keeps (s : State) : OutKeeps s (execSystemResetAssert s) :=
  outKeeps_next (wholeReset_keeps s _ _)

theorem execPowerOnResetAssert_keeps (s : State) : OutKeeps s (execPowerOnResetAssert s) :=
  outKeeps_next (wholeReset_keeps s _ _)

theorem execExtestExit_keeps (trstLow : Bool) (s : State) : OutKeeps s (execExtestExit trstLow s) :=
  outKeeps_next ((setPins_keeps s _).trans (selectTap_keeps _ _))

theorem execJtagInstruction_keeps (i : JtagInstr) (trstLow : Bool) (s : State) :
    OutKeeps s (execJtagInstruction i trstLow s) := by
  unfold execJtagInstruction
  generalize List.range 256 = fs
  refine outKeeps_next ((setTrst_keeps s trstLow).trans ?_)
  refine keeps_ite (.refl _) (keeps_ite (keeps_ite (.refl _) ?_) (selectTap_keeps _ _))
  exact (setPins_keeps _ _).trans (keeps_foldl (fun u f => Still.keeps (by simp [Still])) _ _)

theorem execGenActivation_keeps (s : State) : OutKeeps s (execGenActivation s) :=
  outKeeps_next (keeps_ite ((keeps_ite (.refl s) (advancePtp_keeps s _)).trans (activate_keeps _)) (.refl s))

theorem execWatchdogExpiry_keeps (engine : Fin 4) (s : State) : OutKeeps s (execWatchdogExpiry engine s) :=
  outKeeps_next (keeps_ite (.refl s)
    (((bump_keeps s _ _).trans (raiseEv_keeps _ _ _ _ _)).trans (enterReset_keeps _ _ _)))

theorem endResets_keeps (s : State) (fid : Nat) : Keeps s (s.endResets fid) := SlotsStill.keeps (by simp [SlotsStill])

theorem execFuncResetEnd_keeps (func : BitVec 12) (s : State) : OutKeeps s (execFuncResetEnd func s) :=
  outKeeps_next (keeps_ite (((leaveReset_keeps s _).trans (endJobs_keeps _ _ _)).trans (endResets_keeps _ _))
      (.refl s))

theorem execSessionClose_keeps (iss : Issuer) (s : State) : OutKeeps s (execSessionClose iss s) :=
  outKeeps_next (hostCmdThen_keeps (fun _ u => .refl u) (fun i u => SlotsStill.keeps (by simp [SlotsStill])) _ s)

theorem execDevIdentify_keeps (iss : Issuer) (s : State) : OutKeeps s (execDevIdentify iss s) :=
  outKeeps_next (keeps_ite (zeroCmd_keeps (fun _ u => .refl u) _ s) (hostCmd_keeps (fun _ u => .refl u) _ s))

theorem execCellLookup_keeps (tile : Tile) (s : State) : OutKeeps s (execCellLookup tile s) := by
  unfold execCellLookup
  refine outKeeps_next ?_
  extract_lets t
  split
  · exact .refl s
  · extract_lets c table u
    have hu : Still s u := by simp [u, Still]
    clear_value u
    refine (Still.keeps hu).trans ?_
    refine keeps_ite (lookupOrd_keeps _ _ _ _) (keeps_ite (lookupFabric_keeps _ _ _) ?_)
    exact keeps_ite (onward_keeps _ _ _) (keeps_ite (onward_keeps _ _ _) (onward_keeps _ _ _))

theorem setBoot_resetDue_keeps (s : State) (b : Boot) : Keeps s { s with boot := b } := setBoot_keeps s b

theorem execDeviceReset_keeps (iss : Issuer) (s : State) : OutKeeps s (execDeviceReset iss s) :=
  outKeeps_next (hostCmd_keeps (fun _ u => setBoot_keeps u _) _ s)

theorem startBoot_keeps (s : State) (n : Nat) : Keeps s (s.startBoot n) := Still.keeps (by simp [Still])

theorem execResetDelayExpiry_keeps (s : State) : OutKeeps s (execResetDelayExpiry s) := by
  unfold execResetDelayExpiry
  refine outKeeps_next ?_
  split
  · exact .refl s
  next due what rest _ =>
    extract_lets u b v
    have hv : Keeps s v := (advanceTo_keeps s due).trans (setBoot_keeps _ _)
    clear_value v
    refine hv.trans ?_
    split
    · exact keeps_ite (.refl _) (enterReset_keeps _ _ _)
    · exact (wholeReset_keeps _ _ _).trans (startBoot_keeps _ _)

theorem bootRecords_keeps (s : State) (ks : List Nat) (rs : List TestRecord) : Keeps s (s.bootRecords ks rs) :=
  CoreStill.keeps (by simp [CoreStill])

theorem bootBuffers_keeps (s : State) : Keeps s s.bootBuffers := Still.keeps (by simp [Still])

theorem bootRings_keeps (s : State) (rep : BootReport) : Keeps s (s.bootRings rep) := Still.keeps (by simp [Still])

theorem bootDone_keeps (s : State) (ms : Nat) : Keeps s (s.bootDone ms) := Still.keeps (by simp [Still])

theorem execBootStepEnd_keeps (rep : BootReport) (s : State) : OutKeeps s (execBootStepEnd rep s) := by
  unfold execBootStepEnd
  refine outKeeps_next ?_
  split
  next n _ =>
    extract_lets u
    have hu : Keeps s u := advanceTo_keeps s _
    clear_value u
    refine hu.trans ?_
    split
    · exact bootTo_keeps u _
    · exact bootRom_keeps u _
    · exact ((bootJoins_keeps u rep).trans (bootRecords_keeps _ _ _)).trans
        (keeps_ite (setBoot_keeps _ _) (bootTo_keeps _ _))
    · exact bootBist_keeps u _
    · exact (bootBuffers_keeps u).trans (bootTo_keeps _ _)
    · exact (bootRings_keeps u _).trans (bootTo_keeps _ _)
    · exact bootDone_keeps u _
  · exact .refl s

theorem setFn_keeps (s : State) (fid : Nat) (f : FnState → FnState) : Keeps s (s.setFn fid f) :=
  Still.keeps (by simp [Still])

theorem sign_keeps (s : State) (bs : List Byte) : Keeps s (s.sign bs).2 := Still.keeps (by simp [Still])

theorem setGen_keeps (s : State) (g : Gen) (h0 : g.bank0 = s.gen.bank0) (h1 : g.bank1 = s.gen.bank1) :
    Keeps s { s with gen := g } := ⟨rfl, id, fun h => by simpa only [State.oneActive, h0, h1] using h, id⟩

theorem bank_other_st {s : State} (h : s.oneActive) : (s.gen.bank (1 - s.gen.act)).st ≠ .active := by
  unfold State.oneActive at h
  unfold Gen.act Gen.bank
  by_cases h0 : s.gen.bank0.st = .active
  · simpa [h0] using h
  · simp [h0]

/-- The bank that is not ACTIVE may be given any state but that one. -/
theorem setBank_other_keeps {s : State} {b : Bank} (hb : b.st ≠ .active) :
    Keeps s { s with gen := s.gen.setBank (1 - s.gen.act) b } := by
  refine ⟨rfl, id, fun h => ?_, id⟩
  unfold State.oneActive at h ⊢
  have act : s.gen.act = if s.gen.bank0.st = .active then 0 else 1 := rfl
  by_cases h0 : s.gen.bank0.st = .active
  · rw [if_pos h0] at act
    simp [act, Gen.setBank, h0, hb]
  · rw [if_neg h0] at act
    simp [act, Gen.setBank, hb]
    by_contra h1
    exact h0 (h.mpr h1)

theorem execGenAbandon_keeps (iss : Issuer) (s : State) : OutKeeps s (execGenAbandon iss s) := by
  unfold execGenAbandon
  refine outKeeps_next (hostCmd_keeps (fun i u => ?_) _ s)
  extract_lets n b ended
  have hended {v : State} (h : Keeps u v) : Keeps u (ended v) := h.trans (endJobs_keeps v _ _)
  clear_value ended
  split
  · exact hended (setGen_keeps u _ rfl rfl)
  · split
    · exact hended (setBank_other_keeps BankState.noConfusion)
    · exact .refl u

theorem execAttest_keeps (iss : Issuer) (nonce : BitVec 256) (s : State) : OutKeeps s (execAttest iss nonce s) :=
  outKeeps_next (hostCmd_keeps (fun _ u => (sign_keeps u _).trans (bump_keeps _ _ _)) _ s)

theorem execLightLossDetect_keeps (target : LossTarget) (s : State) : OutKeeps s (execLightLossDetect target s) := by
  unfold execLightLossDetect
  refine outKeeps_next ?_
  split
  · exact keeps_ite (.refl s) (CoreStill.keeps (by simp [CoreStill]))
  · exact CoreStill.keeps (by simp [CoreStill])

theorem setObj_keeps (s : State) (h : Nat) (o : Obj) : Keeps s (s.setObj h o) := Still.keeps (by simp [Still])

theorem sendBytes_keeps (s : State) (b : Nat) (up : Bool) (k n : Nat) : Keeps s (s.sendBytes b up k n) :=
  Still.keeps (by simp [Still])

theorem execObjClose_keeps (iss : Issuer) (handle rsv : BitVec 16) (digest : BitVec 384) (s : State) :
    OutKeeps s (execObjClose iss handle rsv digest s) :=
  outKeeps_next (hostCmd_keeps (fun _ u => onObject_keeps _ _ _ u _ fun _ => setObj_keeps u _ _) _ s)

theorem execObjWrite_keeps (iss : Issuer) (handle rsv : BitVec 16) (offset : BitVec 32) (rsv2 : BitVec 128)
    (data : List Byte) (s : State) : OutKeeps s (execObjWrite iss handle rsv offset rsv2 data s) :=
  outKeeps_next (hostCmd_keeps (fun _ u => onObject_keeps _ _ _ u _ fun _ =>
    (setObj_keeps u _ _).trans (sendBytes_keeps _ _ _ _ _)) _ s)

theorem setObjs_keeps (s : State) (o : Objects) : Keeps s { s with objs := o } := Still.keeps (by simp [Still])

theorem execObjFree_keeps (iss : Issuer) (handle rsv : BitVec 16) (s : State) :
    OutKeeps s (execObjFree iss handle rsv s) :=
  outKeeps_next (hostCmd_keeps (fun _ u => onObject_keeps _ _ _ u _ fun _ => setObjs_keeps u _) _ s)

theorem readObject_keeps (s : State) (h off n : Nat) (met : List BlockErr) : Keeps s (s.readObject h off n met).2 :=
  Still.keeps (by simp [Still])

theorem execObjRead_keeps (iss : Issuer) (handle rsv : BitVec 16) (offset count : BitVec 32) (met : List BlockErr)
    (s : State) : OutKeeps s (execObjRead iss handle rsv offset count met s) := by
  refine outKeeps_next (hostCmd_keeps (fun _ u => onObject_keeps _ _ _ u _ fun o => ?_) _ s)
  dsimp only
  split
  · exact readObject_keeps u _ _ _ _
  · exact readObject_keeps u _ _ _ _

theorem newObject_keeps {s t : State} {o : Obj} {h : Nat} (e : s.newObject o = some (h, t)) : Keeps s t := by
  unfold State.newObject at e
  split at e
  · cases e
  · obtain ⟨-, rfl⟩ := Prod.mk.inj (Option.some.inj e)
    exact Still.keeps (by simp [Still])

theorem execObjOpen_keeps (iss : Issuer) (type : Byte) (rsv : BitVec 24) (length : BitVec 32) (s : State) :
    OutKeeps s (execObjOpen iss type rsv length s) := by
  refine outKeeps_next (hostCmd_keeps (fun _ u => guardParams_keeps _ ?_) _ s)
  split
  next e => exact newObject_keeps e
  · exact .refl u

theorem execRegWriteList_keeps (iss : Issuer) (pairs : List (Addr × Word)) (enters : Option (Nat × BitVec 12))
    (s : State) :
    OutKeeps s (execRegWriteList iss pairs enters s) := by
  refine outKeeps_next (regWriting_keeps (fun i u => guardParams_keeps _ ?_) _ s)
  split
  · exact .refl u
  · have h := writePairs_keeps u (u.slot i).number enters pairs 0
    generalize u.writePairs (u.slot i).number enters pairs 0 = r at h ⊢
    split
    · exact h
    · exact h

theorem latchOn_keeps (s : State) (r : Reg) (ix : List Nat) :
    Keeps s (s.latchOn r ix) := Still.keeps (by simp [Still])

theorem execRegModify_keeps (iss : Issuer) (addr : Addr) (mask value : Word) (s : State) :
    OutKeeps s (execRegModify iss addr mask value s) :=
  outKeeps_next (regWriting_keeps (fun _ u => atReg_keeps u _ _ fun _ _ =>
    (latchOn_keeps u _ _).trans (writeReg_keeps _ _ _ _ _ _)) _ s)

theorem execSoundConfig_keeps (iss : Issuer) (rsv rate : BitVec 32) (repair : Byte) (rsv2 : BitVec 24) (s : State) :
    OutKeeps s (execSoundConfig iss rsv rate repair rsv2 s) :=
  outKeeps_next (hostCmd_keeps (fun _ u => guardParams_keeps _ (setReg_keeps u _ _ _)) _ s)

theorem setTide_keeps (s : State) (t : Tide) : Keeps s { s with tide := t } := Still.keeps (by simp [Still])

theorem execTideCancel_keeps (iss : Issuer) (s : State) : OutKeeps s (execTideCancel iss s) := by
  refine outKeeps_next (hostCmd_keeps (fun _ u => ?_) _ s)
  split
  · exact .refl u
  · split
    · exact .refl u
    · exact setTide_keeps u _

theorem execTideRead_keeps (iss : Issuer) (flags rsv : Byte) (lane : BitVec 16) (s : State) :
    OutKeeps s (execTideRead iss flags rsv lane s) := by
  refine outKeeps_next (hostCmd_keeps (fun _ u => guardParams_keeps _ ?_) _ s)
  split
  · exact answerObject_keeps _ _ u
  · exact .refl u

theorem execTideLoad_keeps (iss : Issuer) (handle rsv : BitVec 16) (met : List BlockErr) (s : State) :
    OutKeeps s (execTideLoad iss handle rsv met s) := by
  refine outKeeps_next (hostCmd_keeps (fun _ u => withObject_keeps _ _ _ _ _ _ _ _ u fun o => ?_) _ s)
  split
  · exact .refl u
  · refine consuming_keeps _ _ _ u fun v => ?_
    split
    · exact setTide_keeps v _
    · exact setTide_keeps v _

theorem execTblWrite_keeps (iss : Issuer) (qmask table flags rsv : Byte) (index : BitVec 32) (image : BitVec 256)
    (s : State) : OutKeeps s (execTblWrite iss qmask table flags rsv index image s) :=
  outKeeps_next (hostCmd_keeps (fun _ u => guardParams_keeps _ (guardUp_keeps _ (guardTable_keeps _ _ _ _ _ _
    (tables_keeps u _ (tablesWrite_wf _ _ _ _ _ _))))) _ s)

theorem execTblInvalidate_keeps (iss : Issuer) (qmask table flags rsv : Byte) (index : BitVec 32) (s : State) :
    OutKeeps s (execTblInvalidate iss qmask table flags rsv index s) :=
  outKeeps_next (hostCmd_keeps (fun _ u => guardParams_keeps _ (guardUp_keeps _ (guardTable_keeps _ _ _ _ _ _
    (tables_keeps u _ (tablesWrite_wf _ _ _ _ _ _))))) _ s)

theorem execTblMove_keeps (iss : Issuer) (qmask table flags rsv : Byte) (src dst count : BitVec 32) (s : State) :
    OutKeeps s (execTblMove iss qmask table flags rsv src dst count s) :=
  outKeeps_next (hostCmd_keeps (fun _ u => guardParams_keeps _ (guardUp_keeps _ (guardTable_keeps _ _ _ _ _ _
    (tables_keeps u _ (tablesMove_wf _ _ _ _ _ _))))) _ s)

theorem execTblBulkRead_keeps (iss : Issuer) (quad table flags rsv : Byte) (first count : BitVec 32) (s : State) :
    OutKeeps s (execTblBulkRead iss quad table flags rsv first count s) :=
  outKeeps_next (hostCmd_keeps (fun _ u => guardParams_keeps _ (guardUp_keeps _ (answerObject_keeps _ _ u))) _ s)

theorem execDiscoveryRead_keeps (iss : Issuer) (fibre count : BitVec 16) (flags : Byte) (rsv : BitVec 24)
    (s : State) :
    OutKeeps s (execDiscoveryRead iss fibre count flags rsv s) := by
  refine outKeeps_next (hostCmd_keeps (fun _ u => guardParams_keeps _ ?_) _ s)
  extract_lets bs
  split
  · exact answerObject_keeps _ _ u
  · exact .refl u

theorem execTelCounterRead_keeps (iss : Issuer) (set flags : Byte) (count : BitVec 16) (first : BitVec 32)
    (s : State) :
    OutKeeps s (execTelCounterRead iss set flags count first s) := by
  refine outKeeps_next (hostCmd_keeps (fun _ u => guardParams_keeps _ (guardUp_keeps _ ?_)) _ s)
  split
  · exact .refl u
  · extract_lets bytes
    split
    · exact answerObject_keeps _ _ u
    · exact .refl u

theorem execCmdPoll_keeps (iss : Issuer) (tag : BitVec 32) (s : State) : OutKeeps s (execCmdPoll iss tag s) := by
  refine outKeeps_next (arrivalCmd_keeps (fun _ u => ?_) _ s)
  extract_lets x
  split
  · exact .refl u
  · split <;> exact .refl u

theorem execCmdCancel_keeps (iss : Issuer) (tag : BitVec 32) (s : State) : OutKeeps s (execCmdCancel iss tag s) := by
  refine outKeeps_next (arrivalCmd_keeps (fun _ u => ?_) _ s)
  split
  · split
    · exact setSlot_keeps u _ _
    · exact .refl u
  · exact .refl u

theorem execCtxAbort_keeps (iss : Issuer) (ctx : BitVec 32) (s : State) : OutKeeps s (execCtxAbort iss ctx s) := by
  refine outKeeps_next (hostCmd_keeps (fun _ u => ?_) _ s)
  split
  · exact .refl u
  · split
    · exact .refl u
    · exact Still.keeps (by simp [Still])

theorem endCtx_keeps (s : State) (x : Nat) (st : CtxState) (c d : Nat) : Keeps s (s.endCtx x st c d) :=
  Still.keeps (by simp [Still])

theorem judgeDestroys_keeps (s : State) : Keeps s s.judgeDestroys := SlotsStill.keeps (by simp [SlotsStill])

theorem setEst_keeps (s : State) (e : Est) : Keeps s { s with est := e } := Still.keeps (by simp [Still])

theorem setBwk_keeps (s : State) (b : Bwk) : Keeps s { s with bwk := b } := Still.keeps (by simp [Still])

theorem execGroupDestroy_keeps (iss : Issuer) (group rsv : BitVec 16) (s : State) :
    OutKeeps s (execGroupDestroy iss group rsv s) := by
  refine outKeeps_next (Keeps.trans (hostCmd_keeps (fun _ u => guardParams_keeps _ ?_) _ s) (judgeDestroys_keeps _))
  split
  · exact .refl u
  · exact (keeps_foldl (fun v x => endCtx_keeps v _ _ _ _) u _).trans (setEst_keeps _ _)

theorem execBwkGroupDestroy_keeps (iss : Issuer) (group rsv : BitVec 16) (s : State) :
    OutKeeps s (execBwkGroupDestroy iss group rsv s) := by
  refine outKeeps_next (Keeps.trans (hostCmd_keeps (fun _ u => guardParams_keeps _ (guardUp_keeps _ ?_)) _ s)
    (judgeDestroys_keeps _))
  split
  · exact .refl u
  · exact (keeps_foldl (fun v x => endCtx_keeps v _ _ _ _) u _).trans (setBwk_keeps _ _)

theorem setBist_keeps (s : State) (b : Bist) : Keeps s { s with bist := b } := CoreStill.keeps (by simp [CoreStill])

theorem settleRecords_keeps (s : State) (a : Bool) (rs : List TestRecord) : Keeps s (s.settleRecords a rs).2 :=
  CoreStill.keeps (by simp [CoreStill])

theorem retrainLink_keeps (s : State) (l : Nat) (full : Bool) : Keeps s (s.retrainLink l full) :=
  Still.keeps (by simp [Still])

theorem resetRegs_keeps (s : State) (fid : Nat) : Keeps s (s.resetRegs fid) := Still.keeps (by simp [Still])

theorem execTestEnd_keeps (entry : Fin 2) (faults : List TestRecord) (durationUs : BitVec 32) (s : State) :
    OutKeeps s (execTestEnd entry faults durationUs s) := by
  unfold execTestEnd
  refine outKeeps_next ?_
  split
  · exact .refl s
  next run _ =>
    refine keeps_ite (.refl s) ?_
    extract_lets fid u
    have hu : Keeps s u := advanceTo_keeps s _
    clear_value u
    have hr : Keeps u (u.settleRecords run.auto (testRecords fid run.kinds faults)).2 := settleRecords_keeps u _ _
    generalize u.settleRecords run.auto (testRecords fid run.kinds faults) = p at hr ⊢
    obtain ⟨rs, v⟩ := p
    refine hu.trans (hr.trans (Keeps.trans (Keeps.trans ?_ (keeps_ite (retrainLink_keeps _ _ _) (.refl _)))
      (endJobs_keeps _ _ _)))
    split
    · exact ((((bump_keeps v _ _).trans (keeps_ite (.refl _) (bump_keeps _ _ _))).trans (setBist_keeps _ _)).trans
        (resetRegs_keeps _ _)).trans (holdFailed_keeps _ _ _)
    · exact (((bump_keeps v _ _).trans (keeps_ite (.refl _) (bump_keeps _ _ _))).trans (setBist_keeps _ _)).trans
        (leaveReset_keeps _ _)

theorem setLink_keeps (s : State) (l : Nat) (f : LinkSt → LinkSt) :
    Keeps s (s.setLink l f) := Still.keeps (by simp [Still])

theorem raiseLink_keeps (s : State) (l m : Nat) : Keeps s (s.raiseLink l m) := Still.keeps (by simp [Still])

theorem execWidthRecordReceive_keeps (l : D2dLink) (rec : WidthRecord) (s : State) :
    OutKeeps s (execWidthRecordReceive l rec s) := by
  unfold execWidthRecordReceive
  refine outKeeps_next ?_
  refine keeps_ite (.refl s) (keeps_ite ?_ (keeps_ite ?_ (.refl s)))
  · exact keeps_ite (failLink_keeps s _) (keeps_ite (retrainLink_keeps s _ _) (setLink_keeps s _ _))
  · exact keeps_ite (raiseLink_keeps s _ _) (setLink_keeps s _ _)

theorem setPort_keeps (s : State) (p : Nat) (f : PortSt → PortSt) :
    Keeps s (s.setPort p f) := Still.keeps (by simp [Still])

theorem setLane_keeps (s : State) (l : Nat) (f : LaneSt → LaneSt) :
    Keeps s (s.setLane l f) := Still.keeps (by simp [Still])

theorem linkFields_keeps (s : State) (l p : Nat) (k : LinkCell) :
    Keeps s (s.linkFields l p k) := Still.keeps (by simp [Still])

theorem retrain_keeps (s : State) (p why : Nat) : Keeps s (s.retrain p why) := Still.keeps (by simp [Still])

theorem sequenced_keeps (s : State) (p : Nat) (f : Flit) : Keeps s (s.sequenced p f) := Still.keeps (by simp [Still])

theorem execFlitReceive_keeps (lane : Lane) (flit : Flit) (fecOk : Bool) (s : State) :
    OutKeeps s (execFlitReceive lane flit fecOk s) := by
  unfold execFlitReceive
  split
  · exact outKeeps_fault s _
  · refine outKeeps_next ?_
    refine keeps_ite (.refl s) (keeps_ite ?_ ?_)
    · exact ((setLane_keeps s _ _).trans (bump_keeps _ _ _)).trans (setPort_keeps _ _ _)
    · exact ((linkFields_keeps s _ _ _).trans
        (keeps_ite ((bump_keeps _ _ _).trans (setPort_keeps _ _ _)) (.refl _))).trans
        (keeps_ite (retrain_keeps _ _ _) (keeps_ite (sequenced_keeps _ _ _) (.refl _)))

theorem execLandedCellRejudge_keeps (tile : Tile) (s : State) : OutKeeps s (execLandedCellRejudge tile s) := by
  unfold execLandedCellRejudge
  refine outKeeps_next (Still.keeps ?_)
  exact foldl_fst_still (fun u n q => by simp [Still]) s _ _

theorem complete_keeps (s : State) (i : Nat) (e : CmdEntry) (f : Final) : Keeps s (s.complete i e f) :=
  SlotsStill.keeps (by simp [SlotsStill])

theorem firmwareFault_keeps (s : State) (j : Job) : Keeps s (s.firmwareFault j) := Still.keeps (by simp [Still])

theorem internalFault_keeps (s : State) (n op code applied : Nat) : Keeps s (s.internalFault n op code applied) :=
  Still.keeps (by simp [Still])

theorem execCommandComplete_keeps (session : BitVec 16) (tag : BitVec 32) (fw : FwEnd) (s : State) :
    OutKeeps s (execCommandComplete session tag fw s) := by
  unfold execCommandComplete
  refine outKeeps_next ?_
  split
  · exact .refl s
  · split
    · exact .refl s
    · split
      · exact complete_keeps s _ _ _
      · refine keeps_ite ?_ (.refl s)
        exact ((firmwareFault_keeps s _).trans (internalFault_keeps _ _ _ _ _)).trans (complete_keeps _ _ _ _)
      · split
        next h => exact (firmwareEnd_keeps h).trans (complete_keeps _ _ _ _)
        · exact .refl s
      · split
        next h => exact (firmwareEnd_keeps h).trans (complete_keeps _ _ _ _)
        · exact .refl s

theorem setSwl_keeps (s : State) (w : Swl) : Keeps s { s with swl := w } := CoreStill.keeps (by simp [CoreStill])

theorem execSwlCalibrationExpiry_keeps (engine : Engine) (halfSpent : Bool) (s : State) :
    OutKeeps s (execSwlCalibrationExpiry engine halfSpent s) := by
  unfold execSwlCalibrationExpiry
  refine outKeeps_next ?_
  extract_lets e
  split
  · exact .refl s
  next k _ =>
    exact ((keeps_ite (.refl s) (advanceTo_keeps s _)).trans (keeps_ite (.refl _) (setSwl_keeps _ _))).trans
      (keeps_ite (setSwl_keeps _ _) (.refl _))

/-- Entries that are aged stay in canonical form. -/
theorem AMap.wfFrom_filterMap {α : Type} (m : AMap α) (f : Nat × α → Option (Nat × α))
    (hf : ∀ e e', f e = some e' → e'.1 = e.1) (lo : Nat) (h : m.wfFrom lo = true) :
    AMap.wfFrom (m.filterMap f) lo = true := by
  induction m generalizing lo with
  | nil => rfl
  | cons e m ih =>
    obtain ⟨a, v⟩ := e
    simp only [AMap.wfFrom, Bool.and_eq_true, decide_eq_true_eq] at h
    have ih := ih (a + 1) h.2
    rw [List.filterMap_cons]
    split
    · exact AMap.wfFrom_mono _ (by omega) ih
    next e' he =>
      obtain ⟨b, w⟩ := e'
      have hb : b = a := hf _ _ he
      simp [AMap.wfFrom, hb, h.1, ih]

theorem every_keeps (s : State) (k : Periodic) (i p : Nat) : Keeps s (s.every k i p) := Still.keeps (by simp [Still])

theorem execMacAgeSweep_keeps (quad : Quad) (s : State) : OutKeeps s (execMacAgeSweep quad s) := by
  unfold execMacAgeSweep
  refine outKeeps_next (keeps_ite (.refl s) ?_)
  extract_lets u swept
  have hu : Keeps s u := every_keeps s _ _ _
  refine hu.trans (tables_keeps u _ fun h => AMap.wfFrom_filterMap _ _ (fun e e' he => ?_) 0 h)
  split at he
  · split at he
    · obtain rfl := Option.some.inj he
      rfl
    · cases he
  · obtain rfl := Option.some.inj he
    rfl

theorem putCtx_keeps (s : State) (x : Nat) (c : Ctx) : Keeps s (s.putCtx x c) := Still.keeps (by simp [Still])

theorem execLingerExpiry_keeps (ctx : CtxNum) (s : State) : OutKeeps s (execLingerExpiry ctx s) := by
  unfold execLingerExpiry
  refine outKeeps_next ?_
  split
  · exact .refl s
  · exact keeps_ite (((advanceTo_keeps s _).trans (putCtx_keeps _ _ _)).trans (judgeDestroys_keeps _)) (.refl s)

theorem execFuncReset_keeps (iss : Issuer) (func : BitVec 16) (flags rsv : Byte) (s : State) :
    OutKeeps s (execFuncReset iss func flags rsv s) := by
  refine outKeeps_next (hostCmd_keeps (fun i u => ?_) _ s)
  extract_lets fid f hold release
  refine guardParams_keeps _ ?_
  split
  · exact .refl u
  · split
    · exact setBoot_keeps u _
    · split
      · exact setFn_keeps u _ _
      · exact keeps_ite (setFn_keeps u _ _) (enterReset_keeps u _ _)

theorem execTestRun_keeps (iss : Issuer) (func : BitVec 16) (kinds flags : Byte) (s : State) :
    OutKeeps s (execTestRun iss func kinds flags s) := by
  refine outKeeps_next (hostCmd_keeps (fun i u => ?_) _ s)
  extract_lets fid
  refine guardParams_keeps _ ?_
  split
  · exact .refl u
  · split
    · exact .refl u
    · split
      · exact .refl u
      · exact (((setBist_keeps u _).trans (setFn_keeps _ _ _)).trans (fnDownEffects_keeps _ _)).trans
          (keeps_ite (retrainLink_keeps _ _ _) (.refl _))

theorem execTideWindowBoundary_keeps (port : Lane) (s : State) : OutKeeps s (execTideWindowBoundary port s) := by
  unfold execTideWindowBoundary
  refine outKeeps_next ?_
  split
  · exact .refl s
  · split
    · exact .refl s
    · exact advancePtp_keeps s _

theorem bulk_wf {k t : Tables} {qm tb i : Nat} {sh : Bool} {imgs : List EntryImage}
    (h : k.bulk qm tb sh i imgs = some t) (hk : k.entries.wf = true) : t.entries.wf = true := by
  induction imgs generalizing k i with
  | nil =>
    obtain rfl := Option.some.inj h
    exact hk
  | cons img rest ih =>
    rw [Tables.bulk.eq_def] at h
    dsimp only at h
    split at h
    · exact ih h (tablesWrite_wf _ _ _ _ _ _ hk)
    · cases h

theorem execTblBulkWrite_keeps (iss : Issuer) (qmask table flags rsv : Byte) (handle rsv2 : BitVec 16)
    (first count : BitVec 32) (met : List BlockErr) (s : State) :
    OutKeeps s (execTblBulkWrite iss qmask table flags rsv handle rsv2 first count met s) := by
  refine outKeeps_next (hostCmd_keeps (fun i u => ?_) _ s)
  extract_lets tb lo n
  refine withObject_keeps _ _ _ _ _ _ _ _ u fun o => guardTable_keeps _ _ _ _ _ _ (consuming_keeps _ _ _ u fun v => ?_)
  split
  next t ht => exact tables_keeps v t (bulk_wf ht)
  · exact .refl v

theorem testRes_keeps (s : State) (n : Nat) : Keeps s (s.testRes n).2 := Still.keeps (by simp [Still])

theorem execTestResult_keeps (iss : Issuer) (test first count rsv : BitVec 16) (s : State) :
    OutKeeps s (execTestResult iss test first count rsv s) := by
  refine outKeeps_next (hostCmd_keeps (fun i u => ?_) _ s)
  have h := testRes_keeps u test.toNat
  generalize u.testRes test.toNat = r at h ⊢
  split
  · exact h
  · exact guardParams_keeps _ h

theorem execFwUpdate_keeps (iss : Issuer) (handle rsv : BitVec 16) (met : List BlockErr) (s : State) :
    OutKeeps s (execFwUpdate iss handle rsv met s) := by
  refine outKeeps_next (hostCmd_keeps (fun i u => withObject_keeps _ _ _ _ _ _ _ _ u fun o => ?_) _ s)
  split
  · exact .refl u
  · refine consuming_keeps _ _ _ u fun v => ?_
    extract_lets x fault
    split
    · exact .refl v
    · split
      · exact .refl v
      · exact setImage_keeps v _ _

theorem adoptPlan_keeps (s : State) (p : Plan) : Keeps s (s.adoptPlan p) := SlotsStill.keeps (by simp [SlotsStill])

theorem execPlanLoad_keeps (iss : Issuer) (handle rsv : BitVec 16) (met : List BlockErr) (s : State) :
    OutKeeps s (execPlanLoad iss handle rsv met s) := by
  refine outKeeps_next (hostCmd_keeps (fun i u => withObject_keeps _ _ _ _ _ _ _ _ u fun o => ?_) _ s)
  refine consuming_keeps _ _ _ u fun v => ?_
  split
  · exact .refl v
  · exact adoptPlan_keeps v _

theorem place_keeps (s : State) (t : Nat) (q : QCell) : Keeps s (s.place t q).2 := Still.keeps (by simp [Still])

theorem setTile_keeps (s : State) (t : Nat) (f : TileSt → TileSt) :
    Keeps s (s.setTile t f) := Still.keeps (by simp [Still])

theorem handOver_keeps (s : State) (q : QCell) : Keeps s (s.handOver q) := Still.keeps (by simp [Still])

theorem refuseCell_keeps (s : State) (t : Nat) (q : QCell) :
    Keeps s (s.refuseCell t q) := Still.keeps (by simp [Still])

theorem ageCell_keeps (s : State) (t : Nat) (q : QCell) : Keeps s (s.ageCell t q) := Still.keeps (by simp [Still])

theorem credit_keeps (s : State) (q : QCell) : Keeps s (s.credit q) := Still.keeps (by simp [Still])

theorem dropCell_keeps (s : State) (q : QCell) : Keeps s (s.dropCell q) := Still.keeps (by simp [Still])

theorem restShares_keeps (s : State) (t : Nat) : Keeps s (s.restShares t) := Still.keeps (by simp [Still])

theorem execCellAdmission_keeps (tile : Tile) (s : State) : OutKeeps s (execCellAdmission tile s) := by
  unfold execCellAdmission
  refine outKeeps_next ?_
  extract_lets t
  split
  · exact .refl s
  next q rest _ =>
    extract_lets u r
    have hu : Keeps s u := setTile_keeps s _ _
    clear_value u r
    refine hu.trans ?_
    refine keeps_ite ((credit_keeps u r).trans (dropCell_keeps _ _)) (keeps_ite ?_ (keeps_ite ?_ (keeps_ite ?_ ?_)))
    · exact ((((bump_keeps u _ _).trans (credit_keeps _ _)).trans (dropCell_keeps _ _)).trans (handOver_keeps _ _)).trans
        (settle_keeps _)
    · exact (ageCell_keeps u _ _).trans (credit_keeps _ _)
    · exact refuseCell_keeps u _ _
    · have hp := place_keeps u t r
      generalize u.place t r = p at hp ⊢
      split
      · exact (hp.trans (handOver_keeps _ _)).trans (settle_keeps _)
      · exact hp.trans (refuseCell_keeps _ _ _)

theorem nextHeld_keeps (s : State) (t : Nat) : Keeps s (s.nextHeld t).2 := Still.keeps (by simp [Still])

theorem execGeneratedCellReoffer_keeps (tile : Tile) (s : State) : OutKeeps s (execGeneratedCellReoffer tile s) := by
  unfold execGeneratedCellReoffer
  refine outKeeps_next ?_
  extract_lets t
  have hn := nextHeld_keeps s t
  generalize s.nextHeld t = n at hn ⊢
  split
  · exact .refl s
  next q u =>
    extract_lets out r
    have hout (v : State) : Keeps v (out v) := (setTile_keeps v _ _).trans (restShares_keeps _ _)
    clear_value out r
    refine keeps_ite ?_ (keeps_ite ?_ ?_)
    · exact (((hout s).trans (ageCell_keeps _ _ _)).trans (handOver_keeps _ _)).trans (settle_keeps _)
    · exact ((((hout s).trans (bump_keeps _ _ _)).trans (dropCell_keeps _ _)).trans (handOver_keeps _ _)).trans
        (settle_keeps _)
    · have hp := place_keeps u t r
      generalize u.place t r = p at hp ⊢
      split
      next v =>
        exact (((hn.trans hp).trans (hout v)).trans (handOver_keeps _ _)).trans (settle_keeps _)
      · exact .refl s

theorem execResendReceive_keeps (tile : Tile) (met : List BlockErr) (s : State) :
    OutKeeps s (execResendReceive tile met s) := by
  refine outKeeps_next (keeps_ite (.refl s) (Still.keeps (serveCtrl_still s _ _ fun q u => ?_)))
  split <;> simp [Still]

theorem drawFree_keeps (s : State) : Keeps s s.drawFree.2 := Still.keeps (by simp [Still])

theorem softRepair_keeps (s : State) (r : Repair) : Keeps s (s.softRepair r) := CoreStill.keeps (by simp [CoreStill])

theorem execRepairApply_keeps (iss : Issuer) (kind flags : Byte) (func inst bit : BitVec 16) (addr : BitVec 32)
    (s : State) :
    OutKeeps s (execRepairApply iss kind flags func inst bit addr s) := by
  refine outKeeps_next (hostCmd_keeps (fun i u => ?_) _ s)
  extract_lets fid cls perm first row r
  split
  · refine guardParams_keeps _ (guardUp_keeps _ ?_)
    have hd := drawFree_keeps u
    generalize u.drawFree = d at hd ⊢
    obtain ⟨v, w⟩ := d
    dsimp only at hd ⊢
    split
    · exact hd
    · exact (hd.trans (bump_keeps _ _ _)).trans (keeps_ite (fuseRepair_keeps _ _) (setBist_keeps _ _))
  · refine guardParams_keeps _ ?_
    split
    · exact .refl u
    · split
      · exact .refl u
      · split
        · exact .refl u
        · split
          · exact .refl u
          · exact (softRepair_keeps u _).trans
              (keeps_ite ((fuseRepair_keeps _ _).trans (bump_keeps _ _ _)) (.refl _))

theorem execTriggerRead_keeps (iss : Issuer) (kind rsv : Byte) (count : BitVec 16) (first : BitVec 32) (s : State) :
    OutKeeps s (execTriggerRead iss kind rsv count first s) := by
  refine outKeeps_next (hostCmd_keeps (fun i u => ?_) _ s)
  extract_lets k n
  refine guardParams_keeps _ ?_
  split
  · exact .refl u
  · exact Still.keeps (foldl_snd_still (fun a v i => by simp [Still]) _ u _)

theorem setTel_keeps (s : State) (t : Tel) : Keeps s { s with tel := t } := Still.keeps (by simp [Still])

theorem moveLog_keeps (s : State) (up : Bool) (e : LogEvent) :
    Keeps s (s.moveLog up e) := Still.keeps (by simp [Still])

theorem meet_keeps (s : State) (k n : Nat) (f : BlockErr → Nat) (met : List BlockErr) : Keeps s (s.meet k n f met) :=
  Still.keeps (by simp [Still])

theorem gapLog_keeps (s : State) (bad : List Nat) : Keeps s (s.gapLog bad) := Still.keeps (by simp [Still])

theorem execLogRead_keeps (iss : Issuer) (flags minSev : Byte) (rsv : BitVec 16) (count : BitVec 32)
    (first : BitVec 64)
    (met : List BlockErr) (s : State) : OutKeeps s (execLogRead iss flags minSev rsv count first met s) := by
  refine outKeeps_next (hostCmd_keeps (fun i u => ?_) _ s)
  extract_lets consume object most
  refine guardParams_keeps _ (guardUp_keeps _ ?_)
  extract_lets
  rename_i from_ all got n v bad w got' next recs used
  have hused (t : State) : Keeps t (used t) := setTel_keeps t _
  have hv : Keeps u v := (keeps_foldl (fun t e => moveLog_keeps t _ _) u _).trans (meet_keeps _ _ _ _ _)
  clear_value v
  have hw : Keeps v w := gapLog_keeps v _
  clear_value w
  refine (hv.trans hw).trans ?_
  have hd : Keeps w (if recs.length < 65536 then (BitVec.ofNat 64 recs.length, w) else w.drawFree).2 := by
    split
    · exact .refl w
    · exact drawFree_keeps w
  generalize (if recs.length < 65536 then (BitVec.ofNat 64 recs.length, w) else w.drawFree) = p at hd ⊢
  obtain ⟨a, x⟩ := p
  dsimp only at hd ⊢
  refine hd.trans ?_
  split
  · have ha := answerObject_keeps (x.slot i).number (beBytes 2 a.toNat ++ [0, 0, 0, 0, 0, 0] ++ beBytes 8 next ++ recs.flatten) x
    generalize answerObject (x.slot i).number (beBytes 2 a.toNat ++ [0, 0, 0, 0, 0, 0] ++ beBytes 8 next ++ recs.flatten) x = r at ha ⊢
    split
    · exact keeps_ite (ha.trans (hused _)) (.refl x)
    · exact ha
  · exact hused x

theorem execSessionOpen_keeps (iss : Issuer) (x25519 : BitVec 256) (kemKey : BitVec 9472) (nonce : BitVec 256)
    (s : State) :
    OutKeeps s (execSessionOpen iss x25519 kemKey nonce s) := by
  refine outKeeps_next (zeroCmd_keeps (fun _ u => ?_) _ s)
  have free (n : Nat) : Keeps u { u with free := n } := Still.keeps (by simp [Still])
  split
  · exact .refl u
  · split
    · exact .refl u
    · exact ((free _).trans (sign_keeps _ _)).trans ((setSlot_keeps _ _ _).trans (setMgmt_keeps _ _ rfl))

theorem soundRead_keeps (s : State) (a : Nat) (met : List BlockErr) :
    Keeps s (s.soundRead a met) := Still.keeps (by simp [Still])

theorem perSecond_keeps (s : State) (k : Periodic) (i r : Nat) :
    Keeps s (s.perSecond k i r) := Still.keeps (by simp [Still])

theorem writeImage_wf (m : AMap EntryImage) (q tb i : Nat) (img : EntryImage) (h : m.wf = true) :
    (writeImage m q tb i img).wf = true := by
  unfold writeImage
  refine AMap.wf_setD _ _ _ _ ?_
  split
  · exact AMap.wf_del _ _ h
  · exact h

theorem execSoundingVisit_keeps (met : List BlockErr) (s : State) : OutKeeps s (execSoundingVisit met s) := by
  unfold execSoundingVisit
  refine outKeeps_next ?_
  extract_lets pos
  generalize soundEntry pos = p
  obtain ⟨q, tb, i⟩ := p
  dsimp -zeta only
  extract_lets a visits v k w e sh lost rep x k' y
  rename_i rate u fin
  refine keeps_ite (.refl s) ?_
  have hu : Keeps s u := perSecond_keeps s _ _ _
  clear_value u
  have hv : Keeps u v := keeps_ite (soundRead_keeps u _ _) (.refl u)
  clear_value v
  have hw : Keeps v w := setTables_keeps v _ rfl
  clear_value w
  refine hu.trans (hv.trans (hw.trans ?_))
  refine keeps_ite (.refl w) (keeps_ite (keeps_ite (.refl w) (raiseEv_keeps w _ _ _ _)) (keeps_ite (.refl w) ?_))
  have hx : Keeps w x := bump_keeps w _ _
  clear_value x
  have hy : Keeps x y := keeps_ite ((tables_keeps x _ fun h => writeImage_wf _ _ _ _ _ h).trans (bump_keeps _ _ _))
      (.refl x)
  exact hx.trans (hy.trans (raiseEv_keeps y _ _ _ _))

theorem execGenRetire_keeps (s : State) : OutKeeps s (execGenRetire s) := by
  unfold execGenRetire
  refine outKeeps_next ?_
  extract_lets a d b u res v idle
  refine keeps_ite (.refl s) ?_
  have hu : Still s u := by simp [u, Still]
  have hv : SlotsStill u v := by simp [v, SlotsStill]
  have hg : v.gen = s.gen := hv.2.2.1.trans hu.2.2.1
  clear_value v
  refine (Still.keeps hu).trans ((SlotsStill.keeps hv).trans ?_)
  have hd : d = 1 - v.gen.act := by simp only [d, a, hg]
  clear_value d
  subst hd
  have hidle : idle.st ≠ .active := BankState.noConfusion
  split
  · exact setBank_other_keeps hidle
  next q _ =>
    extract_lets w g y
    have hw : Keeps v w := loadBank_keeps v _ _
    have hgw : w.gen = v.gen := rfl
    clear_value w
    have hy : Keeps w y := by
      have hb : Keeps w { w with
          gen := w.gen.setBank (1 - v.gen.act) { idle with st := .armed, t := q.t, immediate := q.immediate } } := by
        rw [← hgw]
        exact setBank_other_keeps BankState.noConfusion
      exact hb.trans (setGen_keeps _ _ rfl rfl)
    refine hw.trans (hy.trans (keeps_ite (activate_keeps y) (keeps_ite ?_ (.refl y))))
    exact ((activate_keeps y).trans (bump_keeps _ _ _)).trans (raiseEv_keeps _ _ _ _ _)

theorem consuming_keeps_of_still (h : BitVec 16) (o : Obj) (met : List BlockErr) (s : State) {k : State → Ans × State}
    (hk : ∀ t, Still s t → Keeps t (k t).2) : Keeps s (consuming h o met s k).2 := by
  unfold consuming
  have hr : Still s (s.readObject h.toNat 0 o.length met).2 := by simp [Still]
  generalize s.readObject h.toNat 0 o.length met = r at hr ⊢
  obtain ⟨bad, u⟩ := r
  dsimp only at hr ⊢
  split
  · exact Still.keeps hr
  · exact (Still.keeps hr).trans (hk u hr)

theorem loadBank_gen (s : State) (b : Nat) (images : List EntryImage) : (s.loadBank b images).gen = s.gen := rfl

theorem execGenActivate_keeps (iss : Issuer) (flags rsv : Byte) (handle : BitVec 16) (t : BitVec 64)
    (met : List BlockErr)
    (s : State) : OutKeeps s (execGenActivate iss flags rsv handle t met s) := by
  refine outKeeps_next (hostCmd_keeps (fun i u => ?_) _ s)
  extract_lets imm img n b at_ before now timeOk held arm busy
  have hheld (v : State) {k : Ans × State} (h : Keeps v k.2) : Keeps v (held v k).2 := by
    simp only [held]
    split
    · exact .refl v
    · exact h
  have harm (v : State) (objs : List Nat) (hv : v.gen = u.gen) : Keeps v (arm v objs).2 := by
    simp only [arm]
    refine Keeps.trans ?_ (keeps_ite (activate_keeps _) (.refl _))
    simp only [n, ← hv]
    exact setBank_other_keeps BankState.noConfusion
  clear_value held arm
  split
  · refine withObject_keeps _ _ _ _ _ _ _ _ u fun o => hheld u ?_
    split
    · exact .refl u
    · refine consuming_keeps_of_still _ _ _ u fun v hv => ?_
      split
      · exact setGen_keeps v _ rfl rfl
      · exact (loadBank_keeps v _ _).trans (harm _ _ ((loadBank_gen v n _).trans hv.2.2.1))
  · refine guardParams_keeps _ (hheld u ?_)
    split
    · exact harm u _ rfl
    · exact .refl u

theorem judgeReply_keeps (s : State) (d : Nat) : Keeps s (s.judgeReply d) := Still.keeps (by simp [Still])

theorem setDie_keeps (s : State) (d : Nat) (f : DieSt → DieSt) :
    Keeps s (s.setDie d f) := Still.keeps (setDie_still s d f)

theorem propose_keeps (s : State) (steps : List (Engine × StepForecast)) (d b : Nat) :
    Keeps s (s.propose steps d b) :=
  Still.keeps (by simp [Still])

theorem setPwr_keeps (s : State) (p : Pwr) : Keeps s { s with pwr := p } := Still.keeps (by simp [Still])

theorem execPowerPeriod_keeps (forecast : List (Die × BitVec 16)) (logic : DieReading) (need : BitVec 16)
    (ratio : Fin 17)
    (steps : List (Engine × StepForecast)) (drivers : List Tile) (s : State) :
    OutKeeps s (execPowerPeriod forecast logic need ratio steps drivers s) := by
  unfold execPowerPeriod
  refine outKeeps_next (keeps_ite (.refl s) (keeps_ite (trip_keeps s) ?_))
  extract_lets s₁ s₂ guarded holds s₃ s₄ power cap plans share short cuttable total budgets above lower was src pwr s₅ s₆
  have h₁ : Keeps s s₁ := (every_keeps s _ _ _).trans (keeps_foldl (fun u d => judgeReply_keeps u d) _ _)
  have h₂ : Keeps s₁ s₂ := keeps_ite (bump_keeps _ _ _) (.refl _)
  have h₃ : Keeps s₂ s₃ := keeps_ite (bump_keeps _ _ _) (.refl _)
  have h₄ : Keeps s₃ s₄ := (sense_keeps _ _ _).trans (setDie_keeps _ _ _)
  have h₅ : Keeps s₄ s₅ := (setPwr_keeps s₄ pwr).trans (keeps_foldl (fun u b => propose_keeps u _ _ _) _ _)
  have h₆ : Keeps s₅ s₆ := keeps_foldl (fun u t => setTile_keeps u _ _) _ _
  have h : Keeps s s₆ := ((((h₁.trans h₂).trans h₃).trans h₄).trans h₅).trans h₆
  exact h.trans (keeps_ite (raiseEv_keeps _ _ _ _ _) (.refl _))

/-- Every command that answers a next state keeps what every step keeps. -/
theorem exec_keeps (c : Instr) (s : State) : OutKeeps s (exec c s) := by
  cases c with
  | powerOnResetAssert => exact execPowerOnResetAssert_keeps _
  | systemResetAssert => exact execSystemResetAssert_keeps _
  | resetRelease pin bistSkip => exact execResetRelease_keeps _ _ _
  | bootStepEnd rep => exact execBootStepEnd_keeps _ _
  | railUndervoltage => exact execRailUndervoltage_keeps _
  | railRecoveryExpiry => exact execRailRecoveryExpiry_keeps _
  | refclkStop => exact execRefclkStop_keeps _
  | thermalTrip die temp => exact execThermalTrip_keeps _ _ _
  | thermalThrottle die temp => exact execThermalThrottle_keeps _ _ _
  | jtagInstruction a0 trstLow => exact execJtagInstruction_keeps _ _ _
  | extestExit trstLow => exact execExtestExit_keeps _ _
  | mgmtFrameReceive f => exact execMgmtFrameReceive_keeps _ _
  | sessionOpen iss x25519 kemKey nonce => exact execSessionOpen_keeps _ _ _ _ _
  | sessionFinish iss session rsv edKey mldsaKey edSig mldsaSig => exact execSessionFinish_keeps _ _ _ _ _ _ _ _
  | sessionClose iss => exact execSessionClose_keeps _ _
  | sessionList iss => exact execSessionList_keeps _ _
  | devIdentify iss => exact execDevIdentify_keeps _ _
  | nop iss params => exact execNop_keeps _ _ _
  | cmdPoll iss tag => exact execCmdPoll_keeps _ _ _
  | cmdCancel iss tag => exact execCmdCancel_keeps _ _ _
  | objOpen iss type rsv length => exact execObjOpen_keeps _ _ _ _ _
  | objWrite iss handle rsv offset rsv2 data => exact execObjWrite_keeps _ _ _ _ _ _ _
  | objClose iss handle rsv digest => exact execObjClose_keeps _ _ _ _ _
  | objRead iss handle rsv offset count met => exact execObjRead_keeps _ _ _ _ _ _ _
  | objFree iss handle rsv => exact execObjFree_keeps _ _ _ _
  | regRead iss addr => exact execRegRead_keeps _ _ _
  | regWrite iss addr value => exact execRegWrite_keeps _ _ _ _
  | regModify iss addr mask value => exact execRegModify_keeps _ _ _ _ _
  | regReadBlock iss first count => exact execRegReadBlock_keeps _ _ _ _
  | regWriteList iss pairs enters => exact execRegWriteList_keeps _ _ _ _
  | rcRegisterRead iss addr sameCycle => exact execRcRegisterRead_keeps _ _ _ _
  | latchingRegisterRead iss addr => exact execLatchingRegisterRead_keeps _ _ _
  | w1cRegisterWrite iss addr value hwSet => exact execW1cRegisterWrite_keeps _ _ _ _ _
  | cmdConfigWrite iss value => exact execCmdConfigWrite_keeps _ _ _
  | tcConfigWrite iss addr value => exact execTcConfigWrite_keeps _ _ _ _
  | tblCmdWriteEntry iss value => exact execTblCmdWriteEntry_keeps _ _ _
  | tblCmdReadEntry iss value => exact execTblCmdReadEntry_keeps _ _ _
  | tblCmdInvalidateEntry iss value => exact execTblCmdInvalidateEntry_keeps _ _ _
  | tblCmdMoveEntries iss value => exact execTblCmdMoveEntries_keeps _ _ _
  | tableOperationComplete => exact execTableOperationComplete_keeps _
  | spolBind iss => exact execSpolBind_keeps _ _
  | spolRead iss => exact execSpolRead_keeps _ _
  | spolUnbind iss => exact execSpolUnbind_keeps _ _
  | spolOperationComplete => exact execSpolOperationComplete_keeps _
  | tblWrite iss qmask table flags rsv index image => exact execTblWrite_keeps _ _ _ _ _ _ _ _
  | tblRead iss quad table flags rsv index => exact execTblRead_keeps _ _ _ _ _ _ _
  | tblInvalidate iss qmask table flags rsv index => exact execTblInvalidate_keeps _ _ _ _ _ _ _
  | tblMove iss qmask table flags rsv src dst count => exact execTblMove_keeps _ _ _ _ _ _ _ _ _
  | tblBulkWrite iss qmask table flags rsv handle rsv2 first count met => exact execTblBulkWrite_keeps _ _ _ _ _ _ _ _ _ _ _
  | tblBulkRead iss quad table flags rsv first count => exact execTblBulkRead_keeps _ _ _ _ _ _ _ _
  | soundConfig iss rsv rate repair rsv2 => exact execSoundConfig_keeps _ _ _ _ _ _
  | genActivate iss flags rsv handle t met => exact execGenActivate_keeps _ _ _ _ _ _ _
  | genStatus iss => exact execGenStatus_keeps _ _
  | genAbandon iss => exact execGenAbandon_keeps _ _
  | planLoad iss handle rsv met => exact execPlanLoad_keeps _ _ _ _ _
  | portConfig iss fibre layout rsv => exact execPortConfig_keeps _ _ _ _ _
  | portStatus iss lane rsv => exact execPortStatus_keeps _ _ _ _
  | portEnable iss lane enable rsv => exact execPortEnable_keeps _ _ _ _ _
  | linkRetrain iss lane rsv => exact execLinkRetrain_keeps _ _ _ _
  | discoveryRead iss fibre count flags rsv => exact execDiscoveryRead_keeps _ _ _ _ _ _
  | oeStatus iss engine rsv => exact execOeStatus_keeps _ _ _ _
  | oeCalibrate iss engine kind flags rsv => exact execOeCalibrate_keeps _ _ _ _ _ _
  | ringReseek iss engine dir fibre mask => exact execRingReseek_keeps _ _ _ _ _ _
  | pilotPlan iss mask rsv tones => exact execPilotPlan_keeps _ _ _ _ _
  | cswCircuit iss op mask a b => exact execCswCircuit_keeps _ _ _ _ _ _
  | cswStatus iss engine rsv => exact execCswStatus_keeps _ _ _ _
  | swlCalibrate iss mask rsv => exact execSwlCalibrate_keeps _ _ _ _
  | swlDeskewRead iss fibre count => exact execSwlDeskewRead_keeps _ _ _ _
  | timeRead iss => exact execTimeRead_keeps _ _
  | timeAdjust iss flags rsv delta base => exact execTimeAdjust_keeps _ _ _ _ _ _
  | ptpConfig iss domain flags logSync logAnnounce logPdelay prio1 prio2 rsv asym => exact execPtpConfig_keeps _ _ _ _ _ _ _ _ _ _ _
  | tsQueueRead iss first count rsv => exact execTsQueueRead_keeps _ _ _ _ _
  | timedLaunch iss lane ident flags rsv t length rsv2 data => exact execTimedLaunch_keeps _ _ _ _ _ _ _ _ _ _
  | tideLoad iss handle rsv met => exact execTideLoad_keeps _ _ _ _ _
  | tideRead iss flags rsv lane => exact execTideRead_keeps _ _ _ _ _
  | tideCommit iss flags rsv a => exact execTideCommit_keeps _ _ _ _ _
  | tideCancel iss => exact execTideCancel_keeps _ _
  | groupCreate iss group weight rsv base count m rsv2 members => exact execGroupCreate_keeps _ _ _ _ _ _ _ _ _ _
  | groupDestroy iss group rsv => exact execGroupDestroy_keeps _ _ _ _
  | groupQuery iss group first count rsv => exact execGroupQuery_keeps _ _ _ _ _ _
  | groupWeight iss group weight rsv => exact execGroupWeight_keeps _ _ _ _ _
  | ctxQuery iss ctx first count met => exact execCtxQuery_keeps _ _ _ _ _ _
  | ctxAbort iss ctx => exact execCtxAbort_keeps _ _ _
  | memberExclude iss group flags rsv ctx count rsv2 members met => exact execMemberExclude_keeps _ _ _ _ _ _ _ _ _ _
  | ebbRead iss group flags rsv => exact execEbbRead_keeps _ _ _ _ _
  | triggerWrite iss kind rsv count items => exact execTriggerWrite_keeps _ _ _ _ _ _
  | triggerRead iss kind rsv count first => exact execTriggerRead_keeps _ _ _ _ _ _
  | bwkGroupCreate iss group k rsv base count z members => exact execBwkGroupCreate_keeps _ _ _ _ _ _ _ _ _
  | bwkGroupDestroy iss group rsv => exact execBwkGroupDestroy_keeps _ _ _ _
  | bwkQuery iss group rsv first count => exact execBwkQuery_keeps _ _ _ _ _ _
  | partRead iss => exact execPartRead_keeps _ _
  | partResize iss id rsv size => exact execPartResize_keeps _ _ _ _ _
  | memErrorRead iss bridge rsv first count => exact execMemErrorRead_keeps _ _ _ _ _ _
  | testRun iss func kinds flags => exact execTestRun_keeps _ _ _ _ _
  | testResult iss test first count rsv => exact execTestResult_keeps _ _ _ _ _ _
  | repairApply iss kind flags func inst bit addr => exact execRepairApply_keeps _ _ _ _ _ _ _ _
  | funcReset iss func flags rsv => exact execFuncReset_keeps _ _ _ _ _
  | deviceReset iss => exact execDeviceReset_keeps _ _
  | resetDelayExpiry => exact execResetDelayExpiry_keeps _
  | powerCap iss cap rsv => exact execPowerCap_keeps _ _ _ _
  | powerStatus iss => exact execPowerStatus_keeps _ _
  | telCounterRead iss set flags count first => exact execTelCounterRead_keeps _ _ _ _ _ _
  | telCounterClear iss set rsv count first => exact execTelCounterClear_keeps _ _ _ _ _ _
  | telExportConfig iss target flags minSev rsv rate rsv2 record flow => exact execTelExportConfig_keeps _ _ _ _ _ _ _ _ _ _
  | logRead iss flags minSev rsv count first met => exact execLogRead_keeps _ _ _ _ _ _ _ _
  | attest iss nonce => exact execAttest_keeps _ _ _
  | certRead iss scheme depth rsv => exact execCertRead_keeps _ _ _ _ _
  | fwUpdate iss handle rsv met => exact execFwUpdate_keeps _ _ _ _ _
  | fwActivate iss slot flags rsv => exact execFwActivate_keeps _ _ _ _ _
  | commandComplete session tag fw => exact execCommandComplete_keeps _ _ _ _
  | keepaliveExpiry slot => exact execKeepaliveExpiry_keeps _ _
  | handshakeTimeout slot => exact execHandshakeTimeout_keeps _ _
  | watchdogExpiry engine => exact execWatchdogExpiry_keeps _ _
  | funcResetEnd func => exact execFuncResetEnd_keeps _ _
  | flitReceive lane flit fecOk => exact execFlitReceive_keeps _ _ _ _
  | replayTimerExpiry port => exact execReplayTimerExpiry_keeps _ _
  | ackStallTimeout port => exact execAckStallTimeout_keeps _ _
  | linkSilenceTimeout port => exact execLinkSilenceTimeout_keeps _ _
  | laneSilenceTimeout lane => exact execLaneSilenceTimeout_keeps _ _
  | flitTransmit lane => exact execFlitTransmit_keeps _ _
  | ethFrameReceive port frame overrun => exact execEthFrameReceive_keeps _ _ _ _
  | cellTrainReceive port train overrun => exact execCellTrainReceive_keeps _ _ _ _
  | eModeTransmitStart port => exact execEModeTransmitStart_keeps _ _
  | trainFillExpiry port => exact execTrainFillExpiry_keeps _ _
  | eKeepaliveSend port => exact execEKeepaliveSend_keeps _ _
  | eModeSilenceTimeout port => exact execEModeSilenceTimeout_keeps _ _
  | laneDrop lane dir => exact execLaneDrop_keeps _ _ _
  | laneReturn lane dir => exact execLaneReturn_keeps _ _ _
  | discoverSend fibre => exact execDiscoverSend_keeps _ _
  | discoverReceive lane src payload => exact execDiscoverReceive_keeps _ _ _ _
  | partnerLostTimeout fibre => exact execPartnerLostTimeout_keeps _ _
  | fibreComparisonComplete fibre => exact execFibreComparisonComplete_keeps _ _
  | portTrainingComplete port => exact execPortTrainingComplete_keeps _ _
  | cellLookup tile => exact execCellLookup_keeps _ _
  | cellAdmission tile => exact execCellAdmission_keeps _ _
  | landedCellRejudge tile => exact execLandedCellRejudge_keeps _ _
  | generatedCellReoffer tile => exact execGeneratedCellReoffer_keeps _ _
  | undertowReadback tile queue met => exact execUndertowReadback_keeps _ _ _ _
  | headSweep tile => exact execHeadSweep_keeps _ _
  | xbarSlot => exact execXbarSlot_keeps _
  | depthReport => exact execDepthReport_keeps _
  | macAgeSweep quad => exact execMacAgeSweep_keeps _ _
  | soundingVisit met => exact execSoundingVisit_keeps _ _
  | genActivation => exact execGenActivation_keeps _
  | genRetire => exact execGenRetire_keeps _
  | ptpMessageReceive port msg => exact execPtpMessageReceive_keeps _ _ _
  | ptpMessageSend port kind => exact execPtpMessageSend_keeps _ _ _
  | announceTimeout sync => exact execAnnounceTimeout_keeps _ _
  | slewEnd => exact execSlewEnd_keeps _
  | ppsPulse => exact execPpsPulse_keeps _
  | ppsPulseEnd => exact execPpsPulseEnd_keeps _
  | timedLaunchDue tile => exact execTimedLaunchDue_keeps _ _
  | tideCheckEnd => exact execTideCheckEnd_keeps _
  | tideActivation port => exact execTideActivation_keeps _ _
  | tideWindowBoundary port => exact execTideWindowBoundary_keeps _ _
  | laneDivertStart lane => exact execLaneDivertStart_keeps _ _
  | causewayChange engine => exact execCausewayChange_keeps _ _
  | causewayChangeEnd engine captured => exact execCausewayChangeEnd_keeps _ _ _
  | laneDivertEnd lane detuned => exact execLaneDivertEnd_keeps _ _ _
  | swellInstanceStart engine lambda present => exact execSwellInstanceStart_keeps _ _ _ _
  | swellInstanceEnd inputs bursts => exact execSwellInstanceEnd_keeps _ _ _
  | swlCalibrationExpiry engine halfSpent => exact execSwlCalibrationExpiry_keeps _ _ _
  | swlCalibrateTimeout => exact execSwlCalibrateTimeout_keeps _
  | openReceive tile => exact execOpenReceive_keeps _ _
  | cupReceive tile => exact execCupReceive_keeps _ _
  | codeReceive tile => exact execCodeReceive_keeps _ _
  | deltaApply bridge met => exact execDeltaApply_keeps _ _ _
  | ctxLineFetchComplete tile met => exact execCtxLineFetchComplete_keeps _ _ _
  | headerUnpin ctx => exact execHeaderUnpin_keeps _ _
  | paceRoundStart ctx => exact execPaceRoundStart_keeps _ _
  | missingRound ctx met => exact execMissingRound_keeps _ _ _
  | resendReceive tile met => exact execResendReceive_keeps _ _ _
  | contextDeadline ctx => exact execContextDeadline_keeps _ _
  | lingerExpiry ctx => exact execLingerExpiry_keeps _ _
  | ringLockAcquire e r => exact execRingLockAcquire_keeps _ _ _
  | ringLockLoss target => exact execRingLockLoss_keeps _ _
  | relockStart e r captured => exact execRelockStart_keeps _ _ _ _
  | captureTimeout e r => exact execCaptureTimeout_keeps _ _ _
  | pilotWindowEnd target window => exact execPilotWindowEnd_keeps _ _ _
  | cooldownExpiry e r => exact execCooldownExpiry_keeps _ _ _
  | seekResonance e r code => exact execSeekResonance_keeps _ _ _ _
  | seekSweepEnd e r => exact execSeekSweepEnd_keeps _ _ _
  | seekRetryExpiry e r => exact execSeekRetryExpiry_keeps _ _ _
  | feedforwardSample e temps loop => exact execFeedforwardSample_keeps _ _ _ _
  | lightLossDetect target => exact execLightLossDetect_keeps _ _
  | probeBurst f => exact execProbeBurst_keeps _ _
  | lightPresent target => exact execLightPresent_keeps _ _
  | openDwellExpiry f => exact execOpenDwellExpiry_keeps _ _
  | laserInputFail e b => exact execLaserInputFail_keeps _ _ _
  | laserInputGoodExpiry e b => exact execLaserInputGoodExpiry_keeps _ _ _
  | errorWindowEnd ends => exact execErrorWindowEnd_keeps _ _
  | quarantineUnitDue => exact execQuarantineUnitDue_keeps _
  | patrolScrub b finding => exact execPatrolScrub_keeps _ _ _
  | bridgeZeroingComplete b => exact execBridgeZeroingComplete_keeps _ _
  | shorelineCrcLimit l words => exact execShorelineCrcLimit_keeps _ _ _
  | widthRecordPublish l => exact execWidthRecordPublish_keeps _ _
  | widthRecordReceive l rec => exact execWidthRecordReceive_keeps _ _ _
  | powerPeriod forecast logic need ratio steps drivers => exact execPowerPeriod_keeps _ _ _ _ _ _ _
  | powerReplyReceive d => exact execPowerReplyReceive_keeps _ _
  | proposeReceive d expected now => exact execProposeReceive_keeps _ _ _ _
  | proposeTimeout d => exact execProposeTimeout_keeps _ _
  | tileRatioStep tile => exact execTileRatioStep_keeps _ _
  | testStaggerExpiry => exact execTestStaggerExpiry_keeps _
  | testEnd entry faults durationUs => exact execTestEnd_keeps _ _ _ _
  | eventRaise ev => exact execEventRaise_keeps _ _
  | telStageTimer => exact execTelStageTimer_keeps _
  | coalesceWindowExpiry code source => exact execCoalesceWindowExpiry_keeps _ _ _
  | holdRelease => exact execHoldRelease_keeps _
  | telStreamSend => exact execTelStreamSend_keeps _
  | telCollectorSend a0 => exact execTelCollectorSend_keeps _ _
  | refclkRunExpiry => exact execRefclkRunExpiry_keeps _

theorem tick_keeps (s : State) : Keeps s s.tick := Still.keeps (by simp [Still])

/-- A step keeps what the command at the front keeps of the state without it; with an empty queue one cycle passes. -/
theorem step_keeps {s t : State} (h : step s = .next t) : Keeps { s with pending := s.pending.tail } t := by
  unfold step at h
  split at h
  next c rest hp => exact hp ▸ exec_keeps c _ t h
  next hp =>
    cases h
    have hk := tick_keeps s
    exact ⟨by rw [hk.pending, hp]; rfl, hk.slots, hk.active, hk.entries⟩

/-- Settles O57: the step takes the command in front, and no command writes the queue. -/
theorem queueOrderKept : Obligations.QueueOrderKept := fun _ _ h => (step_keeps h).pending

/-- Settles O58: no command changes the number of session slots, and every row that moves a route bank moves the pair. -/
theorem slotsAndBanksKept : Obligations.SlotsAndBanksKept := fun _ _ h => ⟨(step_keeps h).slots,
    (step_keeps h).active⟩

/-- Settles O59: every write of the tables goes through an operation that keeps the numbers rising. -/
theorem tableEntriesKept : Obligations.TableEntriesKept := fun _ _ h => (step_keeps h).entries

end Sys2Proof.Machine
end

