-- ==== Sys2Proof/Proofs/Boot.lean ====
section
/-! PROOFS. Commands that answer, the pins and what holds the part in reset, and the boot (R523 to R528, R557, R561). -/

namespace Sys2Proof.Machine

/-- A flit of another shape than R108 gives it faults. -/
theorem exec_flit_illFormed {f : Flit} (h : f.wf = false) (l : Lane) (good : Bool) (s : State) :
    exec (.flitReceive l f good) s = .fault (.illFormed "flit") := by
  refine if_pos ?_
  simpa [Flit.wf, Classical.or_iff_not_imp_left] using h

/-- Settles O2: only the shape of a flit can fail. -/
theorem everyCommandAnswers : Obligations.EveryCommandAnswers := by
  refine ⟨fun c s hc => ?_, fun l f good s h => exec_flit_illFormed h l good s⟩
  cases c with
  | flitReceive l f good =>
    have hf : ¬ (f.slots.length ≠ 15 ∨ f.link.credit.length ≠ 8) := by
      simpa [Instr.wf, Flit.wf] using hc
    exact ⟨_, if_neg hf⟩
  | _ => exact ⟨_, rfl⟩

/-! ## What following the light of a fibre may write -/

/-- Only lanes, ports, their queues and frames, deficits, registers, telemetry and the bridges' links differ. -/
def LinkWrites (s t : State) : Prop := ∃ la po qu fr tc re te me, t = { s with
  lanes := la, ports := po, queues := qu, frames := fr, tc := tc, regs := re, tel := te, mem := me }

namespace LinkWrites

theorem refl (s : State) : LinkWrites s s := ⟨_, _, _, _, _, _, _, _, rfl⟩

theorem trans {s t u : State} (h : LinkWrites s t) (h' : LinkWrites t u) : LinkWrites s u := by
  obtain ⟨_, _, _, _, _, _, _, _, rfl⟩ := h
  obtain ⟨_, _, _, _, _, _, _, _, rfl⟩ := h'
  exact ⟨_, _, _, _, _, _, _, _, rfl⟩

theorem opt {s t : State} (h : LinkWrites s t) : t.opt = s.opt := by
  obtain ⟨_, _, _, _, _, _, _, _, rfl⟩ := h
  rfl

theorem pins {s t : State} (h : LinkWrites s t) : t.pins = s.pins := by
  obtain ⟨_, _, _, _, _, _, _, _, rfl⟩ := h
  rfl

theorem ite {s a b : State} {c : Prop} [Decidable c] (ha : LinkWrites s a) (hb : LinkWrites s b) :
    LinkWrites s (if c then a else b) := by
  split
  · exact ha
  · exact hb

theorem foldl {α : Type} {f : State → α → State} (h : ∀ t x, LinkWrites t (f t x)) (s : State) (xs : List α) :
    LinkWrites s (xs.foldl f s) := by
  induction xs generalizing s with
  | nil => exact refl s
  | cons x xs ih => exact (h s x).trans (ih (f s x))

theorem setLane (s : State) (l : Nat) (f : LaneSt → LaneSt) : LinkWrites s (s.setLane l f) :=
  ⟨_, _, _, _, _, _, _, _, rfl⟩

theorem setPort (s : State) (p : Nat) (f : PortSt → PortSt) : LinkWrites s (s.setPort p f) :=
  ⟨_, _, _, _, _, _, _, _, rfl⟩

theorem setQueue (s : State) (k : Nat) (q : List QCell) : LinkWrites s (s.setQueue k q) :=
  ⟨_, _, _, _, _, _, _, _, rfl⟩

theorem setDc (s : State) (p c : Nat) (v : Int) : LinkWrites s (s.setDc p c v) := ⟨_, _, _, _, _, _, _, _, rfl⟩

theorem bumpBy (s : State) (r : Reg) (ix : List Nat) (n : Nat) : LinkWrites s (s.bumpBy r ix n) :=
  ⟨_, _, _, _, _, _, _, _, rfl⟩

theorem csAdd (s : State) (set i item n : Nat) : LinkWrites s (s.csAdd set i item n) := ⟨_, _, _, _, _, _, _, _, rfl⟩

theorem raiseEv (s : State) (c v o : Nat) (d : List Byte) : LinkWrites s (s.raiseEv c v o d) := by
  obtain ⟨t, r, w, h⟩ := raiseEv_only s c v o d
  exact ⟨_, _, _, _, _, r, t, w, h⟩

theorem retune (s : State) (p : Nat) : LinkWrites s (s.retune p) := .setPort s p _

theorem missLaunches (s : State) (p : Nat) : LinkWrites s (s.missLaunches p) :=
  (foldl (fun t _ => (bumpBy t _ _ _).trans (raiseEv _ _ _ _ _)) s _).trans (.setPort _ p _)

theorem dropCell (s : State) (q : QCell) : LinkWrites s (s.dropCell q) := by
  unfold State.dropCell
  split
  case h_4 => exact refl s
  all_goals exact csAdd s _ _ _ _

theorem flushAdm (s : State) (p : Nat) : LinkWrites s (s.flushAdm p) :=
  foldl (fun t _ => (((setQueue t _ _).trans (bumpBy _ _ _ _)).trans (csAdd _ _ _ _ _)).trans (foldl dropCell _ _)) s _

theorem dropFrames (s : State) (p : Nat) : LinkWrites s (s.dropEgress p false) :=
  LinkWrites.trans ⟨_, _, _, _, _, _, _, _, rfl⟩ (flushAdm { s with frames := { s.frames with sending := s.frames.sending.del p } } p)

theorem settleDc (s : State) (p c : Nat) : LinkWrites s (s.settleDc p c) := ite (setDc s _ _ _) (refl s)

theorem eRetrain (s : State) (p : Nat) : LinkWrites s (s.eRetrain p) :=
  (((dropFrames s p).trans (missLaunches _ p)).trans (foldl (fun t c => settleDc t p c) _ _)).trans (.setPort _ p _)

theorem eJudge (s : State) (p : Nat) : LinkWrites s (s.eJudge p) := ite (eRetrain s p) (refl s)

theorem laneLost (s : State) (l : Nat) : LinkWrites s (s.laneLost l) := by
  have hc : LinkWrites s (s.clearRx l) := (setLane s l _).trans (.setPort _ _ _)
  exact ite (refl s) (ite ((ite (refl s) hc).trans (retune _ _)) (eJudge s _))

theorem dropLane (s : State) (l : Nat) (d : Dir) : LinkWrites s (s.dropLane l d) :=
  (setLane s l _).trans (laneLost _ l)

theorem returnLane (s : State) (l : Nat) (d : Dir) : LinkWrites s (s.returnLane l d) :=
  (setLane s l _).trans (ite (refl _) (ite (retune _ _) (eJudge _ _)))

theorem followLane (s : State) (l : Nat) (d : Dir) : LinkWrites s (s.followLane l d) :=
  ite (refl s) (ite (dropLane s l d) (returnLane s l d))

/-- Following a fibre changes no pin and no eye-safety machine. -/
theorem followFibre (s : State) (f : Nat) : LinkWrites s (s.followFibre f) :=
  foldl (fun t l => (followLane t l .tx).trans (followLane _ l .rx)) s _

end LinkWrites

/-- A change of rings changes the rings alone. -/
theorem setRings_only (s : State) (ls : List Nat) (g : RingSt → RingSt) :
    ∃ r, ls.foldl (fun s l => s.setRing (engineOf l) (ringOf l .rx) g) s = { s with opt := { s.opt with rings := r } } := by
  induction ls generalizing s with
  | nil => exact ⟨_, rfl⟩
  | cons l ls ih => exact ih (s.setRing (engineOf l) (ringOf l .rx) g)

/-- A move of an eye-safety machine writes the machine, and leaves the other machines and the pins. -/
theorem moveEye_writes (s : State) (f : Nat) (g : EyeSt → EyeSt) :
    let u := s.setEye f fun y => { g y with drive := s.driveFor f (g y).st }
    (s.moveEye f g).opt.eyes = u.opt.eyes ∧ (s.moveEye f g).pins = s.pins := by
  intro u
  have hr : ∃ r, (if (u.eye f).st = .opened then u
      else (rangeFrom (8 * f) 8).foldl (init := u) fun s l =>
        s.setRing (engineOf l) (ringOf l .rx) fun x => { x with overBudget := false }) =
      { u with opt := { u.opt with rings := r } } := by
    split
    · exact ⟨_, rfl⟩
    · exact setRings_only u _ _
  obtain ⟨r, hr⟩ := hr
  have hw : s.moveEye f g = ({ u with opt := { u.opt with rings := r } } : State).followFibre f :=
    congrArg (State.followFibre · f) hr
  have h := LinkWrites.followFibre { u with opt := { u.opt with rings := r } } f
  rw [hw]
  exact ⟨by rw [h.opt], h.pins⟩

/-- The state that a move gives the machine. -/
theorem moveEye_st (s : State) (f : Nat) (g : EyeSt → EyeSt) : ((s.moveEye f g).eye f).st = (g (s.eye f)).st := by
  have h := (moveEye_writes s f g).1
  rw [State.eye, h]
  have hs := congrArg EyeSt.st (setEye_eye s f fun y => { g y with drive := s.driveFor f (g y).st })
  exact hs

theorem moveEye_eye_ne (s : State) {j f : Nat} (g : EyeSt → EyeSt) (hj : j ≠ f) : (s.moveEye f g).eye j = s.eye j := by
  have h := (moveEye_writes s f g).1
  rw [State.eye, h]
  exact setEye_eye_ne s (fun y => { g y with drive := s.driveFor f (g y).st }) hj

@[simp] theorem moveEye_pins (s : State) (f : Nat) (g : EyeSt → EyeSt) : (s.moveEye f g).pins = s.pins :=
  (moveEye_writes s f g).2

/-- A hold is a move to HELD. -/
theorem holdEye_on (s : State) (f : Nat) (why : HoldWhy) : s.holdEye f why true =
    s.moveEye f fun y => { y with st := .held, holds := why :: (s.eye f).holds.filter fun h => decide (h ≠ why) } := rfl

theorem holdEye_st (s : State) (f : Nat) (why : HoldWhy) : ((s.holdEye f why true).eye f).st = .held := by
  rw [holdEye_on, moveEye_st]

theorem holdEye_eye_ne (s : State) {j f : Nat} (why : HoldWhy) (hj : j ≠ f) :
    (s.holdEye f why true).eye j = s.eye j := by
  rw [holdEye_on, moveEye_eye_ne s _ hj]

theorem holdEye_pins (s : State) (f : Nat) (why : HoldWhy) : (s.holdEye f why true).pins = s.pins := by
  rw [holdEye_on, moveEye_pins]

/-- Holding fibres holds every one of them, leaves those that are held, and moves no pin. -/
theorem holdEyes (s : State) (fs : List Nat) (why : HoldWhy) :
    (fs.foldl (fun s f => s.holdEye f why true) s).pins = s.pins ∧
      ∀ f, f ∈ fs ∨ (s.eye f).st = .held → ((fs.foldl (fun s f => s.holdEye f why true) s).eye f).st = .held := by
  induction fs generalizing s with
  | nil => simp
  | cons g fs ih =>
    have hpins := holdEye_pins s g why
    have hst := holdEye_st s g why
    have hne (f : Nat) (hf : f ≠ g) := holdEye_eye_ne s why hf
    rw [List.foldl_cons]
    generalize s.holdEye g why true = t at hpins hst hne ⊢
    obtain ⟨hp, he⟩ := ih t
    refine ⟨hp.trans hpins, fun f hf => he f ?_⟩
    by_cases hfg : f = g
    · exact .inr (hfg ▸ hst)
    · simpa [hfg, hne f hfg] using hf

/-! ## The pins -/

/-- The boot starts where nothing holds the part in reset. -/
theorem tryBoot_free {s : State} (hp : s.pins.free = true) (hb : s.boot.phase = .reset) (cause : Nat) :
    s.tryBoot cause = s.startBoot cause := by
  simp [State.tryBoot, hp, hb]

/-- Settles O4: each of the four rows clears its own hold, and with no other left the boot starts. -/
theorem resetReleaseStartsBoot : Obligations.ResetReleaseStartsBoot := by
  refine ⟨fun s skip h₁ h₂ h₃ h₄ h₅ hb => ?_, fun s skip h₁ h₂ h₃ h₄ h₅ hb => ?_, fun s h₁ h₂ h₃ h₄ h₅ hb => ?_,
    fun s h₁ h₂ h₃ h₄ h₅ hb => ?_⟩
  · simp [exec, execResetRelease, State.tryBoot, Pins.free, State.startBoot, *]
  · simp [exec, execResetRelease, State.tryBoot, Pins.free, State.startBoot, *]
  · simp [exec, execRailRecoveryExpiry, State.tryBoot, Pins.free, State.startBoot, *]
  · simp [exec, execRefclkRunExpiry, State.tryBoot, Pins.free, State.startBoot, *]

/-- Selecting a test instruction outside EXTEST changes the pins alone. -/
theorem selectTap_of_ne {s : State} (h : s.pins.jtag ≠ .extest) (i : JtagInstr) :
    s.selectTap i = { s with pins := { s.pins with jtag := i } } := by
  simp [State.selectTap, h]

/-- Settles O3: a hold is the whole reset, a test instruction moves the pins, and EXTEST holds the fibres one by one. -/
theorem resetPinsComplete : Obligations.ResetPinsComplete := by
  refine ⟨fun _ => rfl, fun _ => rfl, fun _ => rfl, fun _ => rfl, fun s d temp hp ht => ?_, fun s i hp ho he hj => ?_,
    fun s i hj => ?_, fun s hp hj => ?_, fun s low hj hf => ?_⟩
  · have h : tripAt d.val ≤ temp.toInt ∧ s.boot.phase ≠ .reset := ⟨ht, hp⟩
    exact congrArg Host.Outcome.next (if_pos h)
  · simp [exec, execJtagInstruction, State.setTrst, hp, ho, he, selectTap_of_ne, hj]
  · simp [exec, execJtagInstruction, State.setTrst, selectTap_of_ne, hj]
  · obtain ⟨hpins, heyes⟩ := holdEyes { s with pins := { s.pins with trstLow := false, jtag := .extest } }
      (List.range 256) .reset
    refine ⟨_, ?_, congrArg Pins.jtag hpins, fun f hf => heyes f (.inl (List.mem_range.mpr hf))⟩
    simp [exec, execJtagInstruction, State.setTrst, hp, hj]
  · let u : State := { s with pins := { s.pins with trstLow := low } }
    have hb : u.selectTap .bypass =
        { (u.wholeReset u.pins 1).startBoot 1 with pins := { u.pins with jtag := .bypass, ppsOut := false, ppsFall := 0 } } := by
      have hu : u.pins.jtag = .extest := hj
      have hf' : (u.wholeReset u.pins 1).pins.free = true := hf
      simp only [State.selectTap, hu, if_pos, tryBoot_free hf' rfl]
      rfl
    exact ⟨_, rfl, hb ▸ ⟨rfl, rfl, rfl, rfl, rfl⟩⟩

/-- The record goes into the copy that does not govern. -/
theorem writeRecord_governing {n : Nvm} {which : Bool} {g : BootRecord} (h : n.governing = some (which, g))
    (r : BootRecord) : n.writeRecord r =
      if which then { n with copy0 := recordBytes { r with seq := (g.seq + 1) % 2 ^ 32 } }
      else { n with copy1 := recordBytes { r with seq := (g.seq + 1) % 2 ^ 32 } } := by
  simp only [Nvm.writeRecord, h]

/-- Writing a record leaves the images and what judges them. -/
theorem writeRecord_slotValid (n : Nvm) (r : BootRecord) (slot : Bool) :
    (n.writeRecord r).slotValid slot = n.slotValid slot := by
  cases h : n.governing with
  | none => simp [Nvm.writeRecord, h]
  | some w =>
    obtain ⟨which, g⟩ := w
    rw [writeRecord_governing h]
    cases which <;> rfl

theorem writeRecord_chooseSlot (n : Nvm) (r : BootRecord) (trial : Nat) (active : Bool) :
    (n.writeRecord r).chooseSlot trial active = n.chooseSlot trial active := by
  simp only [Nvm.chooseSlot, writeRecord_slotValid]

/-- What the boot ROM leaves where it writes the record: the record, and the choice of the slot. -/
structure RomLeaves (s t : State) (g : BootRecord) : Prop where
  nvm : t.nvm = s.nvm.writeRecord { g with boots := g.boots + 1, trial := 0xFF }
  stops : s.nvm.chooseSlot g.trial g.active = none → t.boot.phase = .stuck
  boots : ∀ slot trial, s.nvm.chooseSlot g.trial g.active = some (slot, trial) →
    t.boot.phase = .step 3 ∧ t.boot.runningSlot = slot ∧ t.boot.trialBoot = trial ∧
      t.boot.incarnation = BitVec.ofNat 32 (g.boots + 1)

theorem bootRom_leaves {s : State} {which : Bool} {g : BootRecord} (hg : s.nvm.governing = some (which, g))
    (hb : g.boots < 2 ^ 32 - 1) : RomLeaves s (s.bootRom true) g := by
  have hb' : ¬ 2 ^ 32 - 1 ≤ g.boots := Nat.not_le_of_lt hb
  simp only [State.bootRom, hg, hb', if_false, Bool.not_true, Bool.false_eq_true, writeRecord_chooseSlot]
  cases hc : s.nvm.chooseSlot g.trial g.active with
  | none => exact ⟨rfl, fun _ => rfl, by simp [hc]⟩
  | some w =>
    obtain ⟨slot, trial⟩ := w
    refine ⟨rfl, by simp [hc], fun slot' trial' h => ?_⟩
    obtain ⟨rfl, rfl⟩ : slot = slot' ∧ trial = trial' := by simpa [hc] using h
    exact ⟨rfl, rfl, rfl, rfl⟩

/-- The slot that is chosen, case by case (R561). -/
theorem chooseSlot_cases (n : Nvm) (trial : Nat) (active : Bool) :
    let tried := decide (trial = 1)
    (trial ≤ 1 ∧ n.slotValid tried = true → n.chooseSlot trial active = some (tried, true)) ∧
    (¬ (trial ≤ 1 ∧ n.slotValid tried = true) → n.slotValid active = true →
      n.chooseSlot trial active = some (active, false)) ∧
    (¬ (trial ≤ 1 ∧ n.slotValid tried = true) → n.slotValid active = false → n.slotValid (!active) = true →
      n.chooseSlot trial active = some (!active, false)) ∧
    (n.slotValid false = false → n.slotValid true = false → n.chooseSlot trial active = none) := by
  refine ⟨fun h => if_pos h, fun h ha => ?_, fun h ha hn => ?_, fun hf ht => ?_⟩
  · exact (if_neg h).trans (if_pos ha)
  · exact (if_neg h).trans ((if_neg (by simp [ha])).trans (if_pos hn))
  · have all (b : Bool) : n.slotValid b = false := by cases b <;> assumption
    simp [Nvm.chooseSlot, all]

/-- The lowest-numbered engine in service is the first that has not failed. -/
theorem holder_find (s : State) {n : Nat} (h4 : n < 4) (hn : (s.fn (fidCmd n)).failed = false)
    (hl : ∀ m < n, (s.fn (fidCmd m)).failed = true) :
    [0, 1, 2, 3].find? (fun n => !(s.fn (fidCmd n)).failed) = some n := by
  have hs : [0, 1, 2, 3] = List.range 4 := rfl
  rw [hs, List.find?_range_eq_some]
  exact ⟨by simp [hn], List.mem_range.mpr h4, fun m hm => by simp [hl m hm]⟩

/-- The last step ends the boot, with the lowest-numbered engine in service as the holder. -/
theorem bootDone_holder {s u : State} (hu : u.fns = s.fns) {n : Nat} (h4 : n < 4) (hn : (s.fn (fidCmd n)).failed = false)
    (hl : ∀ m < n, (s.fn (fidCmd m)).failed = true) (ms : Nat) :
    ∃ b, u.bootDone ms = { u with boot := b } ∧ b.phase = .done ∧ b.holder = n ∧ b.bootMs = min ms (2 ^ 20 - 1) := by
  have hfn (f : Nat) : u.fn f = s.fn f := by simp only [State.fn, hu]
  have hf := holder_find u h4 ((hfn _).symm ▸ hn) fun m hm => (hfn _).symm ▸ hl m hm
  simp only [State.bootDone, hf]
  exact ⟨_, rfl, rfl, rfl, rfl⟩

/-- A row of the boot runs its step at the report's time. -/
theorem bootStepEnd_one {s : State} (hs : s.boot.phase = .step 1) (rep : BootReport) :
    exec (.bootStepEnd rep) s = .next ((s.advanceTo (rep.elapsedMs * 1000000)).bootTo 2) := by
  simp [exec, execBootStepEnd, hs]

theorem bootStepEnd_rom {s : State} (hs : s.boot.phase = .step 2) {rep : BootReport} (hw : rep.recordWriteOk = true) :
    exec (.bootStepEnd rep) s = .next ((s.advanceTo (rep.elapsedMs * 1000000)).bootRom true) := by
  simp [exec, execBootStepEnd, hs, hw]

theorem bootStepEnd_joins {s : State} (hs : s.boot.phase = .step 3) {rep : BootReport}
    (hc : coreFault rep.records = false) : exec (.bootStepEnd rep) s =
      .next ((((s.advanceTo (rep.elapsedMs * 1000000)).bootJoins rep).bootRecords [3] rep.records).bootTo 4) := by
  simp [exec, execBootStepEnd, hs, hc]

theorem bootStepEnd_skipped {s : State} (hs : s.boot.phase = .step 4) (hk : s.boot.bistSkipped = true)
    (rep : BootReport) : exec (.bootStepEnd rep) s = .next ((s.advanceTo (rep.elapsedMs * 1000000)).bootTo 5) := by
  simp [exec, execBootStepEnd, hs, State.bootBist, hk]

theorem bootStepEnd_buffers {s : State} (hs : s.boot.phase = .step 5) (rep : BootReport) :
    exec (.bootStepEnd rep) s = .next ((s.advanceTo (rep.elapsedMs * 1000000)).bootBuffers.bootTo 6) := by
  simp [exec, execBootStepEnd, hs]

theorem bootStepEnd_rings {s : State} (hs : s.boot.phase = .step 6) (rep : BootReport) :
    exec (.bootStepEnd rep) s = .next (((s.advanceTo (rep.elapsedMs * 1000000)).bootRings rep).bootTo 7) := by
  simp [exec, execBootStepEnd, hs]

theorem bootStepEnd_last {s : State} (hs : s.boot.phase = .step 7) (rep : BootReport) :
    exec (.bootStepEnd rep) s = .next ((s.advanceTo (rep.elapsedMs * 1000000)).bootDone rep.elapsedMs) := by
  simp [exec, execBootStepEnd, hs]

/-- The boot ROM boots the slot that R561 chooses, or stops. -/
theorem RomLeaves.choice {s t : State} {g : BootRecord} (h : RomLeaves s t g) :
    let tried := decide (g.trial = 1)
    (g.trial ≤ 1 ∧ s.nvm.slotValid tried = true →
      t.boot.phase = .step 3 ∧ t.boot.runningSlot = tried ∧ t.boot.trialBoot = true) ∧
    (¬ (g.trial ≤ 1 ∧ s.nvm.slotValid tried = true) → s.nvm.slotValid g.active = true →
      t.boot.phase = .step 3 ∧ t.boot.runningSlot = g.active ∧ t.boot.trialBoot = false) ∧
    (¬ (g.trial ≤ 1 ∧ s.nvm.slotValid tried = true) → s.nvm.slotValid g.active = false →
      s.nvm.slotValid (!g.active) = true →
      t.boot.phase = .step 3 ∧ t.boot.runningSlot = !g.active ∧ t.boot.trialBoot = false) ∧
    (s.nvm.slotValid false = false → s.nvm.slotValid true = false → t.boot.phase = .stuck) := by
  obtain ⟨c₁, c₂, c₃, c₄⟩ := chooseSlot_cases s.nvm g.trial g.active
  have booted {slot trial} (hc : s.nvm.chooseSlot g.trial g.active = some (slot, trial)) :
      t.boot.phase = .step 3 ∧ t.boot.runningSlot = slot ∧ t.boot.trialBoot = trial := by
    obtain ⟨hp, hr, ht, _⟩ := h.boots slot trial hc
    exact ⟨hp, hr, ht⟩
  exact ⟨fun h => booted (c₁ h), fun h ha => booted (c₂ h ha), fun h ha ho => booted (c₃ h ha ho),
    fun hf ht => h.stops (c₄ hf ht)⟩

/-- An image that boots has counted its incarnation. -/
theorem RomLeaves.incarnation {s t : State} {g : BootRecord} (h : RomLeaves s t g) (hp : t.boot.phase = .step 3) :
    t.boot.incarnation = BitVec.ofNat 32 (g.boots + 1) := by
  cases hc : s.nvm.chooseSlot g.trial g.active with
  | none => simp [h.stops hc] at hp
  | some w =>
    obtain ⟨_, _, _, hi⟩ := h.boots _ _ hc
    exact hi

/-- The record goes into the copy that does not govern, and the images and the keys stay. -/
theorem RomLeaves.record {s t : State} {which : Bool} {g : BootRecord} (h : RomLeaves s t g)
    (hg : s.nvm.governing = some (which, g)) :
    let bytes := recordBytes ⟨(g.seq + 1) % 2 ^ 32, g.active, 0xFF, g.boots + 1⟩
    ((which = false → t.nvm.copy1 = bytes ∧ t.nvm.copy0 = s.nvm.copy0) ∧
      (which = true → t.nvm.copy0 = bytes ∧ t.nvm.copy1 = s.nvm.copy1)) ∧
    t.nvm.slotA = s.nvm.slotA ∧ t.nvm.slotB = s.nvm.slotB ∧ t.nvm.trust = s.nvm.trust := by
  rw [h.nvm, writeRecord_governing hg]
  cases which
  · exact ⟨⟨fun _ => ⟨rfl, rfl⟩, nofun⟩, rfl, rfl, rfl⟩
  · exact ⟨⟨nofun, fun _ => ⟨rfl, rfl⟩⟩, rfl, rfl, rfl⟩

/-- The last step, at the report's time. -/
theorem bootStepEnd_done {s : State} (rep : BootReport) {n : Nat} (hs : s.boot.phase = .step 7) (h4 : n < 4)
    (hn : (s.fn (fidCmd n)).failed = false) (hl : ∀ m < n, (s.fn (fidCmd m)).failed = true) :
    ∃ t, exec (.bootStepEnd rep) s = .next t ∧ t.boot.phase = .done ∧ t.boot.holder = n ∧
      t.boot.bootMs = min rep.elapsedMs (2 ^ 20 - 1) ∧ t.nvm = s.nvm ∧ t.regs = s.regs ∧ t.gen = s.gen ∧
      t.mgmt = s.mgmt ∧ t.fns = s.fns := by
  have hx := bootStepEnd_last hs rep
  generalize rep.elapsedMs = ms at hx ⊢
  obtain ⟨w, hw⟩ := advanceTo_only s (ms * 1000000)
  rw [hw] at hx
  obtain ⟨b, hd, hp, hh, hms⟩ := bootDone_holder (s := s) (u := { s with time := w }) rfl h4 hn hl ms
  exact ⟨_, hx.trans (congrArg _ hd), hp, hh, hms, rfl, rfl, rfl, rfl, rfl⟩

/-- Settles O5: each step is its row of the boot, and step 2 writes the record before it chooses the slot. -/
theorem bootStepsComplete : Obligations.BootStepsComplete := by
  refine ⟨fun s rep which g hs hw hg hb => ?_, fun s rep hs => bootStepEnd_one hs rep,
    fun s rep hs hc => bootStepEnd_joins hs hc, fun s rep hs hk => bootStepEnd_skipped hs hk rep,
    fun s rep hs => bootStepEnd_buffers hs rep, fun s rep hs => bootStepEnd_rings hs rep, fun s n => rfl,
    fun s rep n hs h4 hn hl => bootStepEnd_done rep hs h4 hn hl⟩
  have hnvm : (s.advanceTo (rep.elapsedMs * 1000000)).nvm = s.nvm := by simp
  have hx := bootStepEnd_rom hs hw
  generalize s.advanceTo (rep.elapsedMs * 1000000) = u at hx hnvm
  have h := bootRom_leaves (hnvm ▸ hg) hb
  have hc := h.choice
  obtain ⟨hr, hi, hk⟩ := h.record (hnvm ▸ hg)
  rw [hnvm] at hc hr hi hk
  exact ⟨_, hx, hr, hi, hk.1, hk.2, hc, h.incarnation⟩

end Sys2Proof.Machine
end

