-- ==== Sys2Proof/Proofs/Mgmt.lean ====
section
/-! PROOFS. Frames, the handshake, sessions, and the end of a command (R56 to R67). -/

namespace Sys2Proof.Machine

/-- What checks 8 to 11 look at of a session (R62). -/
theorem judge_congr {x y : Session} (hn : y.number = x.number) (hc : y.cmds = x.cmds) (hk : y.cache = x.cache)
    (he : y.engine = x.engine) (op : Nat) (params : List Byte) (flags : Byte) (tag : BitVec 32) :
    judge y op params flags tag = judge x op params flags tag := by
  simp only [judge, hn, hc, hk, he]

/-- Accepting a sequence moves the window alone. -/
theorem takeSeq_only (x : Session) (q : Nat) : ∃ h w, x.takeSeq q = { x with high := h, window := w } := by
  unfold Session.takeSeq
  split
  · exact ⟨_, _, rfl⟩
  · exact ⟨_, x.window + 2 ^ (x.high - q), rfl⟩

/-- A frame of an open session that passes checks 1 to 5 is judged by its session. -/
theorem receive_session {s : State} {f : MgmtFrame} {i : Nat} (hb : s.boot.phase = .done) (hu : frameForUs s f = true)
    (hv : f.version = 1) (h0 : f.session ≠ 0) (hi : s.slotIx f.session.toNat = some i)
    (hl : 16 + f.plen.toNat ≤ f.body.length) (hk : frameVerifies (s.slot i).hostKey f = true) :
    exec (.mgmtFrameReceive f) s = .next (sessionFrame i f
      (frameRequest f (gcmApply (s.slot i).hostKey (frameNonce f) (f.body.take f.plen.toNat))) (s.bump .cmdRxFrames [])) := by
  have hshort : ¬ f.body.length < 16 + f.plen.toNat := Nat.not_lt.mpr hl
  have hslot : (s.bump .cmdRxFrames []).slotIx f.session.toNat = some i := hi
  have hkey : frameVerifies ((s.bump .cmdRxFrames []).slot i).hostKey f = true := hk
  refine congrArg Host.Outcome.next ?_
  simp only [State.receive, hb, hu, hv, h0, hslot, hshort, hkey, ne_eq, not_true_eq_false, if_false, Bool.not_true,
    Bool.false_eq_true, decide_false]
  rfl

/-- A frame that passes checks 6 to 11 joins its session's queue. -/
theorem sessionFrame_accept {s : State} {f : MgmtFrame} {i : Nat} (hi : i < s.mgmt.slots.length)
    (hsalt : f.nonceSalt = (s.slot i).hostSalt) (hseq : f.nonceSeq = f.seq)
    (hf : seqFresh (s.slot i) f.seq.toNat = true) (hlast : f.seq.toNat ≠ 2 ^ 64 - 1)
    (hop : opAtArrival f.opcode.toNat = false) {params : List Byte}
    (hj : judge (s.slot i) f.opcode.toNat params f.flags f.tag = .accept) :
    sessionFrame i f (frameRequest f params) s =
      let t := s.setSlot i fun x => { x.takeSeq f.seq.toNat with
        peer := f.src
        peerVlan := f.tags.head?
        lastFrame := s.now
        cache := x.cache.filter fun c => decide (c.tag ≠ f.tag)
        cmds := x.cmds ++ [⟨f.tag, f.opcode.toNat, f.flags, params, s.mgmt.accepted, s.ptpNs, false, .queued, f.src, f.tags.head?,
          [], .firmware, none⟩] }
      { t with mgmt := { t.mgmt with accepted := s.mgmt.accepted + 1 } } := by
  have hpeer : (s.setSlot i fun y => { y with peer := f.src, peerVlan := f.tags.head? }).slot i =
      { s.slot i with peer := f.src, peerVlan := f.tags.head? } := slot_setSlot_same _ _ _ hi
  have hfresh : seqFresh { s.slot i with peer := f.src, peerVlan := f.tags.head? } f.seq.toNat = true := hf
  have htaken (u : Nat) : (s.setSlot i fun y =>
        { ({ y with peer := f.src, peerVlan := f.tags.head? } : Session).takeSeq f.seq.toNat with lastFrame := u }).slot i =
      { ({ s.slot i with peer := f.src, peerVlan := f.tags.head? } : Session).takeSeq f.seq.toNat with lastFrame := u } :=
    slot_setSlot_same _ _ _ hi
  have hjudge (u : Nat) : judge { ({ s.slot i with peer := f.src, peerVlan := f.tags.head? } : Session).takeSeq f.seq.toNat with
      lastFrame := u } f.opcode.toNat params f.flags f.tag = .accept := by
    obtain ⟨h, w, ht⟩ := takeSeq_only { s.slot i with peer := f.src, peerVlan := f.tags.head? } f.seq.toNat
    rw [ht]
    exact (judge_congr rfl rfl rfl rfl _ _ _ _).trans hj
  simp only [sessionFrame, hpeer, hsalt, hseq, hfresh, setSlot_setSlot, ne_eq, not_true_eq_false, or_self, if_false,
    Bool.not_true, Bool.false_eq_true, sessionCmd, frameRequest, htaken, hjudge, hlast, decide_false]
  have hslots : (fun x : Session => ({ ({ x with peer := f.src, peerVlan := f.tags.head? } : Session).takeSeq f.seq.toNat with
      lastFrame := s.now } : Session).accept
        (freshEntry ⟨⟨f.session, f.tag, f.flags⟩, f.opcode.toNat, params⟩ f.src f.tags.head? s.mgmt.accepted s.ptpNs false)) =
      fun x => { x.takeSeq f.seq.toNat with
        peer := f.src
        peerVlan := f.tags.head?
        lastFrame := s.now
        cache := x.cache.filter fun c => decide (c.tag ≠ f.tag)
        cmds := x.cmds ++ [⟨f.tag, f.opcode.toNat, f.flags, params, s.mgmt.accepted, s.ptpNs, false, .queued, f.src, f.tags.head?,
          [], .firmware, none⟩] } := by
    funext x
    simp only [Session.accept, freshEntry, hop, Bool.false_eq_true, if_false, Session.takeSeq]
    split <;> rfl
  exact congrArg (fun g => ({ s.setSlot i g with mgmt := { (s.setSlot i g).mgmt with accepted := s.mgmt.accepted + 1 } } : State)) hslots

/-- The state has answered on slot `i`: only the session's next sequence, the frames sent and registers differ. -/
def Answered (s : State) (i : Nat) (t : State) : Prop := ∃ k sent r,
  t = { s.setSlot i fun y => { y with txSeq := y.txSeq + k } with
    mgmt := { (s.setSlot i fun y => { y with txSeq := y.txSeq + k }).mgmt with sent := sent }, regs := r }

theorem Answered.refl (s : State) (i : Nat) : Answered s i s := by
  have h : modAt s.mgmt.slots i (fun y => { y with txSeq := y.txSeq + 0 }) = s.mgmt.slots :=
    modAt_id _ _ _ Session.free rfl
  refine ⟨0, s.mgmt.sent, s.regs, ?_⟩
  simp only [State.setSlot, h]

theorem Answered.of_regs {s t : State} {i : Nat} {r : AMap Word} (h : Answered { s with regs := r } i t) : Answered s i t := by
  obtain ⟨n, sent, r, rfl⟩ := h
  exact ⟨n, sent, r, rfl⟩

theorem Answered.slot {s t : State} {i : Nat} (h : Answered s i t) (hi : i < s.mgmt.slots.length) :
    ∃ k, t.slot i = { s.slot i with txSeq := (s.slot i).txSeq + k } := by
  obtain ⟨k, sent, r, rfl⟩ := h
  exact ⟨k, slot_setSlot_same s i _ hi⟩

theorem Answered.slot_ne {s t : State} {i j : Nat} (h : Answered s i t) (hj : j ≠ i) : t.slot j = s.slot j := by
  obtain ⟨k, sent, r, rfl⟩ := h
  exact slot_setSlot_ne s i j _ hj

theorem Answered.objs {s t : State} {i : Nat} (h : Answered s i t) : t.objs = s.objs := by
  obtain ⟨k, sent, r, rfl⟩ := h
  rfl

/-- A reply that leaves a sequence to spare closes nothing. -/
theorem sendOn_answered (s : State) {i : Nat} (op : Nat) (tag : BitVec 32) (flags extra : Byte) (dst : BitVec 48)
    (vlan : Option (BitVec 16)) (f : Final) (hi : i < s.mgmt.slots.length) (hx : (s.slot i).txSeq + 1 < 2 ^ 64 - 1) :
    Answered s i (s.sendOn i op tag flags extra dst vlan f) := by
  have hbusy : ∃ r, (if f.status = stBusy then s.bump .cmdBusy [] else s) = { s with regs := r } := by
    split
    · exact ⟨_, rfl⟩
    · exact ⟨s.regs, rfl⟩
  obtain ⟨r, hr⟩ := hbusy
  unfold State.sendOn
  rw [hr]
  refine Answered.of_regs (r := r) ?_
  have hix : ({ s with regs := r } : State).slot i = s.slot i := rfl
  by_cases hsend : replySent flags f.status = true ∧ ({ s with regs := r } : State).mgmtOn = true
  · have hslot := slot_setSlot_same ({ s with regs := r }) i (fun y => { y with txSeq := y.txSeq + 1 }) hi
    simp only [hsend, and_self, if_true]
    refine (if_neg ?_).symm ▸ ⟨1, _, _, rfl⟩
    have hseq : ((({ s with regs := r } : State).setSlot i fun y => { y with txSeq := y.txSeq + 1 }).slot i).txSeq =
        (s.slot i).txSeq + 1 := congrArg Session.txSeq hslot
    exact fun h => absurd (hseq.symm.trans h) (Nat.ne_of_lt hx)
  · simp only [if_neg hsend]
    have hne : ¬ (s.slot i).txSeq = 2 ^ 64 - 1 := by omega
    exact (if_neg hne).symm ▸ .refl _ _

/-- A frame that check 6 or 7 refuses is answered; of its session only the peer's address changes. -/
theorem sessionFrame_refused {s : State} {f : MgmtFrame} {i : Nat} (r : Request) (hi : i < s.mgmt.slots.length)
    (hx : (s.slot i).txSeq + 1 < 2 ^ 64 - 1)
    (hr : f.nonceSalt ≠ (s.slot i).hostSalt ∨ f.nonceSeq ≠ f.seq ∨ seqFresh (s.slot i) f.seq.toNat = false) :
    ∃ p, Answered p i (sessionFrame i f r s) ∧ p.objs = s.objs ∧ p.mgmt.slots.length = s.mgmt.slots.length ∧
      p.slot i = { s.slot i with peer := f.src, peerVlan := f.tags.head? } ∧ ∀ j ≠ i, p.slot j = s.slot j := by
  have hp := slot_setSlot_same s i (fun y => { y with peer := f.src, peerVlan := f.tags.head? }) hi
  have hlen : (s.setSlot i fun y => { y with peer := f.src, peerVlan := f.tags.head? }).mgmt.slots.length =
    s.mgmt.slots.length := modAt_length _ _ _
  refine ⟨s.setSlot i fun y => { y with peer := f.src, peerVlan := f.tags.head? }, ?_, rfl, hlen, hp,
    fun j hj => slot_setSlot_ne s i j _ hj⟩
  unfold sessionFrame
  dsimp only
  have hx' : ((s.setSlot i fun y => { y with peer := f.src, peerVlan := f.tags.head? }).slot i).txSeq + 1 < 2 ^ 64 - 1 := by
    rw [hp]
    exact hx
  by_cases hn : f.nonceSalt ≠ ((s.setSlot i fun y => { y with peer := f.src, peerVlan := f.tags.head? }).slot i).hostSalt ∨
      f.nonceSeq ≠ f.seq
  · rw [if_pos hn]
    exact sendOn_answered _ _ _ _ _ _ _ _ (hlen ▸ hi) hx'
  · have hq : seqFresh ((s.setSlot i fun y => { y with peer := f.src, peerVlan := f.tags.head? }).slot i) f.seq.toNat =
        false := by
      rw [hp] at hn ⊢
      obtain ⟨hs, hv⟩ := not_or.mp hn
      exact (hr.resolve_left hs).resolve_left hv
    rw [if_neg hn, hq, Bool.not_false, if_pos rfl]
    exact .of_regs (sendOn_answered _ _ _ _ _ _ _ _ (hlen ▸ hi) hx')

/-- Settles O6: the frame passes the checks up to its session's, which accept it or refuse it at 6 or 7. -/
theorem frameReceiveCompletes : Obligations.FrameReceiveCompletes := by
  refine ⟨fun s f i hb hu hv h0 hi hl hk hsalt hseq hf hlast hop => ?_, fun s f i hb hu hv h0 hi hl hk hx hr => ?_⟩
  · intro params hj t
    rw [receive_session hb hu hv h0 hi hl hk]
    have hslots : i < (s.bump .cmdRxFrames []).mgmt.slots.length := slotIx_lt hi
    have h := sessionFrame_accept (s := s.bump .cmdRxFrames []) hslots hsalt hseq hf hlast hop hj
    rw [h]
    rfl
  · obtain ⟨p, ha, hobjs, hlen, hpi, hpj⟩ := sessionFrame_refused (s := s.bump .cmdRxFrames [])
      (frameRequest f (gcmApply (s.slot i).hostKey (frameNonce f) (f.body.take f.plen.toNat))) (slotIx_lt hi) hx hr
    obtain ⟨k, hk'⟩ := ha.slot (hlen ▸ slotIx_lt hi)
    rw [hpi] at hk'
    refine ⟨_, receive_session hb hu hv h0 hi hl hk, ?_⟩
    rw [hk']
    exact ⟨rfl, rfl, rfl, rfl, rfl, rfl, ha.objs.trans hobjs, fun j hj => (ha.slot_ne hj).trans (hpj j hj)⟩

/-- A command at hand is one of an open session. -/
theorem AtHand.lt {s : State} {c : Instr} {i : Nat} {e : CmdEntry} {rest : List CmdEntry} (h : AtHand s c i e rest) :
    i < s.mgmt.slots.length := by
  obtain ⟨r, _, hr⟩ := Option.bind_eq_some_iff.mp h.waits
  obtain ⟨j, hj, hm⟩ := Option.bind_eq_some_iff.mp hr
  obtain ⟨p, _, hp⟩ := Option.map_eq_some_iff.mp hm
  obtain ⟨rfl, _⟩ := Prod.mk.inj hp
  exact slotIx_lt hj

/-- Taking the command at hand leaves the rest of its slot. -/
theorem AtHand.slot {s : State} {c : Instr} {i : Nat} {e : CmdEntry} {rest : List CmdEntry} (h : AtHand s c i e rest) :
    (s.setSlot i fun y => { y with arrivals := rest }).slot i = { s.slot i with arrivals := rest } :=
  slot_setSlot_same _ _ _ h.lt

/-- CMD_POLL answers what stands of the TAG (R67). -/
theorem cmdPoll_answers {s : State} {iss : Issuer} {tag : BitVec 32} {i : Nat} {e : CmdEntry} {rest : List CmdEntry}
    (h : AtHand s (.cmdPoll iss tag) i e rest) :
    let u := s.setSlot i fun y => { y with arrivals := rest }
    let answer (res : List Byte) : State :=
      (u.sendOn i e.opcode e.tag e.flags 0 e.src e.vlan ⟨stOk, 0, res⟩).endLast i e.last
    (∀ o, (s.slot i).cmds.find? (fun o => decide (o.tag = tag)) = some o →
      exec (.cmdPoll iss tag) s = .next (answer ([if o.phase = .queued then 1 else 2, 0] ++ beBytes 2 o.opcode))) ∧
    (∀ c, (s.slot i).cmds.find? (fun o => decide (o.tag = tag)) = none →
      (s.slot i).cache.find? (fun c => decide (c.tag = tag)) = some c →
      exec (.cmdPoll iss tag) s = .next (answer ([3, if 8932 < c.final.results.length then 1 else 0] ++ beBytes 2 c.opcode ++
        beBytes 2 c.final.status ++ beBytes 2 c.final.detail ++ [0, 0, 0, 0] ++
        if 8932 < c.final.results.length then [] else c.final.results))) ∧
    ((s.slot i).cmds.find? (fun o => decide (o.tag = tag)) = none →
      (s.slot i).cache.find? (fun c => decide (c.tag = tag)) = none →
      exec (.cmdPoll iss tag) s = .next (answer [0, 0, 0, 0])) := by
  intro u answer
  have hslot : u.slot i = { s.slot i with arrivals := rest } := h.slot
  refine ⟨fun o ho => ?_, fun c ho hc => ?_, fun ho hc => ?_⟩
  · refine congrArg Host.Outcome.next (arrivalCmd_waits h (st := stOk) (det := 0) ?_)
    simp only [u] at hslot
    simp only [hslot, ho]
    split <;> rfl
  · refine congrArg Host.Outcome.next (arrivalCmd_waits h (st := stOk) (det := 0) ?_)
    simp only [u] at hslot
    simp only [hslot, ho, hc]
    by_cases hl : 8932 < c.final.results.length
    · simp only [hl, decide_true, if_true]
      rfl
    · simp only [hl, decide_false, if_false]
      rfl
  · refine congrArg Host.Outcome.next (arrivalCmd_waits h (st := stOk) (det := 0) ?_)
    simp only [u] at hslot
    simp only [hslot, ho, hc]
    rfl

/-- CMD_CANCEL takes a command that has not started out of its queue, and no other (R67). -/
theorem cmdCancel_answers {s : State} {iss : Issuer} {tag : BitVec 32} {i : Nat} {e o : CmdEntry} {rest : List CmdEntry}
    (h : AtHand s (.cmdCancel iss tag) i e rest) (ho : (s.slot i).cmds.find? (fun o => decide (o.tag = tag)) = some o) :
    let u := s.setSlot i fun y => { y with arrivals := rest }
    (o.phase = .queued → exec (.cmdCancel iss tag) s = .next
      (((u.setSlot i fun y => { y with cmds := y.cmds.filter fun o => decide (o.tag ≠ tag) }).sendOn i e.opcode e.tag
        e.flags 0 e.src e.vlan ⟨stOk, 0, []⟩).endLast i e.last)) ∧
    (o.phase ≠ .queued → exec (.cmdCancel iss tag) s = .next
      ((u.sendOn i e.opcode e.tag e.flags 0 e.src e.vlan ⟨stBusy, 2, []⟩).endLast i e.last)) := by
  have hslot := h.slot
  refine ⟨fun hq => congrArg Host.Outcome.next (arrivalCmd_waits h ?_),
    fun hq => congrArg Host.Outcome.next (arrivalCmd_waits h ?_)⟩
  · simp only [hslot, ho, hq, if_true]
    rfl
  · simp only [hslot, ho, if_neg hq]

/-- A command that waits on session 0 is of session 0 (R57). -/
theorem WaitsZero.session {s : State} {iss : Issuer} {z : ZeroReq} {rest : List ZeroReq}
    (h : WaitsZero s (.devIdentify iss) z rest) : iss.session = 0 := by
  have hw : takeFirst (·.isOf ⟨iss, 5, []⟩) s.mgmt.zeroCmds = some (z, rest) := h.waits
  have hz := (takeFirst_some hw).1
  simp only [ZeroReq.isOf, decide_eq_true_eq] at hz
  exact hz.1

/-- An answer that changes nothing else ends the command. -/
theorem exec_ends {s s' : State} {c : Instr} {i : Nat} {e : CmdEntry} (h : Waits s c i e) {body : Body} {st det : Nat}
    {res : List Byte} (hx : exec c s = .next (hostCmd c body s)) (hb : body i s = (.done st det res, s'))
    (hst : st ≠ stInternal) : exec c s = .next (s'.ends i e st det res) := by
  rw [hx, hostCmd_waits h, runCmd_done hb hst]

/-- The close of an ACTIVE session (R61). -/
theorem closeSession_active {s : State} {i : Nat} (why : Nat) (h : (s.slot i).st = .active) :
    let x := s.slot i
    let left := x.cmds.filter fun e => decide (e.phase ≠ .queued)
    let t : State := s.setSlot i fun y =>
      if left.isEmpty then Session.free else { y with st := .closing, cmds := left, arrivals := [], cache := [] }
    let t : State := { t with objs := { t.objs with table := t.objs.table.filter fun p => decide (p.2.session ≠ x.number) } }
    let stops := s.tel.stream.enable && decide (s.tel.stream.session = x.number)
    let t : State := if stops then { t with tel := { t.tel with stream := { t.tel.stream with enable := false } } } else t
    s.closeSession i why = t.raiseEv 0x0101 1 (fidCmd x.engine) (beBytes 2 x.number ++ beBytes 1 why) := by
  have hn : ¬ (s.slot i).st ≠ .active := not_not_intro h
  simp only [State.closeSession, if_neg hn, Bool.and_eq_true, decide_eq_true_eq]
  rfl

/-- Settles O10: what CMD_POLL and CMD_CANCEL find, the commands that only answer, and the two ways to close a session. -/
theorem sessionCommandsComplete : Obligations.SessionCommandsComplete := by
  refine ⟨fun s iss tag i e rest h => cmdPoll_answers h, fun s iss tag i e o rest h ho => cmdCancel_answers h ho,
    fun s i => ⟨rfl, rfl⟩, fun s iss i e params h => exec_ends h rfl rfl (by decide), fun s iss i e h hs => ?_,
    fun s iss z rest h => ?_, fun s iss i e h => exec_ends h rfl rfl (by decide), fun s iss i e h => ?_,
    fun s slot h => congrArg Host.Outcome.next (if_pos h), fun s i why h => closeSession_active why h⟩
  · exact exec_ends h (congrArg Host.Outcome.next (if_neg hs)) rfl (by decide)
  · exact congrArg Host.Outcome.next ((if_pos h.session).trans (zeroCmd_waits h rfl))
  · exact congrArg Host.Outcome.next ((hostCmdThen_waits h _ _).trans (runCmd_done rfl (by decide)))

/-- A final reply on session 0 leaves everything but the frames sent and the count of BUSY replies. -/
theorem sendZero_only (s : State) (z : ZeroReq) (f : Final) (hb : f.status ≠ stBusy) :
    ∃ sent, s.sendZero z f = { s with mgmt := { s.mgmt with sent := sent } } := by
  simp only [State.sendZero, if_neg hb]
  split
  · exact ⟨_, rfl⟩
  · exact ⟨s.mgmt.sent, rfl⟩

/-- A free slot lies in the table. -/
theorem findSlot_lt {s : State} {p : Session → Bool} {i : Nat} (h : s.mgmt.slots.findIdx? p = some i) :
    i < s.mgmt.slots.length := (List.findIdx?_eq_some_iff_findIdx_eq.mp h).1

/-- A command that waits on session 0 ends with the answer of its meaning. -/
theorem exec_zero {s s' : State} {c : Instr} {z : ZeroReq} {rest : List ZeroReq} (h : WaitsZero s c z rest)
    {body : ZeroReq → State → Ans × State} {st det : Nat} {res : List Byte} (hx : exec c s = .next (zeroCmd c body s))
    (hb : body z { s with mgmt := { s.mgmt with zeroCmds := rest } } = (.done st det res, s')) :
    exec c s = .next (s'.sendZero z ⟨st, det, res⟩) := by
  rw [hx, zeroCmd_waits h hb]

/-- SESSION_OPEN takes the free slot for the engine chosen. -/
theorem sessionOpen_takes {s : State} {iss : Issuer} {x : BitVec 256} {k : BitVec 9472} {nonce : BitVec 256} {n i : Nat}
    {z : ZeroReq} {rest : List ZeroReq} (h : WaitsZero s (.sessionOpen iss x k nonce) z rest)
    (hn : s.chooseEngine = some n) (hi : s.freeSlot = some i) :
    let num := nextNumber ((s.mgmt.slots.filter fun y => decide (y.st ≠ .free)).map Session.number) s.mgmt.lastNumber 8
    ∃ (u : State) (res : List Byte) (y : Session),
      exec (.sessionOpen iss x k nonce) s = .next (u.sendZero z ⟨stOk, 0, res⟩) ∧
      u.mgmt.slots = modAt s.mgmt.slots i (fun _ => y) ∧ u.mgmt.lastNumber = num ∧
      y.st = .handshake ∧ y.engine = n ∧ y.number = num ∧ y.takenAt = s.now ∧ y.cmds = [] ∧
      u.nvm = s.nvm ∧ u.regs = s.regs ∧ u.objs = s.objs := by
  have hn' : ({ s with mgmt := { s.mgmt with zeroCmds := rest } } : State).chooseEngine = some n := hn
  have hi' : ({ s with mgmt := { s.mgmt with zeroCmds := rest } } : State).freeSlot = some i := hi
  refine ⟨?u, ?res, ?y, exec_zero h rfl ?answer, ?slots, ?rest⟩
  case answer =>
    simp only [hn', hi']
    rfl
  case slots => rfl
  case rest => exact ⟨rfl, rfl, rfl, rfl, rfl, rfl, rfl, rfl, rfl⟩

/-- A reply on session 0 leaves the slots and the parts that a handshake keeps. -/
theorem sendZero_slot (s : State) (z : ZeroReq) (f : Final) (hb : f.status ≠ stBusy) (j : Nat) :
    (s.sendZero z f).slot j = s.slot j := by
  obtain ⟨sent, h⟩ := sendZero_only s z f hb
  rw [h]
  rfl

section
variable {s : State} {iss : Issuer} {session : BitVec 16} {ed : BitVec 256} {ml : BitVec 15616}
  {sig : BitVec 512} {msig : BitVec 26472} {i : Nat} {z : ZeroReq} {rest : List ZeroReq}
  (h : WaitsZero s (.sessionFinish iss session 0 ed ml sig msig) z rest)
  (hi : s.mgmt.slots.findIdx? (fun y => decide (y.st = .handshake ∧ y.number = session.toNat)) = some i)
  (th2 : BitVec 384) (hth : th2 = Config.sha384 (bvBytes 48 (s.slot i).th1 ++ bvBytes 32 ed ++ bvBytes 1952 ml))
include h hi hth

/-- SESSION_FINISH with a trusted key and good signatures opens the session. -/
theorem sessionFinish_good
    (hk : ((trustKeys s.nvm.trust).getD []).contains (Config.sha384 (bvBytes 32 ed ++ bvBytes 1952 ml)) = true)
    (he : Config.edVerifies (bvBytes 32 ed) (0x48 :: bvBytes 48 th2) (bvBytes 64 sig) = true)
    (hm : Config.mldsaVerifies (bvBytes 1952 ml) (0x48 :: bvBytes 48 th2) (bvBytes 3309 msig) = true) :
    ∃ res, exec (.sessionFinish iss session 0 ed ml sig msig) s =
      .next (((({ s with mgmt := { s.mgmt with zeroCmds := rest } } : State).setSlot i fun y =>
        y.opened th2 s.now z.src z.vlan).bump .secHandshakes []).sendZero z ⟨stOk, 0, res⟩) := by
  subst hth
  refine ⟨?res, exec_zero h rfl ?answer⟩
  case answer =>
    have hslot : ({ s with mgmt := { s.mgmt with zeroCmds := rest } } : State).slot i = s.slot i := rfl
    refine (guardParams_ok _ _ (by simp)).trans ?_
    simp only [hi, hslot, hk, he, hm, Bool.not_true, Bool.false_eq_true, if_false]
    rfl

/-- SESSION_FINISH whose key is not trusted or whose signature is not good frees the slot. -/
theorem sessionFinish_bad
    (hbad : (((trustKeys s.nvm.trust).getD []).contains (Config.sha384 (bvBytes 32 ed ++ bvBytes 1952 ml)) &&
      Config.edVerifies (bvBytes 32 ed) (0x48 :: bvBytes 48 th2) (bvBytes 64 sig) &&
      Config.mldsaVerifies (bvBytes 1952 ml) (0x48 :: bvBytes 48 th2) (bvBytes 3309 msig)) = false) :
    ∃ d, exec (.sessionFinish iss session 0 ed ml sig msig) s =
      .next (((({ s with mgmt := { s.mgmt with zeroCmds := rest } } : State).setSlot i fun _ => Session.free).bump
        .secHandshakeFails []).sendZero z ⟨stAuthFail, d, []⟩) := by
  subst hth
  have hslot : ({ s with mgmt := { s.mgmt with zeroCmds := rest } } : State).slot i = s.slot i := rfl
  refine ⟨?d, exec_zero h rfl ?answer⟩
  case d =>
    exact if !(((trustKeys s.nvm.trust).getD []).contains (Config.sha384 (bvBytes 32 ed ++ bvBytes 1952 ml))) then 1
      else if !Config.edVerifies (bvBytes 32 ed) (0x48 :: bvBytes 48 (Config.sha384
        (bvBytes 48 (s.slot i).th1 ++ bvBytes 32 ed ++ bvBytes 1952 ml))) (bvBytes 64 sig) then 2 else 3
  case answer =>
    refine (guardParams_ok _ _ (by simp)).trans ?_
    simp only [hi, hslot]
    split
    · rfl
    · split
      · rfl
      · rename_i hk he
        have hm : Config.mldsaVerifies (bvBytes 1952 ml) (0x48 :: bvBytes 48 (Config.sha384
            (bvBytes 48 (s.slot i).th1 ++ bvBytes 32 ed ++ bvBytes 1952 ml))) (bvBytes 3309 msig) = false := by
          simp only [Bool.not_eq_true', Bool.not_eq_false] at hk he
          rwa [hk, he, Bool.true_and, Bool.true_and] at hbad
        rw [hm]
        rfl

end

/-- Settles O9: SESSION_OPEN writes one slot, SESSION_FINISH opens or frees it, and so does its timer. -/
theorem handshakeCompletes : Obligations.HandshakeCompletes := by
  refine ⟨fun s iss x k nonce n i z rest h hn hi => ?_, fun s iss session ed ml sig msig i z rest h hi => ?_,
    fun s slot h => congrArg Host.Outcome.next (if_pos h)⟩
  · obtain ⟨u, res, y, hx, hslots, hnum, hst, heng, hn', hat, hcmds, hnvm, hregs, hobjs⟩ := sessionOpen_takes h hn hi
    obtain ⟨sent, hs⟩ := sendZero_only u z ⟨stOk, 0, res⟩ (by decide : stOk ≠ stBusy)
    have hslot (j : Nat) := sendZero_slot u z ⟨stOk, 0, res⟩ (by decide : stOk ≠ stBusy) j
    have hown : u.slot i = y := by
      rw [State.slot, hslots]
      exact modAt_getD_same _ _ _ _ (findSlot_lt hi)
    refine ⟨_, hx, ?_⟩
    rw [hslot i, hown, hs]
    refine ⟨hst, heng, hn', hnum.trans hn'.symm, hat, hcmds, fun j hj => ?_, hnvm, hregs, hobjs⟩
    rw [← hs, hslot j, State.slot, hslots]
    exact modAt_getD_ne _ _ _ _ _ hj
  · intro th2 good
    let u : State := { s with mgmt := { s.mgmt with zeroCmds := rest } }
    have hlt : i < u.mgmt.slots.length := findSlot_lt hi
    cases hg : good with
    | true =>
      obtain ⟨⟨hk, he⟩, hm⟩ : (((trustKeys s.nvm.trust).getD []).contains
            (Config.sha384 (bvBytes 32 ed ++ bvBytes 1952 ml)) = true ∧
          Config.edVerifies (bvBytes 32 ed) (0x48 :: bvBytes 48 th2) (bvBytes 64 sig) = true) ∧
          Config.mldsaVerifies (bvBytes 1952 ml) (0x48 :: bvBytes 48 th2) (bvBytes 3309 msig) = true := by
        simpa only [good, Bool.and_eq_true] using hg
      obtain ⟨res, hx⟩ := sessionFinish_good h hi th2 rfl hk he hm
      let v := (u.setSlot i fun y => y.opened th2 s.now z.src z.vlan).bump .secHandshakes []
      obtain ⟨sent, hs⟩ := sendZero_only v z ⟨stOk, 0, res⟩ (by decide : stOk ≠ stBusy)
      have hslot (j : Nat) := sendZero_slot v z ⟨stOk, 0, res⟩ (by decide : stOk ≠ stBusy) j
      have hown := (hslot i).trans (slot_setSlot_same u i _ hlt)
      have hother (j : Nat) (hj : j ≠ i) := (hslot j).trans (slot_setSlot_ne u i j _ hj)
      refine ⟨_, hx, fun _ => ?_, nofun, hother, ?_, ?_⟩
      · rw [hown, hs]
        exact ⟨rfl, rfl, rfl, rfl, rfl, rfl⟩
      · rw [hs]
        rfl
      · rw [hs]
        rfl
    | false =>
      obtain ⟨d, hx⟩ := sessionFinish_bad h hi th2 rfl hg
      let v := (u.setSlot i fun _ => Session.free).bump .secHandshakeFails []
      obtain ⟨sent, hs⟩ := sendZero_only v z ⟨stAuthFail, d, []⟩ (by decide : stAuthFail ≠ stBusy)
      have hslot (j : Nat) := sendZero_slot v z ⟨stAuthFail, d, []⟩ (by decide : stAuthFail ≠ stBusy) j
      have hown := (hslot i).trans (slot_setSlot_same u i _ hlt)
      have hother (j : Nat) (hj : j ≠ i) := (hslot j).trans (slot_setSlot_ne u i j _ hj)
      refine ⟨_, hx, nofun, fun _ => ⟨hown, ?_⟩, hother, ?_, ?_⟩ <;> rw [hs] <;> rfl

/-! ## A reply on one session leaves the others -/

/-- The close of a session writes one slot. -/
theorem closeSession_mgmt (s : State) (i why : Nat) : ∃ g, (s.closeSession i why).mgmt = (s.setSlot i g).mgmt := by
  have stream (c : Prop) [Decidable c] (t : State) (r : Tel) : (if c then { t with tel := r } else t).mgmt = t.mgmt := by
    split <;> rfl
  by_cases h : (s.slot i).st = .active
  · exact ⟨_, (congrArg State.mgmt (closeSession_active why h)).trans ((raiseEv_mgmt _ _ _ _ _).trans (stream _ _ _))⟩
  · refine ⟨id, (congrArg State.mgmt (if_pos h)).trans ?_⟩
    have hid : modAt s.mgmt.slots i id = s.mgmt.slots := modAt_id _ _ _ Session.free rfl
    simp only [State.setSlot, hid]

theorem closeSession_slot_ne (s : State) {i j : Nat} (why : Nat) (hj : j ≠ i) :
    (s.closeSession i why).slot j = s.slot j := by
  obtain ⟨g, h⟩ := closeSession_mgmt s i why
  rw [State.slot, h]
  exact slot_setSlot_ne s i j g hj

theorem sendOn_slot_ne (s : State) {i j : Nat} (op : Nat) (tag : BitVec 32) (flags extra : Byte) (dst : BitVec 48)
    (vlan : Option (BitVec 16)) (f : Final) (hj : j ≠ i) :
    (s.sendOn i op tag flags extra dst vlan f).slot j = s.slot j := by
  have hbusy : (if f.status = stBusy then s.bump .cmdBusy [] else s).slot j = s.slot j := by split <;> rfl
  unfold State.sendOn
  generalize (if f.status = stBusy then s.bump .cmdBusy [] else s) = u at hbusy
  rw [← hbusy]
  extract_lets x key m w src t
  have ht : t.slot j = u.slot j := by
    simp only [t]
    split
    · exact slot_setSlot_ne u i j _ hj
    · rfl
  split
  · exact (closeSession_slot_ne t 3 hj).trans ht
  · exact ht

theorem finishCmd_slot_ne (s : State) {i j : Nat} (e : CmdEntry) (extra : Byte) (f : Final) (hj : j ≠ i) :
    (s.finishCmd i e extra f).slot j = s.slot j := by
  have hsend (t : State) (ht : t.slot j = s.slot j) : (t.endLast i e.last).slot j = s.slot j := by
    unfold State.endLast
    split
    · exact (closeSession_slot_ne t 3 hj).trans ht
    · exact ht
  exact hsend _ ((sendOn_slot_ne _ _ _ _ _ _ _ _ hj).trans (slot_setSlot_ne s i j _ hj))

/-- The commands of one slot that firmware runs end, each with the outcome of its job. -/
def State.endSlot (f : Job → Option Final) (s : State) (i : Nat) : State :=
  ((s.slot i).cmds.filter fun e => decide (e.phase = .running)).foldl (init := s) fun s e =>
    match f e.job with
    | some r => if (s.slot i).st = .closing then s.leaveClosing i e else s.finishCmd i e 0 r
    | none => s

theorem endRunning_eq (s : State) (f : Job → Option Final) :
    s.endRunning f = (List.range s.mgmt.slots.length).foldl (State.endSlot f) s := rfl

/-- A slot with no command ends none. -/
theorem endSlot_empty {s : State} {i : Nat} (h : (s.slot i).cmds = []) (f : Job → Option Final) : s.endSlot f i = s := by
  rw [State.endSlot, h]
  rfl

/-- Slots with no command end none. -/
theorem endSlots_empty {s : State} {js : List Nat} (h : ∀ j ∈ js, (s.slot j).cmds = []) (f : Job → Option Final) :
    js.foldl (State.endSlot f) s = s := by
  induction js with
  | nil => rfl
  | cons j js ih =>
    rw [List.foldl_cons, endSlot_empty (h j (by simp))]
    exact ih fun k hk => h k (by simp [hk])

/-- A single command that runs on an ACTIVE session ends with the outcome of its job. -/
theorem endSlot_single {s : State} {i : Nat} {e : CmdEntry} {f : Job → Option Final} {r : Final}
    (hc : (s.slot i).cmds = [e]) (hp : e.phase = .running) (hf : f e.job = some r) (ha : (s.slot i).st = .active) :
    s.endSlot f i = s.finishCmd i e 0 r := by
  have hn : ¬ (s.slot i).st = .closing := by simp [ha]
  simp only [State.endSlot, hc, List.filter_cons, hp, decide_true, if_true, List.filter_nil, List.foldl_cons,
    List.foldl_nil, hf, if_neg hn]

/-- The only command that runs ends, and no other slot is touched (R63). -/
theorem endRunning_single {s : State} {i : Nat} {e : CmdEntry} {f : Job → Option Final} {r : Final}
    (hc : (s.slot i).cmds = [e]) (hp : e.phase = .running) (hf : f e.job = some r) (ha : (s.slot i).st = .active)
    (hi : i < s.mgmt.slots.length) (ho : ∀ j ≠ i, (s.slot j).cmds = []) : s.endRunning f = s.finishCmd i e 0 r := by
  obtain ⟨k, hk⟩ : ∃ k, s.mgmt.slots.length = i + (1 + k) := ⟨s.mgmt.slots.length - i - 1, by omega⟩
  rw [endRunning_eq, hk, List.range_add, List.foldl_append, List.range_add, List.map_append, List.foldl_append,
    endSlots_empty fun j hj => ho j (by simp at hj; omega)]
  simp only [List.range_one, List.map_cons, List.map_nil, Nat.add_zero, List.foldl_cons, List.foldl_nil,
    endSlot_single hc hp hf ha]
  refine endSlots_empty (fun j hj => ?_) f
  have hj' : j ≠ i := by
    simp only [List.map_map, List.mem_map, List.mem_range, Function.comp] at hj
    omega
  rw [finishCmd_slot_ne s e 0 r hj']
  exact ho j hj'

/-- Settles O12. -/
theorem completionDelivered : Obligations.CompletionDelivered := by
  refine ⟨fun s session tag fw i e f hi he hf => ?_, fun s session tag i e f t hi he hf hw => ?_,
    fun s session tag r i e f t hi he hf hw => ?_, fun s session tag code applied i e hi he hf hb => ?_, fun _ _ _ => rfl,
    fun s i e job f hc hp hj ha hi ho => endRunning_single hc hp (by simp [hj]) ha hi ho, fun s i e f ha hi hn => ?_,
    fun s i e f ha hn => ?_, fun s i e f hc => ?_⟩
  · simp only [exec, execCommandComplete, hi, he, hf]
  · simp only [exec, execCommandComplete, hi, he, hf, hw]
  · simp only [exec, execCommandComplete, hi, he, hf, hw]
  · simp only [exec, execCommandComplete, hi, he, hf, hb, if_true]
  · simp [State.complete, ha, hn]
  · simp [State.complete, ha, hn]
  · simp [State.complete, hc, State.leaveClosing, State.setSlot]

end Sys2Proof.Machine
end

