-- ==== Sys2Proof/Proofs/Registers.lean ====
section
/-! PROOFS. Objects and registers: the host's commands that read and write them (R13 to R15, R74, R76, R78 to R81). -/

namespace Sys2Proof.Machine

/-- A command on an object of its session that passes its checks. -/
theorem onObject_ok {s : State} {i : Nat} {h : BitVec 16} {busy : Bool} {o : Obj} {cs : Obj → List (Bool × Nat)}
    {k : Obj → Ans × State} (ho : s.objOf (s.slot i).number h.toNat = some o)
    (hb : busy = true → s.objHeld i h.toNat = false) (hc : ∀ c ∈ cs o, c.1 = true) :
    onObject i h busy s cs k = k o := by
  have hn : ¬ (busy = true ∧ s.objHeld i h.toNat = true) := fun ⟨h₁, h₂⟩ => by simp [hb h₁] at h₂
  simp only [onObject, ho, if_neg hn]
  exact guardParams_ok s _ hc

/-- A final answer INTERNAL raises its event and ends the command (R69). -/
theorem runCmd_internal {i : Nat} {e : CmdEntry} {body : Body} {after : Nat → State → State} {s s' : State} {det : Nat}
    {res : List Byte} (h : body i s = (.done stInternal det res, s')) :
    runCmd i e body after s = after i ((s'.internalFault (s'.slot i).engine e.opcode det 0).ends i e stInternal det res) := by
  simp only [runCmd, h, if_true]
  rfl

/-- A byte of a store after bytes were stored at an offset. -/
theorem getD_storeBytes (m : AMap Byte) (off : Nat) (bs : List Byte) (a : Nat) :
    (storeBytes m off bs).getD a 0 = if off ≤ a then bs.getD (a - off) (m.getD a 0) else m.getD a 0 := by
  induction bs generalizing m off with
  | nil => simp [storeBytes]
  | cons b bs ih =>
    rw [storeBytes, ih]
    rcases Nat.lt_trichotomy a off with h | rfl | h
    · rw [if_neg (by omega), if_neg (by omega), AMap.getD_setD_ne _ _ _ _ (by omega)]
    · rw [if_neg (by omega), if_pos (Nat.le_refl a), AMap.getD_setD_same]
      simp
    · obtain ⟨d, rfl⟩ : ∃ d, a = off + 1 + d := ⟨a - off - 1, by omega⟩
      rw [if_pos (by omega), if_pos (by omega), AMap.getD_setD_ne _ _ _ _ (by omega)]
      have h₁ : off + 1 + d - (off + 1) = d := by omega
      have h₂ : off + 1 + d - off = d + 1 := by omega
      simp [h₁, h₂]

theorem read_one (o : Obj) (a : Nat) : o.read a 1 = [o.bytes.getD a 0] := rfl

/-- A read of an object that passes its checks: what the read meets, and then the bytes or INTERNAL. -/
theorem objRead_runs {s : State} {iss : Issuer} {i : Nat} {e : CmdEntry} {handle : BitVec 16} {offset count : BitVec 32}
    {o : Obj} {met : List BlockErr} (h : Waits s (.objRead iss handle 0 offset count met) i e)
    (ho : s.objOf (s.slot i).number handle.toNat = some o) (hs : o.sealed = true)
    (hl : offset.toNat + count.toNat ≤ o.length) (h1 : 1 ≤ count.toNat) (h2 : count.toNat ≤ 8944) {bad : Bool} {u : State}
    (hr : s.readObject handle.toNat offset.toNat count.toNat met = (bad, u)) :
    exec (.objRead iss handle 0 offset count met) s = .next
      (if bad then (u.internalFault (u.slot i).engine e.opcode 0x0A01 0).ends i e stInternal 0x0A01 []
      else u.ends i e stOk 0 (o.read offset.toNat count.toNat)) := by
  refine congrArg Host.Outcome.next ((hostCmd_waits h _).trans ?_)
  cases bad with
  | true =>
    refine runCmd_internal ((onObject_ok ho (by simp) (by simp [hs, rsvOk, hl, h1, h2])).trans ?_)
    rw [hr]
    rfl
  | false =>
    refine runCmd_done ((onObject_ok ho (by simp) (by simp [hs, rsvOk, hl, h1, h2])).trans ?_) (by decide)
    rw [hr]
    rfl

/-- Settles O13: each command passes its checks and does its one change, and bytes are stored one by one. -/
theorem objectCommandsComplete : Obligations.ObjectCommandsComplete := by
  refine ⟨fun s iss i e type length h ht₁ ht₂ hl₁ hl₂ hcount hused => ?_,
    fun s iss i e handle offset data o h ho hb hs hl => ?_, fun s iss i e handle o h ho hb => ?_,
    fun s iss i e handle offset count o met h ho hs hl h1 h2 => ⟨fun hbad => ?_, fun hbad => ?_⟩, fun _ _ _ _ => rfl,
    fun s iss i e handle o h ho hb => ?_, fun o off data a => ⟨fun k hk ha => ?_, fun ha => ?_⟩⟩
  · refine exec_ends h rfl ?_ (by decide)
    rw [guardParams_ok _ _ (by simp [rsvOk, ht₁, ht₂, hl₁, hl₂])]
    have hfits : ¬ (16 ≤ s.objs.count (s.slot i).number ∨ 536870912 < s.objs.used + length.toNat) := by omega
    simp only [State.newObject, if_neg hfits]
    rfl
  · exact exec_ends h rfl (onObject_ok ho (fun _ => hb) (by simp [hs, rsvOk, hl])) (by decide)
  · exact exec_ends h rfl (onObject_ok ho (fun _ => hb) (by simp [rsvOk])) (by decide)
  · rw [objRead_runs h ho hs hl h1 h2 rfl]
    exact congrArg Host.Outcome.next (if_neg (by simpa using hbad))
  · rw [objRead_runs h ho hs hl h1 h2 rfl]
    exact congrArg Host.Outcome.next (if_pos hbad)
  · exact exec_ends h rfl (onObject_ok ho (fun _ => hb) (by simp [rsvOk])) (by decide)
  · rw [read_one, getD_storeBytes, ha, if_pos (by omega)]
    simp [hk]
  · rw [read_one, read_one, getD_storeBytes]
    split
    · have hd : data.length ≤ a - off := by omega
      rw [List.getD_eq_default _ _ hd]
    · rfl

/-- The latches of a read (R74, R293). -/
theorem latchOn_cases (s : State) (r : Reg) (ix : List Nat) :
    let stamp (m : AMap Word) (r : Reg) (v : Nat) : AMap Word := m.setD (regAddr r ix) 0 (BitVec.ofNat 32 v)
    let times := stamp (stamp (stamp (stamp s.latch .timeFreeNsLo s.now) .timeFreeNsHi (s.now / 2 ^ 32)) .timePtpNsLo s.ptpNs)
      .timePtpNsHi (s.ptpNs / 2 ^ 32)
    (r = .timeFreeFrac ∨ r = .timePtpFrac → s.latchOn r ix = { s with latch := times }) ∧
    (r = .genArmTimeLo → s.latchOn r ix = { s with latch := stamp s.latch .genArmTimeHi (s.armTime / 2 ^ 32) }) ∧
    (r = .genHorizonLo →
      s.latchOn r ix = { s with latch := stamp s.latch .genHorizonHi (s.horizon (ix.getD 0 0) / 2 ^ 32) }) ∧
    (r = .telLogNextLo → s.latchOn r ix = { s with latch := stamp s.latch .telLogNextHi (s.tel.nextSeq / 2 ^ 32) }) ∧
    (r ∉ [Reg.timeFreeFrac, .timePtpFrac, .genArmTimeLo, .genHorizonLo, .telLogNextLo] → s.latchOn r ix = s) := by
  refine ⟨?_, ?_, ?_, ?_, fun h => ?_⟩
  · rintro (rfl | rfl) <;> rfl
  · rintro rfl
    rfl
  · rintro rfl
    rfl
  · rintro rfl
    rfl
  · simp only [List.mem_cons, List.not_mem_nil, or_false, not_or] at h
    obtain ⟨h₁, h₂, h₃, h₄, h₅⟩ := h
    unfold State.latchOn
    split
    case h_6 => rfl
    all_goals contradiction

/-- A read of an address that names a register of functions in service. -/
theorem readAt_done {s : State} {c : Instr} {i : Nat} {e : CmdEntry} {a : Addr} {r : Reg} {ix : List Nat}
    (h : Waits s c i e) (hloc : locate a = some (r, ix)) (hup : s.ownerDown a.toNat = none) (n : Nat) :
    readAt c a n s = ((s.latchOn r ix).clearCounter r ix n).ends i e stOk 0 (leBytes (s.readNow r ix)) :=
  (hostCmd_waits h _).trans (runCmd_done (atReg_found hloc hup 0 _) (by decide))

/-- The first address of a block that is not empty belongs to it. -/
theorem first_mem_blockAddrs {first : Addr} {n : Nat} (h : 1 ≤ n) : first ∈ blockAddrs first n := by
  refine List.mem_map.mpr ⟨0, List.mem_range.mpr h, ?_⟩
  have hlt : first.toNat + 4 * 0 < 2 ^ 32 := first.isLt
  rw [if_pos hlt]
  exact BitVec.add_zero first

/-- Settles O14: the three rows of a read are one body, and so are its latches and its clear. -/
theorem registerReadsComplete : Obligations.RegisterReadsComplete := by
  refine ⟨fun s iss i e a r ix h hloc hup => ⟨?_, ?_, fun n => ?_⟩, fun s r ix n h => ?_, fun s r ix n h => if_pos h,
    fun s r ix => latchOn_cases s r ix, fun s iss i e first count h h1 h2 ha => ?_⟩
  · exact congrArg Host.Outcome.next (readAt_done h hloc hup 0)
  · have h' : Waits s (.latchingRegisterRead iss a) i e := ⟨h.booted, h.waits, h.start⟩
    exact congrArg Host.Outcome.next (readAt_done h' hloc hup 0)
  · have h' : Waits s (.rcRegisterRead iss a n) i e := ⟨h.booted, h.waits, h.start⟩
    exact congrArg Host.Outcome.next (readAt_done h' hloc hup n)
  · rw [clearCounter_reg s r ix n h]
    exact congrArg (fun k => BitVec.ofNat 32 (min k (2 ^ 32 - 1))) (Nat.zero_add n)
  · have hfirst := (ha first (first_mem_blockAddrs h1)).1
    have hall : ((blockAddrs first count.toNat).all fun a => (locate a).isSome) = true :=
      List.all_eq_true.mpr fun a hm => (ha a hm).1
    have hdown : (blockAddrs first count.toNat).findSome? (fun a => s.ownerDown a.toNat) = none :=
      List.findSome?_eq_none_iff.mpr fun a hm => (ha a hm).2
    refine exec_ends h rfl ?_ (by decide)
    rw [guardParams_ok _ _ (by simp [hfirst, hall, h1, h2]), hdown]
    rfl

/-! ## The fields of a register -/

/-- Two fields have no bit in common. -/
def FieldSpec.apart (f g : FieldSpec) : Bool := decide (f.hi < g.lo) || decide (g.hi < f.lo)

/-- A register's fields lie in its word, their reset values fit, and no two share a bit. -/
def RegRow.sound (x : RegRow) : Bool := x.fields.all fun f =>
  decide (f.lo ≤ f.hi) && decide (f.hi < 32) && f.reset.all (fun v => decide (v < 2 ^ (f.hi + 1 - f.lo))) &&
    x.fields.all fun g => decide (f = g) || f.apart g

/-- Every register of the map is so. -/
theorem row_sound (r : Reg) : r.row.sound = true := by
  cases r <;> rfl

theorem mem_row_sound {r : Reg} {f : FieldSpec} (hf : f ∈ r.row.fields) :
    f.lo ≤ f.hi ∧ f.hi < 32 ∧ (∀ v ∈ f.reset, v < 2 ^ (f.hi + 1 - f.lo)) ∧ ∀ g ∈ r.row.fields, f ≠ g → f.apart g = true := by
  have h := List.all_eq_true.mp (row_sound r) f hf
  simp only [Bool.and_eq_true, decide_eq_true_eq, List.all_eq_true, Bool.or_eq_true] at h
  obtain ⟨⟨⟨hlo, hhi⟩, hr⟩, hg⟩ := h
  exact ⟨hlo, hhi, hr, fun g hm hne => (hg g hm).resolve_left hne⟩

/-- A field's reset value fits, whatever the indexes. -/
theorem resetAt_lt {r : Reg} {f : FieldSpec} (hf : f ∈ r.row.fields) (ix : List Nat) :
    f.resetAt ix < 2 ^ (f.hi + 1 - f.lo) := by
  obtain ⟨_, _, hr, _⟩ := mem_row_sound hf
  unfold FieldSpec.resetAt
  split
  next v hv => exact hr v (by simp [hv])
  next =>
    rw [List.getD_eq_getElem?_getD]
    cases hk : f.reset[ix.getLastD 0]? with
    | none => exact Nat.two_pow_pos _
    | some v => exact hr v (List.mem_of_getElem? hk)

theorem mask_getLsbD (f : FieldSpec) (n : Nat) :
    f.mask.getLsbD n = (decide (n < 32) && (decide (f.lo ≤ n) && decide (n < f.hi + 1))) := by
  rw [FieldSpec.mask, BitVec.getLsbD_ofNat, Nat.testBit_mul_two_pow, Nat.testBit_two_pow_sub_one]
  congr 1
  by_cases h : f.lo ≤ n
  · have hiff : n - f.lo < f.hi + 1 - f.lo ↔ n < f.hi + 1 := by omega
    simp [h, hiff]
  · simp [h]

theorem get_testBit (f : FieldSpec) (w : Word) (n : Nat) :
    (f.get w).testBit n = (decide (n < f.hi + 1 - f.lo) && w.getLsbD (f.lo + n)) := by
  rw [FieldSpec.get, Nat.testBit_mod_two_pow, Nat.testBit_div_two_pow, Nat.add_comm n]
  rfl

theorem put_getLsbD (f : FieldSpec) (w : Word) (v n : Nat) : (f.put w v).getLsbD n =
    if f.mask.getLsbD n then decide (f.lo ≤ n) && v.testBit (n - f.lo) else w.getLsbD n := by
  by_cases hn : n < 32
  · simp only [FieldSpec.put, BitVec.getLsbD_or, BitVec.getLsbD_and, BitVec.getLsbD_not, hn, decide_true, Bool.true_and,
      BitVec.getLsbD_ofNat, Nat.testBit_mul_two_pow]
    cases f.mask.getLsbD n with
    | true => simp
    | false => simp
  · have hw (x : Word) : x.getLsbD n = false := BitVec.getLsbD_of_ge x n (by omega)
    simp [hw]

/-- A field that is put reads as what was put. -/
theorem get_put_same {f : FieldSpec} (hhi : f.hi < 32) (w : Word) {v : Nat}
    (hv : v < 2 ^ (f.hi + 1 - f.lo)) : f.get (f.put w v) = v := by
  apply Nat.eq_of_testBit_eq
  intro n
  rw [get_testBit, put_getLsbD, mask_getLsbD]
  by_cases hn : n < f.hi + 1 - f.lo
  · have h₁ : f.lo + n < 32 := by omega
    have h₂ : f.lo + n < f.hi + 1 := by omega
    simp [hn, h₁, h₂]
  · have hz : v.testBit n = false :=
      Nat.testBit_lt_two_pow (Nat.lt_of_lt_of_le hv (Nat.pow_le_pow_right (by decide) (by omega)))
    simp [hn, hz]

/-- Another field is left. -/
theorem get_put_apart {f g : FieldSpec} (h : f.apart g = true) (w : Word) (v : Nat) : f.get (g.put w v) = f.get w := by
  apply Nat.eq_of_testBit_eq
  intro n
  rw [get_testBit, get_testBit, put_getLsbD, mask_getLsbD]
  by_cases hn : n < f.hi + 1 - f.lo
  · have hout : ¬ (g.lo ≤ f.lo + n ∧ f.lo + n < g.hi + 1) := by
      simp only [FieldSpec.apart, Bool.or_eq_true, decide_eq_true_eq] at h
      omega
    have hm : (decide (g.lo ≤ f.lo + n) && decide (f.lo + n < g.hi + 1)) = false := by
      simpa using hout
    rw [hm, Bool.and_false, if_neg Bool.false_ne_true]
  · simp [hn]

/-- The fields that a legal word resets read as their reset values, and every other as it was (R14). -/
theorem legalWord_get {r : Reg} {f : FieldSpec} (hf : f ∈ r.row.fields) (ix : List Nat) {fs : List FieldSpec}
    (hfs : ∀ g ∈ fs, g ∈ r.row.fields) (w : Word) :
    (f ∈ fs → f.get (legalWord ix fs w) = f.resetAt ix) ∧ (f ∉ fs → f.get (legalWord ix fs w) = f.get w) := by
  obtain ⟨_, hhi, _, hapart⟩ := mem_row_sound hf
  induction fs generalizing w with
  | nil => simp [legalWord]
  | cons g fs ih =>
    have ih := ih (fun k hk => hfs k (by simp [hk])) (g.put w (g.resetAt ix))
    by_cases hgf : f = g
    · subst hgf
      refine ⟨fun _ => ?_, fun h => absurd (by simp) h⟩
      by_cases hm : f ∈ fs
      · exact ih.1 hm
      · exact (ih.2 hm).trans (get_put_same hhi w (resetAt_lt hf ix))
    · refine ⟨fun h => ih.1 (by simpa [hgf] using h), fun h => ?_⟩
      have hm : f ∉ fs := fun hm => h (by simp [hm])
      exact (ih.2 hm).trans (get_put_apart (hapart g (hfs g (by simp)) hgf) w _)

theorem badFields_mem {r : Reg} {w : Word} {g : FieldSpec} (h : g ∈ badFields r w) : g ∈ r.row.fields := by
  rw [badFields, List.mem_append] at h
  obtain h | h := h
  · exact (List.mem_filter.mp h).1
  · split at h
    · exact (List.mem_filter.mp h).1
    · exact absurd h (by simp)

/-! ## A write, and the rows that are one -/

/-- What a write that changes KEEPALIVE does once its reply is sent (R88). -/
def State.afterWrite (s : State) (t : State) : State :=
  if t.regBits .cmdConfig [] 7 0 = s.regBits .cmdConfig [] 7 0 then t else t.closeIdle

/-- A write to an address that names a register of functions in service. -/
theorem writeAt_done {s : State} {c : Instr} {i : Nat} {e : CmdEntry} {a : Addr} {r : Reg} {ix : List Nat}
    (h : Waits s c i e) (hloc : locate a = some (r, ix)) (hup : s.ownerDown a.toNat = none) (v hw : Word) :
    writeAt c a v hw s = s.afterWrite ((s.writeReg r ix v hw (s.slot i).number).ends i e stOk 0 []) :=
  regWriting_done h (atReg_found hloc hup 0 _) (by decide)

theorem locate_cmdConfig : locate (BitVec.ofNat 32 (regAddr .cmdConfig [])) = some (.cmdConfig, []) := by rfl
theorem locate_tblCmd : locate (BitVec.ofNat 32 (regAddr .tblCmd [])) = some (.tblCmd, []) := by rfl
theorem locate_tcSpolCmd : locate (BitVec.ofNat 32 (regAddr .tcSpolCmd [])) = some (.tcSpolCmd, []) := by rfl

/-- No function owns the registers that these rows name. -/
theorem ownerDown_cmdConfig (s : State) : s.ownerDown (BitVec.ofNat 32 (regAddr .cmdConfig []) : Addr).toNat = none := rfl
theorem ownerDown_tblCmd (s : State) : s.ownerDown (BitVec.ofNat 32 (regAddr .tblCmd []) : Addr).toNat = none := rfl
theorem ownerDown_tcSpolCmd (s : State) : s.ownerDown (BitVec.ofNat 32 (regAddr .tcSpolCmd []) : Addr).toNat = none := rfl

/-- Settles O15: the rows are one write, and a write resets the fields that it would leave reserved one by one. -/
theorem registerWritesComplete : Obligations.RegisterWritesComplete := by
  refine ⟨fun s iss i e => ⟨fun a r ix v hw hloc hup => ⟨fun h => ?_, fun h => ?_, fun h => ?_⟩, fun v h => ?_,
    fun v => ⟨fun h => ?_, fun h => ?_, fun h => ?_, fun h => ?_⟩, fun h => ?_, fun h => ?_, fun h => ?_⟩,
    fun s t iss i e pairs h hloc hdown hw => ?_, fun s r ix v hw n hi ho => ⟨fun hb => ?_, fun hb => ?_⟩,
    fun r ix w f hf => legalWord_get hf ix (fun g hg => badFields_mem hg) w⟩
  · exact congrArg Host.Outcome.next (writeAt_done h hloc hup v 0)
  · exact congrArg Host.Outcome.next (writeAt_done h hloc hup v hw)
  · exact congrArg Host.Outcome.next (writeAt_done h hloc hup v 0)
  · exact congrArg Host.Outcome.next (writeAt_done h locate_cmdConfig (ownerDown_cmdConfig s) v 0)
  · exact congrArg Host.Outcome.next (writeAt_done h locate_tblCmd (ownerDown_tblCmd s) _ 0)
  · exact congrArg Host.Outcome.next (writeAt_done h locate_tblCmd (ownerDown_tblCmd s) _ 0)
  · exact congrArg Host.Outcome.next (writeAt_done h locate_tblCmd (ownerDown_tblCmd s) _ 0)
  · exact congrArg Host.Outcome.next (writeAt_done h locate_tblCmd (ownerDown_tblCmd s) _ 0)
  · exact congrArg Host.Outcome.next (writeAt_done h locate_tcSpolCmd (ownerDown_tcSpolCmd s) 1 0)
  · exact congrArg Host.Outcome.next (writeAt_done h locate_tcSpolCmd (ownerDown_tcSpolCmd s) 2 0)
  · exact congrArg Host.Outcome.next (writeAt_done h locate_tcSpolCmd (ownerDown_tcSpolCmd s) 3 0)
  · refine congrArg Host.Outcome.next (regWriting_done h ?_ (by decide))
    rw [guardParams_ok _ _ ?_, hdown, hw]
    · rfl
    · intro c hc
      obtain ⟨p, hp, rfl⟩ := List.mem_map.mp hc
      exact hloc p.1 (List.fst_mem_of_mem_zipIdx hp)
  · simp only [State.writeReg, hi, Bool.false_eq_true, if_false, ho]
    rw [hb]
    rfl
  · have hn : (badFields r (writtenWord r (s.reg r ix) v hw)).isEmpty = false := by simpa using hb
    simp only [State.writeReg, hi, Bool.false_eq_true, if_false, ho, hn]

end Sys2Proof.Machine
end

