-- ==== Sys2Proof/Proofs/TableCommands.lean ====
section
/-! PROOFS. Table entries, the route generations' commands, and the part's rounds over its tables. -/

namespace Sys2Proof.Machine

/-- The parameters that name quadrants, a table and the flags are legal. -/
theorem maskParams_ok {qmask table flags : Byte} (h0 : 0 < qmask.toNat) (h16 : qmask.toNat < 16) (ht : table.toNat < 6)
    (hf : flags.toNat < 2) : ∀ c ∈ maskParams qmask table flags 0, c.1 = true := by
  simp [maskParams, rsvOk, h0, h16, ht, hf]

theorem quadParams_ok {quad table flags : Byte} (hq : quad.toNat < 4) (ht : table.toNat < 6) (hf : flags.toNat < 2) :
    ∀ c ∈ quadParams quad table flags 0, c.1 = true := by
  simp [quadParams, rsvOk, hq, ht, hf]

/-- A table that no pending activation holds may be written. -/
theorem guardTable_ok {s : State} {session tb qmask lo hi : Nat} {limit : Option Nat}
    (hc : s.conflict session limit tb qmask lo hi = none) (hb : s.bankRefusal tb = none) (k : Ans × State) :
    guardTable session limit tb qmask lo hi s k = k := by
  simp only [guardTable, hc, hb]

/-- A command that takes a sealed object of its session runs on it. -/
theorem withObject_ok {s : State} {i off type : Nat} {h : BitVec 16} {lengthOk : Nat → Bool} {before after : List (Bool × Nat)}
    {fids : List Nat} {o : Obj} (ho : s.objOf (s.slot i).number h.toNat = some o) (hb : s.objBusy h.toNat = false)
    (hs : o.sealed = true) (ht : o.type = type) (hl : lengthOk o.length = true) (hbefore : ∀ c ∈ before, c.1 = true)
    (hafter : ∀ c ∈ after, c.1 = true) (hup : ∀ f ∈ fids, s.fnDown f = false) (k : Obj → Ans × State) :
    withObject i h off type lengthOk before after fids s k = k o := by
  have hc : ∀ c ∈ before ++ (decide (o.sealed ∧ o.type = type) && lengthOk o.length, off) :: after, c.1 = true := by
    intro c hm
    rw [List.mem_append, List.mem_cons] at hm
    obtain hm | rfl | hm := hm
    · exact hbefore c hm
    · simp [hs, ht, hl]
    · exact hafter c hm
  simp only [withObject, ho, hb, Bool.false_eq_true, if_false]
  rw [guardParams_ok _ _ hc, guardUp_ok _ _ hup]

/-- An object whose bytes are all correctable is read whole. -/
theorem consuming_ok {s : State} {h : BitVec 16} {o : Obj} {met : List BlockErr}
    (hr : (s.readObject h.toNat 0 o.length met).1 = false) (k : State → Ans × State) :
    consuming h o met s k = k (s.readObject h.toNat 0 o.length met).2 := by
  simp only [consuming, hr, Bool.false_eq_true, if_false]

theorem answerObject_some {s t : State} {session h : Nat} {bytes : List Byte}
    (hr : s.resultObject session bytes = some (h, t)) :
    answerObject session bytes s = (.done stOk 0 (beBytes 2 h ++ [0, 0]), t) := by
  simp only [answerObject, hr]
  rfl

/-- A move within the table that splits no pair, and moves pairs by even distances, is legal. -/
theorem moveParams_ok {s : State} {qmask src dst n osrc odst on : Nat} (h1 : 1 ≤ n) (hs : src + n ≤ 262144)
    (hd : dst + n ≤ 262144)
    (hq : ∀ q ∈ quadsOf qmask, splitsPair s.tables.entries q src n = false ∧ splitsPair s.tables.entries q dst n = false ∧
      ((dst + src) % 2 = 0 ∨ rangeHasV6 s.tables.entries q src n = false)) :
    ∀ c ∈ s.moveParams qmask src dst n osrc odst on, c.1 = true := by
  have hn : 1 ≤ n ∧ n ≤ 262144 := ⟨h1, by omega⟩
  have hsrc : ((quadsOf qmask).all fun q => !splitsPair s.tables.entries q src n) = true :=
    List.all_eq_true.mpr fun q hm => by simp [(hq q hm).1]
  have hdst : ((quadsOf qmask).all fun q => !splitsPair s.tables.entries q dst n &&
      (decide ((dst + src) % 2 = 0) || !rangeHasV6 s.tables.entries q src n)) = true :=
    List.all_eq_true.mpr fun q hm => by
      obtain ⟨_, hd, hpar⟩ := hq q hm
      simpa [hd] using hpar
  simp only [State.moveParams, hn, hs, hd, hsrc, hdst, and_self, decide_true, if_true, Bool.and_self, List.forall_mem_cons,
    List.not_mem_nil, false_imp_iff, implies_true]

/-- Settles O19: each row passes its checks in their order and then does its one change. -/
theorem tableCommandsComplete : Obligations.TableCommandsComplete := by
  refine ⟨fun s iss i e qmask table flags index image h0 h16 ht hf hn hup hc hb => ⟨fun h hlpm himg => ?_, fun h hlpm => ?_⟩,
    fun s iss i e quad table flags index h hq ht hf hn hup => ?_,
    fun s iss i e qmask flags src dst count h h0 h16 hf h1 hsrc hdst hpair hup hc => ?_,
    fun s iss i e rate repair h hr hp => ?_,
    fun s iss i e qmask table flags handle first count met o t h h0 h16 ht hf h1 hn ho hob hs hty hread hlen hup hc hb hbulk => ?_,
    fun s iss i e quad table flags first count h hq ht hf h1 hmax hn hup => ?_⟩
  · refine exec_ends h rfl ?_ (by decide)
    rw [guardParams_ok, guardUp_ok _ _ hup, guardTable_ok hc hb]
    · rfl
    · rw [List.forall_mem_append]
      exact ⟨maskParams_ok h0 h16 ht hf, by simp [hn, hlpm, himg]⟩
  · refine exec_ends h rfl ?_ (by decide)
    rw [guardParams_ok, guardUp_ok _ _ hup, guardTable_ok hc hb]
    · rfl
    · rw [List.forall_mem_append]
      refine ⟨maskParams_ok h0 h16 ht hf, ?_⟩
      simp only [hn, hlpm, decide_true, Bool.and_self, List.forall_mem_singleton]
  · refine exec_ends h rfl ?_ (by decide)
    rw [guardParams_ok, guardUp_ok _ _ (by simp [hup])]
    · rfl
    · rw [List.forall_mem_append]
      exact ⟨quadParams_ok hq ht hf, by simp [hn]⟩
  · refine exec_ends h rfl ?_ (by decide)
    rw [guardParams_ok, guardUp_ok _ _ hup, guardTable_ok hc rfl]
    · rfl
    · rw [List.forall_mem_append]
      exact ⟨by simp [rsvOk, h0, h16, hf], moveParams_ok h1 hsrc hdst hpair⟩
  · refine exec_ends h rfl ?_ (by decide)
    rw [guardParams_ok _ _ (by simp [rsvOk, hr, hp])]
    rfl
  · refine exec_ends h rfl ?_ (by decide)
    rw [withObject_ok ho hob hs hty _ (maskParams_ok h0 h16 ht hf) _ hup, guardTable_ok hc hb, consuming_ok hread, hbulk]
    · rfl
    · simpa using hlen
    · have hlo : first.toNat < tblSize table.toNat := by omega
      simp [rsvOk, hlo, h1, hn]
  · intro m bytes n t hres
    refine exec_ends h rfl ?_ (by decide)
    rw [guardParams_ok, guardUp_ok _ _ (by simp [hup])]
    · exact answerObject_some hres
    · have hlo : first.toNat < tblSize table.toNat := by omega
      rw [List.forall_mem_append]
      exact ⟨quadParams_ok hq ht hf, by simp [hlo, h1, hmax, hn]⟩

/-- A PENDING answer leaves the command waiting on its job. -/
theorem exec_pends {s s' : State} {c : Instr} {i : Nat} {e : CmdEntry} (h : Waits s c i e) {body : Body}
    {objs : List Nat} {job : Job} (hx : exec c s = .next (hostCmd c body s)) (hb : body i s = (.pend objs job, s')) :
    exec c s = .next (s'.pendCmd i e objs job) := by
  rw [hx, hostCmd_waits h, runCmd_pend hb]

section
variable {s : State} {iss : Issuer} {i : Nat} {e : CmdEntry} {handle : BitVec 16} {t : BitVec 64}
    {met : List BlockErr} {o : Obj} (h : Waits s (.genActivate iss 2 0 handle t met) i e)
    (ho : s.objOf (s.slot i).number handle.toNat = some o) (hob : s.objBusy handle.toNat = false) (hs : o.sealed = true)
    (hty : o.type = 4) (hlen : o.length = 16384) (hread : (s.readObject handle.toNat 0 o.length met).1 = false)
    (hlo : s.startingReceipt i + 2000 ≤ t.toNat) (hhi : t.toNat ≤ s.startingReceipt i + 10000000000)
    (hup : ∀ q < 4, s.fnDown (fidTbl q) = false)
    (h2 : s.conflict (s.slot i).number (some (s.startingOrder i)) 2 15 0 512 = none)
    (h3 : s.conflict (s.slot i).number (some (s.startingOrder i)) 3 15 0 512 = none) (hq : s.gen.queued = none)
include h ho hob hs hty hlen hread hlo hhi hup h2 h3 hq

/-- An activation with an image loads it into the bank that is IDLE, and arms that. -/
theorem genActivate_loads (hst : (s.gen.bank (1 - s.gen.act)).st = .idle) :
    let n := 1 - s.gen.act
    let u := (s.readObject handle.toNat 0 o.length met).2
    exec (.genActivate iss 2 0 handle t met) s = .next (({ u.loadBank n (objImages o 512) with
      gen := u.gen.setBank n { s.gen.bank n with st := .armed, t := t.toNat, immediate := false } } : State).pendCmd
        i e [handle.toNat] (.genActivate n)) := by
  refine exec_pends h rfl ?_
  have h0 : (2 : Byte).getLsbD 0 = false := by decide
  have h1 : (2 : Byte).getLsbD 1 = true := by decide
  have hf : ∀ f ∈ [fidTbl 0, fidTbl 1, fidTbl 2, fidTbl 3], s.fnDown f = false := by simp [hup]
  have ha : ¬ BankState.idle = .armed := nofun
  have hd : ¬ BankState.idle = .draining := nofun
  dsimp only
  rw [h0, h1, if_pos rfl, withObject_ok ho hob hs hty (by simp [hlen]) (by simp [rsvOk]) (by simp [hlo, hhi]) hf]
  simp only [h2, h3, hst, hq, ha, hd, Option.isSome_none, Bool.false_eq_true, or_self, if_false, consuming_ok hread]
  rfl

/-- An activation with an image waits in the queue while the bank is DRAINING. -/
theorem genActivate_queues (hst : (s.gen.bank (1 - s.gen.act)).st = .draining) :
    let u := (s.readObject handle.toNat 0 o.length met).2
    exec (.genActivate iss 2 0 handle t met) s = .next (({ u with
      gen := { u.gen with queued := some ⟨t.toNat, false, objImages o 512⟩ } } : State).pendCmd i e [handle.toNat]
        (.genActivate (1 - s.gen.act))) := by
  refine exec_pends h rfl ?_
  have h0 : (2 : Byte).getLsbD 0 = false := by decide
  have h1 : (2 : Byte).getLsbD 1 = true := by decide
  have hf : ∀ f ∈ [fidTbl 0, fidTbl 1, fidTbl 2, fidTbl 3], s.fnDown f = false := by simp [hup]
  have ha : ¬ BankState.draining = .armed := nofun
  dsimp only
  rw [h0, h1, if_pos rfl, withObject_ok ho hob hs hty (by simp [hlen]) (by simp [rsvOk]) (by simp [hlo, hhi]) hf]
  simp only [h2, h3, hst, hq, ha, Option.isSome_none, Bool.false_eq_true, or_self, if_false, if_true, consuming_ok hread]
  rfl

end

/-- Reading an object leaves the route generations. -/
theorem readObject_gen (s : State) (h off n : Nat) (met : List BlockErr) : (s.readObject h off n met).2.gen = s.gen :=
  (readObject_still s h off n met).2.2.1

/-- Settles O22: an activation without an image arms the idle bank; one with an image loads it or waits in the queue. -/
theorem generationCommandsComplete : Obligations.GenerationCommandsComplete := by
  refine ⟨fun s iss i e t h2 h3 hidle => ⟨fun h hlo hhi => ?_, fun h => ?_⟩,
    fun s iss i e handle t met o h ho hob hs hty hlen hread hlo hhi hup h2 h3 hq => ⟨fun hst => ?_, fun hst => ?_⟩,
    fun s iss i e h => exec_ends h rfl rfl (by decide), fun s iss i e h hq harm => ?_⟩
  · refine exec_pends h rfl ?_
    have ht : s.startingReceipt i + 2000 ≤ t.toNat ∧ t.toNat ≤ s.startingReceipt i + 10000000000 := ⟨hlo, hhi⟩
    have hf : ∀ n, (0 : Byte).getLsbD n = false := fun n => by simp
    dsimp only
    rw [hf, hf]
    simp [guardParams, firstBad, rsvOk, ht, h2, h3, hidle]
  · refine exec_pends h rfl ?_
    have h0 : (1 : Byte).getLsbD 0 = true := by decide
    have h1 : (1 : Byte).getLsbD 1 = false := by decide
    dsimp only
    rw [h0, h1]
    simp [guardParams, firstBad, rsvOk, h2, h3, hidle]
  · have hx := genActivate_loads h ho hob hs hty hlen hread hlo hhi hup h2 h3 hq hst
    dsimp only at hx
    rwa [readObject_gen] at hx
  · have hx := genActivate_queues h ho hob hs hty hlen hread hlo hhi hup h2 h3 hq hst
    dsimp only at hx
    rwa [readObject_gen] at hx
  · refine exec_ends h rfl ?_ (by decide)
    simp [hq, harm, ok]

/-! ## The depth estimates -/

theorem estKey_inj {q q' p p' : Nat} (hp : p < 2048) (hp' : p' < 2048) : q * 2048 + p = q' * 2048 + p' ↔ q = q' ∧ p = p' := by
  omega

/-- The estimates of one port, in each pipeline of a list. -/
def nearPort (d : Nat → Nat) (qs : List Nat) (m : AMap Nat) (p : Nat) : AMap Nat :=
  qs.foldl (fun m q => m.setD (q * 2048 + p) 0 (nearer (m.getD (q * 2048 + p) 0) (d p))) m

theorem nearPort_getD (d : Nat → Nat) {qs : List Nat} (hqs : qs.Nodup) (m : AMap Nat) {p p' : Nat} (hp : p < 2048)
    (hp' : p' < 2048) (q : Nat) : (nearPort d qs m p').getD (q * 2048 + p) 0 =
      if p = p' ∧ q ∈ qs then nearer (m.getD (q * 2048 + p) 0) (d p) else m.getD (q * 2048 + p) 0 := by
  induction qs generalizing m with
  | nil => simp [nearPort]
  | cons q' qs ih =>
    obtain ⟨hnot, hqs⟩ := List.nodup_cons.mp hqs
    have step := ih hqs (m.setD (q' * 2048 + p') 0 (nearer (m.getD (q' * 2048 + p') 0) (d p')))
    refine step.trans ?_
    by_cases h : q * 2048 + p = q' * 2048 + p'
    · obtain ⟨rfl, rfl⟩ := (estKey_inj hp hp').mp h
      simp [hnot, AMap.getD_setD_same]
    · rw [AMap.getD_setD_ne _ _ _ _ h]
      have hne : ¬ (p = p' ∧ q = q') := fun ⟨a, b⟩ => h (by rw [a, b])
      by_cases hpp : p = p'
      · have hq : q ≠ q' := fun e => hne ⟨hpp, e⟩
        simp [hpp, hq]
      · simp [hpp]

theorem nearPorts_getD (d : Nat → Nat) {qs ps : List Nat} (hqs : qs.Nodup) (hps : ps.Nodup) (h : ∀ p ∈ ps, p < 2048)
    (m : AMap Nat) {p : Nat} (hp : p < 2048) (q : Nat) : (ps.foldl (nearPort d qs) m).getD (q * 2048 + p) 0 =
      if p ∈ ps ∧ q ∈ qs then nearer (m.getD (q * 2048 + p) 0) (d p) else m.getD (q * 2048 + p) 0 := by
  induction ps generalizing m with
  | nil => simp
  | cons p' ps ih =>
    obtain ⟨hnot, hps⟩ := List.nodup_cons.mp hps
    rw [List.foldl_cons, ih hps (fun k hk => h k (by simp [hk])), nearPort_getD d hqs m hp (h p' (by simp))]
    by_cases hpp : p = p'
    · subst hpp
      simp [hnot]
    · simp [hpp]

theorem AMap.le_of_mem_wfFrom {α : Type} {m : AMap α} {lo : Nat} (h : m.wfFrom lo = true) {k : Nat} {v : α}
    (hm : (k, v) ∈ m) : lo ≤ k := by
  induction m generalizing lo with
  | nil => simp at hm
  | cons p m ih =>
    simp only [AMap.wfFrom, Bool.and_eq_true, decide_eq_true_eq] at h
    rcases List.mem_cons.mp hm with rfl | hm
    · exact h.1
    · have := ih h.2 hm
      omega

/-- The keys of a table in canonical form are distinct. -/
theorem AMap.keys_nodup {α : Type} {m : AMap α} {lo : Nat} (h : m.wfFrom lo = true) : (m.map (·.1)).Nodup := by
  induction m generalizing lo with
  | nil => simp
  | cons p m ih =>
    simp only [AMap.wfFrom, Bool.and_eq_true, decide_eq_true_eq] at h
    rw [List.map_cons, List.nodup_cons]
    refine ⟨fun hm => ?_, ih h.2⟩
    obtain ⟨x, hx, he⟩ := List.mem_map.mp hm
    have := AMap.le_of_mem_wfFrom h.2 (v := x.2) (k := x.1) hx
    omega

/-- A key is found with the value that it is listed with. -/
theorem AMap.mem_iff_find {α : Type} {m : AMap α} {lo : Nat} (h : m.wfFrom lo = true) (k : Nat) (v : α) :
    (k, v) ∈ m ↔ m.find k = some v := by
  induction m generalizing lo with
  | nil => simp [AMap.find]
  | cons p m ih =>
    obtain ⟨a, w⟩ := p
    simp only [AMap.wfFrom, Bool.and_eq_true, decide_eq_true_eq] at h
    by_cases hk : k = a
    · subst hk
      have hnot : (k, v) ∉ m := fun hm => by
        have := AMap.le_of_mem_wfFrom h.2 hm
        omega
      simp [AMap.find, hnot, eq_comm]
    · simp [AMap.find, hk, ih h.2]

/-- The new estimates are those of the formed ports, in the pipelines in service. -/
theorem estimates_eq (s : State) : s.estimates = ((s.ports.filter fun p => p.2.st.formed).map (·.1)).foldl
    (nearPort s.depthOf ([0, 1, 2, 3].filter fun q => !s.fnDown (fidTbl q))) s.tables.est := rfl

theorem estimates_getD {s : State} {p q : Nat} {x : PortSt} (hwf : s.ports.wf = true) (hx : s.ports.find p = some x)
    (hk : ∀ k ∈ s.ports.map (·.1), k < 2048) (hq : q < 4) : s.estimates.getD (q * 2048 + p) 0 =
      if x.st.formed = true ∧ s.fnDown (fidTbl q) = false then nearer (s.tables.est.getD (q * 2048 + p) 0) (s.depthOf p)
      else s.tables.est.getD (q * 2048 + p) 0 := by
  have hmem (y : PortSt) : (p, y) ∈ s.ports ↔ y = x := by
    rw [AMap.mem_iff_find hwf, hx, Option.some.injEq, eq_comm]
  have hp : p < 2048 := hk p (List.mem_map.mpr ⟨_, (hmem x).mpr rfl, rfl⟩)
  have hsub : ((s.ports.filter fun p => p.2.st.formed).map (·.1)).Sublist (s.ports.map (·.1)) :=
    List.filter_sublist.map _
  have hpin : p ∈ (s.ports.filter fun p => p.2.st.formed).map (·.1) ↔ x.st.formed = true := by
    constructor
    · intro h
      obtain ⟨⟨a, y⟩, hy, rfl⟩ := List.mem_map.mp h
      obtain ⟨hy, hf⟩ := List.mem_filter.mp hy
      rwa [(hmem y).mp hy] at hf
    · intro h
      exact List.mem_map.mpr ⟨_, List.mem_filter.mpr ⟨(hmem x).mpr rfl, h⟩, rfl⟩
  have hqin : q ∈ [0, 1, 2, 3].filter (fun q => !s.fnDown (fidTbl q)) ↔ s.fnDown (fidTbl q) = false := by
    have h4 : q ∈ [0, 1, 2, 3] := by simp; omega
    simp only [List.mem_filter, h4, true_and, Bool.not_eq_true']
  rw [estimates_eq, nearPorts_getD _ (List.Nodup.filter _ (by decide)) ((AMap.keys_nodup hwf).sublist hsub)
    (fun k h => hk k (hsub.subset h)) _ hp]
  exact if_congr (and_congr hpin hqin) rfl rfl

/-! ## The sounding -/

/-- The errors that an access meets write the bridges, the registers and telemetry alone. -/
theorem meet_only (s : State) (part n : Nat) (place : BlockErr → Nat) (met : List BlockErr) :
    ∃ t r w, s.meet part n place met = { s with tel := t, regs := r, mem := w } := by
  have note (s : State) (kind stack part : Nat) (pch bank : Byte) (row : BitVec 24) (symbols : Nat) :
      ∃ t r w, s.noteBlock kind stack part pch bank row symbols = { s with tel := t, regs := r, mem := w } := by
    unfold State.noteBlock
    dsimp only
    split
    · exact ⟨_, _, _, rfl⟩
    · split
      · obtain ⟨t, r, w, h⟩ := raiseEv_only ((s.setBrg (stack / 8) _).bump .brgEccUncorr [stack / 8]) 0x9001 2
          (fidBrg (stack / 8)) _
        exact ⟨t, r, w, h⟩
      · exact ⟨_, _, _, rfl⟩
  unfold State.meet
  generalize met.filter (fun e => decide (e.block < n)) = es
  induction es generalizing s with
  | nil => exact ⟨_, _, _, rfl⟩
  | cons e es ih =>
    obtain ⟨t, r, w, h⟩ := note s 1 (place e) part e.pch e.bank e.row e.symbols.val
    rw [List.foldl_cons, h]
    exact ih _

/-- What a sounding visit may write: entries, the entries known bad, its place in the round, and what tells of it. -/
def Sounded (s t : State) (m : AMap EntryImage) (pos : Nat) : Prop := ∃ b p tel r w c k, t = { s with
  tables := { s.tables with entries := m, bad := b, soundPos := pos, passes := p }, tel := tel, regs := r, mem := w, time := c,
  ticks := k }

theorem Sounded.bump {s t : State} {m : AMap EntryImage} {pos : Nat} (h : Sounded s t m pos) (r : Reg) (ix : List Nat) :
    Sounded s (t.bump r ix) m pos := by
  obtain ⟨_, _, _, _, _, _, _, rfl⟩ := h
  exact ⟨_, _, _, _, _, _, _, rfl⟩

theorem Sounded.raiseEv {s t : State} {m : AMap EntryImage} {pos : Nat} (h : Sounded s t m pos) (c v o : Nat) (d : List Byte) :
    Sounded s (t.raiseEv c v o d) m pos := by
  obtain ⟨tel, r, w, e⟩ := raiseEv_only t c v o d
  obtain ⟨_, _, _, _, _, _, _, rfl⟩ := h
  rw [e]
  exact ⟨_, _, _, _, _, _, _, rfl⟩

theorem Sounded.entries {s t : State} {m : AMap EntryImage} {pos : Nat} (h : Sounded s t m pos) (m' : AMap EntryImage) :
    Sounded s { t with tables := { t.tables with entries := m' } } m' pos := by
  obtain ⟨_, _, _, _, _, _, _, rfl⟩ := h
  exact ⟨_, _, _, _, _, _, _, rfl⟩

theorem Sounded.place {s t : State} {m : AMap EntryImage} {pos : Nat} (h : Sounded s t m pos) (pos' p : Nat) :
    Sounded s { t with tables := { t.tables with soundPos := pos', passes := p } } m pos' := by
  obtain ⟨_, _, _, _, _, _, _, rfl⟩ := h
  exact ⟨_, _, _, _, _, _, _, rfl⟩

theorem Sounded.perSecond (s : State) (k : Periodic) (i rate : Nat) :
    Sounded s (s.perSecond k i rate) s.tables.entries s.tables.soundPos := by
  unfold State.perSecond
  dsimp only
  obtain ⟨t, h⟩ := advanceTo_only s (gridAfter rate (s.ticks.getD (tickKey k i) 0))
  rw [h]
  exact ⟨_, _, _, _, _, _, _, rfl⟩

/-- A visit's read leaves the tables but for the entries known bad. -/
theorem Sounded.soundRead {s t : State} {m : AMap EntryImage} {pos : Nat} (h : Sounded s t m pos) (a : Nat) (met : List BlockErr) :
    Sounded s (t.soundRead a met) m pos := by
  obtain ⟨_, _, _, _, _, _, _, rfl⟩ := h
  unfold State.soundRead
  dsimp only
  obtain ⟨c, hc⟩ := advanceTo_only (State.askLink _ (addrBridge a) false 3 32).2 (State.linkDue _ (addrBridge a) false 3 _)
  rw [hc]
  obtain ⟨tel, r, w, hm⟩ := meet_only { (State.askLink _ (addrBridge a) false 3 32).2 with time := c } 4 1
    (fun _ => addrStack a) met
  rw [hm]
  split
  · exact ⟨_, _, _, _, _, _, _, rfl⟩
  · exact ⟨_, _, _, _, _, _, _, rfl⟩

/-- A sounding visit whose rate is not 0 and whose bridge can be read. -/
theorem soundingVisit_runs {s : State} (met : List BlockErr) (hr : s.regBits .tblSound [] 21 0 ≠ 0)
    (hl : let e := soundEntry s.tables.soundPos; s.linkUp (16 + addrBridge (shadowAddr e.1 e.2.1 e.2.2)) = true) :
    let e := soundEntry s.tables.soundPos
    let pos := if s.tables.soundPos + 1 = 1577216 then 0 else s.tables.soundPos + 1
    ∃ t m, exec (.soundingVisit met) s = .next t ∧ Sounded s t m pos ∧ (m = s.tables.entries ∨
      m = writeImage s.tables.entries e.1 e.2.1 e.2.2 (entryAt s.tables.shadow e.1 e.2.1 e.2.2)) := by
  rcases he : soundEntry s.tables.soundPos with ⟨q, tb, i⟩
  rw [he] at hl
  have hrate : ¬ min 4000000 (s.regBits .tblSound [] 21 0) = 0 := by omega
  suffices h : ∃ t, exec (.soundingVisit met) s = .next t ∧ ∃ m, Sounded s t m
      (if s.tables.soundPos + 1 = 1577216 then 0 else s.tables.soundPos + 1) ∧ (m = s.tables.entries ∨
      m = writeImage s.tables.entries q tb i (entryAt s.tables.shadow q tb i)) by
    obtain ⟨t, hx, m, hm⟩ := h
    exact ⟨t, m, hx, hm⟩
  refine ⟨_, rfl, ?_⟩
  dsimp only at hl ⊢
  rw [he]
  dsimp only
  rw [if_neg (by simp [hrate, hl])]
  have hread : Sounded s (if (!(s.fnDown (fidTbl q) || s.tables.skips (tblKey q tb i))) = true then
        (s.perSecond Periodic.sounding 0 (min 4000000 (s.regBits .tblSound [] 21 0))).soundRead (shadowAddr q tb i) met
      else s.perSecond Periodic.sounding 0 (min 4000000 (s.regBits .tblSound [] 21 0))) s.tables.entries s.tables.soundPos := by
    split
    · exact (Sounded.perSecond s _ _ _).soundRead _ _
    · exact .perSecond s _ _ _
  generalize (if (!(s.fnDown (fidTbl q) || s.tables.skips (tblKey q tb i))) = true then
        (s.perSecond Periodic.sounding 0 (min 4000000 (s.regBits .tblSound [] 21 0))).soundRead (shadowAddr q tb i) met
      else s.perSecond Periodic.sounding 0 (min 4000000 (s.regBits .tblSound [] 21 0))) = u at hread ⊢
  have hent : u.tables.entries = s.tables.entries := by
    obtain ⟨_, _, _, _, _, _, _, rfl⟩ := hread
    rfl
  have hsh : u.tables.shadow = s.tables.shadow := by
    obtain ⟨_, _, _, _, _, _, _, rfl⟩ := hread
    rfl
  have hplace := hread.place (if s.tables.soundPos + 1 = 1577216 then 0 else s.tables.soundPos + 1)
    (if s.tables.soundPos + 1 = 1577216 then min (u.tables.passes + 1) (2 ^ 32 - 1) else u.tables.passes)
  generalize ({ u with tables := { u.tables with
    soundPos := if s.tables.soundPos + 1 = 1577216 then 0 else s.tables.soundPos + 1,
    passes := if s.tables.soundPos + 1 = 1577216 then min (u.tables.passes + 1) (2 ^ 32 - 1) else u.tables.passes } } : State) = v
    at hplace ⊢
  have hmis := hplace.bump .tblSoundMismatches [q]
  generalize v.bump .tblSoundMismatches [q] = w at hmis ⊢
  have hwent : w.tables.entries = s.tables.entries := by
    obtain ⟨_, _, _, _, _, _, _, rfl⟩ := hmis
    rfl
  split
  · exact ⟨_, hplace, .inl rfl⟩
  · split
    · split
      · exact ⟨_, hplace, .inl rfl⟩
      · exact ⟨_, hplace.raiseEv _ _ _ _, .inl rfl⟩
    · split
      · exact ⟨_, hplace, .inl rfl⟩
      · split
        · exact ⟨_, ((hmis.entries _).bump _ _).raiseEv _ _ _ _, .inr (by rw [hwent, hsh])⟩
        · exact ⟨_, hmis.raiseEv _ _ _ _, .inl rfl⟩

/-- An image written over an entry reaches its own key, and the next where it is an IPv6 image. -/
theorem find_writeImage_ne (m : AMap EntryImage) {q tb i k : Nat} (img : EntryImage) (hk : k ≠ tblKey q tb i)
    (hv : ¬ (tb = 0 ∧ isV6 img = true ∧ k = tblKey q tb (i + 1))) : (writeImage m q tb i img).find k = m.find k := by
  have hset (m : AMap EntryImage) : (m.setD (tblKey q tb i) 0 img).find k = m.find k := by
    unfold AMap.setD
    split
    · exact AMap.find_del_ne m hk
    · exact AMap.find_put_ne m img hk
  unfold writeImage
  rw [hset]
  split
  next h => exact AMap.find_del_ne m fun e => hv ⟨h.1, h.2, e⟩
  next => rfl

/-! ## The age sweep -/

/-- The entries that an age sweep of a quadrant leaves: a learned entry loses HIT, or goes where it had none. -/
def ageSwept (q : Nat) (m : AMap EntryImage) : AMap EntryImage := m.filterMap fun e =>
  if e.1 / 262144 = q * 8 + 1 ∧ e.2.getLsbD 254 then
    if e.2.getLsbD 253 then some (e.1, e.2 &&& ~~~ (1#256 <<< 253)) else none
  else some e

/-- An entry after a sweep is one that stays, or a learned entry of the quadrant whose HIT is cleared. -/
theorem mem_ageSwept {q : Nat} {m : AMap EntryImage} {k : Nat} {x : EntryImage} (h : (k, x) ∈ ageSwept q m) :
    (k, x) ∈ m ∨ ∃ y, (k, y) ∈ m ∧ k / 262144 = q * 8 + 1 ∧ y.getLsbD 254 = true ∧ y.getLsbD 253 = true ∧
      x = y &&& ~~~(1#256 <<< 253) := by
  obtain ⟨⟨a, y⟩, hm, he⟩ := List.mem_filterMap.mp h
  split at he
  next hl =>
    split at he
    next hh =>
      obtain ⟨rfl, rfl⟩ := Prod.mk.inj (Option.some.inj he)
      exact .inr ⟨y, hm, hl.1, hl.2, hh, rfl⟩
    next => simp at he
  next =>
    obtain ⟨rfl, rfl⟩ := Prod.mk.inj (Option.some.inj he)
    exact .inl hm

theorem macAgeSweep_runs {s : State} {q : Quad} (hb : s.boot.phase ≠ .reset) (hr : s.regBits .tblMacConfig [] 15 0 ≠ 0)
    (hup : s.fnDown (fidTbl q.val) = false) : ∃ t u, exec (.macAgeSweep q) s = .next { s with
      tables := { s.tables with entries := ageSwept q.val s.tables.entries }, time := t, ticks := u } := by
  have hgo : ¬ (s.boot.phase = .reset ∨ s.regBits .tblMacConfig [] 15 0 = 0 ∨ s.fnDown (fidTbl q) = true) := by
    simp [hb, hr, hup]
  obtain ⟨t, u, he⟩ := every_only s .macAge q.val (s.regBits .tblMacConfig [] 15 0 * 1000000000)
  refine ⟨t, u, congrArg Host.Outcome.next ((if_neg hgo).trans ?_)⟩
  dsimp only
  rw [he]
  rfl

/-- Settles O21: the estimates port by port, the sweep entry by entry, and a sounding visit by what it may write. -/
theorem tableRoundsComplete : Obligations.TableRoundsComplete := by
  refine ⟨fun s hb => congrArg Host.Outcome.next ((if_neg hb).trans ?_), fun s p q x hwf _ hx hk hq => estimates_getD hwf hx hk hq,
    fun s q hr hup => ?_, fun s met hr hpos => ?_, fun s v hw n hb => ?_, fun s v hw n hb => ?_,
    fun s hb => congrArg Host.Outcome.next (if_pos hb), fun s hb => congrArg Host.Outcome.next (if_pos hb)⟩
  · obtain ⟨t, u, he⟩ := every_only s .depthReport 0 1000
    dsimp only
    rw [he]
    rfl
  · by_cases hb : s.boot.phase = .reset
    · exact ⟨s.tables.entries, s.time, s.ticks, congrArg Host.Outcome.next (if_pos (.inl hb)), fun _ _ h => .inl h⟩
    · obtain ⟨t, u, hx⟩ := macAgeSweep_runs hb hr hup
      exact ⟨_, t, u, hx, fun _ _ h => mem_ageSwept h⟩
  · intro e hl
    obtain ⟨t, m, hx, ht, hm⟩ := soundingVisit_runs met hr hl
    obtain ⟨b, p, tel, r, w, c, u, rfl⟩ := ht
    refine ⟨_, hx, rfl, ?_, rfl, rfl, rfl, fun k hk hv => ?_⟩
    · dsimp only
      split <;> omega
    · rcases hm with rfl | rfl
      · rfl
      · exact find_writeImage_ne _ _ hk hv
  · simp only [State.writeReg, Reg.idleAt, State.overrun, hb]
    rfl
  · simp only [State.writeReg, Reg.idleAt, State.overrun, hb]
    rfl

end Sys2Proof.Machine
end

