-- ==== Sys2Proof/Proofs/Ports.lean ====
section
/-! PROOFS. The port commands, and the rows of fibres and lanes (R34, R97 to R135). -/

namespace Sys2Proof.Machine

/-- Settles O24: each command passes its checks and does its one change. -/
theorem portCommandsComplete : Obligations.PortCommandsComplete := by
  refine ⟨fun s iss i e handle met o h ho hob hs hty hread hup => ?_, fun s iss i e fibre layout h hf hl hup hst => ?_,
    fun s iss i e lane hc hup => ⟨fun h => ?_, fun h => ?_, fun h => ?_, fun h => ?_⟩,
    fun s iss i e fibre count h h1 hn hmax => ?_⟩
  · have hw := withObject_ok (s := s) (i := i) (off := 0) (lengthOk := fun _ => true) (before := [])
      (after := [rsvOk (0 : BitVec 16) 2]) (fids := [fidCmd s.boot.holder]) ho hob hs hty rfl nofun (by simp [rsvOk])
      (by simp [hup])
    intro u p n
    cases hr : u.planRefusal o with
    | none =>
      refine exec_ends h rfl ((hw _).trans ?_) (by decide : stOk ≠ stInternal)
      simp only [consuming_ok hread, u] at hr ⊢
      rw [hr]
      rfl
    | some d =>
      refine exec_ends h rfl ((hw _).trans ?_) (by decide : stRefusedPlan ≠ stInternal)
      simp only [consuming_ok hread, u] at hr ⊢
      rw [hr]
  · refine exec_ends h rfl ?_ (by decide)
    dsimp only
    rw [guardParams_ok _ _ (by simp [rsvOk, hf, hl]), guardUp_ok _ _ (by simp [hup]), if_neg hst]
    split <;> rfl
  · refine exec_ends h rfl ?_ (by decide)
    rw [guardParams_ok _ _ (by simp [rsvOk, State.laneParam, hc]), guardUp_ok _ _ (by simp [hup])]
    rfl
  · refine exec_ends h rfl ?_ (by decide)
    dsimp only
    rw [guardParams_ok _ _ (by simp [rsvOk, State.laneParam, hc]), guardUp_ok _ _ (by simp [hup]), if_pos rfl]
    simp only [decide_eq_true_eq]
    rfl
  · refine exec_ends h rfl ?_ (by decide)
    dsimp only
    rw [guardParams_ok _ _ (by simp [rsvOk, State.laneParam, hc]), guardUp_ok _ _ (by simp [hup]), if_neg (by decide)]
    simp only [decide_eq_true_eq]
    split <;> rfl
  · refine exec_ends h rfl ?_ (by decide)
    dsimp only
    rw [guardParams_ok _ _ (by simp [rsvOk, State.laneParam, hc]), guardUp_ok _ _ (by simp [hup])]
    rfl
  · refine exec_ends h rfl ?_ (by decide)
    dsimp only
    have hobj : (0 : Byte).getLsbD 0 = false := by decide
    have hf : fibre.toNat < 256 := by omega
    have hc : count.toNat ≤ 256 := by omega
    rw [hobj, guardParams_ok _ _ (by simp [rsvOk, hf, h1, hc, hn, hmax])]
    rfl

/-! ## What the rest of a forming port writes -/

/-- Only lanes, tiles, traffic control and the estimates differ. -/
def FormWrites (s t : State) : Prop := ∃ la ti tc es, t = { s with
  lanes := la, tiles := ti, tc := tc, tables := { s.tables with est := es } }

namespace FormWrites

theorem refl (s : State) : FormWrites s s := ⟨_, _, _, _, rfl⟩

theorem trans {s t u : State} (h : FormWrites s t) (h' : FormWrites t u) : FormWrites s u := by
  obtain ⟨_, _, _, _, rfl⟩ := h
  obtain ⟨_, _, _, _, rfl⟩ := h'
  exact ⟨_, _, _, _, rfl⟩

theorem foldl {α : Type} {f : State → α → State} (h : ∀ t x, FormWrites t (f t x)) (s : State) (xs : List α) :
    FormWrites s (xs.foldl f s) := by
  induction xs generalizing s with
  | nil => exact refl s
  | cons x xs ih => exact (h s x).trans (ih (f s x))

theorem tcForm (s : State) (p : Nat) : FormWrites s (s.tcForm p) :=
  (foldl (fun _ _ => ⟨_, _, _, _, rfl⟩) s _).trans ⟨_, _, _, _, rfl⟩

theorem zeroEstimators (s : State) (p : Nat) : FormWrites s (s.zeroEstimators p) := ⟨_, _, _, _, rfl⟩

theorem spillJudge (s : State) (t : Nat) : FormWrites s (s.spillJudge t) := by
  unfold State.spillJudge
  dsimp only
  split
  · exact ⟨_, _, _, _, rfl⟩
  · split
    · exact ⟨_, _, _, _, rfl⟩
    · split
      · exact ⟨_, _, _, _, rfl⟩
      · exact refl s

theorem restartLanes (s : State) (p : Nat) : FormWrites s (s.restartLanes p) := foldl (fun _ _ => ⟨_, _, _, _, rfl⟩) s _

theorem port {s t : State} (h : FormWrites s t) (p : Nat) : t.port p = s.port p := by
  obtain ⟨_, _, _, _, rfl⟩ := h
  rfl

end FormWrites

/-- What forming leaves of the rest of the part. -/
theorem formPort_keeps_rest (s : State) (p : Nat) : (s.formPort p).nvm = s.nvm ∧ (s.formPort p).gen = s.gen ∧
    (s.formPort p).tables.entries = s.tables.entries ∧ (s.formPort p).mgmt = s.mgmt := by
  obtain ⟨_, hnvm, hgen, hent, hmgmt, -⟩ := formPort_still s p
  exact ⟨hnvm, hgen, hent, hmgmt⟩

/-- A port that neither trains nor retrains does not form. -/
theorem formPort_other {s : State} {p : Nat} (ht : (s.port p).st ≠ .training) (hr : (s.port p).st ≠ .retraining) :
    s.formPort p = s := if_pos ⟨ht, hr⟩

/-- A port that trains or retrains forms by its mode. -/
theorem formPort_c {s : State} {p : Nat} (h : (s.port p).st = .training ∨ (s.port p).st = .retraining)
    (hc : s.isC p = true) : s.formPort p =
      if s.usable p .tx = 0 ∨ s.usable p .rx = 0 then s
      else if s.sharedPool (tileOf p) < 16384 + s.landingNeed then
        if (s.port p).short then s
        else (s.setPort p fun y => { y with short := true }).raiseEv 0x0902 2 (fidTile (tileOf p)) (beBytes 2 p)
      else s.formC p := by
  have hst : ¬ ((s.port p).st ≠ .training ∧ (s.port p).st ≠ .retraining) := by
    rintro ⟨h₁, h₂⟩
    exact h.elim h₁ h₂
  simp only [State.formPort, if_neg hst, hc, if_true]

/-- A C-mode port that forms begins with its first limits, and other ports stay. -/
theorem formC_port (s : State) (p : Nat) :
    let whole := s.open_ (fibreOf p)
    (s.formC p).port p = { PortSt.init with
      st := if whole then .up else .quarantined, rx := s.usable p .rx, landing := s.landingNeed,
      limitOut := (List.range 8).map fun c => if whole = true ∨ c = clsCtrl then s.creditInit c else 0,
      replayLimit := s.replayLimit, lastValid := s.now, txGone := some s.now, ackAt := s.now,
      frameNo := (s.port p).frameNo } ∧
    ∀ q, q ≠ p → (s.formC p).port q = s.port q := by
  intro whole
  have hlanes := FormWrites.restartLanes s p
  have hrest (u : State) := ((FormWrites.tcForm u p).trans (.zeroEstimators _ p)).trans (.spillJudge _ (tileOf p))
  refine ⟨((hrest _).port p).trans ?_, fun q hq => ((hrest _).port q).trans ?_⟩
  · rw [setPort_port, hlanes.port]
  · rw [setPort_port_ne _ _ hq, hlanes.port]

section
variable {s : State} {p b : Nat} (hc : s.isC p = false) (hb : eBlock (s.eUsable p) p (s.widthAt p) = some b)
include hc hb

/-- An E-mode port that retrains takes its lanes again. -/
theorem formPort_retrained (h : (s.port p).st = .retraining) : s.formPort p = s.setPort p fun y =>
    { y with st := if s.open_ (fibreOf p) then .up else .quarantined, tx := b, rx := b, lastValid := s.now } := by
  simp [State.formPort, h, hc, hb]

/-- An E-mode port that trains begins anew, and other ports stay. -/
theorem formPort_trained (h : (s.port p).st = .training) :
    ((s.formPort p).port p).st = (if s.open_ (fibreOf p) then .up else .quarantined) ∧ ((s.formPort p).port p).tx = b ∧
      ((s.formPort p).port p).rx = b ∧ ∀ q, q ≠ p → (s.formPort p).port q = s.port q := by
  let u := s.setPort p fun y => { PortSt.init with
    st := if s.open_ (fibreOf p) then .up else .quarantined, tx := b, rx := b, lastValid := s.now, frameNo := y.frameNo }
  have hf : s.formPort p = (u.tcForm p).zeroEstimators p := by
    simp [State.formPort, h, hc, hb, u]
  have hw := (FormWrites.tcForm u p).trans (.zeroEstimators _ p)
  rw [hf]
  refine ⟨?_, ?_, ?_, fun q hq => (hw.port q).trans (setPort_port_ne s _ hq)⟩ <;> rw [hw.port p, setPort_port]

end

/-- Settles O25: each row by its guard, and a port forms by its mode (`formC_port`, `formPort_trained`). -/
theorem fibreAndLaneRowsComplete : Obligations.FibreAndLaneRowsComplete := by
  refine ⟨fun s l src pay h => congrArg Host.Outcome.next (if_pos h), fun s f h => congrArg Host.Outcome.next (if_pos h),
    fun s f h => congrArg Host.Outcome.next (if_pos h), fun s f hb hup => ?_,
    fun s l => ⟨rfl, rfl, ?_, fun hv hd => ?_⟩, fun s p hc hup => congrArg Host.Outcome.next (if_pos (by simp [hc, hup])),
    fun s p ht hr => formPort_other ht hr, fun s p b ht hc hb => ?_, fun s p b hr hc hb => formPort_retrained hc hb hr,
    fun s p hc hb => ?_, fun s p hst hc => ⟨fun hu => ?_, fun ht hr hpool => ?_, fun ht hr hpool => ?_⟩⟩
  · have hgo : ¬ (s.boot.phase ≠ .done ∨ s.fnDown (fidTile (f.val / 4)) = true) := by simp [hb, hup]
    refine ⟨fun p hf hp => ?_, fun hf hp => ?_, fun hf => ?_⟩
    · exact congrArg Host.Outcome.next ((if_neg hgo).trans ((if_pos hf).trans (by rw [hp])))
    · exact congrArg Host.Outcome.next ((if_neg hgo).trans ((if_pos hf).trans (by rw [hp])))
    · exact congrArg Host.Outcome.next ((if_neg hgo).trans (if_neg (by simp [hf])))
  · rfl
  · simp [exec, execLaneReturn, hv, hd]
  · obtain ⟨hst, htx, hrx, hne⟩ := formPort_trained hc hb ht
    exact ⟨hst, htx, hrx, hne, formPort_keeps_rest s p⟩
  · unfold State.formPort
    simp [hc, hb]
  · rw [formPort_c hst hc, if_pos hu]
  · rw [formPort_c hst hc, if_neg (by simp [ht, hr]), if_pos hpool]
  · have hf : s.formPort p = s.formC p := by
      rw [formPort_c hst hc, if_neg (by simp [ht, hr]), if_neg (by omega)]
    obtain ⟨hport, hne⟩ := formC_port s p
    have hrest := formPort_keeps_rest s p
    rw [hf] at hrest ⊢
    exact ⟨hport, hne, hrest⟩

/-- Settles O26: each timer's row by its guard. -/
theorem linkTimersComplete : Obligations.LinkTimersComplete := by
  refine ⟨fun s p due hd hf => ?_, fun s p hc hm hf hv => ⟨?_, fun hr hq => ?_, fun hr hq => ?_⟩,
    fun s l hc hm hf hb => congrArg Host.Outcome.next (if_pos ⟨hc, hm, hf, hb⟩),
    fun s p hc hm hr hrole => ⟨?_, ?_⟩⟩
  · simp only [exec, execReplayTimerExpiry, hd, hf, if_true]
  · exact congrArg Host.Outcome.next (if_pos (by simp [hc, hm, hf, hv]))
  · exact congrArg Host.Outcome.next ((if_pos (by simp [hc, hm, hf, hv, hr])).trans (if_neg (by omega)))
  · exact congrArg Host.Outcome.next ((if_pos (by simp [hc, hm, hf, hv, hr])).trans (if_pos hq))
  · exact congrArg Host.Outcome.next (if_pos (by simp [hc, hm, hr, hrole]))
  · exact congrArg Host.Outcome.next (if_pos (by simp [hc, hm, hr, hrole]))

section
variable {s : State} {l : Lane} {f : Flit} (hw : f.wf = true) (hh : s.hears l.val = true)
  (hc : s.configured (s.portOf l.val) = true) (hm : s.isC (s.portOf l.val) = true)
  (hf : (s.port (s.portOf l.val)).st.formed = true)
include hw hh hc hm hf

/-- What a flit that the part can receive does on a lane that hears it, by its check. -/
theorem flitReceive_heard (fec : Bool) : exec (.flitReceive l f fec) s = .next
    (let p := s.portOf l.val
     let ix := [tileOf p, slotOf p]
     if !(fec && f.crcOk) then
       ((s.setLane l.val fun x => { x with run := 0 }).bump .tilePortCrcErrs ix).setPort p fun y =>
         { y with discarded := true, gapDue := some (y.gapDue.getD (s.now + gapNs)) }
     else
       let t := s.linkFields l.val p f.link
       let u := if f.link.ltype = 1 then
           (t.bump .tilePortReplays ix).setPort p fun y => { y with requests := y.requests + 1, resend := y.replay }
         else t
       if (u.port p).replayLimit ≤ (u.port p).requests then u.retrain p 0
       else if f.link.ltype = 0 ∨ f.link.ltype = 1 then u.sequenced p f
       else u) := by
  have hshape : ¬ (f.slots.length ≠ 15 ∨ f.link.credit.length ≠ 8) := by
    simpa [Flit.wf, not_or] using hw
  refine (if_neg hshape).trans (congrArg Host.Outcome.next ((if_neg (by simp [hh, hc, hm, hf])).trans ?_))
  refine ite_congr rfl (fun _ => congrArg (State.setPort _ _) (funext fun y => ?_)) fun _ => rfl
  cases y.gapDue <;> rfl

end

/-- Settles O27: the branches of `flitReceive_heard`, by the check, the type and the requests. -/
theorem flitReceiveCompletes : Obligations.FlitReceiveCompletes := by
  intro s l f hw hh hc hm hf
  have hrow := flitReceive_heard hw hh hc hm hf
  refine ⟨fun fec hbad => (hrow fec).trans (congrArg Host.Outcome.next (if_pos (by simp [hbad]))), fun hok => ?_⟩
  have hgood := (hrow true).trans (congrArg Host.Outcome.next (if_neg (by simp [hok])))
  clear hrow
  dsimp only at hgood
  generalize s.linkFields l.val (s.portOf l.val) f.link = t at hgood ⊢
  refine ⟨fun ht hq => ?_, fun ht hq => ?_, fun ht hq => ?_, fun ht => ⟨fun hq => ?_, fun hq => ?_⟩⟩
  · have h1 : f.link.ltype ≠ 1 := by rw [ht]; decide
    rw [hgood, if_neg h1, if_neg (Nat.not_le.mpr hq), if_pos (.inl ht)]
  · have h1 : f.link.ltype ≠ 1 := fun h => absurd (h ▸ ht) (by decide)
    have h0 : f.link.ltype ≠ 0 := fun h => absurd (h ▸ ht) (by decide)
    rw [hgood, if_neg h1, if_neg (Nat.not_le.mpr hq), if_neg (not_or.mpr ⟨h0, h1⟩)]
  · rw [hgood, if_neg ht, if_pos hq]
  · rw [hgood, if_pos ht, if_neg (Nat.not_le.mpr hq), if_pos (.inr ht)]
  · rw [hgood, if_pos ht, if_pos hq]

/-- Settles O28: the turn's branches, by whether the port sends on the lane and whose turn it is. -/
theorem flitTransmitCompletes : Obligations.FlitTransmitCompletes := by
  intro s l hb hc hm hf hok
  have hgo : ¬ (s.boot.phase ≠ .done ∨ (!s.configured (s.portOf l.val)) = true ∨ (!s.isC (s.portOf l.val)) = true ∨
    (!(s.port (s.portOf l.val)).st.formed) = true ∨ (!(s.lane l.val).ok .tx) = true) := by simp [hb, hc, hm, hf, hok]
  refine ⟨fun hw => ?_, fun hw ht => ?_, fun hw ht => ⟨fun seq f rest hr => ?_, fun hr hl => ?_, fun hr hl => ?_⟩⟩
  · exact congrArg Host.Outcome.next ((if_neg hgo).trans (if_pos (by simp [hw])))
  · exact congrArg Host.Outcome.next ((if_neg hgo).trans ((if_neg (by simp [hw])).trans (if_pos ht)))
  all_goals refine congrArg Host.Outcome.next ((if_neg hgo).trans ((if_neg (by simp [hw])).trans
    ((if_neg (by simp [ht])).trans ?_)))
  · rw [hr]
  · rw [hr]
    exact if_pos hl
  · rw [hr]
    exact if_neg (by omega)

/-! What counting, dropping and judging a cell leaves alone. -/

/-- Counting cells received touches the counters alone. -/
theorem foldl_countRx_only (s : State) (p : Nat) (cs : List Cell) :
    ∃ t, cs.foldl (fun s c => s.countRx p c) s = { s with tel := t } := by
  induction cs generalizing s with
  | nil => exact ⟨_, rfl⟩
  | cons c cs ih => exact ih (s.countRx p c)

/-- What moves or discards the cells of queues leaves the frames, the crossbar, the causeway and the engines as they were. -/
structure QueueWrites (s t : State) : Prop where
  frames : t.frames = s.frames
  xbar : t.xbar = s.xbar
  csw : t.csw = s.csw
  opt : t.opt = s.opt

namespace QueueWrites

theorem refl (s : State) : QueueWrites s s := ⟨rfl, rfl, rfl, rfl⟩

theorem trans {s t u : State} (h : QueueWrites s t) (h' : QueueWrites t u) : QueueWrites s u :=
  ⟨h'.frames.trans h.frames, h'.xbar.trans h.xbar, h'.csw.trans h.csw, h'.opt.trans h.opt⟩

theorem foldl {α : Type} {f : State → α → State} (hf : ∀ s a, QueueWrites s (f s a)) (s : State) (as : List α) :
    QueueWrites s (as.foldl f s) := by
  induction as generalizing s with
  | nil => exact .refl s
  | cons a as ih => exact (hf s a).trans (ih _)

theorem dropCell (s : State) (q : QCell) : QueueWrites s (s.dropCell q) := by
  unfold State.dropCell
  cases q.src <;> exact ⟨rfl, rfl, rfl, rfl⟩

theorem dropCells (s : State) (qs : List QCell) : QueueWrites s (s.dropCells qs) := foldl dropCell s qs

theorem spillJudge (s : State) (t : Nat) : QueueWrites s (s.spillJudge t) := by
  unfold State.spillJudge
  dsimp only
  repeat' split
  all_goals exact ⟨rfl, rfl, rfl, rfl⟩

theorem settleKey (s : State) (k : Nat) : QueueWrites s (s.settleKey k) := by
  unfold State.settleKey
  dsimp only
  split
  · unfold State.settleDc
    split <;> exact ⟨rfl, rfl, rfl, rfl⟩
  · exact .refl s

theorem clearHead (s : State) (k : Nat) : QueueWrites s (s.clearHead k) := by
  unfold State.clearHead
  split
  · dsimp only
    split
    · exact .refl s
    · exact (((⟨rfl, rfl, rfl, rfl⟩ : QueueWrites s (s.setQueue k _)).trans (dropCells _ _)).trans (spillJudge _ _)).trans (settleKey _ k)
  · exact .refl s

end QueueWrites

/-- An abort marks the frame and numbers none. -/
theorem abortFrame_next (s : State) (t n : Nat) : (s.abortFrame t n).frames.next = s.frames.next := by
  unfold State.abortFrame
  split
  · rfl
  · rw [(QueueWrites.foldl QueueWrites.clearHead _ _).frames]
    rfl

theorem creditPort_frames (s : State) (p c : Nat) : (s.creditPort p c).frames = s.frames := by
  unfold State.creditPort
  dsimp only
  split <;> rfl

/-- A policer that passes a cell touches its buckets alone. -/
theorem police_pass {s t : State} {p : Nat} {c : Cell} (h : s.police p c = .pass t) : ∃ x, t = { s with tc := x } := by
  unfold State.police at h
  dsimp only at h
  repeat' split at h
  all_goals cases h
  all_goals exact ⟨_, rfl⟩

/-- Whether an arriving cell passes its policers or not, it numbers no frame. -/
theorem judge_next (s : State) (p : Nat) (src : CellSrc) (c : Cell) (n : Nat) (a : Stamp) :
    (s.judge p src c n a).frames.next = s.frames.next := by
  have hdrop (r : Reg) (ix : List Nat) (u : State) (hu : u.frames = s.frames) :
      (if c.cls = clsOrd then (u.countDrop p c.cls).abortFrame (tileOf p) n else u.countDrop p c.cls).frames.next =
        s.frames.next := by
    split
    · exact (abortFrame_next _ _ _).trans (congrArg Frames.next hu)
    · exact congrArg Frames.next hu
  have hback (u : State) : (match src with
      | .cMode q => u.creditPort q c.cls
      | _ => u).frames = u.frames := by
    cases src with
    | cMode q => exact creditPort_frames u q c.cls
    | _ => rfl
  unfold State.judge
  dsimp only
  split
  next t ht =>
    obtain ⟨x, rfl⟩ := police_pass ht
    rfl
  next => exact hdrop .tilePortPolDrops [tileOf p, slotOf p] _ (hback _)
  next => exact hdrop .tcSpolDrops [] _ (hback _)

/-- Serving a frame's cells numbers no frame. -/
theorem foldl_judge_next (s : State) (p n : Nat) (cs : List Cell) :
    (cs.foldl (init := s) fun s c =>
      if s.frames.aborted.contains n then s.countDrop p clsOrd else s.judge p (.eMode p) c n s.stampNow).frames.next =
      s.frames.next := by
  induction cs generalizing s with
  | nil => rfl
  | cons c cs ih =>
    refine (ih _).trans ?_
    dsimp only
    split
    · rfl
    · exact judge_next _ _ _ _ _ _

section
variable {s : State} {p : Lane} {f : EthFrame} (hlive : s.eLive p.val = true) (hfit : frameFits (ethBytes f) = true)
include hlive hfit

/-- A frame that fits and is no train, on a live port: it is counted as broken, or taken. -/
theorem ethFrame_live (ht : f.etherType ≠ 0x88B5) (ovr : Bool) : exec (.ethFrameReceive p f ovr) s = .next
    (if !f.fcsOk ∨ !s.linkUp (engineOf p.val) then s.bump .tilePortCrcErrs [tileOf p.val, slotOf p.val]
     else
       let u := s.setPort p.val fun y => { y with lastValid := s.now }
       let bs := ethBytes f
       let shut := decide ((s.port p.val).st = .quarantined) && !s.ownPtp f
       if f.etherType = 0x8808 ∧ !shut then u else
       let v := (ordCells 0 bs).foldl (fun s c => s.countRx p.val c) u
       let lost (s : State) : State := (ordCells 0 bs).foldl (fun s c => s.countDrop p.val c.cls) s
       if ovr ∨ s.fnDown (fidTbl (tileOf p.val / 16)) then lost (v.bump .tileIngressOverrun [tileOf p.val])
       else if shut then lost (v.bump .tilePortQuarDrops [tileOf p.val, slotOf p.val])
       else if s.ownPtp f then v
       else
         let n := v.frames.next
         let w : State := { v with frames := { v.frames with next := n + 1 } }
         (ordCells n bs).foldl (init := w) fun s c =>
           if s.frames.aborted.contains n then s.countDrop p.val clsOrd
           else s.judge p.val (.eMode p.val) c n s.stampNow) := by
  let u := s.setPort p.val fun y => { y with lastValid := s.now }
  have hst : (u.port p.val).st = (s.port p.val).st := by rw [setPort_port]
  obtain ⟨t, hv⟩ := foldl_countRx_only u p.val (ordCells 0 (ethBytes f))
  have hfn : (List.foldl (fun s c => s.countRx p.val c) u (ordCells 0 (ethBytes f))).fnDown (fidTbl (tileOf p.val / 16)) =
      s.fnDown (fidTbl (tileOf p.val / 16)) := by rw [hv]; rfl
  have hown : (List.foldl (fun s c => s.countRx p.val c) u (ordCells 0 (ethBytes f))).ownPtp f = s.ownPtp f := by
    rw [hv]; rfl
  refine congrArg Host.Outcome.next ((if_neg (by simp [hlive, hfit])).trans ((if_neg ht).trans ?_))
  dsimp only
  rw [← hst, ← hfn, ← hown]
  rw [hown]
  rfl

end

/-- A sound train on a live port: its cells are dropped while the pipeline is down or overrun, and else they arrive. -/
theorem takeTrain_good {s : State} {p : Nat} {t : Train} (hlive : s.eLive p = true) (hup : s.linkUp (engineOf p) = true)
    (hfcs : t.fcsOk = true) (hver : t.version = 1) (hz : t.count ≠ 0) (hle : t.count.toNat ≤ 18)
    (hlen : t.count.toNat ≤ t.cells.length) (ovr : Bool) : s.takeTrain p t ovr =
    let u := s.setPort p fun y => { y with lastValid := s.now }
    let cells := t.cells.take t.count.toNat
    if ovr ∨ s.fnDown (fidTbl (tileOf p / 16)) then
      cells.foldl (fun s c => (s.countRx p c).countDrop p c.cls) (u.bump .tileIngressOverrun [tileOf p])
    else
      let learnt := if cells.any fun c => decide (c.cls = clsCtrl ∧ Cell.type c = 0x10) then u.learnPartner p t.src else u
      cells.foldl (fun s c => s.arriveE p c) learnt := by
  have hform : ¬ (t.version ≠ 1 ∨ t.count = 0 ∨ 18 < t.count.toNat ∨ t.cells.length < t.count.toNat) := by
    rintro (h | h | h | h)
    · exact h hver
    · exact hz h
    · omega
    · omega
  unfold State.takeTrain
  dsimp only
  rw [if_neg (by simp [hlive]), if_neg (by simp [hup]), if_neg (by simp [hfcs]), if_neg hform]
  rfl

/-- A live port that does not idle once what it sends has ended starts what its scheduler chooses. -/
theorem eServe_live {s t : State} {p : Nat} (hl : s.eLive p = true) (ht : s.advanceTo (s.port p).busyTill = t)
    (hi : t.idles p = false) : s.eServe p = t.eStart p (t.egressUsed (tileOf p) + 1) := by
  subst ht
  exact (if_pos hl).trans (if_neg (by rw [hi]; decide))

/-- Settles O29: the rows by their guards; a frame that is taken has one number (`foldl_judge_next`). -/
theorem eModeRowsComplete : Obligations.EModeRowsComplete := by
  refine ⟨fun _ _ _ _ => rfl, fun s p t hlive hup hfcs hver hz hle hlen => ⟨fun ovr h => ?_, fun hfn => ?_⟩,
    fun s p f ovr hlive hfit => ⟨fun ht => ?_, fun ht hfcs => ?_, fun ht hfcs hup hq => ?_, fun ht hctl hfcs hup hptp hst hovr hfn => ?_,
      fun ht hfcs hup hptp hst hovr hfn => ?_⟩, fun s p hlive hi => ?_, fun s p due hdue hlive hi => ?_⟩
  · exact (takeTrain_good hlive hup hfcs hver hz hle hlen ovr).trans (if_pos ((Bool.or_eq_true _ _).mp h))
  · exact (takeTrain_good hlive hup hfcs hver hz hle hlen false).trans (if_neg (by simp [hfn]))
  · exact congrArg Host.Outcome.next ((if_neg (by simp [hlive, hfit])).trans (if_pos ht))
  · exact (ethFrame_live hlive hfit ht ovr).trans (congrArg Host.Outcome.next (if_pos (by simp [hfcs])))
  · exact (ethFrame_live hlive hfit (by rw [ht]; decide) ovr).trans (congrArg Host.Outcome.next
      ((if_neg (by simp [hfcs, hup])).trans (if_pos ⟨ht, by simp [hq]⟩)))
  · refine ⟨_, (ethFrame_live hlive hfit ht ovr).trans (congrArg Host.Outcome.next
      ((if_neg (by simp [hfcs, hup])).trans ((if_neg fun h => hctl h.1).trans ((if_neg (by simp [hovr, hfn])).trans
        ((if_neg (by simp [hst])).trans (if_neg (by simp [hptp]))))))), ?_⟩
    refine (foldl_judge_next _ _ _ _).trans ?_
    obtain ⟨t, hv⟩ := foldl_countRx_only (s.setPort p.val fun y => { y with lastValid := s.now }) p.val
      (ordCells 0 (ethBytes f))
    rw [hv]
    rfl
  · exact (ethFrame_live hlive hfit ht ovr).trans (congrArg Host.Outcome.next
      ((if_neg (by simp [hfcs, hup])).trans ((if_neg (by simp [hst, hptp])).trans ((if_neg (by simp [hovr, hfn])).trans
        (if_pos (by simp [hst, hptp]))))))
  · exact congrArg Host.Outcome.next (eServe_live hlive rfl hi)
  · obtain ⟨w, hw⟩ := advanceTo_only s due
    have hl : (s.advanceTo due).eLive p.val = true := by
      rw [hw]
      exact hlive
    have hport : (s.advanceTo due).port p.val = s.port p.val := by
      rw [hw]
      rfl
    simp only [exec, execTrainFillExpiry, hdue]
    exact congrArg Host.Outcome.next (eServe_live hl (by rw [hport]) hi)

end Sys2Proof.Machine
end

