-- ==== Sys2Proof/Proofs/Queues.lean ====
section
/-! PROOFS. The three rows of a cell, and the other rows of a tile's queues (R153 to R163, R180 to R197, R228 to R250). -/

namespace Sys2Proof.Machine

/-- A tile's lookup while its quadrant's pipeline is in service takes the first cell that can pass, by its class. -/
theorem cellLookup_up {s : State} {t : Tile} {q : QCell} {before rest : List QCell}
    (hup : s.fnDown (fidTbl (t.val / 16)) = false)
    (hq : s.nextArrival [] (s.tile t.val).arrivals = some (before, q, rest)) : exec (.cellLookup t) s = .next
    (let c := q.cls
     let u := s.setTile t.val fun x => { x with arrivals := before ++ rest }
     if c = clsOrd then u.lookupOrd t.val q rest
     else if decide (c = clsSched ∨ c = clsFreq ∨ c = clsFrsp ∨ c = clsOrd) then u.lookupFabric t.val q
     else if c = clsCup then
       let open_ := (u.ctx q.cell.ctx).filter fun x => x.st.live
       let limit := match open_ with
         | some x => x.deadline
         | none => u.ageFrom clsCup q.time
       u.onward t.val { q with limit := limit, marked := open_.isSome, outs := [.slice (homeOf q.cell.ctx q.cell.chunk)] }
     else if c = clsCode then
       u.onward t.val { q with limit := u.ageFrom c q.time, outs := [.slice (homeOf q.cell.ctx q.cell.chunk)] }
     else u.onward t.val { q with limit := u.ageFrom c q.time, outs := [.slice (homeOf q.cell.ctx 0)] }) := by
  simp only [exec, execCellLookup, hup, hq, Bool.false_eq_true, if_false] <;> rfl

/-- Settles O30: the class chooses the branch of `cellLookup_up`, and with the pipeline down no cell passes. -/
theorem cellLookupCompletes : Obligations.CellLookupCompletes := by
  refine ⟨fun s t q before rest hup hq => ?_, fun s t h => ?_⟩
  · rw [cellLookup_up hup hq]
    refine ⟨fun hc => ?_, fun hc => ?_, fun hc => ?_, fun hc hn => ?_, fun c hc hs => ?_, fun hc => ?_⟩
    · simp only [hc, if_true]
    · obtain hc | hc | hc := hc <;> simp [hc, clsSched, clsFreq, clsFrsp, clsOrd]
    · simp [hc, clsSched, clsFreq, clsFrsp, clsOrd, clsCup, clsCode]
    · simp [hc, hn, clsSched, clsFreq, clsFrsp, clsOrd, clsCup]
    · simp [hc, hs, clsSched, clsFreq, clsFrsp, clsOrd, clsCup]
    · simp [hc, clsSched, clsFreq, clsFrsp, clsOrd, clsCup, clsCode, clsCtrl]
  · simp only [exec, execCellLookup, h, if_true]

/-- A tile's admission of the oldest looked-up cell, by what becomes of it. -/
theorem cellAdmission_cons {s : State} {t : Tile} {q : QCell} {rest : List QCell}
    (hq : (s.tile t.val).looked = q :: rest) : exec (.cellAdmission t) s = .next
    (let u := s.setTile t.val fun x => { x with looked := rest }
     let r := { q with outs := u.liveOuts q }
     if r.cls = clsOrd ∧ u.frames.aborted.contains r.frame then (u.credit r).dropCell r
     else if r.outs.isEmpty then ((((u.bump .tileXbarDestDrops [t.val]).credit r).dropCell r).handOver r).settle
     else if r.landed && u.aged r then (u.ageCell t.val r).credit r
     else if u.behind t.val r then u.refuseCell t.val r
     else
       match u.place t.val r with
       | (true, v) => (v.handOver r).settle
       | (false, v) => v.refuseCell t.val r) := by
  simp only [exec, execCellAdmission, hq] <;> rfl

/-- Settles O31: the branches of `cellAdmission_cons`, and where a refused cell waits by its source. -/
theorem cellAdmissionCompletes : Obligations.CellAdmissionCompletes := by
  refine ⟨fun s t q rest hq => ?_, fun s t q => ⟨fun p hp => ?_, fun hg => ?_, fun p hp => ?_⟩⟩
  · have hrow := cellAdmission_cons hq
    refine ⟨fun hc ha => hrow.trans (congrArg Host.Outcome.next (if_pos ⟨hc, ha⟩)), fun hn => ?_⟩
    have hlive := hrow.trans (congrArg Host.Outcome.next (if_neg hn))
    refine ⟨fun ho => hlive.trans (congrArg Host.Outcome.next (if_pos (List.isEmpty_iff.mpr ho))), fun ho hl ha => ?_,
      fun ho hw hb => ?_, fun ho hw hb v hv => ?_, fun ho hw hb v hv => ?_⟩
    all_goals refine hlive.trans (congrArg Host.Outcome.next ((if_neg (fun h => ho (List.isEmpty_iff.mp h))).trans ?_))
    · exact if_pos ((Bool.and_eq_true _ _).mpr ⟨hl, ha⟩)
    · exact (if_neg (Bool.not_eq_true _ ▸ hw)).trans (if_pos hb)
    · refine (if_neg (Bool.not_eq_true _ ▸ hw)).trans ((if_neg (Bool.not_eq_true _ ▸ hb)).trans ?_)
      rw [hv]
    · refine (if_neg (Bool.not_eq_true _ ▸ hw)).trans ((if_neg (Bool.not_eq_true _ ▸ hb)).trans ?_)
      rw [hv]
  · unfold State.refuseCell
    obtain hp | hp := hp <;> rw [hp]
  · unfold State.refuseCell
    rw [hg]
  · unfold State.refuseCell
    rw [hp]

/-! A round of the crossbar leaves the slot counter and the slots of the matchings in flight. -/

/-- The slot counter and the slots of the matchings in flight are as they were. -/
structure SlotsKept (s t : State) : Prop where
  slot : t.xbar.slot = s.xbar.slot
  inflight : t.xbar.inflight.map Matching.slot = s.xbar.inflight.map Matching.slot

namespace SlotsKept

theorem refl (s : State) : SlotsKept s s := ⟨rfl, rfl⟩

theorem trans {s t u : State} (h : SlotsKept s t) (h' : SlotsKept t u) : SlotsKept s u :=
  ⟨h'.slot.trans h.slot, h'.inflight.trans h.inflight⟩

theorem of_queueWrites {s t : State} (h : QueueWrites s t) : SlotsKept s t :=
  ⟨congrArg Xbar.slot h.xbar, congrArg (fun x : Xbar => x.inflight.map Matching.slot) h.xbar⟩

theorem foldl {α : Type} {f : State → α → State} (hf : ∀ s a, SlotsKept s (f s a)) (s : State) (as : List α) :
    SlotsKept s (as.foldl f s) := by
  induction as generalizing s with
  | nil => exact .refl s
  | cons a as ih => exact (hf s a).trans (ih _)

theorem commit (s : State) (k ts n : Nat) (ok : QCell → Bool) : SlotsKept s (s.commit k ts n ok) :=
  of_queueWrites ((⟨rfl, rfl, rfl, rfl⟩ : QueueWrites s (s.setQueue k _)).trans (.clearHead _ k))

theorem takeHead (s : State) (k o ts : Nat) : SlotsKept s (s.takeHead k o ts) := by
  unfold State.takeHead
  split
  · split
    · exact commit _ _ _ _ _
    · exact .refl s
  · exact .refl s

theorem fillLevel (s : State) (ks : List Nat) (ts n : Nat) : SlotsKept s (s.fillLevel ks ts n).1 := by
  induction n generalizing s with
  | zero => exact .refl s
  | succ n ih =>
    unfold State.fillLevel
    split
    · exact .refl s
    · exact (commit s _ ts 1 _).trans (ih _)

theorem foldl_fst {α β : Type} {f : State × β → α → State × β} (hf : ∀ a x, SlotsKept a.1 (f a x).1) (a : State × β)
    (xs : List α) : SlotsKept a.1 (xs.foldl f a).1 := by
  induction xs generalizing a with
  | nil => exact .refl a.1
  | cons x xs ih => exact (hf a x).trans (ih _)

theorem fillUni (s : State) (i o ts : Nat) (promoted : Option Nat) (room : Nat → Bool) :
    SlotsKept s (s.fillUni i o ts promoted room).1 := by
  have hfold := foldl_fst (f := fun (a : State × List Nat) (l : Nat) =>
    let ks := ((List.range 8).filter fun c => decide (levelOf c = l)).map fun c => qKey i (qVoq o c)
    let (s, more) := a.1.fillLevel ks ts (superCells - a.1.loaded i o ts)
    (s, a.2 ++ more)) fun a l => fillLevel a.1 _ ts _
  cases promoted with
  | none => exact hfold (s, _) _
  | some k => exact (commit s k ts _ _).trans (hfold (_, _) _)

theorem setMatching (s : State) (m : Matching) : SlotsKept s (s.setMatching m) := by
  refine ⟨rfl, (List.map_map).trans (List.map_congr_left fun x _ => ?_)⟩
  simp only [Function.comp]
  split
  · exact (‹x.slot = m.slot›).symm
  · rfl

theorem restart (s : State) (ks : List Nat) : SlotsKept s (s.restart ks) := ⟨rfl, rfl⟩

/-- Writing a matching back and starting its queues' waiting over, after whatever committed the cells. -/
theorem granted {s u : State} (h : SlotsKept s u) (m : Matching) (used : List Nat) (i : Nat) :
    SlotsKept s (if used.isEmpty then ((u.setMatching m).restart used).bump .tileXbarEmptyGrants [i]
      else (u.setMatching m).restart used) := by
  have hv := (h.trans (setMatching u m)).trans (restart (u.setMatching m) used)
  split
  · exact hv.trans ⟨rfl, rfl⟩
  · exact hv

theorem acceptGrant (s : State) (m : Matching) (r : Req) (first : Bool) : SlotsKept s (s.acceptGrant m r first) := by
  unfold State.acceptGrant
  extract_lets x x1 x2 room s1
  have h1 : SlotsKept s s1 := by
    cases first <;> exact ⟨rfl, rfl⟩
  cases hm : r.mcast with
  | true => exact granted (h1.trans (takeHead s1 _ _ _)) _ _ _
  | false => exact granted (h1.trans (fillUni s1 _ _ _ _ _)) _ _ _

theorem acceptAll (s : State) (ts : Nat) (first : Bool) (gs : List Req) : SlotsKept s (s.acceptAll ts first gs) := by
  unfold State.acceptAll
  dsimp only
  repeat' split
  · exact setMatching s _
  · exact acceptGrant s _ _ first
  · exact .refl s
  · exact .refl s

theorem round (s : State) (ts : Nat) (first : Bool) : SlotsKept s (s.round ts first) := by
  unfold State.round
  split
  · exact .refl s
  · exact foldl (fun s i => acceptAll s ts first _) s _

end SlotsKept

/-- A crossbar slot that is in service counts one slot on and puts a new matching for three slots on in flight, whose
first round it holds. -/
theorem xbarSlot_up {s : State} (hup : s.fnDown fidXbar = false) (hr : s.xbar.ready = true) :
    ∃ u, exec .xbarSlot s = .next (u.round (s.xbar.slot + 3) true) ∧ u.xbar.slot = s.xbar.slot + 1 ∧
      s.xbar.slot + 3 ∈ u.xbar.inflight.map Matching.slot ∧ Still s u := by
  refine ⟨_, congrArg Host.Outcome.next (if_neg (by simp [hup, hr])), rfl, ?_, ?_⟩
  · exact List.mem_map.mpr ⟨_, List.mem_append_right _ (List.mem_singleton_self _), rfl⟩
  · dsimp only
    split <;> simp [Still]

/-- Settles O32: the rows by their guards; a slot by `xbarSlot_up`. -/
theorem queueRowsComplete : Obligations.QueueRowsComplete := by
  refine ⟨fun _ _ => rfl, fun s u v t q hn ha ho hp => ?_, fun s t j met => ?_, fun s t hb => ?_, fun s hup hr => ?_,
    fun s h => congrArg Host.Outcome.next (if_pos (by simpa using h))⟩
  · have hout : (s.liveOuts q).isEmpty = false := by simpa using ho
    simp only [exec, execGeneratedCellReoffer, hn, ha, hout, hp, Bool.false_eq_true, if_false]
  · intro k hl hu hr
    exact congrArg Host.Outcome.next (if_pos ⟨hl, by simpa using hu, hr⟩)
  · exact congrArg Host.Outcome.next (if_neg hb)
  · obtain ⟨u, hu, hslot, hm, hstill⟩ := xbarSlot_up hup hr
    have hkept := SlotsKept.round u (s.xbar.slot + 3) true
    obtain ⟨_, hnvm, hgen, -⟩ := hstill
    obtain ⟨_, hnvm', hgen', -⟩ := round_still u (s.xbar.slot + 3) true
    rw [← hkept.inflight] at hm
    obtain ⟨m, hin, hms⟩ := List.mem_map.mp hm
    exact ⟨_, hu, hkept.slot.trans hslot, ⟨m, hin, hms⟩, hnvm'.trans hnvm, congrArg Gen.act (hgen'.trans hgen)⟩

end Sys2Proof.Machine
end

