-- ==== Sys2Proof/Proofs/Time.lean ====
section
/-! PROOFS. The time unit and the tide (R291 to R317). -/

namespace Sys2Proof.Machine

section
variable {s : State} {iss : Issuer} {i : Nat} {e : CmdEntry}

/-- A clock that no source drives takes the host's adjustment: base and state, then the offset where it is set. -/
theorem timeAdjust_takes {flags : Byte} {delta : BitVec 64} {base : BitVec 32}
    (h : Waits s (.timeAdjust iss flags 0 delta base) i e) (hfl : flags.toNat < 4)
    (hb : flags.getLsbD 1 = false ∨ (-baseMax ≤ base.toInt ∧ base.toInt ≤ baseMax)) (hup : s.fnDown fidTime = false)
    (hc : s.time.clock = .unset ∨ s.time.clock = .holdover ∨ s.time.clock = .host) {stepped : Bool} {v : State} :
    let u : State := { s with time := { s.time with
      clock := .host, base := if flags.getLsbD 1 then base.toInt else s.time.base } }
    (if flags.getLsbD 0 then u.correct (delta.toInt * 2 ^ 40) else (false, u)) = (stepped, v) →
    exec (.timeAdjust iss flags 0 delta base) s = .next (v.ends i e stOk 0
      (beBytes 1 (if !flags.getLsbD 0 then 2 else if stepped then 0 else 1) ++ [0, 0, 0] ++ beBytes 8 v.slewEnd)) := by
  intro u hv
  refine exec_ends h rfl ?_ (by decide)
  have hgo : ¬ (s.time.clock = .tracking ∨ s.time.clock = .locked) := by
    obtain hc | hc | hc := hc <;> simp [hc]
  have hbase : (!flags.getLsbD 1 || decide (-baseMax ≤ signed base ∧ signed base ≤ baseMax)) = true := by
    rw [Bool.or_eq_true, Bool.not_eq_true', decide_eq_true_eq]
    exact hb
  dsimp only
  rw [guardParams_ok _ _ (List.forall_mem_cons.mpr ⟨decide_eq_true hfl, List.forall_mem_cons.mpr ⟨by simp [rsvOk],
    List.forall_mem_singleton.mpr hbase⟩⟩), guardUp_ok _ _ (by simp [hup]), if_neg hgo]
  exact congrArg (fun r : Bool × State =>
    (ok (beBytes 1 (if !flags.getLsbD 0 then 2 else if r.1 then 0 else 1) ++ [0, 0, 0] ++ beBytes 8 r.2.slewEnd), r.2)) hv

/-- An entry of a list without repetition does not stand among those before it. -/
theorem not_mem_take_of_mem_zipIdx {l k : Nat} {ls : List Nat} (hn : ls.Nodup) (h : (l, k) ∈ ls.zipIdx) :
    l ∉ ls.take k := by
  rw [List.mem_zipIdx_iff_getElem?] at h
  intro hm
  obtain ⟨j, hj, hjl⟩ := List.mem_take_iff_getElem.mp hm
  have hk : k < ls.length := (List.getElem?_eq_some_iff.mp h).1
  have hkl := (List.getElem?_eq_some_iff.mp h).2
  have := (List.Nodup.getElem_inj_iff hn (hi := by omega) (hj := hk)).mp (hjl.trans hkl.symm)
  omega

/-- A legal PTP_CONFIG that names every source once replaces the configuration. -/
theorem ptpConfig_sets {domain flags a b c p1 p2 : Byte} {asym : List (BitVec 16 × BitVec 48)}
    (h : Waits s (.ptpConfig iss domain flags a b c p1 p2 0 asym) i e) (hn : (asym.map fun x => x.1.toNat).Nodup)
    (hsrc : ∀ x ∈ asym, x.1.toNat ∈ s.sources) (hlen : asym.length = s.sources.length) (hup : s.fnDown fidTime = false)
    (hfl : flags.toNat < 4) (ha : (logOk a 2).1 = true) (hb : (logOk b 3).1 = true) (hc : (logOk c 4).1 = true) :
    exec (.ptpConfig iss domain flags a b c p1 p2 0 asym) s = .next
      (({ s with ptp := { s.ptp with config := ⟨domain.toNat, flags.getLsbD 0, flags.getLsbD 1, a.toInt, b.toInt, c.toInt,
        p1.toNat, p2.toNat, asym.foldl (fun m x => m.setD x.1.toNat 0 x.2) []⟩ } } : State).ends i e stOk 0 []) := by
  refine exec_ends h rfl ?_ (by decide)
  have hnamed : ∀ x ∈ (asym.map fun (x : BitVec 16 × BitVec 48) => x.1.toNat).zipIdx.map (fun (l, k) =>
      (s.sources.contains l && !((asym.map fun (x : BitVec 16 × BitVec 48) => x.1.toNat).take k).contains l &&
        decide (s.sources.length = (asym.map fun (x : BitVec 16 × BitVec 48) => x.1.toNat).length), 8 + 8 * k)), x.1 = true := by
    intro x hx
    obtain ⟨⟨l, k⟩, hm, rfl⟩ := List.mem_map.mp hx
    obtain ⟨y, hy, hyl⟩ := List.mem_map.mp (List.fst_mem_of_mem_zipIdx hm)
    have hin : l ∈ s.sources := by
      have hyl : y.1.toNat = l := hyl
      rw [← hyl]
      exact hsrc y hy
    have hnew := not_mem_take_of_mem_zipIdx hn hm
    simp only [List.contains_eq_mem, hin, hnew, List.length_map, hlen]
    rfl
  have hany : s.sources = [] ∨ asym ≠ [] := by
    cases hs : s.sources with
    | nil => exact .inl rfl
    | cons x xs => exact .inr fun h0 => by simp [hs, h0] at hlen
  have hchk : ∀ x ∈ [(decide (flags.toNat < 4), 1), logOk a 2, logOk b 3, logOk c 4, rsvOk (0 : Byte) 7,
      (decide (s.sources.isEmpty ∨ !(asym.map fun (x : BitVec 16 × BitVec 48) => x.1.toNat).isEmpty), 8)], x.1 = true := by
    simpa [rsvOk, hfl, ha, hb, hc] using hany
  dsimp only
  rw [guardParams_ok _ _ (List.forall_mem_append.mpr ⟨hchk, hnamed⟩), guardUp_ok _ _ (by simp [hup])]
  rfl

/-- A legal TIMED_LAUNCH joins its tile's launches by its time. -/
theorem timedLaunch_queues {lane ident : BitVec 16} {flags : Byte} {t : BitVec 64} {data : List Byte}
    (h : Waits s (.timedLaunch iss lane ident flags 0 t (BitVec.ofNat 16 data.length) 0 data) i e)
    (hcfg : s.configured lane.toNat = true) (hfl : flags.toNat < 2) (hlo : s.startingReceipt i + 2000 ≤ t.toNat)
    (hhi : t.toNat ≤ s.startingReceipt i + 10000000000) (hwin : s.schedWindow lane.toNat t.toNat = none)
    (hf : ∀ f ∈ s.timeFailed, s.fnDown f = false) (hup : s.fnDown (fidTile (tileOf lane.toNat)) = false)
    (hroom : (s.launches (tileOf lane.toNat)).length < 4096) (hlen : data.length < 65536)
    (hsize : (if s.isC lane.toNat then decide (data.length % 80 = 0 ∧ 80 ≤ data.length ∧ data.length ≤ 8880)
      else decide (60 ≤ data.length ∧ data.length ≤ 8928)) = true) :
    exec (.timedLaunch iss lane ident flags 0 t (BitVec.ofNat 16 data.length) 0 data) s =
      .next ((s.setLaunches (tileOf lane.toNat) (insertBy Launch.at_
        ⟨lane.toNat, ident.toNat, flags.getLsbD 0, t.toNat, if s.isC lane.toNat then cellsOf data else [],
          if s.isC lane.toNat then [] else data, 0⟩ (s.launches (tileOf lane.toNat)))).ends i e stOk 0 []) := by
  refine exec_ends h rfl ?_ (by decide)
  have hn : (BitVec.ofNat 16 data.length).toNat = data.length := by
    rw [BitVec.toNat_ofNat]
    exact Nat.mod_eq_of_lt hlen
  dsimp only
  rw [hn, hsize, guardParams_ok _ _ (by simp [rsvOk, hcfg, hfl, hlo, hhi, hwin]),
    guardUp_ok _ _ (List.forall_mem_append.mpr ⟨hf, by simp [hup]⟩), if_neg (by omega)]
  rfl

end

/-- Time passing moves the counter, the offset and what is left of a slew. -/
theorem advance_only (t : TimeSt) (n : Nat) : ∃ c o l, t.advance n = { t with c := c, offset := o, slew := l } :=
  ⟨_, _, _, rfl⟩

/-- Time passing leaves the clock's state. -/
theorem advancePtp_clock (s : State) (p : Nat) : (s.advancePtp p).time.clock = s.time.clock := by
  unfold State.advancePtp
  split
  · obtain ⟨c, o, l, h⟩ := advance_only s.time (s.time.cyclesTo p)
    dsimp only
    rw [h]
  · rfl

/-- At the full second a pulse starts where the clock is set and the part out of reset. -/
theorem ppsPulse_up {s u : State} (hu : s.advancePtp ((s.ptpNs / 1000000000 + 1) * 1000000000) = u)
    (hc : s.time.clock ≠ .unset) (hb : s.boot.phase ≠ .reset) :
    exec .ppsPulse s = .next { u with pins := { u.pins with ppsOut := true, ppsFall := u.now + 100000 } } := by
  have hrow : exec .ppsPulse s = .next (s.advancePtp ((s.ptpNs / 1000000000 + 1) * 1000000000)).pulse :=
    congrArg Host.Outcome.next (if_neg (not_or.mpr ⟨hc, hb⟩))
  rw [← advancePtp_clock s ((s.ptpNs / 1000000000 + 1) * 1000000000), hu] at hc
  rw [← advancePtp_boot s ((s.ptpNs / 1000000000 + 1) * 1000000000), hu] at hb
  rw [hrow, hu]
  exact congrArg Host.Outcome.next (if_neg (not_or.mpr ⟨hc, hb⟩))

/-- Settles O35: the commands by their checks, the rows by their guards. -/
theorem timeCommandsComplete : Obligations.TimeCommandsComplete := by
  refine ⟨fun s iss i e flags delta base h hfl => ?_, fun s iss i e h hup => ?_,
    fun s iss i e domain flags a b c p1 p2 asym h hn hsrc hlen hup hfl ha hb hc =>
      ptpConfig_sets h hn hsrc hlen hup hfl ha hb hc,
    fun s iss i e first count h h1 h16 h64 => ?_,
    fun s iss i e lane ident flags t data h hcfg hfl hlo hhi hwin hf hup hroom => ⟨fun hc hmin hmax => ?_, fun hc hm hmin hmax => ?_⟩,
    fun s sl h => ?_, fun s hc hb => ?_, fun s h => congrArg Host.Outcome.next (if_pos h),
    fun s p k hb hup hm => congrArg Host.Outcome.next (if_pos (by simp [hb, hup, hm])),
    fun s p m hb hup hh hr hd => ?_, fun s b p d h => ?_, fun s t l rest h => ?_⟩
  · intro u hbase hup hc
    refine ⟨fun hf => ?_, fun hf stepped v hv => ?_⟩
    · have hx := timeAdjust_takes h hfl hbase hup hc (stepped := false) (v := u) (if_neg (by rw [hf]; decide))
      rwa [hf] at hx
    · have hx := timeAdjust_takes h hfl hbase hup hc ((if_pos hf).trans hv)
      rw [hf] at hx
      cases stepped <;> exact hx
  · refine exec_ends h rfl ?_ (by decide)
    rw [guardUp_ok _ _ (by simp [hup])]
    rfl
  · intro ts hup
    refine exec_ends h rfl ?_ (by decide)
    have hfirst : first.toNat < 64 := by omega
    dsimp only
    rw [guardParams_ok _ _ (by simp [rsvOk, hfirst, h1, h16, h64]), guardUp_ok _ _ (by simpa using hup)]
    rfl
  · have hx := timedLaunch_queues h hcfg hfl hlo hhi hwin hf hup hroom (by omega) (by simp [hc, hmin, hmax])
    rwa [hc] at hx
  · have hx := timedLaunch_queues h hcfg hfl hlo hhi hwin hf hup hroom (by omega) (by simp [hc, hm, hmin, hmax])
    rwa [hc] at hx
  · simp only [exec, execSlewEnd, h]
  · intro u
    exact ppsPulse_up rfl hc hb
  · have hgo : ¬ (s.boot.phase ≠ .done ∨ s.fnDown fidTime = true ∨ (!s.hearsPort p.val) = true ∨
        (!s.runsPtp p.val) = true ∨ m.domain.toNat ≠ s.ptp.config.domain) := by simp [hb, hup, hh, hr, hd]
    refine ⟨fun hk => ?_, fun hk hs => ?_, fun hk hs ht => ?_, fun hk hs ht => ?_, fun q t2 c hk hsync hs hq => ?_⟩
    all_goals refine congrArg Host.Outcome.next ((if_neg hgo).trans ?_)
    · simp only [hk]
    · simp only [hk, hs, if_true]
    · simp only [hk, hs, ht]
      rfl
    · simp only [hk, hs, ht]
      rfl
    · simp only [hk, hsync, hs, hq, and_self, if_true]
  · simp only [exec, execAnnounceTimeout, h]
  · intro u
    refine ⟨fun w hw => ?_, fun hw => ⟨fun hp => ?_, fun hp => ?_⟩⟩
    · simp only [exec, execTimedLaunchDue, h]
      rw [hw]
    · simp only [exec, execTimedLaunchDue, h]
      rw [hw]
      exact congrArg Host.Outcome.next (if_pos hp)
    · simp only [exec, execTimedLaunchDue, h]
      rw [hw]
      exact congrArg Host.Outcome.next (if_neg (Bool.not_eq_true _ ▸ hp))

section
variable {s : State} {iss : Issuer} {i : Nat} {e : CmdEntry} {handle : BitVec 16} {met : List BlockErr} {o : Obj}
  (h : Waits s (.tideLoad iss handle 0 met) i e) (ho : s.objOf (s.slot i).number handle.toNat = some o)
  (hob : s.objBusy handle.toNat = false) (hs : o.sealed = true) (hty : o.type = 3)
  (hread : (s.readObject handle.toNat 0 o.length met).1 = false) (hup : ∀ f ∈ s.timeFailed, s.fnDown f = false)
  (hc : s.tide.commit = none)
include h ho hob hs hty hread hup hc

/-- A table set whose object is read stands staged whole where every table of it is right. -/
theorem tideLoad_staged {ps : List TidePort} :
    let u := (s.readObject handle.toNat 0 o.length met).2
    u.tideSet o = .inr ps → exec (.tideLoad iss handle 0 met) s = .next
      (({ u with tide := { u.tide with staged := some ps, spoilt := false } } : State).ends i e stOk 0
        (beBytes 2 ps.length ++ [0, 0] ++ beBytes 4 (windowsIn ps))) := by
  intro u hset
  refine exec_ends h rfl ((withObject_ok ho hob hs hty (by rfl) (by simp) (by simp [rsvOk]) hup _).trans ?_) (by decide)
  rw [if_neg (by simp [hc]), consuming_ok hread]
  simp only [u] at hset
  rw [hset]
  rfl

/-- A table set with a fault is not staged at all, and the fault's place is recorded. -/
theorem tideLoad_refused {f : Nat} :
    let u := (s.readObject handle.toNat 0 o.length met).2
    u.tideSet o = .inl f → exec (.tideLoad iss handle 0 met) s = .next
      (({ u with tide := { u.tide with reason := 7, index := f } } : State).ends i e stBadParam 0xFFFF []) := by
  intro u hset
  refine exec_ends h rfl ((withObject_ok ho hob hs hty (by rfl) (by simp) (by simp [rsvOk]) hup _).trans ?_) (by decide)
  rw [if_neg (by simp [hc]), consuming_ok hread]
  simp only [u] at hset
  rw [hset]
  rfl

end

section
variable {s : State} {c : Commit} {set : List TidePort} (hc : s.tide.commit = some c) (hset : s.tide.staged = some set)
  (hk : c.checked = false)
include hc hset hk

/-- A commit whose set was spoilt is refused at the end of its check. -/
theorem tideCheckEnd_spoilt (hsp : s.tide.spoilt = true) :
    exec .tideCheckEnd s = .next (s.refuseCommit stBadParam 0xFFFF s.tide.reason s.tide.index) := by
  simp only [exec, execTideCheckEnd, hc, hset, hk, hsp, Bool.false_eq_true, if_false, if_true]

variable (hsp : s.tide.spoilt = false)
  (hsame : ((enginesOf (s.tablesAfter set)).all fun e => sameK (s.tablesAfter set) e) = true)
  (hcsw : (enginesOf (s.tablesAfter set)).findSome? (s.causewayCheck (s.tablesAfter set)) = none)
include hsp hsame hcsw

/-- A commit that passes every check but the deadlines is refused with the entry whose deadline is too early. -/
theorem tideCheckEnd_late {pos why : Nat} (hd : s.deadline (s.tablesAfter set) = some (pos, why)) :
    exec .tideCheckEnd s = .next ((s.bump .tideRefusals []).refuseCommit stRefusedDeadline pos why pos) := by
  simp only [exec, execTideCheckEnd, hc, hset, hk, hsp, hsame, hcsw, hd, Bool.false_eq_true, Bool.not_true, if_false]

/-- A commit that passes every check waits for the first boundary of each of its tables. -/
theorem tideCheckEnd_waits {w : TidePort × Nat} {ws : List (TidePort × Nat)} (hd : s.deadline (s.tablesAfter set) = none)
    (hb : s.boundaries set (max (if c.immediate then s.ptpNs else c.a) s.ptpNs) = w :: ws) :
    exec .tideCheckEnd s = .next { s with tide := { s.tide with commit := some { c with
      a := if c.immediate then s.ptpNs else c.a, checked := true, waiting := w :: ws,
      earliest := ws.foldl (fun m x => min m x.2) w.2, changed := ws.length + 1 } } } := by
  simp only [exec, execTideCheckEnd, hc, hset, hk, hsp, hsame, hcsw, hd, hb, Bool.false_eq_true, Bool.not_true, if_false,
    List.isEmpty_cons, List.length_cons]

end

/-- A table that takes effect at its first boundary leaves the commit waiting for the others, where one of its engine takes
effect at the same moment. -/
theorem tideActivation_waits {s : State} {c : Commit} {p : Lane} {t : TidePort} {at_ : Nat} {w : TidePort × Nat}
    {ws : List (TidePort × Nat)} (hc : s.tide.commit = some c)
    (hf : c.waiting.find? (fun w => decide (w.1.lane = p.val)) = some (t, at_))
    (hl : c.waiting.filter (fun w => decide (w.1.lane ≠ p.val)) = w :: ws) (hk : t.k ≠ 0)
    (hany : ((w :: ws).any fun w => decide (w.2 = at_ ∧ engineOf w.1.lane = engineOf p.val)) = true) :
    let u := s.advancePtp at_
    exec (.tideActivation p) s = .next { u with tide := { u.tide with
      active := u.tide.active.put p.val t, commit := some { c with waiting := w :: ws } } } := by
  simp only [exec, execTideActivation, hc, hf, hl, hk, hany, if_false, if_true, List.isEmpty_cons, Bool.false_eq_true]

/-- Settles O37: the commands by their checks; the rows by `tideCheckEnd_waits` and `tideActivation_waits`. -/
theorem tideCommandsComplete : Obligations.TideCommandsComplete := by
  refine ⟨fun s iss i e handle met o h ho hob hs hty hread hup hc => ⟨fun ps hset => ?_, fun f hset => ?_⟩,
    fun s u iss i e lane t k h hcfg ht hr => ?_, fun s iss i e flags a ps h hfl hup hc hset => ?_,
    fun s iss i e ps h hc hset => ?_,
    fun s c set hc hset hk => ⟨fun hsp => tideCheckEnd_spoilt hc hset hk hsp, fun hsp hsame hcsw =>
      ⟨fun pos why hd => tideCheckEnd_late hc hset hk hsp hsame hcsw hd, fun w ws hd => ?_⟩⟩,
    fun s c p t at_ w ws hc hf hl hk hany => tideActivation_waits hc hf hl hk hany, fun s p tp t ts ha hw => ?_⟩
  · exact tideLoad_staged h ho hob hs hty hread hup hc hset
  · exact tideLoad_refused h ho hob hs hty hread hup hc hset
  · refine exec_ends h rfl ?_ (by decide)
    have hf : (0 : Byte).getLsbD 0 = false := by decide
    dsimp only
    rw [hf, guardParams_ok _ _ (by simp [rsvOk, hcfg, ht])]
    simp only [Bool.false_eq_true, if_false, ht]
    exact answerObject_some hr
  · refine exec_pends h rfl ?_
    dsimp only
    rw [guardParams_ok _ _ (by simp [rsvOk, hfl]), guardUp_ok _ _ (by simp [hup]), if_neg (by simp [hc]),
      if_neg (by simp [hset])]
  · refine exec_ends h rfl ?_ (by decide)
    rw [if_neg (by simp [hc]), if_neg (by simp [hset])]
    rfl
  · intro a hb
    exact tideCheckEnd_waits hc hset hk hsp hsame hcsw hd hb
  · simp only [exec, execTideWindowBoundary, ha]
    rw [hw]

end Sys2Proof.Machine
end

