-- ==== Sys2Proof/Proofs/Causeway.lean ====
section
/-! PROOFS. The causeway and Swell (R474 to R503). -/

namespace Sys2Proof.Machine

/-! ## What the causeway's rows leave alone -/

/-- A command whose body takes no decision waits for its job. -/
theorem exec_holds {s s' : State} {c : Instr} {i : Nat} {e : CmdEntry} (h : Waits s c i e) {body : Body} {job : Job}
    (hx : exec c s = .next (hostCmd c body s)) (hb : body i s = (.hold job, s')) :
    exec c s = .next (s'.holdCmd i e job) := by
  rw [hx, hostCmd_waits h, runCmd_hold hb]

theorem ReplyWrites.foldl {α : Type} {f : State → α → State} (hf : ∀ s a, ReplyWrites s (f s a)) (s : State)
    (as : List α) : ReplyWrites s (as.foldl f s) := by
  induction as generalizing s with
  | nil => exact .refl s
  | cons a as ih => exact (hf s a).trans (ih _)

/-- The end of the commands that firmware runs writes what replies write. -/
theorem endRunning_only (s : State) (f : Job → Option Final) : ReplyWrites s (s.endRunning f) := by
  refine ReplyWrites.foldl (fun s i => ReplyWrites.foldl (fun s e => ?_) s _) s _
  split
  · split
    · exact .setSlot s i _
    · exact finishCmd_only s i e 0 _
  · exact .refl s

/-- What follows lanes and moves ports leaves the causeway's paths and the eyes of the fibres as they were. -/
structure PortWrites (s t : State) : Prop where
  csw : t.csw = s.csw
  eyes : t.opt.eyes = s.opt.eyes

theorem LinkWrites.portWrites {s t : State} (h : LinkWrites s t) : PortWrites s t := by
  obtain ⟨_, _, _, _, _, _, _, _, rfl⟩ := h
  exact ⟨rfl, rfl⟩

theorem FormWrites.portWrites {s t : State} (h : FormWrites s t) : PortWrites s t := by
  obtain ⟨_, _, _, _, rfl⟩ := h
  exact ⟨rfl, rfl⟩

theorem QueueWrites.portWrites {s t : State} (h : QueueWrites s t) : PortWrites s t :=
  ⟨h.csw, congrArg Opt.eyes h.opt⟩

namespace PortWrites

theorem refl (s : State) : PortWrites s s := ⟨rfl, rfl⟩

theorem trans {s t u : State} (h : PortWrites s t) (h' : PortWrites t u) : PortWrites s u :=
  ⟨h'.csw.trans h.csw, h'.eyes.trans h.eyes⟩

theorem foldl {α : Type} {f : State → α → State} (hf : ∀ s a, PortWrites s (f s a)) (s : State) (as : List α) :
    PortWrites s (as.foldl f s) := by
  induction as generalizing s with
  | nil => exact .refl s
  | cons a as ih => exact (hf s a).trans (ih _)

theorem ite {s a b : State} {c : Prop} [Decidable c] (ha : PortWrites s a) (hb : PortWrites s b) :
    PortWrites s (if c then a else b) := by
  split
  · exact ha
  · exact hb

theorem after {s t u : State} (h : PortWrites u t) (hc : u.csw = s.csw) (he : u.opt.eyes = s.opt.eyes) : PortWrites s t :=
  ⟨h.csw.trans hc, h.eyes.trans he⟩

theorem setTile (s : State) (t : Nat) (f : TileSt → TileSt) : PortWrites s (s.setTile t f) := ⟨rfl, rfl⟩

theorem setPort (s : State) (p : Nat) (f : PortSt → PortSt) : PortWrites s (s.setPort p f) := ⟨rfl, rfl⟩

theorem setRing (s : State) (e r : Nat) (f : RingSt → RingSt) : PortWrites s (s.setRing e r f) := ⟨rfl, rfl⟩

theorem bumpBy (s : State) (r : Reg) (ix : List Nat) (n : Nat) : PortWrites s (s.bumpBy r ix n) := ⟨rfl, rfl⟩

theorem raiseEv (s : State) (c v o : Nat) (d : List Byte) : PortWrites s (s.raiseEv c v o d) :=
  (LinkWrites.raiseEv s c v o d).portWrites

theorem formC (s : State) (p : Nat) : PortWrites s (s.formC p) := by
  have hrest (u : State) := ((FormWrites.tcForm u p).trans (.zeroEstimators _ p)).trans (.spillJudge _ (tileOf p))
  exact ((FormWrites.restartLanes s p).portWrites.trans (setPort _ p _)).trans (hrest _).portWrites

theorem formPort (s : State) (p : Nat) : PortWrites s (s.formPort p) := by
  have hrest (u : State) := ((FormWrites.tcForm u p).trans (.zeroEstimators _ p)).portWrites
  unfold State.formPort
  refine ite (refl s) (ite (ite (refl s) (ite (ite (refl s) ((setPort s p _).trans (raiseEv _ _ _ _ _))) (formC s p))) ?_)
  split
  · exact refl s
  · exact ite (setPort s p _) ((setPort s p _).trans (hrest _))

theorem abortFrame (s : State) (t n : Nat) : PortWrites s (s.abortFrame t n) :=
  ite (refl s) ((QueueWrites.foldl QueueWrites.clearHead _ _).portWrites.after rfl rfl)

theorem flushEgress (s : State) (p : Nat) (sel : Nat → Bool) : PortWrites s (s.flushEgress p sel).1 := by
  have hfold (cs : List Nat) (a : State × Nat) : PortWrites a.1 (cs.foldl (init := a) fun (s, n) c =>
      if sel c then
        let k := qKey (tileOf p) (qEq (slotOf p) c)
        ((s.setQueue k []).dropCells (s.queue k), n + (s.queue k).length)
      else (s, n)).1 := by
    induction cs generalizing a with
    | nil => exact refl a.1
    | cons c cs ih =>
      refine PortWrites.trans ?_ (ih _)
      dsimp only
      split
      · exact (QueueWrites.dropCells _ _).portWrites.after rfl rfl
      · exact refl a.1
  exact hfold _ (s, 0)

theorem dropEgress (s : State) (p : Nat) (reconf : Bool) : PortWrites s (s.dropEgress p reconf) := by
  cases reconf with
  | false => exact (LinkWrites.dropFrames s p).portWrites
  | true =>
    unfold State.dropEgress
    have h := flushEgress { s with frames := { s.frames with sending := s.frames.sending.del p } } p fun _ => true
    dsimp only
    rw [if_pos rfl]
    generalize State.flushEgress _ p _ = r at h ⊢
    exact (h.after rfl rfl : PortWrites s r.1).trans (bumpBy _ _ _ _)

theorem dropPort (s : State) (p : Nat) (st : PState) (reconf : Bool) : PortWrites s (s.dropPort p st reconf) := by
  unfold State.dropPort
  refine ite (setPort s p _) ?_
  have hdrop := (dropEgress s p reconf).trans (LinkWrites.missLaunches _ p).portWrites
  refine PortWrites.trans ?_ ((QueueWrites.spillJudge _ _).portWrites.trans (foldl formPort _ _))
  refine PortWrites.trans ?_ ((setTile _ (tileOf p) _).trans (setPort _ p _))
  split
  · exact hdrop.trans (abortFrame _ _ _)
  · exact hdrop

/-- Turning a lane over to the causeway leaves the causeway itself. -/
theorem divertLane (s : State) (l : Nat) : PortWrites s (s.divertLane l) := by
  unfold State.divertLane
  have hlane : PortWrites s ((s.pauseSweep l).setLane l fun x => { x with diverted := true, run := 0, fecLock := false, rxOk := false }) :=
    ⟨rfl, rfl⟩
  exact ite hlane (ite (hlane.trans (LinkWrites.laneLost _ l).portWrites) (ite (hlane.trans (dropPort _ _ _ _)) hlane))

end PortWrites

/-! ## A path's steps (R485, R486) -/

section
variable {s : State} {k : Nat} {x : CswPath} (h : s.csw.paths.find k = some x) {g : CswPath → CswPath}
include h

/-- A step of a path that does not leave OPEN changes the path alone. -/
theorem movePath_quiet (hg : (g x).st = x.st ∨ x.st ≠ .opened) :
    s.movePath k g = { s with csw := { s.csw with paths := s.csw.paths.put k (g x) } } := by
  have hq : ¬ (x.st = .opened ∧ (g x).st ≠ .opened) := by
    rintro ⟨ho, hn⟩
    obtain hg | hg := hg
    · exact hn (hg.trans ho)
    · exact hg ho
  simp only [State.movePath, h, State.pathEvent, AMap.find_put_same, if_neg hq]

/-- A path that leaves OPEN raises PATH_CHANGE. -/
theorem movePath_leaves (ho : x.st = .opened) (hn : (g x).st ≠ .opened) : s.movePath k g =
    ({ s with csw := { s.csw with paths := s.csw.paths.put k (g x) } } : State).raiseEv 0x0E01 2 (fidOe (k / 128))
      (beBytes 1 (k / 128) ++ beBytes 1 (k % 128 / 8) ++ beBytes 1 (k % 8) ++ beBytes 1 (g x).st.code ++
        beBytes 1 (g x).found) := by
  have hq : x.st = .opened ∧ (g x).st ≠ .opened := ⟨ho, hn⟩
  simp only [State.movePath, h, State.pathEvent, AMap.find_put_same, if_pos hq]

end

/-- Only the paths, the heaters, the rings, telemetry, registers and links differ: the changes in progress and the time stay. -/
structure PathWrites (s t : State) : Prop where
  changes : t.csw.changes = s.csw.changes
  time : t.time = s.time

namespace PathWrites

theorem refl (s : State) : PathWrites s s := ⟨rfl, rfl⟩

theorem trans {s t u : State} (h : PathWrites s t) (h' : PathWrites t u) : PathWrites s u :=
  ⟨h'.changes.trans h.changes, h'.time.trans h.time⟩

theorem foldl {α : Type} {f : State → α → State} (hf : ∀ s a, PathWrites s (f s a)) (s : State) (as : List α) :
    PathWrites s (as.foldl f s) := by
  induction as generalizing s with
  | nil => exact .refl s
  | cons a as ih => exact (hf s a).trans (ih _)

theorem movePath (s : State) (k : Nat) (g : CswPath → CswPath) : PathWrites s (s.movePath k g) := by
  cases h : s.csw.paths.find k with
  | none =>
    simp only [State.movePath, h]
    exact .refl s
  | some x =>
    by_cases ho : x.st = .opened
    · by_cases hn : (g x).st = .opened
      · rw [movePath_quiet h (.inl (hn.trans ho.symm))]
        exact ⟨rfl, rfl⟩
      · rw [movePath_leaves h ho hn]
        constructor <;> simp
    · rw [movePath_quiet h (.inr ho)]
      exact ⟨rfl, rfl⟩

theorem bump (s : State) (r : Reg) (ix : List Nat) : PathWrites s (s.bump r ix) := ⟨rfl, rfl⟩

theorem engage (s : State) (k src : Nat) (cap : List (Fin 2304 × BitVec 12)) : PathWrites s (s.engage k src cap) := ⟨rfl, rfl⟩

theorem relearn (s : State) (k src : Nat) (cap : List (Fin 2304 × BitVec 12)) : PathWrites s (s.relearn k src cap) :=
  ⟨rfl, rfl⟩

theorem endPath (s : State) (cap : List (Fin 2304 × BitVec 12)) (k : Nat) : PathWrites s (s.endPath cap k) := by
  unfold State.endPath
  split
  · exact .refl s
  · dsimp only
    split
    · split
      · exact (engage _ _ _ cap).trans (movePath _ k _)
      · exact ((engage _ _ _ cap).trans (bump _ _ _)).trans (movePath _ k _)
    · split
      · exact ((engage _ _ _ cap).trans (relearn _ _ _ cap)).trans (movePath _ k _)
      · exact .refl s
    · exact .refl s

theorem endCircuits (s : State) (e : Nat) : PathWrites s (s.endCircuits e) := by
  obtain ⟨_, _, _, _, _, h⟩ := endRunning_only s fun j =>
    match j with
    | .cswCircuit e' ps =>
      let opened := ps.filter fun k => ((s.csw.paths.find k).map CswPath.st) = some .opened
      if e' = e then some ⟨stOk, 0, beBytes 1 ps.length ++ beBytes 1 opened.length ++ [0, 0]⟩ else none
    | _ => none
  have he : s.endCircuits e = _ := h
  rw [he]
  exact ⟨rfl, rfl⟩

end PathWrites

/-! ## The causeway's changes (R474 to R484) -/

/-- What an engine does at the time of the next action of its schedule. -/
def State.causewayAct (s : State) (e t : Nat) (a : PlacedWin) : State :=
  let s := s.advancePtp t
  let s : State := { s with csw := { s.csw with last := s.csw.last.put e t } }
  let i := a.w.entry
  if a.w.sets then
    if (s.circuitsOn e).contains i then s
    else
      let s := s.startChange e (s.schedPaths i) []
      (s.circuit i).lanes.foldl (fun s l => if (s.lane l).diverted then s else s.divertLane l) s
  else
    let gone := s.csw.paths.filter fun p => decide (p.1 / 128 = e) && !p.2.direct && decide (p.2.circuit = i)
    if gone.isEmpty then s else s.startChange e [] (gone.map (·.1))

theorem causewayAct_still (s : State) (e t : Nat) (a : PlacedWin) : Still s (s.causewayAct e t a) := by
  unfold State.causewayAct
  dsimp only
  repeat' split
  all_goals simp [Still, foldl_still, ite_parts]

/-- Starting a change leaves the engine's last action. -/
theorem startChange_last (s : State) (e : Nat) (set : List (Nat × CswPath)) (clear : List Nat) :
    (s.startChange e set clear).csw.last = s.csw.last := rfl

/-- The action is remembered as the engine's last, whatever the change does. -/
theorem causewayAct_last (s : State) (e t : Nat) (a : PlacedWin) : (s.causewayAct e t a).csw.last.find e = some t := by
  have hdivert (u : State) (ls : List Nat) :
      (ls.foldl (fun s l => if (s.lane l).diverted then s else s.divertLane l) u).csw = u.csw :=
    (PortWrites.foldl (fun s l => .ite (.refl s) (.divertLane s l)) u ls).csw
  unfold State.causewayAct
  dsimp only
  repeat' split
  all_goals simp [hdivert, startChange_last]

theorem causewayChange_up {s : State} {e : Engine} (hup : s.fnDown (fidOe e.val) = false) (hr : (s.oe e.val).ready = true) :
    exec (.causewayChange e) s = .next (match s.nextAction e.val with
      | none => s
      | some (t, a) => s.causewayAct e.val t a) :=
  congrArg Host.Outcome.next (if_neg (by simp [hup, hr]))

/-- The end of a change ends each path of the engine and then the commands that wait for it. -/
theorem causewayChangeEnd_due {s : State} {e : Engine} {cap : List (Fin 2304 × BitVec 12)} {at_ : Nat}
    (h : s.csw.changes.find e.val = some at_) :
    let u := s.advanceTo (at_ + 40000)
    let v : State := { u with csw := { u.csw with changes := u.csw.changes.del e.val } }
    exec (.causewayChangeEnd e cap) s = .next ((((v.csw.paths.filter fun p => decide (p.1 / 128 = e.val)).map (·.1)).foldl
      (fun s k => s.endPath cap k) v).endCircuits e.val) := by
  simp only [exec, execCausewayChangeEnd, h]

/-- After it the engine has no change in progress, and the change's time has passed. -/
theorem causewayChangeEnd_leaves {s v : State} {e at_ : Nat} {cap : List (Fin 2304 × BitVec 12)} (ks : List Nat)
    (hc : v.csw.changes.find e = none) (ht : v.time = (s.advanceTo (at_ + 40000)).time) (hlt : at_ + 40000 < 2 ^ 64) :
    let t := (ks.foldl (fun s k => s.endPath cap k) v).endCircuits e
    t.csw.changes.find e = none ∧ at_ + 40000 ≤ t.now := by
  intro t
  have hw : PathWrites v t := (PathWrites.foldl (fun s k => .endPath s cap k) v ks).trans (.endCircuits _ e)
  have hnow : t.now = (s.advanceTo (at_ + 40000)).now := by
    simp only [State.now, hw.time, ht]
  rw [hw.changes, hnow, advanceTo_now s _ hlt]
  exact ⟨hc, Nat.le_max_right _ _⟩

/-! ## CSW_CIRCUIT -/

/-- A circuit between two engine-local fibres, whose layouts the mask fits, passes the checks of CSW_CIRCUIT. -/
theorem circuit_body {s : State} {mask a b : Byte} (op : Byte) (hop : op.toNat ≤ 1) (heng : a.toNat / 16 = b.toNat / 16)
    (hne : a ≠ b) (hup : s.fnDown (fidOe (a.toNat / 16)) = false) (ha : (s.entry a.toNat).state = 1)
    (hb : (s.entry b.toNat).state = 1) (hsch : s.scheduled (a.toNat / 16) = false)
    (hla : ∀ l, s.layout a.toNat = some l → maskWhole l mask.toNat = true)
    (hlb : ∀ l, s.layout b.toNat = some l → maskWhole l mask.toNat = true)
    (hfree : op = 1 → ∀ l ∈ (⟨mask.toNat, a.toNat, b.toNat⟩ : CircuitEntry).lanes, s.csw.lanes.contains l = false)
    (k : Ans × State) :
    let c : CircuitEntry := ⟨mask.toNat, a.toNat, b.toNat⟩
    let whole (f : Nat) : Bool := match s.layout f with
      | some l => maskWhole l c.mask
      | none => true
    (guardParams [(decide (op.toNat ≤ 1), 0), (decide (¬ (op = 1 ∧ c.lanes.any s.csw.lanes.contains)) && whole c.a && whole c.b, 1),
        (decide (c.a / 16 = c.b / 16 ∧ c.a ≠ c.b), 3)] s <|
      guardUp [fidOe (c.a / 16)] s <|
        if (s.entry c.a).state ≠ 1 then (.done stRefusedPlan c.a [], s)
        else if (s.entry c.b).state ≠ 1 then (.done stRefusedPlan c.b [], s)
        else if s.scheduled (c.a / 16) then (.done stBusy 2 [], s)
        else k) = k := by
  intro c whole
  have hwhole (f : Nat) (h : ∀ l, s.layout f = some l → maskWhole l mask.toNat = true) : whole f = true := by
    cases hf : s.layout f with
    | none => simp only [whole, hf]
    | some l => simpa only [whole, hf] using h l hf
  have hshare : ¬ (op = 1 ∧ c.lanes.any s.csw.lanes.contains = true) := by
    rintro ⟨h1, hany⟩
    obtain ⟨l, hl, hc⟩ := List.any_eq_true.mp hany
    rw [hfree h1 l hl] at hc
    cases hc
  have hab : a.toNat ≠ b.toNat := fun h => hne (BitVec.eq_of_toNat_eq h)
  have hmask : (decide (¬ (op = 1 ∧ c.lanes.any s.csw.lanes.contains = true)) && whole c.a && whole c.b) = true := by
    rw [decide_eq_true hshare, hwhole c.a hla, hwhole c.b hlb]
    rfl
  rw [guardParams_ok _ _ (List.forall_mem_cons.mpr ⟨decide_eq_true hop, List.forall_mem_cons.mpr ⟨hmask,
      List.forall_mem_singleton.mpr (decide_eq_true ⟨heng, hab⟩)⟩⟩), guardUp_ok _ _ (by simp [c, hup]),
    if_neg (by simp [c, ha]), if_neg (by simp [c, hb]), if_neg (by simp [c, hsch])]

/-- What a path that is OPEN, or waits for its pilot, does at the end of a pilot window. -/
theorem pathWindow_ends {s : State} {e : Engine} {p : Fin 128} {x : CswPath}
    (h : s.csw.paths.find (128 * e.val + p.val) = some x) (win : PilotWindow) :
    let k := 128 * e.val + p.val
    let u := s.advanceTo x.window.1
    let next := u.windowFrom (k / 128) (k % 8)
    let found (y : CswPath) : CswPath := { y with found := dominant win, window := next }
    let right := confirms win x.window.2
    let ends (v : State) : Prop := exec (.pilotWindowEnd (.path e p) win) s = .next v
    (x.st = .waitPilot → right = true → ends (u.movePath k fun y => { found y with st := .opened, fails := 0 })) ∧
    (x.st = .waitPilot → right = false → ends (u.movePath k found)) ∧
    (x.st = .opened → right = true → ends (u.movePath k fun y => { found y with fails := 0 })) ∧
    (x.st = .opened → right = false → clearWin win = true →
      ends ((u.bump .cswPilotFaults []).movePath k fun y => { found y with st := .faulted, fails := 0 })) ∧
    (x.st = .opened → clearWin win = false → x.fails = 0 → ends (u.movePath k fun y => { found y with fails := 1 })) ∧
    (x.st = .opened → clearWin win = false → x.fails ≠ 0 →
      ends (u.movePath k fun y => { found y with st := .waitPilot, fails := 0 })) := by
  intro k u next found right ends
  have hrow (hst : x.st = .opened ∨ x.st = .waitPilot) : ends (u.judgePath k win x) := by
    have hgo : ¬ (x.st ≠ .opened ∧ x.st ≠ .waitPilot) := by
      rintro ⟨h1, h2⟩
      exact hst.elim h1 h2
    simp only [ends, exec, execPilotWindowEnd, State.pathWindow, h, if_neg hgo, k, u]
  have hclear (hc : clearWin win = false) : confirms win x.window.2 = false := by simp [confirms, hc]
  refine ⟨fun ho hr => (hrow (.inr ho)).trans ?_, fun ho hr => (hrow (.inr ho)).trans ?_,
    fun ho hr => (hrow (.inl ho)).trans ?_, fun ho hr hc => (hrow (.inl ho)).trans ?_,
    fun ho hc hf => (hrow (.inl ho)).trans ?_, fun ho hc hf => (hrow (.inl ho)).trans ?_⟩
  all_goals simp only [State.judgePath, ho]
  · rw [if_pos hr]
  · rw [if_neg (Bool.eq_false_iff.mp hr)]
  · rw [if_pos hr]
  · rw [if_neg (Bool.eq_false_iff.mp hr), if_pos hc]
  · rw [if_neg (Bool.eq_false_iff.mp (hclear hc)), if_neg (Bool.eq_false_iff.mp hc), if_pos hf]
  · rw [if_neg (Bool.eq_false_iff.mp (hclear hc)), if_neg (Bool.eq_false_iff.mp hc), if_neg hf]

/-- Settles O38: the commands by their checks, the changes and the paths by their steps. -/
theorem causewayCompletes : Obligations.CausewayCompletes := by
  refine ⟨fun s iss i e engine h he hup => ?_, fun s iss i e mask a b heng hne hup ha hb hsch hla hlb => ?_,
    fun s l hd => ⟨fun hl => ?_, fun t hl ht => ?_⟩, fun s l b hd hc hl => ?_, fun s e hup hr => ?_,
    fun s e cap at_ h hlt => ?_, fun s e p x h => ?_⟩
  · refine exec_ends h rfl ?_ (by decide)
    dsimp only
    rw [guardParams_ok _ _ (by simp [rsvOk, he]), guardUp_ok _ _ (by simp [hup])]
    rfl
  · intro c gone
    refine ⟨fun h => ?_, fun h hfree => ⟨fun hset => ?_, fun hset => ?_⟩⟩
    · refine exec_ends h rfl ((circuit_body 0 (by decide) heng hne hup ha hb hsch hla hlb nofun _).trans ?_) (by decide)
      rfl
    · refine exec_ends h rfl ((circuit_body 1 (by decide) heng hne hup ha hb hsch hla hlb (fun _ => hfree) _).trans ?_) (by decide)
      exact (if_pos rfl).trans (if_pos (List.isEmpty_iff.mpr hset))
    · refine exec_holds h rfl ((circuit_body 1 (by decide) heng hne hup ha hb hsch hla hlb (fun _ => hfree) _).trans ?_)
      exact (if_pos rfl).trans (if_neg fun h => hset (List.isEmpty_iff.mp h))
  · exact congrArg Host.Outcome.next ((if_neg (by simp [hd])).trans (if_pos (by simpa using hl)))
  · refine congrArg Host.Outcome.next ((if_neg (by simp [hd])).trans ((if_neg (by simp [hl])).trans ?_))
    rw [ht]
  · have hnone : earliest (s.divLeft l.val s.ptpNs) = none := by rw [hl]; rfl
    refine congrArg Host.Outcome.next ((if_neg (not_or.mpr ⟨by simp [hd], by rw [hc]; decide⟩)).trans ?_)
    rw [hnone]
    exact if_pos (by rw [hl]; rfl)
  · have hrow := causewayChange_up hup hr
    cases hn : s.nextAction e.val with
    | none =>
      rw [hn] at hrow
      exact ⟨s, hrow, rfl, rfl, nofun⟩
    | some x =>
      rw [hn] at hrow
      obtain ⟨_, hnvm, hgen, -⟩ := causewayAct_still s e.val x.1 x.2
      refine ⟨_, hrow, hnvm, hgen, fun d a hx => ?_⟩
      cases hx
      exact causewayAct_last s e.val d a
  · have hrow := causewayChangeEnd_due (cap := cap) h
    exact ⟨hrow, _, hrow, causewayChangeEnd_leaves _ (AMap.find_del_same _ _) rfl hlt⟩
  · intro k
    have hkey : k / 128 = e.val ∧ k % 128 = p.val := by
      simp only [k]
      omega
    refine ⟨fun ho => ?_, fun hdk hb => ?_, fun win => pathWindow_ends h win, fun g hg => movePath_quiet h hg,
      fun g ho hn => ?_⟩
    · simp only [exec, execRingLockLoss]
      rw [h]
      exact congrArg Host.Outcome.next (if_pos ho)
    · simp only [exec, execLightPresent, if_neg hb]
      rw [h]
      exact congrArg Host.Outcome.next (if_pos hdk)
    · have h8 : k % 8 = p.val % 8 := by omega
      rw [movePath_leaves h ho hn, hkey.1, hkey.2, h8]

/-! ## Swell -/

/-- The Swell instances and the nonvolatile store stand. -/
structure InstsKept (s t : State) : Prop where
  insts : t.swl.insts = s.swl.insts
  nvm : t.nvm = s.nvm

namespace InstsKept

theorem refl (s : State) : InstsKept s s := ⟨rfl, rfl⟩

theorem trans {s t u : State} (h : InstsKept s t) (k : InstsKept t u) : InstsKept s u :=
  ⟨k.insts.trans h.insts, k.nvm.trans h.nvm⟩

theorem of_still {s t : State} (h : Still s t) : InstsKept s t := by
  obtain ⟨-, hnvm, -, -, -, -, hinsts⟩ := h
  exact ⟨hinsts, hnvm⟩

theorem ite {s a b : State} (c : Prop) [Decidable c] (ha : InstsKept s a) (hb : InstsKept s b) :
    InstsKept s (if c then a else b) := by
  split
  · exact ha
  · exact hb

theorem foldl {α : Type} {f : State → α → State} (hf : ∀ s x, InstsKept s (f s x)) (s : State) (xs : List α) :
    InstsKept s (xs.foldl f s) := by
  induction xs generalizing s with
  | nil => exact refl s
  | cons x xs ih => exact (hf s x).trans (ih (f s x))

theorem judgeCals (s : State) : InstsKept s s.judgeCals := by
  unfold State.judgeCals
  extract_lets full done masks u asked
  have hu : InstsKept s u := foldl (f := fun u p => u.endJobs (fun j => decide (j = .swlCalibrate p.1 p.2))
    ⟨stOk, 0, beBytes 2 p.1 ++ [0, 0]⟩) (fun _ _ => ⟨rfl, rfl⟩) s masks
  exact hu.trans ⟨rfl, rfl⟩

theorem accrue (s : State) (i : Nat × SwlInst) : InstsKept s (s.accrue i) := by
  unfold State.accrue
  extract_lets e before old u
  have hu : InstsKept s u := ⟨rfl, rfl⟩
  exact ite _ (refl s) (hu.trans (ite _ ((of_still (finishCal_still u e)).trans (judgeCals _)) (refl u)))

end InstsKept

/-- Settles O39: the commands pass their checks, and what the first of the instances to end hands on leaves the others. -/
theorem swellCompletes : Obligations.SwellCompletes := by
  refine ⟨fun s iss i e mask h hup hne => ?_, fun s iss i e fibre count h h1 hn hf => ?_,
    fun s e w present t x hnone hnext => ?_, fun s ins bursts k x hinsts => ?_, fun s e d hd hauto => ?_,
    fun s h => ?_, fun s m t h => ?_⟩
  · refine exec_pends h rfl ?_
    dsimp only
    rw [guardParams_ok _ _ (by simp [rsvOk]), guardUp_ok _ _ hup, if_neg (by simpa using hne)]
  · refine exec_ends h rfl ?_ (by decide)
    dsimp only
    rw [guardParams_ok _ _ (by simp [h1, hn, hf]; omega)]
    rfl
  · show ∃ u v, execSwellInstanceStart e w present s = .next u ∧ _
    unfold execSwellInstanceStart
    extract_lets en wn
    have hnone' : s.swl.insts.find (en * 8 + wn) = none := hnone
    have hnext' : s.nextSwell en wn = some (t, x) := hnext
    rw [hnone', if_neg (by simp), hnext']
    dsimp -zeta only
    extract_lets v lanes who c members fibres u summed here inst old z
    have hz : z.swl.insts.find (en * 8 + wn) = some inst := AMap.find_put_same _ _ _
    have hv : z.nvm = s.nvm ∧ z.gen = s.gen ∧ z.est = s.est := by
      obtain ⟨w, hw⟩ := advancePtp_only s t
      show v.nvm = s.nvm ∧ v.gen = s.gen ∧ v.est = s.est
      simp only [v, hw, and_self]
    refine ⟨_, inst, rfl, ?_⟩
    split
    · exact ⟨hz, rfl, rfl, hv⟩
    · exact ⟨hz, rfl, rfl, hv⟩
  · show ∃ u, execSwellInstanceEnd ins bursts s = .next u ∧ _
    unfold execSwellInstanceEnd
    rw [hinsts]
    simp -zeta only [List.foldl_cons, List.foldl_nil]
    extract_lets first
    have hfirst : first = some x := rfl
    rw [hfirst]
    dsimp -zeta only
    extract_lets mine insts v old z pass bad u w
    have hz : z.swl.insts = [] := by
      have hv : v.swl.insts = [(k, x)] := (advancePtp_still s _).2.2.2.2.2.2.trans hinsts
      simp only [z, hv, mine]
      simp
    have hnvm : z.nvm = s.nvm := advancePtp_nvm s _
    have hpass (u : State) : InstsKept u (pass u) := .of_still (setDiverts_still _ _ _)
    have hend (t : State) (h : InstsKept z t) : t.swl.insts = [] ∧ t.nvm = s.nvm := ⟨h.insts.trans hz, h.nvm.trans hnvm⟩
    refine ⟨_, rfl, hend _ ?_⟩
    clear_value z pass insts
    split
    · exact (hpass z).trans (.foldl .accrue _ _)
    · have hw : InstsKept z w := ((InstsKept.of_still (noteInputs_still z ins insts)).trans (hpass _)).trans ⟨rfl, rfl⟩
      refine hw.trans ?_
      split
      · exact .refl w
      · split
        · exact .refl w
        · refine .ite _ (.refl w) (.ite _ ?_ (.of_still (yieldClaim_still w _ _ _ _ _ _)))
          exact .foldl (fun u m => .of_still (sendDeskew_still u _ _ _ _ _ _)) w _
  · intro u
    have hregs : u.regs = s.regs := by
      simp only [u]
      split
      · rfl
      · exact advanceTo_regs _ _
    have hoff : ¬ (({ u with swl := { u.swl with cals := u.swl.cals.del e.val } } : State).regBits .swlCal [] 31 31 = 1 ∧
        (!u.swl.auto.contains e.val) = true) := by
      rintro ⟨h1, -⟩
      have : u.regBits .swlCal [] 31 31 = 0 := by rw [← hauto]; simp only [State.regBits, State.reg, hregs]
      exact absurd (this.symm.trans h1) (by decide)
    show execSwlCalibrationExpiry e false s = _
    unfold execSwlCalibrationExpiry
    simp only [hd]
    exact congrArg Host.Outcome.next (if_neg hoff)
  · show execSwlCalibrateTimeout s = _
    unfold execSwlCalibrateTimeout
    rw [h]
  · show execSwlCalibrateTimeout s = _
    unfold execSwlCalibrateTimeout
    rw [h]
    rfl

end Sys2Proof.Machine
end

