-- ==== Sys2Proof/Proofs/Optics.lean ====
section
/-! PROOFS. The optical engines: commands, rings, fibres and their error windows (R444 to R465). -/

namespace Sys2Proof.Machine

/-- Settles O54: each command passes its checks and does its one change. -/
theorem opticsCommandsComplete : Obligations.OpticsCommandsComplete := by
  refine ⟨fun s iss i e engine he hup => ⟨fun h => ?_, fun flags hfl hcal => ⟨fun h => ?_, fun h hby hports => ?_⟩,
    fun dir fibre mask h hd hf hm => ?_⟩, fun s iss i e mask tones h hlen htones hup => ?_⟩
  · refine exec_ends h rfl ?_ (by decide)
    dsimp only
    rw [guardParams_ok _ _ (by simp [rsvOk, he]), guardUp_ok _ _ (by simp [hup])]
    rfl
  · refine exec_pends h rfl ?_
    dsimp only
    rw [guardParams_ok _ _ (by simp [rsvOk, he, hfl]), guardUp_ok _ _ (by simp [hup]), if_neg fun hx => absurd hx.1 (by decide),
      if_neg fun hx => absurd hx.1 (by decide), if_neg (by simp [hcal])]
    rfl
  · refine exec_pends h rfl ?_
    have htwo : (2 : Byte).toNat = 2 := rfl
    dsimp only
    rw [guardParams_ok _ _ (by simp [rsvOk, he, hfl]), guardUp_ok _ _ (by simp [hup]),
      if_neg (fun hx => by rw [hports hx.2.1] at hx; exact absurd hx.2.2 (by decide)),
      if_neg (fun hx => by rw [hby] at hx; exact absurd hx.2 (by decide)), if_neg (by simp [hcal]), if_pos rfl, htwo]
  · intro rs hby
    refine exec_pends h rfl ?_
    dsimp only
    rw [guardParams_ok _ _ (by simpa [he, hd, hf] using hm), guardUp_ok _ _ (by simp [hup]),
      if_neg (Bool.eq_false_iff.mp hby)]
  · refine exec_ends h rfl ?_ (by decide)
    have hperm : (decide (tones.length = 8) && (List.range 8).all fun t => tones.any fun x => decide (x.toNat = t)) = true := by
      simpa [hlen] using htones
    dsimp only
    rw [hperm, guardParams_ok _ _ (by simp [rsvOk]), guardUp_ok _ _ hup]
    rfl

theorem Still.nvm_gen {s t : State} (h : Still s t) : t.nvm = s.nvm ∧ t.gen = s.gen := by
  obtain ⟨_, hnvm, hgen, -⟩ := h
  exact ⟨hnvm, hgen⟩

/-! ## The rows of a data ring (R444 to R452) -/

/-- What a locked or verified ring does at the end of a pilot window. -/
theorem ringWindow_ends {s : State} (e : Engine) (r : RingIx) (win : PilotWindow) (hsus : s.suspended e r = false) :
    let x := s.ring e r
    let u := s.advanceTo x.window.1
    let next := u.windowFrom e (r.val % 8)
    let found (y : RingSt) : RingSt := { y with found := dominant win, window := next }
    let right := confirms win x.window.2
    let ends (v : State) : Prop := exec (.pilotWindowEnd (.ring e r) win) s = .next v
    (x.st = .locked → right = true →
      ends ((u.moveRing e r fun y => { found y with st := .verified, sweep := false, fails := 0 }).seekBus e r)) ∧
    (x.st = .locked → right = false → clearWin win = true → x.sweep = true →
      let at_ := u.now
      let dark := !u.canSeek e r
      ends (u.moveRing e r fun y => { found y with st := .seeking, at_ := at_, paused := dark })) ∧
    (x.st = .locked → right = false → clearWin win = true → x.sweep = false →
      ends ((u.setRing e r found).wrongRing e r (dominant win))) ∧
    (x.st = .locked → clearWin win = false → ends (u.setRing e r found)) ∧
    (x.st = .verified → right = true → ends (u.setRing e r fun y => { found y with fails := 0 })) ∧
    (x.st = .verified → right = false → x.fails = 0 → ends (u.setRing e r fun y => { found y with fails := 1 })) ∧
    (x.st = .verified → right = false → x.fails ≠ 0 →
      ends (u.moveRing e r fun y => { found y with st := .locked, sweep := false, fails := 0 })) := by
  intro x u next found right ends
  have hrow (hst : x.st = .locked ∨ x.st = .verified) : ends (u.judgeRing e r win x) := by
    have hgo : ¬ (s.suspended e r = true ∨ (x.st ≠ .locked ∧ x.st ≠ .verified)) := by
      rintro (h | ⟨h1, h2⟩)
      · exact absurd (hsus.symm.trans h) (by decide)
      · exact hst.elim h1 h2
    exact congrArg Host.Outcome.next (if_neg hgo)
  have hclear (hc : clearWin win = false) : confirms win x.window.2 = false := by simp [confirms, hc]
  refine ⟨fun ho hr => (hrow (.inl ho)).trans ?_, fun ho hr hc hs => (hrow (.inl ho)).trans ?_,
    fun ho hr hc hs => (hrow (.inl ho)).trans ?_, fun ho hc => (hrow (.inl ho)).trans ?_,
    fun ho hr => (hrow (.inr ho)).trans ?_, fun ho hr hf => (hrow (.inr ho)).trans ?_,
    fun ho hr hf => (hrow (.inr ho)).trans ?_⟩
  all_goals simp only [State.judgeRing, ho]
  · rw [if_pos hr]
  · rw [if_neg (Bool.eq_false_iff.mp hr), if_pos hc, if_pos hs]
  · rw [if_neg (Bool.eq_false_iff.mp hr), if_pos hc, if_neg (Bool.eq_false_iff.mp hs)]
  · rw [if_neg (Bool.eq_false_iff.mp (hclear hc)), if_neg (Bool.eq_false_iff.mp hc)]
  · rw [if_pos hr]
  · rw [if_neg (Bool.eq_false_iff.mp hr), if_pos hf]
  · rw [if_neg (Bool.eq_false_iff.mp hr), if_neg hf]

/-- A capture that reads a code near the lost ring's own takes it; any other leaves the ring uncaught. -/
theorem relockStart_lost {s : State} {e : Engine} {r : RingIx} (hst : (s.ring e r).st = .lost)
    (hsus : s.suspended e r = false) (hsteep : (s.oe e).steep = false) (got : Option (BitVec 12)) :
    exec (.relockStart e r got) s = .next
      (let got := got.filter fun c => decide (((c.toNat : Int) - (s.ring e r).heater).natAbs ≤ 204)
       let due := if (s.ring e r).at_ = 0 then s.now + 500000 else (s.ring e r).at_
       s.setRing e r fun y => { y with heater := (got.map (·.toNat)).getD y.heater, caught := got.isSome, at_ := due }) :=
  congrArg Host.Outcome.next (if_pos (by simp [hst, hsus, hsteep]))

/-! ## The feedforward (R449) -/

/-- Rings and heaters that move leave the temperatures read. -/
theorem foldl_temps {α : Type} {f : State → α → State} (e : Nat) (hf : ∀ s a, ((f s a).oe e).temps = (s.oe e).temps)
    (s : State) (as : List α) : ((as.foldl f s).oe e).temps = (s.oe e).temps := by
  induction as generalizing s with
  | nil => rfl
  | cons a as ih => exact (ih _).trans (hf s a)

theorem setRing_oe (s : State) (e r k : Nat) (g : RingSt → RingSt) : (s.setRing e r g).oe k = s.oe k := rfl

theorem raiseEv_oe (s : State) (c v o : Nat) (d : List Byte) (k : Nat) : (s.raiseEv c v o d).oe k = s.oe k := by
  simp only [State.oe, raiseEv_opt]

theorem feed_temps (s : State) (e : Nat) (a b : List Int) : ((s.feed e a b).oe e).temps = (s.oe e).temps := by
  unfold State.feed
  dsimp only
  generalize List.range 256 = rs
  refine (congrArg EngineSt.temps (setOe_oe _ e _)).trans (foldl_temps e (fun s r => ?_) s rs)
  split <;> rfl

theorem feedforward_temps (s : State) (e : Nat) : ((s.feedforward e).oe e).temps = (s.oe e).temps := by
  unfold State.feedforward
  dsimp only
  repeat' split
  · simp
  · rw [setOe_oe]
    dsimp only
    exact feed_temps s e _ _
  · simp

/-- A sample of four temperatures is read, and events tell the sensors that are newly hot. -/
theorem feedforwardSample_up {s : State} {e : Engine} {temps : List (BitVec 16)} {loop : List (RingIx × BitVec 12)}
    (hb : s.boot.phase = .done) (hup : s.fnDown (fidOe e) = false) (hlen : temps.length = 4) :
    exec (.feedforwardSample e temps loop) s = .next
      (let u := s.every .feedforward e 10000
       let old := (s.oe e).temps
       let new := temps.map (·.toNat)
       let fresh := (List.range 4).filter fun i => hotSensor (new.getD i 0) && !hotSensor (old.getD i 0)
       let steep := (s.oe e).applied.isSome && (List.range 4).any fun i => decide (new.getD i 0 ≠ old.getD i 0)
       let v := u.setOe e fun x => { x with temps := new, steep := steep }
       let w := fresh.foldl (fun s i => s.raiseEv 0x8004 3 (fidOe e) (beBytes 1 i ++ beBytes 2 (new.getD i 0))) v
       loop.foldl (init := w.feedforward e) fun s a =>
         if ((s.ring e a.1).st = .locked ∨ (s.ring e a.1).st = .verified) ∧ !s.suspended e a.1 then
           s.setRing e a.1 fun x => { x with heater := a.2.toNat }
         else s) := by
  have hopt : (s.every .feedforward e 10000).oe e = s.oe e := by
    simp only [State.oe, every_opt]
  obtain ⟨a, b, c, d, rfl⟩ : ∃ a b c d, temps = [a, b, c, d] := by
    match temps, hlen with
    | [a, b, c, d], _ => exact ⟨a, b, c, d, rfl⟩
  refine congrArg Host.Outcome.next ((if_neg (by simp [hb, hup])).trans ?_)
  dsimp only
  rw [hopt]
  rfl

/-- Settles O55: the rows by their guards, and a sample by `feedforwardSample_up`. -/
theorem ringRowsComplete : Obligations.RingRowsComplete := by
  refine ⟨fun s e r code hst hc => ⟨fun hh => ?_, fun hh => ?_, ?_, ?_⟩, fun s e r hst hr hsus => ?_, fun s e r hst hsus => ?_,
    fun s e r hst hsus => ?_, fun s e r hst hsus => ⟨fun hsteep => ⟨?_, fun code => ?_⟩, fun hcg => ?_, fun hcg hat => ?_⟩,
    fun s e r win hsus => ringWindow_ends e r win hsus, fun s e a b c d hb hup hcold => ?_, fun s e temps loop hlen hb hup => ?_⟩
  · exact congrArg Host.Outcome.next (if_pos ⟨hst, hc, hh⟩)
  · exact congrArg Host.Outcome.next (if_neg fun h => absurd h.2.2 (by omega))
  · exact congrArg Host.Outcome.next ((if_neg (by simp [hst])).trans (if_pos ⟨hst, hc⟩))
  · exact congrArg Host.Outcome.next (if_pos ⟨hst, hc⟩)
  · exact congrArg Host.Outcome.next (if_pos (by simp [hst, hr, hsus]))
  · exact congrArg Host.Outcome.next (if_pos (by simp [hst, hsus]))
  · exact congrArg Host.Outcome.next (if_pos ⟨hst, by simp [hsus]⟩)
  · exact relockStart_lost hst hsus hsteep none
  · refine (relockStart_lost hst hsus hsteep (some code)).trans (congrArg Host.Outcome.next ?_)
    by_cases hn : ((code.toNat : Int) - (s.ring e r).heater).natAbs ≤ 204
    · simp only [Option.filter_some, hn, decide_true, if_true]
      rfl
    · simp only [Option.filter_some, hn, decide_false, if_false]
      rfl
  · exact congrArg Host.Outcome.next (if_pos (by simp [hst, hcg, hsus]))
  · exact congrArg Host.Outcome.next (if_pos (by simp [hst, hcg, hat, hsus]))
  · intro new old steep
    have hfresh : ((List.range 4).filter fun i => hotSensor (new.getD i 0) && !hotSensor ((s.oe e).temps.getD i 0)) = [] := by
      simp only [List.forall_mem_cons] at hcold
      obtain ⟨ha, hb, hc, hd, -⟩ := hcold
      simp [List.range_succ, new, ha, hb, hc, hd]
    refine (feedforwardSample_up hb hup rfl).trans (congrArg Host.Outcome.next ?_)
    dsimp only
    rw [List.map_cons, List.map_cons, List.map_cons, List.map_cons, List.map_nil, hfresh]
    rfl
  · refine ⟨_, feedforwardSample_up hb hup hlen, ?_, ?_⟩
    · refine (foldl_temps e (fun s a => by split <;> simp [setRing_oe]) _ _).trans ((feedforward_temps _ e).trans ?_)
      refine (foldl_temps e (fun s i => by rw [raiseEv_oe]) _ _).trans ?_
      rw [setOe_oe]
    · refine Still.nvm_gen ((((every_still s .feedforward e 10000).trans (setOe_still _ e _)).trans
        (foldl_still (fun u i => raiseEv_still u _ _ _ _) _ _)).trans ((feedforward_still _ e).trans
          (foldl_still (fun u a => ?_) _ loop)))
      split <;> simp [Still]

theorem quarantine_portWrites (s : State) (p : Nat) : PortWrites s (s.quarantine p) := by
  unfold State.quarantine
  have h := PortWrites.flushEgress s p fun c => decide (c ≠ clsCtrl)
  dsimp only
  generalize s.flushEgress p _ = r at h ⊢
  have hdc (u : State) : PortWrites u ([1, 2, 3, 4, 5, 6].foldl (fun s c => s.settleDc p c) u) :=
    .foldl (fun s c => (LinkWrites.settleDc s p c).portWrites) u _
  have hout := (h.trans (.bumpBy r.1 .tilePortQuarDrops [tileOf p, slotOf p] r.2)).trans (hdc _)
  refine PortWrites.trans (.trans ?_ (LinkWrites.missLaunches _ p).portWrites) (.setPort _ p _)
  exact ⟨hout.csw, hout.eyes⟩

theorem settlePort_portWrites (s : State) (p : Nat) : PortWrites s (s.settlePort p) := by
  unfold State.settlePort
  dsimp only
  refine .ite (.refl s) ?_
  split
  · exact .ite (.dropPort s p _ _) (.setPort s p _)
  · refine .ite (.ite (quarantine_portWrites s p) (.ite (.setPort s p _) (.ite (.refl s) (.setPort s p _)))) ?_
    exact .ite (.refl s) (.ite (.setPort s p _) ((PortWrites.dropPort s p _ _).trans (.raiseEv _ _ _ _ _)))

theorem settleLight_portWrites (s : State) (f : Nat) : PortWrites s (s.settleLight f) :=
  .foldl (fun s p => .ite (.refl s) (settlePort_portWrites s p)) s _

/-- The eyes of the fibres are as they were. -/
def EyesKept (s t : State) : Prop := t.opt.eyes = s.opt.eyes

namespace EyesKept

theorem refl (s : State) : EyesKept s s := rfl

theorem trans {s t u : State} (h : EyesKept s t) (h' : EyesKept t u) : EyesKept s u := Eq.trans h' h

theorem eye {s t : State} (h : EyesKept s t) (f : Nat) : t.eye f = s.eye f := by
  rw [State.eye, h]
  rfl

theorem bump (s : State) (r : Reg) (ix : List Nat) : EyesKept s (s.bump r ix) := rfl

theorem setOe (s : State) (e : Nat) (g : EngineSt → EngineSt) : EyesKept s (s.setOe e g) := rfl

theorem setRing (s : State) (e r : Nat) (g : RingSt → RingSt) : EyesKept s (s.setRing e r g) := rfl

theorem setLane (s : State) (l : Nat) (g : LaneSt → LaneSt) : EyesKept s (s.setLane l g) := rfl

theorem raiseEv (s : State) (c v o : Nat) (d : List Byte) : EyesKept s (s.raiseEv c v o d) :=
  congrArg Opt.eyes (raiseEv_opt s c v o d)

theorem foldl {α : Type} {f : State → α → State} (hf : ∀ s a, EyesKept s (f s a)) (s : State) (as : List α) :
    EyesKept s (as.foldl f s) := by
  induction as generalizing s with
  | nil => exact .refl s
  | cons a as ih => exact (hf s a).trans (ih _)

theorem ite {s a b : State} {c : Prop} [Decidable c] (ha : EyesKept s a) (hb : EyesKept s b) :
    EyesKept s (if c then a else b) := by
  split
  · exact ha
  · exact hb

theorem followLane (s : State) (l : Nat) (d : Dir) : EyesKept s (s.followLane l d) :=
  (LinkWrites.followLane s l d).portWrites.eyes

theorem moveRing (s : State) (e r : Nat) (g : RingSt → RingSt) : EyesKept s (s.moveRing e r g) := by
  unfold State.moveRing
  refine EyesKept.trans ?_ (followLane _ _ _)
  exact ite rfl rfl

theorem nextSeek (s : State) (e b : Nat) : EyesKept s (s.nextSeek e b) := by
  unfold State.nextSeek
  refine ite (refl s) ?_
  split
  · exact refl s
  · exact (bump s _ _).trans (moveRing _ e _ _)

theorem settleEngine (s : State) (e t : Nat) : EyesKept s (s.settleEngine e t) :=
  ite (refl s) (ite (refl s) ((PortWrites.foldl PortWrites.divertLane _ _).eyes.trans rfl))

theorem judgeReady (s : State) (e : Nat) : EyesKept s (s.judgeReady e) :=
  ite (refl s) ((setOe s e _).trans (settleEngine _ e _))

theorem seekOn (s : State) (e : Nat) (bs : List Nat) : EyesKept s (s.seekOn e bs) :=
  (foldl (fun s b => nextSeek s e b) s bs).trans (judgeReady _ e)

theorem resumeSweeps (s : State) (f : Nat) : EyesKept s (s.resumeSweeps f) :=
  foldl (f := State.resumeSweep) (fun s _ => ite (setRing s _ _ _) (refl s)) s _

theorem pauseSweeps (s : State) (f : Nat) : EyesKept s (s.pauseSweeps f) :=
  foldl (f := State.pauseSweep) (fun s _ => setRing s _ _ _) s _

theorem settleLight (s : State) (f : Nat) : EyesKept s (s.settleLight f) := (settleLight_portWrites s f).eyes

theorem movePath (s : State) (k : Nat) (g : CswPath → CswPath) : EyesKept s (s.movePath k g) := by
  cases h : s.csw.paths.find k with
  | none =>
    simp only [State.movePath, h]
    exact refl s
  | some x =>
    simp only [State.movePath, h, State.pathEvent, AMap.find_put_same]
    exact ite (raiseEv _ _ _ _ _) (refl s)

theorem dimLane (s : State) (l : Nat) : EyesKept s (s.dimLane l) := by
  have hdark : EyesKept s (s.darken l) := foldl (fun u k => (bump u _ _).trans (movePath _ k _)) s _
  refine hdark.trans ?_
  unfold State.dimLane State.dimInput
  dsimp only
  split
  · exact refl _
  · exact ite (refl _) rfl

end EyesKept

/-- The machine that a move leaves. -/
theorem moveEye_eye (s : State) (f : Nat) (g : EyeSt → EyeSt) :
    (s.moveEye f g).eye f = { g (s.eye f) with drive := s.driveFor f (g (s.eye f)).st } := by
  rw [State.eye, (moveEye_writes s f g).1]
  exact setEye_eye s f fun y => { g y with drive := s.driveFor f (g y).st }

/-- What a loss of light does to the fibre's machine, between steps that leave every machine. -/
theorem loseLight_steps (s : State) (f : Fibre) (b : Bool) : ∃ u due,
    EyesKept (s.setEye f fun y => { y with light := (s.eye f).light && b, refl := b }) u ∧
    EyesKept (match (s.eye f).st with
      | .opened => ((u.bump .oeEyeClosures [f.val / 16]).moveEye f fun y => { y with st := .closed, probeAt := due }).raiseEv
          0x8003 1 (fidOe (f.val / 16)) (beBytes 1 f.val ++ beBytes 1 (b2n b))
      | .probing => if (s.eye f).light && b then u else u.moveEye f fun y => { y with st := .closed, probeAt := due }
      | _ => u) (s.loseLight f b) := by
  refine ⟨_, _, ?_, .ite (.refl _) (((EyesKept.settleLight _ f).trans (.foldl .dimLane _ _)).trans (.judgeReady _ _))⟩
  refine EyesKept.trans ?_ (.ite (.refl _) (.pauseSweeps _ f))
  exact .ite (.refl _) (.foldl (fun s l => (EyesKept.setLane s l _).trans (.followLane _ l .rx)) _ _)

/-- Closing a fibre's machine keeps what its detector saw. -/
theorem closes_eye (u : State) (f due : Nat) :
    let t := u.moveEye f fun y => { y with st := .closed, probeAt := due }
    (t.eye f).refl = (u.eye f).refl ∧ (t.eye f).light = (u.eye f).light ∧ (t.eye f).st = .closed ∧
      ∀ g, g ≠ f → t.eye g = u.eye g := by
  intro t
  have h := moveEye_eye u f fun y => { y with st := .closed, probeAt := due }
  refine ⟨?_, ?_, ?_, fun g hg => moveEye_eye_ne u _ hg⟩ <;> rw [h]

/-- The fibre's machine after a loss of light: what the detector saw, and closed where it was OPEN or lost its light. -/
theorem loseLight_eye (s : State) (f : Fibre) (b : Bool) :
    let t := s.loseLight f b
    let light := (s.eye f).light && b
    (t.eye f).refl = b ∧ (t.eye f).light = light ∧
      (t.eye f).st = (match (s.eye f).st with
        | .opened => .closed
        | .probing => if light then .probing else .closed
        | st => st) ∧
      ∀ g, g ≠ f.val → t.eye g = s.eye g := by
  obtain ⟨u, due, hu, ht⟩ := loseLight_steps s f b
  intro t light
  have hf : u.eye f = { s.eye f with light := light, refl := b } := (hu.eye f).trans (setEye_eye s f _)
  have hne (g : Nat) (h : g ≠ f.val) : u.eye g = s.eye g := (hu.eye g).trans (setEye_eye_ne s _ h)
  have hclosed (v : State) (hv : EyesKept u v) (h : EyesKept (v.moveEye f fun y => { y with st := .closed, probeAt := due }) t) :
      (t.eye f).refl = b ∧ (t.eye f).light = light ∧ (t.eye f).st = .closed ∧ ∀ g, g ≠ f.val → t.eye g = s.eye g := by
    obtain ⟨hr, hl, hs, hg⟩ := closes_eye v f due
    rw [h.eye f, hr, hl, hs, hv.eye f, hf]
    exact ⟨rfl, rfl, rfl, fun g hgf => (h.eye g).trans ((hg g hgf).trans ((hv.eye g).trans (hne g hgf)))⟩
  have hstays (h : EyesKept u t) :
      (t.eye f).refl = b ∧ (t.eye f).light = light ∧ (t.eye f).st = (s.eye f).st ∧ ∀ g, g ≠ f.val → t.eye g = s.eye g := by
    rw [h.eye f, hf]
    exact ⟨rfl, rfl, rfl, fun g hgf => (h.eye g).trans (hne g hgf)⟩
  cases hst : (s.eye f).st <;> rw [hst] at ht hstays
  case opened => exact hclosed _ (.bump u _ _) ((EyesKept.raiseEv _ _ _ _ _).trans ht)
  case closed => exact hstays ht
  case held => exact hstays ht
  case probing =>
    replace ht : EyesKept (if light then u else u.moveEye f fun y => { y with st := .closed, probeAt := due }) t := ht
    dsimp only
    by_cases hl : light = true
    · rw [if_pos hl] at ht ⊢
      exact hstays ht
    · rw [if_neg hl] at ht ⊢
      exact hclosed u (.refl u) ht

/-- Light that comes on a fibre: seen, remembered with its time, and a machine that is closed probes. -/
theorem lightPresent_eye (s : State) (f : Fibre) (hb : s.boot.phase ≠ .reset) :
    ∃ t, exec (.lightPresent (.fibre f)) s = .next t ∧
      (t.eye f.val).st = (if (s.eye f.val).st = .closed then .probing else (s.eye f.val).st) ∧
      (t.eye f.val).light = true ∧ (t.eye f.val).lightAt = s.now ∧ (∀ g, g ≠ f.val → t.eye g = s.eye g) ∧ t.nvm = s.nvm := by
  let u := s.setEye f fun y => { y with light := true, refl := false, lightAt := s.now }
  have hf : u.eye f = { s.eye f with light := true, refl := false, lightAt := s.now } := setEye_eye s f _
  have hne (g : Nat) (h : g ≠ f.val) : u.eye g = s.eye g := setEye_eye_ne s _ h
  have hafter (v : State) : EyesKept v (((v.settleLight f).resumeSweeps f).seekOn (f.val / 16) [16 + f.val % 16]) :=
    ((EyesKept.settleLight v f).trans (.resumeSweeps _ f)).trans (.seekOn _ _ _)
  have hrow : exec (.lightPresent (.fibre f)) s = .next
      ((((if (u.eye f).st = .closed then u.moveEye f fun y => { y with st := .probing } else u).settleLight f).resumeSweeps
        f).seekOn (f.val / 16) [16 + f.val % 16]) := congrArg Host.Outcome.next (if_neg hb)
  refine ⟨_, hrow, ?_⟩
  have hnvm : ((((if (u.eye f).st = .closed then u.moveEye f fun y => { y with st := .probing } else u).settleLight
      f).resumeSweeps f).seekOn (f.val / 16) [16 + f.val % 16]).nvm = s.nvm := by
    split <;> simp [u]
  have hst : (u.eye f).st = (s.eye f).st := by rw [hf]
  rw [(hafter _).eye f, hst]
  by_cases hc : (s.eye f).st = .closed
  · rw [if_pos (hst.trans hc)] at hnvm
    rw [if_pos hc, if_pos hc, moveEye_eye, hf]
    exact ⟨rfl, rfl, rfl, fun g hg => ((hafter _).eye g).trans ((moveEye_eye_ne u _ hg).trans (hne g hg)), hnvm⟩
  · rw [if_neg (hst ▸ hc)] at hnvm
    rw [if_neg hc, if_neg hc, hf]
    exact ⟨rfl, rfl, rfl, fun g hg => ((hafter _).eye g).trans (hne g hg), hnvm⟩

/-! ## Error windows -/

/-- The configuration of the error windows lies outside the lanes' counters. -/
theorem oeErrConfig_ne_laneCounter {r : Reg} (hr : r = .tileLaneFecCorr ∨ r = .tileLaneFecUncorr) {e t l : Nat}
    (hl : l < 32) : regAddr .oeErrConfig [e] ≠ regAddr r [t, l] := by
  obtain rfl | rfl := hr <;> simp only [regAddr, Reg.row, List.zip_cons_cons, List.zip_nil_right, List.map_cons, List.map_nil,
    List.sum_cons, List.sum_nil] <;> omega

/-- What the counting of a window's codewords leaves: the ring, its lane, its fibre's machine and the limits. -/
structure WindowCounted (s t : State) (l : Nat) : Prop where
  opt : t.opt = s.opt
  lanes : t.lanes = s.lanes
  config : t.reg .oeErrConfig [engineOf l] = s.reg .oeErrConfig [engineOf l]

theorem windowCounted (s : State) (l n uncorr corrected : Nat) : WindowCounted s
    (((s.every .errorWindow l n).bumpBy .tileLaneFecCorr [tileOf l, slotOf l] corrected).bumpBy .tileLaneFecUncorr
      [tileOf l, slotOf l] uncorr) l := by
  have hslot : slotOf l < 32 := Nat.mod_lt _ (by decide)
  refine ⟨by simp, by simp, ?_⟩
  unfold State.bumpBy
  rw [setReg_reg_ne _ _ (oeErrConfig_ne_laneCounter (.inr rfl) hslot),
    setReg_reg_ne _ _ (oeErrConfig_ne_laneCounter (.inl rfl) hslot)]
  simp only [State.reg, every_regs]

section
variable {s t : State} {l : Nat} (h : WindowCounted s t l) (uncorr corrected : Nat)
include h

theorem WindowCounted.ring : t.ring (engineOf l) (ringOf l .rx) = s.ring (engineOf l) (ringOf l .rx) := by
  simp only [State.ring, h.opt]

theorem WindowCounted.crosses : t.crosses (engineOf l) uncorr corrected = decide (s.regBits .oeErrConfig [engineOf l] 15 8 ≤ uncorr ∨
    s.regBits .oeErrConfig [engineOf l] 23 16 * codewordsIn (s.regBits .oeErrConfig [engineOf l] 7 0) < 16 * corrected) := by
  simp only [State.crosses, State.regBits, h.config]
  exact (Bool.decide_or _ _).symm

/-- A window of a ring that is not verified, lapsed or serves the causeway starts over. -/
theorem judgeWindow_idle (hi : (s.ring (engineOf l) (ringOf l .rx)).st ≠ .verified ∨
    (s.ring (engineOf l) (ringOf l .rx)).lapsed = true ∨ (s.lane l).diverted = true) :
    t.judgeWindow l uncorr corrected = t.setRing (engineOf l) (ringOf l .rx) fun y =>
      { y with clean := 0, overBudget := y.overBudget && t.crosses (engineOf l) uncorr corrected } := by
  refine if_pos ?_
  rw [h.ring, State.lane, h.lanes]
  exact hi

variable (hv : (s.ring (engineOf l) (ringOf l .rx)).st = .verified) (hlp : (s.ring (engineOf l) (ringOf l .rx)).lapsed = false)
  (hd : (s.lane l).diverted = false)
include hv hlp hd

/-- A window of a verified ring is judged by whether errors have dropped it, and else by its fibre and its errors. -/
theorem judgeWindow_live : t.judgeWindow l uncorr corrected =
    let e := engineOf l
    let r := ringOf l .rx
    let data := beBytes 2 l ++ beBytes 4 (min uncorr (2 ^ 32 - 1)) ++ beBytes 4 (min corrected (2 ^ 32 - 1))
    if (s.ring e r).errDrop then
      let n := if t.cleanWindow e uncorr corrected then (s.ring e r).clean + 1 else 0
      if 10 ≤ n then t.moveRing e r fun y => { y with errDrop := false, clean := 0 } else t.setRing e r fun y => { y with clean := n }
    else if (s.eye (fibreOf l)).st ≠ .opened then t
    else if t.crosses e uncorr corrected then
      match t.askUnit with
      | (true, v) =>
        ((v.bump .oeErrDrops [e]).moveRing e r fun y => { y with errDrop := true, overBudget := false, clean := 0 }).raiseEv
          0x8005 1 (fidOe e) data
      | (false, v) =>
        ((v.bump .oeOverBudget [e]).setRing e r fun y => { y with overBudget := true }).raiseEv 0x8006 1 (fidOe e) data
    else t.setRing e r fun y => { y with overBudget := false } := by
  have hgo : ¬ ((t.ring (engineOf l) (ringOf l .rx)).st ≠ .verified ∨ (t.ring (engineOf l) (ringOf l .rx)).lapsed = true ∨
      (t.lane l).diverted = true) := by
    rw [h.ring, State.lane, h.lanes]
    rintro (hx | hx | hx)
    · exact hx hv
    · exact absurd (hlp.symm.trans hx) (by decide)
    · exact absurd (hd.symm.trans hx) (by decide)
  refine (if_neg hgo).trans ?_
  rw [h.ring, State.eye, h.opt]
  rfl

end

/-- Settles O56: machines by `loseLight_eye` and `lightPresent_eye`, windows by `judgeWindow_live`, the other rows by their
guards. -/
theorem fibreRowsComplete : Obligations.FibreRowsComplete := by
  refine ⟨fun s f b hb => ?_, fun _ _ => rfl, fun s l n x hp hl ho => ?_, fun s f hc => congrArg Host.Outcome.next (if_pos hc),
    fun s f hb => ?_, fun s f hp hl => congrArg Host.Outcome.next (if_pos ⟨hp, hl⟩), fun s e b => ⟨rfl, fun hwas hb hup => ?_⟩,
    fun _ _ => rfl, fun s l uncorr corrected => ?_⟩
  · obtain ⟨hr, hl, hst, hne⟩ := loseLight_eye s f b
    refine ⟨_, congrArg Host.Outcome.next (if_neg hb), hr, hl, fun h => ?_, fun h => ?_, fun h => ?_, hne, ?_⟩
    · simpa only [h] using hst
    · simpa only [h] using hst
    · simpa only [h] using hst
    · exact (loseLight_coreStill s f b).2.1
  · have hfilter : s.csw.paths.filter (fun p => decide (p.1 / 128 * 128 + 8 * p.2.src + p.1 % 8 = l ∧ p.2.st = .opened)) =
        [(n, x)] := by simp [hp, hl, ho]
    unfold State.darken
    rw [hfilter]
    rfl
  · exact lightPresent_eye s f hb
  · exact congrArg Host.Outcome.next ((if_neg (by simp [hwas, hb])).trans (if_neg (by simp [hup])))
  · intro r e ix u t crosses ends
    have hc : WindowCounted s t l := windowCounted s l _ uncorr corrected
    have hcross : t.crosses e uncorr corrected = crosses := hc.crosses uncorr corrected
    have hends {v : State} (h : t.judgeWindow l uncorr corrected = v) : ends v := by
      rw [← h]
      rfl
    refine ⟨fun hi => hends ?_, fun hv hlp hd => ⟨fun he n hn => hends ?_, fun he ho => ⟨fun hx => hends ?_, fun hx v => ?_⟩⟩⟩
    · rw [judgeWindow_idle hc uncorr corrected hi, hcross]
    · rw [judgeWindow_live hc uncorr corrected hv hlp hd, if_pos he, hn]
    · rw [judgeWindow_live hc uncorr corrected hv hlp hd]
      dsimp only
      rw [if_neg (Bool.eq_false_iff.mp he), if_neg (by simp [ho]), hcross, if_neg (Bool.eq_false_iff.mp hx)]
    · intro data
      have hlive := judgeWindow_live hc uncorr corrected hv hlp hd
      dsimp only at hlive
      rw [if_neg (Bool.eq_false_iff.mp he), if_neg (by simp [ho]), hcross, if_pos hx] at hlive
      exact ⟨fun ha => hends (by rw [hlive, ha]), fun ha => hends (by rw [hlive, ha])⟩

end Sys2Proof.Machine
end

