-- ==== Sys2Proof/Proofs/Units.lean ====
section
/-! PROOFS. Memory, tests, function resets, the Shoreline links and power (R208 to R222, R508 to R551). -/

namespace Sys2Proof.Machine

/-! ## The error log of a bridge -/

/-- Bytes asked for over a bridge's link leave every bridge's error log. -/
theorem sendBytes_errors (s : State) (b : Nat) (up : Bool) (i n k : Nat) :
    ((s.sendBytes b up i n).brg k).errors = (s.brg k).errors := by
  unfold State.sendBytes State.askLink
  by_cases h : k = b
  · subst h
    dsimp only
    rw [setBrg_brg]
    cases up <;> rfl
  · dsimp only
    rw [setBrg_brg_ne s _ h]

theorem writeLog_errors (s : State) (m : Merged) (flags k : Nat) : ((s.writeLog m flags).brg k).errors = (s.brg k).errors := by
  unfold State.writeLog
  dsimp only
  split
  · exact sendBytes_errors _ _ _ _ _ _
  · split
    · exact sendBytes_errors _ _ _ _ _ _
    · rfl

/-- An event that is raised leaves every bridge's error log. -/
theorem raiseEv_errors (s : State) (c v o : Nat) (d : List Byte) (k : Nat) :
    ((s.raiseEv c v o d).brg k).errors = (s.brg k).errors := by
  obtain ⟨u, hu⟩ := offerLow_only (s.bump (sevCounter v) []) v d
  unfold State.raiseEv
  rw [hu]
  dsimp only [State.number]
  repeat' split
  · rfl
  · rfl
  · exact writeLog_errors _ _ _ _
  · unfold State.writeLow
    split
    · exact writeLog_errors _ _ _ _
    · rfl
  · rfl
  · rfl

/-- An error of one symbol is corrected, and stands at the head of its bridge's log. -/
theorem noteBlock_corrected (s : State) (kind stack part : Nat) (pch bank : Byte) (row : BitVec 24) :
    ((s.noteBlock kind stack part pch bank row 1).brg (stack / 8)).errors.head? =
      some ⟨s.now, stack, pch.toNat, bank.toNat, kind, row.toNat, part⟩ := by
  have hb := setBrg_brg s (stack / 8) fun x =>
    { x with errors := (⟨s.now, stack, pch.toNat, bank.toNat, kind, row.toNat, part⟩ :: x.errors).take 1024 }
  exact congrArg (fun x : BridgeSt => x.errors.head?) hb

/-- What a scrub does with a finding in its bridge's memory. -/
def State.scrubFound (s : State) (b : Nat) (f : ScrubFinding) : State :=
  let part := s.partNow f.part.toNat f.addr
  let stack := addrStack f.addr
  if f.symbols.val = 0 ∨ addrBridge f.addr ≠ b then s
  else
    let s := s.noteBlock 3 stack part f.pch f.bank f.row f.symbols.val
    if symbolsLost f.symbols.val then (s.badBlock part f.addr).settle
    else
      let row := ((stack * 256 + f.pch.toNat) * 256 + f.bank.toNat) * 2 ^ 24 + f.row.toNat
      let n := (s.brg b).rows.getD row 0 + 1
      let s := s.setBrg b fun x => { x with rows := x.rows.put row n }
      if n = s.regBits .brgScrub [b] 15 8 then
        s.raiseEv 0x9002 1 (fidBrg b)
          (beBytes 1 stack ++ beBytes 1 f.pch.toNat ++ beBytes 1 f.bank.toNat ++ beBytes 3 f.row.toNat)
      else s

theorem scrubFound_still (s : State) (b : Nat) (f : ScrubFinding) : Still s (s.scrubFound b f) := by
  unfold State.scrubFound
  dsimp only
  repeat' split
  all_goals simp [Still]

/-- A single symbol found in the bridge's own memory stands at the head of its error log. -/
theorem scrubFound_corrected (s : State) {b : Nat} {f : ScrubFinding} (h1 : f.symbols.val = 1) (hb : addrBridge f.addr = b) :
    ((s.scrubFound b f).brg b).errors.head? =
      some ⟨s.now, addrStack f.addr, f.pch.toNat, f.bank.toNat, 3, f.row.toNat, s.partNow f.part.toNat f.addr⟩ := by
  have hstack : addrStack f.addr / 8 = b := by
    unfold addrStack
    omega
  have hnote := noteBlock_corrected s 3 (addrStack f.addr) (s.partNow f.part.toNat f.addr) f.pch f.bank f.row
  rw [hstack] at hnote
  unfold State.scrubFound
  dsimp only
  rw [h1, if_neg (by simp [hb]), if_neg (by decide)]
  split
  · rw [raiseEv_errors, setBrg_brg]
    exact hnote
  · rw [setBrg_brg]
    exact hnote

/-- A scrub of a bridge that is up turns to the pass of the time, and then to what it found. -/
theorem patrolScrub_up {s : State} {b : Bridge} (hup : s.fnDown (fidBrg b.val) = false) (hrd : (s.brg b.val).ready = true)
    (hreg : s.regBits .brgScrub [b.val] 7 0 ≠ 0) (found : Option ScrubFinding) : exec (.patrolScrub b found) s = .next
      (let u := if (s.brg b.val).pass = s.scrubPass b.val then s
        else s.setBrg b.val fun x => { x with pass := s.scrubPass b.val, rows := [] }
       match found with
       | none => u
       | some f => u.scrubFound b.val f) :=
  congrArg Host.Outcome.next (if_neg (by simp [hup, hrd, hreg]))

/-- Settles O46: the commands by their checks, the scrub by `patrolScrub_up` and `scrubFound_corrected`. -/
theorem memoryCompletes : Obligations.MemoryCompletes := by
  refine ⟨fun s iss i e h => exec_ends h rfl rfl (by decide), fun s iss i e id size h hle hne hr hemp hsz => ?_,
    fun s iss i e bridge first count h hb h1 hn hup => ?_, fun s b hup hrd hreg => ⟨patrolScrub_up hup hrd hreg none, fun f => ?_⟩,
    fun s b hup hb hl => ?_⟩
  · intro sizes u log v
    refine exec_ends h rfl ?_ (by decide)
    dsimp only
    rw [guardParams_ok _ _ (by simp [rsvOk, hle, hne, hr]), if_neg (by simp [hemp]), if_neg (by omega)]
    rfl
  · refine exec_ends h rfl ?_ (by decide)
    dsimp only
    rw [guardParams_ok _ _ (by simp [rsvOk, hb, h1, hn]), guardUp_ok _ _ (by simp [hup])]
    rfl
  · have hrow := patrolScrub_up hup hrd hreg (some f)
    dsimp only at hrow
    have hpass : ∃ w, (if (s.brg b.val).pass = s.scrubPass b.val then s
        else s.setBrg b.val fun x => { x with pass := s.scrubPass b.val, rows := [] }) =
          { s with mem := { s.mem with bridges := w } } := by
      split
      · exact ⟨_, rfl⟩
      · exact ⟨_, rfl⟩
    obtain ⟨w, hw⟩ := hpass
    rw [hw] at hrow
    obtain ⟨hnvm, hgen⟩ := Still.nvm_gen (scrubFound_still { s with mem := { s.mem with bridges := w } } b.val f)
    exact ⟨_, hrow, hgen, hnvm, fun h1 hb => scrubFound_corrected _ h1 hb⟩
  · exact congrArg Host.Outcome.next (if_neg (by simp [hup, hb, hl]))

/-! ## Tests and repairs -/

/-- The tests that run and their results stand. -/
def TestsKept (s t : State) : Prop := t.bist = s.bist

namespace TestsKept

theorem refl (s : State) : TestsKept s s := rfl

theorem trans {s t u : State} (h : TestsKept s t) (k : TestsKept t u) : TestsKept s u := Eq.trans k h

theorem of_still {s t : State} (h : Still s t) : TestsKept s t := h.2.2.2.2.2.1

theorem of_slotsStill {s t : State} (h : SlotsStill s t) : TestsKept s t := h.2.2.2.2.2

theorem ite {s a b : State} (c : Prop) [Decidable c] (ha : TestsKept s a) (hb : TestsKept s b) :
    TestsKept s (if c then a else b) := by
  split
  · exact ha
  · exact hb

theorem foldl {α : Type} {f : State → α → State} (hf : ∀ s x, TestsKept s (f s x)) (s : State) (xs : List α) :
    TestsKept s (xs.foldl f s) := by
  induction xs generalizing s with
  | nil => exact refl s
  | cons x xs ih => exact (hf s x).trans (ih (f s x))

theorem endJobs (s : State) (p : Job → Bool) (f : Final) : TestsKept s (s.endJobs p f) := rfl

theorem fnDownEffects (s : State) (fid : Nat) : TestsKept s (s.fnDownEffects fid) := by
  unfold State.fnDownEffects
  extract_lets i
  clear_value i
  split
  · exact of_still (by simp [Still])
  · exact of_still (by simp [Still])
  · exact (endJobs s _ _).trans (of_slotsStill (engineDown_slotsStill _ i))
  · exact of_slotsStill (by simp [SlotsStill])
  · rfl
  · exact of_slotsStill (by simp [SlotsStill])
  · exact of_still (timeDown_still s)
  · exact of_slotsStill (by simp [SlotsStill])
  · exact of_slotsStill (by simp [SlotsStill])
  · exact of_still (telDown_still s)
  · exact refl s

theorem holdFailed (s : State) (fid cause : Nat) : TestsKept s (s.holdFailed fid cause) := by
  unfold State.holdFailed
  extract_lets a up b c d
  have ha : TestsKept s a := ite _ (refl s) (fnDownEffects s fid)
  have hb : TestsKept a b := rfl
  have hc : TestsKept b c := of_still (raiseEv_still _ _ _ _ _)
  have hd : TestsKept c d := endJobs c _ _
  have hlast : TestsKept d (if fid / 256 = 0 then (tileFibres (fid % 256)).foldl (fun s f => s.holdEye f .tile true) d else d) :=
    ite _ (foldl (fun u f => of_still (by simp [Still])) d _) (refl d)
  exact (((ha.trans hb).trans hc).trans hd).trans hlast

theorem attach (s : State) (t : Nat) : TestsKept s (s.attach t) := ite _ (refl s) rfl

theorem fnUpEffects (s : State) (fid : Nat) : TestsKept s (s.fnUpEffects fid) := by
  unfold State.fnUpEffects
  generalize List.range 64 = ts
  extract_lets i
  clear_value i
  split
  · exact of_still (by simp [Still])
  · exact of_still (by simp [Still])
  · rfl
  · exact of_still (by simp [Still])
  · exact foldl (fun u t => ite _ (refl u) (attach u t)) s ts
  · exact refl s

theorem resetRegs (s : State) (fid : Nat) : TestsKept s (s.resetRegs fid) := rfl

theorem leaveReset (s : State) (fid : Nat) : TestsKept s (s.leaveReset fid) :=
  (show TestsKept s (s.setFn fid _) from rfl).trans ((resetRegs _ fid).trans (fnUpEffects _ fid))

end TestsKept

theorem modAt_none {α : Type} (xs : List (Option α)) (n : Nat) : (modAt xs n fun _ => none).getD n none = none := by
  induction xs generalizing n with
  | nil => rfl
  | cons x xs ih =>
    cases n with
    | zero => rfl
    | succ n => exact ih n

/-- Settles O47: each command passes its checks and does its one change; the end of a test keeps what it recorded. -/
theorem testsComplete : Obligations.TestsComplete := by
  refine ⟨fun s iss i e func kinds flags n h hv hc h1 h8 hf hup ht hfree hd => ?_, fun s iss i e test first count r t h hr hn => ?_,
    fun s iss i e kind flags func inst bit addr h hf hv hk => ⟨fun hlt hcls hsram hfail hheld => ?_, fun h2 h3 hinst hbit hup => ?_⟩,
    fun s x hrun hst => ?_, fun s n faults us x hrun hst => ?_⟩
  · refine exec_pends h rfl ?_
    dsimp only
    have hc' : decide (func.toNat / 256 = 0 ∨ func.toNat / 256 = 2) = true := decide_eq_true hc
    have hd' : ¬ ((!flags.getLsbD 0) = true ∧ (!s.drained func.toNat) = true) := by
      rcases hd with hd | hd <;> simp [hd]
    rw [guardParams_ok _ _ (by simp only [List.forall_mem_cons, hv, hc', h1, h8, hf]; simp), if_neg (by simp [hup, ht]), hfree]
    exact if_neg hd'
  · refine exec_ends h rfl ?_ (by decide)
    rw [hr]
    exact guardParams_ok _ _ (by simp [rsvOk, hn])
  · intro r hspare hfuse
    refine exec_ends h rfl ?_ (by decide)
    have hk2 : ¬ kind = 2 := fun hk => by rw [hk] at hlt; exact absurd hlt (by decide)
    have hcls' : decide (func.toNat / 256 = 0 ∨ func.toNat / 256 = 2 ∨ func.toNat / 256 = 3) = true :=
      decide_eq_true (hcls.imp_right .inl)
    have hgo : (!((s.fn func.toNat).inReset && (s.fn func.toNat).held) && !(s.fn func.toNat).testing) = false := by
      rcases hheld with ⟨ha, hb⟩ | hb
      · rw [ha, hb]
        rfl
      · rw [hb, Bool.not_true, Bool.and_false]
    have hfuse' : ¬ (flags.getLsbD 0 = true ∧ fusesOf func.toNat ≤ s.fusesUsed func.toNat) := fun hx =>
      absurd (hfuse hx.1) (Nat.not_lt.mpr hx.2)
    dsimp only
    rw [if_neg hk2, guardParams_ok _ _ ?_, if_neg (Bool.eq_false_iff.mp hfail), if_neg (Bool.eq_false_iff.mp hgo),
      if_neg (by simpa using hspare), if_neg hfuse']
    · rfl
    · rw [List.forall_mem_append]
      exact ⟨by simp only [List.forall_mem_cons, hk, hf, hv, hcls']; simp, hsram⟩
  · intro row u
    have hkind : kind = 2 := BitVec.eq_of_toNat_eq h2
    have hcls : decide (func.toNat / 256 = 0 ∨ func.toNat / 256 = 2 ∨ func.toNat / 256 = 3) = true :=
      decide_eq_true (.inr (.inr h3))
    have hc : ∀ c ∈ [(repairKindOk kind.toNat (func.toNat / 256), 0), (decide (flags.toNat < 2), 1),
        (fnValid func.toNat && decide (func.toNat / 256 = 0 ∨ func.toNat / 256 = 2 ∨ func.toNat / 256 = 3), 2)] ++
        [(decide (inst.toNat / 256 / 8 = func.toNat % 256), 4), (decide (bit = 0), 6)], c.1 = true := by
      simp only [List.forall_mem_append, List.forall_mem_cons, hk, hf, hv, hcls, hinst, hbit]
      simp
    have hgo (k : Ans × State) : guardParams _ s (guardUp [func.toNat] s k) = k :=
      (guardParams_ok s _ hc).trans (guardUp_ok s k (by simp [hup]))
    split
    next hz => exact exec_ends h rfl ((if_pos hkind).trans ((hgo _).trans (if_pos hz))) (by decide)
    next hz =>
      split
      next hp =>
        exact exec_ends h rfl ((if_pos hkind).trans ((hgo _).trans ((if_neg hz).trans
          (congrArg (Prod.mk (ok [])) (if_pos hp))))) (by decide)
      next hp =>
        exact exec_ends h rfl ((if_pos hkind).trans ((hgo _).trans ((if_neg hz).trans
          (congrArg (Prod.mk (ok [])) (if_neg hp))))) (by decide)
  · intro u
    show execTestStaggerExpiry s = _
    unfold execTestStaggerExpiry
    have hbist : u.bist = s.bist := advanceTo_bist s _
    simp only [hrun, hst, List.filterMap_cons, List.filterMap_nil, Option.bind_some, Option.bind_none, Bool.false_eq_true, if_false]
    show Host.Outcome.next ({ u with bist := { u.bist with running := u.bist.running.map _ } } : State) = _
    rw [hbist, hrun]
    simp
  · show ∃ t, execTestEnd n faults us s = .next t ∧ _
    unfold execTestEnd
    rw [hrun]
    dsimp -zeta only
    rw [if_neg (by simp [hst])]
    extract_lets fid v worst a b res old c d l e
    have hd : TestsKept c d := by
      simp only [d]
      split
      · exact (TestsKept.resetRegs c fid).trans (.holdFailed _ _ _)
      · exact .leaveReset c fid
    have he : TestsKept d e := .ite _ (.of_still (retrainLink_still d l true)) (.refl d)
    refine ⟨_, rfl, ?_⟩
    rw [(hd.trans he).trans (.endJobs e _ _)]
    exact ⟨modAt_none _ _, res, rfl, rfl, rfl, rfl, rfl⟩

/-! ## Function resets -/

/-- A map from which the entries of some keys are taken: what the others hold stands. -/
theorem AMap.find_filter_key {α : Type} (m : AMap α) (p : Nat → Bool) (k : Nat) :
    AMap.find (m.filter fun e => p e.1) k = if p k then m.find k else none := by
  induction m with
  | nil => simp [AMap.find]
  | cons e m ih =>
    by_cases hp : p e.1 = true
    · rw [List.filter_cons_of_pos (p := fun x : Nat × α => p x.1) hp]
      simp only [AMap.find, ih]
      by_cases hk : k = e.1
      · rw [if_pos hk, if_pos hk, hk, if_pos hp]
      · rw [if_neg hk, if_neg hk]
    · rw [List.filter_cons_of_neg (p := fun x : Nat × α => p x.1) hp, ih]
      by_cases hk : k = e.1
      · rw [hk, if_neg hp, if_neg hp]
      · simp only [AMap.find, if_neg hk]

/-- A register after a function's registers are reset (R17, R629, R591). -/
theorem resetRegs_reg (s : State) (fid : Nat) (r : Reg) (ix : List Nat) : (s.resetRegs fid).reg r ix =
    if (ownersAt (regAddr r ix)).contains fid && !keptAddr (regAddr r ix) then regReset r ix else s.reg r ix := by
  have h := AMap.find_filter_key s.regs (fun a => !((ownersAt a).contains fid && !keptAddr a)) (regAddr r ix)
  unfold State.reg AMap.getD
  show (AMap.find (s.regs.filter fun r => !((ownersAt r.1).contains fid && !keptAddr r.1)) (regAddr r ix)).getD _ = _
  rw [h]
  cases (ownersAt (regAddr r ix)).contains fid && !keptAddr (regAddr r ix) <;> rfl

theorem resetRegs_owned (s : State) {fid : Nat} {r : Reg} {ix : List Nat} (ho : (ownersAt (regAddr r ix)).contains fid = true)
    (hk : keptAddr (regAddr r ix) = false) : (s.resetRegs fid).reg r ix = regReset r ix := by
  rw [resetRegs_reg, ho, hk]
  rfl

theorem resetRegs_other (s : State) {fid : Nat} {r : Reg} {ix : List Nat}
    (h : (ownersAt (regAddr r ix)).contains fid = false ∨ keptAddr (regAddr r ix) = true) :
    (s.resetRegs fid).reg r ix = s.reg r ix := by
  rw [resetRegs_reg]
  rcases h with h | h <;> rw [h]
  · rfl
  · rw [Bool.not_true, Bool.and_false, if_neg Bool.false_ne_true]

theorem attach_regs (s : State) (t : Nat) : (s.attach t).regs = s.regs := by
  unfold State.attach
  split <;> rfl

/-- The return of a function without tiles, engines or coding units writes no register. -/
theorem fnUpEffects_regs (s : State) {fid : Nat} (h : fid / 256 ∈ [1, 3, 4, 5, 6, 7, 9]) :
    (s.fnUpEffects fid).regs = s.regs := by
  have hattach (s : State) (ts : List Nat) :
      (ts.foldl (fun s t => if s.fnDown (fidTile t) then s else s.attach t) s).regs = s.regs := by
    induction ts generalizing s with
    | nil => rfl
    | cons t ts ih =>
      rw [List.foldl_cons, ih]
      split
      · rfl
      · exact attach_regs s t
  simp only [List.mem_cons, List.not_mem_nil, or_false] at h
  unfold State.fnUpEffects
  rcases h with h | h | h | h | h | h | h <;> simp only [h]
  · rfl
  · exact hattach s _

theorem endJobs_regs (s : State) (p : Job → Bool) (f : Final) : (s.endJobs p f).regs = s.regs := rfl

theorem endResets_regs (s : State) (fid : Nat) : (s.endResets fid).regs = s.regs := by
  unfold State.endResets
  split <;> rfl

theorem holdFlag_bits (hold : Bool) : (if hold then 1 else 0 : Byte).toNat < 4 ∧
    (if hold then 1 else 0 : Byte).getLsbD 0 = hold ∧ (if hold then 1 else 0 : Byte).getLsbD 1 = false := by
  cases hold <;> decide

/-- A whole reset that falls due starts the boot again (R525, R529). -/
theorem resetDelayExpiry_whole {s : State} {due : Nat} (h : s.boot.resetDue = [(due, none)]) :
    ∃ w : TimeSt, exec .resetDelayExpiry s = .next ((({ s with time := w, boot := { s.boot with resetDue := [] } } : State).wholeReset
      s.pins 2).startBoot 2) := by
  obtain ⟨w, hw⟩ := advanceTo_only s due
  refine ⟨w, ?_⟩
  show execResetDelayExpiry s = _
  unfold execResetDelayExpiry
  rw [h]
  show Host.Outcome.next ((({ s.advanceTo due with boot := { (s.advanceTo due).boot with resetDue := [] } } : State).wholeReset
    (s.advanceTo due).pins 2).startBoot 2) = _
  rw [hw]

/-- Settles O48: each row is its branch of the function's state, and the registers are looked up after the reset. -/
theorem functionResetsComplete : Obligations.FunctionResetsComplete := by
  refine ⟨fun s iss i e func hold h hlt hv hr ht hf hne => ?_,
    fun s iss i e func hlt hv ht hf => ⟨fun hold h hr heq => ?_, fun h hheld => ?_⟩,
    fun s iss i e h => exec_ends h rfl rfl (by decide), fun s due hdue => ?_, fun s due fid hold hdue hr hf => ?_,
    fun s func hv hr hheld ht hf => ?_, fun s fid => ⟨fun h3 => if_neg fun h => h3 h.1, fun h3 => ?_⟩,
    fun s n hb hup hw => congrArg Host.Outcome.next (if_neg (by simp [hb, hup, hw])),
    fun s fid r ix => ⟨resetRegs_owned s, resetRegs_other s, rfl, rfl, rfl⟩⟩
  · obtain ⟨h4, h0, h1⟩ := holdFlag_bits hold
    refine exec_pends h rfl ?_
    dsimp only
    rw [h0, h1, guardParams_ok _ _ (by simpa [rsvOk, hlt, hv] using h4), if_neg (by simp [hr, ht, hf]), if_neg (fun hx => hne hx.1),
      if_neg Bool.false_ne_true, hr]
    rfl
  · intro due
    obtain ⟨h4, h0, h1⟩ := holdFlag_bits hold
    refine exec_ends h rfl ?_ (by decide)
    dsimp only
    rw [h0, h1, guardParams_ok _ _ (by simpa [rsvOk, hlt, hv] using h4), if_neg (by simp [hr, ht, hf]), if_pos ⟨heq, rfl⟩]
    rfl
  · have h2 : (2 : Byte).getLsbD 0 = false ∧ (2 : Byte).getLsbD 1 = true := by decide
    refine exec_pends h rfl ?_
    dsimp only
    rw [h2.1, h2.2, guardParams_ok _ _ (by simp [rsvOk, hlt, hv, hheld]), if_neg (by simp [hheld, ht, hf]), if_neg (by simp),
      if_pos rfl]
  · obtain ⟨w, hw⟩ := resetDelayExpiry_whole hdue
    exact ⟨_, hw, rfl, rfl, rfl, rfl, rfl⟩
  · intro u
    show execResetDelayExpiry s = _
    unfold execResetDelayExpiry
    rw [hdue]
    have hfn : u.fn fid = s.fn fid := by simp only [u, State.fn, advanceTo_fns]
    refine congrArg Host.Outcome.next (if_neg ?_)
    show ¬ ((u.fn fid).inReset = true ∨ (u.fn fid).failed = true)
    rw [hfn, hr, hf]
    simp
  · intro w
    have hrow : exec (.funcResetEnd func) s = .next (((w.fnUpEffects func.toNat).endJobs
        (fun j => decide (j = .funcReset func.toNat true)) ⟨stOk, 0, []⟩).endResets func.toNat) :=
      congrArg Host.Outcome.next (if_pos (by simp [hv, hr, hheld, ht, hf]))
    refine ⟨hrow, fun r ix ho hk => ?_⟩
    have hreg : w.reg r ix = regReset r ix := resetRegs_owned _ ho hk
    refine ⟨hreg, fun hcls t hexec => ?_⟩
    obtain rfl : _ = t := Host.Outcome.next.inj (hrow.symm.trans hexec)
    have hregs : (((w.fnUpEffects func.toNat).endJobs (fun j => decide (j = .funcReset func.toNat true)) ⟨stOk, 0, []⟩).endResets
        func.toNat).regs = w.regs := by rw [endResets_regs, endJobs_regs, fnUpEffects_regs w hcls]
    rw [← hreg]
    unfold State.reg
    rw [hregs]
  · unfold State.endResets
    cases hb : (s.brg (fid % 256)).ready && s.linkUp (16 + fid % 256)
    · exact if_pos ⟨h3, rfl⟩
    · exact if_neg fun hx => Bool.false_ne_true hx.2

theorem freeBytes_only (s : State) (n : Nat) : ∃ k, (s.freeBytes n).2 = { s with free := k } := by
  induction n generalizing s with
  | zero => exact ⟨s.free, rfl⟩
  | succ n ih =>
    obtain ⟨k, hk⟩ := ih s.drawFree.2
    exact ⟨k, hk⟩

theorem freshRecord_only (s : State) : ∃ r n, s.freshRecord = (r, { s with free := n }) := by
  obtain ⟨n, hn⟩ := freeBytes_only s 136
  exact ⟨_, n, congrArg (fun u => (_, u)) hn⟩

theorem pastCrcLimit_iff (s : State) (words : List ShoreWord) : s.pastCrcLimit words = true ↔
    ∃ g : Fin 16, s.regBits .d2dConfig [] 7 0 < ((badWords words).filter fun w => w.group = g).length := by
  simp only [State.pastCrcLimit, List.any_eq_true, List.mem_range, decide_eq_true_eq, Fin.ext_iff]
  exact ⟨fun ⟨g, hg, h⟩ => ⟨⟨g, hg⟩, h⟩, fun ⟨g, h⟩ => ⟨g, g.isLt, h⟩⟩

/-- A link that starts a new round at full width on a fresh record (note 77). -/
def LinkSt.newRound (y : LinkSt) (r : Nat × BitVec 512) (low : Bool) : LinkSt :=
  { y with
    st := .training, round := (y.round + 1) % 65536, full := true, own := r.1, ownRepair := r.2, cand := 0
    replay := if low then [] else y.replay }

/-- Settles O49: each row is its branch of the link's state. -/
theorem joinRowsComplete : Obligations.JoinRowsComplete := by
  refine ⟨fun s l hb => congrArg Host.Outcome.next (if_neg hb), fun s l words hd hf => ?_,
    fun s l r hcrc hv hr => ⟨fun hk hst => ?_, fun hk hst => ?_⟩,
    fun s l r hcrc => congrArg Host.Outcome.next (if_pos (Or.inl hcrc))⟩
  · intro bad u
    obtain ⟨r, n, hn⟩ := freshRecord_only u
    have hrow : exec (.shorelineCrcLimit l words) s = .next (if !u.pastCrcLimit words then u
        else if (s.link l.val).st = .up then u.retrainLink l.val true
        else if (s.link l.val).full then u
        else ({ u with free := n } : State).setLink l.val fun y => y.newRound r (decide (l.val < 16))) := by
      refine congrArg Host.Outcome.next ((if_neg (by simp [hd, hf])).trans ?_)
      simp only [u, bad] at hn
      simp only [badWords]
      rw [hn]
      simp only [LinkSt.newRound, decide_eq_true_eq, u, bad]
    have hlink : u.link l.val = { s.link l.val with replay := replayOf words } := setLink_link _ _ _
    refine ⟨fun h => hrow.trans (congrArg Host.Outcome.next (if_pos ?_)), fun h => ?_⟩
    · simp only [Bool.not_eq_true', ← Bool.not_eq_true, pastCrcLimit_iff, not_exists, not_lt]
      exact h
    · have hpast : u.pastCrcLimit words = true := (pastCrcLimit_iff _ _).mpr h
      simp only [hpast, Bool.not_true, Bool.false_eq_true, if_false] at hrow
      refine ⟨fun hup => hrow.trans (congrArg Host.Outcome.next (if_pos hup)), fun hup hfull => ?_, fun hup hfull => ?_⟩
      · exact hrow.trans (congrArg Host.Outcome.next ((if_neg hup).trans (if_pos hfull)))
      · rw [if_neg hup, hfull] at hrow
        refine ⟨_, hrow, ?_⟩
        have ht : ((({ u with free := n } : State).setLink l.val fun y => y.newRound r (decide (l.val < 16))).link l.val)
            = (u.link l.val).newRound r (decide (l.val < 16)) := setLink_link _ _ _
        simp only [Bool.false_eq_true, if_false]
        rw [ht, hlink]
        exact ⟨rfl, rfl, rfl, rfl, rfl⟩
  · intro g
    have hrow : exec (.widthRecordReceive l r) s = .next (if popCount 16 g < 8 then s.failLink l.val
        else if (!(s.link l.val).full : Bool) = true ∧ g ≠ (s.link l.val).before then s.retrainLink l.val true
        else s.setLink l.val fun y => { y with
          st := .agreeing, cand := g, peerRepair := r.repair, sent := some (sealWidth 2 y.round g 0) }) :=
      congrArg Host.Outcome.next ((if_neg (by simp [hcrc, hv, hr])).trans (if_pos ⟨hk, hst⟩))
    refine ⟨fun h => hrow.trans (congrArg Host.Outcome.next (if_pos h)), fun h hfull hne => hrow.trans ?_, fun h hor => hrow.trans ?_⟩
    · rw [if_neg (by omega), if_pos ⟨by simp [hfull], hne⟩]
    · rw [if_neg (by omega), if_neg]
      rintro ⟨hfull, hne⟩
      rcases hor with hor | hor
      · simp [hor] at hfull
      · exact hne hor
  · have hrow : exec (.widthRecordReceive l r) s = .next (if r.mask.toNat = (s.link l.val).cand
        then s.raiseLink l.val (s.link l.val).cand
        else s.setLink l.val fun y => { y with st := .training, round := (y.round + 1) % 65536, cand := 0 }) :=
      congrArg Host.Outcome.next ((if_neg (by simp [hcrc, hv, hr])).trans
        ((if_neg (by simp [hst])).trans (if_pos ⟨hk, hst⟩)))
    exact ⟨fun h => hrow.trans (congrArg Host.Outcome.next (if_pos h)),
      fun h => hrow.trans (congrArg Host.Outcome.next (if_neg h))⟩

/-! ## Power and heat -/

theorem bump_reg_ne (s : State) {r q : Reg} {ix jx : List Nat} (h : regAddr q jx ≠ regAddr r ix) :
    (s.bump r ix).reg q jx = s.reg q jx := setReg_reg_ne s _ h

theorem pwrConfig_ne_sevCounter (v : Nat) : regAddr .pwrConfig [] ≠ regAddr (sevCounter v) [] := by
  unfold sevCounter
  split <;> decide

theorem writeLog_pwrConfig (s : State) (m : Merged) (flags : Nat) :
    (s.writeLog m flags).reg .pwrConfig [] = s.reg .pwrConfig [] := by
  unfold State.writeLog
  dsimp only
  split
  · rfl
  · split
    · exact bump_reg_ne _ (r := .telOverwritten) (by decide)
    · split
      · exact bump_reg_ne s (r := .telOverwritten) (by decide)
      · exact bump_reg_ne s (r := .telLostHigh) (by decide)

theorem writeLow_pwrConfig (s : State) (m : Merged) (flags : Nat) :
    (s.writeLow m flags).reg .pwrConfig [] = s.reg .pwrConfig [] := by
  unfold State.writeLow
  split
  · exact writeLog_pwrConfig _ _ _
  · rfl

/-- An event that is raised leaves the power manager's configuration. -/
theorem raiseEv_pwrConfig (s : State) (c v o : Nat) (d : List Byte) :
    (s.raiseEv c v o d).reg .pwrConfig [] = s.reg .pwrConfig [] := by
  obtain ⟨t, ht⟩ := offerLow_only (s.bump (sevCounter v) []) v d
  refine Eq.trans ?_ (bump_reg_ne s (pwrConfig_ne_sevCounter v))
  unfold State.raiseEv
  rw [ht]
  generalize s.bump (sevCounter v) [] = u
  dsimp only [State.number]
  split
  · split
    · exact bump_reg_ne _ (r := .telResetLost) (by decide)
    · rfl
  · split
    · exact writeLog_pwrConfig _ _ _
    · split
      · exact writeLow_pwrConfig _ _ _
      · split
        · exact bump_reg_ne _ (r := .telCoalesced) (by decide)
        · rfl

/-- A period's steps before the plan: the message's number and the configuration stand. -/
structure PeriodKept (s t : State) : Prop where
  still : Still s t
  seq : t.pwr.seq = s.pwr.seq
  config : t.reg .pwrConfig [] = s.reg .pwrConfig []

theorem PeriodKept.trans {s t u : State} (h : PeriodKept s t) (k : PeriodKept t u) : PeriodKept s u :=
  ⟨h.still.trans k.still, k.seq.trans h.seq, k.config.trans h.config⟩

theorem PeriodKept.refl (s : State) : PeriodKept s s := ⟨by simp [Still], rfl, rfl⟩

theorem PeriodKept.bump (s : State) {r : Reg} (h : regAddr .pwrConfig [] ≠ regAddr r []) : PeriodKept s (s.bump r []) :=
  ⟨by simp [Still], rfl, bump_reg_ne s h⟩

theorem PeriodKept.setDie (s : State) (d : Nat) (f : DieSt → DieSt) : PeriodKept s (s.setDie d f) :=
  ⟨setDie_still s d f, rfl, rfl⟩

theorem PeriodKept.raiseEv (s : State) (c v o : Nat) (d : List Byte) : PeriodKept s (s.raiseEv c v o d) :=
  ⟨raiseEv_still s c v o d, by simp, raiseEv_pwrConfig s c v o d⟩

theorem PeriodKept.every (s : State) (k : Periodic) (i n : Nat) : PeriodKept s (s.every k i n) :=
  ⟨every_still s k i n, by simp, by simp [State.reg]⟩

theorem PeriodKept.ite {s t u : State} (c : Prop) [Decidable c] (h : PeriodKept s t) (k : PeriodKept s u) :
    PeriodKept s (if c then t else u) := by
  split
  · exact h
  · exact k

theorem PeriodKept.foldl {α : Type} {f : State → α → State} (hf : ∀ s x, PeriodKept s (f s x)) (s : State) (xs : List α) :
    PeriodKept s (xs.foldl f s) := by
  induction xs generalizing s with
  | nil => exact .refl s
  | cons x xs ih => exact (hf s x).trans (ih (f s x))

theorem PeriodKept.judgeReply (s : State) (d : Nat) : PeriodKept s (s.judgeReply d) := by
  unfold State.judgeReply
  extract_lets x missed u v
  refine .ite _ (.setDie _ _ _) (.ite _ (.refl s) ((PeriodKept.setDie s d _).trans (.ite _ (.refl u) ?_)))
  exact (PeriodKept.bump u (r := .pwrSilent) (by decide)).trans (.ite _ (.raiseEv _ _ _ _ _) (.refl v))

/-- The kept parts and the power manager's state stand. -/
structure PowerStands (s t : State) : Prop where
  still : Still s t
  pwr : t.pwr = s.pwr

theorem PowerStands.refl (s : State) : PowerStands s s := ⟨by simp [Still], rfl⟩

theorem PowerStands.trans {s t u : State} (h : PowerStands s t) (k : PowerStands t u) : PowerStands s u :=
  ⟨h.still.trans k.still, k.pwr.trans h.pwr⟩

theorem PowerStands.ite {s t u : State} (c : Prop) [Decidable c] (h : PowerStands s t) (k : PowerStands s u) :
    PowerStands s (if c then t else u) := by
  split
  · exact h
  · exact k

theorem PowerStands.foldl {α : Type} {f : State → α → State} (hf : ∀ s x, PowerStands s (f s x)) (s : State) (xs : List α) :
    PowerStands s (xs.foldl f s) := by
  induction xs generalizing s with
  | nil => exact .refl s
  | cons x xs ih => exact (hf s x).trans (ih (f s x))

theorem PowerStands.setTile (s : State) (t : Nat) (f : TileSt → TileSt) : PowerStands s (s.setTile t f) := ⟨by simp [Still], rfl⟩

theorem PowerStands.bump (s : State) (r : Reg) (ix : List Nat) : PowerStands s (s.bump r ix) := ⟨by simp [Still], rfl⟩

theorem PowerStands.raiseEv (s : State) (c v o : Nat) (d : List Byte) : PowerStands s (s.raiseEv c v o d) :=
  ⟨raiseEv_still s c v o d, raiseEv_pwr s c v o d⟩

theorem PowerStands.ratioDown (s : State) (t : Nat) : PowerStands s (s.ratioDown t) := by
  unfold State.ratioDown
  exact .ite _ (.refl s) ((PowerStands.setTile s t _).trans (.bump _ _ _))

/-- Below its trip limit a sensor writes its die (R521), and what follows leaves the power manager's state. -/
theorem sense_below (s : State) {d : Nat} {temp : BitVec 16} (h : temp.toInt < tripAt d) :
    PowerStands (s.setDie d fun x => { x with temp := temp.toNat, slowed := decide (throttleAt d ≤ temp.toInt) })
      (s.sense d temp) := by
  unfold State.sense
  rw [if_neg (by omega)]
  generalize List.range 64 = ts
  extract_lets hot rises u v
  have hv : PowerStands u v := .foldl (fun s t => .setTile s t _) u ts
  refine .ite _ (hv.trans (.ite _ (.foldl PowerStands.ratioDown v ts) (.refl v))) (.ite _ ?_ (.refl u))
  have hdraw : PowerStands u { u with free := u.free + 1 } := ⟨by simp [Still], rfl⟩
  have hset (w : State) (f : EngineSt → EngineSt) : PowerStands w (w.setOe (d - 2) f) := ⟨by simp [Still], rfl⟩
  exact hdraw.trans ((hset _ _).trans (.raiseEv _ _ _ _ _))

/-- A period's steps after the plan: the message's number, the holds and the logic die's reading stand. -/
structure PlanKept (s t : State) : Prop where
  still : Still s t
  seq : t.pwr.seq = s.pwr.seq
  holds : t.pwr.rampHold = s.pwr.rampHold
  logic : t.die 0 = s.die 0

theorem PlanKept.trans {s t u : State} (h : PlanKept s t) (k : PlanKept t u) : PlanKept s u :=
  ⟨h.still.trans k.still, k.seq.trans h.seq, k.holds.trans h.holds, k.logic.trans h.logic⟩

theorem PowerStands.plan {s t : State} (h : PowerStands s t) : PlanKept s t := by
  refine ⟨h.still, ?_, ?_, ?_⟩ <;> simp only [State.die, h.pwr]

theorem PlanKept.propose (s : State) (steps : List (Engine × StepForecast)) {d : Nat} (budget : Nat) (h : d ≠ 0) :
    PlanKept s (s.propose steps d budget) :=
  ⟨propose_still s steps d budget, rfl, rfl, setDie_die_ne s _ h.symm⟩

theorem PlanKept.propose_foldl (s : State) (steps : List (Engine × StepForecast)) (bs : List (Nat × Nat))
    (h : ∀ b ∈ bs, b.1 ≠ 0) : PlanKept s (bs.foldl (fun s b => s.propose steps b.1 b.2) s) := by
  induction bs generalizing s with
  | nil => exact (PowerStands.refl s).plan
  | cons b bs ih => exact (PlanKept.propose s steps b.2 (h b (by simp))).trans (ih _ fun c hc => h c (by simp [hc]))

theorem farDies_ne {d : Nat} (h : d ∈ farDies) : d ≠ 0 := by
  rintro rfl
  exact absurd h (by decide)

/-- What a period of the power manager leaves, below the trip limit (R518 to R521). -/
theorem powerPeriod_below (s : State) (forecast : List (Die × BitVec 16)) (logic : DieReading) (need : BitVec 16) (ratio : Fin 17)
    (steps : List (Engine × StepForecast)) (drivers : List Tile) (hr : s.boot.phase ≠ .reset) (hs : s.boot.phase ≠ .stuck)
    (ht : logic.temp.toInt < tripAt 0) :
    ∃ t, exec (.powerPeriod forecast logic need ratio steps drivers) s = .next t ∧ Still s t ∧
      t.pwr.seq = (s.pwr.seq + 1) % 65536 ∧
      t.pwr.rampHold = (if steps.any fun f => decide (16 * s.regBits .pwrConfig [] 7 0 < f.2.slew.toNat)
        then (drivers.map (·.val)).eraseDups else []) ∧
      (t.die 0).measured = logic.measured.toNat ∧ (t.die 0).temp = logic.temp.toNat ∧ (t.die 0).slope = logic.slope.toNat := by
  show ∃ t, execPowerPeriod forecast logic need ratio steps drivers s = .next t ∧ _
  unfold execPowerPeriod
  rw [if_neg (by simp [hr, hs]), if_neg (by omega)]
  generalize List.range 64 = ts
  extract_lets s₁ s₂ guarded holds s₃ s₄ power cap plans share short cuttable total budgets above lower was old pwr s₅ s₆
  have h₁ : PeriodKept s s₁ := (PeriodKept.every s _ _ _).trans (.foldl PeriodKept.judgeReply _ _)
  have h₂ : PeriodKept s s₂ := h₁.trans (.ite _ (.bump s₁ (by decide)) (.refl s₁))
  have hg : guarded = steps.any fun f => decide (16 * s.regBits .pwrConfig [] 7 0 < f.2.slew.toNat) := by
    simp only [guarded, State.regBits, h₂.config]
    rfl
  have h₃ : PeriodKept s s₃ := h₂.trans (.ite _ (.bump s₂ (by decide)) (.refl s₂))
  have h₄ : PowerStands _ (s₃.sense 0 logic.temp) := sense_below s₃ ht
  have hplans : ∀ p ∈ plans, p.1 ≠ 0 := by
    intro p hp
    obtain ⟨d, hd, rfl⟩ := List.mem_map.mp hp
    exact farDies_ne hd
  have hfar : ∀ b ∈ budgets, b.1 ≠ 0 := by
    intro b hb
    simp only [budgets] at hb
    split at hb
    · exact hplans b hb
    · obtain ⟨p, hp, rfl⟩ := List.mem_map.mp hb
      have := hplans p hp
      split <;> exact this
  have h₅ : PlanKept { s₄ with pwr := pwr } s₅ := .propose_foldl _ _ _ hfar
  have h₆ : PlanKept s₅ s₆ := (PowerStands.foldl (fun s t => .setTile s t _) _ _).plan
  have h₇ (c : Prop) [Decidable c] (d : List Byte) :
      PlanKept { s₄ with pwr := pwr } (if c then s₆.raiseEv 0x0301 2 srcPower d else s₆) :=
    (h₅.trans h₆).trans (PowerStands.ite c (.raiseEv s₆ 0x0301 2 srcPower d) (.refl s₆)).plan
  have hset : PeriodKept s₃ (s₃.setDie 0 _) := .setDie s₃ 0 fun x =>
    { x with temp := logic.temp.toNat, slowed := decide (throttleAt 0 ≤ logic.temp.toInt) }
  have hsense : (s₃.sense 0 logic.temp).die 0 =
      { s₃.die 0 with temp := logic.temp.toNat, slowed := decide (throttleAt 0 ≤ logic.temp.toInt) } := by
    simp only [State.die, h₄.pwr]
    exact setDie_die s₃ 0 _
  have hdie : s₄.die 0 = { (s₃.sense 0 logic.temp).die 0 with
      verdict := 0, measured := logic.measured.toNat, slope := logic.slope.toNat } := setDie_die _ 0 _
  have hseq : s₄.pwr.seq = s.pwr.seq := ((congrArg Pwr.seq h₄.pwr).trans hset.seq).trans h₃.seq
  have hstill : Still s { s₄ with pwr := pwr } := (h₃.still.trans hset.still).trans (h₄.still.trans (by simp [s₄, Still]))
  refine ⟨_, rfl, hstill.trans (h₇ _ _).still, (h₇ _ _).seq.trans (congrArg (fun n => (n + 1) % 65536) hseq), ?_, ?_⟩
  · rw [← hg]
    exact (h₇ _ _).holds
  · rw [(h₇ _ _).logic]
    show (s₄.die 0).measured = _ ∧ (s₄.die 0).temp = _ ∧ (s₄.die 0).slope = _
    rw [hdie, hsense]
    exact ⟨rfl, rfl, rfl⟩

/-- Settles O50: -/
theorem powerCompletes : Obligations.PowerCompletes := by
  refine ⟨fun s iss i e cap h h0 h1 => exec_ends h rfl (guardParams_ok _ _ (by simp [rsvOk, h0, h1])) (by decide),
    fun s iss i e h => exec_ends h rfl rfl (by decide),
    fun s forecast logic need ratio steps drivers hr hs => ⟨fun ht => ?_, fun ht => ?_⟩,
    fun s d m hd hdown ha => ?_, fun s d m expected now hdown hm => ?_,
    fun s d hd hdown hb => congrArg Host.Outcome.next (if_neg (by simp [hd, hdown, hb])),
    fun s t hdown => ⟨fun hlt => ?_, fun hle hhot => ?_, fun hlt hhot hmem => ?_⟩,
    fun s d temp hb ht => congrArg Host.Outcome.next ((if_neg hb).trans (if_pos ht)),
    fun s d temp hb ht => ⟨fun hd => ?_, ?_⟩⟩
  · exact congrArg Host.Outcome.next ((if_neg (by simp [hr, hs])).trans (if_pos ht))
  · obtain ⟨t, hrow, ⟨-, hnvm, hgen, -, hmgmt, -⟩, hseq, hhold, hdie⟩ :=
      powerPeriod_below s forecast logic need ratio steps drivers hr hs ht
    obtain ⟨hmeasured, htemp, hslope⟩ := hdie
    refine ⟨t, hrow, hseq, fun hall => hhold.trans (if_neg ?_), fun hany => hhold.trans (if_pos ?_), hmeasured, htemp, hslope,
      hnvm, hgen, hmgmt⟩
    · simpa using hall
    · simpa using hany
  · intro verdict v
    have hrow : exec (.powerReplyReceive d) s = .next (if d.val = 0 ∨ v.dieDown d.val ∨ field2 m 2 ≠ v.pwr.seq then v
        else
          let u := v.setDie d.val fun x => { x with
            verdict := verdict, measured := field2 m 4, floor := field2 m 6
            temp := field2 m 8, slope := field2 m 10, waiting := false, missed := 0, silent := false }
          if verdict = 1 then { u with pwr := { u.pwr with throttled := true } }
          else if verdict = 2 then u.bump .pwrRefusals []
          else u) := by
      show execPowerReplyReceive d s = _
      unfold execPowerReplyReceive
      simp only [ha]
      rfl
    have hv : v.dieDown d.val = false := hdown
    refine ⟨fun hne => hrow.trans (congrArg Host.Outcome.next (if_pos (.inr (.inr hne)))), fun heq => ?_⟩
    have hgo : ¬ (d.val = 0 ∨ v.dieDown d.val = true ∨ field2 m 2 ≠ v.pwr.seq) := by
      rw [hv]
      exact fun hx => hx.elim hd fun hx => hx.elim Bool.false_ne_true fun hx => hx heq
    rw [if_neg hgo] at hrow
    refine ⟨fun h1 => hrow.trans (congrArg Host.Outcome.next (if_pos h1)),
      fun h2 => hrow.trans (congrArg Host.Outcome.next ((if_neg (by omega)).trans (if_pos h2))),
      fun h1 h2 => hrow.trans (congrArg Host.Outcome.next ((if_neg h1).trans (if_neg h2)))⟩
  · show ∃ t v, execProposeReceive d expected now s = .next t ∧ _
    unfold execProposeReceive
    extract_lets n x rigid
    have hx : x.proposed = some m := hm
    have hn : s.dieDown n = false := hdown
    simp -zeta only [hx, hn, Bool.false_eq_true, if_false]
    extract_lets budget verdict u f
    refine ⟨_, verdict, rfl, ?_⟩
    have hdie : (if 2 ≤ d.val ∧ d.val < 18 then u.setOe (d.val - 2) fun e => { e with forecast := f } else u).die d.val
        = u.die d.val := by
      split <;> rfl
    rw [hdie, setDie_die]
    have hd : rigid = decide (d.val < 18) := rfl
    refine ⟨rfl, rfl, fun hlt => if_pos hlt, fun hle => ⟨fun h18 => ?_, fun h18 => ?_⟩⟩
    · have h1 : ¬ d.val = 1 := by omega
      have hr : rigid = false := by simp [hd, h18]
      simp only [verdict, budget, n, x, if_neg (Nat.not_lt.mpr hle), hr, h1, Bool.false_eq_true, false_and, false_or, if_false]
    · have hr : rigid = true := by simp [hd, h18]
      simp only [verdict, budget, n, x, if_neg (Nat.not_lt.mpr hle), hr, true_and, true_or, if_true]
      by_cases h1 : d.val = 1
      · simp only [h1]
      · simp only [h1, false_and, if_false]
  · exact congrArg Host.Outcome.next ((if_neg (Bool.eq_false_iff.mp hdown)).trans (if_pos hlt))
  · exact congrArg Host.Outcome.next ((if_neg (Bool.eq_false_iff.mp hdown)).trans
      ((if_neg (Nat.not_lt.mpr hle)).trans (if_pos hhot)))
  · exact congrArg Host.Outcome.next ((if_neg (Bool.eq_false_iff.mp hdown)).trans
      ((if_neg (by omega)).trans ((if_neg (Bool.eq_false_iff.mp hhot)).trans (if_pos ⟨hlt, by simpa using hmem⟩))))
  · refine congrArg Host.Outcome.next ((if_neg hb).trans ((if_neg (by omega)).trans ?_))
    exact (if_neg (by omega)).trans (if_neg (by omega))
  · refine ⟨s.sense d.val temp, congrArg Host.Outcome.next (if_neg hb), ?_⟩
    have hsense := sense_below s ht
    have hstill : Still s (s.sense d.val temp) := (setDie_still s _ _).trans hsense.still
    refine ⟨hstill.nvm_gen.1, hstill.nvm_gen.2, ?_⟩
    simp only [State.die, hsense.pwr]
    exact congrArg DieSt.slowed (setDie_die s d.val _)

end Sys2Proof.Machine
end

