-- ==== Sys2Proof/Proofs/TelemetrySecurity.lean ====
section
/-! PROOFS. Security and telemetry (R556 to R574, R575 to R590). -/

namespace Sys2Proof.Machine

theorem sendBytes_boot (s : State) (b : Nat) (up : Bool) (i n : Nat) : (s.sendBytes b up i n).boot = s.boot := rfl

/-- Reading an object leaves the boot record. -/
theorem readObject_boot (s : State) (h off n : Nat) (met : List BlockErr) : (s.readObject h off n met).2.boot = s.boot := by
  simp only [State.readObject, sendBytes_boot]
  obtain ⟨_, _, _, hm⟩ := meet_only s 3 (readBlocks off n) (errOn objBridge) met
  rw [hm]

/-- Settles O53: each command passes its checks and does its one change. -/
theorem securityCompletes : Obligations.SecurityCompletes := by
  refine ⟨fun s iss i e nonce h => exec_ends h rfl rfl (by decide), fun s iss i e scheme depth der h hs hd => ?_,
    fun s iss i e handle met o h ho hob hs hty hread hl hbusy hact => ?_,
    fun s iss i e slot hs hbusy => ⟨fun h => ?_, fun h => ?_, fun h hrun => ?_⟩⟩
  · refine exec_ends h rfl ?_ (by decide)
    dsimp only
    rw [guardParams_ok _ _ (by simp [rsvOk, hs, hd]), hd]
    rfl
  · have hw := withObject_ok (s := s) (i := i) (off := 0) (lengthOk := fun l => decide (l ≤ 134217728)) (before := [])
      (after := [rsvOk (0 : BitVec 16) 2]) (fids := []) ho hob hs hty (by simp [hl]) nofun (by simp [rsvOk]) (by simp)
    intro u image
    have hnvm : u.nvm = s.nvm := (readObject_still s _ _ _ _).nvm_gen.1
    have hboot : u.boot = s.boot := readObject_boot s _ _ _ _
    have hact' : ¬ u.activeSlot = !u.boot.runningSlot := by
      have ha : u.activeSlot = s.activeSlot := by simp only [State.activeSlot, hnvm]
      rw [ha, hact, hboot]
      simp
    split
    next hz =>
      refine exec_pends h rfl ((hw _).trans ?_)
      rw [hbusy, if_neg Bool.false_ne_true, consuming_ok hread]
      simp only [u] at hnvm hact'
      dsimp only
      rw [hnvm, if_neg (not_not_intro hz), if_neg hact', readObject_boot]
    next hz =>
      refine exec_ends h rfl ((hw _).trans ?_) (by decide)
      rw [hbusy, if_neg Bool.false_ne_true, consuming_ok hread]
      simp only [u] at hnvm
      dsimp only
      rw [hnvm, if_pos hz]
  · refine exec_pends h rfl ?_
    dsimp only
    rw [guardParams_ok _ _ (by simp [rsvOk, hs]), hbusy]
    rfl
  · refine exec_pends h rfl ?_
    dsimp only
    rw [guardParams_ok _ _ (by simp [rsvOk, hs]), hbusy]
    rfl
  · refine exec_pends h rfl ?_
    dsimp only
    rw [guardParams_ok _ _ (by simpa [rsvOk, hs] using hrun), hbusy]
    rfl

/-- The host's session, and its command's TAG. -/
def lastLogIssuer : Issuer := ⟨1, 7, 0⟩

/-- A LOG_READ to an object whose frame carried the session's last host sequence (R59). -/
def lastLogRead : Instr := .logRead lastLogIssuer 2 0 0 1 0 []

def lastLogEntry : CmdEntry :=
  { tag := 7, opcode := 0x0D04, flags := 0, params := [2, 0, 0, 0, 0, 0, 0, 1, 0, 0, 0, 0, 0, 0, 0, 0], order := 0, arrived := 0
    last := true, phase := .queued, src := 0, vlan := none, objs := [], job := .firmware, finished := none }

/-- The part in service, with that command alone on an open session. -/
def lastLogState : State :=
  { State.reset with
    boot := { State.reset.boot with phase := .done }
    pins := { State.reset.pins with porLow := false }
    mgmt := { State.reset.mgmt with
      slots := { Session.free with st := .active, number := 1, cmds := [lastLogEntry] } :: List.replicate 7 Session.free } }

/-- The log's sequences after a command. -/
def logSeqs : Out → List Nat
  | .next t => t.tel.log.map LogEvent.seq
  | _ => []

theorem lastLogState_waits : Waits lastLogState lastLogRead 0 lastLogEntry :=
  ⟨rfl, rfl, rfl⟩

/-- The reply closes the session, and the close is an event of the log (R59, R61). -/
theorem lastLogRead_logs : logSeqs (exec lastLogRead lastLogState) = [1] := by
  decide +kernel

/-- Refutes O51: a LOG_READ to an object that carries the session's last host sequence closes the session with its reply, and the
event of that close joins the log. -/
theorem not_telemetryCompletes : ¬ Obligations.TelemetryCompletes := by
  rintro ⟨-, -, hread, -⟩
  obtain ⟨t, ht, -, -, hlog⟩ := (hread lastLogState lastLogIssuer 0 lastLogEntry 2 0 1 0 lastLogState_waits (by decide) (by decide)
    (by decide +kernel)).2 rfl (by decide)
  have hseq : t.tel.log.map LogEvent.seq = [1] := (congrArg logSeqs ht.symm).trans lastLogRead_logs
  exact absurd (hlog.symm.trans hseq) (by decide +kernel)

end Sys2Proof.Machine
end

