-- ==== Sys2Proof/Proofs/Estuary.lean ====
section
/-! PROOFS. Estuary: groups, contexts, coding groups and the rows of a slice (R347 to R436). -/

namespace Sys2Proof.Machine

/-! ## The group commands -/

theorem ebbList_length (sums : AMap (BitVec 64)) (n : Nat) : (ebbList sums n).length ≤ n := by
  induction n generalizing sums with
  | zero => simp [ebbList]
  | succ n ih =>
    unfold ebbList
    split
    · simp
    · simpa using ih _

/-- A list of equally long pieces, laid end to end. -/
theorem length_flatMap_const {α β : Type} {f : α → List β} {k : Nat} (xs : List α) (h : ∀ x ∈ xs, (f x).length = k) :
    (xs.flatMap f).length = k * xs.length := by
  rw [List.length_flatMap, List.map_congr_left h, List.map_const', List.sum_replicate, smul_eq_mul, Nat.mul_comm]

/-- The result of EBB_READ (R380): the count and the histogram, and then eight rows. -/
def Group.ebbBytes (g : Group) : List Byte :=
  let rows := (ebbList g.lateSum 8).map fun (m, v) =>
    beBytes 2 m ++ [0, 0] ++ bvBytes 4 (g.lastCount.getD m 0) ++ bvBytes 8 v
  let gap := List.replicate (8 - rows.length) (beBytes 2 0xFFFF ++ List.replicate 14 0)
  beBytes 4 g.recorded ++ (List.range 16).flatMap (fun i => bvBytes 4 (g.hist.getD i 0)) ++ (rows ++ gap).flatten

theorem Group.ebbBytes_head_length (g : Group) :
    (beBytes 4 g.recorded ++ (List.range 16).flatMap fun i => bvBytes 4 (g.hist.getD i 0)).length = 68 := by
  rw [List.length_append, length_flatMap_const _ fun i _ => bvBytes_length 4 _]
  simp

theorem Group.ebbBytes_take (g : Group) : g.ebbBytes.take 68 =
    beBytes 4 g.recorded ++ (List.range 16).flatMap fun i => bvBytes 4 (g.hist.getD i 0) :=
  List.take_left' g.ebbBytes_head_length

theorem Group.ebbBytes_length (g : Group) : g.ebbBytes.length = 196 := by
  have hrows (rows gap : List (List Byte)) (hr : ∀ r ∈ rows ++ gap, r.length = 16) (hn : (rows ++ gap).length = 8) :
      (rows ++ gap).flatten.length = 128 := by
    rw [List.length_flatten, List.map_congr_left hr, List.map_const', List.sum_replicate, hn, smul_eq_mul]
  unfold Group.ebbBytes
  extract_lets rows gap
  rw [List.length_append, g.ebbBytes_head_length, hrows rows gap]
  · intro r hr
    rcases List.mem_append.mp hr with hr | hr
    · obtain ⟨x, -, rfl⟩ := List.mem_map.mp hr
      simp
    · rw [List.eq_of_mem_replicate hr]
      simp
  · have : rows.length ≤ 8 := (List.length_map _).trans_le (ebbList_length g.lateSum 8)
    simp only [List.length_append, gap, List.length_replicate]
    omega

/-- Settles O40: each command passes its checks and does its one change. -/
theorem groupCommandsComplete : Obligations.GroupCommandsComplete := by
  refine ⟨fun s iss i e group m weight base count members h hg hnone hrange hm hm' hrec hbusy hres => ?_,
    fun s iss i e group g hg => ⟨fun h => ?_, fun first count h h0 h1 h2 h3 => ?_, fun weight h hw => ?_, fun h => ?_, fun h => ?_⟩⟩
  · refine exec_ends h rfl ?_ (by decide)
    have hc : ∀ c ∈ [(decide (group.toNat < 8192) && (s.est.groups.find group.toNat).isNone, 0), rsvOk (0 : Byte) 3,
        (s.rangeOk base.toNat count.toNat 1, 4), (decide (1 ≤ m.toNat ∧ m.toNat ≤ 2048), 12), rsvOk (0 : BitVec 16) 14] ++
        recordChecks 16 members [], c.1 = true := by
      rw [List.forall_mem_append]
      exact ⟨by simp [rsvOk, hg, hnone, hrange, hm, hm'], hrec⟩
    rw [guardParams_ok _ _ hc, hbusy, if_neg Bool.false_ne_true, if_neg (by omega)]
    rfl
  · refine congrArg (fun t => Host.Outcome.next t.judgeDestroys) ((hostCmd_waits h _).trans (runCmd_pend ?_))
    dsimp only
    rw [guardParams_ok _ _ (by simp [rsvOk, hg]), hg]
  · refine exec_ends h rfl ?_ (by decide)
    dsimp only
    rw [guardParams_ok _ _ (by simp [rsvOk, hg, h0, h1, h2, h3]), hg]
    rfl
  · refine exec_ends h rfl ?_ (by decide)
    dsimp only
    rw [guardParams_ok _ _ (by simpa [rsvOk, hg] using hw)]
    rfl
  · refine ⟨g.ebbBytes, exec_ends h rfl ?_ (by decide), g.ebbBytes_take, g.ebbBytes_length⟩
    dsimp only
    rw [guardParams_ok _ _ (by simp [rsvOk, hg]), hg]
    rfl
  · refine ⟨g.ebbBytes, exec_ends h rfl ?_ (by decide), g.ebbBytes_take, g.ebbBytes_length⟩
    dsimp only
    rw [guardParams_ok _ _ (by simp [rsvOk, hg]), hg]
    rfl

/-! ## Contexts, triggers and coding groups -/

theorem Ctx.header_length (c : Ctx) (x : Nat) (owner : Bool) : (c.header x owner).length = 128 := by
  unfold Ctx.header
  extract_lets gone z base within
  clear_value z base within
  simp only [List.length_append, beBytes_length, List.length_cons, List.length_nil, Nat.reduceAdd]

theorem Ctx.entry_length (c : Ctx) (m : Nat) : (c.entry m).length = 48 := by
  unfold Ctx.entry
  dsimp only
  split
  · exact List.length_replicate
  · simp only [List.length_append, beBytes_length]

theorem Ctx.entries_length (c : Ctx) (ms : List Nat) : (ms.flatMap c.entry).length = 48 * ms.length :=
  length_flatMap_const ms fun m _ => c.entry_length m

theorem rangeFrom_length (first count : Nat) : (rangeFrom first count).length = count := by
  simp [rangeFrom]

/-- The members that an exclusion reaches, and whether it ends their contexts, by `Option.map` and `Option.bind`. -/
theorem excludeAll_eq (s : State) (xs ms : List Nat) :
    let hit := xs.filter fun x => ((s.ctx x).map fun c => c.st.live && ms.any fun m => !(c.member m).excluded).getD false
    let t := hit.foldl (fun s x => s.excludeIn x ms) s
    let ended := hit.filter fun x => ((s.ctx x).bind fun c => (t.ctx x).map fun d =>
      d.st.terminal || (d.contributed && !c.contributed)).getD false
    s.excludeAll xs ms = (hit.length, ended.length, t) := by
  intro hit t ended
  have hhit : s.excludable xs ms = hit := by
    refine List.filter_congr fun x _ => ?_
    cases s.ctx x <;> rfl
  have hended : (hit.filter fun y => match s.ctx y, t.ctx y with
      | some c, some d => d.st.terminal || (d.contributed && !c.contributed)
      | _, _ => false) = ended := by
    refine List.filter_congr fun x _ => ?_
    cases s.ctx x <;> cases t.ctx x <;> rfl
  simp only [State.excludeAll, hhit]
  rw [← hended] <;> rfl

/-- The entries of triggers that stand are read without a free value. -/
theorem entryBytes_found {s : State} {k : Nat} {x : Trigger} (h : s.est.triggers.find k = some x) :
    s.entryBytes k = (beBytes 4 k ++ beBytes 2 x.counter ++ [0, 0] ++ beBytes 4 x.threshold ++ beBytes 4 x.ctx ++
      bvBytes 64 x.desc, s) := by
  simp only [State.entryBytes, h]

theorem entryBytes_only (s : State) (k : Nat) : ∃ n, (s.entryBytes k).2 = { s with free := n } := by
  unfold State.entryBytes
  split
  · exact ⟨s.free, rfl⟩
  · exact freeBytes_only s 74

/-- The entries of triggers from a number on, one after another (R408). -/
def State.readEntries (s : State) (acc : List Byte) (ks : List Nat) : List Byte × State :=
  ks.foldl (init := (acc, s)) fun (acc, s) k =>
    let (b, s) := s.entryBytes k
    (acc ++ b, s)

theorem readEntries_cons (s : State) (acc : List Byte) (k : Nat) (ks : List Nat) :
    s.readEntries acc (k :: ks) = (s.entryBytes k).2.readEntries (acc ++ (s.entryBytes k).1) ks := rfl

theorem readEntries_only (s : State) (acc : List Byte) (ks : List Nat) : ∃ n, (s.readEntries acc ks).2 = { s with free := n } := by
  induction ks generalizing s acc with
  | nil => exact ⟨s.free, rfl⟩
  | cons k ks ih =>
    rw [readEntries_cons]
    obtain ⟨n, hn⟩ := entryBytes_only s k
    obtain ⟨n', hn'⟩ := ih (s.entryBytes k).2 (acc ++ (s.entryBytes k).1)
    exact ⟨n', by rw [hn', hn]⟩

theorem readEntries_found {s : State} {ks : List Nat} {es : List Trigger} (h : ks.map s.est.triggers.find = es.map some)
    (acc : List Byte) : s.readEntries acc ks = (acc ++ (ks.zip es).flatMap fun (k, x) =>
      beBytes 4 k ++ beBytes 2 x.counter ++ [0, 0] ++ beBytes 4 x.threshold ++ beBytes 4 x.ctx ++ bvBytes 64 x.desc, s) := by
  induction ks generalizing es acc with
  | nil => simp [State.readEntries]
  | cons k ks ih =>
    obtain _ | ⟨x, es⟩ := es
    · simp at h
    · simp only [List.map_cons, List.cons.injEq] at h
      rw [readEntries_cons, entryBytes_found h.1, ih h.2]
      simp only [List.zip_cons_cons, List.flatMap_cons, List.append_assoc]

/-- A CTX_QUERY that passes its checks, off the number of a coding group's home (R405). -/
theorem ctxQuery_runs {s : State} {iss : Issuer} {i : Nat} {e : CmdEntry} {ctx : BitVec 32} {first count : BitVec 16}
    {met : List BlockErr} (h : Waits s (.ctxQuery iss ctx first count met) i e) (hx : ctx.toNat < 2097152)
    (hc : count.toNat ≤ 128) :
    let ms := rangeFrom first.toNat count.toNat
    let home := match s.codingAt ctx.toNat with
      | some (_, g) => decide (g.base = ctx.toNat)
      | none => false
    (home = true → exec (.ctxQuery iss ctx first count met) s =
      .next (s.ends i e stOk 0 (7 :: List.replicate (127 + 48 * ms.length) 0))) ∧
    (home = false → (s.queried ctx.toNat = none → exec (.ctxQuery iss ctx first count met) s =
        .next (s.ends i e stOk 0 (List.replicate (128 + 48 * ms.length) 0))) ∧
      ∀ x c, s.queried ctx.toNat = some (x, c) →
        let t := s.queryLines x c ms met
        let d := (t.ctx x).getD c
        exec (.ctxQuery iss ctx first count met) s = .next (t.ends i e stOk 0
          (d.header x (decide (x ≠ ctx.toNat ∧ d.st ≠ .free)) ++ ms.flatMap d.entry))) := by
  intro ms home
  have hg : ∀ c ∈ [(decide (ctx.toNat < 2097152), 0), (decide (count.toNat ≤ 128), 6)], c.1 = true := by simp [hx, hc]
  refine ⟨fun hh => ?_, fun hh => ⟨fun hq => ?_, fun x c hq => ?_⟩⟩
  · exact exec_ends h rfl ((guardParams_ok _ _ hg).trans (if_pos hh)) (by decide)
  · refine exec_ends h rfl ((guardParams_ok _ _ hg).trans ((if_neg (Bool.eq_false_iff.mp hh)).trans ?_)) (by decide)
    rw [hq]
    rfl
  · refine exec_ends h rfl ((guardParams_ok _ _ hg).trans ((if_neg (Bool.eq_false_iff.mp hh)).trans ?_)) (by decide)
    rw [hq]
    rfl

/-- The bytes of BWK_QUERY before the records (R420). -/
def Coding.queryHead (g : Coding) : List Byte :=
  let cur := g.count_ .current
  let sta := g.count_ .stale
  let dam := g.count_ .damaged
  beBytes 1 g.k ++ beBytes 1 (b2n (decide (dam ≠ 0)) + 2 * b2n g.destroying.isSome) ++ [0, 0] ++
    beBytes 8 g.id ++ beBytes 4 g.base ++ beBytes 4 g.count ++ beBytes 4 g.z ++
    beBytes 4 (g.z - cur - sta - dam) ++ beBytes 4 cur ++ beBytes 4 sta ++ beBytes 4 dam

theorem Coding.queryHead_length (g : Coding) : g.queryHead.length = 40 := by
  simp only [Coding.queryHead, List.length_append, beBytes_length, List.length_cons, List.length_nil, Nat.reduceAdd]

theorem Coding.queryHead_take (g : Coding) : g.queryHead.take 4 =
    beBytes 1 g.k ++ beBytes 1 (b2n (decide (g.count_ .damaged ≠ 0)) + 2 * b2n g.destroying.isSome) ++ [0, 0] := by
  simp only [Coding.queryHead, List.append_assoc]
  rfl

theorem Coding.records_length (g : Coding) : (g.records.flatMap (bvBytes 4)).length = 4 * g.records.length :=
  length_flatMap_const _ fun r _ => bvBytes_length 4 r

/-- Settles O41: each command passes its checks and does its one change. -/
theorem contextAndCodingCommandsComplete : Obligations.ContextAndCodingCommandsComplete := by
  refine ⟨fun s iss i e ctx first count met h hx hc => ?_, fun s iss i e ctx c h hx hl => ⟨fun hn => ?_, fun hd => ?_⟩,
    fun s iss i e group count g ms met hg h1 hk hm => ?_, excludeAll_eq,
    fun s iss i e kind items h hk hlen h0 h1 _ hitems => ?_, fun s iss i e count first h1 => ⟨fun h hk hf => ?_, fun h hk hf => ?_⟩,
    fun s iss i e group k base count z members h hg hnone hk hk' hrange hz hz' hrec hup hbusy hroom => ?_,
    fun s iss i e group g hup hg => ⟨fun h hd => ?_, fun first count h h0 h1 h2 => ?_⟩⟩
  · intro ms
    have hlen : ms.length = count.toNat := rangeFrom_length _ _
    obtain ⟨hhome, haway⟩ := ctxQuery_runs h hx hc
    rw [hlen] at hhome haway
    by_cases hb : ∃ k g, s.codingAt ctx.toNat = some (k, g) ∧ g.base = ctx.toNat
    · obtain ⟨k, g, hcod, hbase⟩ := hb
      exact ⟨s, _, hhome (by rw [hcod]; exact decide_eq_true hbase), by simp; omega, fun _ _ _ _ => ⟨rfl, rfl⟩,
        fun hne => absurd hbase (hne k g hcod)⟩
    · have hoff : ∀ k g, s.codingAt ctx.toNat = some (k, g) → g.base ≠ ctx.toNat := fun k g hcod hbase => hb ⟨k, g, hcod, hbase⟩
      obtain ⟨hnone, hsome⟩ := haway (by
        cases hcod : s.codingAt ctx.toNat with
        | none => rfl
        | some kg => exact decide_eq_false (hoff kg.1 kg.2 hcod))
      cases hq : s.queried ctx.toNat with
      | none =>
        exact ⟨s, _, hnone hq, by simp, fun k g hcod hbase => absurd hbase (hoff k g hcod),
          fun _ => ⟨fun _ => ⟨rfl, rfl⟩, fun x c hxc => (by cases hxc)⟩⟩
      | some xc =>
        obtain ⟨x, c⟩ := xc
        refine ⟨_, _, hsome x c hq, ?_, fun k g hcod hbase => absurd hbase (hoff k g hcod),
          fun _ => ⟨fun hno => (by cases hno), fun x' c' hxc => ?_⟩⟩
        · rw [List.length_append, Ctx.header_length, Ctx.entries_length, hlen]
        · obtain ⟨rfl, rfl⟩ := Prod.mk.inj (Option.some.inj hxc)
          exact ⟨rfl, rfl⟩
  · refine exec_ends h rfl ?_ (by decide)
    rw [hx, Option.filter_some, if_pos hl]
    exact if_neg (Bool.eq_false_iff.mp hn)
  · refine exec_ends h rfl ?_ (by decide)
    rw [hx, Option.filter_some, if_pos hl]
    exact if_pos hd
  · intro names marked out excl
    have hguard (f : Byte) (x : BitVec 32) (b : Bool) (hf : f.toNat < 3) (hb : b = true) :
        ∀ c ∈ [((some g).isSome, 0), (decide (f.toNat < 3), 2), rsvOk (0 : Byte) 3, (b, 4),
          (decide (1 ≤ count.toNat ∧ count.toNat ≤ 1024), 8), rsvOk (0 : BitVec 16) 10] ++
          ms.zipIdx.map fun (m, i) => (decide (m.toNat < ((some g).map (·.m)).getD 0), 12 + 2 * i), c.1 = true := by
      rw [List.forall_mem_append]
      refine ⟨by simp [rsvOk, hf, hb, h1, hk], fun c hc => ?_⟩
      obtain ⟨⟨m, n⟩, hmn, rfl⟩ := List.mem_map.mp hc
      exact decide_eq_true (hm m (List.fst_mem_of_mem_zipIdx hmn))
    refine ⟨fun h => ?_, fun h => ?_, fun x c h hlo hhi hx hl => ?_⟩
    · refine exec_ends h rfl ?_ (by decide)
      dsimp only
      rw [hg, guardParams_ok _ _ (by exact hguard 1 0 _ (by decide) rfl)]
      rfl
    · refine exec_ends h rfl ?_ (by decide)
      dsimp only
      rw [hg, guardParams_ok _ _ (by exact hguard 0 0 _ (by decide) rfl)]
      rfl
    · refine exec_ends h rfl ?_ (by decide)
      dsimp only
      rw [hg, guardParams_ok _ _ (by exact hguard 2 x _ (by decide) (by simp [hlo, hhi, hx, hl]))]
      rfl
  · refine exec_ends h rfl ?_ (by decide)
    have hkind (n : Nat) (hn : n < 256) (hk : kind.toNat = n) : kind = BitVec.ofNat 8 n :=
      BitVec.eq_of_toNat_eq (by rw [hk, BitVec.toNat_ofNat, Nat.mod_eq_of_lt hn])
    have h0' : kind.toNat = 0 → items.length ≤ 1000 := fun hk => h0 (hkind 0 (by decide) hk)
    have h1' : kind.toNat = 1 → items.length ≤ 111 := fun hk => h1 (hkind 1 (by decide) hk)
    have hn : (BitVec.ofNat 16 items.length).toNat = items.length := by
      rw [BitVec.toNat_ofNat, Nat.mod_eq_of_lt hlen]
    rw [guardParams_ok _ _ ?_]
    · rfl
    · rw [List.forall_mem_append]
      exact ⟨by simpa [rsvOk, hk, hn, ← imp_iff_not_or] using And.intro h0' h1', hitems⟩
  · refine exec_ends h rfl ?_ (by decide)
    dsimp only
    rw [guardParams_ok _ _ (by simp [rsvOk, h1, hk, hf])]
    rfl
  · obtain ⟨n, hn⟩ := readEntries_only s [] (rangeFrom first.toNat count.toNat)
    have hrun : exec (.triggerRead iss 1 0 count first) s = .next ((s.readEntries [] (rangeFrom first.toNat count.toNat)).2.ends
        i e stOk 0 (s.readEntries [] (rangeFrom first.toNat count.toNat)).1) := by
      refine exec_ends h rfl ?_ (by decide)
      dsimp only
      rw [guardParams_ok _ _ (by simp [rsvOk, h1, hk, hf])]
      rfl
    refine ⟨_, _, hrun.trans (by rw [hn]), fun es hes => ?_⟩
    have hread := readEntries_found hes []
    rw [hread] at hn ⊢
    exact ⟨(congrArg State.free hn).symm, List.nil_append _⟩
  · refine exec_ends h rfl ?_ (by decide)
    dsimp only
    have hroom' : ([0, 1, 2, 3].find? fun b => decide (s.bridgeUnits < (s.slotsUsed b).length + unitsOn z.toNat b)) = none := by
      rw [List.find?_eq_none]
      intro b hb
      have := hroom b (by simp at hb; omega)
      simpa using this
    rw [guardParams_ok _ _ ?_, guardUp_ok _ _ (by simp [hup]), hbusy, if_neg Bool.false_ne_true, hroom']
    · rfl
    · rw [List.forall_mem_append]
      exact ⟨by simp [rsvOk, hg, hnone, hk, hk', hrange, hz, hz'], hrec⟩
  · refine congrArg (fun t => Host.Outcome.next t.judgeDestroys) ((hostCmd_waits h _).trans (runCmd_pend ?_))
    dsimp only
    rw [hg, Option.filter_some, hd, guardParams_ok _ _ (by simp [rsvOk]), guardUp_ok _ _ (by simp [hup])]
    rfl
  · refine ⟨g.queryHead ++ g.records.flatMap (bvBytes 4) ++ packUnits g first.toNat count.toNat,
      exec_ends h rfl ?_ (by decide), ?_, ?_, ?_⟩
    · dsimp only
      rw [guardParams_ok _ _ (by simp [rsvOk, hg, h0, h1, h2]), guardUp_ok _ _ (by simp [hup]), hg]
      rfl
    · rw [List.append_assoc, List.take_append_of_le_length (by rw [g.queryHead_length]; decide), g.queryHead_take]
    · rw [List.append_assoc, List.drop_left' g.queryHead_length, List.take_left' g.records_length]
    · exact List.drop_left' (by rw [List.length_append, g.queryHead_length, g.records_length])

/-! ## The rows of a slice -/

theorem meet_nil (s : State) (part n : Nat) (place : BlockErr → Nat) : s.meet part n place [] = s := rfl

theorem lostBlocks_nil (n : Nat) : lostBlocks n [] = [] := rfl

/-- A control cell of the row's type, in time, for a context that is not open, is served (R356, R399). -/
theorem serveCtrl_unopened {s : State} {t type : Nat} {q : QCell} {rest : List QCell} (judge : QCell → State → State)
    (hq : s.queue (qKey t (qEst clsCtrl)) = q :: rest) (ht : ctrlType q.cell = type) (hl : s.now < q.limit)
    (hup : s.fnDown (fidTile t) = false) (hx : s.ctx q.cell.ctx = none) :
    s.serveCtrl t type judge = ((judge q (s.setQueue (qKey t (qEst clsCtrl)) rest)).touchLines t q.cell.ctx q.cell.member
      none).settle := by
  unfold State.serveCtrl
  dsimp only
  rw [hq]
  dsimp only
  rw [if_neg (not_not_intro ht), if_neg (Nat.not_le.mpr hl), if_neg (Bool.eq_false_iff.mp hup), hx]
  rfl

/-- The header of a context is let go of a slice where it has stood idle long enough (R367). -/
def State.unpinIdle (s : State) (x idle t : Nat) : State :=
  if (((s.slice t).pins.find x).map fun at_ => decide (at_ + idle ≤ s.now)).getD false then
    s.setSlice t fun v => { v with pins := v.pins.del x }
  else s

theorem unpinIdle_only (s : State) (x idle t : Nat) : ∃ sl, s.unpinIdle x idle t = { s with est := { s.est with slices := sl } } := by
  unfold State.unpinIdle
  split
  · exact ⟨_, rfl⟩
  · exact ⟨s.est.slices, rfl⟩

theorem unpinIdle_pins (s : State) (x idle t : Nat) {at_ : Nat} (h : ((s.unpinIdle x idle t).slice t).pins.find x = some at_) :
    s.now < at_ + idle := by
  unfold State.unpinIdle at h
  split at h
  · rw [setSlice_slice] at h
    simp at h
  next hn =>
    rw [h] at hn
    simpa using hn

/-- A pin that stands after another slice's turn stood before it. -/
theorem unpinIdle_pins_of (s : State) (x idle t : Nat) {k at_ : Nat} (h : ((s.unpinIdle x idle t).slice k).pins.find x = some at_) :
    (s.slice k).pins.find x = some at_ := by
  unfold State.unpinIdle at h
  split at h
  · by_cases hk : k = t
    · subst hk
      rw [setSlice_slice] at h
      simp at h
    · rwa [setSlice_slice_ne s _ hk] at h
  · exact h

theorem unpinIdle_foldl_only (s : State) (x idle : Nat) (ts : List Nat) :
    ∃ sl, ts.foldl (fun s t => s.unpinIdle x idle t) s = { s with est := { s.est with slices := sl } } := by
  induction ts generalizing s with
  | nil => exact ⟨s.est.slices, rfl⟩
  | cons t ts ih =>
    obtain ⟨a, ha⟩ := unpinIdle_only s x idle t
    obtain ⟨b, hb⟩ := ih (s.unpinIdle x idle t)
    exact ⟨b, by rw [List.foldl_cons, hb, ha]⟩

theorem unpinIdle_foldl_pins_of (s : State) (x idle : Nat) (ts : List Nat) {k at_ : Nat}
    (h : ((ts.foldl (fun s t => s.unpinIdle x idle t) s).slice k).pins.find x = some at_) :
    (s.slice k).pins.find x = some at_ := by
  induction ts generalizing s with
  | nil => exact h
  | cons t ts ih => exact unpinIdle_pins_of s x idle t (ih _ h)

theorem unpinIdle_foldl_pins (s : State) (x idle : Nat) {ts : List Nat} {k at_ : Nat} (hk : k ∈ ts)
    (h : ((ts.foldl (fun s t => s.unpinIdle x idle t) s).slice k).pins.find x = some at_) : s.now < at_ + idle := by
  induction ts generalizing s with
  | nil => exact absurd hk (List.not_mem_nil)
  | cons t ts ih =>
    obtain ⟨sl, hsl⟩ := unpinIdle_only s x idle t
    by_cases hkt : k = t
    · subst hkt
      exact unpinIdle_pins s x idle k (unpinIdle_foldl_pins_of _ x idle ts h)
    · have hnow := ih (s.unpinIdle x idle t) ((List.mem_cons.mp hk).resolve_left hkt) h
      rw [hsl] at hnow
      exact hnow

theorem AMap.mem_of_find {α : Type} {m : AMap α} {k : Nat} {v : α} (h : m.find k = some v) : (k, v) ∈ m := by
  induction m with
  | nil => simp [AMap.find] at h
  | cons p m ih =>
    simp only [AMap.find] at h
    split at h
    next hk =>
      obtain rfl := Option.some.inj h
      subst hk
      exact List.mem_cons_self
    · exact List.mem_cons_of_mem _ (ih h)

/-- A slice that holds a pin stands in the map of slices. -/
theorem slice_listed {s : State} {k x at_ : Nat} (h : (s.slice k).pins.find x = some at_) : (k, s.slice k) ∈ s.est.slices := by
  unfold State.slice AMap.getD at h ⊢
  cases hk : s.est.slices.find k with
  | none =>
    rw [hk] at h
    simp [Slice.init, AMap.find] at h
  | some v => exact AMap.mem_of_find hk

theorem headerUnpin_row (s : State) (x : CtxNum) (e : Nat) (es : List Nat)
    (h : (s.est.slices.filterMap fun e => (e.2.pins.find x.toNat).map (· + s.regBits .estConfig [] 15 8 * 1000)) = e :: es) :
    let u := s.advanceTo (es.foldl min e)
    exec (.headerUnpin x) s = .next ((u.est.slices.map (·.1)).foldl
      (fun v t => v.unpinIdle x.toNat (u.regBits .estConfig [] 15 8 * 1000) t) u) := by
  show execHeaderUnpin x s = _
  unfold execHeaderUnpin
  dsimp only
  rw [h]
  rfl

theorem headerUnpin_keeps (s : State) (x : CtxNum) : ∃ t, exec (.headerUnpin x) s = .next t ∧ t.nvm = s.nvm ∧
    t.mgmt = s.mgmt ∧ t.est.ctxs = s.est.ctxs ∧ ∀ k at_, (t.slice k).pins.find x.toNat = some at_ →
      t.now < at_ + s.regBits .estConfig [] 15 8 * 1000 := by
  cases he : s.est.slices.filterMap fun e => (e.2.pins.find x.toNat).map (· + s.regBits .estConfig [] 15 8 * 1000) with
  | nil =>
    refine ⟨s, ?_, rfl, rfl, rfl, fun k at_ hpin => ?_⟩
    · show execHeaderUnpin x s = _
      unfold execHeaderUnpin
      dsimp only
      rw [he]
    · have := List.filterMap_eq_nil_iff.mp he _ (slice_listed hpin)
      simp [hpin] at this
  | cons e es =>
    refine ⟨_, headerUnpin_row s x e es he, ?_⟩
    obtain ⟨w, hw⟩ := advanceTo_only s (es.foldl min e)
    rw [hw]
    obtain ⟨sl, hsl⟩ := unpinIdle_foldl_only { s with time := w } x.toNat (s.regBits .estConfig [] 15 8 * 1000)
      (s.est.slices.map (·.1))
    refine ⟨(congrArg State.nvm hsl :), (congrArg State.mgmt hsl :), (congrArg (fun u => u.est.ctxs) hsl :), fun k at_ hpin => ?_⟩
    have hk : k ∈ s.est.slices.map (·.1) :=
      List.mem_map_of_mem (f := Prod.fst) (slice_listed (unpinIdle_foldl_pins_of { s with time := w } _ _ _ hpin))
    have hlt := unpinIdle_foldl_pins { s with time := w } _ _ hk hpin
    exact (congrArg State.now hsl :).trans_lt hlt

/-- A line's fetch completes where every bridge that it waits for is down or has its link (R366, note 73). -/
theorem ctxLineFetch_row {s : State} {t : Tile} {f : Fetch} (met : List BlockErr) (hf : (s.slice t.val).fetch = some f)
    (hm : ∀ m ∈ f.marks, s.fnDown (fidBrg m.1) = true ∨ s.linkUp (16 + m.1) = true) :
    let down := f.lines.filter fun l => s.fnDown (fidBrg (lineBridge f.ctx l))
    let u := (s.advanceTo ((f.marks.map fun m => s.linkDue m.1 false 0 m.2).foldl max 0)).setSlice t.val fun v => { v with fetch := none }
    (down ≠ [] → exec (.ctxLineFetchComplete t met) s = .next ((u.ctxFault f.ctx down).settle)) ∧
    (down = [] → met = [] → exec (.ctxLineFetchComplete t met) s = .next
      ((u.setSlice t.val fun v => { v with lines := f.lines.map (fun l => ⟨f.ctx, l, false⟩) ++ v.lines }).makeRoom t.val f.ctx)) := by
  intro down u
  have hgo : ¬ (f.marks.any fun m => !s.fnDown (fidBrg m.1) && !s.linkUp (16 + m.1)) = true := by
    rw [List.any_eq_true]
    rintro ⟨m, hmem, h⟩
    rcases hm m hmem with hd | hd <;> simp [hd] at h
  constructor
  · intro hd
    show execCtxLineFetchComplete t met s = _
    unfold execCtxLineFetchComplete
    simp only [hf]
    rw [if_neg hgo, if_pos (by simpa [down] using hd)]
  · rintro hd rfl
    show execCtxLineFetchComplete t [] s = _
    unfold execCtxLineFetchComplete
    simp only [hf]
    rw [if_neg hgo, if_neg (by simpa [down] using hd)]
    simp [meet_nil, lostBlocks_nil, u]

/-- A delta at the head of its bridge's link is taken when it has arrived (R428, note 73). -/
theorem deltaApply_row {s : State} {b : Bridge} {d : Delta} {rest : List Delta} (hd : s.bwk.deltas.getD b.val [] = d :: rest)
    (hup : s.fnDown (fidBrg b.val) = false) (hlink : s.linkUp (16 + b.val) = true) (met : List BlockErr) :
    let v := s.advanceTo (s.linkDue b.val true 2 d.mark)
    let u (ps : AMap (BitVec 512 × BitVec 512)) : State :=
      { v with bwk := { s.bwk with deltas := s.bwk.deltas.setD b.val [] rest, parity := ps } }
    exec (.deltaApply b met) s = .next (match s.ctx d.ctx with
      | none => u s.bwk.parity
      | some c =>
        let n := dOffset c.desc + d.chunk
        let at_ := ((s.bwk.groups.find c.group).map fun g => g.parityAddr (dUnit c.desc) n).getD 0
        let w := (u s.bwk.parity).meet 2 2 (fun e => addrStack (at_ + e.block * 2 ^ 21)) met
        if !c.st.live then w
        else if !(lostBlocks 2 met).isEmpty then (w.damage c.group (dUnit c.desc)).settle
        else
          let p := w.parityOf c.group (dUnit c.desc) n
          let parity := w.bwk.parity.setD (parityKey c.group (dUnit c.desc) n) (0, 0)
            (p.1 ^^^ d.data, p.2 ^^^ gfScale (gfPow d.position) d.data)
          let t : State := { w with bwk := { w.bwk with parity := parity } }
          let k := c.chunks.getD d.chunk ⟨0, t.now, [], 0, 0, false, false⟩
          (((t.putCtx d.ctx { c with chunks := c.chunks.put d.chunk { k with k := k.k + 1 } }).bump
            .bwkDeltaChunks []).judgeChunks d.ctx).settle) := by
  intro v u
  obtain ⟨w, hw⟩ := advanceTo_only s (s.linkDue b.val true 2 d.mark)
  have hgo : ¬ (s.fnDown (fidBrg b.val) = true ∨ (!s.linkUp (16 + b.val)) = true) := by simp [hup, hlink]
  show execDeltaApply b met s = _
  unfold execDeltaApply
  simp only [hd]
  rw [if_neg hgo]
  simp only [u, v, hw]
  rfl

/-- Settles O42: each row is its branch of the state. -/
theorem estuaryRowsComplete : Obligations.EstuaryRowsComplete := by
  refine ⟨fun s t => ⟨rfl, rfl⟩, fun s t q rest hq hl hup hx => ⟨fun h1 => ?_, fun met h2 hk => ?_⟩,
    fun s x c hx hl => ⟨fun hn => ?_, fun hd => ?_⟩, fun s x c hx ht => ?_,
    fun s x c hx hl hr => ⟨fun hready met => ?_, fun hready met => ?_⟩,
    fun s x c => ?_, fun s x c r hx ha hr => ?_, fun s x c r hx ha hn hr => ?_, fun s t f hf hup hm => ?_,
    fun s t f met hf hm hd => ?_, headerUnpin_keeps, fun s b d rest hd hup hlink hx => ?_, fun s b d rest c met hd hup hlink hx => ?_⟩
  · exact congrArg Host.Outcome.next (serveCtrl_unopened _ hq h1 hl hup hx)
  · have hready : ¬ ((s.queue (qKey t.val (qEst clsCtrl))).head?.any fun q => !s.resendReady q) = true := by
      simp [hq, State.resendReady, hx]
    refine congrArg Host.Outcome.next ((if_neg hready).trans ((serveCtrl_unopened _ hq h2 hl hup hx).trans ?_))
    rw [if_pos hk]
  · show execContextDeadline x s = _
    simp only [execContextDeadline, hx, hl, hn, Bool.not_true, Bool.false_eq_true, if_false]
  · show execContextDeadline x s = _
    simp only [execContextDeadline, hx, hl, hd, Bool.not_true, Bool.false_eq_true, if_false, if_true]
  · show execLingerExpiry x s = _
    simp only [execLingerExpiry, hx, ht, if_true]
  · have hgo : ¬ ((!c.st.live) = true ∨ 4 ≤ c.rounds ∨
        (!s.linesReady (homeOf x.toNat 0) x.toNat (c.headLines (List.range c.m))) = true) := by
      simp [hl, hready, hr]
    refine ⟨fun hu => ?_, fun hu => ?_⟩
    · show execMissingRound x met s = _
      simp only [execMissingRound, hx]
      rw [if_neg hgo, hu, Option.filter_some, if_pos hl]
    · show execMissingRound x met s = _
      simp only [execMissingRound, hx]
      rw [if_neg hgo, hu]
  · show execMissingRound x met s = _
    simp only [execMissingRound, hx]
    rw [if_pos (by simp [hready])]
  · intro u hall
    have hnone : c.rounds = 0 → (c.activeMembers.filter fun m => (u.recPort (u.memberRec c m)).isNone) = [] := fun h0 =>
      List.filter_eq_nil_iff.mpr fun m hm => by simp [Option.isNone_eq_false_iff.mpr (hall h0 m hm)]
    unfold State.missingRound
    dsimp only
    split
    next h0 => rw [hnone h0]; rfl
    next => rfl
  · show execPaceRoundStart x s = _
    simp only [execPaceRoundStart, hx, hr]
    rw [if_neg (not_not_intro ha)]
    simp only [List.isEmpty_iff]
  · show execPaceRoundStart x s = _
    simp only [execPaceRoundStart, hx, hn, hr]
    rw [if_neg (not_not_intro ha)]
  · exact (ctxLineFetch_row [] hf fun m hmem => .inr (hm m hmem)).2 (by simpa [List.filter_eq_nil_iff] using hup) rfl
  · exact (ctxLineFetch_row met hf hm).1 hd
  · rw [deltaApply_row hd hup hlink [], hx]
  · intro n
    have hrow (met : List BlockErr) := deltaApply_row hd hup hlink met
    simp only [hx] at hrow
    split
    next p q hpq =>
    intro v k parity u at_ w
    have hpar : s.bwk.parity.getD (parityKey c.group (dUnit c.desc) n) (0, 0) = (p, q) := hpq
    refine ⟨fun hl => (hrow []).trans ?_, fun hl hlost => (hrow met).trans ?_, fun hl => (hrow met).trans ?_⟩
    · simp only [hl, lostBlocks_nil, meet_nil, List.isEmpty_nil, Bool.not_true, Bool.false_eq_true, if_false]
      simp only [State.parityOf]
      rw [hpar]
      rfl
    · rw [hl, if_neg (by decide), if_pos (by simpa using hlost)]
    · rw [hl, if_pos (by decide)]

end Sys2Proof.Machine
end
